-- ==== Sys2Proof/Word.lean ====
section
/-! DEFINITION. The word types of the machine (00_scope R3) and their plainest arithmetic. -/

namespace Sys2Proof

/-- A 32-bit word (R3). -/
abbrev Word := BitVec 32

/-- A 64-bit doubleword (R3). -/
abbrev DWord := BitVec 64

/-- An 8-bit byte (R3). -/
abbrev Byte := BitVec 8

/-- Bits `[hi:lo]` of a natural number, as a natural number (R3). -/
def bitsOf (x hi lo : Nat) : Nat := x / 2 ^ lo % 2 ^ (hi + 1 - lo)

/-- Bit `i` of a natural number. -/
def bitOf (x i : Nat) : Bool := x.testBit i

/-- A Bool as 0 or 1. -/
def b2n (b : Bool) : Nat := if b then 1 else 0

end Sys2Proof
end

