-- ==== Sys2Proof/Config.lean ====
section
/-! DEFINITION. What the part fixes (counts and limits of the spec) and the values that the spec leaves open, as opaque
constants: nothing in Lean can evaluate one or prove a value of it. -/

namespace Sys2Proof.Config

/-! ### Counts (01_machine R12) -/

/-- Compute cores, four to a cluster (R11, R12). -/
def cores : Nat := 56
/-- Clusters (R12). -/
def clusters : Nat := 14
/-- Partitions of a core. -/
def partitions : Nat := 8
/-- Frontier entries of a partition (R73). -/
def frontier : Nat := 32
/-- The largest valid packet index (R26). -/
def lastPacket : Nat := 5460
/-- Packets of one run (R80). -/
def runPackets : Nat := 12
/-- The age at which an entry joins the aged queue (R74). -/
def ageLimit : Nat := 16
/-- Core cycles after which a rendezvous or a cleat phase times out (R84, R88), and the quiet time of a directory
entry (R238). -/
def timeout : Nat := 1048576
/-- Cleats of a core (R86). -/
def cleats : Nat := 32
/-- Records of a cluster's rig table (R117). -/
def rigRecords : Nat := 64
/-- Entries of a core's future table (R111). -/
def futures : Nat := 1024
/-- Entries of a core's range scoreboard (R209). -/
def scoreboard : Nat := 32
/-- Lines of a core's data cache of 256 KiB (R211), and of a slice of the L2 of 4 MiB (R12). -/
def dataLines : Nat := 4096
def sliceLines : Nat := 65536
/-- Slices of the L2 (R12, R234). -/
def slices : Nat := 96
/-- Slots of a core's mailbox ring (R373). -/
def mailbox : Nat := 256
/-- Entries of a fault buffer (R271). -/
def faultEntries : Nat := 8
/-- Walk slots of a cluster (R265). -/
def walkSlots : Nat := 32
/-- Entries of an L1 TLB and of an L2 TLB (R265). -/
def l1Entries : Nat := 64
def l2Entries : Nat := 4096

/-! ### Open values -/

/-- A free 32-bit value, one for each draw: the contents of a latch that a switch point has lost (R80, R367), and other
values that the spec leaves undefined (log 2). -/
opaque freeWord : Nat → Word

/-- A free 384-bit value, one for each draw: the output of the device's DRBG (log 11). -/
opaque freeKey : Nat → BitVec 384

/-- Which of the two FP32 values that bracket the exact result an approximated function returns: `true` the one of
larger magnitude. The same for the same operand (07_float R179; log 12). `fn` is the function's F code, `mag` the
operand's magnitude bits. -/
opaque approxUp : Nat → BitVec 32 → Bool

/-- The port through which an access to memory outside the device leaves it: `true` port 1 (log 13). -/
opaque hostPort : Nat → Bool

/-- Whether a line outside the device lies in the memory of an expander (21_neardata R435; log 151). -/
opaque expander : Nat → Bool

/-- Where the dynamic capacity region of a TD9-X begins: its static capacity, as the boot configuration fixes it (20_boundary
R425; log 152). -/
opaque staticCapacity : Nat

/-- The digest, tag, signature and key derivation functions of the trust core, as functions of a name for the use and of
the words they take (log 14). -/
opaque crypto : Nat → List Nat → BitVec 384

/-- Whether a signature, a MAC or a certificate check passes, for the words it takes (log 14). -/
opaque cryptoOk : Nat → List Nat → Bool

/-- What the BCH code-offset decode of a PUF response gives with helper data (19_trust R398; log 14). -/
opaque bchDecode : List Word → List Word → Option (List Word)

/-- The integrity range, IBASE and ILIMIT, that the boot configuration gives (19_trust R406; log 16). -/
opaque integrityRange : Nat × Nat

/-- Reference-clock ticks that pass in a step, for the number of the step (log 17). -/
opaque ticksOf : Nat → BitVec 64

end Sys2Proof.Config
end

