-- ==== Sys2Proof/Syntax.lean ====
section
/-! DEFINITION. Every instruction word of Dynil and every device event, as data: one constructor of `Instr` for each
row of spec/opcode_table.json. The operand records hold the fields of the word formats (02_encoding R27 to R37, Tables
2-4, 4-2, 14-8 and 16-8); nothing here says what an instruction does. -/

namespace Sys2Proof

/-- Format A (R29): chain bit, scope, destination, two sources, guard; `lit` is the literal word that follows a word
with code 31 in a source field (R42), and zero otherwise. -/
structure OpA where
  c : BitVec 1
  s : BitVec 2
  d : BitVec 5
  a : BitVec 5
  b : BitVec 5
  g : BitVec 3
  lit : Word
  deriving DecidableEq, Repr

/-- Format T (R30): three sources; `e` is C3. -/
structure OpT where
  c : BitVec 1
  s : BitVec 2
  d : BitVec 5
  a : BitVec 5
  b : BitVec 5
  e : BitVec 5
  g : BitVec 3
  lit : Word
  deriving DecidableEq, Repr

/-- Format I (R31): a 13-bit immediate, no guard and no literal. -/
structure OpI where
  c : BitVec 1
  s : BitVec 2
  d : BitVec 5
  a : BitVec 5
  imm : BitVec 13
  deriving DecidableEq, Repr

/-- Format B (R32): guard, its negation, and an offset in packets. -/
structure OpB where
  c : BitVec 1
  s : BitVec 2
  g : BitVec 3
  n : BitVec 1
  off : BitVec 19
  deriving DecidableEq, Repr

/-- Format M (R33): data, base pair, offset, guard and size. -/
structure OpM where
  c : BitVec 1
  s : BitVec 2
  d : BitVec 5
  a : BitVec 5
  x : BitVec 5
  g : BitVec 3
  sz : BitVec 2
  lit : Word
  deriving DecidableEq, Repr

/-- A STAGE packet (Table 2-4), its reserved fields included. -/
structure StageOp where
  s : BitVec 2
  nv : BitVec 3
  nu : BitVec 2
  vbase0 : BitVec 8
  vlen0 : BitVec 4
  rsv0 : BitVec 6
  vbase1 : BitVec 8
  vlen1 : BitVec 4
  vbase2 : BitVec 8
  vlen2 : BitVec 4
  vbase3 : BitVec 8
  vlen3 : BitVec 4
  ubase0 : BitVec 8
  ulen0 : BitVec 3
  ubase1 : BitVec 8
  ulen1 : BitVec 3
  rsv2 : BitVec 6
  deriving DecidableEq, Repr

/-- A BWAY packet (Table 4-2), its reserved field included. -/
structure BwayOp where
  s : BitVec 2
  np : BitVec 3
  neg : BitVec 4
  g0 : BitVec 3
  t0 : BitVec 13
  g1 : BitVec 3
  t1 : BitVec 13
  g2 : BitVec 3
  t2 : BitVec 13
  g3 : BitVec 3
  t3 : BitVec 13
  rsv2 : BitVec 16
  deriving DecidableEq, Repr

/-- An MMA packet (Table 14-8), its reserved fields included. -/
structure MmaOp where
  s : BitVec 2
  hd : BitVec 5
  fw : BitVec 5
  bank : BitVec 1
  rsv0 : BitVec 4
  nblkm1 : BitVec 8
  bblk0 : BitVec 8
  ablk0 : BitVec 8
  colsm1 : BitVec 8
  rsv1 : BitVec 8
  rsv2 : BitVec 32
  deriving DecidableEq, Repr

/-- A KVX packet (Table 16-8), its reserved fields included. -/
structure KvxOp where
  s : BitVec 2
  d : BitVec 5
  seq : BitVec 5
  pos : BitVec 5
  pm : BitVec 3
  pin : BitVec 1
  pool : BitVec 4
  od : BitVec 5
  rsv1 : BitVec 27
  rsv2 : BitVec 32
  deriving DecidableEq, Repr

/-- The type sub-field of major 0x18 (Table 2-7); 0b11 is reserved. -/
inductive FType where
  | f32 | f16 | bf16
  deriving DecidableEq, Repr

/-- The operation sub-field of major 0x22 (Table 2-8). -/
inductive RedOp where
  | addS32 | addF32 | minS32 | maxS32 | minF32 | maxF32 | and | or
  deriving DecidableEq, Repr

/-- The cache hint of a load or store (R34, R212). -/
inductive Hint where
  | dflt | strm | nodc | once
  deriving DecidableEq, Repr

/-- The operation of an atomic (Table 2-9, majors 0x27 and 0x28). -/
inductive AtomOp where
  | add | min | max | and | or | xor | exch | cas
  deriving DecidableEq, Repr

/-- What a cold start reads to rebuild its key (19_trust R398): the start-up state of the PUF array and its fresh reads, in order,
and the helper data of the boot flash. -/
structure PufReading where
  responses : List (List Word)
  helper : List Word
  deriving DecidableEq, Repr

/-- One constructor for each row of the opcode table: 185 instruction words, then the device events, which have no
encoding and carry what the unit that causes them supplies. -/
inductive Instr where
  /-- NOP (R95): Does nothing; with YARD or RIG scope it is BAR, whose whole effect is the rendezvous. -/
  | nop (o : OpA)
  /-- YIELD (R96): Each active thread transfers to the next packet and waits there in the frontier table. -/
  | yield (o : OpA)
  /-- EXIT (R97): Ends each active thread, updates rendezvous and cleat EXPECT, releases pending tags and retires the yard after its last thread. -/
  | exit (o : OpA)
  /-- JMP (R102): Transfers each active thread to a packet index of the current segment. -/
  | jmp (o : OpA)
  /-- CALLI (R102): Checks a full program counter and its segment, sets RA and transfers. -/
  | calli (o : OpA)
  /-- RET (R102): Transfers each active thread to RA after the fetch and segment checks. -/
  | ret (o : OpA)
  /-- BRA (R98): Relative branch within the segment, taken per thread on the guard with N applied. -/
  | bra (o : OpB)
  /-- CALL (R98): Relative call within the segment that writes RA in the threads that take it. -/
  | call (o : OpB)
  /-- BWAY (R100): Wide multi-way branch that transfers each thread to the first pair whose guard holds. -/
  | bway (o : BwayOp)
  /-- JMPF (R102): Far jump to a program counter in any segment, after the fetch and landed-segment checks. -/
  | jmpf (o : OpA)
  /-- SEGFETCH (R108): Starts or joins the landing of an overlay into a segment and returns a future handle. -/
  | segfetch (o : OpA)
  /-- SEGSTAT (R106): Writes the status word of a segment. -/
  | segstat (o : OpA)
  /-- RIGDEF (R119): Allocates a rig record in the cluster and returns the handle of a declared rig. -/
  | rigdef (o : OpA)
  /-- JOIN (R120): Adds the yard to a rig with the lowest free ordinal, allocating a cleat where needed and sealing on the last ordinal. -/
  | join (o : OpA)
  /-- LEAVE (R121): Removes the yard from its rig and dissolves the rig when the last member of a sealed rig leaves. -/
  | leave (o : OpA)
  /-- SIGN (R122): Signs the rig's cleat on the core and waits for the phase to release. -/
  | sign (o : OpA)
  /-- FWAIT (R113): Blocks until the future in a tagged register resolves, then writes the resolved handle. -/
  | fwait (o : OpA)
  /-- FTEST (R114): Writes a predicate telling whether a future has resolved, without blocking. -/
  | ftest (o : OpA)
  /-- FCANCEL (R115): Asks the engine of a pending operation to cancel it. -/
  | fcancel (o : OpA)
  /-- FPASS (R116): Copies a handle with its pending tag and increments the future entry's reference count. -/
  | fpass (o : OpA)
  /-- STAGE (R125): Ends the thread's region and stages the named registers into operand-buffer slots. -/
  | stage (o : StageOp)
  /-- MOV (R142): Copies a source into a vector slot, with its octet byte when the source is a slot. -/
  | mov (o : OpA)
  /-- MOVS (R142): Writes a uniform slot per yard from its lowest active lane. -/
  | movs (o : OpA)
  /-- RDSR (R140): Reads a special register. -/
  | rdsr (o : OpA)
  /-- WRSR (R140): Writes a special register. -/
  | wrsr (o : OpA)
  /-- SEL (R142): Selects one of two sources per lane by a predicate. -/
  | sel (o : OpT)
  /-- HOIST (R144): Acquires extended register chunks for the yard, or queues the request when the pool cannot serve it. -/
  | hoist (o : OpA)
  /-- REEF (R144): Releases extended chunks to the partition pool. -/
  | reef (o : OpA)
  /-- GMOV (R143): Reads and optionally writes a rig register at its holder in one action. -/
  | gmov (o : OpA)
  /-- SPILLV (R148): Stores a register range of the yard to its spill area as a burst of lines. -/
  | spillv (o : OpM)
  /-- FILLV (R148): Loads a register range of the yard back from its spill area. -/
  | fillv (o : OpM)
  /-- IADD (R153): Wrapping 32-bit addition. -/
  | iadd (o : OpA)
  /-- ISUB (R153): Wrapping 32-bit subtraction. -/
  | isub (o : OpA)
  /-- ADDC (R154): Writes the carry of a natural addition as 0 or 1. -/
  | addc (o : OpA)
  /-- SUBB (R154): Writes the borrow of a natural subtraction as 0 or 1. -/
  | subb (o : OpA)
  /-- IMIN_S32 (R153): Signed minimum. -/
  | iminS32 (o : OpA)
  /-- IMIN_N32 (R153): Natural minimum. -/
  | iminN32 (o : OpA)
  /-- IMAX_S32 (R153): Signed maximum. -/
  | imaxS32 (o : OpA)
  /-- IMAX_N32 (R153): Natural maximum. -/
  | imaxN32 (o : OpA)
  /-- IABS (R153): Wrapping absolute value. -/
  | iabs (o : OpA)
  /-- AND (R153): Bitwise and. -/
  | and (o : OpA)
  /-- OR (R153): Bitwise or. -/
  | or (o : OpA)
  /-- XOR (R153): Bitwise exclusive or. -/
  | xor (o : OpA)
  /-- ANDN (R153): Bitwise a and not b. -/
  | andn (o : OpA)
  /-- POPC (R153): Population count. -/
  | popc (o : OpA)
  /-- CLZ (R153): Count of leading zeros. -/
  | clz (o : OpA)
  /-- BREV (R153): Bit reversal. -/
  | brev (o : OpA)
  /-- ADD64 (R159): Wrapping 64-bit addition of a pair and a sign-extended word, with no check. -/
  | add64 (o : OpA)
  /-- PTAG (R160): Builds an on-chip pointer from an offset and a tag word. -/
  | ptag (o : OpA)
  /-- SHL (R153): Logical left shift by the whole count. -/
  | shl (o : OpA)
  /-- SHR (R153): Logical right shift. -/
  | shr (o : OpA)
  /-- SAR (R153): Arithmetic right shift. -/
  | sar (o : OpA)
  /-- ROT (R153): Left rotation. -/
  | rot (o : OpA)
  /-- BFX_N32 (R156): Extracts a bit field with zero extension. -/
  | bfxN32 (o : OpA)
  /-- BFX_S32 (R156): Extracts a bit field with sign extension. -/
  | bfxS32 (o : OpA)
  /-- IMUL (R153): Low word of a product. -/
  | imul (o : OpA)
  /-- IMULH_S32 (R153): High word of a signed product. -/
  | imulhS32 (o : OpA)
  /-- IMULH_N32 (R153): High word of a natural product. -/
  | imulhN32 (o : OpA)
  /-- IDIV_S32 (R155): Signed division rounded toward zero. -/
  | idivS32 (o : OpA)
  /-- IDIV_N32 (R155): Natural division. -/
  | idivN32 (o : OpA)
  /-- IREM_S32 (R155): Signed remainder. -/
  | iremS32 (o : OpA)
  /-- IREM_N32 (R155): Natural remainder. -/
  | iremN32 (o : OpA)
  /-- ICMP_EQ (R157): Writes a predicate for a = b. -/
  | icmpEq (o : OpA)
  /-- ICMP_NE (R157): Writes a predicate for a ≠ b. -/
  | icmpNe (o : OpA)
  /-- ICMP_LT_S32 (R157): Signed less-than compare. -/
  | icmpLtS32 (o : OpA)
  /-- ICMP_LE_S32 (R157): Signed less-or-equal compare. -/
  | icmpLeS32 (o : OpA)
  /-- ICMP_GT_S32 (R157): Signed greater-than compare. -/
  | icmpGtS32 (o : OpA)
  /-- ICMP_GE_S32 (R157): Signed greater-or-equal compare. -/
  | icmpGeS32 (o : OpA)
  /-- ICMP_LT_N32 (R157): Natural less-than compare. -/
  | icmpLtN32 (o : OpA)
  /-- ICMP_LE_N32 (R157): Natural less-or-equal compare. -/
  | icmpLeN32 (o : OpA)
  /-- ICMP_GT_N32 (R157): Natural greater-than compare. -/
  | icmpGtN32 (o : OpA)
  /-- ICMP_GE_N32 (R157): Natural greater-or-equal compare. -/
  | icmpGeN32 (o : OpA)
  /-- PAND (R158): Predicate and. -/
  | pand (o : OpA)
  /-- POR (R158): Predicate or. -/
  | por (o : OpA)
  /-- PXOR (R158): Predicate exclusive or. -/
  | pxor (o : OpA)
  /-- PNOT (R158): Predicate negation. -/
  | pnot (o : OpA)
  /-- IMAD (R153): Wrapping multiply-add a × b + c. -/
  | imad (o : OpT)
  /-- BFI (R156): Inserts a bit field into a base word. -/
  | bfi (o : OpT)
  /-- ADDI (R153): Adds a sign-extended 13-bit immediate. -/
  | addi (o : OpI)
  /-- LEA (R161): Steps a pointer by an immediate, keeping and checking its form. -/
  | lea (o : OpI)
  /-- FADD (R174): Floating-point addition of the selected type. -/
  | fadd (ty : FType) (o : OpA)
  /-- FSUB (R174): Floating-point subtraction. -/
  | fsub (ty : FType) (o : OpA)
  /-- FMUL (R174): Floating-point multiplication. -/
  | fmul (ty : FType) (o : OpA)
  /-- FMIN (R174): minimumNumber of two values. -/
  | fmin (ty : FType) (o : OpA)
  /-- FMAX (R174): maximumNumber of two values. -/
  | fmax (ty : FType) (o : OpA)
  /-- FSCALE (R174): Scales a value by a power of two. -/
  | fscale (ty : FType) (o : OpA)
  /-- FMA_F32 (R175): Fused FP32 multiply-add. -/
  | fmaF32 (o : OpT)
  /-- FMA_F32_NEG (R175): Fused FP32 multiply-add with the first source negated. -/
  | fmaF32Neg (o : OpT)
  /-- FMA_BF16 (R175): Fused multiply-add on two BF16 halves. -/
  | fmaBf16 (o : OpT)
  /-- FABS (R177): Clears the sign bit. -/
  | fabs (o : OpA)
  /-- FRCP (R177): Correctly rounded reciprocal. -/
  | frcp (o : OpA)
  /-- FRSQ (R177): Correctly rounded reciprocal square root. -/
  | frsq (o : OpA)
  /-- FSQRT (R177): Correctly rounded square root. -/
  | fsqrt (o : OpA)
  /-- FEXP2 (R179): Faithfully rounded 2^a. -/
  | fexp2 (o : OpA)
  /-- FLOG2 (R179): Faithfully rounded log2 a. -/
  | flog2 (o : OpA)
  /-- FTANH (R179): Faithfully rounded tanh a. -/
  | ftanh (o : OpA)
  /-- FSIN (R179): Faithfully rounded sin(πa). -/
  | fsin (o : OpA)
  /-- FCOS (R179): Faithfully rounded cos(πa). -/
  | fcos (o : OpA)
  /-- FRND (R178): Rounds to an integral FP32 value in RM. -/
  | frnd (o : OpA)
  /-- FCLASS (R180): Writes a one-hot class word. -/
  | fclass (o : OpA)
  /-- FDOT2 (R184): Exact two-term BF16 dot product rounded once to FP32. -/
  | fdot2 (o : OpA)
  /-- MXPACK (R186): Packs an octet's 32 FP32 values into a block-scaled granule. -/
  | mxpack (o : OpA)
  /-- MXUNPK (R187): Expands a granule into four FP32 slots. -/
  | mxunpk (o : OpA)
  /-- FCMP_EQ (R181): FP32 equality compare into a predicate. -/
  | fcmpEq (o : OpA)
  /-- FCMP_NE (R181): FP32 not-equal or unordered compare. -/
  | fcmpNe (o : OpA)
  /-- FCMP_LT (R181): FP32 less-than compare. -/
  | fcmpLt (o : OpA)
  /-- FCMP_LE (R181): FP32 less-or-equal compare. -/
  | fcmpLe (o : OpA)
  /-- FCMP_GT (R181): FP32 greater-than compare. -/
  | fcmpGt (o : OpA)
  /-- FCMP_GE (R181): FP32 greater-or-equal compare. -/
  | fcmpGe (o : OpA)
  /-- FCMP_UN (R181): FP32 unordered test. -/
  | fcmpUn (o : OpA)
  /-- FCVT_BF16_F32 (R182): Rounds two FP32 values into a packed BF16 word. -/
  | fcvtBf16F32 (o : OpA)
  /-- FCVT_F16_F32 (R182): Rounds two FP32 values into a packed FP16 word. -/
  | fcvtF16F32 (o : OpA)
  /-- FCVT_F32_BF16 (R182): Widens a selected BF16 half exactly to FP32. -/
  | fcvtF32Bf16 (o : OpA)
  /-- FCVT_F32_F16 (R182): Widens a selected FP16 half exactly to FP32. -/
  | fcvtF32F16 (o : OpA)
  /-- FCVT_S32_F32 (R183): Rounds FP32 to a signed integer with saturation and NV. -/
  | fcvtS32F32 (o : OpA)
  /-- FCVT_F32_S32 (R182): Rounds a signed integer to FP32. -/
  | fcvtF32S32 (o : OpA)
  /-- FCVT_N32_F32 (R183): Rounds FP32 to a natural integer with saturation and NV. -/
  | fcvtN32F32 (o : OpA)
  /-- FCVT_F32_N32 (R182): Rounds a natural integer to FP32. -/
  | fcvtF32N32 (o : OpA)
  /-- SHFL_AT (R195): Reads the data register at a given domain index. -/
  | shflAt (o : OpA)
  /-- SHFL_ROT (R195): Rotates the domain by b places. -/
  | shflRot (o : OpA)
  /-- SHFL_SLIDE (R195): Moves by a signed step, clamped at the domain's edge. -/
  | shflSlide (o : OpA)
  /-- SHFL_FLIP (R195): Exchanges with the index xor a mask. -/
  | shflFlip (o : OpA)
  /-- BCAST (R195): Broadcasts the value at a uniform index. -/
  | bcast (o : OpA)
  /-- VOTE_EVERY (R196): 1 if the predicate holds in every active lane of the domain. -/
  | voteEvery (o : OpA)
  /-- VOTE_SOME (R196): 1 if the predicate holds in some active lane. -/
  | voteSome (o : OpA)
  /-- VOTE_SAME (R196): 1 if the predicate is the same in all active lanes. -/
  | voteSame (o : OpA)
  /-- VOTE_ODD (R196): 1 if an odd number of active lanes hold the predicate. -/
  | voteOdd (o : OpA)
  /-- BALLOT (R197): Writes the 64-bit mask of active lanes whose predicate is 1. -/
  | ballot (o : OpA)
  /-- MATCH (R197): Writes the leader index and count of lanes with equal values. -/
  | matchLanes (o : OpA)
  /-- REDUCE (R199): Combines the active lanes' values in a fixed pairwise tree. -/
  | reduce (p : RedOp) (o : OpA)
  /-- SCAN_INC (R199): Inclusive sequential prefix fold. -/
  | scanInc (p : RedOp) (o : OpA)
  /-- SCAN_EXC (R199): Exclusive sequential prefix fold. -/
  | scanExc (p : RedOp) (o : OpA)
  /-- LD (R223): Per-lane load. -/
  | ld (h : Hint) (o : OpM)
  /-- ST (R223): Per-lane store. -/
  | st (h : Hint) (o : OpM)
  /-- LDX (R223): Per-lane indexed load. -/
  | ldx (h : Hint) (o : OpM)
  /-- STX (R223): Per-lane indexed store. -/
  | stx (h : Hint) (o : OpM)
  /-- LDU (R224): Uniform load once per yard. -/
  | ldu (h : Hint) (o : OpM)
  /-- STU (R224): Uniform store once per yard. -/
  | stu (h : Hint) (o : OpM)
  /-- ATOM (R225): Read-modify-write at the home slice or scratchpad. -/
  | atom (p : AtomOp) (o : OpM)
  /-- ATOM_ORDERED (R225): Atomic with an acquire or release ordering point. -/
  | atomOrdered (p : AtomOp) (o : OpM)
  /-- ACQ (R219): Acquire point: invalidates the core's valid data-cache words. -/
  | acq (o : OpM)
  /-- REL (R219): Release point: waits until the thread's earlier stores are globally performed. -/
  | rel (o : OpM)
  /-- FENCE (R219): REL followed by ACQ. -/
  | fence (o : OpM)
  /-- PREF (R227): Prefetches a line into the data cache without trapping. -/
  | pref (o : OpM)
  /-- PARK (R228): Parks the thread on a page as a requested fault until a replay. -/
  | park (o : OpM)
  /-- CFLUSH (R254): Writes back a line and invalidates it in L2 and the issuing core's data cache. -/
  | cflush (o : OpM)
  /-- CINV (R254): Discards a line everywhere on the device, acting as a write of memory's value. -/
  | cinv (o : OpM)
  /-- CWB (R254): Recalls owned words and writes a dirty L2 line to memory. -/
  | cwb (o : OpM)
  /-- HANDOFF (R255): Performs a handover of a software-managed range in the direction SZ[0] gives. -/
  | handoff (o : OpM)
  /-- RMODE (R257): Changes the mode of a run of 64 KiB regions between SM and HC. -/
  | rmode (o : OpA)
  /-- NCWIN (R258): Writes one of the context's non-coherent window registers. -/
  | ncwin (o : OpA)
  /-- TLBINV (R278): Invalidates the context's TLB entries for a page or for all addresses. -/
  | tlbinv (o : OpA)
  /-- TLBPROBE (R279): Translates an address for a kind of access and writes a status word without parking. -/
  | tlbprobe (o : OpA)
  /-- REPLAY (R281): Replays the executing context in its cluster or in every cluster. -/
  | replay (o : OpA)
  /-- POTSET (R282): Zeroes a physical page and unbinds or releases its POT entry. -/
  | potset (o : OpA)
  /-- COPY (R305): Hands a copy packet directly to the cluster's copy engine and returns a future. -/
  | copy (o : OpM)
  /-- QPUT (R307): Claims a queue slot per quartet and writes a packet into it with release. -/
  | qput (o : OpM)
  /-- QCLAIM (R306): Claims a queue index per lane. -/
  | qclaim (o : OpM)
  /-- TASKDEF (R308): Defines a task in the scheduler from a launch packet. -/
  | taskdef (o : OpA)
  /-- TASKDEP (R309): Adds to a task's dependence count. -/
  | taskdep (o : OpA)
  /-- TASKSIG (R309): Decrements a task's dependence count with release. -/
  | tasksig (o : OpA)
  /-- SWZADR (R310): Computes a swizzled offset. -/
  | swzadr (o : OpA)
  /-- MSETA (R332): Signs and binds the A data and scale records. -/
  | mseta (o : OpA)
  /-- MSETB (R332): Signs and binds the B data and scale records. -/
  | msetb (o : OpA)
  /-- MZERO (R336): Signs and queues the zeroing of an accumulator bank. -/
  | mzero (o : OpA)
  /-- MRD (R337): Reads an accumulator element after waiting for its bank. -/
  | mrd (o : OpA)
  /-- MWR (R337): Writes an accumulator element after waiting for its bank. -/
  | mwr (o : OpA)
  /-- MSPAN (R338): Returns where an MMA's span starting at a block would end. -/
  | mspan (o : OpA)
  /-- MSEQ (R339): Reads the sequencer cursor, MXFLAGS (optionally clearing them) or the span count. -/
  | mseq (o : OpA)
  /-- MMA (R335): Signs a residue matrix multiply-accumulate into a bank. -/
  | mma (o : MmaOp)
  /-- MLDB (R333): Signs the load of B-slice blocks and scales from memory. -/
  | mldb (o : OpM)
  /-- KVX (R356): Translates sequence positions to block descriptors and offsets, optionally pinning the blocks. -/
  | kvx (o : KvxOp)
  /-- KVALLOC (R354): Gives an absent block the lowest free page of a class, pinned once. -/
  | kvalloc (o : OpA)
  /-- KVFREE (R354): Frees an unpinned block's page. -/
  | kvfree (o : OpA)
  /-- KVPIN (R354): Increments a present block's pin count. -/
  | kvpin (o : OpA)
  /-- KVUNPIN (R354): Decrements a block's pin count with release. -/
  | kvunpin (o : OpA)
  /-- WQPULL (R359): Queues a pull of one item from a work queue and returns a future. -/
  | wqpull (o : OpM)
  /-- WQPUSH (R358): Appends a 32-byte item to a work queue. -/
  | wqpush (o : OpM)
  /-- LASTARR (R360): Decrements a saturating counter and reports the last arriver. -/
  | lastarr (o : OpM)
  /-- SYSC (R374): Writes a service call packet into the core's mailbox ring and returns a future. -/
  | sysc (o : OpA)
  /-- FENCEC (R375): Orders the thread's or set's earlier service calls before later ones. -/
  | fencec (o : OpA)
  /-- TRAP (R378): Software trap with cause 0x1B. -/
  | trap (o : OpA)
  /-- TRET (R369): Returns from a trap handler, restaging the region and restoring the latches. -/
  | tret (o : OpA)
  /-- BRK (R378): Breakpoint that stops the thread when ATTACH is 1 and traps otherwise. -/
  | brk (o : OpA)
  /-- HALT (R378): Stops each active thread with cause 0x1C. -/
  | halt (o : OpA)
  /-- SELECT (R74): The selector chooses a frontier entry, ages the others and streams it as issue groups. `core`: the core. `part`: the partition. -/
  | select (core : Nat) (part : Nat)
  /-- RESCAN (R76): A partition rescan gives freed frontier entries to the addresses of unindexed threads. `core`: the core. `part`: the partition. -/
  | rescan (core : Nat) (part : Nat)
  /-- RENDEZVOUS_COMPLETE (R83): A YARD or RIG rendezvous completes and its members at X become eligible together. `t`: a thread that waits at X. -/
  | rendezvousComplete (t : Nat)
  /-- RENDEZVOUS_TIMEOUT (R84): A rendezvous open for 2^20 core cycles traps its waiting members with cause 0x05. `t`: a thread that waits at X. -/
  | rendezvousTimeout (t : Nat)
  /-- CLEAT_RELEASE (R87): A cleat phase releases when every cleat of the rig has SIGNED equal to EXPECT, and its operation issues once. `core`: the core. `cleat`: the cleat. -/
  | cleatRelease (core : Nat) (cleat : Nat)
  /-- CLEAT_TIMEOUT (R88): A phase unreleased 2^20 core cycles after its first signature sets FAULT and traps the signers with cause 0x05. `core`: the core. `cleat`: the cleat. -/
  | cleatTimeout (core : Nat) (cleat : Nat)
  /-- BIND_RECORD_WRITE (R64): Management firmware sets VALID in a bind record; dispatch accepts it or refuses it with ERR. `core`: the core. `slot`: the yard slot. `w3`: the doublewords at offsets 0x00 to 0x18 of the record are `w0` to `w3`. -/
  | bindRecordWrite (core : Nat) (slot : Nat) (w0 : DWord) (w1 : DWord) (w2 : DWord) (w3 : DWord)
  /-- YARD_INIT (R66): Dispatch initialises an accepted yard once its HOLD and the pool allow, setting its registers and entry. `core`: the core. -/
  | yardInit (core : Nat)
  /-- POOL_DEADLOCK (R145): A pool-deadlocked partition reports and traps the youngest HOIST request with cause 0x10. `core`: the core. `part`: the partition. -/
  | poolDeadlock (core : Nat) (part : Nat)
  /-- LAUNCH (R22): Management firmware consumes a launch, checks quota, places rigs and writes bind records, or fails the launch. `n`: the launch, by its number. `places`: the core and yard slot that firmware chooses for each yard, in order; empty when it refuses the placement. -/
  | launch (n : Nat) (places : List (Nat × Nat))
  /-- QUEUE_CONSUME (R287): A consumer takes the next slot whose SEQ matches, passes an acquire point and starts its operation. `slot`: the attachment slot. -/
  | queueConsume (slot : Nat)
  /-- NEAR_DATA_PACKET (R301): The trust core checks a near-data packet's session, tag, PCTR and image, then launches it or fails it. `n`: the launch, by its number. `places`: as for a launch. -/
  | nearDataPacket (n : Nat) (places : List (Nat × Nat))
  /-- QUEUE_ATTACH (R289): ATTACH in a queue attachment slot reads the header and attaches the queue or sets ERR. `slot`: the attachment slot. `v`: the doubleword the host writes at 0x08. -/
  | queueAttach (slot : Nat) (v : DWord)
  /-- QUEUE_DETACH (R289): DETACH in a queue attachment slot stops the consumer taking further slots. `slot`: the attachment slot. -/
  | queueDetach (slot : Nat)
  /-- COPY_COMPLETE (R291): A copy completes, fails or is cancelled and runs its completion actions. `n`: the copy, by its number. `lines`: destination lines of 64 bytes written before the copy pauses; 0 for all that remain. -/
  | copyComplete (n : Nat) (lines : Nat)
  /-- SEGMENT_LANDED (R108): A segment fetch ends, making the segment LANDED or FAILED and resolving its future. `core`: the core. `seg`: the segment. -/
  | segmentLanded (core : Nat) (seg : Nat)
  /-- ENGINE_CANCEL (R115): A cancel request reaches an engine, which stops the operation at its next boundary or completes it. `core`: the core. `slot`: the future-table entry. -/
  | engineCancel (core : Nat) (slot : Nat)
  /-- MATRIX_QUEUE_ENTER (R328): A released matrix operation enters the core's matrix queue when a place is free, and handles are written. `core`: the core. -/
  | matrixQueueEnter (core : Nat)
  /-- MATRIX_OP_START (R328): The sequencer begins the next queued matrix operation once the previous one has finished. `core`: the core. -/
  | matrixOpStart (core : Nat)
  /-- MATRIX_OP_COMPLETE (R335): A matrix operation finishes its last closure or block and resolves its future. `core`: the core. -/
  | matrixOpComplete (core : Nat)
  /-- STORE_REGISTRATION_ACK (R211): The home slice acknowledges a store's registration, making the word owned or invalid. `n`: the pending store, by its place. `late`: cores whose valid copies the recall has yet to reach. `drop`: it makes the valid copies of the other cores invalid at once (Table 9-3). -/
  | storeRegistrationAck (n : Nat) (late : List Nat) (drop : Bool)
  /-- WALK_COMPLETE (R266): A page walk ends with one outcome for every joined request, filling the TLBs or parking them. `n`: the walk, by its place. -/
  | walkComplete (n : Nat)
  /-- FBREPLAY (R272): Replays a context in the cluster, invalidating its entries and releasing its parked parties. `cluster`: the cluster. `ctx`: the context. -/
  | fbreplay (cluster : Nat) (ctx : Nat)
  /-- FBDELIVER (R273): Delivers a fault buffer entry as cause 0x18 to threads and failure to engine operations. `cluster`: the cluster. `entry`: the entry. -/
  | fbdeliver (cluster : Nat) (entry : Nat)
  /-- INTERRUPT_FILE_WRITE (R423): A write of an identity to the interrupt file starts a shootdown when it equals SDID. `ident`: the identity. -/
  | interruptFileWrite (ident : Word)
  /-- SHOOTDOWN_SEQ_WRITE (R275): A SEQ write while a shootdown runs sets ERR and is ignored. `v`: the value written. -/
  | shootdownSeqWrite (v : Word)
  /-- SHOOTDOWN_COMPLETE (R276): A shootdown completes its accesses, sets ACKSEQ and sends the MSI. -/
  | shootdownComplete
  /-- HOLDER_READ (R237): A read from an external holder updates the directory and may back-invalidate. `h`: the holder. `hpa`: the host physical address. -/
  | holderRead (h : Nat) (hpa : Nat)
  /-- HOLDER_OWNERSHIP_REQUEST (R237): An ownership request from an external holder splits entries and back-invalidates other holders. `h`: the holder. `hpa`: the host physical address. -/
  | holderOwnershipRequest (h : Nat) (hpa : Nat)
  /-- HOLDER_WRITEBACK (R241): An external holder writes a line back, overwriting the device's words. `h`: the holder. `hpa`: the host physical address. `data`: the sixteen words of the line. -/
  | holderWriteback (h : Nat) (hpa : Nat) (data : List Word)
  /-- BISNP_RESPONSE (R237): A back-invalidation response arrives; dirty data is written and waiting requests proceed. `h`: the holder. `pa`: the physical address. `data`: the dirty words returned; empty when the copy was clean. -/
  | bisnpResponse (h : Nat) (pa : Nat) (data : List Word)
  /-- DIRECTORY_MERGE (R238): Sibling entries quiet for 2^20 core cycles merge into their parent. `pa`: the base of the first sibling. `level`: its level. -/
  | directoryMerge (pa : Nat) (level : Nat)
  /-- HANDOVER_GO (R243): GO in the handover registers starts a handover, or sets ERR while busy or out of range. `v`: the word written at 0x0C. -/
  | handoverGo (v : Word)
  /-- HANDOVER_COMPLETE (R243): A handover finishes its last line or stops, and updates HSTATUS and SEQ. `lines`: lines performed before the handover pauses; 0 for all that remain. -/
  | handoverComplete (lines : Nat)
  /-- REFRESH_TICK (R250): A pseudo-channel's refresh tick refreshes, postpones or forces refresh of the named bank. `pc`: the pseudo-channel: 64 m + q. -/
  | refreshTick (pc : Nat)
  /-- REFRESH_FORCED (R250): After the column access in progress ends, forced all-bank refreshes are issued. `pc`: the pseudo-channel: 64 m + q. -/
  | refreshForced (pc : Nat)
  /-- MEMORY_READ (R249): A controller serves a read as a row miss once its bank is free of refresh. `pa`: the physical address. `ecc`: 0 the ECC finds nothing, 1 it corrects an error, 2 it cannot correct one; in a page of mode 2, 3 the line's own MAC fails, 4 a MAC of its counter tree. `queued`: the read is still queued or in service. -/
  | memoryRead (pa : Nat) (ecc : Nat) (queued : Bool)
  /-- LINK_DOWN (R245): A CXL link goes down; host-homed lines are poisoned or invalidated and lost holders handled. `port`: the port. -/
  | linkDown (port : Nat)
  /-- LINK_TRAIN (R419): A link trains and back-invalidation identifiers are assigned to its holders. `port`: the port. `ids`: holder and BI-ID pairs. -/
  | linkTrain (port : Nat) (ids : List (Nat × Nat))
  /-- PORT_VIRAL (R390): A port enters viral state and accesses leaving through it are contained. `port`: the port. -/
  | portViral (port : Nat)
  /-- EXPANDER_LOST (R391): An expander is reported lost and accesses to its ranges fault. `port`: the port. `base`: the base of its range. `len`: its length. -/
  | expanderLost (port : Nat) (base : Nat) (len : Nat)
  /-- SRAM_SOFT_ERROR (R389): An SRAM soft error is corrected or poisons the word and posts a type 6 record. `addr`: the address of the word. `uncorrectable`: the ECC cannot correct it. `uid`: the unit. `index`: the index in the unit. -/
  | sramSoftError (addr : Nat) (uncorrectable : Bool) (uid : Nat) (index : Nat)
  /-- SALVAGE (R424): Writes a port's poisoned host-homed lines to host memory and clears their poison. `port`: the port. `work`: lines dealt with before the command pauses, 0 for all that remain, and words whose write to host memory fails. -/
  | salvage (port : Nat) (work : Nat × List Nat)
  /-- DISCARD (R424): Invalidates a port's poisoned host-homed lines. `port`: the port. -/
  | discard (port : Nat)
  /-- CLEARVIRAL (R424): Ends viral containment on a port. `port`: the port. -/
  | clearviral (port : Nat)
  /-- KICK_PREEMPT (R422): Context kick that halts and saves a context. `ctx`: the context. -/
  | kickPreempt (ctx : Nat)
  /-- KICK_RESTORE (R422): Context kick that asks firmware to restore a saved context. `ctx`: the context. -/
  | kickRestore (ctx : Nat)
  /-- KICK_REPLAY (R422): Context kick that replays a context in the named clusters. `ctx`: the context. `clusters`: the clusters named; 0 names every one where the context is resident. -/
  | kickReplay (ctx : Nat) (clusters : BitVec 14)
  /-- PREEMPT_REQUEST (R90): A pre-emption request reaches the cores of a context, which stop selecting and rescanning. `ctx`: the context. -/
  | preemptRequest (ctx : Nat)
  /-- CORE_HALT (R90): A core finishes its issuing run and matrix interrupt point and acknowledges the halt. `core`: the core. -/
  | coreHalt (core : Nat)
  /-- CONTEXT_SAVE (R385): After the halt and the draining of scoreboard copies, a core's state is written to the save area. `ctx`: the context. -/
  | contextSave (ctx : Nat)
  /-- CONTEXT_RESTORE (R387): Firmware restores a saved context, checking integrity, and re-lands its segments. `ctx`: the context. `onto`: the cores, in the order of the saved core list. `intact`: every line passes its integrity check. -/
  | contextRestore (ctx : Nat) (onto : List Nat) (intact : Bool)
  /-- QUOTA_FOLD (R412): Every 1,024 core cycles the yard-time usage is folded into USED. -/
  | quotaFold
  /-- DEBUG_STOP (R377): Debug CMD 1 stops the target thread and posts a type 10 record. `ctx`: the context. -/
  | debugStop (ctx : Nat)
  /-- DEBUG_RESUME (R379): Debug CMD 2 resumes the target's stop group. `ctx`: the context. -/
  | debugResume (ctx : Nat)
  /-- DEBUG_STEP (R379): Debug CMD 3 sets SSTEP and resumes the stop group. `ctx`: the context. -/
  | debugStep (ctx : Nat)
  /-- STOPW_WRITE (R376): A write of the stop width sets ERR when it is 3 and is then ignored. `ctx`: the context. `v`: the doubleword written at 0x00. -/
  | stopwWrite (ctx : Nat) (v : DWord)
  /-- SYSCALL_ECHO (R374): A service core serves call 0 and resolves its future. `core`: the core. `n`: the call, by its place in the ring. -/
  | syscallEcho (core : Nat) (n : Nat)
  /-- SYSCALL_TIME (R374): A service core writes reference-clock ticks into the block and resolves the call. `core`: the core. `n`: the call, by its place in the ring. -/
  | syscallTime (core : Nat) (n : Nat)
  /-- SYSCALL_HOSTMSG (R374): A service core sends the block to the host as a type 11 record and resolves the call. `core`: the core. `n`: the call, by its place in the ring. -/
  | syscallHostmsg (core : Nat) (n : Nat)
  /-- SYSCALL_UNKNOWN (R374): A call of an unknown number fails with status 9. `core`: the core. `n`: the call, by its place in the ring. -/
  | syscallUnknown (core : Nat) (n : Nat)
  /-- POOL_ATTACH (R346): ATTACH in a pool slot reads the pool header and attaches the pool or sets ERR. `slot`: the pool slot. `ctx`: the storing context. `v`: the doubleword stored at 0x08. -/
  | poolAttach (slot : Nat) (ctx : Nat) (v : DWord)
  /-- POOL_DETACH (R346): DETACH in a pool slot detaches the pool after any move in progress publishes. `slot`: the pool slot. `ctx`: the storing context. -/
  | poolDetach (slot : Nat) (ctx : Nat)
  /-- COMPACTION_STEP (R350): Every 16 core cycles a compaction engine examines one descriptor and may start a move. `cls`: the size class. -/
  | compactionStep (cls : Nat)
  /-- MOVE_PUBLISH (R350): After copying, a move publishes the new page in the descriptor and frees the old page. `cls`: the size class. -/
  | movePublish (cls : Nat)
  /-- WQ_ATTACH (R357): ATTACH of a work queue stores RING and LOGD and attaches it. `q`: the queue. `ctx`: the storing context. `v`: the doubleword stored at 0x08. -/
  | wqAttach (q : Nat) (ctx : Nat) (v : DWord)
  /-- WQ_DETACH (R357): DETACH of a work queue, refused with ERR while items or waiters remain. `q`: the queue. `ctx`: the storing context. -/
  | wqDetach (q : Nat) (ctx : Nat)
  /-- WQ_CLOSE (R357): CLOSE marks a work queue closed; unassigned pulls on an empty queue resolve with zeros. `q`: the queue. `ctx`: the storing context. -/
  | wqClose (q : Nat) (ctx : Nat)
  /-- WQPULL_COMPLETE (R359): An assigned pull writes its item and resolves done, or fails. `q`: the queue. -/
  | wqpullComplete (q : Nat)
  /-- CREATE (R397): Trust command that makes a world LIVE and draws its keys. `w`: the world. -/
  | create (w : Nat)
  /-- DESTROY (R397): Trust command that closes a world, reclaims its pages and erases its keys. `w`: the world. -/
  | destroy (w : Nat)
  /-- ASSIGN (R397): Trust command that zeroes pages and assigns them to a world. `w`: the world. -/
  | assign (w : Nat)
  /-- QUOTA (R413): Trust command that sets a quota LIMIT of a world. `w`: the world. -/
  | quota (w : Nat)
  /-- ROTATE (R407): Trust command that draws a new key generation and starts a key-rotation sweep. `w`: the world. -/
  | rotate (w : Nat)
  /-- KEY_SWEEP_COMPLETE (R407): A sweep finishes, erasing the old keys and advancing KGEN. `sweep`: the world, and lines the sweep passes before it pauses, 0 for all that remain. -/
  | keySweepComplete (sweep : Nat × Nat)
  /-- REGISTER (R397): Trust command that verifies and registers a near-data image and extends MR6. `w`: the world. -/
  | register (w : Nat)
  /-- CERT (R403): Trust command that replaces an operator certificate chain once its lock clears. `w`: the WORLD field. -/
  | cert (w : Nat)
  /-- CHECKPOINT (R416): Trust command that writes a signed usage checkpoint. `w`: the world. -/
  | checkpoint (w : Nat)
  /-- LOG (R415): Trust command that sets a world's usage log. `w`: the world. -/
  | log (w : Nat)
  /-- NDALLOW (R397): Trust command that allows near-data sessions from a peer into a world. `w`: the world. -/
  | ndallow (w : Nat)
  /-- NDOPEN (R409): Trust command that opens a near-data SPDM session towards an expander. `w`: the world. `session`: the session number. `accepted`: the exchange with the expander succeeds, and it accepts the session. `peer`: the SHA-384 of its slot 0 leaf key. -/
  | ndopen (w : Nat) (session : Nat) (accepted : Bool) (peer : BitVec 384)
  /-- RECLAIM (R397): Trust command that releases pages to world 0 with zeroing. `w`: the WORLD field. -/
  | reclaim (w : Nat)
  /-- TRUST_UNKNOWN_COMMAND (R397): A trust command code of 0 or 13–255 completes with ERRC 1. `code`: the CODE field. -/
  | trustUnknownCommand (code : Nat)
  /-- USAGE_PERIODIC (R415): Every 10 ms while a context of a world is resident a periodic usage record is written. `w`: the world. -/
  | usagePeriodic (w : Nat)
  /-- NEAR_DATA_TAG_GO (R410): GO in the context's tag block starts the tagging of a near-data packet. `ctx`: the context. `v`: the word stored at 0x40. -/
  | nearDataTagGo (ctx : Nat) (v : Word)
  /-- NEAR_DATA_TAG_DONE (R410): The trust core finishes tagging, writing PCTR and TAG and setting DONE. `ctx`: the context. -/
  | nearDataTagDone (ctx : Nat)
  /-- GET_VERSION (R402): SPDM request that restarts the transcript and ends the connection's sessions. `tr`: the transport. -/
  | getVersion (tr : Nat)
  /-- GET_CAPABILITIES (R402): SPDM request answered with CAPABILITIES. `tr`: the transport. `wellFormed`: no field of the request is malformed. -/
  | getCapabilities (tr : Nat) (wellFormed : Bool)
  /-- NEGOTIATE_ALGORITHMS (R402): SPDM request that completes VCA and makes the connection READY. `tr`: the transport. `wellFormed`: no field of the request is malformed. -/
  | negotiateAlgorithms (tr : Nat) (wellFormed : Bool)
  /-- GET_DIGESTS (R402): SPDM request answered with the certificate digests. `tr`: the transport. `wellFormed`: no field of the request is malformed. -/
  | getDigests (tr : Nat) (wellFormed : Bool)
  /-- GET_CERTIFICATE (R403): SPDM request for a portion of a certificate chain, locking the slot from offset 0. `tr`: the transport. `wellFormed`: no field of the request is malformed. `slot`: the slot. `offset`: the offset. `length`: the length. -/
  | getCertificate (tr : Nat) (wellFormed : Bool) (slot : Nat) (offset : Nat) (length : Nat)
  /-- CHALLENGE (R403): SPDM request answered with a signed CHALLENGE_AUTH under a slot lock; the first such event of a transport is the request, and the next one its answer. `tr`: the transport. `wellFormed`: no field of the request is malformed. `slot`: the slot. `nonce`: the requester nonce. -/
  | challenge (tr : Nat) (wellFormed : Bool) (slot : Nat) (nonce : BitVec 256)
  /-- GET_MEASUREMENTS (R400): SPDM request answered with measurement blocks of MR0–MR7. `tr`: the transport. `wellFormed`: no field of the request is malformed. `index`: the block index. -/
  | getMeasurements (tr : Nat) (wellFormed : Bool) (index : Nat)
  /-- KEY_EXCHANGE (R402): SPDM request that starts a session handshake. `tr`: the transport. `wellFormed`: no field of the request is malformed. `session`: the half of the session identifier that the requester chooses. `ndWorld`: the world that opaque data names for a near-data session. `peer`: the identity hash of the requester. -/
  | keyExchange (tr : Nat) (wellFormed : Bool) (session : Nat) (ndWorld : Option Nat) (peer : BitVec 384)
  /-- FINISH (R402): SPDM request that completes or fails the pending handshake. `tr`: the transport. `wellFormed`: no field of the request is malformed. `verified`: the verify data checks. -/
  | finish (tr : Nat) (wellFormed : Bool) (verified : Bool)
  /-- SPDM_UNEXPECTED_REQUEST (R402): A request not allowed in the state gets ERROR UnexpectedRequest and the connection goes to NONE. `tr`: the transport. -/
  | spdmUnexpectedRequest (tr : Nat)
  /-- DC_EXTENT_OFFER (R425): An offered dynamic capacity extent is checked and accepted with zeroed, assigned pages. `base`: the physical base. `pages`: its 4 KiB pages. `tag`: its tag. -/
  | dcExtentOffer (base : Nat) (pages : Nat) (tag : BitVec 128)
  /-- DC_EXTENT_RELEASE (R425): A dynamic capacity extent is released page by page as by POTSET RELEASE. `base`: the physical base. `pages`: its 4 KiB pages. -/
  | dcExtentRelease (base : Nat) (pages : Nat)
  /-- COLD_START (R431): PWRGD rising runs every start-up step. `failAt`: the start-up step that fails; 0 for none. `puf`: what it reads of the PUF array and of the boot flash. `dbgen`: DBGEN as PWRGD rises. `sysPages`: the firmware pages. -/
  | coldStart (failAt : Nat) (puf : PufReading) (dbgen : Bool) (sysPages : List Nat)
  /-- WARM_START (R430): A warm start writes back owned and dirty data and runs the warm start-up steps. `failAt`: the start-up step that fails; 0 for none. -/
  | warmStart (failAt : Nat)
  /-- I3C_ENTDAA (R434): The device accepts a dynamic I3C address. `addr`: the dynamic address. -/
  | i3cEntdaa (addr : BitVec 7)
  /-- OP_CHANGE_COMPLETE (R427): A cluster's operating point change completes and it reports STABLE. `cluster`: the cluster. -/
  | opChangeComplete (cluster : Nat)
  /-- POWER_CAP_STEP (R428): Each millisecond of excess power or temperature moves every cluster one point slower and sets CAP. -/
  | powerCapStep
  /-- CAP_CLEAR (R428): CAP clears when its cause has been absent for 10 ms. -/
  | capClear
  /-- LTOL_WRITE (R429): A write of LTOL may start an exit to a shallower power state. `v`: the value written. -/
  | ltolWrite (v : Word)
  /-- CLUSTER_GATE (R429): An idle cluster enters PS1. `cluster`: the cluster. -/
  | clusterGate (cluster : Nat)
  /-- PS2_ENTRY (R429): After every cluster has been in PS1 for 50 µs the package enters PS2. -/
  | ps2Entry
  /-- PS3_ENTRY (R429): After 100 µs in PS2 with no CXL request the package enters PS3. -/
  | ps3Entry
  /-- POWER_WAKE (R429): A wake event starts an exit from a power state. -/
  | powerWake
  /-- POWER_EXIT_DONE (R429): An exit from a power state ends and the waking request is served. -/
  | powerExitDone
  /-- REGISTER_WRITE (R420): A host write to a window register with no row of its own, or an unsupported access. `off`: the offset in the window. `size`: the width of the write in bytes. `v`: the value. -/
  | registerWrite (off : Nat) (size : Nat) (v : DWord)
  /-- SNOOP (R235): A snoop from outside the device (a host CXL.cache snoop, or a back-invalidation from an expander) on a host-homed line that a TD9-H caches resolves at L2, recalling owned words first. `pa`: the host physical address. `inv`: the snoop takes the line away. -/
  | snoop (pa : Nat) (inv : Bool)
  /-- CONTEXT_CREATED (R261): Management firmware creates a context in a LIVE world, writing its root record with the TMODE that the host requested and forming usage event 1. `ctx`: the context. `root0`: the doubleword at 0x00 of the root record. `root1`: the doubleword at 0x08. `cores`: the cores that firmware binds to it. `grants`: bit 0: statistics; bit 1: system calls. -/
  | contextCreated (ctx : Nat) (root0 : DWord) (root1 : DWord) (cores : List Nat) (grants : BitVec 2)
  /-- CONTEXT_ENDED (R289): A context ends: its queue attachments, pools and TLB entries are discarded, its task entries fail, and usage event 2 is formed. `ctx`: the context. -/
  | contextEnded (ctx : Nat)
  /-- HDM_DECODER_WRITE (R419): The host programs a port's HDM decoder, which sets how host physical addresses map to device physical addresses. `port`: the port. `base`: the host physical base. `size`: the size. `ways`: the interleave ways. `gran`: the granularity in bytes. -/
  | hdmDecoderWrite (port : Nat) (base : Nat) (size : Nat) (ways : Nat) (gran : Nat)
  /-- SENSOR_READING (R442): The die temperature sensor or the package power measurement takes a new value, which TEMP, POWER and THERM_N reflect. `temp`: TEMP. `power`: POWER. -/
  | sensorReading (temp : BitVec 16) (power : BitVec 16)
  /-- PWRGD_FALL (R430): PWRGD falls and the device loses power, and with it all volatile state, until a cold start. -/
  | pwrgdFall
  deriving DecidableEq, Repr

end Sys2Proof
end

