-- ==== Sys2Proof/WellFormed.lean ====
section
/-! DEFINITION. The operand checks of a decoded word: check 7 of Table 2-6 (02_encoding R31, R34, R37, R39 to R43 and
the class tables). A word that decodes and fails them raises cause 0x02. `v` is the kernel's encoding version (R54). -/

namespace Sys2Proof

/-- What a source field may hold: any operand code; a pointer pair (R34); a staged vector slot; a predicate (R41); a
slot quad of MXPACK (R173); a uniform quad of MSETA and MSETB (R331); a vector or uniform slot (MMA FW, R334); a code
of KVX, which has no literal (R355); or nothing (R39). -/
inductive SrcKind where
  | any | pair | slot | pred | quad | uquad | staged | noLit | unused
  deriving DecidableEq, Repr

/-- What a destination field may hold (R34, R39, R40, R152): `NoSup` forms refuse D[4] = 1. -/
inductive DstKind where
  | none | vec | vecNoSup | pair | pairNoSup | quad | quadNoSup | uni | uniPair | uniQuad
  | uniNoSup | uniPairNoSup | uniQuadNoSup | pred
  deriving DecidableEq, Repr

/-- The source codes a field of kind `k` accepts; code 30 does not exist in version 1 (R43). -/
def SrcKind.ok (v : Nat) (k : SrcKind) (code : BitVec 5) : Bool :=
  let n := code.toNat
  match k with
  | .any => n != 30 || v != 1
  | .pair => n % 2 == 0 && (n < 16 || (20 ≤ n && n ≤ 26))
  | .slot => n < 16
  | .pred => n < 8
  | .quad => n < 16 && n % 4 == 0
  | .uquad => n == 20 || n == 24
  | .staged => n < 16 || (20 ≤ n && n ≤ 27)
  | .noLit => n < 31 && (n != 30 || v != 1)
  | .unused => n == 28

/-- The destination codes a field of kind `k` accepts. -/
def DstKind.ok (k : DstKind) (d : BitVec 5) : Bool :=
  let n := d.toNat
  let low := n % 16
  let writes := n < 16
  match k with
  | .none => n == 16
  | .vec => true
  | .vecNoSup => writes
  | .pair => low % 2 == 0
  | .pairNoSup => writes && low % 2 == 0
  | .quad => low % 4 == 0
  | .quadNoSup => writes && low % 4 == 0
  | .uni => low < 8
  | .uniPair => low < 8 && low % 2 == 0
  | .uniQuad => low < 8 && low % 4 == 0
  | .uniNoSup => writes && low < 8
  | .uniPairNoSup => writes && low < 8 && low % 2 == 0
  | .uniQuadNoSup => writes && low < 8 && low % 4 == 0
  | .pred => n < 8

/-- Whether a scope field means RIG in a kernel of version `v` (R28, R54). -/
def rigScope (v : Nat) (s : BitVec 2) : Bool := s.toNat == 2 && v != 1

/-- Whether a source code asks for a literal word (R42). -/
def isLit (code : BitVec 5) : Bool := code.toNat == 31

/-- The data of LD and LDX (R34): D is a destination of the size's width. -/
def loadDst (sz : BitVec 2) : DstKind :=
  match sz.toNat with
  | 1 => .pair
  | 2 => .quad
  | _ => .vec

/-- The data of ST and STX (R34, R222): D is a source. -/
def storeDst (sz : BitVec 2) : DstKind :=
  match sz.toNat with
  | 1 => .pairNoSup
  | 2 => .quadNoSup
  | _ => .vecNoSup

/-- The data of LDU (R224). -/
def loadUDst (sz : BitVec 2) : DstKind :=
  match sz.toNat with
  | 1 => .uniPair
  | 2 => .uniQuad
  | _ => .uni

/-- The data of STU (R224). -/
def storeUDst (sz : BitVec 2) : DstKind :=
  match sz.toNat with
  | 1 => .uniPairNoSup
  | 2 => .uniQuadNoSup
  | _ => .uniNoSup

/-- The operand slots of an atomic (R225): two or four slots for a compare or a 64-bit width. -/
def atomDst (p : AtomOp) (sz : BitVec 2) : DstKind :=
  match p == .cas, decide (2 ≤ sz.toNat) with
  | true, true => .quadNoSup
  | false, false => .vecNoSup
  | _, _ => .pairNoSup

/-- A literal is held only by a word that asks for one. -/
def litOk (codes : List (BitVec 5)) (lit : Word) : Bool := codes.any isLit || lit == 0

def wfA (v : Nat) (d : DstKind) (a b : SrcKind) (o : OpA) : Bool :=
  d.ok o.d && a.ok v o.a && b.ok v o.b && litOk [o.a, o.b] o.lit

/-- The exchange class adds: no D[4] = 1 at RIG scope (R194). -/
def wfX (v : Nat) (d : DstKind) (a b : SrcKind) (o : OpA) : Bool :=
  wfA v d a b o && !(rigScope v o.s && 16 ≤ o.d.toNat)

def wfT (v : Nat) (d : DstKind) (a b e : SrcKind) (o : OpT) : Bool :=
  d.ok o.d && a.ok v o.a && b.ok v o.b && e.ok v o.e && litOk [o.a, o.b, o.e] o.lit

/-- Format I has no literal: code 31 in A is refused (R31). -/
def wfI (v : Nat) (d : DstKind) (a : SrcKind) (o : OpI) : Bool :=
  d.ok o.d && a.ok v o.a && !isLit o.a

/-- Format B refuses a negated guard 7 (R32). -/
def wfB (o : OpB) : Bool := !(o.g.toNat == 7 && o.n.toNat == 1)

def wfM (v : Nat) (sizes : List Nat) (d : DstKind) (a x : SrcKind) (o : OpM) : Bool :=
  sizes.contains o.sz.toNat && d.ok o.d && a.ok v o.a && x.ok v o.x && litOk [o.a, o.x] o.lit

/-- The registers of one run of a STAGE: `len + 1` registers from `base`. -/
def runRegs (base len : Nat) : List Nat := (List.range (len + 1)).map (base + ·)

/-- The vector runs of a STAGE as (base, length minus one), all four. -/
def StageOp.vruns (o : StageOp) : List (Nat × Nat) :=
  [(o.vbase0.toNat, o.vlen0.toNat), (o.vbase1.toNat, o.vlen1.toNat), (o.vbase2.toNat, o.vlen2.toNat),
   (o.vbase3.toNat, o.vlen3.toNat)]

/-- The uniform runs of a STAGE, both. -/
def StageOp.uruns (o : StageOp) : List (Nat × Nat) :=
  [(o.ubase0.toNat, o.ulen0.toNat), (o.ubase1.toNat, o.ulen1.toNat)]

/-- The vector registers a STAGE names, in slot order (R37). -/
def StageOp.vregs (o : StageOp) : List Nat :=
  (o.vruns.take o.nv.toNat).flatMap fun r => runRegs r.1 r.2

/-- The uniform registers a STAGE names, in slot order: 0-191 are s0-s191, 192-255 are g0-g63 (Table 2-4). -/
def StageOp.uregs (o : StageOp) : List Nat :=
  (o.uruns.take o.nu.toNat).flatMap fun r => runRegs r.1 r.2

/-- Whether no element of a list stands in it twice. -/
def allDistinct : List Nat → Bool
  | [] => true
  | x :: xs => !xs.contains x && allDistinct xs

/-- The checks of R36 and R37; version 1 has no g registers (R54). -/
def StageOp.ok (v : Nat) (o : StageOp) : Bool :=
  let vr := o.vruns.take o.nv.toNat
  let ur := o.uruns.take o.nu.toNat
  o.nv.toNat ≤ 4 && o.nu.toNat ≤ 2 && o.rsv0 == 0 && o.rsv2 == 0 &&
  (o.vruns.drop o.nv.toNat).all (fun r => r.1 == 0 && r.2 == 0) &&
  (o.uruns.drop o.nu.toNat).all (fun r => r.1 == 0 && r.2 == 0) &&
  vr.all (fun r => r.1 + r.2 ≤ 255) &&
  ur.all (fun r => r.1 + r.2 ≤ 255 && (r.1 > 191 || r.1 + r.2 ≤ 191) && (v != 1 || r.1 + r.2 ≤ 191)) &&
  o.vregs.length ≤ 16 && o.uregs.length ≤ 8 && allDistinct o.vregs && allDistinct o.uregs

/-- The pairs of a BWAY as (guard, negation, target), all four. -/
def BwayOp.pairs (o : BwayOp) : List (BitVec 3 × Bool × Nat) :=
  [(o.g0, o.neg.toNat.testBit 0, o.t0.toNat), (o.g1, o.neg.toNat.testBit 1, o.t1.toNat),
   (o.g2, o.neg.toNat.testBit 2, o.t2.toNat), (o.g3, o.neg.toNat.testBit 3, o.t3.toNat)]

/-- The checks of R99 and R35. -/
def BwayOp.ok (o : BwayOp) : Bool :=
  1 ≤ o.np.toNat && o.np.toNat ≤ 4 && o.rsv2 == 0 &&
  (o.pairs.take o.np.toNat).all (fun p => !(p.1.toNat == 7 && p.2.1)) &&
  (o.pairs.drop o.np.toNat).all (fun p => p.1 == 0 && !p.2.1 && p.2.2 == 0)

/-- The checks of R334 and R35. -/
def MmaOp.ok (o : MmaOp) : Bool :=
  SrcKind.ok 3 .staged o.fw && o.rsv0 == 0 && o.rsv1 == 0 && o.rsv2 == 0

/-- The checks of R355. -/
def KvxOp.ok (v : Nat) (o : KvxOp) : Bool :=
  DstKind.ok .pair o.d && SrcKind.ok v .noLit o.seq && SrcKind.ok v .noLit o.pos && o.rsv1 == 0 && o.rsv2 == 0 &&
  !(o.d.toNat < 16 && o.od.toNat < 16 && o.od.toNat / 2 == o.d.toNat / 2)

/-- Check 7 of Table 2-6 for a decoded word in a kernel of version `v`. A device event has no operands to check. -/
def Instr.wf (v : Nat) (i : Instr) : Bool :=
  match i with
  | .nop o => wfA v .none .unused .unused o
  | .yield o => wfA v .none .unused .unused o
  | .exit o => wfA v .none .unused .unused o
  | .jmp o => wfA v .none .any .unused o
  | .calli o => wfA v .none .any .unused o
  | .ret o => wfA v .none .unused .unused o
  | .bra o => wfB o
  | .call o => wfB o
  | .bway o => o.ok
  | .jmpf o => wfA v .none .any .unused o
  | .segfetch o => wfA v .vec .pair .any o
  | .segstat o => wfA v .vec .any .unused o
  | .rigdef o => wfA v .uniPair .any .unused o
  | .join o => wfA v .uni .pair .unused o
  | .leave o => wfA v .none .pair .unused o
  | .sign o => wfA v .none .unused .unused o
  | .fwait o => wfA v .vec .any .unused o
  | .ftest o => wfA v .pred .any .unused o
  | .fcancel o => wfA v .none .any .unused o
  | .fpass o => wfA v .vec .any .unused o
  | .stage o => o.ok v
  | .mov o => wfA v .vec .any .unused o
  | .movs o => wfA v .uni .any .unused o
  | .rdsr o => wfA v .vec .any .unused o
  | .wrsr o => wfA v .none .any .any o
  | .sel o => wfT v .vec .any .any .pred o
  | .hoist o => wfA v .none .any .unused o
  | .reef o => wfA v .none .any .unused o
  | .gmov o => wfA v .uni .any .any o
  | .spillv o => wfM v [0, 3] .vecNoSup .pair .any o
  | .fillv o => wfM v [0, 3] .vecNoSup .pair .any o
  | .iadd o => wfA v .vec .any .any o
  | .isub o => wfA v .vec .any .any o
  | .addc o => wfA v .vec .any .any o
  | .subb o => wfA v .vec .any .any o
  | .iminS32 o => wfA v .vec .any .any o
  | .iminN32 o => wfA v .vec .any .any o
  | .imaxS32 o => wfA v .vec .any .any o
  | .imaxN32 o => wfA v .vec .any .any o
  | .iabs o => wfA v .vec .any .unused o
  | .and o => wfA v .vec .any .any o
  | .or o => wfA v .vec .any .any o
  | .xor o => wfA v .vec .any .any o
  | .andn o => wfA v .vec .any .any o
  | .popc o => wfA v .vec .any .unused o
  | .clz o => wfA v .vec .any .unused o
  | .brev o => wfA v .vec .any .unused o
  | .add64 o => wfA v .pair .pair .any o
  | .ptag o => wfA v .pair .any .any o
  | .shl o => wfA v .vec .any .any o
  | .shr o => wfA v .vec .any .any o
  | .sar o => wfA v .vec .any .any o
  | .rot o => wfA v .vec .any .any o
  | .bfxN32 o => wfA v .vec .any .any o
  | .bfxS32 o => wfA v .vec .any .any o
  | .imul o => wfA v .vec .any .any o
  | .imulhS32 o => wfA v .vec .any .any o
  | .imulhN32 o => wfA v .vec .any .any o
  | .idivS32 o => wfA v .vec .any .any o
  | .idivN32 o => wfA v .vec .any .any o
  | .iremS32 o => wfA v .vec .any .any o
  | .iremN32 o => wfA v .vec .any .any o
  | .icmpEq o => wfA v .pred .any .any o
  | .icmpNe o => wfA v .pred .any .any o
  | .icmpLtS32 o => wfA v .pred .any .any o
  | .icmpLeS32 o => wfA v .pred .any .any o
  | .icmpGtS32 o => wfA v .pred .any .any o
  | .icmpGeS32 o => wfA v .pred .any .any o
  | .icmpLtN32 o => wfA v .pred .any .any o
  | .icmpLeN32 o => wfA v .pred .any .any o
  | .icmpGtN32 o => wfA v .pred .any .any o
  | .icmpGeN32 o => wfA v .pred .any .any o
  | .pand o => wfA v .pred .pred .pred o
  | .por o => wfA v .pred .pred .pred o
  | .pxor o => wfA v .pred .pred .pred o
  | .pnot o => wfA v .pred .pred .unused o
  | .imad o => wfT v .vec .any .any .any o
  | .bfi o => wfT v .vec .any .any .any o
  | .addi o => wfI v .vec .any o
  | .lea o => wfI v .pair .pair o
  | .fadd _ o => wfA v .vec .any .any o
  | .fsub _ o => wfA v .vec .any .any o
  | .fmul _ o => wfA v .vec .any .any o
  | .fmin _ o => wfA v .vec .any .any o
  | .fmax _ o => wfA v .vec .any .any o
  | .fscale _ o => wfA v .vec .any .any o
  | .fmaF32 o => wfT v .vec .any .any .any o
  | .fmaF32Neg o => wfT v .vec .any .any .any o
  | .fmaBf16 o => wfT v .vec .any .any .any o
  | .fabs o => wfA v .vec .any .unused o
  | .frcp o => wfA v .vec .any .unused o
  | .frsq o => wfA v .vec .any .unused o
  | .fsqrt o => wfA v .vec .any .unused o
  | .fexp2 o => wfA v .vec .any .unused o
  | .flog2 o => wfA v .vec .any .unused o
  | .ftanh o => wfA v .vec .any .unused o
  | .fsin o => wfA v .vec .any .unused o
  | .fcos o => wfA v .vec .any .unused o
  | .frnd o => wfA v .vec .any .unused o
  | .fclass o => wfA v .vec .any .unused o
  | .fdot2 o => wfA v .vec .any .any o
  | .mxpack o => wfA v .vecNoSup .quad .any o
  | .mxunpk o => wfA v .quad .slot .any o
  | .fcmpEq o => wfA v .pred .any .any o
  | .fcmpNe o => wfA v .pred .any .any o
  | .fcmpLt o => wfA v .pred .any .any o
  | .fcmpLe o => wfA v .pred .any .any o
  | .fcmpGt o => wfA v .pred .any .any o
  | .fcmpGe o => wfA v .pred .any .any o
  | .fcmpUn o => wfA v .pred .any .any o
  | .fcvtBf16F32 o => wfA v .vec .any .any o
  | .fcvtF16F32 o => wfA v .vec .any .any o
  | .fcvtF32Bf16 o => wfA v .vec .any .any o
  | .fcvtF32F16 o => wfA v .vec .any .any o
  | .fcvtS32F32 o => wfA v .vec .any .unused o
  | .fcvtF32S32 o => wfA v .vec .any .unused o
  | .fcvtN32F32 o => wfA v .vec .any .unused o
  | .fcvtF32N32 o => wfA v .vec .any .unused o
  | .shflAt o => wfX v .vec .slot .any o
  | .shflRot o => wfX v .vec .slot .any o
  | .shflSlide o => wfX v .vec .slot .any o
  | .shflFlip o => wfX v .vec .slot .any o
  | .bcast o => wfX v .vec .slot .any o
  | .voteEvery o => wfX v .pred .pred .unused o
  | .voteSome o => wfX v .pred .pred .unused o
  | .voteSame o => wfX v .pred .pred .unused o
  | .voteOdd o => wfX v .pred .pred .unused o
  | .ballot o => wfX v .pair .pred (if rigScope v o.s then .any else .unused) o
  | .matchLanes o => wfX v .pair .slot .unused o && !rigScope v o.s
  | .reduce _ o => wfX v .vec .slot .unused o
  | .scanInc _ o => wfX v .vec .slot .unused o
  | .scanExc _ o => wfX v .vec .slot .unused o
  | .ld _ o => wfM v [0, 1, 2, 3] (loadDst o.sz) .pair .any o
  | .st _ o => wfM v [0, 1, 2, 3] (storeDst o.sz) .pair .any o
  | .ldx _ o => wfM v [0, 1, 2, 3] (loadDst o.sz) .pair .any o
  | .stx _ o => wfM v [0, 1, 2, 3] (storeDst o.sz) .pair .any o
  | .ldu _ o => wfM v [0, 1, 2] (loadUDst o.sz) .pair .any o
  | .stu _ o => wfM v [0, 1, 2] (storeUDst o.sz) .pair .any o
  | .atom p o => wfM v [0, 2] (atomDst p o.sz) .pair .any o
  | .atomOrdered p o => wfM v [0, 1, 2, 3] (atomDst p o.sz) .pair .any o
  | .acq o => wfM v [0] .none .unused .unused o
  | .rel o => wfM v [0] .none .unused .unused o
  | .fence o => wfM v [0] .none .unused .unused o
  | .pref o => wfM v [0] .none .pair .any o
  | .park o => wfM v [0] .none .pair .any o
  | .cflush o => wfM v [0] .none .pair .any o
  | .cinv o => wfM v [0] .none .pair .any o
  | .cwb o => wfM v [0] .none .pair .any o
  | .handoff o => wfM v [0, 1] .vec .pair .any o
  | .rmode o => wfA v .vec .pair .any o
  | .ncwin o => wfA v .none .pair .any o
  | .tlbinv o => wfA v .none .pair .any o
  | .tlbprobe o => wfA v .vec .pair .any o
  | .replay o => wfA v .none .unused .any o
  | .potset o => wfA v .vec .pair .any o
  | .copy o => wfM v [0] .vecNoSup .pair .any o
  | .qput o => wfM v [2] .quadNoSup .pair .any o
  | .qclaim o => wfM v [1] .pair .pair .any o
  | .taskdef o => wfA v .pairNoSup .pair .any o
  | .taskdep o => wfA v .vec .any .any o
  | .tasksig o => wfA v .none .any .any o
  | .swzadr o => wfA v .vec .any .any o
  | .mseta o => wfA v .none .uquad .uquad o
  | .msetb o => wfA v .none .uquad .uquad o
  | .mzero o => wfA v .none .any .unused o
  | .mrd o => wfA v .vec .any .unused o
  | .mwr o => wfA v .none .any .any o
  | .mspan o => wfA v .vec .any .any o
  | .mseq o => wfA v .vec .any .unused o
  | .mma o => o.ok
  | .mldb o => wfM v [0] .vec .pair .any o
  | .kvx o => o.ok v
  | .kvalloc o => wfA v .vec .any .any o
  | .kvfree o => wfA v .vec .any .any o
  | .kvpin o => wfA v .vec .any .any o
  | .kvunpin o => wfA v .vec .any .any o
  | .wqpull o => wfM v [0] .vec .pair .any o
  | .wqpush o => wfM v [0] .none .pair .any o
  | .lastarr o => wfM v [0] .pred .pair .any o
  | .sysc o => wfA v .vecNoSup .pair .any o
  | .fencec o => wfA v .none .unused .unused o
  | .trap o => wfA v .none .any .unused o
  | .tret o => wfA v .none .unused .unused o
  | .brk o => wfA v .none .any .unused o
  | .halt o => wfA v .none .any .unused o
  | .select .. => true
  | .rescan .. => true
  | .rendezvousComplete .. => true
  | .rendezvousTimeout .. => true
  | .cleatRelease .. => true
  | .cleatTimeout .. => true
  | .bindRecordWrite .. => true
  | .yardInit .. => true
  | .poolDeadlock .. => true
  | .launch .. => true
  | .queueConsume .. => true
  | .nearDataPacket .. => true
  | .queueAttach .. => true
  | .queueDetach .. => true
  | .copyComplete .. => true
  | .segmentLanded .. => true
  | .engineCancel .. => true
  | .matrixQueueEnter .. => true
  | .matrixOpStart .. => true
  | .matrixOpComplete .. => true
  | .storeRegistrationAck .. => true
  | .walkComplete .. => true
  | .fbreplay .. => true
  | .fbdeliver .. => true
  | .interruptFileWrite .. => true
  | .shootdownSeqWrite .. => true
  | .shootdownComplete => true
  | .holderRead .. => true
  | .holderOwnershipRequest .. => true
  | .holderWriteback .. => true
  | .bisnpResponse .. => true
  | .directoryMerge .. => true
  | .handoverGo .. => true
  | .handoverComplete .. => true
  | .refreshTick .. => true
  | .refreshForced .. => true
  | .memoryRead .. => true
  | .linkDown .. => true
  | .linkTrain .. => true
  | .portViral .. => true
  | .expanderLost .. => true
  | .sramSoftError .. => true
  | .salvage .. => true
  | .discard .. => true
  | .clearviral .. => true
  | .kickPreempt .. => true
  | .kickRestore .. => true
  | .kickReplay .. => true
  | .preemptRequest .. => true
  | .coreHalt .. => true
  | .contextSave .. => true
  | .contextRestore .. => true
  | .quotaFold => true
  | .debugStop .. => true
  | .debugResume .. => true
  | .debugStep .. => true
  | .stopwWrite .. => true
  | .syscallEcho .. => true
  | .syscallTime .. => true
  | .syscallHostmsg .. => true
  | .syscallUnknown .. => true
  | .poolAttach .. => true
  | .poolDetach .. => true
  | .compactionStep .. => true
  | .movePublish .. => true
  | .wqAttach .. => true
  | .wqDetach .. => true
  | .wqClose .. => true
  | .wqpullComplete .. => true
  | .create .. => true
  | .destroy .. => true
  | .assign .. => true
  | .quota .. => true
  | .rotate .. => true
  | .keySweepComplete .. => true
  | .register .. => true
  | .cert .. => true
  | .checkpoint .. => true
  | .log .. => true
  | .ndallow .. => true
  | .ndopen .. => true
  | .reclaim .. => true
  | .trustUnknownCommand .. => true
  | .usagePeriodic .. => true
  | .nearDataTagGo .. => true
  | .nearDataTagDone .. => true
  | .getVersion .. => true
  | .getCapabilities .. => true
  | .negotiateAlgorithms .. => true
  | .getDigests .. => true
  | .getCertificate .. => true
  | .challenge .. => true
  | .getMeasurements .. => true
  | .keyExchange .. => true
  | .finish .. => true
  | .spdmUnexpectedRequest .. => true
  | .dcExtentOffer .. => true
  | .dcExtentRelease .. => true
  | .coldStart .. => true
  | .warmStart .. => true
  | .i3cEntdaa .. => true
  | .opChangeComplete .. => true
  | .powerCapStep => true
  | .capClear => true
  | .ltolWrite .. => true
  | .clusterGate .. => true
  | .ps2Entry => true
  | .ps3Entry => true
  | .powerWake => true
  | .powerExitDone => true
  | .registerWrite .. => true
  | .snoop .. => true
  | .contextCreated .. => true
  | .contextEnded .. => true
  | .hdmDecoderWrite .. => true
  | .sensorReading .. => true
  | .pwrgdFall => true

end Sys2Proof
end

