-- ==== Sys2Proof/Decode.lean ====
section
/-! DEFINITION. From words to instructions, total, and back (02_encoding R27 to R47, Table 2-9). `decodeInstr` makes
checks 2 to 5 of Table 2-6, whose failure is cause 0x01; check 6 (the chain bit) needs the packet and stands with
`decodePacket`; check 7 is `Instr.wf`. -/

namespace Sys2Proof

/-! ### Sub-field codes -/

/-- The code of a type suffix (Table 2-7). -/
def FType.code : FType → Nat
  | .f32 => 0
  | .f16 => 1
  | .bf16 => 2

/-- The code of a reduction (Table 2-8). -/
def RedOp.code : RedOp → Nat
  | .addS32 => 0
  | .addF32 => 1
  | .minS32 => 2
  | .maxS32 => 3
  | .minF32 => 4
  | .maxF32 => 5
  | .and => 6
  | .or => 7

def RedOp.ofCode (n : Nat) : RedOp :=
  match n % 8 with
  | 0 => .addS32
  | 1 => .addF32
  | 2 => .minS32
  | 3 => .maxS32
  | 4 => .minF32
  | 5 => .maxF32
  | 6 => .and
  | _ => .or

/-- The code of a cache hint (R34). -/
def Hint.code : Hint → Nat
  | .dflt => 0
  | .strm => 1
  | .nodc => 2
  | .once => 3

def Hint.ofCode (n : Nat) : Hint :=
  match n % 4 with
  | 0 => .dflt
  | 1 => .strm
  | 2 => .nodc
  | _ => .once

/-- The code of an atomic operation (Table 2-9). -/
def AtomOp.code : AtomOp → Nat
  | .add => 0
  | .min => 1
  | .max => 2
  | .and => 3
  | .or => 4
  | .xor => 5
  | .exch => 6
  | .cas => 7

def AtomOp.ofCode (n : Nat) : AtomOp :=
  match n % 8 with
  | 0 => .add
  | 1 => .min
  | 2 => .max
  | 3 => .and
  | 4 => .or
  | 5 => .xor
  | 6 => .exch
  | _ => .cas

/-! ### The fields of a word (Table 2-1, R29 to R36) -/

/-- The `n` bits of a word from bit `lo` up. -/
def fieldAt (w : Word) (lo n : Nat) : BitVec n := w.extractLsb' lo n

def majorOf (w : Word) : BitVec 6 := fieldAt w 23 6
def scopeOf (w : Word) : BitVec 2 := fieldAt w 29 2
def chainOf (w : Word) : BitVec 1 := fieldAt w 31 1
def fnA (w : Word) : BitVec 5 := fieldAt w 0 5
def fnM (w : Word) : BitVec 3 := fieldAt w 0 3

/-- Format A (Table 2-2). -/
def opA (w lit : Word) : OpA :=
  { c := fieldAt w 31 1, s := fieldAt w 29 2, d := fieldAt w 18 5, a := fieldAt w 13 5, b := fieldAt w 8 5,
    g := fieldAt w 5 3, lit := if isLit (fieldAt w 13 5) || isLit (fieldAt w 8 5) then lit else 0 }

/-- Format T (R30). -/
def opT (w lit : Word) : OpT :=
  { c := fieldAt w 31 1, s := fieldAt w 29 2, d := fieldAt w 18 5, a := fieldAt w 13 5, b := fieldAt w 8 5,
    e := fieldAt w 3 5, g := fieldAt w 0 3,
    lit := if isLit (fieldAt w 13 5) || isLit (fieldAt w 8 5) || isLit (fieldAt w 3 5) then lit else 0 }

/-- Format I (R31). -/
def opI (w : Word) : OpI :=
  { c := fieldAt w 31 1, s := fieldAt w 29 2, d := fieldAt w 18 5, a := fieldAt w 13 5, imm := fieldAt w 0 13 }

/-- Format B (R32). -/
def opB (w : Word) : OpB :=
  { c := fieldAt w 31 1, s := fieldAt w 29 2, g := fieldAt w 20 3, n := fieldAt w 19 1, off := fieldAt w 0 19 }

/-- Format M (Table 2-3). -/
def opM (w lit : Word) : OpM :=
  { c := fieldAt w 31 1, s := fieldAt w 29 2, d := fieldAt w 18 5, a := fieldAt w 13 5, x := fieldAt w 8 5,
    g := fieldAt w 5 3, sz := fieldAt w 3 2,
    lit := if isLit (fieldAt w 13 5) || isLit (fieldAt w 8 5) then lit else 0 }

/-- A STAGE packet (Table 2-4). -/
def opStage (w w1 w2 : Word) : StageOp :=
  { s := fieldAt w 29 2, nv := fieldAt w 20 3, nu := fieldAt w 18 2, vbase0 := fieldAt w 10 8, vlen0 := fieldAt w 6 4,
    rsv0 := fieldAt w 0 6, vbase1 := fieldAt w1 24 8, vlen1 := fieldAt w1 20 4, vbase2 := fieldAt w1 12 8,
    vlen2 := fieldAt w1 8 4, vbase3 := fieldAt w1 0 8, vlen3 := fieldAt w2 28 4, ubase0 := fieldAt w2 20 8,
    ulen0 := fieldAt w2 17 3, ubase1 := fieldAt w2 9 8, ulen1 := fieldAt w2 6 3, rsv2 := fieldAt w2 0 6 }

/-- A BWAY packet (Table 4-2). -/
def opBway (w w1 w2 : Word) : BwayOp :=
  { s := fieldAt w 29 2, np := fieldAt w 20 3, neg := fieldAt w 16 4, g0 := fieldAt w 13 3, t0 := fieldAt w 0 13,
    g1 := fieldAt w1 29 3, t1 := fieldAt w1 16 13, g2 := fieldAt w1 13 3, t2 := fieldAt w1 0 13,
    g3 := fieldAt w2 29 3, t3 := fieldAt w2 16 13, rsv2 := fieldAt w2 0 16 }

/-- An MMA packet (Table 14-8). -/
def opMma (w w1 w2 : Word) : MmaOp :=
  { s := fieldAt w 29 2, hd := fieldAt w 18 5, fw := fieldAt w 13 5, bank := fieldAt w 12 1, rsv0 := fieldAt w 8 4,
    nblkm1 := fieldAt w 0 8, bblk0 := fieldAt w1 24 8, ablk0 := fieldAt w1 16 8, colsm1 := fieldAt w1 8 8,
    rsv1 := fieldAt w1 0 8, rsv2 := w2 }

/-- A KVX packet (Table 16-8). -/
def opKvx (w w1 w2 : Word) : KvxOp :=
  { s := fieldAt w 29 2, d := fieldAt w 18 5, seq := fieldAt w 13 5, pos := fieldAt w 8 5, pm := fieldAt w 5 3,
    pin := fieldAt w 4 1, pool := fieldAt w 0 4, od := fieldAt w1 27 5, rsv1 := fieldAt w1 0 27, rsv2 := w2 }

/-! ### The opcode map (Table 2-9) -/

/-- Functions of major 0x00 (Table 2-9); any other is reserved (R45). -/
def decodeA00 (f : Nat) (o : OpA) : Option Instr :=
  match f with
  | 0 => some (.nop o)
  | 1 => some (.yield o)
  | 2 => some (.exit o)
  | 3 => some (.jmp o)
  | 4 => some (.calli o)
  | 5 => some (.ret o)
  | _ => none

/-- Functions of major 0x04 (Table 2-9); any other is reserved (R45). -/
def decodeA04 (f : Nat) (o : OpA) : Option Instr :=
  match f with
  | 0 => some (.jmpf o)
  | 1 => some (.segfetch o)
  | 2 => some (.segstat o)
  | _ => none

/-- Functions of major 0x05 (Table 2-9); any other is reserved (R45). -/
def decodeA05 (f : Nat) (o : OpA) : Option Instr :=
  match f with
  | 0 => some (.rigdef o)
  | 1 => some (.join o)
  | 2 => some (.leave o)
  | 3 => some (.sign o)
  | _ => none

/-- Functions of major 0x06 (Table 2-9); any other is reserved (R45). -/
def decodeA06 (f : Nat) (o : OpA) : Option Instr :=
  match f with
  | 0 => some (.fwait o)
  | 1 => some (.ftest o)
  | 2 => some (.fcancel o)
  | 3 => some (.fpass o)
  | _ => none

/-- Functions of major 0x09 (Table 2-9); any other is reserved (R45). -/
def decodeA09 (f : Nat) (o : OpA) : Option Instr :=
  match f with
  | 0 => some (.mov o)
  | 1 => some (.movs o)
  | 2 => some (.rdsr o)
  | 3 => some (.wrsr o)
  | _ => none

/-- Functions of major 0x0B (Table 2-9); any other is reserved (R45). -/
def decodeA0B (f : Nat) (o : OpA) : Option Instr :=
  match f with
  | 0 => some (.hoist o)
  | 1 => some (.reef o)
  | 2 => some (.gmov o)
  | _ => none

/-- Functions of major 0x10 (Table 2-9); any other is reserved (R45). -/
def decodeA10 (f : Nat) (o : OpA) : Option Instr :=
  match f with
  | 0 => some (.iadd o)
  | 1 => some (.isub o)
  | 2 => some (.addc o)
  | 3 => some (.subb o)
  | 4 => some (.iminS32 o)
  | 5 => some (.iminN32 o)
  | 6 => some (.imaxS32 o)
  | 7 => some (.imaxN32 o)
  | 8 => some (.iabs o)
  | 9 => some (.and o)
  | 10 => some (.or o)
  | 11 => some (.xor o)
  | 12 => some (.andn o)
  | 13 => some (.popc o)
  | 14 => some (.clz o)
  | 15 => some (.brev o)
  | 16 => some (.add64 o)
  | 17 => some (.ptag o)
  | _ => none

/-- Functions of major 0x11 (Table 2-9); any other is reserved (R45). -/
def decodeA11 (f : Nat) (o : OpA) : Option Instr :=
  match f with
  | 0 => some (.shl o)
  | 1 => some (.shr o)
  | 2 => some (.sar o)
  | 3 => some (.rot o)
  | 4 => some (.bfxN32 o)
  | 5 => some (.bfxS32 o)
  | 8 => some (.imul o)
  | 9 => some (.imulhS32 o)
  | 10 => some (.imulhN32 o)
  | 11 => some (.idivS32 o)
  | 12 => some (.idivN32 o)
  | 13 => some (.iremS32 o)
  | 14 => some (.iremN32 o)
  | _ => none

/-- Functions of major 0x12 (Table 2-9); any other is reserved (R45). -/
def decodeA12 (f : Nat) (o : OpA) : Option Instr :=
  match f with
  | 0 => some (.icmpEq o)
  | 1 => some (.icmpNe o)
  | 2 => some (.icmpLtS32 o)
  | 3 => some (.icmpLeS32 o)
  | 4 => some (.icmpGtS32 o)
  | 5 => some (.icmpGeS32 o)
  | 6 => some (.icmpLtN32 o)
  | 7 => some (.icmpLeN32 o)
  | 8 => some (.icmpGtN32 o)
  | 9 => some (.icmpGeN32 o)
  | 16 => some (.pand o)
  | 17 => some (.por o)
  | 18 => some (.pxor o)
  | 19 => some (.pnot o)
  | _ => none

/-- Functions of major 0x1C (Table 2-9); any other is reserved (R45). -/
def decodeA1C (f : Nat) (o : OpA) : Option Instr :=
  match f with
  | 0 => some (.fabs o)
  | 1 => some (.frcp o)
  | 2 => some (.frsq o)
  | 3 => some (.fsqrt o)
  | 4 => some (.fexp2 o)
  | 5 => some (.flog2 o)
  | 6 => some (.ftanh o)
  | 7 => some (.fsin o)
  | 8 => some (.fcos o)
  | 9 => some (.frnd o)
  | 10 => some (.fclass o)
  | 11 => some (.fdot2 o)
  | 12 => some (.mxpack o)
  | 13 => some (.mxunpk o)
  | 16 => some (.fcmpEq o)
  | 17 => some (.fcmpNe o)
  | 18 => some (.fcmpLt o)
  | 19 => some (.fcmpLe o)
  | 20 => some (.fcmpGt o)
  | 21 => some (.fcmpGe o)
  | 22 => some (.fcmpUn o)
  | 24 => some (.fcvtBf16F32 o)
  | 25 => some (.fcvtF16F32 o)
  | 26 => some (.fcvtF32Bf16 o)
  | 27 => some (.fcvtF32F16 o)
  | 28 => some (.fcvtS32F32 o)
  | 29 => some (.fcvtF32S32 o)
  | 30 => some (.fcvtN32F32 o)
  | 31 => some (.fcvtF32N32 o)
  | _ => none

/-- Functions of major 0x20 (Table 2-9); any other is reserved (R45). -/
def decodeA20 (f : Nat) (o : OpA) : Option Instr :=
  match f with
  | 0 => some (.shflAt o)
  | 1 => some (.shflRot o)
  | 2 => some (.shflSlide o)
  | 3 => some (.shflFlip o)
  | 4 => some (.bcast o)
  | _ => none

/-- Functions of major 0x21 (Table 2-9); any other is reserved (R45). -/
def decodeA21 (f : Nat) (o : OpA) : Option Instr :=
  match f with
  | 0 => some (.voteEvery o)
  | 1 => some (.voteSome o)
  | 2 => some (.voteSame o)
  | 3 => some (.voteOdd o)
  | 4 => some (.ballot o)
  | 5 => some (.matchLanes o)
  | _ => none

/-- Functions of major 0x2B (Table 2-9); any other is reserved (R45). -/
def decodeA2B (f : Nat) (o : OpA) : Option Instr :=
  match f with
  | 0 => some (.rmode o)
  | 1 => some (.ncwin o)
  | _ => none

/-- Functions of major 0x2C (Table 2-9); any other is reserved (R45). -/
def decodeA2C (f : Nat) (o : OpA) : Option Instr :=
  match f with
  | 0 => some (.tlbinv o)
  | 1 => some (.tlbprobe o)
  | 2 => some (.replay o)
  | 3 => some (.potset o)
  | _ => none

/-- Functions of major 0x31 (Table 2-9); any other is reserved (R45). -/
def decodeA31 (f : Nat) (o : OpA) : Option Instr :=
  match f with
  | 0 => some (.taskdef o)
  | 1 => some (.taskdep o)
  | 2 => some (.tasksig o)
  | 3 => some (.swzadr o)
  | _ => none

/-- Functions of major 0x32 (Table 2-9); any other is reserved (R45). -/
def decodeA32 (f : Nat) (o : OpA) : Option Instr :=
  match f with
  | 0 => some (.mseta o)
  | 1 => some (.msetb o)
  | 2 => some (.mzero o)
  | 3 => some (.mrd o)
  | 4 => some (.mwr o)
  | 5 => some (.mspan o)
  | 6 => some (.mseq o)
  | _ => none

/-- Functions of major 0x36 (Table 2-9); any other is reserved (R45). -/
def decodeA36 (f : Nat) (o : OpA) : Option Instr :=
  match f with
  | 0 => some (.kvalloc o)
  | 1 => some (.kvfree o)
  | 2 => some (.kvpin o)
  | 3 => some (.kvunpin o)
  | _ => none

/-- Functions of major 0x38 (Table 2-9); any other is reserved (R45). -/
def decodeA38 (f : Nat) (o : OpA) : Option Instr :=
  match f with
  | 0 => some (.sysc o)
  | 1 => some (.fencec o)
  | _ => none

/-- Functions of major 0x39 (Table 2-9); any other is reserved (R45). -/
def decodeA39 (f : Nat) (o : OpA) : Option Instr :=
  match f with
  | 0 => some (.trap o)
  | 1 => some (.tret o)
  | 2 => some (.brk o)
  | 3 => some (.halt o)
  | _ => none

/-- Functions of major 0x0C (Table 2-9); any other is reserved (R45). -/
def decodeM0C (f : Nat) (o : OpM) : Option Instr :=
  match f with
  | 0 => some (.spillv o)
  | 1 => some (.fillv o)
  | _ => none

/-- Functions of major 0x29 (Table 2-9); any other is reserved (R45). -/
def decodeM29 (f : Nat) (o : OpM) : Option Instr :=
  match f with
  | 0 => some (.acq o)
  | 1 => some (.rel o)
  | 2 => some (.fence o)
  | 3 => some (.pref o)
  | 4 => some (.park o)
  | _ => none

/-- Functions of major 0x2A (Table 2-9); any other is reserved (R45). -/
def decodeM2A (f : Nat) (o : OpM) : Option Instr :=
  match f with
  | 0 => some (.cflush o)
  | 1 => some (.cinv o)
  | 2 => some (.cwb o)
  | 3 => some (.handoff o)
  | _ => none

/-- Functions of major 0x30 (Table 2-9); any other is reserved (R45). -/
def decodeM30 (f : Nat) (o : OpM) : Option Instr :=
  match f with
  | 0 => some (.copy o)
  | 1 => some (.qput o)
  | 2 => some (.qclaim o)
  | _ => none

/-- Functions of major 0x34 (Table 2-9); any other is reserved (R45). -/
def decodeM34 (f : Nat) (o : OpM) : Option Instr :=
  match f with
  | 0 => some (.mldb o)
  | _ => none

/-- Functions of major 0x37 (Table 2-9); any other is reserved (R45). -/
def decodeM37 (f : Nat) (o : OpM) : Option Instr :=
  match f with
  | 0 => some (.wqpull o)
  | 1 => some (.wqpush o)
  | 2 => some (.lastarr o)
  | _ => none

/-- Major 0x18: the type in F[4:3], the operation in F[2:0] (R46); type 0b11 is reserved. -/
def decodeA18 (f : Nat) (o : OpA) : Option Instr :=
  let mk (k : FType → Instr) : Option Instr :=
    match f / 8 with
    | 0 => some (k .f32)
    | 1 => some (k .f16)
    | 2 => some (k .bf16)
    | _ => none
  match f % 8 with
  | 0 => mk (.fadd · o)
  | 1 => mk (.fsub · o)
  | 2 => mk (.fmul · o)
  | 3 => mk (.fmin · o)
  | 4 => mk (.fmax · o)
  | 5 => mk (.fscale · o)
  | _ => none

/-- Major 0x22: REDUCE or SCAN in F[4:3], the operation in F[2:0] (R47); 0b01 is reserved. -/
def decodeA22 (f : Nat) (o : OpA) : Option Instr :=
  match f / 8 with
  | 0 => some (.reduce (RedOp.ofCode f) o)
  | 2 => some (.scanInc (RedOp.ofCode f) o)
  | 3 => some (.scanExc (RedOp.ofCode f) o)
  | _ => none

/-- The instruction that a word means in encoding version 3, with the two words after it (a literal, or the body of a
wide packet); `none` where the major or the function value is reserved. -/
def decodeV3 (w w1 w2 : Word) : Option Instr :=
  let lit := w1
  match (majorOf w).toNat with
  | 0x00 => decodeA00 (fnA w).toNat (opA w lit)
  | 0x01 => some (.bra (opB w))
  | 0x02 => some (.call (opB w))
  | 0x03 => some (.bway (opBway w w1 w2))
  | 0x04 => decodeA04 (fnA w).toNat (opA w lit)
  | 0x05 => decodeA05 (fnA w).toNat (opA w lit)
  | 0x06 => decodeA06 (fnA w).toNat (opA w lit)
  | 0x08 => some (.stage (opStage w w1 w2))
  | 0x09 => decodeA09 (fnA w).toNat (opA w lit)
  | 0x0A => some (.sel (opT w lit))
  | 0x0B => decodeA0B (fnA w).toNat (opA w lit)
  | 0x0C => decodeM0C (fnM w).toNat (opM w lit)
  | 0x10 => decodeA10 (fnA w).toNat (opA w lit)
  | 0x11 => decodeA11 (fnA w).toNat (opA w lit)
  | 0x12 => decodeA12 (fnA w).toNat (opA w lit)
  | 0x13 => some (.imad (opT w lit))
  | 0x14 => some (.bfi (opT w lit))
  | 0x15 => some (.addi (opI w))
  | 0x16 => some (.lea (opI w))
  | 0x18 => decodeA18 (fnA w).toNat (opA w lit)
  | 0x19 => some (.fmaF32 (opT w lit))
  | 0x1A => some (.fmaF32Neg (opT w lit))
  | 0x1B => some (.fmaBf16 (opT w lit))
  | 0x1C => decodeA1C (fnA w).toNat (opA w lit)
  | 0x20 => decodeA20 (fnA w).toNat (opA w lit)
  | 0x21 => decodeA21 (fnA w).toNat (opA w lit)
  | 0x22 => decodeA22 (fnA w).toNat (opA w lit)
  | 0x24 => some (if (fnM w).toNat < 4 then .ld (Hint.ofCode (fnM w).toNat) (opM w lit) else .st (Hint.ofCode (fnM w).toNat) (opM w lit))
  | 0x25 => some (if (fnM w).toNat < 4 then .ldx (Hint.ofCode (fnM w).toNat) (opM w lit) else .stx (Hint.ofCode (fnM w).toNat) (opM w lit))
  | 0x26 => some (if (fnM w).toNat < 4 then .ldu (Hint.ofCode (fnM w).toNat) (opM w lit) else .stu (Hint.ofCode (fnM w).toNat) (opM w lit))
  | 0x27 => some (.atom (AtomOp.ofCode (fnM w).toNat) (opM w lit))
  | 0x28 => some (.atomOrdered (AtomOp.ofCode (fnM w).toNat) (opM w lit))
  | 0x29 => decodeM29 (fnM w).toNat (opM w lit)
  | 0x2A => decodeM2A (fnM w).toNat (opM w lit)
  | 0x2B => decodeA2B (fnA w).toNat (opA w lit)
  | 0x2C => decodeA2C (fnA w).toNat (opA w lit)
  | 0x30 => decodeM30 (fnM w).toNat (opM w lit)
  | 0x31 => decodeA31 (fnA w).toNat (opA w lit)
  | 0x32 => decodeA32 (fnA w).toNat (opA w lit)
  | 0x33 => some (.mma (opMma w w1 w2))
  | 0x34 => decodeM34 (fnM w).toNat (opM w lit)
  | 0x35 => some (.kvx (opKvx w w1 w2))
  | 0x36 => decodeA36 (fnA w).toNat (opA w lit)
  | 0x37 => decodeM37 (fnM w).toNat (opM w lit)
  | 0x38 => decodeA38 (fnA w).toNat (opA w lit)
  | 0x39 => decodeA39 (fnA w).toNat (opA w lit)
  | _ => none

/-- Majors that hold format W instructions (R35). -/
def isWideMajor (m : Nat) : Bool := m == 0x03 || m == 0x08 || m == 0x33 || m == 0x35

/-- Words that an encoding version lacks (Table 2-11): majors 0x35-0x37 below version 3; major 0x05 and GMOV in
version 1. -/
def absentIn (v : Nat) (w : Word) : Bool :=
  let m := (majorOf w).toNat
  (v != 3 && 0x35 ≤ m && m ≤ 0x37) ||
  (v == 1 && (m == 0x05 || (m == 0x0B && (fnA w).toNat == 2)))

/-- Checks 3 to 5 of Table 2-6, and C = 0 in word 0 of a wide packet: what the word and the two after it mean in a
kernel of version `v`, or `none` (cause 0x01). -/
def decodeInstr (v : Nat) (w w1 w2 : Word) : Option Instr :=
  if absentIn v w || (scopeOf w).toNat == 3 || (isWideMajor (majorOf w).toNat && (chainOf w).toNat == 1) then none
  else decodeV3 w w1 w2

/-! ### The form of an instruction, and its words -/

/-- The encoding form of an instruction: format, major and function value (Table 2-9). -/
inductive Form where
  | a (maj fn : Nat) (o : OpA)
  | t (maj : Nat) (o : OpT)
  | i (maj : Nat) (o : OpI)
  | b (maj : Nat) (o : OpB)
  | m (maj fn : Nat) (o : OpM)
  | stage (o : StageOp)
  | bway (o : BwayOp)
  | mma (o : MmaOp)
  | kvx (o : KvxOp)
  | event
  deriving DecidableEq, Repr

/-- Each instruction's form, as Table 2-9 gives it; a device event has none. -/
def Instr.form (i : Instr) : Form :=
  match i with
  | .nop o => .a 0x00 0 o
  | .yield o => .a 0x00 1 o
  | .exit o => .a 0x00 2 o
  | .jmp o => .a 0x00 3 o
  | .calli o => .a 0x00 4 o
  | .ret o => .a 0x00 5 o
  | .bra o => .b 0x01 o
  | .call o => .b 0x02 o
  | .bway o => .bway o
  | .jmpf o => .a 0x04 0 o
  | .segfetch o => .a 0x04 1 o
  | .segstat o => .a 0x04 2 o
  | .rigdef o => .a 0x05 0 o
  | .join o => .a 0x05 1 o
  | .leave o => .a 0x05 2 o
  | .sign o => .a 0x05 3 o
  | .fwait o => .a 0x06 0 o
  | .ftest o => .a 0x06 1 o
  | .fcancel o => .a 0x06 2 o
  | .fpass o => .a 0x06 3 o
  | .stage o => .stage o
  | .mov o => .a 0x09 0 o
  | .movs o => .a 0x09 1 o
  | .rdsr o => .a 0x09 2 o
  | .wrsr o => .a 0x09 3 o
  | .sel o => .t 0x0A o
  | .hoist o => .a 0x0B 0 o
  | .reef o => .a 0x0B 1 o
  | .gmov o => .a 0x0B 2 o
  | .spillv o => .m 0x0C 0 o
  | .fillv o => .m 0x0C 1 o
  | .iadd o => .a 0x10 0 o
  | .isub o => .a 0x10 1 o
  | .addc o => .a 0x10 2 o
  | .subb o => .a 0x10 3 o
  | .iminS32 o => .a 0x10 4 o
  | .iminN32 o => .a 0x10 5 o
  | .imaxS32 o => .a 0x10 6 o
  | .imaxN32 o => .a 0x10 7 o
  | .iabs o => .a 0x10 8 o
  | .and o => .a 0x10 9 o
  | .or o => .a 0x10 10 o
  | .xor o => .a 0x10 11 o
  | .andn o => .a 0x10 12 o
  | .popc o => .a 0x10 13 o
  | .clz o => .a 0x10 14 o
  | .brev o => .a 0x10 15 o
  | .add64 o => .a 0x10 16 o
  | .ptag o => .a 0x10 17 o
  | .shl o => .a 0x11 0 o
  | .shr o => .a 0x11 1 o
  | .sar o => .a 0x11 2 o
  | .rot o => .a 0x11 3 o
  | .bfxN32 o => .a 0x11 4 o
  | .bfxS32 o => .a 0x11 5 o
  | .imul o => .a 0x11 8 o
  | .imulhS32 o => .a 0x11 9 o
  | .imulhN32 o => .a 0x11 10 o
  | .idivS32 o => .a 0x11 11 o
  | .idivN32 o => .a 0x11 12 o
  | .iremS32 o => .a 0x11 13 o
  | .iremN32 o => .a 0x11 14 o
  | .icmpEq o => .a 0x12 0 o
  | .icmpNe o => .a 0x12 1 o
  | .icmpLtS32 o => .a 0x12 2 o
  | .icmpLeS32 o => .a 0x12 3 o
  | .icmpGtS32 o => .a 0x12 4 o
  | .icmpGeS32 o => .a 0x12 5 o
  | .icmpLtN32 o => .a 0x12 6 o
  | .icmpLeN32 o => .a 0x12 7 o
  | .icmpGtN32 o => .a 0x12 8 o
  | .icmpGeN32 o => .a 0x12 9 o
  | .pand o => .a 0x12 16 o
  | .por o => .a 0x12 17 o
  | .pxor o => .a 0x12 18 o
  | .pnot o => .a 0x12 19 o
  | .imad o => .t 0x13 o
  | .bfi o => .t 0x14 o
  | .addi o => .i 0x15 o
  | .lea o => .i 0x16 o
  | .fadd ty o => .a 0x18 (8 * ty.code + 0) o
  | .fsub ty o => .a 0x18 (8 * ty.code + 1) o
  | .fmul ty o => .a 0x18 (8 * ty.code + 2) o
  | .fmin ty o => .a 0x18 (8 * ty.code + 3) o
  | .fmax ty o => .a 0x18 (8 * ty.code + 4) o
  | .fscale ty o => .a 0x18 (8 * ty.code + 5) o
  | .fmaF32 o => .t 0x19 o
  | .fmaF32Neg o => .t 0x1A o
  | .fmaBf16 o => .t 0x1B o
  | .fabs o => .a 0x1C 0 o
  | .frcp o => .a 0x1C 1 o
  | .frsq o => .a 0x1C 2 o
  | .fsqrt o => .a 0x1C 3 o
  | .fexp2 o => .a 0x1C 4 o
  | .flog2 o => .a 0x1C 5 o
  | .ftanh o => .a 0x1C 6 o
  | .fsin o => .a 0x1C 7 o
  | .fcos o => .a 0x1C 8 o
  | .frnd o => .a 0x1C 9 o
  | .fclass o => .a 0x1C 10 o
  | .fdot2 o => .a 0x1C 11 o
  | .mxpack o => .a 0x1C 12 o
  | .mxunpk o => .a 0x1C 13 o
  | .fcmpEq o => .a 0x1C 16 o
  | .fcmpNe o => .a 0x1C 17 o
  | .fcmpLt o => .a 0x1C 18 o
  | .fcmpLe o => .a 0x1C 19 o
  | .fcmpGt o => .a 0x1C 20 o
  | .fcmpGe o => .a 0x1C 21 o
  | .fcmpUn o => .a 0x1C 22 o
  | .fcvtBf16F32 o => .a 0x1C 24 o
  | .fcvtF16F32 o => .a 0x1C 25 o
  | .fcvtF32Bf16 o => .a 0x1C 26 o
  | .fcvtF32F16 o => .a 0x1C 27 o
  | .fcvtS32F32 o => .a 0x1C 28 o
  | .fcvtF32S32 o => .a 0x1C 29 o
  | .fcvtN32F32 o => .a 0x1C 30 o
  | .fcvtF32N32 o => .a 0x1C 31 o
  | .shflAt o => .a 0x20 0 o
  | .shflRot o => .a 0x20 1 o
  | .shflSlide o => .a 0x20 2 o
  | .shflFlip o => .a 0x20 3 o
  | .bcast o => .a 0x20 4 o
  | .voteEvery o => .a 0x21 0 o
  | .voteSome o => .a 0x21 1 o
  | .voteSame o => .a 0x21 2 o
  | .voteOdd o => .a 0x21 3 o
  | .ballot o => .a 0x21 4 o
  | .matchLanes o => .a 0x21 5 o
  | .reduce p o => .a 0x22 (0 + p.code) o
  | .scanInc p o => .a 0x22 (16 + p.code) o
  | .scanExc p o => .a 0x22 (24 + p.code) o
  | .ld h o => .m 0x24 (0 + h.code) o
  | .st h o => .m 0x24 (4 + h.code) o
  | .ldx h o => .m 0x25 (0 + h.code) o
  | .stx h o => .m 0x25 (4 + h.code) o
  | .ldu h o => .m 0x26 (0 + h.code) o
  | .stu h o => .m 0x26 (4 + h.code) o
  | .atom p o => .m 0x27 p.code o
  | .atomOrdered p o => .m 0x28 p.code o
  | .acq o => .m 0x29 0 o
  | .rel o => .m 0x29 1 o
  | .fence o => .m 0x29 2 o
  | .pref o => .m 0x29 3 o
  | .park o => .m 0x29 4 o
  | .cflush o => .m 0x2A 0 o
  | .cinv o => .m 0x2A 1 o
  | .cwb o => .m 0x2A 2 o
  | .handoff o => .m 0x2A 3 o
  | .rmode o => .a 0x2B 0 o
  | .ncwin o => .a 0x2B 1 o
  | .tlbinv o => .a 0x2C 0 o
  | .tlbprobe o => .a 0x2C 1 o
  | .replay o => .a 0x2C 2 o
  | .potset o => .a 0x2C 3 o
  | .copy o => .m 0x30 0 o
  | .qput o => .m 0x30 1 o
  | .qclaim o => .m 0x30 2 o
  | .taskdef o => .a 0x31 0 o
  | .taskdep o => .a 0x31 1 o
  | .tasksig o => .a 0x31 2 o
  | .swzadr o => .a 0x31 3 o
  | .mseta o => .a 0x32 0 o
  | .msetb o => .a 0x32 1 o
  | .mzero o => .a 0x32 2 o
  | .mrd o => .a 0x32 3 o
  | .mwr o => .a 0x32 4 o
  | .mspan o => .a 0x32 5 o
  | .mseq o => .a 0x32 6 o
  | .mma o => .mma o
  | .mldb o => .m 0x34 0 o
  | .kvx o => .kvx o
  | .kvalloc o => .a 0x36 0 o
  | .kvfree o => .a 0x36 1 o
  | .kvpin o => .a 0x36 2 o
  | .kvunpin o => .a 0x36 3 o
  | .wqpull o => .m 0x37 0 o
  | .wqpush o => .m 0x37 1 o
  | .lastarr o => .m 0x37 2 o
  | .sysc o => .a 0x38 0 o
  | .fencec o => .a 0x38 1 o
  | .trap o => .a 0x39 0 o
  | .tret o => .a 0x39 1 o
  | .brk o => .a 0x39 2 o
  | .halt o => .a 0x39 3 o
  | .select .. => .event
  | .rescan .. => .event
  | .rendezvousComplete .. => .event
  | .rendezvousTimeout .. => .event
  | .cleatRelease .. => .event
  | .cleatTimeout .. => .event
  | .bindRecordWrite .. => .event
  | .yardInit .. => .event
  | .poolDeadlock .. => .event
  | .launch .. => .event
  | .queueConsume .. => .event
  | .nearDataPacket .. => .event
  | .queueAttach .. => .event
  | .queueDetach .. => .event
  | .copyComplete .. => .event
  | .segmentLanded .. => .event
  | .engineCancel .. => .event
  | .matrixQueueEnter .. => .event
  | .matrixOpStart .. => .event
  | .matrixOpComplete .. => .event
  | .storeRegistrationAck .. => .event
  | .walkComplete .. => .event
  | .fbreplay .. => .event
  | .fbdeliver .. => .event
  | .interruptFileWrite .. => .event
  | .shootdownSeqWrite .. => .event
  | .shootdownComplete => .event
  | .holderRead .. => .event
  | .holderOwnershipRequest .. => .event
  | .holderWriteback .. => .event
  | .bisnpResponse .. => .event
  | .directoryMerge .. => .event
  | .handoverGo .. => .event
  | .handoverComplete .. => .event
  | .refreshTick .. => .event
  | .refreshForced .. => .event
  | .memoryRead .. => .event
  | .linkDown .. => .event
  | .linkTrain .. => .event
  | .portViral .. => .event
  | .expanderLost .. => .event
  | .sramSoftError .. => .event
  | .salvage .. => .event
  | .discard .. => .event
  | .clearviral .. => .event
  | .kickPreempt .. => .event
  | .kickRestore .. => .event
  | .kickReplay .. => .event
  | .preemptRequest .. => .event
  | .coreHalt .. => .event
  | .contextSave .. => .event
  | .contextRestore .. => .event
  | .quotaFold => .event
  | .debugStop .. => .event
  | .debugResume .. => .event
  | .debugStep .. => .event
  | .stopwWrite .. => .event
  | .syscallEcho .. => .event
  | .syscallTime .. => .event
  | .syscallHostmsg .. => .event
  | .syscallUnknown .. => .event
  | .poolAttach .. => .event
  | .poolDetach .. => .event
  | .compactionStep .. => .event
  | .movePublish .. => .event
  | .wqAttach .. => .event
  | .wqDetach .. => .event
  | .wqClose .. => .event
  | .wqpullComplete .. => .event
  | .create .. => .event
  | .destroy .. => .event
  | .assign .. => .event
  | .quota .. => .event
  | .rotate .. => .event
  | .keySweepComplete .. => .event
  | .register .. => .event
  | .cert .. => .event
  | .checkpoint .. => .event
  | .log .. => .event
  | .ndallow .. => .event
  | .ndopen .. => .event
  | .reclaim .. => .event
  | .trustUnknownCommand .. => .event
  | .usagePeriodic .. => .event
  | .nearDataTagGo .. => .event
  | .nearDataTagDone .. => .event
  | .getVersion .. => .event
  | .getCapabilities .. => .event
  | .negotiateAlgorithms .. => .event
  | .getDigests .. => .event
  | .getCertificate .. => .event
  | .challenge .. => .event
  | .getMeasurements .. => .event
  | .keyExchange .. => .event
  | .finish .. => .event
  | .spdmUnexpectedRequest .. => .event
  | .dcExtentOffer .. => .event
  | .dcExtentRelease .. => .event
  | .coldStart .. => .event
  | .warmStart .. => .event
  | .i3cEntdaa .. => .event
  | .opChangeComplete .. => .event
  | .powerCapStep => .event
  | .capClear => .event
  | .ltolWrite .. => .event
  | .clusterGate .. => .event
  | .ps2Entry => .event
  | .ps3Entry => .event
  | .powerWake => .event
  | .powerExitDone => .event
  | .registerWrite .. => .event
  | .snoop .. => .event
  | .contextCreated .. => .event
  | .contextEnded .. => .event
  | .hdmDecoderWrite .. => .event
  | .sensorReading .. => .event
  | .pwrgdFall => .event

/-- The bits of a word, most significant field first. -/
def wordA (c : BitVec 1) (s : BitVec 2) (maj : Nat) (d a b : BitVec 5) (g : BitVec 3) (f : Nat) : Word :=
  c ++ s ++ BitVec.ofNat 6 maj ++ d ++ a ++ b ++ g ++ BitVec.ofNat 5 f

def wordT (maj : Nat) (o : OpT) : Word :=
  o.c ++ o.s ++ BitVec.ofNat 6 maj ++ o.d ++ o.a ++ o.b ++ o.e ++ o.g

def wordI (maj : Nat) (o : OpI) : Word :=
  o.c ++ o.s ++ BitVec.ofNat 6 maj ++ o.d ++ o.a ++ o.imm

def wordB (maj : Nat) (o : OpB) : Word :=
  o.c ++ o.s ++ BitVec.ofNat 6 maj ++ o.g ++ o.n ++ o.off

def wordM (maj fn : Nat) (o : OpM) : Word :=
  o.c ++ o.s ++ BitVec.ofNat 6 maj ++ o.d ++ o.a ++ o.x ++ o.g ++ o.sz ++ BitVec.ofNat 3 fn

/-- The literal word, where a source field asks for one. -/
def litWords (codes : List (BitVec 5)) (lit : Word) : List Word := if codes.any isLit then [lit] else []

def StageOp.words (o : StageOp) : List Word :=
  [0#1 ++ o.s ++ 0x08#6 ++ o.nv ++ o.nu ++ o.vbase0 ++ o.vlen0 ++ o.rsv0,
   o.vbase1 ++ o.vlen1 ++ o.vbase2 ++ o.vlen2 ++ o.vbase3,
   o.vlen3 ++ o.ubase0 ++ o.ulen0 ++ o.ubase1 ++ o.ulen1 ++ o.rsv2]

def BwayOp.words (o : BwayOp) : List Word :=
  [0#1 ++ o.s ++ 0x03#6 ++ o.np ++ o.neg ++ o.g0 ++ o.t0,
   o.g1 ++ o.t1 ++ o.g2 ++ o.t2,
   o.g3 ++ o.t3 ++ o.rsv2]

def MmaOp.words (o : MmaOp) : List Word :=
  [0#1 ++ o.s ++ 0x33#6 ++ o.hd ++ o.fw ++ o.bank ++ o.rsv0 ++ o.nblkm1,
   o.bblk0 ++ o.ablk0 ++ o.colsm1 ++ o.rsv1,
   o.rsv2]

def KvxOp.words (o : KvxOp) : List Word :=
  [0#1 ++ o.s ++ 0x35#6 ++ o.d ++ o.seq ++ o.pos ++ o.pm ++ o.pin ++ o.pool,
   o.od ++ o.rsv1,
   o.rsv2]

/-- The words of a form: the instruction word and its literal, or the three words of a wide packet. -/
def Form.words : Form → List Word
  | .a maj fn o => wordA o.c o.s maj o.d o.a o.b o.g fn :: litWords [o.a, o.b] o.lit
  | .t maj o => wordT maj o :: litWords [o.a, o.b, o.e] o.lit
  | .i maj o => [wordI maj o]
  | .b maj o => [wordB maj o]
  | .m maj fn o => wordM maj fn o :: litWords [o.a, o.x] o.lit
  | .stage o => o.words
  | .bway o => o.words
  | .mma o => o.words
  | .kvx o => o.words
  | .event => []

/-- The words of an instruction; a device event has none. -/
def encode (i : Instr) : List Word := i.form.words

/-- The first instruction of a list of words, in a kernel of version `v`. -/
def decodeWords (v : Nat) (ws : List Word) : Option Instr :=
  match ws with
  | [] => none
  | w :: rest => decodeInstr v w (rest.headD 0) ((rest.drop 1).headD 0)

/-- The instruction the decoder reads from the bits of an opcode-table row: word 0 is bits 31..0, the next word bits
63..32, and so on; the bits above `nbits` are zero. -/
def decodeTableWord (nbits w : Nat) : Option Instr :=
  let w := w % 2 ^ nbits
  decodeWords 3 [BitVec.ofNat 32 w, BitVec.ofNat 32 (w / 2 ^ 32), BitVec.ofNat 32 (w / 2 ^ 64)]

/-! ### Parts that every word has -/

/-- The pipes of Table 2-9. -/
inductive Pipe where
  | v | x | m
  deriving DecidableEq, Repr

/-- The pipe of a major (Table 2-9). -/
def pipeOfMajor (m : Nat) : Pipe :=
  if m == 0x04 || m == 0x0C || (0x24 ≤ m && m ≤ 0x39) then .m
  else if m == 0x09 || m == 0x0A || (0x10 ≤ m && m ≤ 0x1C) then .v
  else .x

def Form.major : Form → Nat
  | .a maj _ _ => maj
  | .t maj _ => maj
  | .i maj _ => maj
  | .b maj _ => maj
  | .m maj _ _ => maj
  | .stage _ => 0x08
  | .bway _ => 0x03
  | .mma _ => 0x33
  | .kvx _ => 0x35
  | .event => 0

def Form.scope : Form → Nat
  | .a _ _ o => o.s.toNat
  | .t _ o => o.s.toNat
  | .i _ o => o.s.toNat
  | .b _ o => o.s.toNat
  | .m _ _ o => o.s.toNat
  | .stage o => o.s.toNat
  | .bway o => o.s.toNat
  | .mma o => o.s.toNat
  | .kvx o => o.s.toNat
  | .event => 0

def Form.chained : Form → Bool
  | .a _ _ o => o.c.toNat == 1
  | .t _ o => o.c.toNat == 1
  | .i _ o => o.c.toNat == 1
  | .b _ o => o.c.toNat == 1
  | .m _ _ o => o.c.toNat == 1
  | _ => false

def Form.isWide : Form → Bool
  | .stage _ => true
  | .bway _ => true
  | .mma _ => true
  | .kvx _ => true
  | _ => false

def Form.isEvent : Form → Bool
  | .event => true
  | _ => false

/-- Whether a word takes the next word of its packet as a literal (R42). -/
def Form.takesLit : Form → Bool
  | .a _ _ o => [o.a, o.b].any isLit
  | .t _ o => [o.a, o.b, o.e].any isLit
  | .m _ _ o => [o.a, o.x].any isLit
  | _ => false

def Instr.pipe (i : Instr) : Pipe := pipeOfMajor i.form.major

/-! ### Packets (R23, R24, R44) -/

/-- A word of a packet that is an instruction word. -/
structure SlotWord where
  idx : Nat
  instr : Instr
  chained : Bool
  deriving DecidableEq, Repr

/-- What decoding a packet gives: its instruction words, or the word index and the cause of the first check that
fails (R44). -/
inductive Packet where
  | words (ws : List SlotWord)
  | bad (widx cause : Nat)
  deriving DecidableEq, Repr

/-- Decodes the words of a packet from index `k` on, in order; the first word that fails a check of Table 2-6 decides.
`n` is the number of words that remain. -/
def decodeFrom (v : Nat) (ws : List Word) (k : Nat) : Nat → Packet
  | 0 => .words []
  | n + 1 =>
    if 3 ≤ k then .words []
    else
      let w := ws.getD k 0
      if isWideMajor (majorOf w).toNat && k != 0 then .bad k 0x01
      else match decodeInstr v w (ws.getD (k + 1) 0) (ws.getD (k + 2) 0) with
        | none => .bad k 0x01
        | some i =>
          let lit := i.form.takesLit
          let nextK := if i.form.isWide then 3 else if lit then k + 2 else k + 1
          if i.form.chained && 3 ≤ nextK then .bad k 0x01
          else if (lit && k == 2) || !i.wf v then .bad k 0x02
          else match decodeFrom v ws nextK n with
            | .bad j c => .bad j c
            | .words rest => .words ({ idx := k, instr := i, chained := i.form.chained } :: rest)

/-- A packet decoded as a whole before any of its words issues (R44). -/
def decodePacket (v : Nat) (ws : List Word) : Packet := decodeFrom v ws 0 3

/-- The word that fills the unused words of a packet: NOP at LANE scope (R59, R105). -/
def nopWord : Word := 0x00439CE0

end Sys2Proof
end

