-- ==== Sys2Proof/Machine/State.lean ====
section
/-! DEFINITION. The state of the machine, as plain data: every piece of state that the spec gives the device (listed in
INVENTORY.md under '## State'), and the state after reset. -/

namespace Sys2Proof.Machine

/-! ### Sparse maps: a sorted list of (key, value), every other key at a default -/

/-- A map with natural keys, as a list in rising order of its keys. -/
abbrev Map (α : Type) := List (Nat × α)

/-- The value at a key. -/
def Map.find? {α : Type} (m : Map α) (k : Nat) : Option α :=
  match m with
  | [] => none
  | (j, v) :: r => if k = j then some v else Map.find? r k

/-- The value at a key, or a default. -/
def Map.getD {α : Type} (m : Map α) (k : Nat) (d : α) : α := (Map.find? m k).getD d

/-- The map with `v` at `k`. -/
def Map.set {α : Type} (m : Map α) (k : Nat) (v : α) : Map α :=
  match m with
  | [] => [(k, v)]
  | (j, w) :: r => if k < j then (k, v) :: (j, w) :: r else if k = j then (k, v) :: r else (j, w) :: Map.set r k v

/-- The map without `k`. -/
def Map.del {α : Type} (m : Map α) (k : Nat) : Map α := m.filter (fun p => p.1 != k)

/-- The map with `f` applied to every listed value. -/
def Map.mapVals {α : Type} (f : Nat → α → α) (m : Map α) : Map α := m.map (fun p => (p.1, f p.1 p.2))

/-! ### Memory: bytes at addresses, in one canonical form -/

/-- Bytes that have been written, in rising order of address, none equal to what an unlisted byte reads as. Physical
addresses stand for themselves; a place of on-chip storage stands at its on-chip pointer (09_memory R201, R202). -/
abbrev Memory := List Host.Cell

/-- What a byte that nothing has written reads as (log 5: DESIGN CHOICE; the spec gives no reset contents of RAM). -/
def blankByte : Byte := 0

/-- Whether addresses rise strictly from above `lo`, and no entry is blank. -/
def Memory.wfFrom (lo : Nat) : Memory → Bool
  | [] => true
  | (a, b) :: r => decide (lo ≤ a) && b != blankByte && Memory.wfFrom (a + 1) r

/-- The canonical form: rising addresses, no entry that says what an unlisted byte reads as. -/
def Memory.wf (m : Memory) : Bool := Memory.wfFrom 0 m

/-! ### Threads (03_threads R61, R62) -/

/-- A staged vector slot (05_registers R124, R125): its register, value, written bit, and the octet's sideband byte with
its written bit. -/
structure VSlot where
  reg : Nat
  val : Word
  wr : Bool
  sb : Byte
  sbw : Bool
  deriving DecidableEq, Repr

/-- A staged uniform slot: 0-191 are s0-s191, 192-255 are g0-g63. -/
structure USlot where
  reg : Nat
  val : Word
  wr : Bool
  deriving DecidableEq, Repr

/-- The four bypass latches b1 to b4 of a lane; `none` is an invalid latch (R131, R132). -/
abbrev Latches := List (Option Word)

/-- Four invalid latches. -/
def noLatches : Latches := [none, none, none, none]

/-- What the words of a chain read: the operands as they stood before the chain (02_encoding R24). -/
structure View where
  vs : List VSlot
  us : List USlot
  lat : Latches
  preds : BitVec 8
  ra : BitVec 16
  /-- pending tags: register and entry of the core's future table -/
  tags : List (Nat × Nat)
  deriving DecidableEq, Repr

/-- The operands of a thread as they stood before its chain, with what its yard and partition hold for it: rig and ordinal,
spill base and limit, and the special registers CHUNKS and POOLFREE. -/
structure Held where
  view : View
  rig : Option (Nat × Nat)
  spl : DWord × DWord
  pool : Word × Word
  deriving DecidableEq, Repr

/-- What a blocked thread waits for (R62, R112, R144, R148, R270). -/
inductive WaitFor where
  /-- the operation of an entry of its core's future table -/
  | future (slot : Nat)
  /-- the grant of its yard's HOIST request -/
  | hoist
  /-- a replay, on a page of its context; its fault event may have been dropped -/
  | page (vpage kind reason : Nat) (dropped : Bool)
  /-- a copy that holds a range the word needs (R209), or another stall that ends by itself -/
  | burst
  deriving DecidableEq, Repr

/-- The states of Table 3-1, and unlaunched (R66). `since` is the cycle at which a rendezvous wait began. -/
inductive TState where
  | unlaunched
  | eligible
  | unindexed
  | streaming
  | rendezvous (since : Nat)
  | signed
  | blocked (w : WaitFor)
  | stopped
  | suspended
  | exited
  deriving DecidableEq, Repr

/-- A trap record (18_system Table 18-2). -/
structure TrapRec where
  intrap : Bool
  resume : Bool
  lvalid : BitVec 4
  widx : BitVec 2
  stopped : Bool
  sstep : Bool
  origin : BitVec 12
  cause : BitVec 8
  ncause : BitVec 8
  epc : BitVec 16
  b : List Word
  info0 : DWord
  info1 : DWord
  info2 : DWord
  deriving DecidableEq, Repr

def TrapRec.init : TrapRec :=
  { intrap := false, resume := false, lvalid := 0, widx := 0, stopped := false, sstep := false, origin := 0, cause := 0,
    ncause := 0, epc := 0, b := [0, 0, 0, 0], info0 := 0, info1 := 0, info2 := 0 }

/-- A departure that takes effect when the chain that holds the word ends (R25, R97): a transfer, an exit, a return, or
nothing. -/
inductive Leaving where
  | no
  | goto (pc : BitVec 16)
  | exit
  /-- the return of a TRET whose checks have passed (R369) -/
  | ret
  deriving DecidableEq, Repr

/-- A single step in progress (R382): nothing, armed by a resumption, or due after the stepped issue. -/
inductive StepMark where
  | off
  | armed
  | due
  deriving DecidableEq, Repr

/-- What a RIG-scope exchange word, which acts once for its set, has in store for a member whose group has not yet issued
it (R189): its results and flags, or the index of a mismatch that traps it. (DEDUCED, log 34.) -/
structure Given where
  vals : List Word
  ff : BitVec 5
  bad : Option Nat
  deriving DecidableEq, Repr

/-- A thread: one lane of one yard (R61). (DEDUCED, log 87.) -/
structure Thread where
  st : TState
  /-- program counter (R26) -/
  pc : BitVec 16
  /-- word of the packet at which it stands (R83, R112) -/
  wpos : Nat
  /-- RA (Table 4-3) -/
  ra : BitVec 16
  /-- RM (Table 5-3) -/
  rm : BitVec 3
  /-- FFLAGS: NV, DZ, OF, UF, NX from bit 4 to bit 0 -/
  ff : BitVec 5
  /-- p0-p7 -/
  preds : BitVec 8
  /-- CYC bits 63:32 latched by the last read of CYCLO -/
  cychi : Word
  /-- region descriptor: vector and uniform registers in slot order (R125) -/
  region : Option (List Nat × List Nat)
  /-- descriptor of the region that a trap or a stop interrupted (R133, R369) -/
  saved : Option (List Nat × List Nat)
  /-- staged slots; empty while no region is loaded -/
  vs : List VSlot
  us : List USlot
  lat : Latches
  /-- latches kept while blocked or parked (R134) -/
  kept : Option Latches
  /-- operands as they stood before the chain in progress (the model's own) -/
  held : Option Held
  leaving : Leaving
  /-- pending tags: register and entry of the core's future table (R111) -/
  tags : List (Nat × Nat)
  /-- trap record (Table 18-2) -/
  trec : TrapRec
  /-- released from a completed rendezvous at its position, with the identity of the set (R83) -/
  released : Option Nat
  given : Option Given
  /-- forms an issue group of its own at its next selection (R369) -/
  alone : Bool
  /-- the remaining words of its chain issue unchained (R369) -/
  loose : Bool
  step : StepMark
  /-- a quota trap due before its next issue (R380): the quota -/
  quotaTrap : Option Nat
  /-- fence epoch (R375) -/
  epoch : BitVec 22
  /-- index claimed by a QPUT that trapped or parked (R307) -/
  qidx : Option Word
  /-- stop group (R377) -/
  stopGroup : Option Nat
  /-- a stop due at its next switch point: its group, and whether a command asked for it (R377, R383) -/
  stopDue : Option (Nat × Bool)
  /-- the wait in which it was stopped (R383) -/
  waited : Option TState
  /-- service calls that its later calls must wait for (R375) -/
  fence : List Nat
  /-- cycle at which it last found no frontier entry (R76) -/
  missed : Nat
  /-- writes performed at the home slices when it last passed an acquire point: these it has seen (09_memory R214) -/
  acq : Nat
  deriving DecidableEq, Repr

/-- DESIGN CHOICE, log 6. -/
def Thread.init : Thread :=
  { st := .unlaunched, pc := 0, wpos := 0, ra := 0, rm := 0, ff := 0, preds := 0, cychi := 0, region := none, saved := none, vs := [],
    us := [], lat := noLatches, kept := none, held := none, leaving := .no, tags := [], trec := TrapRec.init,
    released := none, given := none, alone := false, loose := false, step := .off, quotaTrap := none, epoch := 0, qidx := none,
    stopGroup := none, stopDue := none, waited := none, fence := [], missed := 0, acq := 0 }

/-- An engine operation parked on a page: whether its access writes, and whether its fault event was dropped (12_translation
R271, R273). -/
structure Park where
  vpage : Nat
  write : Bool
  dropped : Bool
  deriving DecidableEq, Repr

/-! ### Yards, partitions, rigs (R63 to R76) -/

/-- A bind record (Table 3-2). -/
structure Bind where
  argptr : DWord
  righ : DWord
  trapvec : BitVec 16
  yardno : BitVec 26
  valid : Bool
  hold : Bool
  err : Bool
  context : BitVec 6
  world : BitVec 6
  version : BitVec 2
  ord : BitVec 6
  entry : BitVec 16
  lanes : BitVec 7
  deriving DecidableEq, Repr

def Bind.init : Bind :=
  { argptr := 0, righ := 0, trapvec := 0, yardno := 0, valid := false, hold := false, err := false, context := 0,
    world := 0, version := 0, ord := 0, entry := 0, lanes := 0 }

/-- An unfinished spill burst of a yard (R148): the position of its word, its issuing lanes, next line, address, descriptor,
and whether it moves sideband bytes; the lanes that have not yet passed the word. -/
structure Burst where
  pc : BitVec 16
  w : Nat
  fill : Bool
  lanes : List Nat
  line : Nat
  addr : DWord
  desc : Word
  gran : Bool
  done : Bool
  deriving DecidableEq, Repr

/-- A yard slot of a core. -/
structure Yard where
  bind : Bind
  /-- the record waits for dispatch (R65) -/
  waiting : Bool
  /-- the yard is initialised and has not retired (R66, R67) -/
  resident : Bool
  /-- uniform file, s0-s191 -/
  ufile : Map Word
  /-- extended chunks held (R135) -/
  chunks : Nat
  splbase : DWord
  spllim : DWord
  /-- rig it is a member of, and its ordinal -/
  rig : Option (Nat × Nat)
  /-- rig that holds its stripe s128-s191 (R72) -/
  stripe : Option Nat
  burst : Option Burst
  deriving DecidableEq, Repr

def Yard.init : Yard :=
  { bind := Bind.init, waiting := false, resident := false, ufile := [], chunks := 0, splbase := 0, spllim := 0,
    rig := none, stripe := none, burst := none }

/-- A frontier entry (R73). -/
structure Entry where
  addr : BitVec 16
  wait : List Nat
  age : Nat
  deriving DecidableEq, Repr

/-- An issue group (R78, R79): its threads, its position, and its chain and run. (DEDUCED, log 29.) -/
structure Group where
  lanes : List Nat
  pc : BitVec 16
  w : Nat
  /-- the words of its packet, from its first issue in the packet on; empty while none has issued -/
  words : List Word
  /-- packets completed in the run (R80) -/
  run : Nat
  /-- words of the chain in progress that have not issued -/
  left : Nat
  /-- a switch point is due at the end of the chain or word in progress -/
  sw : Bool
  /-- a word of its run has issued: it is not at a switch point -/
  runs : Bool
  /-- the word has stalled: it has not issued (R81) -/
  stall : Bool
  deriving DecidableEq, Repr

/-- The streaming block of a partition: its entry and its groups, the one that has issue, and the group's number. -/
structure Stream where
  addr : BitVec 16
  groups : List Group
  cur : Nat
  deriving DecidableEq, Repr

/-- A HOIST request (R144): yard, chunks asked for, members that wait. -/
structure HoistReq where
  yard : Nat
  k : Nat
  members : List Nat
  deriving DecidableEq, Repr

/-- A partition. -/
structure Part where
  entries : List Entry
  /-- addresses of the entries in the aged queue, oldest first (R74) -/
  aged : List (BitVec 16)
  /-- unindexed threads, longest first (R76) -/
  unindexed : List Nat
  stream : Option Stream
  hoistq : List HoistReq
  deriving DecidableEq, Repr

def Part.init : Part := { entries := [], aged := [], unindexed := [], stream := none, hoistq := [] }

/-- Rig states (Table 3-5). -/
inductive RigState where
  | declared | forming | sealed
  deriving DecidableEq, Repr

/-- A record of a cluster's rig table (R117). `st` is `none` when the record is free. -/
structure Rig where
  st : Option RigState
  reuse : BitVec 2
  count : Nat
  context : Nat
  /-- member yards with their ordinals -/
  members : List (Nat × Nat)
  /-- yards that hold a stripe, by ordinal (R71, R72) -/
  stripes : Map Nat
  /-- ordinals given -/
  given : Nat
  /-- cleat of each core of the cluster (R68) -/
  cleat : Map Nat
  deriving DecidableEq, Repr

def Rig.init : Rig :=
  { st := none, reuse := 0, count := 0, context := 0, members := [], stripes := [], given := 0, cleat := [] }

/-- Members of one set fault (R372): those that have trapped and not yet returned, those suspended, and those that were
released with the trapped ones by the completion `id` and whose groups have yet to issue the word: each of these traps at it
too, or is then suspended. (DEDUCED, log 83.) -/
structure SetFault where
  trapped : List Nat
  held : List Nat
  id : Option Nat
  due : List Nat
  deriving DecidableEq, Repr

/-- A write-back that stalls on a range a copy still holds (R128, R209): thread, register, its value and its octet's sideband
byte where they are written. -/
structure Owed where
  thread : Nat
  reg : Nat
  val : Option Word
  sb : Option Byte
  deriving DecidableEq, Repr

/-! ### Futures, segments, cleats and the matrix sequencer of a core -/

/-- An entry of a core's future table (04_control R111): its kind, its resolution as (STATE, STATUS) of Table 4-7 once it
has one, its reference count, and whether a cancellation has been asked for. -/
structure Fut where
  kind : Nat
  res : Option (Nat × Nat)
  refs : Nat
  cancel : Bool
  deriving DecidableEq, Repr

/-- A segment of a core's instruction memory (Tables 4-5 and 4-6): STATE as its code, and what it fetches or holds. -/
structure Seg where
  st : Nat
  packets : Nat
  landno : BitVec 8
  status : Nat
  src : DWord
  slot : Option Nat
  deriving DecidableEq, Repr

def Seg.init : Seg := { st := 0, packets := 0, landno := 0, status := 0, src := 0, slot := none }

/-- A range scoreboard entry (09_memory R209, R210): space, offsets [lo, hi), the future that the copy resolves (core and
slot), the copy's number, and whether it has faulted, with the copy's status. -/
structure Range where
  space : Nat
  lo : Nat
  hi : Nat
  fut : Option (Nat × Nat)
  copy : Nat
  faulted : Bool
  status : Nat
  deriving DecidableEq, Repr

/-- What a cleat's phase performs when it releases (R87, R122, R327): the word that its threads sign. -/
inductive SignOp where
  | sign
  | mseta
  | msetb
  | mzero
  | mldb (d : BitVec 5)
  | mma (o : MmaOp)
  deriving DecidableEq, Repr

/-- A signature: thread, whether its guard was true, the word's position and its first word, its operand values, the format
word and RM included where the word has them, and the register that its handle goes to (R328). -/
structure Sign where
  thread : Nat
  active : Bool
  pc : BitVec 16
  w : Nat
  word : DWord
  vals : List Word
  fw : Word
  rm : BitVec 3
  dst : Option Nat
  deriving DecidableEq, Repr

/-- A cleat (Table 3-12) with its signatures and its binding set of four records: A data, A scale, B data, B scale
(14_matrix R326). (DEDUCED, log 32.) -/
structure Cleat where
  rig : Option Nat
  addr : BitVec 16
  /-- word of the packet at which the phase was first signed -/
  addrw : Nat
  phase : BitVec 8
  gen : BitVec 8
  opened : Bool
  fault : Bool
  expect : Nat
  signs : List Sign
  op : SignOp
  first : Nat
  binds : List Word
  deriving DecidableEq, Repr

def Cleat.init : Cleat :=
  { rig := none, addr := 0, addrw := 0, phase := 0, gen := 0, opened := false, fault := false, expect := 0, signs := [],
    op := .sign, first := 0, binds := List.replicate 16 0 }

/-- A cell in the span of an MMA (14_matrix R318, R320): whether it is live, its base exponent E, its weight W, and its sum S as
residues modulo 1,023, 1,024 and 1,025. -/
structure SpanCell where
  i : Nat
  j : Nat
  live : Bool
  e : Int
  w : Nat
  sum : Nat × Nat × Nat
  deriving DecidableEq, Repr

/-- A matrix operation (R328): what it does, the binding set copied into it, its voted format word and RM, its operands,
its future, and the signers that wait for it to enter the queue; and where an MMA stands, its cells with the open span
(R329). -/
structure MatOp where
  op : SignOp
  cleat : Nat
  binds : List Word
  fw : Word
  rm : BitVec 3
  vals : List Word
  signers : List Sign
  slot : Option Nat
  ctx : Nat
  /-- where the sequencer stands (Table 14-11) -/
  pass : Nat
  block : Nat
  span0 : Nat
  opened : Bool
  cells : List SpanCell
  parked : Option Park
  deriving DecidableEq, Repr

/-- A call in a slot of a mailbox ring: what its packet holds (18_system Table 18-3), with its number and those of the calls
that a FENCEC has put before it (R375). -/
structure Call where
  num : Nat
  after : List Nat
  seq : Word
  call : Word
  args : DWord
  world : Nat
  ctx : Nat
  thread : Nat
  epoch : BitVec 22
  slot : Nat
  parked : Option Park
  deriving DecidableEq, Repr

/-- A compute core. -/
structure Core where
  /-- context that the core serves (R15) -/
  ctx : Option Nat
  /-- kernel that its instruction memory serves: KERNEL and CHECK (R49) -/
  kernel : Option (DWord × Word)
  segs : Map Seg
  futs : Map Fut
  ranges : List Range
  cleats : Map Cleat
  /-- released operations that wait for a place, the queue, and the operation performed (R328) -/
  mreleased : List MatOp
  mqueue : List MatOp
  mrun : Option MatOp
  mxflags : BitVec 5
  spans : Word
  /-- CYC (R440) -/
  cyc : DWord
  /-- mailbox ring: the call packet in each slot that holds one, and the slot after the last one written (R373) -/
  ring : Map Call
  ringnext : Nat
  /-- pre-emption asked for, and halted (R90) -/
  preempt : Bool
  halted : Bool
  deriving DecidableEq, Repr

def Core.init : Core :=
  { ctx := none, kernel := none, segs := [], futs := [], ranges := [], cleats := [], mreleased := [], mqueue := [],
    mrun := none, mxflags := 0, spans := 0, cyc := 0, ring := [], ringnext := 0, preempt := false, halted := false }

/-! ### The data caches and the home slices (09_memory R211, 11_coherence R234) -/

/-- Word states of Table 9-3; a word that is not listed is invalid. -/
inductive WState where
  | valid | pending | owned
  deriving DecidableEq, Repr

/-- A word in a data cache. -/
structure CWord where
  st : WState
  val : Word
  deriving DecidableEq, Repr

/-- A store whose registration is not acknowledged (R219): core, thread and word, the bytes of the word that it writes, and
the writes at the home slices that its thread had seen. -/
structure Pend where
  core : Nat
  thread : Nat
  word : Nat
  /-- marked non-coherent (R240) -/
  nc : Bool
  mask : BitVec 4
  val : Word
  since : Nat
  deriving DecidableEq, Repr

/-- A write to a word that the home slice has performed, where no later write that has seen it replaces it (R217): the rank of
its writer, 1 + core, or 0 for a host or a peer; its number among all writes performed; and the bytes it wrote. -/
structure Write where
  rank : Nat
  num : Nat
  mask : BitVec 4
  val : Word
  deriving DecidableEq, Repr

/-! ### Contexts (12_translation R261, 11_coherence R258, 18_system R376, 19_trust R410) -/

/-- A non-coherent window (R258): enable, base, granules of 64 KiB. -/
structure Win where
  en : Bool
  base : DWord
  count : Nat
  deriving DecidableEq, Repr

/-- A debug block (Table 18-5). -/
structure Debug where
  stopw : BitVec 2
  attach : Bool
  lane : BitVec 6
  yslot : BitVec 7
  core : BitVec 6
  err : Bool
  deriving DecidableEq, Repr

def Debug.init : Debug := { stopw := 0, attach := false, lane := 0, yslot := 0, core := 0, err := false }

/-- A near-data tag block (Table 19-6): BODY as ten words, and the session that the tagging in progress is under. -/
structure TagBlock where
  body : List Word
  pctr : DWord
  tag : BitVec 128
  session : BitVec 16
  under : BitVec 16
  busy : Bool
  done : Bool
  err : BitVec 6
  deriving DecidableEq, Repr

def TagBlock.init : TagBlock :=
  { body := List.replicate 10 0, pctr := 0, tag := 0, session := 0, under := 0, busy := false, done := false, err := 0 }

/-- On-chip bytes of a core block of a save area (Table 18-6): accumulators, slices and scratchpad, with the addresses of
poisoned words among them, each at the address that core 0 would give it. (DESIGN CHOICE, log 150.) -/
structure CoreImage where
  mem : Memory
  poison : List Nat
  deriving DecidableEq, Repr

/-- A context. `image` holds the on-chip bytes of its save area while it is saved, one block for each core of its core list;
the rest of a core block stands in the tables of the fabric under the number that the core has while it is saved.
(DESIGN CHOICE, log 150.) -/
structure Context where
  created : Bool
  resident : Bool
  saving : Bool
  mode : BitVec 4
  asid : BitVec 16
  ppn : BitVec 44
  tmode : BitVec 2
  world : BitVec 6
  cores : List Nat
  statGrant : Bool
  sysGrant : Bool
  windows : Map Win
  dbg : Debug
  image : List CoreImage
  /-- quota that exhausted and had the context pre-empted (R380, R414) -/
  exhausted : Option Nat
  tag : TagBlock
  deriving DecidableEq, Repr

def Context.init : Context :=
  { created := false, resident := false, saving := false, mode := 0, asid := 0, ppn := 0, tmode := 0, world := 0,
    cores := [], statGrant := false, sysGrant := false, windows := [], dbg := Debug.init, image := [],
    exhausted := none, tag := TagBlock.init }

/-! ### Translation (12_translation) -/

/-- A TLB entry (R265): `place` is a core (L1) or 64 + cluster (L2); `size` as TLBPROBE codes it; `base` and `ppn` count
4 KiB pages. -/
structure TlbEntry where
  place : Nat
  ctx : Nat
  base : Nat
  size : Nat
  ppn : Nat
  r : Bool
  w : Bool
  d : Bool
  mode : Nat
  asid : Nat
  world1 : Bool
  g : Bool
  deriving DecidableEq, Repr

/-- A walk in flight, or one that waits for a walk slot of its cluster (R266): context, page and access kind; the cores that
asked; and the prefetches that wait for it, by core and address (09_memory R227). -/
structure Walk where
  cluster : Nat
  ctx : Nat
  vpage : Nat
  kind : Nat
  cores : List Nat
  prefs : List (Nat × DWord)
  deriving DecidableEq, Repr

/-- A POT entry (Table 12-2). -/
structure Pot where
  sys : Bool
  bound : Bool
  mode : BitVec 2
  world : BitVec 6
  deriving DecidableEq, Repr

def Pot.init : Pot := { sys := false, bound := false, mode := 0, world := 0 }

/-- A fault buffer entry (Table 12-3). -/
structure FbEntry where
  vpage : Nat
  kind : Nat
  reason : Nat
  ctx : Nat
  firstcore : Nat
  count : Nat
  deriving DecidableEq, Repr

/-- A fault buffer with its status (Table 12-4): eight places. -/
structure FaultBuf where
  entries : Map FbEntry
  drops : Nat
  dropctx : BitVec 64
  deriving DecidableEq, Repr

def FaultBuf.init : FaultBuf := { entries := [], drops := 0, dropctx := 0 }

/-- The shootdown block (Table 12-5), with whether a shootdown runs. -/
structure Shootdown where
  alladdr : Bool
  allasid : Bool
  asid : BitVec 16
  va : DWord
  npages : Word
  seq : Word
  ackseq : Word
  ackaddr : DWord
  ackdata : Word
  err : Bool
  running : Bool
  deriving DecidableEq, Repr

/-! ### Coherence with agents outside (11_coherence) -/

/-- A request that waits at the directory for back-invalidations (Table 11-1): what it is and for whom. -/
inductive DirReq where
  | read (h : Nat)
  | own (h : Nat)
  deriving DecidableEq, Repr

/-- A directory entry (R237): the base of its block, LEVEL, HOLDERS, EXCL or SHARED, the cycle of its last request, the
holders whose back-invalidation is outstanding with the line it names, the request that waits for them, and whether the entry
is being evicted (R239). -/
structure DirEntry where
  base : Nat
  level : Nat
  holders : BitVec 16
  excl : Bool
  last : Nat
  await : List (Nat × Nat)
  req : Option DirReq
  evict : Bool
  deriving DecidableEq, Repr

/-- A request that waits its turn at the directory (R237): of a holder, or of the device, for a line; a read, or one that
writes or takes ownership; and the cycle at which it was last made. -/
structure Ask where
  holder : Option Nat
  line : Nat
  own : Bool
  made : Nat
  deriving DecidableEq, Repr

/-- A HANDOFF or an RMODE in progress (R255, R257): its yard and position, the regions changed, and its status word once it has
ended. -/
structure Long where
  yard : Nat
  pc : BitVec 16
  w : Nat
  done : Nat
  status : Option Word
  deriving DecidableEq, Repr

/-- The handover registers (Table 11-2), with what the handover that runs needs: the lines it has done, its direction and lines,
and its base; for one that a HANDOFF started its yard, its physical pages, and its virtual base within 64 KiB. -/
structure Handover where
  base : DWord
  len : Word
  dir : Bool
  seq : Word
  busy : Bool
  err : Bool
  result : BitVec 2
  code : BitVec 4
  done : BitVec 24
  progress : Nat
  toDev : Bool
  by_ : Option Nat
  total : Nat
  pages : List Nat
  off : Nat
  deriving DecidableEq, Repr

/-- The refresh state and statistics of a pseudo-channel (R250, Table 11-5): OWED of the banks, the bank of the next
tick and when the last one came, when a bank last returned read data, the reads that stand queued as (bank, arrival), a forced
sequence that waits, the last refresh of each bank, and the end of the last column access. Times are in nanoseconds. -/
structure Refresh where
  rstall : DWord
  postp : DWord
  forced : DWord
  abref : DWord
  owed : Map Nat
  cecc : Word
  affwin : Nat
  nextBank : Nat
  lastTick : Option Nat
  lastRead : Map Nat
  queued : List (Nat × Nat)
  pendingForced : Option Nat
  busyFrom : Map Nat
  busyUntil : Map Nat
  column : Nat
  deriving DecidableEq, Repr

def Refresh.init : Refresh :=
  { rstall := 0, postp := 0, forced := 0, abref := 0, owed := [], cecc := 0, affwin := 1024, nextBank := 0,
    lastTick := none, lastRead := [], queued := [], pendingForced := none, busyFrom := [], busyUntil := [], column := 0 }

/-- A CXL port: link recovery registers (Table 20-5), BUSY being 1 while `cmd` holds the command that runs, with the lines it has
still to deal with; the BI-IDs of its holders; and its HDM decoder (R419). -/
structure Port where
  linkup : Bool
  viral : Bool
  downseen : Bool
  cmd : Option Nat
  left : List Nat
  result : BitVec 3
  done : BitVec 24
  ids : List (Nat × Nat)
  hdm : Option (Nat × Nat × Nat × Nat)
  deriving DecidableEq, Repr

/-- DESIGN CHOICE, log 9. -/
def Port.init : Port :=
  { linkup := false, viral := false, downseen := false, cmd := none, left := [], result := 0, done := 0, ids := [], hdm := none }

/-! ### Queues, copies, tasks and launches (13_async) -/

/-- A queue attachment slot (Table 13-13), with RING, LOGD and CCLUST as its consumer read them (R285), the page on which
the consumer's service is parked (R287), and a page that FBDELIVER has delivered to the operation being consumed. -/
structure QSlot where
  hdr : DWord
  att : Bool
  err : Bool
  ctx : BitVec 6
  ckind : BitVec 4
  ring : DWord
  logd : Nat
  cclust : Nat
  parked : Option Park
  failed : Option Nat
  deriving DecidableEq, Repr

def QSlot.init : QSlot :=
  { hdr := 0, att := false, err := false, ctx := 0, ckind := 0, ring := 0, logd := 0, cclust := 0, parked := none,
    failed := none }

/-- The completion fields of a packet header (Table 13-2). -/
structure Compl where
  cstat : Bool
  csig : Bool
  caddr : DWord
  sigtid : Word
  deriving DecidableEq, Repr

def Compl.none : Compl := { cstat := false, csig := false, caddr := 0, sigtid := 0 }

/-- A copy in flight (R293 to R298): the engine's cluster, the context and core it runs for, its fields, its future, the
rows done, the flags raised, the page it is parked on with the side at fault, and its number. A row that has been read
stands converted in `buf`, with `pos` of its bytes written. -/
structure Copy where
  num : Nat
  cluster : Nat
  ctx : Nat
  core : Nat
  src : DWord
  dst : DWord
  rowlen : Nat
  nrows : Nat
  spitch : Nat
  dpitch : Nat
  rm : Nat
  swzsrc : Bool
  swz : Nat
  sat : Bool
  mxfmt : Nat
  conv : Nat
  compl : Compl
  fut : Option (Nat × Nat)
  /-- a segment fetch: core and segment (R108) -/
  seg : Option (Nat × Nat)
  row : Nat
  buf : Option (List Byte)
  pos : Nat
  flags : BitVec 5
  aux : Nat
  parked : Option Park
  /-- the writes at the home slices that its issuer had seen (09_memory R214) -/
  since : Nat
  deriving DecidableEq, Repr

/-- An operation that has ended and whose status word is still to be written (R291): the cluster that serves it, its
context, completion fields and future, its outcome, and the page on which the write is parked. -/
structure Ended where
  cluster : Nat
  /-- rank and knowledge of its writes: 1 + the core whose thread issued the operation, or 0, and the writes at the home slices
  that it has seen (09_memory R217) -/
  rank : Nat
  since : Nat
  ctx : Nat
  compl : Compl
  fut : Option (Nat × Nat)
  /-- the task that the outcome makes DONE -/
  task : Option Nat
  state : Nat
  status : Nat
  flags : BitVec 5
  aux : Nat
  parked : Option Park
  deriving DecidableEq, Repr

/-- Statistics of a copy engine (Table 13-7). -/
structure Engine where
  bytes : DWord
  ops : DWord
  loststat : Word
  deriving DecidableEq, Repr

def Engine.init : Engine := { bytes := 0, ops := 0, loststat := 0 }

/-- Task states (Table 13-10); a FREE entry is `none` in the entry. -/
inductive TaskState where
  | waiting | ready | running | done
  deriving DecidableEq, Repr

/-- A task entry (R302, R303): GEN lives on when the entry is free. -/
structure Task where
  st : Option TaskState
  gen : BitVec 8
  count : Nat
  ctx : Nat
  packet : List Word
  fut : Option (Nat × Nat)
  compl : Compl
  deriving DecidableEq, Repr

def Task.init : Task :=
  { st := none, gen := 0, count := 0, ctx := 0, packet := [], fut := none, compl := Compl.none }

/-- A launch (R300, R301): its number, packet, context, kind (2, or 4 for near-data), completion fields, the task it
comes from, and once it is placed its yards (core and slot) and how many have retired. -/
structure Launch where
  num : Nat
  kind : Nat
  ctx : Nat
  packet : List Word
  compl : Compl
  task : Option Nat
  placed : Bool
  yards : List (Nat × Nat)
  retired : Nat
  total : Nat
  deriving DecidableEq, Repr

/-! ### Key-value pools and work queues (16_attention) -/

/-- A move in progress (R350): block, its class, old page and new page. -/
structure Move where
  pool : Nat
  lbn : Nat
  cls : Nat
  old : DWord
  dst : DWord
  deriving DecidableEq, Repr

/-- A pool slot (Table 16-2), with the header as the manager read it (Table 16-1), its scan position, and a detachment that
waits for moves in progress to publish (R346). -/
structure Pool where
  hdr : DWord
  att : Bool
  leaving : Bool
  err : Bool
  ctx : BitVec 6
  cmpt : Bool
  moves : DWord
  allocfail : DWord
  btab : DWord
  stab : DWord
  map : DWord
  nblk : Nat
  logbp : Nat
  nseq : Nat
  slabs : List (DWord × Nat)
  scan : Nat
  deriving DecidableEq, Repr

def Pool.init : Pool :=
  { hdr := 0, att := false, leaving := false, err := false, ctx := 0, cmpt := false, moves := 0, allocfail := 0,
    btab := 0, stab := 0, map := 0, nblk := 0, logbp := 0, nseq := 0, slabs := [], scan := 0 }

/-- A pull in flight (R359): core, yard's destination, future slot, and its item once one is assigned. -/
structure Pull where
  core : Nat
  ctx : Nat
  dst : DWord
  slot : Option Nat
  item : Option (List Word)
  parked : Option Park
  deriving DecidableEq, Repr

/-- A work queue (Table 16-10). -/
structure Wq where
  ring : DWord
  att : Bool
  err : Bool
  ctx : BitVec 6
  closed : Bool
  logd : BitVec 5
  count : Nat
  head : Nat
  pushed : DWord
  pulls : List Pull
  deriving DecidableEq, Repr

def Wq.init : Wq :=
  { ring := 0, att := false, err := false, ctx := 0, closed := false, logd := 0, count := 0, head := 0, pushed := 0,
    pulls := [] }

/-! ### Trust (19_trust) -/

/-- World states (R395). -/
inductive WorldState where
  | free | live | closing
  deriving DecidableEq, Repr

/-- The keys of a world's generation (R404): the two keys of the XTS pair, and the MAC key. -/
structure Keys where
  xts1 : BitVec 256
  xts2 : BitVec 256
  mac : BitVec 256
  deriving DecidableEq, Repr

/-- A registered near-data image: its number, digest and bytes, which firmware keeps in SYS pages (Table 19-2). -/
structure Image where
  num : Nat
  digest : BitVec 384
  bytes : List Byte
  /-- its place in the order of registration -/
  order : Nat
  deriving DecidableEq, Repr

/-- A world table entry (R395, R404, R407, R412, R415, R416). -/
structure World where
  st : WorldState
  keys : Option Keys
  nextKeys : Option Keys
  authority : BitVec 768
  kgen : BitVec 8
  /-- sweep pointer, while a rotation runs -/
  sp : Option Nat
  limit : List DWord
  used : List DWord
  logRing : Option (DWord × Nat × DWord)
  seq : DWord
  prev : BitVec 384
  checkpoints : Nat
  lastPeriodic : Nat
  allowed : List (BitVec 384)
  /-- registered images -/
  images : List Image
  deriving DecidableEq, Repr

/-- DEDUCED, log 106. -/
def World.init : World :=
  { st := .free, keys := none, nextKeys := none, authority := 0, kgen := 0, sp := none, limit := [0, 0, 0, 0],
    used := [0, 0, 0, 0], logRing := none, seq := 0, prev := 0, checkpoints := 0, lastPeriodic := 0, allowed := [],
    images := [] }

/-- A trust command as its GO found it: code, world and arguments. -/
structure TrustRun where
  code : Nat
  world : Nat
  arg0 : DWord
  arg1 : DWord
  arg2 : DWord
  deriving DecidableEq, Repr

/-- The trust command block (Table 19-1); BUSY is 1 while `run` holds a command (R396, R403). -/
structure Trust where
  arg0 : DWord
  arg1 : DWord
  arg2 : DWord
  world : BitVec 6
  code : BitVec 8
  run : Option TrustRun
  errc : BitVec 7
  cseq : BitVec 24
  out : DWord
  deriving DecidableEq, Repr

/-- States of an SPDM connection (Table 19-4). -/
inductive SpdmState where
  | none | versioned | caps | ready
  deriving DecidableEq, Repr

/-- An SPDM connection of one transport (R401, R402): its state; the running hashes VCA of the negotiation, M1/M2 and TH, each
of them appended to VCA (L1/L2 begins anew at each signed answer); the pending handshake with the world that it names for
near-data use; open sessions; the certificate slot that it locks (R403); and the slot and nonce of a CHALLENGE that is being
answered. -/
structure Conn where
  st : SpdmState
  vca : BitVec 384
  m : BitVec 384
  th : BitVec 384
  pending : Option (Nat × Option Nat)
  sessions : List Nat
  lock : Option Nat
  chal : Option (Nat × BitVec 256)
  deriving DecidableEq, Repr

def Conn.init : Conn :=
  { st := .none, vca := 0, m := 0, th := 0, pending := none, sessions := [], lock := none, chal := none }

/-- A near-data session (R409): its number, world, key, next counter to assign and last counter accepted. -/
structure Session where
  num : Nat
  world : Nat
  key : BitVec 384
  next : DWord
  last : DWord
  deriving DecidableEq, Repr

/-- Secrets and identity of the trust core (R398 to R400, R403, R406): the vault's d and KS, KT, and the digest of the helper
data. A certificate chain stands as its length and digest. -/
structure Identity where
  present : Bool
  d : BitVec 384
  ks : BitVec 256
  kt : BitVec 256
  helper : BitVec 384
  mr : List (BitVec 384)
  chains : Map (Nat × BitVec 384)
  /-- integrity range IBASE to ILIMIT (R406) -/
  ibase : Nat
  ilimit : Nat
  /-- end of the static capacity of a TD9-X, where its dynamic capacity region begins (20_boundary R425) -/
  dcBase : Nat
  dbgen : Bool
  deriving DecidableEq, Repr

/-! ### The device and its power (20_boundary) -/

/-- The device status block (Table 20-3), the number of error records formed, and the sampled package signals. -/
structure Status where
  stage : BitVec 8
  state : BitVec 3
  eqbase : DWord
  eqlogd : BitVec 5
  eqwidx : Word
  eqridx : Word
  lost : Word
  msiaddr : DWord
  msidata : Word
  temp : BitVec 16
  power : BitVec 16
  sdid : BitVec 11
  formed : Word
  pwrgd : Bool
  i3c : Option (BitVec 7)
  deriving DecidableEq, Repr

/-- The context kick (Table 20-4); BUSY is 1 while `run` holds a command, as its context and action. -/
structure Kick where
  ctx : BitVec 6
  action : BitVec 2
  clusters : BitVec 14
  run : Option (Nat × Nat)
  err : Bool
  result : BitVec 3
  kseq : Word
  deriving DecidableEq, Repr

/-- The power registers (Table 20-7), the point of each cluster and the point at which capping holds it (R427, R428), the
state that an exit in progress leads to (R429), the ticks that the entry conditions count from, and the tick of the last step of
capping. -/
structure Power where
  ltol : Word
  cap : Bool
  gated : BitVec 14
  pstate : BitVec 2
  points : Map Nat
  capped : Map Nat
  res0 : DWord
  res2 : DWord
  res3 : DWord
  exiting : Option Nat
  gatedSince : Nat
  quietSince : Nat
  coolSince : Option Nat
  lastStep : Option Nat
  deriving DecidableEq, Repr

/-- What the device sends out of itself: an MSI; an error record (Table 18-7) of some type with its 64 bytes as words;
an SPDM response by its code; a back-invalidation (holder, line, BISnpInv or BISnpData); a report to the management core;
a service interrupt. (DESIGN CHOICE, log 8, 127.) -/
inductive Msg where
  | msi (addr : DWord) (data : Word)
  | record (dropped : Bool) (words : List Word)
  | spdm (tr code param : Nat) (body : List (BitVec 384))
  | bisnp (h pa : Nat) (inv : Bool)
  | report (kind : Nat) (vals : List Nat)
  | service (core : Nat)
  deriving DecidableEq, Repr

/-! ### The machine -/

/-- One turn of the agenda (the model's own): a device event happens, or a partition issues. -/
inductive Turn where
  | event (i : Instr)
  | issue (core part : Nat)
  deriving DecidableEq, Repr

/-- What lies behind the operands of words: registers, threads and their scheduling. -/
structure Fabric where
  threads : Map Thread
  main : Map Word
  side : Map Byte
  yards : Map Yard
  parts : Map Part
  cores : Map Core
  rigs : Map Rig
  sets : List SetFault
  /-- released sets whose FENCEC has acted (R375) -/
  fenced : List Nat
  /-- write-backs that stall, oldest first -/
  owed : List Owed
  /-- the source values of exchange words as a completed rendezvous found them, by the identity of the released set, at
  256 × thread + register (08_exchange R191) -/
  snaps : Map (Map Word)
  /-- number of the next released set, stop group, copy and launch (the model's own) -/
  serial : Nat
  deriving DecidableEq, Repr

/-- Memory and what caches it. (DESIGN CHOICE, log 37.) -/
structure Mem where
  bytes : Memory
  /-- dirty words of the L2, by address: what their home slices hold -/
  l2 : Map Word
  /-- lines that each slice holds, the first to be evicted first (11_coherence R234) -/
  slices : Map (List Nat)
  owner : Map Nat
  /-- the writes of a word among which R217 chooses -/
  writes : Map (List Write)
  /-- writes performed at the home slices -/
  written : Nat
  dcache : Map CWord
  /-- lines that each core's data cache holds, the first to be evicted first (R211) -/
  dlines : Map (List Nat)
  pend : List Pend
  /-- poisoned words, by word address or on-chip key; a poisoned line as its address plus one (R245, R246, R389) -/
  poison : List Nat
  /-- the counter tree of integrity mode (19_trust R406): the counters below its top eight, by 2^48 times their level and
  their place in it; the lines' own are level 0, from IBASE on -/
  counters : Map (BitVec 56)
  /-- the eight counters at the top of the tree, on the die -/
  top : List (BitVec 56)
  tlb : List TlbEntry
  walks : List Walk
  pot : Map Pot
  fbs : Map FaultBuf
  sd : Shootdown
  /-- 64 KiB regions in mode HC (R236) -/
  hc : List Nat
  dir : List DirEntry
  /-- requests that wait their turn at the directory, in arrival order (R237) -/
  asks : List Ask
  /-- lines that prefetches wait for at the directory: core, line, and whether marked non-coherent (09_memory R227) -/
  fetches : List (Nat × Nat × Bool)
  /-- regions in transition, with the yard whose RMODE changes them (R257) -/
  moving : List (Nat × Nat)
  /-- words on ranges in progress -/
  longs : List Long
  ho : Handover
  refresh : Map Refresh
  /-- ranges of expanders reported lost: port, base and length (R391) -/
  lost : List (Nat × Nat × Nat)
  ports : Map Port
  /-- soft errors corrected (R389) -/
  corrected : Nat
  deriving DecidableEq, Repr

/-- The engines. -/
structure Engines where
  queues : Map QSlot
  copies : List Copy
  ends : List Ended
  stats : Map Engine
  tasks : Map Task
  launches : List Launch
  pools : Map Pool
  moves : Map Move
  /-- the pool that each compaction engine serves next (R350) -/
  robin : Map Nat
  /-- the attachment slot that each consumer serves next (13_async R288): a copy engine by its cluster, the launch, task and
  near-data consumers as 14, 15 and 16 -/
  turn : Map Nat
  wqs : Map Wq
  deriving DecidableEq, Repr

/-- The trust core and metering. -/
structure TrustSt where
  cmd : Trust
  worlds : Map World
  ident : Identity
  conns : Map Conn
  nd : List Session
  /-- dynamic capacity extents accepted: base, pages, world (R425) -/
  extents : List (Nat × Nat × Nat)
  /-- cycle of the last fold of yard-time, and each world's yard cycles since (R412) -/
  lastFold : Nat
  unfolded : Map Nat
  /-- near-data images registered since the cold start -/
  registered : Nat
  deriving DecidableEq, Repr

/-- The whole machine. -/
structure State where
  agenda : List Turn
  /-- core and partition that issue when the agenda is empty (the model's own) -/
  focus : Nat × Nat
  /-- free values drawn so far (the model's own) -/
  fresh : Nat
  /-- TD9-X (R1) -/
  fitX : Bool
  /-- core cycles (R2) -/
  now : Nat
  /-- reference-clock ticks since the last cold start (Table 18-7) -/
  ticks : DWord
  fab : Fabric
  mem : Mem
  ctxs : Map Context
  eng : Engines
  trust : TrustSt
  status : Status
  kick : Kick
  power : Power
  /-- messages sent, newest first (the model's own record of outputs) -/
  out : List Msg
  deriving DecidableEq, Repr

/-- The faults of a step. No instruction of the spec stops the machine: an exception is taken as a next state. -/
inductive Fault where
  /-- raised by the step when the agenda names as an event a word that only a partition issues. Safe: the agenda is the
  model's own, and nothing is claimed of such a run. -/
  | notAnEvent
  deriving DecidableEq, Repr

/-- The refusals of a step. -/
inductive Refusal where
  /-- raised by an arm of `exec` for an instruction that the model gives no meaning. Safe. -/
  | notModelled (mnemonic : String)
  deriving DecidableEq, Repr

/-! ### Reset -/

def Fabric.init : Fabric :=
  { threads := [], main := [], side := [], yards := [], parts := [], cores := [], rigs := [], sets := [], fenced := [], owed := [], snaps := [], serial := 0 }

def Mem.init : Mem :=
  { bytes := [], l2 := [], slices := [], owner := [], writes := [], written := 0, dcache := [], dlines := [], pend := [],
    poison := [], counters := [], top := List.replicate 8 0, tlb := [], walks := [], pot := [], fbs := [],
    sd := { alladdr := false, allasid := false, asid := 0, va := 0, npages := 0, seq := 0, ackseq := 0, ackaddr := 0,
            ackdata := 0, err := false, running := false },
    hc := [], dir := [], asks := [], fetches := [], moving := [], longs := [],
    ho := { base := 0, len := 0, dir := false, seq := 0, busy := false, err := false, result := 0, code := 0, done := 0,
            progress := 0, toDev := false, by_ := none, total := 0, pages := [], off := 0 },
    refresh := [], lost := [], ports := [], corrected := 0 }

def Engines.init : Engines :=
  { queues := [], copies := [], ends := [], stats := [], tasks := [], launches := [], pools := [], moves := [], robin := [],
    turn := [], wqs := [] }

/-- Worlds 0 and 1 are LIVE from every start; world 1 has every LIMIT all ones (R395, R412), and so has world 0 (log 15). -/
def Worlds.init : Map World :=
  [(0, { World.init with st := .live, limit := List.replicate 4 (BitVec.allOnes 64) }),
   (1, { World.init with st := .live, limit := List.replicate 4 (BitVec.allOnes 64) })]

/-- DESIGN CHOICE, log 9, 10. -/
def TrustSt.init : TrustSt :=
  { cmd := { arg0 := 0, arg1 := 0, arg2 := 0, world := 0, code := 0, run := none, errc := 0, cseq := 0, out := 0 },
    worlds := Worlds.init,
    ident := { present := false, d := 0, ks := 0, kt := 0, helper := 0, mr := List.replicate 8 0, chains := [],
               ibase := 0, ilimit := 0, dcBase := 0, dbgen := false },
    conns := [], nd := [], extents := [], lastFold := 0, unfolded := [], registered := 0 }

/-- DESIGN CHOICE, log 7, 9. -/
def Status.init : Status :=
  { stage := 0, state := 0, eqbase := 0, eqlogd := 0, eqwidx := 0, eqridx := 0, lost := 0, msiaddr := 0, msidata := 0,
    temp := 0, power := 0, sdid := 0, formed := 0, pwrgd := true, i3c := none }

def Power.init : Power :=
  { ltol := 0, cap := false, gated := 0, pstate := 0, points := [], capped := [], res0 := 0, res2 := 0,
    res3 := 0, exiting := none, gatedSince := 0, quietSince := 0, coolSince := none, lastStep := none }

/-- The machine right after reset: every register at the value the spec gives, the others as the log names them.
(DESIGN CHOICE, log 3.) -/
def State.reset : State :=
  { agenda := [], focus := (0, 0), fresh := 0, fitX := false, now := 0, ticks := 0, fab := Fabric.init, mem := Mem.init,
    ctxs := [], eng := Engines.init, trust := TrustSt.init, status := Status.init,
    kick := { ctx := 0, action := 0, clusters := 0, run := none, err := false, result := 0, kseq := 0 },
    power := Power.init, out := [] }

end Sys2Proof.Machine
end

