-- ==== Sys2Proof/Machine/Ops.lean ====
section
/-! DEFINITION. The named operations over the state: memory bytes, registers, regions, the frontier table, futures, error
records, and taking and leaving an exception. Every meaning is written over these. -/

namespace Sys2Proof.Machine

/-! ### Memory bytes -/

/-- The byte at an address. (DESIGN CHOICE, log 5.) -/
def Memory.read (m : Memory) (a : Nat) : Byte :=
  match m with
  | [] => blankByte
  | (k, b) :: r => if a < k then blankByte else if a = k then b else Memory.read r a

/-- The memory with byte `b` at `a`, in canonical form. -/
def Memory.write (m : Memory) (a : Nat) (b : Byte) : Memory :=
  match m with
  | [] => if b = blankByte then [] else [(a, b)]
  | (k, c) :: r =>
    if a < k then (if b = blankByte then (k, c) :: r else (a, b) :: (k, c) :: r)
    else if a = k then (if b = blankByte then r else (a, b) :: r)
    else (k, c) :: Memory.write r a b

/-- The 32-bit word at a byte address, little-endian (R3). -/
def Memory.word (m : Memory) (a : Nat) : Word :=
  m.read (a + 3) ++ m.read (a + 2) ++ m.read (a + 1) ++ m.read a

/-- The memory with a 32-bit word at a byte address. -/
def Memory.setWord (m : Memory) (a : Nat) (w : Word) : Memory :=
  Memory.write (Memory.write (Memory.write (Memory.write m a (w.extractLsb' 0 8)) (a + 1) (w.extractLsb' 8 8))
    (a + 2) (w.extractLsb' 16 8)) (a + 3) (w.extractLsb' 24 8)

/-- A doubleword from its low and high words. -/
def dw (lo hi : Word) : DWord := hi ++ lo

def DWord.lo (d : DWord) : Word := d.extractLsb' 0 32
def DWord.hi (d : DWord) : Word := d.extractLsb' 32 32

/-! ### Keys: cores, yards, threads, partitions -/

/-- The key of yard slot `slot` (0-127) of a core (R63). -/
def yardKey (core slot : Nat) : Nat := core * 128 + slot
/-- The key of a lane of a yard. -/
def threadKey (yard lane : Nat) : Nat := yard * 64 + lane
def yardOf (k : Nat) : Nat := k / 64
def laneOf (k : Nat) : Nat := k % 64
def slotOf (k : Nat) : Nat := k / 64 % 128
def coreOf (k : Nat) : Nat := k / 8192
def partOf (k : Nat) : Nat := coreOf k * 8 + slotOf k / 16
/-- The partition key of core `c`, partition `q`. -/
def partKey (c q : Nat) : Nat := c * 8 + q
/-- The partition of a yard key. -/
def yardPart (y : Nat) : Nat := y / 16
def yardCore (y : Nat) : Nat := y / 128
/-- The cluster of a device-wide core number (R11). -/
def clusterOf (core : Nat) : Nat := core / 4
/-- The 64 thread keys of a yard. -/
def yardLanes (y : Nat) : List Nat := (List.range 64).map (threadKey y ·)

/-! ### Reading and replacing parts of the state -/

def State.thread (s : State) (k : Nat) : Thread := Map.getD s.fab.threads k Thread.init
def State.yard (s : State) (y : Nat) : Yard := Map.getD s.fab.yards y Yard.init
def State.part (s : State) (p : Nat) : Part := Map.getD s.fab.parts p Part.init
def State.core (s : State) (c : Nat) : Core := Map.getD s.fab.cores c Core.init
def State.rig (s : State) (r : Nat) : Rig := Map.getD s.fab.rigs r Rig.init
def State.ctx (s : State) (c : Nat) : Context := Map.getD s.ctxs c Context.init

def State.setThread (s : State) (k : Nat) (t : Thread) : State :=
  { s with fab := { s.fab with threads := Map.set s.fab.threads k t } }
def State.setYard (s : State) (y : Nat) (v : Yard) : State :=
  { s with fab := { s.fab with yards := Map.set s.fab.yards y v } }
def State.setPart (s : State) (p : Nat) (v : Part) : State :=
  { s with fab := { s.fab with parts := Map.set s.fab.parts p v } }
def State.setCore (s : State) (c : Nat) (v : Core) : State :=
  { s with fab := { s.fab with cores := Map.set s.fab.cores c v } }
def State.setRig (s : State) (r : Nat) (v : Rig) : State :=
  { s with fab := { s.fab with rigs := Map.set s.fab.rigs r v } }
def State.setCtx (s : State) (c : Nat) (v : Context) : State := { s with ctxs := Map.set s.ctxs c v }
def State.setMem (s : State) (m : Mem) : State := { s with mem := m }
def State.setEng (s : State) (e : Engines) : State := { s with eng := e }
def State.setTrust (s : State) (t : TrustSt) : State := { s with trust := t }

def State.modThread (s : State) (k : Nat) (f : Thread → Thread) : State := s.setThread k (f (s.thread k))
def State.modYard (s : State) (y : Nat) (f : Yard → Yard) : State := s.setYard y (f (s.yard y))
def State.modPart (s : State) (p : Nat) (f : Part → Part) : State := s.setPart p (f (s.part p))
def State.modCore (s : State) (c : Nat) (f : Core → Core) : State := s.setCore c (f (s.core c))
def State.modRig (s : State) (r : Nat) (f : Rig → Rig) : State := s.setRig r (f (s.rig r))
def State.modCtx (s : State) (c : Nat) (f : Context → Context) : State := s.setCtx c (f (s.ctx c))

/-- The state with `f` applied to each of the listed threads, all at once (00_scope R9). -/
def State.updLanes (s : State) (ks : List Nat) (f : Nat → Thread → Thread) : State :=
  { s with fab := { s.fab with
      threads := Map.mapVals (fun k t => if ks.contains k then f k t else t) s.fab.threads } }

/-- A fresh number for a released set, a stop group, a copy or a launch. -/
def State.serialNo (s : State) : Nat := s.fab.serial
def State.bumpSerial (s : State) : State := { s with fab := { s.fab with serial := s.fab.serial + 1 } }

/-- The state after a message has been sent. (DESIGN CHOICE, log 8, 127.) -/
def State.send (s : State) (m : Msg) : State := { s with out := m :: s.out }

/-- The encoding version of a yard's kernel (R54). -/
def State.version (s : State) (y : Nat) : Nat := (s.yard y).bind.version.toNat
/-- The context of a yard. -/
def State.yardCtx (s : State) (y : Nat) : Nat := (s.yard y).bind.context.toNat
/-- The context of a thread. -/
def State.ctxOf (s : State) (k : Nat) : Nat := s.yardCtx (yardOf k)
/-- The world of a context. -/
def State.worldOf (s : State) (c : Nat) : Nat := (s.ctx c).world.toNat

/-- The launched lanes of a yard that have not exited. -/
def State.liveLanes (s : State) (y : Nat) : List Nat :=
  (yardLanes y).filter fun k =>
    match Map.find? s.fab.threads k with
    | none => false
    | some t => t.st != .unlaunched && t.st != .exited

/-- The resident yards of a partition (R135). -/
def State.residentYards (s : State) (p : Nat) : List Nat :=
  ((List.range 16).map (p * 16 + ·)).filter fun y => (s.yard y).resident

/-- Free chunks of a partition's pool: 24 − Σ(1 + H) over its resident yards (R135). -/
def State.poolFree (s : State) (p : Nat) : Nat :=
  24 - ((s.residentYards p).map fun y => 1 + (s.yard y).chunks).sum

/-! ### Registers (05_registers R124, 03_threads R71) -/

/-- Main-file word of register `r` of thread `k`. -/
def State.reg (s : State) (k r : Nat) : Word := Map.getD s.fab.main (k * 256 + r) 0
def State.setReg (s : State) (k r : Nat) (v : Word) : State :=
  { s with fab := { s.fab with main := Map.set s.fab.main (k * 256 + r) v } }

/-- The key of a byte of on-chip storage: its on-chip pointer (09_memory Table 9-1). -/
def chipKey (space core off : Nat) : Nat := space * 2 ^ 60 + core / 4 * 2 ^ 56 + core % 4 * 2 ^ 54 + off

/-- The on-chip key of a register of a thread, by which a soft error poisons it (09_memory R203). -/
def regKey (k r : Nat) : Nat := chipKey 2 (coreOf k) (slotOf k * 2 ^ 16 + laneOf k * 2 ^ 10 + r * 4)

/-- A whole register word is written: its poison is cleared (18_system R389). -/
def State.putReg (s : State) (k r : Nat) (v : Word) : State :=
  let s1 := s.setReg k r v
  { s1 with mem := { s1.mem with poison := s1.mem.poison.filter (· != regKey k r) } }
/-- Sideband byte of register `r` and octet `o` of yard `y`. -/
def State.sideb (s : State) (y r o : Nat) : Byte := Map.getD s.fab.side ((y * 256 + r) * 8 + o) 0
def State.setSideb (s : State) (y r o : Nat) (b : Byte) : State :=
  { s with fab := { s.fab with side := Map.set s.fab.side ((y * 256 + r) * 8 + o) b } }

/-- Where uniform register `n` of yard `y` lives: s0-s191 in its own file; g registers in the member whose ordinal is
k mod COUNT, at slot 128 + ⌊k / COUNT⌋ (R71); `none` when the holder has not joined. -/
def State.uhome (s : State) (y n : Nat) : Option (Nat × Nat) :=
  if n < 192 then some (y, n)
  else match (s.yard y).rig with
    | none => none
    | some (r, _) =>
      let g := s.rig r
      match Map.find? g.stripes ((n - 192) % g.count) with
      | none => none
      | some h => some (h, 128 + (n - 192) / g.count)

def State.ureg (s : State) (y n : Nat) : Word :=
  match s.uhome y n with
  | none => 0
  | some (h, i) => Map.getD (s.yard h).ufile i 0

def State.setUreg (s : State) (y n : Nat) (v : Word) : State :=
  match s.uhome y n with
  | none => s
  | some (h, i) => s.modYard h fun x => { x with ufile := Map.set x.ufile i v }

/-- A register number that names nothing: the slot is unstaged (R127, R136). -/
def noReg : Nat := 256

/-- Whether yard `y` holds vector register `r` (R126, R135). -/
def State.holdsReg (s : State) (y r : Nat) : Bool := r < 32 * (1 + (s.yard y).chunks)

/-- Vector registers `lo` to `hi` of a yard read zero in every lane, with their sideband bytes (R66, R135). -/
def State.zeroRegs (s : State) (y lo hi : Nat) : State :=
  let base := chipKey 2 (yardCore y) (y % 128 * 2 ^ 16)
  let inside (a : Nat) : Bool := decide (base ≤ a) && decide (a < base + 2 ^ 16) && decide (lo ≤ a / 4 % 256) && decide (a / 4 % 256 ≤ hi)
  { s with
    mem := { s.mem with poison := s.mem.poison.filter fun a => !inside a },
    fab := { s.fab with
      main := s.fab.main.filter fun p => !(p.1 / 16384 == y && lo ≤ p.1 % 256 && p.1 % 256 ≤ hi),
      side := s.fab.side.filter fun p => !(p.1 / 2048 == y && lo ≤ p.1 / 8 % 256 && p.1 / 8 % 256 ≤ hi),
      owed := s.fab.owed.filter fun o => !(yardOf o.thread == y && lo ≤ o.reg && o.reg ≤ hi) } }

/-! ### The range scoreboard and the register window (09_memory R203, R209) -/

/-- The scoreboard entries of a core that overlap offsets [lo, hi) of a space (R209). -/
def State.overlaps (s : State) (core space lo hi : Nat) : List Range :=
  (s.core core).ranges.filter fun r => r.space == space && decide (r.lo < hi) && decide (lo < r.hi)

/-- The offsets in the register window of a register of a thread, and of its octet's sideband byte (R203). -/
def windowBytes (k r : Nat) : List (Nat × Nat) :=
  let e := slotOf k * 2 ^ 16 + laneOf k * 2 ^ 10 + r * 4
  let b := 2 ^ 23 + slotOf k * 2 ^ 16 + r * 8 + laneOf k / 8
  [(e, e + 4), (b, b + 1)]

/-- The scoreboard entries that the window bytes of registers of a thread overlap (R209). -/
def State.regRanges (s : State) (k : Nat) (regs : List Nat) : List Range :=
  regs.flatMap fun r => (windowBytes k r).flatMap fun w => s.overlaps (coreOf k) 2 w.1 w.2

/-- Whether a copy still holds the window bytes of registers of a thread: an access to them stalls (R209). -/
def State.regsLive (s : State) (k : Nat) (regs : List Nat) : Bool := (s.regRanges k regs).any fun r => !r.faulted

/-! ### Regions (R125 to R130) -/

/-- The staged slots that a descriptor names, read from the main file and the uniform files. -/
def State.loadVs (s : State) (k : Nat) (regs : List Nat) : List VSlot :=
  regs.map fun r =>
    { reg := r, val := s.reg k r, wr := false, sb := s.sideb (yardOf k) r (laneOf k / 8), sbw := false }

def State.loadUs (s : State) (k : Nat) (regs : List Nat) : List USlot :=
  regs.map fun r => { reg := r, val := s.ureg (yardOf k) r, wr := false }

/-- Reloads the slots of a thread's region (R129). -/
def State.restage (s : State) (k : Nat) : State :=
  s.modThread k fun t =>
    match t.region with
    | none => { t with vs := [], us := [] }
    | some (vr, ur) => { t with vs := s.loadVs k vr, us := s.loadUs k ur }

/-- A write-back of one register of a thread is performed. -/
def State.performOwed (s : State) (o : Owed) : State :=
  let s1 := match o.val with
    | none => s
    | some v => s.putReg o.thread o.reg v
  match o.sb with
  | none => s1
  | some b => s1.setSideb (yardOf o.thread) o.reg (laneOf o.thread / 8) b

/-- Writes one slot of a thread back: at once, or, while a copy holds the register, when the copy's range ends (R128,
R209). (DEDUCED, log 43.) -/
def State.slotBack (s : State) (k : Nat) (v : VSlot) : State :=
  if (v.wr || v.sbw) && v.reg < 256 then
    let o : Owed := { thread := k, reg := v.reg, val := if v.wr then some v.val else none,
                      sb := if v.sbw then some v.sb else none }
    if s.regsLive k [v.reg] then { s with fab := { s.fab with owed := s.fab.owed ++ [o] } } else s.performOwed o
  else s

/-- The write-backs that no copy holds up any longer are performed, oldest first (R128, R209). (DEDUCED, log 43.) -/
def State.settleOwed (s : State) : State :=
  let free (o : Owed) : Bool := !s.regsLive o.thread [o.reg]
  (s.fab.owed.filter free).foldl State.performOwed
    { s with fab := { s.fab with owed := s.fab.owed.filter fun o => !free o } }

/-- Whether a write-back of a thread still stalls. -/
def State.owes (s : State) (k : Nat) : Bool := s.fab.owed.any fun o => o.thread == k

/-- Writes the written slots and sideband bytes of a thread's region back, and clears their written bits (R128, R129).
(DEDUCED, log 43.) -/
def State.writeBack (s : State) (k : Nat) : State :=
  let t := s.thread k
  let s1 := t.vs.foldl (fun s v => s.slotBack k v) s
  let s2 := t.us.foldl (fun s v => if v.wr then s.setUreg (yardOf k) v.reg v.val else s) s1
  s2.modThread k fun t =>
    { t with vs := t.vs.map (fun v => { v with wr := false, sbw := false }),
             us := t.us.map (fun v => { v with wr := false }) }

/-- Suspends a region: written back, unloaded, its descriptor kept (R129). -/
def State.suspendRegion (s : State) (k : Nat) : State :=
  (s.writeBack k).modThread k fun t => { t with vs := [], us := [] }

/-- Drops a region without writing it back (EXIT, R128). -/
def State.dropRegion (s : State) (k : Nat) : State :=
  s.modThread k fun t => { t with region := none, vs := [], us := [], lat := noLatches, held := none, kept := none }

/-- Ends a region (R128). (DEDUCED, log 43.) -/
def State.endRegion (s : State) (k : Nat) : State := (s.writeBack k).dropRegion k

/-! ### The frontier table (R73 to R77) -/

/-- Whether a thread is suspended by a set fault (R372). -/
def State.heldBySet (s : State) (k : Nat) : Bool := s.fab.sets.any fun f => f.held.contains k

/-- Inserts a key in rising order, once. -/
def insertKey (k : Nat) : List Nat → List Nat
  | [] => [k]
  | j :: r => if k < j then k :: j :: r else if k = j then j :: r else j :: insertKey k r

/-- A list sorted by a test that says which of two may stand first; equal ones keep their order. -/
def insertBy {α : Type} (le : α → α → Bool) (x : α) : List α → List α
  | [] => [x]
  | y :: r => if le x y then x :: y :: r else y :: insertBy le x r

def sortBy {α : Type} (le : α → α → Bool) (l : List α) : List α := l.foldr (insertBy le) []

/-- Unindexed threads with one more: those of one cycle stand by yard slot, then lane (R76). -/
def State.missWith (s : State) (k : Nat) (l : List Nat) : List Nat :=
  (l.filter fun j => (s.thread j).missed != s.now) ++ insertKey k (l.filter fun j => (s.thread j).missed == s.now)

/-- Places a thread at its program counter: in the entry with that address, else in a free entry, else unindexed (R73).
A thread in no other wait becomes eligible, or suspended when a set fault holds it. -/
def State.arrive (s : State) (k : Nat) : State :=
  let t := s.thread k
  let p := partOf k
  let q := s.part p
  let ready := if s.heldBySet k then TState.suspended else .eligible
  let settle (st : TState) (into : TState) : TState :=
    match st with
    | .streaming => into
    | .eligible => into
    | .unindexed => into
    | .suspended => into
    | .unlaunched => into
    | other => other
  if q.entries.any (fun e => e.addr == t.pc) then
    (s.setPart p { q with entries := q.entries.map fun e =>
        if e.addr == t.pc then { e with wait := insertKey k e.wait } else e }).setThread k { t with st := settle t.st ready }
  else if q.entries.length < Config.frontier then
    (s.setPart p { q with entries := { addr := t.pc, wait := [k], age := 0 } :: q.entries }).setThread k
      { t with st := settle t.st ready }
  else
    (s.setPart p { q with unindexed := s.missWith k q.unindexed }).setThread k
      { t with st := settle t.st (if ready = .suspended then .suspended else .unindexed), missed := s.now }

/-- Whether a thread waits in an entry, or is unindexed. -/
def State.placed (s : State) (k : Nat) : Bool :=
  let q := s.part (partOf k)
  q.entries.any (fun e => e.wait.contains k) || q.unindexed.contains k

/-- Takes a thread out of every entry and of the unindexed list; an entry left empty is freed unless it streams. Table 3-6
has no row for an entry that does not stream and loses its last thread. (DESIGN CHOICE, log 129.) -/
def State.unplace (s : State) (k : Nat) : State :=
  s.modPart (partOf k) fun q =>
    let streaming (a : BitVec 16) : Bool :=
      match q.stream with
      | none => false
      | some st => st.addr == a
    { q with
      entries := (q.entries.map fun e => { e with wait := e.wait.filter (· != k) }).filter
        fun e => !e.wait.isEmpty || streaming e.addr,
      unindexed := q.unindexed.filter (· != k) }

/-- Takes a thread out of its issue group (R79). -/
def State.leaveGroup (s : State) (k : Nat) : State :=
  s.modPart (partOf k) fun q =>
    { q with stream := q.stream.map fun st =>
        { st with groups := st.groups.map fun g => { g with lanes := g.lanes.filter (· != k) } } }

/-- A wait of a thread has ended: it is eligible where it stands, or suspended (R75, R372). -/
def State.ready (s : State) (k : Nat) : State :=
  let s1 := s.modThread k fun t => { t with st := .eligible }
  if s.placed k then
    s1.modThread k fun t =>
      { t with st := if s.heldBySet k then .suspended
                     else if (s.part (partOf k)).unindexed.contains k then .unindexed else .eligible }
  else s1.arrive k

/-- Moves a streaming thread out of its group into a wait at word `w` of its packet, its region suspended and its latches
kept when `keep` (R129, R134). -/
def State.park (s : State) (k w : Nat) (st : TState) (keep : Bool) : State :=
  let s1 := s.modThread k fun t => { t with kept := if keep then some t.lat else none }
  let s2 := (s1.suspendRegion k).leaveGroup k
  let s3 := s2.modThread k fun t => { t with st := st, wpos := w, lat := noLatches, held := none }
  s3.arrive k

/-! ### Futures (04_control R110 to R112) -/

/-- A handle (Table 4-7). -/
def handleWord (state status kind slot : Nat) : Word :=
  BitVec.ofNat 32 (state * 2 ^ 30 + status * 2 ^ 24 + kind * 2 ^ 20 + slot)

/-- The lowest index below `n` that a map does not list. -/
def Map.lowestFree {α : Type} (m : Map α) (n : Nat) : Option Nat :=
  (List.range n).find? fun i => (Map.find? m i).isNone

/-- Frees a future-table entry, with the faulted ranges that its copy left (R210) and the DONE task that it names (Table
13-10). -/
def State.freeFuture (s : State) (core slot : Nat) : State :=
  let s1 := s.modCore core fun c => { c with futs := Map.del c.futs slot }
  { s1 with
    fab := { s1.fab with cores := Map.mapVals (fun _ c =>
      { c with ranges := c.ranges.filter fun r => !(r.faulted && r.fut == some (core, slot)) }) s1.fab.cores },
    eng := { s1.eng with tasks := Map.mapVals (fun _ t =>
      if t.st == some .done && t.fut == some (core, slot) then { t with st := none, fut := none } else t) s1.eng.tasks } }

/-- One holder of a handle fewer; a resolved entry with none left is freed (R111). -/
def State.decRef (s : State) (core slot : Nat) : State :=
  match Map.find? (s.core core).futs slot with
  | none => s
  | some f =>
    if f.refs ≤ 1 && f.res.isSome then s.freeFuture core slot
    else s.modCore core fun c => { c with futs := Map.set c.futs slot { f with refs := f.refs - 1 } }

/-- A view in which register `r` holds a resolved handle, untagged. -/
def View.joined (x : View) (r : Nat) (h : Word) : View :=
  { x with vs := x.vs.map (fun v => if v.reg == r then { v with val := h } else v),
           tags := x.tags.filter fun p => p.1 != r }

/-- Threads pass an acquire point: every valid word of their cores' data caches becomes invalid (R219), and they have seen
every write performed so far (R214). (DESIGN CHOICE, log 35.) -/
def State.acquireAll (s : State) (ks : List Nat) : State :=
  let cores := (ks.map coreOf).eraseDups
  let dcache := s.mem.dcache.filter fun p => !(cores.contains (p.1 / 2 ^ 56) && p.2.st == .valid)
  ({ s with mem := { s.mem with dcache := dcache } }).updLanes ks fun _ t => { t with acq := s.mem.written }

/-- An acquire point of one thread. (DESIGN CHOICE, log 35.) -/
def State.acquire (s : State) (k : Nat) : State := s.acquireAll [k]

/-- What the words of a thread's chain read in register `r` is joined with entry `slot`, where that has resolved: they read
the resolved handle (R24, R112). -/
def State.joinHeld (s : State) (k r slot : Nat) : State :=
  match (s.thread k).held, Map.find? (s.core (coreOf k)).futs slot with
  | some x, some f =>
    match f.res with
    | some (st, code) =>
      if x.view.tags.contains (r, slot) then
        (s.modThread k fun t => { t with
          held := some { x with view := x.view.joined r (handleWord st code f.kind slot) } }).acquire k
      else s
    | none => s
  | _, _ => s

/-- Drops the pending tag of a register of a thread, if it has one (R112). A later word of the chain in progress reads the
register as it stood before the chain, so its resolved handle is kept for it (R24). -/
def State.dropTag (s : State) (k r : Nat) : State :=
  match (s.thread k).tags.find? (fun p => p.1 == r) with
  | none => s
  | some (_, slot) =>
    ((s.joinHeld k r slot).modThread k fun t => { t with tags := t.tags.filter (fun p => p.1 != r) }).decRef (coreOf k) slot

/-- Resolves a future: its entry records the outcome, every thread blocked on it is ready, and an entry that no register
holds is freed (R111, R112). `state` and `status` as in Table 4-7. -/
def State.resolve (s : State) (core slot state status : Nat) : State :=
  match Map.find? (s.core core).futs slot with
  | none => s
  | some f =>
    let s1 := s.modCore core fun c => { c with futs := Map.set c.futs slot { f with res := some (state, status) } }
    let s2 := (s1.fab.threads.filter fun p =>
        coreOf p.1 == core && p.2.st == .blocked (.future slot)).foldl (fun s p => s.ready p.1) s1
    if f.refs = 0 then s2.freeFuture core slot else s2

def State.resolveOpt (s : State) (fut : Option (Nat × Nat)) (state status : Nat) : State :=
  match fut with
  | none => s
  | some (c, i) => s.resolve c i state status

/-- The operands of a thread as its word reads them: as they stood before its chain, or as they stand (R24). -/
def Thread.view (t : Thread) : View :=
  match t.held with
  | some x => x.view
  | none => { vs := t.vs, us := t.us, lat := t.lat, preds := t.preds, ra := t.ra, tags := t.tags }

/-- The register of a thread that a tagged handle names is rewritten in place with the resolved handle, and its tag
cleared: the join edge of the operation (R112). A pending operation changes nothing. Where an earlier word of the chain
has already written the register, only what the chain reads is joined (R24). -/
def State.joinReg (s : State) (k r : Nat) : State :=
  match (s.thread k).view.tags.find? (fun p => p.1 == r) with
  | none => s
  | some (_, slot) =>
    match Map.find? (s.core (coreOf k)).futs slot with
    | none => s
    | some f =>
      match f.res with
      | none => s
      | some (st, code) =>
        let h := handleWord st code f.kind slot
        let s0 := s.joinHeld k r slot
        if (s.thread k).tags.contains (r, slot) then
          let s1 := (s0.putReg k r h).modThread k fun t =>
            { t with vs := t.vs.map (fun v => if v.reg == r then { v with val := h } else v) }
          (s1.dropTag k r).acquire k
        else s0

/-- Takes the lowest free entry of a core's future table, with its reference count (R111). -/
def State.newFuture (s : State) (core slot kind refs : Nat) (res : Option (Nat × Nat)) : State :=
  s.modCore core fun c => { c with futs := Map.set c.futs slot { kind := kind, res := res, refs := refs, cancel := false } }

/-! ### Error records (18_system R388, 20_boundary R421) -/

/-- The 16 words of an error record (Table 18-7). (DEDUCED, log 128.) -/
def recordWords (s : State) (typ port : Nat) (ctx : Option Nat) (addr : DWord) (detail : List Word) : List Word :=
  let c := match ctx with
    | none => 0
    | some c => 2 ^ 31 + s.worldOf c * 2 ^ 24 + c * 2 ^ 16
  let head := [s.status.formed, BitVec.ofNat 32 (c + port * 2 ^ 8 + typ), DWord.lo s.ticks, DWord.hi s.ticks,
               DWord.lo addr, DWord.hi addr]
  (head ++ detail ++ List.replicate 16 0).take 16

/-- A word written by the device to host memory, where every party sees it: no copy of it is left on the device. -/
def State.hostWord (s : State) (wa : Nat) (v : Word) : State :=
  { s with mem := { s.mem with
      bytes := s.mem.bytes.setWord wa v, l2 := Map.del s.mem.l2 wa, owner := Map.del s.mem.owner wa,
      writes := Map.del s.mem.writes wa,
      dcache := s.mem.dcache.filter fun p => !(p.1 % 2 ^ 56 == wa && p.2.st != .pending) } }

/-- Words written by the device to host memory from an address on. -/
def State.hostWords (s : State) (a : Nat) (ws : List Word) : State :=
  ws.zipIdx.foldl (fun s x => s.hostWord (a + 4 * x.2) x.1) s

/-- Forms an error record: it takes the next slot of the queue and is written there, or is dropped when the queue is full
or disabled; then the queue's MSI is sent (R421). (DEDUCED, log 128.) -/
def State.postRecord (s : State) (typ port : Nat) (ctx : Option Nat) (addr : DWord) (detail : List Word) : State :=
  let q := s.status
  let ws := recordWords s typ port ctx addr detail
  let full := q.eqlogd == 0 || 2 ^ q.eqlogd.toNat ≤ (q.eqwidx - q.eqridx).toNat
  let s1 := { s with status := { q with formed := q.formed + 1 } }
  if full then
    ({ s1 with status := { s1.status with lost := if q.lost == BitVec.allOnes 32 then q.lost else q.lost + 1 } }).send
      (.record true ws)
  else
    let slot := q.eqbase.toNat + 64 * (q.eqwidx.toNat % 2 ^ q.eqlogd.toNat)
    let s2 := (({ s1 with status := { s1.status with eqwidx := q.eqwidx + 1 } }).hostWords slot ws).send (.record false ws)
    if q.msiaddr == 0 then s2 else s2.send (.msi q.msiaddr q.msidata)

/-! ### Taking an exception (R366 to R372) -/

/-- What a trap carries: its cause, ORIGIN, RESUME and INFO0 to INFO2 (Table 18-1). -/
structure Trap where
  cause : Nat
  origin : Nat
  resume : Bool
  info0 : DWord
  info1 : DWord
  info2 : DWord
  deriving DecidableEq, Repr

/-- A trap whose record holds one value. -/
def trapOf (cause : Nat) (info0 : DWord) : Trap :=
  { cause := cause, origin := 0, resume := false, info0 := info0, info1 := 0, info2 := 0 }

/-- The latch values that a record saves; an invalid latch has lost its contents, so its field is a free value (R80).
(DESIGN CHOICE, log 2.) -/
def savedLatches (lat : Latches) (n : Nat) : List Word :=
  (List.range 4).map fun i => ((lat.getD i none).getD (Config.freeWord (n + i)))

/-- The valid bits of a thread's latches, B1 in bit 0 of the field. -/
def latchValid (lat : Latches) : BitVec 4 :=
  BitVec.ofNat 4 (b2n (lat.getD 0 none).isSome + 2 * b2n (lat.getD 1 none).isSome + 4 * b2n (lat.getD 2 none).isSome +
    8 * b2n (lat.getD 3 none).isSome)

/-- Writes a thread's record as an exception writes it (R368, step 2), INTRAP apart. -/
def TrapRec.fill (r : TrapRec) (pc : BitVec 16) (w : Nat) (i : Trap) (lat : Latches) (n : Nat) : TrapRec :=
  { r with cause := BitVec.ofNat 8 i.cause, origin := BitVec.ofNat 12 i.origin, resume := i.resume, epc := pc,
           widx := BitVec.ofNat 2 w, lvalid := latchValid lat, b := savedLatches lat n, info0 := i.info0,
           info1 := i.info1, info2 := i.info2 }

/-- The latches of a thread before its word: those that it keeps for the word at which it waits or will issue first, else
its group's (R134). (DEDUCED, log 26.) -/
def Thread.latches (t : Thread) : Latches := t.kept.getD (if t.st == .streaming then t.lat else noLatches)

/-- The words that locate a thread in an error record (Table 18-8). -/
def threadDetail (k : Nat) : List Word :=
  [BitVec.ofNat 32 (coreOf k), BitVec.ofNat 32 (slotOf k), BitVec.ofNat 32 (laneOf k)]

/-- Takes an exception in thread `k` at word `w` of the packet at `pc` (R368): the record is written and INTRAP set, the
region ends, the thread leaves its group, and its program counter becomes the trap vector, where it is eligible. With
INTRAP already set it is a double trap: the thread stops where it stands, and the host is told (R371). (DEDUCED, log 83.)
A transfer that an earlier word of the chain has taken is dropped, so that TRET goes on in the packet. (DESIGN CHOICE,
log 130.) -/
def State.trap (s : State) (k : Nat) (pc : BitVec 16) (w : Nat) (i : Trap) : State :=
  let t := s.thread k
  if t.trec.intrap then
    let s1 := ((s.suspendRegion k).leaveGroup k).unplace k
    let s2 := s1.modThread k fun t =>
      { t with trec := { t.trec with ncause := BitVec.ofNat 8 i.cause, stopped := true }, st := .stopped, pc := pc,
               wpos := w, lat := noLatches, held := none, leaving := .no, released := none, given := none, stopGroup := some s.serialNo }
    let s3 := (s2.arrive k).bumpSerial
    s3.postRecord 8 0 (some (s.ctxOf k)) 0
      (threadDetail k ++ [BitVec.ofNat 32 t.trec.cause.toNat, BitVec.ofNat 32 i.cause])
  else
    let s1 := { s with fresh := s.fresh + 4 }
    let s2 := s1.modThread k fun t =>
      { t with trec := { t.trec.fill pc w i t.latches s.fresh with intrap := true }, saved := t.region }
    let s3 := ((s2.endRegion k).leaveGroup k).unplace k
    let s4 := s3.modThread k fun t =>
      { t with pc := (s.yard (yardOf k)).bind.trapvec, wpos := 0, st := if t.st == .stopped then .stopped else .eligible,
               leaving := .no, released := none, alone := false, waited := none,
               step := if t.step == .armed then .due else t.step }
    s4.arrive k

/-- The members of the set of a word at YARD or RIG scope executed by a yard (R82). -/
def State.setMembers (s : State) (y : Nat) (rigWide : Bool) : List Nat :=
  if rigWide then
    match (s.yard y).rig with
    | none => s.liveLanes y
    | some (r, _) => (s.rig r).members.flatMap fun m => s.liveLanes m.1
  else s.liveLanes y

/-- Threads are suspended (R372): one in a wait keeps waiting; a streaming one stops at its next switch point. -/
def State.suspendAll (s : State) (ks : List Nat) : State :=
  s.updLanes ks fun _ t =>
    match t.st with
    | .eligible => { t with st := .suspended }
    | .unindexed => { t with st := .suspended }
    | _ => t

/-- Whether a thread was released by completion `id` and has yet to issue the word it was released to. -/
def Thread.yetToIssue (t : Thread) (id : Option Nat) : Bool :=
  id.isSome && t.released == id && (t.st == .streaming || t.st == .eligible)

/-- A set fault (R372): the members that trap have trapped; every other non-exited member is suspended, but for those of
other groups that have yet to issue the same word (`due`). (DEDUCED, log 83.) -/
def State.suspendSet (s : State) (trapped members due : List Nat) (id : Option Nat) : State :=
  let rest := members.filter fun k => !trapped.contains k && !due.contains k
  let s1 := { s with fab := { s.fab with
    sets := { trapped := trapped, held := rest, id := id, due := due } :: s.fab.sets } }
  s1.suspendAll rest

/-- More members of a set fault have trapped at its word. (DEDUCED, log 83.) -/
def State.trapMore (s : State) (id : Option Nat) (keys : List Nat) : State :=
  { s with fab := { s.fab with sets := s.fab.sets.map fun f =>
      if f.id == id then
        { f with trapped := f.trapped ++ keys, held := f.held.filter (fun k => !keys.contains k),
                 due := f.due.filter fun k => !keys.contains k }
      else f } }

/-- Suspensions whose members have all trapped, or gone on to be suspended, and returned are lifted (R372). -/
def State.liftDone (s : State) : State :=
  let past (f : SetFault) : Bool := f.trapped.isEmpty && f.due.isEmpty
  let s1 := { s with fab := { s.fab with sets := s.fab.sets.filter fun f => !past f } }
  ((s.fab.sets.filter past).flatMap fun f => f.held).foldl
    (fun s j => if (s.thread j).st == .suspended then s.ready j else s) s1

/-- A trapped member has executed TRET or EXIT: a set with none left lifts its suspension (R372). -/
def State.liftSets (s : State) (k : Nat) : State :=
  State.liftDone { s with fab := { s.fab with sets := s.fab.sets.map fun f =>
    { f with trapped := f.trapped.filter (· != k), due := f.due.filter (· != k) } } }

/-- Members that have issued the word of a set fault without trapping are suspended with the others (R372).
(DEDUCED, log 83.) -/
def State.settleSets (s : State) : State :=
  let gone (f : SetFault) : List Nat := f.due.filter fun k => !(s.thread k).yetToIssue f.id
  let settled (f : SetFault) : SetFault :=
    { f with due := f.due.filter (fun k => (s.thread k).yetToIssue f.id), held := f.held ++ gone f }
  let s1 : State := { s with fab := { s.fab with sets := s.fab.sets.map settled } }
  (s1.suspendAll (s.fab.sets.flatMap gone)).liftDone

/-- The instruction words of a packet by its layout alone: their indices (R369). -/
def layoutWords (ws : List Word) : List Nat :=
  let lit (w : Word) : Bool :=
    let m := (majorOf w).toNat
    let codes := [fieldAt w 13 5, fieldAt w 8 5]
    if m == 0x01 || m == 0x02 || m == 0x15 || m == 0x16 || isWideMajor m then false
    else if m == 0x0A || m == 0x13 || m == 0x14 || m == 0x19 || m == 0x1A || m == 0x1B then
      (fieldAt w 3 5 :: codes).any isLit
    else codes.any isLit
  if isWideMajor (majorOf (ws.getD 0 0)).toNat then [0]
  else if lit (ws.getD 0 0) then [0, 2]
  else if lit (ws.getD 1 0) then [0, 1]
  else [0, 1, 2]

/-! ### The words of a segment (04_control R105) -/

def State.seg (s : State) (core n : Nat) : Seg := Map.getD (s.core core).segs n Seg.init

/-- The three words of the packet at a program counter of a core: NOP words at or above PACKETS (R105). -/
def State.packetAt (s : State) (core : Nat) (pc : BitVec 16) : List Word :=
  let seg := pc.toNat / 8192
  let idx := pc.toNat % 8192
  if (s.seg core seg).packets ≤ idx then [nopWord, nopWord, nopWord]
  else (List.range 3).map fun i => s.mem.bytes.word (chipKey 5 core (seg * 2 ^ 16 + 12 * idx + 4 * i))

/-- Whether the segment of a program counter is LANDED (04_control, `seg_ready`). -/
def State.segReady (s : State) (core : Nat) (pc : BitVec 16) : Bool := (s.seg core (pc.toNat / 8192)).st == 2

/-! ### Returning from an exception (R369) -/

/-- Where a record resumes: the word named, or the next instruction word after it. -/
def resumePoint (ws : List Word) (r : TrapRec) : BitVec 16 × Nat :=
  if r.resume then
    match (layoutWords ws).find? (fun i => r.widx.toNat < i) with
    | some i => (r.epc, i)
    | none => (r.epc + 1, 0)
  else (r.epc, r.widx.toNat)

/-- `resume(t, r)`: the thread waits at the point its record names, and forms a group of its own with the saved latches,
all invalid after a word of the M pipe that is not executed again. -/
def State.resume (s : State) (k : Nat) : State :=
  let t := s.thread k
  let r := t.trec
  let ws := s.packetAt (coreOf k) r.epc
  let (pc, w) := resumePoint ws r
  let named := ws.getD r.widx.toNat 0
  let lost := r.resume && pipeOfMajor (majorOf named).toNat == .m
  let lat : Latches := (List.range 4).map fun i =>
    if lost || !r.lvalid.toNat.testBit i then none else some (r.b.getD i 0)
  let s1 := (s.unplace k).modThread k fun t =>
    { t with pc := pc, wpos := w, region := t.saved, vs := [], us := [], kept := some lat, alone := true,
             loose := r.resume, st := .eligible,
             step := if r.sstep then .armed else .off }
  s1.arrive k

/-- The position after the word at which a thread stands: the next instruction word of its packet, or the next packet. -/
def State.after (s : State) (k : Nat) : BitVec 16 × Nat :=
  let t := s.thread k
  match (layoutWords (s.packetAt (coreOf k) t.pc)).find? (fun i => t.wpos < i) with
  | some i => (t.pc, i)
  | none => (t.pc + 1, 0)

/-- A waiting thread continues after its word: it is ready there (R87, R144, R228). -/
def State.stepOver (s : State) (k : Nat) : State :=
  let (pc, w) := s.after k
  let s1 := (s.unplace k).modThread k fun t => { t with pc := pc, wpos := w, kept := none, released := none }
  s1.ready k

/-! ### Transfers (04_control, `transfer`) -/

/-- A thread takes a transfer to a target that has passed its checks: its region ends, it leaves its group and arrives
(R94). -/
def State.goto (s : State) (k : Nat) (target : BitVec 16) : State :=
  let s1 := (s.endRegion k).leaveGroup k
  let s2 := s1.modThread k fun t =>
    { t with pc := target, wpos := 0, st := .eligible, leaving := .no, released := none, given := none }
  s2.arrive k

/-! ### Yards that retire, rigs that dissolve (R67, R69, R72) -/

/-- Dissolves a rig: cleats and record are freed, stripes released; a retired yard that held one loses VALID. The spec says
only that the rig's values are lost; a former member that is still resident goes on to read them in its s128-s191.
(DESIGN CHOICE, log 131.) -/
def State.dissolve (s : State) (r : Nat) : State :=
  let g := s.rig r
  let s1 := g.cleat.foldl (fun s p => s.modCore (r / 64 * 4 + p.1) fun c =>
    { c with cleats := Map.del c.cleats p.2 }) s
  let s2 := g.stripes.foldl (fun s p => s.modYard p.2 fun y =>
    { y with stripe := none, bind := { y.bind with valid := y.resident && y.bind.valid } }) s1
  s2.setRig r { Rig.init with reuse := g.reuse }

/-- A yard leaves its rig: its ordinal is not reused, its stripe stays; the last member of a sealed rig dissolves it
(R121). -/
def State.leaveRig (s : State) (y : Nat) : State :=
  match (s.yard y).rig with
  | none => s
  | some (r, _) =>
    let s1 := s.modYard y fun v => { v with rig := none }
    let s2 := s1.modRig r fun g => { g with members := g.members.filter fun m => m.1 != y }
    if (s2.rig r).members.isEmpty && (s2.rig r).st == some .sealed then s2.dissolve r else s2

/-- The cleat of a yard's rig on its core. -/
def State.cleatOf (s : State) (y : Nat) : Option Nat :=
  match (s.yard y).rig with
  | none => none
  | some (r, _) => Map.find? (s.rig r).cleat (yardCore y % 4)

/-- One launched thread fewer for a cleat to expect (R87, R97). -/
def State.decExpect (s : State) (y n : Nat) : State :=
  match s.cleatOf y with
  | none => s
  | some c => s.modCore (yardCore y) fun x =>
      let cl := Map.getD x.cleats c Cleat.init
      { x with cleats := Map.set x.cleats c { cl with expect := cl.expect - n } }

/-- A yard comes to hold chunks 1 to `k`, the new ones fresh (R135). -/
def State.grantChunks (s : State) (y k : Nat) : State :=
  let held := (s.yard y).chunks
  if k ≤ held then s
  else (s.zeroRegs y (32 * (held + 1)) (32 * k + 31)).modYard y fun v => { v with chunks := k }

/-- Grants waiting HOIST requests of a partition in arrival order while the pool can (R135). -/
def State.serveHoists (s : State) (p : Nat) : Nat → State
  | 0 => s
  | n + 1 =>
    match (s.part p).hoistq with
    | [] => s
    | r :: rest =>
      if r.k - (s.yard r.yard).chunks ≤ s.poolFree p then
        let s1 := s.modPart p fun q => { q with hoistq := rest }
        let s2 := s1.grantChunks r.yard r.k
        let s3 := r.members.foldl (fun s k =>
          if (s.thread k).st == .blocked .hoist then s.stepOver k else s) s2
        State.serveHoists s3 p n
      else s

/-- A launch counts one yard more that has retired; the last one completes it. The completion actions stand with the
engines, which find it at `retired = total`. -/
def State.noteRetired (s : State) (y : Nat) : State :=
  { s with eng := { s.eng with launches := s.eng.launches.map fun l =>
      if l.placed && l.yards.contains (yardCore y, y % 128) then
        { l with retired := l.retired + 1, yards := l.yards.erase (yardCore y, y % 128) } else l } }

/-- Words on a range of yards that have ended are forgotten, with the regions that they held in transition (11_coherence R255,
R257). (DESIGN CHOICE, log 46.) -/
def State.dropLongs (s : State) (f : Nat → Bool) : State :=
  { s with mem := { s.mem with
      longs := s.mem.longs.filter fun l => !f l.yard, moving := s.mem.moving.filter fun p => !f p.2 } }

/-- Retires a yard all of whose launched threads have exited (R67). -/
def State.retire (s : State) (y : Nat) : State :=
  let s1 := (s.leaveRig y).dropLongs (· == y)
  let s2 := s1.modYard y fun v =>
    { v with resident := false, chunks := 0, burst := none,
             bind := { v.bind with valid := v.stripe.isSome && v.bind.valid } }
  let s3 := (s2.noteRetired y).send (.report 1 [yardCore y, y % 128])
  s3.serveHoists (yardPart y) 16

/-- Ends a thread (R97): it is exited; its tags are released; its cleat expects one fewer; the last thread of the yard
retires the yard. -/
def State.exitThread (s : State) (k : Nat) : State :=
  let y := yardOf k
  let s1 := (s.dropRegion k).leaveGroup k
  let s2 := (s1.thread k).tags.foldl (fun s p => s.dropTag k p.1) s1
  let s3 := s2.modThread k fun t =>
    { t with st := .exited, leaving := .no, released := none, given := none, step := .off }
  let s4 := (s3.unplace k).decExpect y 1
  let s5 := s4.modYard y fun v =>
    { v with burst := match v.burst with
        | none => none
        | some b =>
          if !b.done then some b
          else if (b.lanes.filter (· != k)).isEmpty then none
          else some { b with lanes := b.lanes.filter (· != k) } }
  let s6 := s5.liftSets k
  if (s6.liveLanes y).isEmpty && (s6.yard y).resident then s6.retire y else s6

end Sys2Proof.Machine
end

