-- ==== Sys2Proof/Machine/Operands.lean ====
section
/-! DEFINITION. Where a word issues, how it reads its operands, and how its results reach the slots, predicates, latches
and flags of the lanes of its issue group (02_encoding R38 to R42, 04_control R93 and R112, 05_registers R124 to R138). -/

namespace Sys2Proof.Machine

/-- What a meaning answers. -/
abbrev Outcome := Host.Outcome State Fault Refusal

/-! ### Where a word issues -/

/-- The point at which the focused partition issues: core, partition, position, the words of the chain that are still to
issue after this one, and the issuing threads: those of the current group that stand at or before the word (R134). -/
structure Here where
  core : Nat
  part : Nat
  pc : BitVec 16
  w : Nat
  left : Nat
  lanes : List Nat
  deriving DecidableEq, Repr

/-- The current group of the focused partition, if it streams. -/
def State.group (s : State) : Option Group :=
  match (s.part (partKey s.focus.1 s.focus.2)).stream with
  | none => none
  | some st => st.groups[st.cur]?

def State.here (s : State) : Here :=
  match s.group with
  | none => { core := s.focus.1, part := partKey s.focus.1 s.focus.2, pc := 0, w := 0, left := 0, lanes := [] }
  | some g =>
    { core := s.focus.1, part := partKey s.focus.1 s.focus.2, pc := g.pc, w := g.w, left := g.left,
      lanes := g.lanes.filter fun k => (s.thread k).st == .streaming && (s.thread k).wpos ≤ g.w }

/-- Changes the current group of a partition. -/
def State.modGroup (s : State) (p : Nat) (f : Group → Group) : State :=
  s.modPart p fun q => { q with stream := q.stream.map fun st => { st with groups := st.groups.modify st.cur f } }

/-- The word has stalled (R81). -/
def State.markStall (s : State) (h : Here) : State := s.modGroup h.part fun g => { g with stall := true }

/-- The word now issuing is, or holds, a switch point (R80). -/
def State.markSwitch (s : State) (h : Here) : State := s.modGroup h.part fun g => { g with sw := true }

/-- The first word of an instruction, as a trap record shows it (Table 18-1). -/
def wordOf (i : Instr) : DWord := ((encode i).headD 0).zeroExtend 64

/-- An illegal operand found when a word executes: cause 0x02. -/
def badOperand (i : Instr) : Trap := trapOf 2 (wordOf i)

/-- A uniformity violation: cause 0x03, its ORIGIN the first mismatching index. -/
def mismatch (index : Nat) : Trap := { trapOf 3 0 with origin := index }

/-- Whom a word ties together (R82). -/
inductive SetKind where
  | lane | yard | rig
  deriving DecidableEq, Repr

/-- The meaning of a scope field under an encoding version (R28, R54). -/
def setKind (v : Nat) (sc : BitVec 2) : SetKind :=
  if sc.toNat == 1 then .yard else if sc.toNat == 2 then (if v == 1 then .yard else .rig) else .lane

/-- The encoding version under which a group's words stand: that of the yard of its first lane (R49, R54). -/
def State.groupVersion (s : State) (lanes : List Nat) : Nat :=
  match lanes with
  | [] => 3
  | k :: _ => s.version (yardOf k)

/-! ### Reading operands -/

/-- The rig of a thread's yard and its ordinal there, and its spill base and limit, as its word reads them (R24). -/
def State.heldRig (s : State) (k : Nat) : Option (Nat × Nat) :=
  match (s.thread k).held with
  | some x => x.rig
  | none => (s.yard (yardOf k)).rig
def State.heldSpl (s : State) (k : Nat) : DWord × DWord :=
  match (s.thread k).held with
  | some x => x.spl
  | none => ((s.yard (yardOf k)).splbase, (s.yard (yardOf k)).spllim)

/-- The special registers CHUNKS and POOLFREE of a thread's yard and partition (Table 5-3). -/
def State.poolWords (s : State) (k : Nat) : Word × Word :=
  let waiting := (s.part (partOf k)).hoistq.any fun r => r.yard == yardOf k
  (BitVec.ofNat 32 (16 * b2n waiting + (s.yard (yardOf k)).chunks), BitVec.ofNat 32 (s.poolFree (partOf k)))

/-- CHUNKS and POOLFREE as the thread's word reads them (R24). -/
def State.heldPool (s : State) (k : Nat) : Word × Word :=
  match (s.thread k).held with
  | some x => x.pool
  | none => s.poolWords k

/-- Whether a guard holds: 7 means always (R29). -/
def Thread.guard (t : Thread) (g : BitVec 3) : Bool := g.toNat == 7 || t.view.preds.toNat.testBit g.toNat

/-- The index of a thread in a rig, or its lane. -/
def indexIn (k : Nat) (rig : Option (Nat × Nat)) : Nat :=
  match rig with
  | none => laneOf k
  | some (_, o) => 64 * o + laneOf k

/-- The index of a thread in its rig, or its lane. -/
def State.rigIndex (s : State) (k : Nat) : Nat := indexIn k (s.yard (yardOf k)).rig

/-- What reading one operand gives: a value, an unstaged slot or invalid latch (R127, R132), or a wait for a future
(R112). -/
inductive Read where
  | ok (w : Word)
  | bad
  | wait (slot : Nat)
  deriving DecidableEq, Repr

/-- Reads vector slot `i` of a thread (R112, R127). -/
def Thread.readSlot (t : Thread) (i : Nat) : Read :=
  match t.view.vs[i]? with
  | none => .bad
  | some v =>
    if v.reg == noReg then .bad
    else match t.view.tags.find? (fun p => p.1 == v.reg) with
      | some (_, slot) => .wait slot
      | none => .ok v.val

/-- Reads uniform slot `j` of a thread. -/
def Thread.readUslot (t : Thread) (j : Nat) : Read :=
  match t.view.us[j]? with
  | none => .bad
  | some u => .ok u.val

/-- Reads latch b1 to b4 (0 to 3) of a thread (R132). -/
def Thread.readLatch (t : Thread) (i : Nat) : Read :=
  match t.view.lat.getD i none with
  | none => .bad
  | some w => .ok w

/-- Reads the operand that a source code names (Table 2-5). -/
def State.readCode (s : State) (k : Nat) (lit : Word) (code : BitVec 5) : Read :=
  let n := code.toNat
  let t := s.thread k
  if n < 16 then t.readSlot n
  else if n < 20 then t.readLatch (n - 16)
  else if n < 28 then t.readUslot (n - 20)
  else if n == 28 then .ok 0
  else if n == 29 then .ok (BitVec.ofNat 32 (laneOf k))
  else if n == 30 then .ok (BitVec.ofNat 32 (indexIn k (s.heldRig k)))
  else .ok lit

/-- The codes of a pair or a quad whose low slot has this code. -/
def codesFrom (code : BitVec 5) (n : Nat) : List (BitVec 5) := (List.range n).map fun i => code + BitVec.ofNat 5 i

/-- What reading a list of operands gives: a bad one before a wait. -/
inductive ReadAll where
  | ok (ws : List Word)
  | bad
  | wait (slot : Nat)
  deriving DecidableEq, Repr

def ReadAll.cons (r : Read) (a : ReadAll) : ReadAll :=
  match r, a with
  | .bad, _ => .bad
  | _, .bad => .bad
  | .wait n, _ => .wait n
  | _, .wait n => .wait n
  | .ok w, .ok ws => .ok (w :: ws)

def State.readCodes (s : State) (k : Nat) (lit : Word) : List (BitVec 5) → ReadAll
  | [] => .ok []
  | c :: cs => ReadAll.cons (s.readCode k lit c) (State.readCodes s k lit cs)

/-- The register that a thread's region names in a slot. -/
def Thread.slotReg (t : Thread) (i : Nat) : Option Nat :=
  match t.view.vs[i]? with
  | none => none
  | some v => if v.reg == noReg then none else some v.reg

/-- Rewrites in place the handle that an operand names, if its operation has resolved (R112). -/
def State.joinCode (k : Nat) (s : State) (c : BitVec 5) : State :=
  if c.toNat < 16 then
    match (s.thread k).slotReg c.toNat with
    | none => s
    | some r => s.joinReg k r
  else s

/-- Rewrites in place every resolved handle among the operands of a thread. -/
def State.joinCodes (s : State) (k : Nat) (codes : List (BitVec 5)) : State := codes.foldl (State.joinCode k) s

/-! ### Destinations and results -/

/-- Where a word's result goes: nowhere, `n` vector slots, `n` uniform slots, or a predicate, with its D field (R40). -/
inductive Dst where
  | none
  | vec (n : Nat) (d : BitVec 5)
  | uni (n : Nat) (d : BitVec 5)
  | pred (d : BitVec 5)
  deriving DecidableEq, Repr

/-- Whether D[4] suppresses the write-back (R40). -/
def noWrite (d : BitVec 5) : Bool := 16 ≤ d.toNat

/-- The slot that D names. -/
def slotOfD (d : BitVec 5) : Nat := d.toNat % 16

/-- Whether the destination of a word is staged for a thread (R127). -/
def Thread.dstOk (t : Thread) (dst : Dst) : Bool :=
  match dst with
  | .none => true
  | .pred _ => true
  | .vec n d => noWrite d || (List.range n).all fun i =>
      match t.vs[slotOfD d + i]? with
      | none => false
      | some v => v.reg != noReg
  | .uni n d => noWrite d || (List.range n).all fun i => (t.us[slotOfD d + i]?).isSome

/-- What an active lane's word did: its results, low word first, the flags it raised, and the octet's sideband byte where
the word writes one. -/
structure LaneRes where
  vals : List Word
  ff : BitVec 5
  sb : Option Byte
  /-- the future whose pending tag the (last) destination register takes (R111) -/
  tag : Option Nat
  deriving DecidableEq, Repr

/-- What becomes of a word in one lane: it is inactive there; it is done; its thread leaves the group into a wait at the
word; or its thread traps at it. -/
inductive LaneOut where
  | off
  | done (r : LaneRes)
  | park (st : TState)
  | trap (i : Trap)
  /-- the word has not issued: nothing happens in any lane (R81) -/
  | stall
  deriving DecidableEq, Repr

/-- A lane that is done with these results and raises no flag. -/
def doneWith (vals : List Word) : LaneOut := .done { vals := vals, ff := 0, sb := none, tag := none }

/-- Results enter the latches lowest word first (R131). -/
def shiftIn (lat : Latches) (vals : List (Option Word)) : Latches :=
  vals.foldl (fun l v => (v :: l).take 4) lat

/-- A staged slot written with a value. -/
def writeSlot (vs : List VSlot) (i : Nat) (w : Word) : List VSlot :=
  vs.modify i fun v => { v with val := w, wr := true }

def writeSlots (vs : List VSlot) (i : Nat) : List Word → List VSlot
  | [] => vs
  | w :: ws => writeSlots (writeSlot vs i w) (i + 1) ws

def writeUslots (us : List USlot) (i : Nat) : List Word → List USlot
  | [] => us
  | w :: ws => writeUslots (us.modify i fun u => { u with val := w, wr := true }) (i + 1) ws

/-- The predicates with bit `d` set to `b`. -/
def setPred (p : BitVec 8) (d : BitVec 5) (b : Bool) : BitVec 8 :=
  let m : BitVec 8 := 1 <<< (d.toNat % 8)
  if b then p ||| m else p &&& ~~~m

/-- What enters the latches of a lane that is inactive for the word: the destination's value, or zero (R131).
(DEDUCED, log 19.) -/
def Thread.oldDst (t : Thread) (dst : Dst) : List (Option Word) :=
  match dst with
  | .none => []
  | .pred _ => []
  | .vec n d => (List.range n).map fun i =>
      if noWrite d then some 0 else (t.vs[slotOfD d + i]?).map fun v => v.val
  | .uni n d => (List.range n).map fun i =>
      if noWrite d then some 0 else (t.us[slotOfD d + i]?).map fun u => u.val

/-- Writes results to a thread's destination and latches (Table 5-1, R131). -/
def Thread.put (t : Thread) (dst : Dst) (shift : Bool) (vals : List Word) : Thread :=
  let lat := if shift then shiftIn t.lat (vals.map some) else t.lat
  match dst with
  | .none => t
  | .pred d => { t with preds := setPred t.preds d (vals.headD 0 != 0) }
  | .vec _ d => if noWrite d then { t with lat := lat } else { t with lat := lat, vs := writeSlots t.vs (slotOfD d) vals }
  | .uni _ d => if noWrite d then { t with lat := lat } else { t with lat := lat, us := writeUslots t.us (slotOfD d) vals }

/-- A thread inactive for a word: only its latches shift. (DEDUCED, log 19.) -/
def Thread.idle (t : Thread) (dst : Dst) (shift : Bool) : Thread :=
  if shift then { t with lat := shiftIn t.lat (t.oldDst dst) } else t

/-- The sideband copy of a slot, written. -/
def Thread.putSb (t : Thread) (dst : Dst) (sb : Option Byte) : Thread :=
  match dst, sb with
  | .vec n d, some b =>
    if noWrite d then t
    else { t with vs := (List.range n).foldl (fun vs i =>
      vs.modify (slotOfD d + i) fun v => { v with sb := b, sbw := true }) t.vs }
  | _, _ => t

/-- The first result among a yard's lanes: a uniform destination takes the value of its lowest active lane (Table 5-1).
(DEDUCED, log 33.) -/
def yardResult (outs : List (Nat × LaneOut)) (y : Nat) : Option (List Word) :=
  outs.findSome? fun p =>
    match p.2 with
    | .done r => if yardOf p.1 == y then some r.vals else none
    | _ => none

/-- The sideband byte that an octet of a yard receives. -/
def octetByte (outs : List (Nat × LaneOut)) (k : Nat) : Option Byte :=
  outs.findSome? fun p =>
    match p.2 with
    | .done r => if yardOf p.1 == yardOf k && laneOf p.1 / 8 == laneOf k / 8 then r.sb else none
    | _ => none

/-- What a word does to one of the threads that stay in the group. -/
def Thread.applyOut (t : Thread) (k : Nat) (dst : Dst) (shift : Bool) (outs : List (Nat × LaneOut)) (o : LaneOut) :
    Thread :=
  match o with
  | .done r =>
    let vals := match dst with
      | .uni _ _ => (yardResult outs (yardOf k)).getD r.vals
      | _ => r.vals
    ({ t.put dst shift vals with ff := t.ff ||| r.ff }).putSb dst (octetByte outs k)
  | .off =>
    match dst, yardResult outs (yardOf k) with
    | .uni n d, some vals => if t.dstOk (.uni n d) then t.put dst shift vals else t.idle dst shift
    | _, _ => (t.idle dst shift).putSb dst (octetByte outs k)
  | _ => t

/-- The outcome of a lane in a list of outcomes; a lane that is not listed is inactive. -/
def outOf (outs : List (Nat × LaneOut)) (k : Nat) : LaneOut :=
  match outs.find? (fun p => p.1 == k) with
  | none => .off
  | some p => p.2

/-- The registers that a word writes in a thread: their pending tags are dropped (R112). -/
def Thread.dstRegs (t : Thread) (dst : Dst) : List Nat :=
  match dst with
  | .vec n d => if noWrite d then [] else ((t.vs.drop (slotOfD d)).take n).map fun v => v.reg
  | _ => []

/-- A register takes the pending tag of a future (R111). -/
def State.addTag (s : State) (k r : Nat) (tag : Option Nat) : State :=
  match tag with
  | none => s
  | some slot => s.modThread k fun t => { t with tags := (r, slot) :: t.tags }

/-! ### Sets that fault (R372) -/

/-- The first of each run of equal keys. -/
def firsts (f : Nat → Nat) : List Nat → List Nat → List Nat
  | _, [] => []
  | seen, k :: r => if seen.contains (f k) then firsts f seen r else k :: firsts f (f k :: seen) r

/-- A set fault of members that trap at a word they share (R372). Members of other groups that the same completion
released, and that have yet to issue the word, trap at it in their turn and join the same fault. (DEDUCED, log 83.) -/
def State.faultSet (s : State) (keys members : List Nat) : State :=
  let id := (s.thread (keys.headD 0)).released
  if id.isSome && s.fab.sets.any fun f => f.id == id then s.trapMore id keys
  else
    let here := match s.group with
      | none => []
      | some g => g.lanes
    s.suspendSet keys members
      (members.filter fun k => (s.thread k).yetToIssue id && !here.contains k && !keys.contains k) id

/-- Raises traps, each at its own position. At YARD or RIG scope the other members of the set are suspended (R372).
(DEDUCED, log 83.) -/
def State.raiseAt (s : State) (kind : SetKind) (traps : List (Nat × BitVec 16 × Nat × Trap)) : State :=
  let keys := traps.map fun p => p.1
  let rigOf (k : Nat) : Nat :=
    match (s.yard (yardOf k)).rig with
    | none => 1024 + yardOf k
    | some (r, _) => r
  let s1 := match kind with
    | .lane => s
    | .yard => (firsts yardOf [] keys).foldl (fun s k =>
        s.faultSet (keys.filter fun j => yardOf j == yardOf k) (s.setMembers (yardOf k) false)) s
    | .rig => (firsts rigOf [] keys).foldl (fun s k =>
        s.faultSet (keys.filter fun j => rigOf j == rigOf k) (s.setMembers (yardOf k) true)) s
  traps.foldl (fun s p => s.trap p.1 p.2.1 p.2.2.1 p.2.2.2) s1

/-- Raises traps at the word that issues. -/
def State.raise (s : State) (h : Here) (kind : SetKind) (traps : List (Nat × Trap)) : State :=
  s.raiseAt kind (traps.map fun p => (p.1, h.pc, h.w, p.2))

/-! ### Words over the lanes of a group -/

/-- The tags of a lane that is done: those of the registers that it writes are dropped, and the last one takes the tag that the
word hands out (R111, R112). -/
def State.tagOut (dst : Dst) (s : State) (p : Nat × LaneOut) : State :=
  match p.2 with
  | .done r =>
    let regs := (s.thread p.1).dstRegs dst
    let s1 := regs.foldl (fun s x => s.dropTag p.1 x) s
    match regs.getLast? with
    | none => s1
    | some x => s1.addTag p.1 x r.tag
  | _ => s

/-- A lane that waits leaves the group at word `w`. (DEDUCED, log 26.) -/
def State.parkOut (w : Nat) (s : State) (p : Nat × LaneOut) : State :=
  match p.2 with
  | .park st => s.park p.1 w st true
  | _ => s

/-- The lanes that trap. -/
def trapsOf (outs : List (Nat × LaneOut)) : List (Nat × Trap) :=
  outs.filterMap fun p =>
    match p.2 with
    | .trap i => some (p.1, i)
    | _ => none

/-- The end of a word: results, latches and flags reach the lanes that stay; tags of the registers written are dropped;
threads that wait or trap leave the group. -/
def State.finish (s : State) (h : Here) (kind : SetKind) (dst : Dst) (shift : Bool) (outs : List (Nat × LaneOut)) :
    State :=
  let s1 := s.updLanes h.lanes fun k t => t.applyOut k dst shift outs (outOf outs k)
  let s2 := outs.foldl (State.tagOut dst) s1
  let s3 := outs.foldl (State.parkOut h.w) s2
  s3.raise h kind (trapsOf outs)

/-- Reads the sources of a word in one active lane, or says how the lane leaves it. -/
def State.laneIn (s : State) (i : Instr) (codes : List (BitVec 5)) (lit : Word) (dst : Dst) (k : Nat) :
    List Word ⊕ LaneOut :=
  match s.readCodes k lit codes with
  | .bad => .inr (.trap (badOperand i))
  | .wait n => if (s.thread k).dstOk dst then .inr (.park (.blocked (.future n))) else .inr (.trap (badOperand i))
  | .ok ws => if (s.thread k).dstOk dst then .inl ws else .inr (.trap (badOperand i))

/-- The active lanes of a word (R137). -/
def State.active (s : State) (h : Here) (g : BitVec 3) : List Nat := h.lanes.filter fun k => (s.thread k).guard g

/-- The lanes that have read their operands, with their values. -/
def readyLanes (ins : List (Nat × (List Word ⊕ LaneOut))) : List (Nat × List Word) :=
  ins.filterMap fun p =>
    match p.2 with
    | .inl ws => some (p.1, ws)
    | .inr _ => none

/-- Lanes with the values of operands that the word reads only in them, ahead of those that they have read. -/
def addVals (ins : List (Nat × List Word)) (more : List (Nat × List Word)) : List (Nat × List Word) :=
  ins.filterMap fun p => (more.find? fun q => q.1 == p.1).map fun q => (p.1, q.2 ++ p.2)

/-- The lanes that leave the word while they read its operands. -/
def stoppedLanes (ins : List (Nat × (List Word ⊕ LaneOut))) : List (Nat × LaneOut) :=
  ins.filterMap fun p =>
    match p.2 with
    | .inl _ => none
    | .inr o => some (p.1, o)

/-- Members of a list that another does not hold. -/
def newIn {α : Type} [BEq α] (old l : List α) : List α := l.filter fun x => !old.contains x

/-- A word that has stalled: nothing has happened in its threads, but its requests to the directory and the walk units stand, and
the messages sent are sent (R81, R237, R266). -/
def State.stalled (s : State) (h : Here) (after : State) : State :=
  let newWalks := after.mem.walks.filter fun w =>
    !s.mem.walks.any fun x => x.cluster == w.cluster && x.ctx == w.ctx && x.vpage == w.vpage
  { s with
    mem := { s.mem with
      dir := after.mem.dir, asks := s.mem.asks ++ newIn s.mem.asks after.mem.asks,
      walks := s.mem.walks ++ newWalks },
    out := after.out }.markStall h

/-- A word over the whole group: sources are read in every active lane, `f` says what the lanes that have read them do,
and the results reach the group. (DESIGN CHOICE, log 132.) -/
def State.groupWord (s : State) (i : Instr) (sc : BitVec 2) (g : BitVec 3) (codes : List (BitVec 5)) (lit : Word)
    (dst : Dst) (shift : Bool) (f : State → List (Nat × List Word) → State × List (Nat × LaneOut)) : State :=
  let h := s.here
  let act := s.active h g
  let s1 := act.foldl (fun s k => s.joinCodes k codes) s
  let ins := act.map fun k => (k, s1.laneIn i codes lit dst k)
  let (s2, outs) := f s1 (readyLanes ins)
  if outs.any (fun p => p.2 == .stall) then s.stalled h s2
  else s2.finish h (setKind (s.groupVersion h.lanes) sc) dst shift (stoppedLanes ins ++ outs)

/-- Yards that have done a word on a range need its record no longer. -/
def State.forgetLong (s : State) (ys : List Nat) (pc : BitVec 16) (w : Nat) : State :=
  if s.mem.longs.isEmpty then s
  else { s with mem := { s.mem with longs := s.mem.longs.filter fun l => !(ys.contains l.yard && l.pc == pc && l.w == w) } }

/-- Whether a lane leaves a word to execute it again. -/
def LaneOut.again (o : LaneOut) : Bool :=
  match o with
  | .park _ => true
  | .stall => true
  | _ => false

/-- A word that acts on a range over many cycles, as `groupWord`; while it stalls, what it has done so far stands (R255,
R257). -/
def State.longWord (s : State) (i : Instr) (sc : BitVec 2) (g : BitVec 3) (codes : List (BitVec 5)) (lit : Word)
    (dst : Dst) (f : State → List (Nat × List Word) → State × List (Nat × LaneOut)) : State :=
  let h := s.here
  let act := s.active h g
  let s1 := act.foldl (fun s k => s.joinCodes k codes) s
  let ins := act.map fun k => (k, s1.laneIn i codes lit dst k)
  let (s2, outs) := f s1 (readyLanes ins)
  if outs.any (fun p => p.2 == .stall) then s2.markStall h
  else
    let ended := (outs.filter fun p => !p.2.again).map fun p => yardOf p.1
    (s2.forgetLong ended h.pc h.w).finish h (setKind (s.groupVersion h.lanes) sc) dst false (stoppedLanes ins ++ outs)

/-- A word in which every lane acts on its own. -/
def State.laneWord (s : State) (i : Instr) (sc : BitVec 2) (g : BitVec 3) (codes : List (BitVec 5)) (lit : Word)
    (dst : Dst) (shift : Bool) (f : State → Nat → List Word → LaneOut) : State :=
  s.groupWord i sc g codes lit dst shift fun s ins => (s, ins.map fun p => (p.1, f s p.1 p.2))

/-- The first lane whose value differs from the first lane's, as `f` reads it. -/
def firstMismatch {α β : Type} [DecidableEq β] (f : α → β) : List (Nat × α) → Option Nat
  | [] => none
  | p :: r => (r.find? fun q => f q.2 ≠ f p.2).map fun q => q.1

/-- The declared-uniform check of R93 over a list of lanes: a mismatch traps every one of them. -/
def uniformly {β : Type} [DecidableEq β] (f : List Word → β) (ins : List (Nat × List Word))
    (s : State) (ok : State × List (Nat × LaneOut)) : State × List (Nat × LaneOut) :=
  match firstMismatch f ins with
  | none => ok
  | some k => (s, ins.map fun p => (p.1, .trap (mismatch (laneOf k))))

/-- Operand `i` of the values that a lane has read. -/
def val (ws : List Word) (i : Nat) : Word := ws.getD i 0

/-- A pair of operands as a doubleword, low word first. -/
def val2 (ws : List Word) (i : Nat) : DWord := dw (ws.getD i 0) (ws.getD (i + 1) 0)

/-- Lanes one after another, in increasing order. -/
def State.eachLane (s : State) (ins : List (Nat × List Word)) (f : State → Nat → List Word → State × LaneOut) :
    State × List (Nat × LaneOut) :=
  ins.foldl (fun acc p =>
    let (s1, o) := f acc.1 p.1 p.2
    (s1, acc.2 ++ [(p.1, o)])) (s, [])

/-- The operand of the lowest lane, by which an operand declared uniform is read. -/
def lead (ins : List (Nat × List Word)) : List Word := (ins.map fun p => p.2).headD []

/-- The two words of a doubleword result. -/
def words2 (d : DWord) : List Word := [DWord.lo d, DWord.hi d]

/-- The bytes of a word, lowest first. -/
def bytesOf (w : Word) : List Byte := (List.range 4).map fun i => w.extractLsb' (8 * i) 8

/-! ### The shapes of words -/

/-- A format A word with sources A and B and one vector result (R137). -/
def State.vecA (s : State) (i : Instr) (o : OpA) (f : Nat → Word → Word → Word) : State :=
  s.laneWord i o.s o.g [o.a, o.b] o.lit (.vec 1 o.d) true fun _ k ws => doneWith [f k (val ws 0) (val ws 1)]

/-- A format A word with sources A and B and a predicate result. -/
def State.cmpA (s : State) (i : Instr) (o : OpA) (f : Word → Word → Bool) : State :=
  s.laneWord i o.s o.g [o.a, o.b] o.lit (.pred o.d) false fun _ _ ws =>
    doneWith [BitVec.ofNat 32 (b2n (f (val ws 0) (val ws 1)))]

/-- A format T word with three sources and one vector result. -/
def State.vecT (s : State) (i : Instr) (o : OpT) (f : Word → Word → Word → Word) : State :=
  s.laneWord i o.s o.g [o.a, o.b, o.e] o.lit (.vec 1 o.d) true fun _ _ ws =>
    doneWith [f (val ws 0) (val ws 1) (val ws 2)]

/-- A predicate that a source field names (R41), as it stood before the chain. -/
def State.pval (s : State) (k : Nat) (code : BitVec 5) : Bool := (s.thread k).view.preds.toNat.testBit code.toNat

/-! ### Transfers and departures (R25, R94) -/

/-- Threads take transfers to targets that have passed their checks: at once, or at the end of the chain. -/
def State.takeTransfers (s : State) (h : Here) (ts : List (Nat × BitVec 16)) : State :=
  if ts.isEmpty then s
  else
    let s1 := s.markSwitch h
    if h.left = 0 then ts.foldl (fun s p => s.goto p.1 p.2) s1
    else ts.foldl (fun s p => s.modThread p.1 fun t => { t with leaving := .goto p.2 }) s1

/-- A taken transfer, with the check of its index (R26, `transfer`). -/
def transferTo (target : BitVec 16) : BitVec 16 ⊕ Trap :=
  if Config.lastPacket < target.toNat % 8192 then .inr (trapOf 0x15 (target.zeroExtend 64)) else .inl target

/-- The threads that go, with their targets. -/
def goesOf (outs : List (Nat × (BitVec 16 ⊕ Trap))) : List (Nat × BitVec 16) :=
  outs.filterMap fun p => match p.2 with
    | .inl t => some (p.1, t)
    | .inr _ => none

/-- The threads that trap instead. -/
def haltsOf (outs : List (Nat × (BitVec 16 ⊕ Trap))) : List (Nat × LaneOut) :=
  outs.filterMap fun p => match p.2 with
    | .inl _ => none
    | .inr t => some (p.1, .trap t)

/-- A word that transfers its active threads: `f` gives each its target, or the trap it takes; with `link`, RA receives the
packet after the word in the threads that go (R98, R102). -/
def State.transferWord (s : State) (i : Instr) (sc : BitVec 2) (g : BitVec 3) (codes : List (BitVec 5)) (lit : Word)
    (link : Bool) (f : State → Nat → List Word → Option (BitVec 16 ⊕ Trap)) : State :=
  let h := s.here
  let act := s.active h g
  let s1 := act.foldl (fun s k => s.joinCodes k codes) s
  let ins := act.map fun k => (k, s1.laneIn i codes lit .none k)
  let outs := (readyLanes ins).filterMap fun p => (f s1 p.1 p.2).map fun r => (p.1, r)
  let go := goesOf outs
  let traps := haltsOf outs
  let s2 := if link then go.foldl (fun s p => s.modThread p.1 fun t => { t with ra := h.pc + 1 }) s1 else s1
  (s2.takeTransfers h go).finish h (setKind (s.groupVersion h.lanes) sc) .none false (stoppedLanes ins ++ traps)

/-! ### Octets (R138) -/

/-- The check of R138 for the lanes of one octet: the first lane whose yard differs from that of the lowest. -/
def octetMismatch (ks : List Nat) : Option Nat :=
  match ks with
  | [] => none
  | k :: r => r.find? fun j => yardOf j != yardOf k

/-- The trap that a granule-aware word takes in a lane whose octet holds active lanes of more than one yard (R138). -/
def octetTrap (ks : List Nat) (k : Nat) : Option Trap :=
  (octetMismatch (ks.filter fun j => laneOf j / 8 == laneOf k / 8)).map fun j => mismatch (laneOf j)

/-! ### Words that act once for a yard -/

/-- The yards among lanes, by yard slot. -/
def yardsAmong (ks : List Nat) : List Nat := (ks.map yardOf).foldl (fun l y => insertKey y l) []

/-- Runs `f` for each yard among the lanes that are ready, by yard slot (R143), after comparing what is declared uniform in
it. (DEDUCED, log 22.) -/
def State.eachYard {β : Type} [DecidableEq β] (s : State) (ins : List (Nat × List Word)) (key : List Word → β)
    (f : State → Nat → List (Nat × List Word) → State × List (Nat × LaneOut)) : State × List (Nat × LaneOut) :=
  (yardsAmong (ins.map fun p => p.1)).foldl (fun acc y =>
    let l := ins.filter fun p => yardOf p.1 == y
    let r := uniformly key l acc.1 (f acc.1 y l)
    (r.1, acc.2 ++ r.2)) (s, [])

/-- The same trap in every lane. -/
def allTrap (l : List (Nat × List Word)) (i : Trap) : List (Nat × LaneOut) := l.map fun p => (p.1, .trap i)

/-- Reads operands that a word reads only in some of its lanes: the lanes that go on with them ahead of their other values, and
those that leave. -/
def State.moreIn (s : State) (i : Instr) (codes : List (BitVec 5)) (lit : Word) (ins : List (Nat × List Word)) :
    State × List (Nat × List Word) × List (Nat × LaneOut) :=
  let s1 := ins.foldl (fun s p => s.joinCodes p.1 codes) s
  let more := ins.map fun p => (p.1, s1.laneIn i codes lit .none p.1)
  (s1, addVals ins (readyLanes more), stoppedLanes more)

/-- The same results in every lane. -/
def allDone (l : List (Nat × List Word)) (vals : List Word) : List (Nat × LaneOut) :=
  l.map fun p => (p.1, doneWith vals)

/-- A thread whose operands read as though no register carried a pending tag. -/
def Thread.untagged (t : Thread) : Thread :=
  { t with tags := [], held := t.held.map fun x => { x with view := { x.view with tags := [] } } }

/-- Reads an operand without regard to a pending tag (R114 to R116). -/
def State.readRaw (s : State) (k : Nat) (lit : Word) (code : BitVec 5) : Read :=
  (s.modThread k Thread.untagged).readCode k lit code

/-- The future whose tag the register in a slot carries. -/
def Thread.tagOf (t : Thread) (code : BitVec 5) : Option Nat :=
  if code.toNat < 16 then
    match t.slotReg code.toNat with
    | none => none
    | some r => (t.view.tags.find? fun p => p.1 == r).map fun p => p.2
  else none

/-- Whether a word carries YARD scope, as RIGDEF, JOIN, LEAVE, HOIST and REEF must (R118, R144). -/
def State.yardScoped (s : State) (sc : BitVec 2) : Bool := setKind (s.groupVersion s.here.lanes) sc == .yard

/-! ### Chains (R24) -/

/-- Whether a word reads or writes RM or FFLAGS (R169), RDSR and WRSR apart. (DEDUCED, log 23.) -/
def touchesRm (i : Instr) : Bool :=
  let m := i.form.major
  match i with
  | .reduce p _ => p == .addF32 || p == .minF32 || p == .maxF32
  | .scanInc p _ => p == .addF32 || p == .minF32 || p == .maxF32
  | .scanExc p _ => p == .addF32 || p == .minF32 || p == .maxF32
  | .copy _ => true
  | .qput _ => true
  | .mma _ => true
  | _ => decide (0x18 ≤ m) && decide (m ≤ 0x1C)

/-- A thread as its next group will find it: with its region staged (R129). -/
def State.peek (s : State) (k : Nat) : Thread :=
  let t := s.thread k
  match t.region with
  | none => t
  | some (vr, ur) => if t.vs.isEmpty && t.us.isEmpty then { t with vs := s.loadVs k vr, us := s.loadUs k ur } else t

/-- Whether the special register that RDSR or WRSR names for a thread is RM or FFLAGS (Table 5-3, R140).
(DEDUCED, log 23.) -/
def State.namesRm (s : State) (k : Nat) (o : OpA) : Bool :=
  match (s.setThread k (s.peek k)).readRaw k o.lit o.a with
  | .ok v => v == 1 || v == 2
  | _ => false

/-- Whether a word that a thread issues reads or writes RM or FFLAGS (R24, R140). (DEDUCED, log 23.) -/
def State.usesRm (s : State) (k : Nat) (i : Instr) : Bool :=
  match i with
  | .rdsr o => s.namesRm k o
  | .wrsr o => s.namesRm k o
  | _ => touchesRm i

/-- Whether two words of a list name one pipe. -/
def samePipe : List SlotWord → Bool
  | [] => false
  | x :: r => r.any (fun y => y.instr.pipe == x.instr.pipe) || samePipe r

/-- Whether a chain is executed as though it were unchained, for a thread that issues it (R24). -/
def State.conflicting (s : State) (k : Nat) (c : List SlotWord) : Bool :=
  samePipe c || 2 ≤ (c.filter fun x => s.usesRm k x.instr).length

/-- The chains of a packet, single words included. -/
def chainsOf : List SlotWord → List (List SlotWord)
  | [] => []
  | x :: r =>
    match chainsOf r with
    | [] => [[x]]
    | c :: cs => if x.chained then (x :: c) :: cs else [x] :: c :: cs

/-- The chain that holds the word at position `w`; a word that is not chained stands alone. -/
def chainOf (ws : List SlotWord) (w : Nat) : List SlotWord :=
  ((chainsOf ws).find? fun c => c.any fun x => x.idx == w).getD []

/-- The words that issue together when a group whose first thread is `k` stands at word `w`: the rest of its chain, or the word
alone. A thread that has resumed inside a chain, or begun one as unchained, issues the rest of it unchained (R24, R369). -/
def State.chainAt (s : State) (k : Nat) (ws : List SlotWord) (w : Nat) (loose : Bool) : List SlotWord :=
  let c := chainOf ws w
  let rest := c.dropWhile fun x => x.idx < w
  if (loose && rest.length < c.length) || s.conflicting k c then rest.take 1 else rest

/-- The data slot of an exchange word, whose source values a completed rendezvous fixes (08_exchange R191). -/
def dataSlot (i : Instr) : Option (BitVec 5) :=
  match i with
  | .shflAt o => some o.a
  | .shflRot o => some o.a
  | .shflSlide o => some o.a
  | .shflFlip o => some o.a
  | .bcast o => some o.a
  | .matchLanes o => some o.a
  | .reduce _ o => some o.a
  | .scanInc _ o => some o.a
  | .scanExc _ o => some o.a
  | _ => none

/-- The widest scope among words (R24). -/
def widest (v : Nat) (c : List SlotWord) : SetKind :=
  c.foldl (fun m x =>
    match m, setKind v (BitVec.ofNat 2 x.instr.form.scope) with
    | .rig, _ => .rig
    | _, .rig => .rig
    | .yard, _ => .yard
    | _, k => k) .lane

/-- The words that a thread is to issue where it stands. -/
def State.issueWords (s : State) (k : Nat) : List SlotWord :=
  let t := s.thread k
  match decodePacket (s.version (yardOf k)) (s.packetAt (coreOf k) t.pc) with
  | .bad _ _ => []
  | .words ws => s.chainAt k ws t.wpos t.loose

/-- The scope of the words that a thread is to issue where it stands. -/
def State.scopeAt (s : State) (k : Nat) : SetKind := widest (s.version (yardOf k)) (s.issueWords k)

end Sys2Proof.Machine
end

