-- ==== Sys2Proof/Machine/Control.lean ====
section
/-! DEFINITION. Control instructions (04_control): transfers, segments' status, rigs, cleats and futures. SEGFETCH stands
with the engines in Async. -/

namespace Sys2Proof.Machine

/-! ### NOP, YIELD, EXIT (R95 to R97) -/

/-- NOP has no effect on any thread; its rendezvous, where it carries a wider scope, is over when it issues (R95). -/
def execNop (_ : OpA) (s : State) : Outcome := .next s

/-- YIELD (R96). -/
def execYield (o : OpA) (s : State) : Outcome :=
  .next (s.transferWord (.yield o) o.s o.g [] 0 false fun _ _ _ => some (transferTo (s.here.pc + 1)))

/-- EXIT: each active thread ends, at once or with the chain that holds the word (R25, R97). -/
def execExit (o : OpA) (s : State) : Outcome :=
  let h := s.here
  .next ((s.active h o.g).foldl (fun s k =>
    if h.left = 0 then s.exitThread k else s.modThread k fun t => { t with leaving := .exit }) s)

/-! ### Transfers (R98 to R102) -/

/-- A full program counter that JMPF, CALLI or RET goes to, with its checks in order. -/
def State.farTarget (s : State) (core : Nat) (v : Word) : BitVec 16 ⊕ Trap :=
  let pc := v.extractLsb' 0 16
  if Config.lastPacket < pc.toNat % 8192 then .inr (trapOf 0x15 (pc.zeroExtend 64))
  else if !s.segReady core pc then .inr (trapOf 0x06 (pc.zeroExtend 64))
  else .inl pc

/-- JMP: a packet index of the current segment. -/
def execJmp (o : OpA) (s : State) : Outcome :=
  .next (s.transferWord (.jmp o) o.s o.g [o.a] o.lit false fun s _ ws =>
    let v := val ws 0
    some (if bitsOf v.toNat 31 13 != 0 then .inr (badOperand (.jmp o))
          else transferTo (s.here.pc.extractLsb' 13 3 ++ v.extractLsb' 0 13)))

/-- CALLI. -/
def execCalli (o : OpA) (s : State) : Outcome :=
  .next (s.transferWord (.calli o) o.s o.g [o.a] o.lit true fun s _ ws =>
    let v := val ws 0
    some (if bitsOf v.toNat 31 16 != 0 then .inr (badOperand (.calli o)) else s.farTarget s.here.core v))

/-- JMPF. -/
def execJmpf (o : OpA) (s : State) : Outcome :=
  .next (s.transferWord (.jmpf o) o.s o.g [o.a] o.lit false fun s _ ws =>
    let v := val ws 0
    some (if bitsOf v.toNat 31 16 != 0 then .inr (badOperand (.jmpf o)) else s.farTarget s.here.core v))

/-- RET. -/
def execRet (o : OpA) (s : State) : Outcome :=
  .next (s.transferWord (.ret o) o.s o.g [] 0 false fun s k _ =>
    some (s.farTarget s.here.core ((s.thread k).view.ra.zeroExtend 32)))

/-- The target of a relative branch, with its range check (R98). (DEDUCED, log 21.) -/
def branchTarget (pc : BitVec 16) (off : BitVec 19) : BitVec 16 ⊕ Trap :=
  let idx : Int := (pc.toNat % 8192 : Nat) + off.toInt
  if idx < 0 || (Config.lastPacket : Int) < idx then
    .inr (trapOf 0x15 (BitVec.ofInt 64 ((pc.toNat / 8192 * 8192 : Nat) + idx)))
  else .inl (BitVec.ofNat 16 (pc.toNat / 8192 * 8192 + idx.toNat))

/-- Whether a thread takes a guarded transfer: the guard with N applied. -/
def Thread.taken (t : Thread) (g : BitVec 3) (n : Bool) : Bool :=
  g.toNat == 7 || (t.view.preds.toNat.testBit g.toNat != n)

/-- BRA and CALL (R98). (DEDUCED, log 21.) -/
def State.branch (s : State) (i : Instr) (o : OpB) (link : Bool) : State :=
  s.transferWord i o.s 7 [] 0 link fun s k _ =>
    if (s.thread k).taken o.g (o.n == 1) then some (branchTarget s.here.pc o.off) else none

/-- BRA. -/
def execBra (o : OpB) (s : State) : Outcome := .next (s.branch (.bra o) o false)
/-- CALL: RA is written only in the threads that take it. -/
def execCall (o : OpB) (s : State) : Outcome := .next (s.branch (.call o) o true)

/-- BWAY: the first pair whose guard holds (R100). -/
def execBway (o : BwayOp) (s : State) : Outcome :=
  .next (s.transferWord (.bway o) o.s 7 [] 0 false fun s k _ =>
    ((o.pairs.take o.np.toNat).find? fun p => (s.thread k).taken p.1 p.2.1).map fun p =>
      transferTo (s.here.pc.extractLsb' 13 3 ++ BitVec.ofNat 13 p.2.2))

/-! ### SEGSTAT (R106) -/

/-- The status word of a segment (Table 4-6). -/
def segWord (g : Seg) : Word := BitVec.ofNat 32 (g.packets * 2 ^ 16 + g.landno.toNat * 2 ^ 8 + g.status * 4 + g.st)

/-- SEGSTAT. -/
def execSegstat (o : OpA) (s : State) : Outcome :=
  .next (s.laneWord (.segstat o) o.s o.g [o.a] o.lit (.vec 1 o.d) false fun s k ws =>
    let v := val ws 0
    if bitsOf v.toNat 31 3 != 0 then .trap (badOperand (.segstat o))
    else doneWith [segWord (s.seg (coreOf k) v.toNat)])

/-! ### Rigs (R117 to R121) -/

/-- A rig's handle as its record now stands (Table 3-4, R117). -/
def State.rigHandle (s : State) (r : Nat) : DWord :=
  let g := s.rig r
  let cleats := (List.range 4).foldl (fun acc j =>
    match Map.find? g.cleat j with
    | none => acc
    | some c => acc + 2 ^ (20 + j) + c * 2 ^ (5 * j)) 0
  BitVec.ofNat 64 ((g.reuse.toNat * 64 + r % 64) * 2 ^ 36 + g.count * 2 ^ 30 + r / 64 * 2 ^ 26 + cleats)

/-- The rig that a handle names for a yard, or nothing when the handle is zero, stale, malformed or of another cluster
(R68, R117). -/
def State.handleRig (s : State) (y : Nat) (v : DWord) : Option Nat :=
  let n := v.toNat
  let cl := clusterOf (yardCore y)
  let r := cl * 64 + bitsOf n 41 36
  let g := s.rig r
  if v != 0 && bitsOf n 63 44 == 0 && bitsOf n 25 24 == 0 && bitsOf n 29 26 == cl && g.st.isSome &&
      bitsOf n 43 42 == g.reuse.toNat && g.context == s.yardCtx y then some r else none

/-- The lowest free record of a cluster's rig table (R117). -/
def State.freeRig (s : State) (cl : Nat) : Option Nat :=
  ((List.range Config.rigRecords).map (cl * 64 + ·)).find? fun r => (s.rig r).st.isNone

/-- RIGDEF (R119). -/
def execRigdef (o : OpA) (s : State) : Outcome :=
  .next (s.groupWord (.rigdef o) o.s o.g [o.a] o.lit (.uni 2 o.d) true fun s ins =>
    if !s.yardScoped o.s then (s, allTrap ins (badOperand (.rigdef o)))
    else s.eachYard ins (fun ws => val ws 0) fun s y l =>
      let n := (val (lead l) 0).toNat
      if n = 0 || 48 < n then (s, allTrap l (badOperand (.rigdef o)))
      else match s.freeRig (clusterOf (yardCore y)) with
        | none => (s, allTrap l (trapOf 0x10 4))
        | some r =>
          let s1 := s.setRig r { Rig.init with
            st := some .declared, reuse := (s.rig r).reuse + 1, count := n, context := s.yardCtx y }
          (s1, allDone l (words2 (s1.rigHandle r))))

/-- Allocates the lowest free cleat of a core to a rig (R70, R120). -/
def State.allocCleat (s : State) (r core : Nat) : Option State :=
  (Map.lowestFree (s.core core).cleats Config.cleats).map fun c =>
    let gen := BitVec.ofNat 8 ((s.rig r).reuse.toNat * 64 + r % 64)
    let s1 := s.modCore core fun x =>
      { x with cleats := Map.set x.cleats c { Cleat.init with rig := some r, gen := gen } }
    s1.modRig r fun g => { g with cleat := Map.set g.cleat (core % 4) c }

/-- The cleat of a yard's rig on its core expects `n` threads more. -/
def State.incExpect (s : State) (y n : Nat) : State :=
  match s.cleatOf y with
  | none => s
  | some c => s.modCore (yardCore y) fun x =>
      let cl := Map.getD x.cleats c Cleat.init
      { x with cleats := Map.set x.cleats c { cl with expect := cl.expect + n } }

/-- A yard's stripe s128-s191 reads zero as the rig takes it over (R71). (DEDUCED, log 31.) -/
def State.zeroStripe (s : State) (y : Nat) : State :=
  s.modYard y fun v => { v with ufile := v.ufile.filter fun p => p.1 < 128 }

/-- A yard becomes the member of a rig with an ordinal: its stripe passes to the rig, and the last ordinal seals it
(R120). -/
def State.addMember (s : State) (r y ord : Nat) : State :=
  let s1 := s.zeroStripe y
  let s2 := s1.modYard y fun v => { v with rig := some (r, ord), stripe := some r }
  let s3 := s2.modRig r fun g =>
    { g with members := g.members ++ [(y, ord)], stripes := Map.set g.stripes ord y, given := g.given + 1,
             st := some (if g.count ≤ g.given + 1 then .sealed else .forming) }
  s3.incExpect y (s3.liveLanes y).length

/-- JOIN (R120). (DEDUCED, log 31.) -/
def execJoin (o : OpA) (s : State) : Outcome :=
  .next (s.groupWord (.join o) o.s o.g (codesFrom o.a 2) o.lit (.uni 1 o.d) true fun s ins =>
    let bad := badOperand (.join o)
    if !s.yardScoped o.s then (s, allTrap ins bad)
    else s.eachYard ins (fun ws => val2 ws 0) fun s y l =>
      let v := val2 (lead l) 0
      match s.handleRig y v with
      | none => (s, allTrap l bad)
      | some r =>
        if (s.yard y).rig.isSome || (s.yard y).stripe.isSome || (s.rig r).st == some .sealed then (s, allTrap l bad)
        else
          let ord := (s.rig r).given
          let has := (Map.find? (s.rig r).cleat (yardCore y % 4)).isSome
          match (if has then some s else s.allocCleat r (yardCore y)) with
          | none => (s, allTrap l (trapOf 0x10 3))
          | some s1 => (s1.addMember r y ord, allDone l [BitVec.ofNat 32 ord]))

/-- LEAVE (R121). -/
def execLeave (o : OpA) (s : State) : Outcome :=
  .next (s.groupWord (.leave o) o.s o.g (codesFrom o.a 2) o.lit .none false fun s ins =>
    let bad := badOperand (.leave o)
    if !s.yardScoped o.s then (s, allTrap ins bad)
    else s.eachYard ins (fun ws => val2 ws 0) fun s y l =>
      let v := val2 (lead l) 0
      let waits := (s.liveLanes y).any fun k =>
        let t := s.thread k
        match t.st with
        | .signed => true
        | .rendezvous _ => s.scopeAt k == .rig
        | _ => false
      match s.handleRig y v with
      | none => (s, allTrap l bad)
      | some r =>
        if ((s.yard y).rig.map fun m => m.1) != some r || waits then (s, allTrap l bad)
        else ((s.decExpect y (s.liveLanes y).length).leaveRig y, allDone l []))

/-! ### Cleats (R86, R87) -/

/-- The cleats of a rig as (core, number) pairs. -/
def State.rigCleats (s : State) (r : Nat) : List (Nat × Nat) := (s.rig r).cleat.map fun p => (r / 64 * 4 + p.1, p.2)

def State.cleat (s : State) (c : Nat × Nat) : Cleat := Map.getD (s.core c.1).cleats c.2 Cleat.init
def State.modCleat (s : State) (c : Nat × Nat) (f : Cleat → Cleat) : State :=
  s.modCore c.1 fun x => { x with cleats := Map.set x.cleats c.2 (f (Map.getD x.cleats c.2 Cleat.init)) }

/-- The signers of every cleat of a rig. -/
def State.rigSigners (s : State) (r : Nat) : List Sign := (s.rigCleats r).flatMap fun c => (s.cleat c).signs

/-- Clears the phase of every cleat of a rig: OPEN and SIGNED, PHASE unchanged (R87). -/
def State.clearPhase (s : State) (r : Nat) : State :=
  (s.rigCleats r).foldl (fun s c => s.modCleat c fun x => { x with opened := false, signs := [] }) s

/-- A phase is abandoned: its signers, and these threads at the word that issues, take a trap (R87, R88). -/
def State.abandon (s : State) (h : Here) (r : Nat) (also : List Nat) (i : Trap) : State :=
  let signed := (s.rigSigners r).map fun x => (x.thread, x.pc, x.w, i)
  (s.clearPhase r).raiseAt .rig (signed ++ also.map fun k => (k, h.pc, h.w, i))

/-- The lowest rig index among threads. -/
def State.lowestIndex (s : State) (ks : List Nat) : Nat :=
  match (ks.map s.rigIndex).min? with
  | none => 0
  | some n => n

/-- Threads of one rig sign its cleats on their cores at the word that issues, for an operation (R87). (DEDUCED, log 32.) -/
def State.signRig (s : State) (h : Here) (r : Nat) (op : SignOp) (signs : List Sign) : State :=
  let keys := signs.map fun x => x.thread
  let elsewhere := (s.rigCleats r).any fun c =>
    let cl := s.cleat c
    cl.opened && !(cl.addr == h.pc && cl.addrw == h.w)
  if elsewhere then s.abandon h r keys (mismatch (s.lowestIndex keys))
  else signs.foldl (fun s x =>
    match s.cleatOf (yardOf x.thread) with
    | none => s
    | some c =>
      let s1 := s.modCleat (coreOf x.thread, c) fun cl =>
        if cl.opened then { cl with signs := cl.signs ++ [x] }
        else { cl with opened := true, fault := false, addr := h.pc, addrw := h.w, op := op, first := s.now,
                       signs := [x] }
      s1.park x.thread h.w .signed false) s

/-- The threads of an issue group sign, rig by rig; those of a yard in no rig trap (R122). -/
def State.signAll (s : State) (i : Instr) (sc : BitVec 2) (h : Here) (op : SignOp) (signs : List Sign) : State :=
  let rigOf (k : Nat) : Option Nat := (s.yard (yardOf k)).rig.map fun m => m.1
  let lost := signs.filter fun x => (rigOf x.thread).isNone
  let s1 := (firsts (fun k => (rigOf k).getD 0) []
      ((signs.filter fun x => (rigOf x.thread).isSome).map fun x => x.thread)).foldl (fun s k =>
    s.signRig h ((rigOf k).getD 0) op (signs.filter fun x => rigOf x.thread == rigOf k)) s
  s1.raise h (setKind (s.groupVersion h.lanes) sc) (lost.map fun x => (x.thread, badOperand i))

/-- SIGN: every thread of the group signs, an inactive one as an inactive member (R122). -/
def execSign (o : OpA) (s : State) : Outcome :=
  let h := s.here
  .next (s.signAll (.sign o) o.s h .sign (h.lanes.map fun k =>
    { thread := k, active := (s.thread k).guard o.g, pc := h.pc, w := h.w, word := wordOf (.sign o), vals := [], fw := 0,
      rm := (s.thread k).rm, dst := none }))

/-! ### Futures (R110 to R116) -/

/-- FWAIT: the read of the tagged register blocks until its operation has resolved (R113). -/
def execFwait (o : OpA) (s : State) : Outcome := .next (s.vecA (.fwait o) o fun _ a _ => a)

/-- Whether a future is pending. -/
def State.pending (s : State) (core slot : Nat) : Bool :=
  match Map.find? (s.core core).futs slot with
  | none => false
  | some f => f.res.isNone

/-- FTEST: 1 if A is untagged or its operation has resolved; observing a resolved one is its join edge (R114). -/
def execFtest (o : OpA) (s : State) : Outcome :=
  .next (s.groupWord (.ftest o) o.s o.g [] 0 (.pred o.d) false fun s ins =>
    s.eachLane ins fun t k _ =>
      match s.readRaw k o.lit o.a, (s.thread k).tagOf o.a with
      | .ok _, none => (t, doneWith [1])
      | .ok _, some slot =>
        if s.pending (coreOf k) slot then (t, doneWith [0]) else (t.acquire k, doneWith [1])
      | _, _ => (t, .trap (badOperand (.ftest o))))

/-- The cancellation of a pending operation is asked of its engine. -/
def State.askCancel (s : State) (core slot : Nat) : State :=
  s.modCore core fun c =>
    match Map.find? c.futs slot with
    | none => c
    | some f => { c with futs := Map.set c.futs slot { f with cancel := f.cancel || f.res.isNone } }

/-- FCANCEL: a cancellation is asked of the operation's engine (R115). (DESIGN CHOICE, log 125.) -/
def execFcancel (o : OpA) (s : State) : Outcome :=
  .next (s.groupWord (.fcancel o) o.s o.g [] 0 .none false fun s ins =>
    s.eachLane ins fun t k _ =>
      match s.readRaw k o.lit o.a, (s.thread k).tagOf o.a with
      | .ok _, some slot => (t.askCancel (coreOf k) slot, doneWith [])
      | .ok _, none => (t, doneWith [])
      | _, _ => (t, .trap (badOperand (.fcancel o))))

/-- One holder of a handle more (R116). -/
def State.incRef (s : State) (core slot n : Nat) : State :=
  s.modCore core fun c =>
    match Map.find? c.futs slot with
    | none => c
    | some f => { c with futs := Map.set c.futs slot { f with refs := f.refs + n } }

/-- FPASS: the handle and its pending tag are copied without blocking; a result that exists only in b1 carries none
(R116). -/
def execFpass (o : OpA) (s : State) : Outcome :=
  .next (s.groupWord (.fpass o) o.s o.g [] 0 (.vec 1 o.d) true fun s ins =>
    s.eachLane ins fun t k _ =>
      match s.readRaw k o.lit o.a with
      | .ok v =>
        match (if noWrite o.d then none else (s.thread k).tagOf o.a) with
        | none => (t, doneWith [v])
        | some slot => (t.incRef (coreOf k) slot 1, .done { vals := [v], ff := 0, sb := none, tag := some slot })
      | _ => (t, .trap (badOperand (.fpass o))))

end Sys2Proof.Machine
end

