-- ==== Sys2Proof/Machine/Channels.lean ====
section
/-! DEFINITION. Memory channels (11_coherence 11.5): where a physical address lies, refresh of the banks, and the service of
reads and writes. -/

namespace Sys2Proof.Machine

/-! ### The physical address map (Table 11-3) -/

/-- Bytes of device memory (01_machine Table 1-2). -/
def State.devBytes (s : State) : Nat := if s.fitX then 1536 * 2 ^ 30 else 512 * 2 ^ 30
/-- Whether a physical address lies in device memory. -/
def State.isDev (s : State) (pa : Nat) : Bool := pa < s.devBytes

/-- Where a physical address lies: controller, pseudo-channel of the controller, bank, row, column piece and byte (R248,
R251). -/
structure Cell where
  controller : Nat
  pseudo : Nat
  bank : Nat
  row : Nat
  column : Nat
  byte : Nat
  deriving DecidableEq, Repr

def State.cellOf (s : State) (pa : Nat) : Cell :=
  if s.fitX then
    let c := pa / 256 % 48
    let m := pa / 12288
    { controller := c / 6, pseudo := 2 * (c % 6) + m % 2, bank := 4 * (m / 2 % 4) + m / 8 % 4, row := m / 128,
      column := m / 32 % 4, byte := pa % 256 }
  else
    { controller := bitsOf pa 10 8, pseudo := 2 * bitsOf pa 15 11 + bitsOf pa 16 16,
      bank := 4 * bitsOf pa 18 17 + bitsOf pa 20 19, row := bitsOf pa 38 23, column := bitsOf pa 22 21, byte := pa % 256 }

/-- The number of a pseudo-channel among all. -/
def Cell.channel (c : Cell) : Nat := 64 * c.controller + c.pseudo

/-! ### Figures (Table 11-4), in nanoseconds -/

/-- The time, of which a controller cycle is one nanosecond (R249), by the core clock of R2. (DESIGN CHOICE, log 100.) -/
def State.ns (s : State) : Nat := if s.fitX then s.now * 5 / 3 else s.now

/-- Refresh of one bank and of all banks, and row-miss service from activate to data. -/
def State.rfcPb (s : State) : Nat := if s.fitX then 140 else 120
def State.rfcAb (s : State) : Nat := if s.fitX then 280 else 350
def State.missTime (s : State) : Nat := if s.fitX then 55 else 40

/-- The interval of ticks, and tREFI: the sixteen ticks of a round and the rounding of their interval. -/
def tickTime : Nat := 244
def refreshInterval : Nat := 16 * tickTime

/-- Refreshes of a bank that may be postponed. -/
def postponeLimit : Nat := 8

/-! ### Refresh (R250) -/

def State.channel (s : State) (pc : Nat) : Refresh := Map.getD s.mem.refresh pc Refresh.init
def State.setChannel (s : State) (pc : Nat) (r : Refresh) : State :=
  s.setMem { s.mem with refresh := Map.set s.mem.refresh pc r }

/-- Whether a number names a pseudo-channel of the fitting. -/
def State.hasChannel (s : State) (pc : Nat) : Bool :=
  if s.fitX then decide (pc / 64 < 8) && decide (pc % 64 < 12) else decide (pc < 512)

/-- The end of a bank's last refresh. -/
def Refresh.until_ (r : Refresh) (b : Nat) : Nat := Map.getD r.busyUntil b 0

/-- Whether a bank is busy at its tick: a read stands queued or in service, or has returned data within AFFWIN. -/
def Refresh.busyAt (r : Refresh) (b ns : Nat) : Bool :=
  (r.queued.any fun q => q.1 == b) || (match Map.find? r.lastRead b with
    | none => false
    | some t => decide (ns ≤ t + r.affwin))

def Refresh.owedOf (r : Refresh) (b : Nat) : Nat := Map.getD r.owed b 0

/-- A forced sequence of all-bank refreshes is issued, once the column access in progress has ended. (DEDUCED, log 101.) -/
def State.issueForced (s : State) (r : Refresh) : Refresh :=
  match r.pendingForced with
  | none => r
  | some n =>
    let start := max s.ns r.column
    { r with
      pendingForced := none, forced := r.forced + 1, abref := r.abref + BitVec.ofNat 64 n, owed := [],
      busyFrom := (List.range 16).map fun b => (b, start),
      busyUntil := (List.range 16).map fun b => (b, start + n * s.rfcAb) }

/-- The refresh tick of a pseudo-channel, which names its next bank. A forced sequence still to be issued comes before it, and
a tick within an all-bank refresh is served by that refresh. (DEDUCED, log 101.) -/
def State.tick (s : State) (r : Refresh) : Refresh :=
  let b := r.nextBank
  let due := match r.lastTick with
    | none => s.ns
    | some t => t + tickTime
  let r0 := s.issueForced r
  let r1 := { r0 with nextBank := (b + 1) % 16, lastTick := some due }
  let all := (List.range 16).all fun x => decide (s.ns < r1.until_ x)
  let free := max s.ns (r1.until_ b)
  if all then r1
  else if !r1.busyAt b s.ns then
    { r1 with owed := Map.del r1.owed b, busyFrom := Map.set r1.busyFrom b free,
              busyUntil := Map.set r1.busyUntil b (free + (1 + r1.owedOf b) * s.rfcPb) }
  else if r1.owedOf b < postponeLimit then { r1 with owed := Map.set r1.owed b (r1.owedOf b + 1), postp := r1.postp + 1 }
  else { r1 with pendingForced := some (1 + r1.owedOf b) }

/-- Whether the next tick of a pseudo-channel is due; the first comes at any time, and none in PS3, where the memory refreshes
itself (20_boundary R429). (DEDUCED, log 101.) -/
def State.tickDue (s : State) (r : Refresh) : Bool :=
  s.power.pstate != 3 && match r.lastTick with
  | none => true
  | some t => decide (t + tickTime ≤ s.ns)

/-! ### Service (R249, R250) -/

/-- The nanoseconds for which an access that arrives at a time and starts at another waits for its bank's refresh. -/
def Refresh.waited (r : Refresh) (b arrival start : Nat) : Nat :=
  min start (r.until_ b) - max arrival (Map.getD r.busyFrom b 0)

/-- A read of a bank is served as a row miss: the oldest one that stands queued there, or one that arrives now. -/
def State.serveRead (s : State) (r : Refresh) (b : Nat) : Refresh :=
  let arrival := match r.queued.find? fun q => q.1 == b with
    | some q => q.2
    | none => s.ns
  let start := max s.ns (r.until_ b)
  { r with
    rstall := r.rstall + BitVec.ofNat 64 (r.waited b arrival start), lastRead := Map.set r.lastRead b (start + s.missTime),
    column := max r.column (start + s.missTime), queued := r.queued.eraseP fun q => q.1 == b }

/-- A write of a bank is served as a row miss, once the bank's refresh has ended. -/
def State.serveWrite (s : State) (r : Refresh) (b : Nat) : Refresh :=
  { r with column := max r.column (max s.ns (r.until_ b) + s.missTime) }

/-- A line is read from device memory. -/
def State.channelRead (s : State) (line : Nat) : State :=
  let c := s.cellOf line
  if s.isDev line then s.setChannel c.channel (s.serveRead (s.channel c.channel) c.bank) else s

/-- A line is written to device memory. -/
def State.channelWrite (s : State) (line : Nat) : State :=
  let c := s.cellOf line
  if s.isDev line then s.setChannel c.channel (s.serveWrite (s.channel c.channel) c.bank) else s

end Sys2Proof.Machine
end

