-- ==== Sys2Proof/Machine/Flags.lean ====
section
/-! DEFINITION. Flags: the carry and borrow words of the integer class (06_integer R154), the sticky FFLAGS and the
rounding modes, and the one rounding procedure of the device over exact values (07_float R163 to R169). -/

namespace Sys2Proof.Machine

/-! ### Carries (R154) -/

/-- 1 if a + b ≥ 2^32, natural values. -/
def carryOf (a b : Word) : Word := BitVec.ofNat 32 (b2n (decide (2 ^ 32 ≤ a.toNat + b.toNat)))
/-- 1 if a < b, natural values. -/
def borrowOf (a b : Word) : Word := BitVec.ofNat 32 (b2n (decide (a.toNat < b.toNat)))

/-! ### FFLAGS (Table 5-3, R169): NV, DZ, OF, UF, NX from bit 4 to bit 0 -/

abbrev FFlags := BitVec 5
def flagNV : FFlags := 16
def flagDZ : FFlags := 8
def flagOF : FFlags := 4
def flagUF : FFlags := 2
def flagNX : FFlags := 1

/-! ### Rounding modes (Table 7-2) -/

inductive RMode where
  | rne | rz | rd | ru | rna
  deriving DecidableEq, Repr

/-- The mode of an RM code; WRSR refuses codes 5 to 7. -/
def RMode.ofCode (c : Nat) : RMode :=
  match c with
  | 0 => .rne
  | 1 => .rz
  | 2 => .rd
  | 3 => .ru
  | _ => .rna

/-- Rounds ±(n + r), n natural and r in [0, 1) with `half` comparing r with 1/2 and `rest` for r ≠ 0, to an integer
magnitude (rnd_int). -/
def RMode.round (rm : RMode) (neg : Bool) (n : Nat) (half : Ordering) (rest : Bool) : Nat :=
  let up : Bool := match rm with
    | .rne => half == .gt || (half == .eq && n % 2 == 1)
    | .rz => false
    | .rd => neg && rest
    | .ru => !neg && rest
    | .rna => half != .lt
  if up then n + 1 else n

/-! ### Formats (Tables 7-1 and 7-3) -/

inductive Fmt where
  | fp32 | fp16 | bf16 | e4m3 | e5m2 | e2m3 | e3m2 | e2m1 | int8
  deriving DecidableEq, Repr

/-- Mantissa bits. INT8 counts in steps of 2⁻⁶ and has none. -/
def Fmt.mant : Fmt → Nat
  | .fp32 => 23
  | .fp16 => 10
  | .bf16 => 7
  | .e4m3 => 3
  | .e5m2 => 2
  | .e2m3 => 3
  | .e3m2 => 2
  | .e2m1 => 1
  | .int8 => 0

/-- Exponent bits. -/
def Fmt.expo : Fmt → Nat
  | .fp32 => 8
  | .fp16 => 5
  | .bf16 => 8
  | .e4m3 => 4
  | .e5m2 => 5
  | .e2m3 => 2
  | .e3m2 => 3
  | .e2m1 => 2
  | .int8 => 7

/-- EMIN: the exponent of the smallest normal. -/
def Fmt.emin : Fmt → Int
  | .fp32 => -126
  | .fp16 => -14
  | .bf16 => -126
  | .e4m3 => -6
  | .e5m2 => -14
  | .e2m3 => 0
  | .e3m2 => -2
  | .e2m1 => 0
  | .int8 => -6

/-- The magnitude code of the largest finite value. -/
def Fmt.maxCode : Fmt → Nat
  | .fp32 => 0x7F7FFFFF
  | .fp16 => 0x7BFF
  | .bf16 => 0x7F7F
  | .e4m3 => 0x7E
  | .e5m2 => 0x7B
  | .e2m3 => 0x1F
  | .e3m2 => 0x1F
  | .e2m1 => 0x7
  | .int8 => 127

/-- The sign bit's weight. -/
def Fmt.signBit (f : Fmt) : Nat := 2 ^ (f.mant + f.expo)

/-- An exact value: a NaN (signalling or quiet), an infinity, a zero, or ±m × 2^e with m positive. -/
inductive FVal where
  | nan (sig : Bool)
  | inf (neg : Bool)
  | zero (neg : Bool)
  | fin (neg : Bool) (m : Nat) (e : Int)
  deriving DecidableEq, Repr

/-- A magnitude code with a sign; INT8 is two's complement. -/
def Fmt.signed (f : Fmt) (neg : Bool) (mag : Nat) : Nat :=
  match f with
  | .int8 => if neg then (256 - mag) % 256 else mag
  | _ => if neg then f.signBit + mag else mag

/-- The value of a code (R163, R164). Bits above the format are ignored. -/
def Fmt.value (f : Fmt) (code : Nat) : FVal :=
  match f with
  | .int8 =>
    let k := code % 256
    if k == 0 then .zero false
    else if 128 ≤ k then .fin true (256 - k) (-6) else .fin false k (-6)
  | _ =>
    let neg := bitOf code (f.mant + f.expo)
    let ex := bitsOf code (f.mant + f.expo - 1) f.mant
    let ma := code % 2 ^ f.mant
    let top := 2 ^ f.expo - 1
    let wide := f == .fp32 || f == .fp16 || f == .bf16
    if ex == top && f == .e4m3 && ma == 7 then .nan false
    else if ex == top && (wide || f == .e5m2) then
      (if ma == 0 then .inf neg else .nan (wide && !bitOf ma (f.mant - 1)))
    else if ex == 0 then
      (if ma == 0 then .zero neg else .fin neg ma (f.emin - f.mant))
    else .fin neg (2 ^ f.mant + ma) (f.emin + (ex : Int) - 1 - f.mant)

/-- nan_result of Table 7-3. -/
def Fmt.nanResult : Fmt → Nat × FFlags
  | .fp32 => (0x7FC00000, 0)
  | .fp16 => (0x7E00, 0)
  | .bf16 => (0x7FC0, 0)
  | .e5m2 => (0x7E, 0)
  | .e4m3 => (0x7F, flagNV)
  | .e2m3 => (0, flagNV)
  | .e3m2 => (0, flagNV)
  | .e2m1 => (0, flagNV)
  | .int8 => (0, flagNV)

/-- The code of ±∞ of a format that has one. -/
def Fmt.infCode (f : Fmt) : Nat := (2 ^ f.expo - 1) * 2 ^ f.mant

/-- inf_result of Table 7-3. -/
def Fmt.infResult (f : Fmt) (neg sat : Bool) : Nat × FFlags :=
  match f with
  | .fp32 => (f.signed neg f.infCode, 0)
  | .fp16 => (f.signed neg f.infCode, 0)
  | .bf16 => (f.signed neg f.infCode, 0)
  | .e5m2 => if sat then (f.signed neg f.maxCode, flagNV) else (f.signed neg f.infCode, 0)
  | .e4m3 => if sat then (f.signed neg f.maxCode, flagNV) else (0x7F, flagNV)
  | _ => (f.signed neg f.maxCode, flagNV)

/-- ±m × 2^e as n + r in units of 2^q: n, how r compares with 1/2, and whether r ≠ 0. -/
def splitAt (m : Nat) (e q : Int) : Nat × Ordering × Bool :=
  if q ≤ e then (m * 2 ^ (e - q).toNat, .lt, false)
  else
    let d := (q - e).toNat
    if m.log2 + 2 < d then (0, .lt, true)
    else (m / 2 ^ d, compare (2 * (m % 2 ^ d)) (2 ^ d), m % 2 ^ d != 0)

/-- ±m × 2^e rounded to an integer magnitude (rnd_int), and whether it is inexact. -/
def rndInt (rm : RMode) (neg : Bool) (m : Nat) (e : Int) : Nat × Bool :=
  let (n, half, rest) := splitAt m e 0
  (rm.round neg n half rest, rest)

/-- round_to (R168): the code of an exact value in a format, and the flags raised. -/
def roundTo (f : Fmt) (x : FVal) (rm : RMode) (sat : Bool) : Nat × FFlags :=
  match x with
  | .nan sig =>
    let (c, fl) := f.nanResult
    (c, if sig then fl ||| flagNV else fl)
  | .inf neg => f.infResult neg sat
  | .zero neg => (if f == .int8 then 0 else f.signed neg 0, 0)
  | .fin neg m e =>
    let lg : Int := e + m.log2
    let ex : Int := if f == .int8 then -6 else max lg f.emin
    let (n0, half, rest) := splitAt m e (ex - f.mant)
    let n := rm.round neg n0 half rest
    let mag := if f == .int8 then n else ((ex - f.emin).toNat) * 2 ^ f.mant + n
    let nx : FFlags := if rest then flagNX else 0
    let uf : FFlags := if f != .int8 && lg < f.emin && rest then flagUF else 0
    if f.maxCode < mag then
      let fl := nx ||| uf ||| flagOF ||| flagNX
      if sat || f == .e2m3 || f == .e3m2 || f == .e2m1 || f == .int8 then (f.signed neg f.maxCode, fl)
      else if rm == .rz || (rm == .rd && !neg) || (rm == .ru && neg) then (f.signed neg f.maxCode, fl)
      else if f == .e4m3 then (0x7F, fl)
      else (f.signed neg f.infCode, fl)
    else (f.signed neg mag, nx ||| uf)

end Sys2Proof.Machine
end

