-- ==== Sys2Proof/Machine/Integer.lean ====
section
/-! DEFINITION. Integer, address and predicate instructions (06_integer). -/

namespace Sys2Proof.Machine

/-! ### Helpers (R150, Table 6-2) -/

/-- The lesser by signed value. -/
def minS (a b : Word) : Word := if b.toInt < a.toInt then b else a
/-- The greater by signed value. -/
def maxS (a b : Word) : Word := if a.toInt < b.toInt then b else a
/-- The number of 1 bits. -/
def ones (a : Word) : Nat := ((List.range 32).map fun i => b2n (a.toNat.testBit i)).sum
/-- The number of 0 bits above the highest 1 bit. -/
def leadingZeros (a : Word) : Nat :=
  ((List.range 32).takeWhile fun i => !a.toNat.testBit (31 - i)).length
/-- SHL by the whole of a natural count (R153). -/
def shlW (a b : Word) : Word := if 32 ≤ b.toNat then 0 else a <<< b.toNat
/-- SHR by the whole of a natural count. -/
def shrW (a b : Word) : Word := if 32 ≤ b.toNat then 0 else a >>> b.toNat
/-- SAR: the count is at most 31. -/
def sarW (a b : Word) : Word := a.sshiftRight (Nat.min b.toNat 31)
/-- A control word of BFX and BFI: POS, and LEN cut at bit 31 (R156). -/
def fieldCtl (c : Word) : Nat × Nat :=
  let pos := bitsOf c.toNat 4 0
  (pos, Nat.min (bitsOf c.toNat 13 8) (32 - pos))
/-- BFX.n32 (R156). -/
def bfxN (a c : Word) : Word :=
  BitVec.ofNat 32 (a.toNat / 2 ^ (fieldCtl c).1 % 2 ^ (fieldCtl c).2)
/-- BFX.s32: the sign is bit len − 1 of the field (R156). -/
def bfxS (a c : Word) : Word :=
  let len := (fieldCtl c).2
  let f := (bfxN a c).toNat
  if len == 0 then 0 else if f.testBit (len - 1) then BitVec.ofInt 32 (f - 2 ^ len : Int) else BitVec.ofNat 32 f
/-- BFI: field `a` into base `b` (R156). -/
def bfiW (a b c : Word) : Word :=
  let m := BitVec.ofNat 32 ((2 ^ (fieldCtl c).2 - 1) * 2 ^ (fieldCtl c).1)
  (b &&& ~~~m) ||| ((a <<< (fieldCtl c).1) &&& m)
/-- A signed quotient rounded toward zero; 0xFFFF_FFFF for a zero divisor (R155). -/
def divS (a b : Word) : Word := if b == 0 then BitVec.allOnes 32 else BitVec.ofInt 32 (a.toInt.tdiv b.toInt)
def divN (a b : Word) : Word := if b == 0 then BitVec.allOnes 32 else BitVec.ofNat 32 (a.toNat / b.toNat)
/-- A remainder with the sign of the dividend; the dividend for a zero divisor (R155). -/
def remS (a b : Word) : Word :=
  if b == 0 then a else BitVec.ofInt 32 (a.toInt - b.toInt * a.toInt.tdiv b.toInt)
def remN (a b : Word) : Word := if b == 0 then a else BitVec.ofNat 32 (a.toNat % b.toNat)

/-! ### Pointers (R159 to R161) -/

/-- Whether a pointer is global: bits [63:57] all equal bit 56. -/
def isGlobal (p : DWord) : Bool := bitsOf p.toNat 63 56 == 0 || bitsOf p.toNat 63 56 == 255

/-- The checks of a PTAG tag word in the order of Table 6-5: the cause of the first that fails. (DEDUCED, log 20.) -/
def tagCause (g : Word) : Option Nat :=
  let n := g.toNat
  let space := bitsOf n 3 0
  if bitsOf n 31 11 != 0 then some 0x02
  else if bitOf n 10 && bitsOf n 9 4 != 0 then some 0x02
  else if 14 ≤ bitsOf n 7 4 then some 0x09
  else if space == 0 || space == 15 then some 0x02
  else if 7 ≤ space then some 0x09
  else none

/-- The pointer that PTAG builds on a core (R160). (DEDUCED, log 20.) -/
def tagPointer (core : Nat) (a g : Word) : DWord :=
  let n := g.toNat
  let (cl, co) := if bitOf n 10 then (core / 4, core % 4) else (bitsOf n 7 4, bitsOf n 9 8)
  BitVec.ofNat 64 (bitsOf n 3 0 * 2 ^ 60 + cl * 2 ^ 56 + co * 2 ^ 54 + a.toNat)

/-- LEA: the pointer stepped in its own form, or nothing where it leaves it (R161). -/
def leaPointer (p : DWord) (imm : BitVec 13) : Option DWord :=
  if isGlobal p then
    let q := p + imm.signExtend 64
    if isGlobal q then some q else none
  else
    let sp := bitsOf p.toNat 63 60
    let off : Int := (bitsOf p.toNat 53 0 : Int) + imm.toInt
    if sp == 0 || 7 ≤ sp || 14 ≤ bitsOf p.toNat 59 56 || off < 0 || 2 ^ 54 ≤ off then none
    else some (BitVec.ofNat 64 (bitsOf p.toNat 63 54 * 2 ^ 54 + off.toNat))

/-! ### Arithmetic and logic (R153 to R156) -/

/-- IADD: w32(a + b) (Table 6-2). -/
def execIadd (o : OpA) (s : State) : Outcome := .next (s.vecA (.iadd o) o fun _ a b => a + b)

/-- ISUB: w32(a − b). -/
def execIsub (o : OpA) (s : State) : Outcome := .next (s.vecA (.isub o) o fun _ a b => a - b)

/-- ADDC: 1 if a + b ≥ 2^32 (R154). -/
def execAddc (o : OpA) (s : State) : Outcome := .next (s.vecA (.addc o) o fun _ a b => carryOf a b)

/-- SUBB: 1 if a < b (R154). -/
def execSubb (o : OpA) (s : State) : Outcome := .next (s.vecA (.subb o) o fun _ a b => borrowOf a b)

/-- IMIN.s32. -/
def execIminS32 (o : OpA) (s : State) : Outcome := .next (s.vecA (.iminS32 o) o fun _ a b => minS a b)

/-- IMIN.n32. -/
def execIminN32 (o : OpA) (s : State) : Outcome := .next (s.vecA (.iminN32 o) o fun _ a b => if b < a then b else a)

/-- IMAX.s32. -/
def execImaxS32 (o : OpA) (s : State) : Outcome := .next (s.vecA (.imaxS32 o) o fun _ a b => maxS a b)

/-- IMAX.n32. -/
def execImaxN32 (o : OpA) (s : State) : Outcome := .next (s.vecA (.imaxN32 o) o fun _ a b => if a < b then b else a)

/-- IABS: 0x8000_0000 gives itself. -/
def execIabs (o : OpA) (s : State) : Outcome := .next (s.vecA (.iabs o) o fun _ a _ => if a.msb then -a else a)

/-- AND. -/
def execAnd (o : OpA) (s : State) : Outcome := .next (s.vecA (.and o) o fun _ a b => a &&& b)

/-- OR. -/
def execOr (o : OpA) (s : State) : Outcome := .next (s.vecA (.or o) o fun _ a b => a ||| b)

/-- XOR. -/
def execXor (o : OpA) (s : State) : Outcome := .next (s.vecA (.xor o) o fun _ a b => a ^^^ b)

/-- ANDN: a and (not b). -/
def execAndn (o : OpA) (s : State) : Outcome := .next (s.vecA (.andn o) o fun _ a b => a &&& ~~~b)

/-- POPC. -/
def execPopc (o : OpA) (s : State) : Outcome := .next (s.vecA (.popc o) o fun _ a _ => BitVec.ofNat 32 (ones a))

/-- CLZ; 32 when a = 0. -/
def execClz (o : OpA) (s : State) : Outcome := .next (s.vecA (.clz o) o fun _ a _ => BitVec.ofNat 32 (leadingZeros a))

/-- BREV. -/
def execBrev (o : OpA) (s : State) : Outcome := .next (s.vecA (.brev o) o fun _ a _ => a.reverse)

/-- SHL. -/
def execShl (o : OpA) (s : State) : Outcome := .next (s.vecA (.shl o) o fun _ a b => shlW a b)

/-- SHR. -/
def execShr (o : OpA) (s : State) : Outcome := .next (s.vecA (.shr o) o fun _ a b => shrW a b)

/-- SAR. -/
def execSar (o : OpA) (s : State) : Outcome := .next (s.vecA (.sar o) o fun _ a b => sarW a b)

/-- ROT: left by b mod 32. -/
def execRot (o : OpA) (s : State) : Outcome := .next (s.vecA (.rot o) o fun _ a b => a.rotateLeft (b.toNat % 32))

/-- BFX.n32. -/
def execBfxN32 (o : OpA) (s : State) : Outcome := .next (s.vecA (.bfxN32 o) o fun _ a b => bfxN a b)

/-- BFX.s32. -/
def execBfxS32 (o : OpA) (s : State) : Outcome := .next (s.vecA (.bfxS32 o) o fun _ a b => bfxS a b)

/-- IMUL: low word of the product. -/
def execImul (o : OpA) (s : State) : Outcome := .next (s.vecA (.imul o) o fun _ a b => a * b)

/-- IMULH.s32. -/
def execImulhS32 (o : OpA) (s : State) : Outcome := .next (s.vecA (.imulhS32 o) o fun _ a b => BitVec.ofInt 32 (a.toInt * b.toInt / 2 ^ 32))

/-- IMULH.n32. -/
def execImulhN32 (o : OpA) (s : State) : Outcome := .next (s.vecA (.imulhN32 o) o fun _ a b => BitVec.ofNat 32 (a.toNat * b.toNat / 2 ^ 32))

/-- IDIV.s32. -/
def execIdivS32 (o : OpA) (s : State) : Outcome := .next (s.vecA (.idivS32 o) o fun _ a b => divS a b)

/-- IDIV.n32. -/
def execIdivN32 (o : OpA) (s : State) : Outcome := .next (s.vecA (.idivN32 o) o fun _ a b => divN a b)

/-- IREM.s32. -/
def execIremS32 (o : OpA) (s : State) : Outcome := .next (s.vecA (.iremS32 o) o fun _ a b => remS a b)

/-- IREM.n32. -/
def execIremN32 (o : OpA) (s : State) : Outcome := .next (s.vecA (.iremN32 o) o fun _ a b => remN a b)

/-- ADD64: wrapping addition of a pair and a sign-extended word (R159). -/
def execAdd64 (o : OpA) (s : State) : Outcome :=
  .next (s.laneWord (.add64 o) o.s o.g (codesFrom o.a 2 ++ [o.b]) o.lit (.vec 2 o.d) true fun _ _ ws =>
    doneWith (words2 (val2 ws 0 + (val ws 2).signExtend 64)))

/-- PTAG (R160). (DEDUCED, log 20.) -/
def execPtag (o : OpA) (s : State) : Outcome :=
  .next (s.laneWord (.ptag o) o.s o.g [o.a, o.b] o.lit (.vec 2 o.d) true fun _ k ws =>
    match tagCause (val ws 1) with
    | some 0x09 => .trap (trapOf 0x09 (tagPointer (coreOf k) (val ws 0) (val ws 1)))
    | some _ => .trap (badOperand (.ptag o))
    | none => doneWith (words2 (tagPointer (coreOf k) (val ws 0) (val ws 1))))

/-- LEA (R161). (DEDUCED, log 20.) -/
def execLea (o : OpI) (s : State) : Outcome :=
  .next (s.laneWord (.lea o) o.s 7 (codesFrom o.a 2) 0 (.vec 2 o.d) true fun _ _ ws =>
    match leaPointer (val2 ws 0) o.imm with
    | none => .trap (trapOf 0x09 (val2 ws 0))
    | some q => doneWith (words2 q))

/-- ADDI: w32(a + sext(IMM13)), with no guard. -/
def execAddi (o : OpI) (s : State) : Outcome :=
  .next (s.laneWord (.addi o) o.s 7 [o.a] 0 (.vec 1 o.d) true fun _ _ ws =>
    doneWith [val ws 0 + o.imm.signExtend 32])

/-- IMAD: w32(a × b + c). -/
def execImad (o : OpT) (s : State) : Outcome := .next (s.vecT (.imad o) o fun a b c => a * b + c)

/-- BFI: field A, base B, control C3 (R156). -/
def execBfi (o : OpT) (s : State) : Outcome := .next (s.vecT (.bfi o) o bfiW)

/-! ### Compares and predicates (R157, R158) -/

/-- ICMP.eq. -/
def execIcmpEq (o : OpA) (s : State) : Outcome := .next (s.cmpA (.icmpEq o) o fun a b => a == b)

/-- ICMP.ne. -/
def execIcmpNe (o : OpA) (s : State) : Outcome := .next (s.cmpA (.icmpNe o) o fun a b => a != b)

/-- ICMP.lt.s32. -/
def execIcmpLtS32 (o : OpA) (s : State) : Outcome := .next (s.cmpA (.icmpLtS32 o) o fun a b => decide (a.toInt < b.toInt))

/-- ICMP.le.s32. -/
def execIcmpLeS32 (o : OpA) (s : State) : Outcome := .next (s.cmpA (.icmpLeS32 o) o fun a b => decide (a.toInt ≤ b.toInt))

/-- ICMP.gt.s32. -/
def execIcmpGtS32 (o : OpA) (s : State) : Outcome := .next (s.cmpA (.icmpGtS32 o) o fun a b => decide (a.toInt > b.toInt))

/-- ICMP.ge.s32. -/
def execIcmpGeS32 (o : OpA) (s : State) : Outcome := .next (s.cmpA (.icmpGeS32 o) o fun a b => decide (a.toInt ≥ b.toInt))

/-- ICMP.lt.n32. -/
def execIcmpLtN32 (o : OpA) (s : State) : Outcome := .next (s.cmpA (.icmpLtN32 o) o fun a b => decide (a.toNat < b.toNat))

/-- ICMP.le.n32. -/
def execIcmpLeN32 (o : OpA) (s : State) : Outcome := .next (s.cmpA (.icmpLeN32 o) o fun a b => decide (a.toNat ≤ b.toNat))

/-- ICMP.gt.n32. -/
def execIcmpGtN32 (o : OpA) (s : State) : Outcome := .next (s.cmpA (.icmpGtN32 o) o fun a b => decide (a.toNat > b.toNat))

/-- ICMP.ge.n32. -/
def execIcmpGeN32 (o : OpA) (s : State) : Outcome := .next (s.cmpA (.icmpGeN32 o) o fun a b => decide (a.toNat ≥ b.toNat))

/-- A word over two predicates (R158). -/
def State.predA (s : State) (i : Instr) (o : OpA) (f : Bool → Bool → Bool) : State :=
  s.laneWord i o.s o.g [] 0 (.pred o.d) false fun s k _ =>
    doneWith [BitVec.ofNat 32 (b2n (f (s.pval k o.a) (s.pval k o.b)))]

/-- PAND (R158). -/
def execPand (o : OpA) (s : State) : Outcome := .next (s.predA (.pand o) o fun a b => a && b)

/-- POR (R158). -/
def execPor (o : OpA) (s : State) : Outcome := .next (s.predA (.por o) o fun a b => a || b)

/-- PXOR (R158). -/
def execPxor (o : OpA) (s : State) : Outcome := .next (s.predA (.pxor o) o fun a b => a != b)

/-- PNOT (R158). -/
def execPnot (o : OpA) (s : State) : Outcome := .next (s.predA (.pnot o) o fun a _ => !a)

end Sys2Proof.Machine
end

