-- ==== Sys2Proof/Machine/Float.lean ====
section
/-! DEFINITION. Floating-point instructions (07_float): exact arithmetic on values, rounded once by `roundTo`. -/

namespace Sys2Proof.Machine

/-! ### Exact arithmetic (R174, R175) -/

/-- A change of sign. -/
def FVal.neg : FVal → FVal
  | .nan sig => .nan sig
  | .inf n => .inf (!n)
  | .zero n => .zero (!n)
  | .fin n m e => .fin (!n) m e

/-- An exact product; 0 × ∞ raises NV, which a signalling NaN stands for. -/
def FVal.mul (a b : FVal) : FVal :=
  match a, b with
  | .nan s, .nan t => .nan (s || t)
  | .nan s, _ => .nan s
  | _, .nan t => .nan t
  | .inf n, .inf k => .inf (n != k)
  | .inf _, .zero _ => .nan true
  | .zero _, .inf _ => .nan true
  | .inf n, .fin k _ _ => .inf (n != k)
  | .fin n _ _, .inf k => .inf (n != k)
  | .zero n, .zero k => .zero (n != k)
  | .zero n, .fin k _ _ => .zero (n != k)
  | .fin n _ _, .zero k => .zero (n != k)
  | .fin n m e, .fin k p f => .fin (n != k) (m * p) (e + f)

/-- ±m × 2^e as an integer count of 2^q, for q ≤ e. -/
def scaled (neg : Bool) (m : Nat) (e q : Int) : Int :=
  let v : Int := m * 2 ^ (e - q).toNat
  if neg then -v else v

/-- An exact sum; a zero sum of opposite signs is −0 under RD and +0 otherwise (R174). -/
def FVal.add (rm : RMode) (a b : FVal) : FVal :=
  match a, b with
  | .nan s, .nan t => .nan (s || t)
  | .nan s, _ => .nan s
  | _, .nan t => .nan t
  | .inf n, .inf k => if n == k then .inf n else .nan true
  | .inf n, _ => .inf n
  | _, .inf k => .inf k
  | .zero n, .zero k => if n == k then .zero n else .zero (rm == .rd)
  | .zero _, y => y
  | x, .zero _ => x
  | .fin n m e, .fin k p f =>
    let q := min e f
    let t := scaled n m e q + scaled k p f q
    if t == 0 then .zero (rm == .rd) else .fin (t < 0) t.natAbs q

/-- Whether a value is a signalling NaN. -/
def FVal.isSig : FVal → Bool
  | .nan s => s
  | _ => false

def FVal.isNan : FVal → Bool
  | .nan _ => true
  | _ => false

/-- A code of a format without bits above it. -/
def Fmt.clean (f : Fmt) (c : Nat) : Nat := c % (2 * f.signBit)

/-- The order of a format's codes that are no NaN: −0 below +0 when `strict`, equal to it otherwise. -/
def Fmt.key (f : Fmt) (strict : Bool) (c : Nat) : Int :=
  let mag : Int := (c % f.signBit : Nat)
  if bitOf c (f.mant + f.expo) then (if strict then -mag - 1 else -mag) else mag

/-- A binary operation of major 0x18 on codes of a format (Table 7-6). -/
abbrev FOp := Fmt → RMode → Nat → Nat → Nat × FFlags

def opAdd : FOp := fun f rm a b => roundTo f ((f.value a).add rm (f.value b)) rm false
def opSub : FOp := fun f rm a b => roundTo f ((f.value a).add rm (f.value b).neg) rm false
def opMul : FOp := fun f rm a b => roundTo f ((f.value a).mul (f.value b)) rm false

/-- minimumNumber or maximumNumber: the operand that is no NaN, NV for a signalling NaN (R174). -/
def opMinMax (takeA : Int → Int → Bool) : FOp := fun f _ a b =>
  let fl : FFlags := if (f.value a).isSig || (f.value b).isSig then flagNV else 0
  let r :=
    if (f.value a).isNan && (f.value b).isNan then f.nanResult.1
    else if (f.value a).isNan then f.clean b
    else if (f.value b).isNan then f.clean a
    else if takeA (f.key true a) (f.key true b) then f.clean a else f.clean b
  (r, fl)
def opMin : FOp := opMinMax fun x y => x ≤ y
def opMax : FOp := opMinMax fun x y => y ≤ x

/-- FSCALE: a × 2ⁿ rounded once. Beyond ±1,000 the result no longer depends on n. -/
def opScale : FOp := fun f rm a b =>
  let bits := f.mant + f.expo + 1
  let n : Int := (BitVec.ofNat bits b).toInt
  match f.value a with
  | .nan s => roundTo f (.nan s) rm false
  | .inf _ => (f.clean a, 0)
  | .zero _ => (f.clean a, 0)
  | .fin neg m e => roundTo f (.fin neg m (e + max (-1000) (min 1000 n))) rm false

/-- The low and high halves of a word. -/
def lowHalf (w : Word) : Nat := w.toNat % 65536
def highHalf (w : Word) : Nat := w.toNat / 65536
def packHalves (lo hi : Nat) : Word := BitVec.ofNat 32 (hi * 65536 + lo)

/-- An operation over the elements of a word of a type (Table 2-7). -/
def typedOp (ty : FType) (op : FOp) (rm : RMode) (a b : Word) : Word × FFlags :=
  match ty with
  | .f32 => let (r, fl) := op .fp32 rm a.toNat b.toNat; (BitVec.ofNat 32 r, fl)
  | .f16 =>
    let (l, fl) := op .fp16 rm (lowHalf a) (lowHalf b)
    let (h, fh) := op .fp16 rm (highHalf a) (highHalf b)
    (packHalves l h, fl ||| fh)
  | .bf16 =>
    let (l, fl) := op .bf16 rm (lowHalf a) (lowHalf b)
    let (h, fh) := op .bf16 rm (highHalf a) (highHalf b)
    (packHalves l h, fl ||| fh)

/-- a × b + c rounded once (R175). -/
def fmaCode (f : Fmt) (rm : RMode) (a b c : FVal) : Nat × FFlags := roundTo f ((a.mul b).add rm c) rm false

/-- FDOT2 (R184). -/
def dot2 (rm : RMode) (a b : Word) : Word × FFlags :=
  let v (n : Nat) := Fmt.bf16.value n
  let x := (v (lowHalf a)).mul (v (lowHalf b))
  let y := (v (highHalf a)).mul (v (highHalf b))
  let (r, fl) := roundTo .fp32 (x.add rm y) rm false
  (BitVec.ofNat 32 r, fl)

/-! ### Single-operand functions (R176 to R180) -/

/-- ⌊√n⌋ for n below 2^(2k), by bits from the top. -/
def isqrtGo (n : Nat) : Nat → Nat → Nat
  | 0, r => r
  | k + 1, r => if (r + 2 ^ k) * (r + 2 ^ k) ≤ n then isqrtGo n k (r + 2 ^ k) else isqrtGo n k r
def isqrt (n : Nat) : Nat := isqrtGo n 70 0

/-- A value with a sticky bit below `m`, set when the exact value has more. -/
def sticky (neg : Bool) (m : Nat) (e : Int) (more : Bool) : FVal := .fin neg (2 * m + b2n more) (e - 1)

/-- m × 2^e with an even exponent. -/
def evenExp (m : Nat) (e : Int) : Nat × Int := if e % 2 == 0 then (m, e) else (2 * m, e - 1)

/-- Rounds to FP32 as a word. -/
def to32 (x : FVal) (rm : RMode) : Word × FFlags :=
  let (r, fl) := roundTo .fp32 x rm false
  (BitVec.ofNat 32 r, fl)

def val32 (a : Word) : FVal := Fmt.fp32.value a.toNat
def nan32 : Word := 0x7FC00000

/-- FRCP (Table 7-7). -/
def frcpW (rm : RMode) (a : Word) : Word × FFlags :=
  match val32 a with
  | .nan s => to32 (.nan s) rm
  | .inf n => to32 (.zero n) rm
  | .zero n => ((to32 (.inf n) rm).1, flagDZ)
  | .fin n m e =>
    let k := 64 + m.log2
    to32 (sticky n (2 ^ k / m) (-(k : Int) - e) (2 ^ k % m != 0)) rm

/-- FRSQ (Table 7-7). -/
def frsqW (rm : RMode) (a : Word) : Word × FFlags :=
  match val32 a with
  | .nan s => to32 (.nan s) rm
  | .inf true => (nan32, flagNV)
  | .inf false => (0, 0)
  | .zero n => ((to32 (.inf n) rm).1, flagDZ)
  | .fin true _ _ => (nan32, flagNV)
  | .fin false m e =>
    let (m2, e2) := evenExp m e
    let y := isqrt (2 ^ 128 / m2)
    to32 (sticky false y (-64 - e2 / 2) (y * y * m2 != 2 ^ 128)) rm

/-- FSQRT (Table 7-7). -/
def fsqrtW (rm : RMode) (a : Word) : Word × FFlags :=
  match val32 a with
  | .nan s => to32 (.nan s) rm
  | .inf true => (nan32, flagNV)
  | .inf false => (a, 0)
  | .zero _ => (a, 0)
  | .fin true _ _ => (nan32, flagNV)
  | .fin false m e =>
    let (m2, e2) := evenExp m e
    let y := isqrt (m2 * 2 ^ 80)
    to32 (sticky false y (e2 / 2 - 40) (y * y != m2 * 2 ^ 80)) rm

/-- FRND (R178). -/
def frndW (rm : RMode) (a : Word) : Word × FFlags :=
  match val32 a with
  | .nan s => to32 (.nan s) rm
  | .inf _ => (a, 0)
  | .zero _ => (a, 0)
  | .fin n m e =>
    if 0 ≤ e then (a, 0)
    else
      let (r, rest) := rndInt rm n m e
      let w := if r == 0 then (to32 (.zero n) rm).1 else (to32 (.fin n r 0) rm).1
      (w, if rest then flagNX else 0)

/-- FCLASS (Table 7-9). -/
def fclassW (a : Word) : Word :=
  let normal (m : Nat) : Bool := 2 ^ 23 ≤ m
  let bit : Nat := match val32 a with
    | .inf true => 0
    | .fin true m _ => if normal m then 1 else 2
    | .zero true => 3
    | .zero false => 4
    | .fin false m _ => if normal m then 6 else 5
    | .inf false => 7
    | .nan true => 8
    | .nan false => 9
  BitVec.ofNat 32 (2 ^ bit)

/-! ### The approximated functions (R179), by fixed-point series of 400 fraction bits -/

/-- Fraction bits of the fixed-point numbers. -/
def fxp : Nat := 400
def fx1 : Nat := 2 ^ fxp

/-- Σ x^k / k! to 80 terms, for x in [0, 1). -/
def expGo (x : Nat) : Nat → Nat → Nat
  | 0, r => r
  | k + 1, r => expGo x k (fx1 + x * r / fx1 / (k + 1))
def expFx (x : Nat) : Nat := expGo x 80 fx1

/-- Σ z^(2k+1) / (2k+1), the inverse hyperbolic tangent, with z² = `z2`. -/
def atanhGo (z2 : Nat) : Nat → Nat → Nat
  | 0, r => r
  | k + 1, r => atanhGo z2 k (fx1 / (2 * k + 1) + z2 * r / fx1)
def atanhFx (z : Nat) : Nat := z * atanhGo (z * z / fx1) 130 0 / fx1
/-- ln 2 = 2 atanh(1/3). -/
def ln2Fx : Nat := 2 * atanhFx (fx1 / 3)

/-- arctan(1/n) = Σ (−1)^k / ((2k+1) n^(2k+1)), the even and the odd terms kept apart. -/
def atanGo (n : Nat) : Nat → Nat → Nat → Nat → Nat × Nat
  | 0, _, p, q => (p, q)
  | k + 1, j, p, q =>
    let t := fx1 / n ^ (2 * j + 1) / (2 * j + 1)
    if j % 2 == 0 then atanGo n k (j + 1) (p + t) q else atanGo n k (j + 1) p (q + t)
def atanFx (n : Nat) : Nat := (atanGo n 90 0 0 0).1 - (atanGo n 90 0 0 0).2
/-- π = 16 arctan(1/5) − 4 arctan(1/239). -/
def piFx : Nat := 16 * atanFx 5 - 4 * atanFx 239

/-- sin x for x in [0, π/2]. -/
def sinGo (x2 : Nat) : Nat → Nat → Nat
  | 0, r => r
  | k + 1, r => sinGo x2 k (fx1 - x2 * r / fx1 / ((2 * k + 2) * (2 * k + 3)))
def sinFx (x : Nat) : Nat := x * sinGo (x * x / fx1) 50 fx1 / fx1

/-- An approximated result: one of the two FP32 values that bracket the exact value, whose magnitude is `m` × 2^e to far
beyond FP32's precision and is no FP32 value (R179). -/
def faithful (neg : Bool) (m : Nat) (e : Int) (up : Bool) : Word × FFlags :=
  let c := if m == 0 then 0 else (roundTo .fp32 (.fin false m e) .rz false).1
  let r := if up then c + 1 else c
  (BitVec.ofNat 32 (Fmt.fp32.signed neg r), if r < 2 ^ 23 then flagUF ||| flagNX else flagNX)

/-- ±m × 2^e as a count of 2^−400; every FP32 value is one. -/
def toFx (m : Nat) (e : Int) : Nat := m * 2 ^ (e + fxp).toNat

/-- A word's magnitude bits. -/
def magBits (a : Word) : Word := a &&& 0x7FFFFFFF

/-- FEXP2 (Table 7-8). -/
def fexp2W (a : Word) : Word × FFlags :=
  match val32 a with
  | .nan s => to32 (.nan s) .rne
  | .inf true => (0, 0)
  | .inf false => (a, 0)
  | .zero _ => (0x3F800000, 0)
  | .fin neg m e =>
    if !neg && 7 ≤ e + m.log2 then (0x7F800000, flagOF ||| flagNX)
    else if neg && 10 ≤ e + m.log2 then (0, flagUF ||| flagNX)
    else
      let x : Int := if neg then -(toFx m e : Int) else toFx m e
      let n : Int := x / fx1
      let f := (x % fx1).toNat
      if n < -151 || (n == -151 && f == 0) then (0, flagUF ||| flagNX)
      else if f == 0 && -149 ≤ n then to32 (.fin false 1 n) .rne
      else faithful false (expFx (f * ln2Fx / fx1)) (n - fxp) (Config.approxUp 4 a)

/-- FLOG2 (Table 7-8). -/
def flog2W (a : Word) : Word × FFlags :=
  match val32 a with
  | .nan s => to32 (.nan s) .rne
  | .inf true => (nan32, flagNV)
  | .inf false => (a, 0)
  | .zero _ => (0xFF800000, flagDZ)
  | .fin true _ _ => (nan32, flagNV)
  | .fin false m e =>
    let l := m.log2
    let n : Int := e + l
    if m == 2 ^ l then
      (if n == 0 then (0, 0) else to32 (.fin (n < 0) n.natAbs 0) .rne)
    else
      let ln := 2 * atanhFx ((m - 2 ^ l) * fx1 / (m + 2 ^ l))
      let t : Int := n * fx1 + (ln * fx1 / ln2Fx : Nat)
      faithful (t < 0) t.natAbs (-(fxp : Int)) (Config.approxUp 5 a)

/-- FTANH (Table 7-8). -/
def ftanhW (a : Word) : Word × FFlags :=
  match val32 a with
  | .nan s => to32 (.nan s) .rne
  | .inf neg => (BitVec.ofNat 32 (Fmt.fp32.signed neg 0x3F800000), 0)
  | .zero _ => (a, 0)
  | .fin neg m e =>
    if e + m.log2 < -12 then (a, if m < 2 ^ 23 then flagUF ||| flagNX else flagNX)
    else if 10 * fx1 ≤ toFx m e then (BitVec.ofNat 32 (Fmt.fp32.signed neg 0x3F800000), flagNX)
    else
      let t := 2 * toFx m e * fx1 / ln2Fx
      let y := expFx (t % fx1 * ln2Fx / fx1) * 2 ^ (t / fx1)
      faithful neg ((y - fx1) * fx1 / (y + fx1)) (-(fxp : Int)) (Config.approxUp 6 (magBits a))

/-- |a| mod 2 as a count of 2^−400. -/
def mod2Fx (m : Nat) (e : Int) : Nat := if 1 ≤ e then 0 else toFx m e % (2 * fx1)

/-- FSIN: sin(πa) (Table 7-8). -/
def fsinW (a : Word) : Word × FFlags :=
  match val32 a with
  | .nan s => to32 (.nan s) .rne
  | .inf _ => (nan32, flagNV)
  | .zero _ => (a, 0)
  | .fin neg m e =>
    let r := mod2Fx m e
    if r % fx1 == 0 then (BitVec.ofNat 32 (Fmt.fp32.signed neg 0), 0)
    else if 2 * r % fx1 == 0 then
      -- a = n + 0.5 with n = ⌊a⌋, whose parity is that of ⌊|a|⌋ for a > 0 and its complement for a < 0
      (if (decide (fx1 < r)) == neg then (0x3F800000, 0) else (0xBF800000, 0))
    else
      let q := r % fx1
      let q := if fx1 < 2 * q then fx1 - q else q
      faithful (neg != decide (fx1 < r)) (sinFx (q * piFx / fx1)) (-(fxp : Int)) (Config.approxUp 7 (magBits a))

/-- FCOS: cos(πa) (Table 7-8). -/
def fcosW (a : Word) : Word × FFlags :=
  match val32 a with
  | .nan s => to32 (.nan s) .rne
  | .inf _ => (nan32, flagNV)
  | .zero _ => (0x3F800000, 0)
  | .fin _ m e =>
    let r := mod2Fx m e
    if r % fx1 == 0 then (if r == 0 then (0x3F800000, 0) else (0xBF800000, 0))
    else if 2 * r % fx1 == 0 then (0, 0)
    else
      let p := if fx1 < r then 2 * fx1 - r else r
      let neg := decide (fx1 < 2 * p)
      let q := if neg then fx1 - p else p
      faithful neg (sinFx ((fx1 / 2 - q) * piFx / fx1)) (-(fxp : Int)) (Config.approxUp 8 (magBits a))

/-! ### Compares and conversions (R181 to R183) -/

/-- Whether a compare is unordered. -/
def unordered (a b : Word) : Bool := (val32 a).isNan || (val32 b).isNan
/-- NV for a signalling NaN, or for any NaN. -/
def cmpFlags (anyNan : Bool) (a b : Word) : FFlags :=
  if (val32 a).isSig || (val32 b).isSig || (anyNan && unordered a b) then flagNV else 0
def key32 (a : Word) : Int := Fmt.fp32.key false a.toNat

/-- FP32 to a signed or natural integer (Table 7-11). -/
def toInteger (signed : Bool) (rm : RMode) (a : Word) : Word × FFlags :=
  let hi : Word := if signed then 0x7FFFFFFF else 0xFFFFFFFF
  let lo : Word := if signed then 0x80000000 else 0
  let top : Int := if signed then 2 ^ 31 else 2 ^ 32
  let bottom : Int := if signed then -(2 ^ 31) else 0
  match val32 a with
  | .nan _ => (0, flagNV)
  | .inf neg => (if neg then lo else hi, flagNV)
  | .zero _ => (0, 0)
  | .fin neg m e =>
    let (n, rest) := rndInt rm neg m e
    let v : Int := if neg then -(n : Int) else n
    if top ≤ v then (hi, flagNV)
    else if v < bottom then (lo, flagNV)
    else (BitVec.ofInt 32 v, if rest then flagNX else 0)

/-- An integer as an exact value; zero is +0. -/
def intVal (n : Int) : FVal := if n == 0 then .zero false else .fin (n < 0) n.natAbs 0

/-- Two FP32 values rounded to the halves of a word. -/
def narrow2 (f : Fmt) (rm : RMode) (a b : Word) : Word × FFlags :=
  let (l, fl) := roundTo f (val32 a) rm false
  let (h, fh) := roundTo f (val32 b) rm false
  (packHalves l h, fl ||| fh)

/-- A half widened to FP32. -/
def widen (f : Fmt) (a b : Word) : Word × FFlags :=
  to32 (f.value (if bitOf b.toNat 0 then highHalf a else lowHalf a)) .rne

/-! ### Shapes -/

/-- The rounding mode of a thread (Table 5-3). -/
def Thread.rmode (t : Thread) : RMode := RMode.ofCode t.rm.toNat

/-- A lane that is done with one result and its flags. -/
def doneFlags (r : Word × FFlags) : LaneOut := .done { vals := [r.1], ff := r.2, sb := none, tag := none }

/-- A word of two operands that rounds in RM of its thread. -/
def State.fpA (s : State) (i : Instr) (o : OpA) (f : RMode → Word → Word → Word × FFlags) : State :=
  s.laneWord i o.s o.g [o.a, o.b] o.lit (.vec 1 o.d) true fun s k ws =>
    doneFlags (f (s.thread k).rmode (val ws 0) (val ws 1))

/-- A word of three operands that rounds in RM of its thread. -/
def State.fpT (s : State) (i : Instr) (o : OpT) (f : RMode → Word → Word → Word → Word × FFlags) : State :=
  s.laneWord i o.s o.g [o.a, o.b, o.e] o.lit (.vec 1 o.d) true fun s k ws =>
    doneFlags (f (s.thread k).rmode (val ws 0) (val ws 1) (val ws 2))

/-- A compare of two FP32 operands. -/
def State.fpCmp (s : State) (i : Instr) (o : OpA) (anyNan : Bool) (f : Word → Word → Bool) : State :=
  s.laneWord i o.s o.g [o.a, o.b] o.lit (.pred o.d) false fun _ _ ws =>
    doneFlags (BitVec.ofNat 32 (b2n (f (val ws 0) (val ws 1))), cmpFlags anyNan (val ws 0) (val ws 1))

/-- A fused multiply-add on each BF16 half (R175). -/
def fmaHalves (rm : RMode) (a b c : Word) : Word × FFlags :=
  let v (n : Nat) := Fmt.bf16.value n
  let (l, fl) := fmaCode .bf16 rm (v (lowHalf a)) (v (lowHalf b)) (v (lowHalf c))
  let (h, fh) := fmaCode .bf16 rm (v (highHalf a)) (v (highHalf b)) (v (highHalf c))
  (packHalves l h, fl ||| fh)

/-- A fused multiply-add on FP32, the first source negated or not (R175). -/
def fma32 (negate : Bool) (rm : RMode) (a b c : Word) : Word × FFlags :=
  let x := if negate then (val32 a).neg else val32 a
  let (r, fl) := fmaCode .fp32 rm x (val32 b) (val32 c)
  (BitVec.ofNat 32 r, fl)

/-! ### Granules (R185 to R187) -/

/-- The element format of a format word, for codes 0 to 5. -/
def elementFmt (c : Nat) : Fmt :=
  match c with
  | 0 => .e4m3
  | 1 => .e5m2
  | 2 => .e2m3
  | 3 => .e3m2
  | 4 => .e2m1
  | _ => .int8

/-- EMAXE (Table 7-12). -/
def Fmt.emaxe : Fmt → Int
  | .e4m3 => 8
  | .e5m2 => 15
  | .e2m3 => 2
  | .e3m2 => 4
  | .e2m1 => 2
  | _ => 0

/-- Whether a format word of MXPACK or MXUNPK is legal (R185). -/
def formatOk (w : Word) : Bool := bitsOf w.toNat 31 4 == 0 && bitsOf w.toNat 2 0 < 6

/-- Splits lanes into octets by lane number, and answers for each octet. -/
def byOctet {α : Type} (ins : List (Nat × α)) (f : List (Nat × α) → List (Nat × LaneOut)) : List (Nat × LaneOut) :=
  (List.range 8).flatMap fun o =>
    let l := ins.filter fun p => laneOf p.1 / 8 == o
    if l.isEmpty then []
    else match octetMismatch (l.map fun p => p.1) with
      | some k => l.map fun p => (p.1, .trap (mismatch (laneOf k)))
      | none => f l

/-- ⌊log2 |v|⌋ of a finite value that is not zero. -/
def FVal.log : FVal → Option Int
  | .fin _ m e => some (e + m.log2)
  | _ => none

/-- v × 2^n. -/
def FVal.scale (v : FVal) (n : Int) : FVal :=
  match v with
  | .fin s m e => .fin s m (e + n)
  | x => x

/-- MXPACK over the active lanes of one octet, each with its four values (R186). -/
def packOctet (s : State) (f : Fmt) (sat : Bool) (l : List (Nat × List Word)) : List (Nat × LaneOut) :=
  let rmOf (k : Nat) := (s.thread k).rm
  match l with
  | [] => []
  | p0 :: r =>
    match r.find? (fun p => rmOf p.1 != rmOf p0.1) with
    | some p => l.map fun q => (q.1, .trap (mismatch (laneOf p.1)))
    | none =>
      let rm := RMode.ofCode (rmOf p0.1).toNat
      let vs := l.flatMap fun p => (p.2.take 4).map val32
      let special := vs.any fun v => match v with
        | .nan _ => true
        | .inf _ => true
        | _ => false
      if special then l.map fun p => (p.1, .done { vals := [0], ff := flagNV, sb := some 0xFF, tag := none })
      else
        let x : Int := match (vs.filterMap FVal.log).max? with
          | none => -127
          | some e => max (-127) (min 127 (e - f.emaxe))
        l.map fun p =>
          let rs := (p.2.take 4).map fun w => roundTo f ((val32 w).scale (-x)) rm sat
          let w := rs.foldr (fun b acc => acc * 256 + b.1) 0
          let fl := rs.foldl (fun acc b => acc ||| b.2) (0 : FFlags)
          (p.1, .done { vals := [BitVec.ofNat 32 w], ff := fl, sb := some (BitVec.ofInt 8 (x + 127)), tag := none })

/-- One element of MXUNPK (R187). -/
def unpackElement (f : Fmt) (rm : RMode) (scale byte : Nat) : Word × FFlags :=
  if scale == 255 then (nan32, 0)
  else match f.value byte with
    | .nan _ => (nan32, 0)
    | v => to32 (v.scale ((scale : Int) - 127)) rm

/-! ### The words -/

/-- FADD (R174). -/
def execFadd (ty : FType) (o : OpA) (s : State) : Outcome :=
  .next (s.fpA (.fadd ty o) o (typedOp ty opAdd))

/-- FSUB (R174). -/
def execFsub (ty : FType) (o : OpA) (s : State) : Outcome :=
  .next (s.fpA (.fsub ty o) o (typedOp ty opSub))

/-- FMUL (R174). -/
def execFmul (ty : FType) (o : OpA) (s : State) : Outcome :=
  .next (s.fpA (.fmul ty o) o (typedOp ty opMul))

/-- FMIN (R174). -/
def execFmin (ty : FType) (o : OpA) (s : State) : Outcome :=
  .next (s.fpA (.fmin ty o) o (typedOp ty opMin))

/-- FMAX (R174). -/
def execFmax (ty : FType) (o : OpA) (s : State) : Outcome :=
  .next (s.fpA (.fmax ty o) o (typedOp ty opMax))

/-- FSCALE (R174). -/
def execFscale (ty : FType) (o : OpA) (s : State) : Outcome :=
  .next (s.fpA (.fscale ty o) o (typedOp ty opScale))

/-- FMA.f32 (R175). -/
def execFmaF32 (o : OpT) (s : State) : Outcome :=
  .next (s.fpT (.fmaF32 o) o (fma32 false))

/-- FMA.f32 with the first source negated (R175). -/
def execFmaF32Neg (o : OpT) (s : State) : Outcome :=
  .next (s.fpT (.fmaF32Neg o) o (fma32 true))

/-- FMA.bf16 (R175). -/
def execFmaBf16 (o : OpT) (s : State) : Outcome :=
  .next (s.fpT (.fmaBf16 o) o fmaHalves)

/-- FABS: bit 31 cleared, no flag (R177). -/
def execFabs (o : OpA) (s : State) : Outcome :=
  .next (s.fpA (.fabs o) o fun _ a _ => (magBits a, 0))

/-- FRCP. -/
def execFrcp (o : OpA) (s : State) : Outcome :=
  .next (s.fpA (.frcp o) o fun rm a _ => frcpW rm a)

/-- FRSQ. -/
def execFrsq (o : OpA) (s : State) : Outcome :=
  .next (s.fpA (.frsq o) o fun rm a _ => frsqW rm a)

/-- FSQRT. -/
def execFsqrt (o : OpA) (s : State) : Outcome :=
  .next (s.fpA (.fsqrt o) o fun rm a _ => fsqrtW rm a)

/-- FRND. -/
def execFrnd (o : OpA) (s : State) : Outcome :=
  .next (s.fpA (.frnd o) o fun rm a _ => frndW rm a)

/-- FEXP2 (R179). (DESIGN CHOICE, log 12.) -/
def execFexp2 (o : OpA) (s : State) : Outcome :=
  .next (s.fpA (.fexp2 o) o fun _ a _ => fexp2W a)

/-- FLOG2 (R179). (DESIGN CHOICE, log 12.) -/
def execFlog2 (o : OpA) (s : State) : Outcome :=
  .next (s.fpA (.flog2 o) o fun _ a _ => flog2W a)

/-- FTANH (R179). (DESIGN CHOICE, log 12.) -/
def execFtanh (o : OpA) (s : State) : Outcome :=
  .next (s.fpA (.ftanh o) o fun _ a _ => ftanhW a)

/-- FSIN (R179). (DESIGN CHOICE, log 12.) -/
def execFsin (o : OpA) (s : State) : Outcome :=
  .next (s.fpA (.fsin o) o fun _ a _ => fsinW a)

/-- FCOS (R179). (DESIGN CHOICE, log 12.) -/
def execFcos (o : OpA) (s : State) : Outcome :=
  .next (s.fpA (.fcos o) o fun _ a _ => fcosW a)

/-- FCLASS (R180). -/
def execFclass (o : OpA) (s : State) : Outcome :=
  .next (s.fpA (.fclass o) o fun _ a _ => (fclassW a, 0))

/-- FDOT2 (R184). -/
def execFdot2 (o : OpA) (s : State) : Outcome :=
  .next (s.fpA (.fdot2 o) o dot2)

/-- MXPACK (R186). -/
def execMxpack (o : OpA) (s : State) : Outcome :=
  .next (s.groupWord (.mxpack o) o.s o.g (codesFrom o.a 4 ++ [o.b]) o.lit (.vec 1 o.d) true fun s ins =>
    uniformly (fun ws => val ws 4) ins s
      (let w := val (lead ins) 4
       if !formatOk w then (s, ins.map fun p => (p.1, .trap (badOperand (.mxpack o))))
       else (s, byOctet ins (packOctet s (elementFmt (bitsOf w.toNat 2 0)) (bitOf w.toNat 3)))))

/-- MXUNPK (R187): the octet's scale is the sideband copy of slot A. -/
def execMxunpk (o : OpA) (s : State) : Outcome :=
  .next (s.groupWord (.mxunpk o) o.s o.g [o.a, o.b] o.lit (.vec 4 o.d) true fun s ins =>
    uniformly (fun ws => val ws 1) ins s
      (let w := val (lead ins) 1
       if !formatOk w then (s, ins.map fun p => (p.1, .trap (badOperand (.mxunpk o))))
       else (s, byOctet ins fun l => l.map fun p =>
         let t := s.thread p.1
         let scale := match t.view.vs[o.a.toNat]? with
           | none => 0
           | some v => v.sb.toNat
         let rs := (List.range 4).map fun j =>
           unpackElement (elementFmt (bitsOf w.toNat 2 0)) t.rmode scale ((val p.2 0).toNat / 256 ^ j % 256)
         (p.1, .done { vals := rs.map fun r => r.1, ff := rs.foldl (fun acc r => acc ||| r.2) 0, sb := none, tag := none }))))

/-- FCMP.eq (Table 7-10). -/
def execFcmpEq (o : OpA) (s : State) : Outcome :=
  .next (s.fpCmp (.fcmpEq o) o false (fun a b => !unordered a b && key32 a == key32 b))

/-- FCMP.ne (Table 7-10). -/
def execFcmpNe (o : OpA) (s : State) : Outcome :=
  .next (s.fpCmp (.fcmpNe o) o false (fun a b => unordered a b || key32 a != key32 b))

/-- FCMP.lt (Table 7-10). -/
def execFcmpLt (o : OpA) (s : State) : Outcome :=
  .next (s.fpCmp (.fcmpLt o) o true (fun a b => !unordered a b && decide (key32 a < key32 b)))

/-- FCMP.le (Table 7-10). -/
def execFcmpLe (o : OpA) (s : State) : Outcome :=
  .next (s.fpCmp (.fcmpLe o) o true (fun a b => !unordered a b && decide (key32 a ≤ key32 b)))

/-- FCMP.gt (Table 7-10). -/
def execFcmpGt (o : OpA) (s : State) : Outcome :=
  .next (s.fpCmp (.fcmpGt o) o true (fun a b => !unordered a b && decide (key32 b < key32 a)))

/-- FCMP.ge (Table 7-10). -/
def execFcmpGe (o : OpA) (s : State) : Outcome :=
  .next (s.fpCmp (.fcmpGe o) o true (fun a b => !unordered a b && decide (key32 b ≤ key32 a)))

/-- FCMP.un (Table 7-10). -/
def execFcmpUn (o : OpA) (s : State) : Outcome :=
  .next (s.fpCmp (.fcmpUn o) o false unordered)

/-- FCVT.bf16.f32 (R182). -/
def execFcvtBf16F32 (o : OpA) (s : State) : Outcome :=
  .next (s.fpA (.fcvtBf16F32 o) o (narrow2 .bf16))

/-- FCVT.f16.f32 (R182). -/
def execFcvtF16F32 (o : OpA) (s : State) : Outcome :=
  .next (s.fpA (.fcvtF16F32 o) o (narrow2 .fp16))

/-- FCVT.f32.bf16 (R182). -/
def execFcvtF32Bf16 (o : OpA) (s : State) : Outcome :=
  .next (s.fpA (.fcvtF32Bf16 o) o fun _ a b => widen .bf16 a b)

/-- FCVT.f32.f16 (R182). -/
def execFcvtF32F16 (o : OpA) (s : State) : Outcome :=
  .next (s.fpA (.fcvtF32F16 o) o fun _ a b => widen .fp16 a b)

/-- FCVT.s32.f32 (R183). -/
def execFcvtS32F32 (o : OpA) (s : State) : Outcome :=
  .next (s.fpA (.fcvtS32F32 o) o fun rm a _ => toInteger true rm a)

/-- FCVT.f32.s32 (R182). -/
def execFcvtF32S32 (o : OpA) (s : State) : Outcome :=
  .next (s.fpA (.fcvtF32S32 o) o fun rm a _ => to32 (intVal a.toInt) rm)

/-- FCVT.n32.f32 (R183). -/
def execFcvtN32F32 (o : OpA) (s : State) : Outcome :=
  .next (s.fpA (.fcvtN32F32 o) o fun rm a _ => toInteger false rm a)

/-- FCVT.f32.n32 (R182). -/
def execFcvtF32N32 (o : OpA) (s : State) : Outcome :=
  .next (s.fpA (.fcvtF32N32 o) o fun rm a _ => to32 (intVal a.toNat) rm)

end Sys2Proof.Machine
end

