-- ==== Sys2Proof/Machine/Register.lean ====
section
/-! DEFINITION. Register instructions (05_registers): moves, special registers, rig registers and the partition pool.
STAGE, SPILLV and FILLV stand in Spill. -/

namespace Sys2Proof.Machine

/-! ### MOV, MOVS, SEL (R142) -/

/-- MOV: from a vector slot it copies the octet's byte as well (R138, Table 5-2). -/
def execMov (o : OpA) (s : State) : Outcome :=
  .next (if o.a.toNat < 16 then
    s.groupWord (.mov o) o.s o.g [o.a] o.lit (.vec 1 o.d) true fun s ins =>
      (s, byOctet ins fun l => l.map fun p =>
        let sb := ((s.thread p.1).view.vs[o.a.toNat]?).map fun v => v.sb
        (p.1, .done { vals := [val p.2 0], ff := 0, sb := sb, tag := none }))
  else s.vecA (.mov o) o fun _ a _ => a)

/-- MOVS: each yard's uniform slot takes the value of its lowest active lane. (DEDUCED, log 33.) -/
def execMovs (o : OpA) (s : State) : Outcome :=
  .next (s.laneWord (.movs o) o.s o.g [o.a] o.lit (.uni 1 o.d) true fun _ _ ws => doneWith [val ws 0])

/-- SEL. -/
def execSel (o : OpT) (s : State) : Outcome :=
  .next (s.laneWord (.sel o) o.s o.g [o.a, o.b] o.lit (.vec 1 o.d) true fun s k ws =>
    doneWith [if s.pval k o.e then val ws 0 else val ws 1])

/-! ### Special registers (Table 5-3) -/

/-- The thread index: 64 × YARDNO + lane (R61). -/
def State.tidx (s : State) (k : Nat) : Nat := 64 * (s.yard (yardOf k)).bind.yardno.toNat + laneOf k

/-- The value of special register `n` for a thread; `none` above 0x10. -/
def State.readSpecial (s : State) (k n : Nat) : Option Word :=
  let t := s.thread k
  let y := s.yard (yardOf k)
  let core := coreOf k
  match n with
  | 0x00 => some (t.view.ra.zeroExtend 32)
  | 0x01 => some (t.rm.zeroExtend 32)
  | 0x02 => some (t.ff.zeroExtend 32)
  | 0x03 => some (t.view.preds.zeroExtend 32)
  | 0x04 => some (BitVec.ofNat 32 (laneOf k))
  | 0x05 => some (BitVec.ofNat 32 (s.tidx k))
  | 0x06 => some (BitVec.ofNat 32 (core / 4 * 1024 + core % 4 * 256 + slotOf k))
  | 0x07 => some (BitVec.ofNat 32 (y.bind.world.toNat * 256 + y.bind.context.toNat))
  | 0x08 => some (s.heldPool k).1
  | 0x09 => some (s.heldPool k).2
  | 0x0A => some (DWord.lo (s.heldSpl k).1)
  | 0x0B => some (DWord.hi (s.heldSpl k).1)
  | 0x0C => some (DWord.lo (s.heldSpl k).2)
  | 0x0D => some (DWord.hi (s.heldSpl k).2)
  | 0x0E => some (DWord.lo (s.core core).cyc)
  | 0x0F => some t.cychi
  | 0x10 =>
    match s.heldRig k with
    | none => some 64
    | some (_, o) => some (BitVec.ofNat 32 o)
  | _ => none

/-- RDSR in one lane: reading CYCLO latches CYCHI in the thread (R140). -/
def State.rdsrLane (s : State) (i : Instr) (k n : Nat) : State × LaneOut :=
  match s.readSpecial k n with
  | none => (s, .trap (badOperand i))
  | some v =>
    (if n == 0x0E then s.modThread k fun t => { t with cychi := DWord.hi (s.core (coreOf k)).cyc } else s, doneWith [v])

/-- RDSR. -/
def execRdsr (o : OpA) (s : State) : Outcome :=
  .next (s.groupWord (.rdsr o) o.s o.g [o.a] o.lit (.vec 1 o.d) true fun s ins =>
    uniformly (fun ws => val ws 0) ins s (s.eachLane ins fun s k ws => s.rdsrLane (.rdsr o) k (val ws 0).toNat))

/-- A thread-level special register written; `none` where the write is refused (Table 5-3). -/
def Thread.writeSpecial (t : Thread) (n : Nat) (v : Word) : Option Thread :=
  match n with
  | 0x00 => some { t with ra := v.extractLsb' 0 16 }
  | 0x01 => if v.toNat % 8 < 5 then some { t with rm := v.extractLsb' 0 3 } else none
  | 0x02 => some { t with ff := v.extractLsb' 0 5 }
  | 0x03 => some { t with preds := v.extractLsb' 0 8 }
  | _ => none

/-- A yard-level special register written; `none` for one that is not a writable yard register. -/
def Yard.writeSpecial (y : Yard) (n : Nat) (v : Word) : Option Yard :=
  let low := v &&& 0xFFFFFFC0
  match n with
  | 0x0A => some { y with splbase := dw low (DWord.hi y.splbase) }
  | 0x0B => some { y with splbase := dw (DWord.lo y.splbase) v }
  | 0x0C => some { y with spllim := dw low (DWord.hi y.spllim) }
  | 0x0D => some { y with spllim := dw (DWord.lo y.spllim) v }
  | _ => none

/-- WRSR of a thread-level register in one lane. -/
def State.wrsrLane (s : State) (i : Instr) (k n : Nat) (v : Word) : State × LaneOut :=
  match (s.thread k).writeSpecial n v with
  | none => (s, .trap (badOperand i))
  | some t => (s.setThread k t, doneWith [])

/-- WRSR: a yard-level register takes the value of the yard's lowest active lane (Table 5-1). -/
def execWrsr (o : OpA) (s : State) : Outcome :=
  .next (s.groupWord (.wrsr o) o.s o.g [o.a, o.b] o.lit .none false fun s ins =>
    uniformly (fun ws => val ws 0) ins s
      (let n := (val (lead ins) 0).toNat
       if 0x0A ≤ n && n ≤ 0x0D then
         s.eachYard ins (fun _ => 0) fun s y l =>
           (s.modYard y fun x => (x.writeSpecial n (val (lead l) 1)).getD x, allDone l [])
       else s.eachLane ins fun s k ws => s.wrsrLane (.wrsr o) k n (val ws 1)))

/-! ### GMOV (R143) -/

/-- GMOV: once per yard, read and write at the holder as one action. (DEDUCED, log 22.) -/
def execGmov (o : OpA) (s : State) : Outcome :=
  .next (s.groupWord (.gmov o) o.s o.g [o.a, o.b] o.lit (.uni 1 o.d) true fun s ins =>
    s.eachYard ins (fun ws => ws) fun s y l =>
      let a := (val (lead l) 0).toNat
      let b := val (lead l) 1
      let n := 192 + bitsOf a 5 0
      if bitsOf a 31 9 != 0 || bitsOf a 7 6 != 0 || (s.uhome y n).isNone then (s, allTrap l (badOperand (.gmov o)))
      else (if bitOf a 8 then s.setUreg y n b else s, allDone l [s.ureg y n]))

/-! ### HOIST and REEF (R144) -/

/-- HOIST. (DEDUCED, log 22.) -/
def execHoist (o : OpA) (s : State) : Outcome :=
  .next (s.groupWord (.hoist o) o.s o.g [o.a] o.lit .none false fun s ins =>
    if !s.yardScoped o.s then (s, allTrap ins (badOperand (.hoist o)))
    else s.eachYard ins (fun ws => val ws 0) fun s y l =>
      let k := (val (lead l) 0).toNat
      let p := yardPart y
      let held := (s.yard y).chunks
      if 7 < k || 24 < k + (s.residentYards p).length then (s, allTrap l (trapOf 0x10 1))
      else if k ≤ held then (s, allDone l [])
      else if (s.part p).hoistq.isEmpty && k - held ≤ s.poolFree p then (s.grantChunks y k, allDone l [])
      else
        (s.modPart p fun q => { q with hoistq := q.hoistq ++ [{ yard := y, k := k, members := l.map fun x => x.1 }] },
         l.map fun x => (x.1, .park (.blocked .hoist))))

/-- Chunks above `k` return to the pool: their registers' pending tags are released, and slots that name them become
unstaged in every thread of the yard, in a region that a trap has interrupted too (R136). -/
def State.releaseChunks (s : State) (y k : Nat) : State :=
  let gone (r : Nat) : Bool := 32 * (k + 1) ≤ r && r < 256
  let left (d : Option (List Nat × List Nat)) : Option (List Nat × List Nat) :=
    d.map fun r => (r.1.map fun x => if gone x then noReg else x, r.2)
  let s0 := s.modYard y fun v => { v with chunks := k }
  let s1 := { s0 with fab := { s0.fab with owed := s0.fab.owed.filter fun o => !(yardOf o.thread == y && gone o.reg) } }
  (s1.liveLanes y).foldl (fun s j =>
    let s2 := ((s.thread j).tags.filter fun p => gone p.1).foldl (fun s p => s.dropTag j p.1) s
    s2.modThread j fun t =>
      { t with vs := t.vs.map (fun v => if gone v.reg then { v with reg := noReg, wr := false, sbw := false } else v),
               region := left t.region, saved := left t.saved }) s1

/-- REEF; the pool then serves its queue (R135). (DEDUCED, log 22.) -/
def execReef (o : OpA) (s : State) : Outcome :=
  .next (s.groupWord (.reef o) o.s o.g [o.a] o.lit .none false fun s ins =>
    if !s.yardScoped o.s then (s, allTrap ins (badOperand (.reef o)))
    else s.eachYard ins (fun ws => val ws 0) fun s y l =>
      let k := (val (lead l) 0).toNat
      if 7 < k then (s, allTrap l (badOperand (.reef o)))
      else if k < (s.yard y).chunks then ((s.releaseChunks y k).serveHoists (yardPart y) 16, allDone l [])
      else (s, allDone l []))

end Sys2Proof.Machine
end

