-- ==== Sys2Proof/Machine/Access.lean ====
section
/-! DEFINITION. Memory behind the access words: home slices and data caches (09_memory 9.4, 9.5), the directory
(11_coherence 11.3), translation and the POT (12_translation), fault buffers, and the storage that on-chip pointers name. -/

namespace Sys2Proof.Machine

/-! ### Home slices and data caches (R211, R217, R219; 11_coherence R234) -/

def lineAddr (a : Nat) : Nat := a / 64 * 64

/-- The home slice of a line (R234). -/
def sliceOf (pa : Nat) : Nat := (bitsOf pa 21 6 ^^^ bitsOf pa 37 22 ^^^ bitsOf pa 40 38) % 96

/-- The cluster above whose cores a slice lies; slices 56 to 95 lie above the memory controllers (R234). -/
def sliceCluster (n : Nat) : Option Nat := if n < 56 then some (n / 4) else none

/-- The key of a word in a core's data cache. -/
def dkey (core wa : Nat) : Nat := core * 2 ^ 56 + wa

def State.cached (s : State) (core wa : Nat) : Option CWord := Map.find? s.mem.dcache (dkey core wa)

/-- The value that the home slice of a word answers: the last write that it has recorded, else memory's (R217, R219). -/
def State.homeWord (s : State) (wa : Nat) : Word := (Map.find? s.mem.l2 wa).getD (s.mem.bytes.word wa)

/-- Whether the device keeps copies of a word: a TD9-X caches no host-homed line (R247). -/
def State.caches (s : State) (wa : Nat) : Bool := !s.fitX || s.isDev wa

/-- Whether a word lies in the memory of an expander, which a TD9-H reaches as host-homed lines (21_neardata R435).
(DESIGN CHOICE, log 151.) -/
def State.inExpander (s : State) (wa : Nat) : Bool := !s.fitX && !s.isDev wa && Config.expander (lineAddr wa)

/-- Whether the device's own home slices keep what it writes to a word: a write to an expander's memory is performed there, and
makes the device no holder (21_neardata R435). (DESIGN CHOICE, log 151.) -/
def State.keepsWrites (s : State) (wa : Nat) : Bool := s.caches wa && !s.inExpander wa

/-- Whether a load with a hint makes its line one that the L2 holds: one with hint 3 does not (R212), and one with hint 2 of an
expander's line does not (21_neardata R435). (DESIGN CHOICE, log 151.) -/
def State.allocates (s : State) (hint wa : Nat) : Bool := hint != 3 && !(2 ≤ hint && s.inExpander wa)

/-- A line is invalid in L2. -/
def State.dropSlice (s : State) (line : Nat) : State :=
  s.setMem { s.mem with slices := Map.mapVals (fun n l => if n == sliceOf line then l.filter (· != line) else l) s.mem.slices }

/-- The home slice of a word comes to hold a value, or the memory that it is written to outside the device, of whose line the L2
then has no copy. -/
def State.setHome (s : State) (wa : Nat) (v : Word) : State :=
  if s.keepsWrites wa then s.setMem { s.mem with l2 := Map.set s.mem.l2 wa v }
  else (s.setMem { s.mem with l2 := Map.del s.mem.l2 wa, bytes := s.mem.bytes.setWord wa v }).dropSlice (lineAddr wa)

/-- No core owns a word, and no valid or owned copy of it is left (Table 9-3). (DESIGN CHOICE, log 36.) -/
def State.dropCopies (s : State) (wa : Nat) : State :=
  s.setMem { s.mem with
    owner := Map.del s.mem.owner wa,
    dcache := s.mem.dcache.filter fun p => !(p.1 % 2 ^ 56 == wa && p.2.st != .pending) }

/-- DEDUCED, log 50. -/
def State.unpoison (s : State) (wa : Nat) : State := s.setMem { s.mem with poison := s.mem.poison.filter (· != wa) }

/-- A write performed at the home slice that follows every write of the word recorded there. -/
def State.homeWrite (s : State) (wa : Nat) (v : Word) : State :=
  let s1 := ((s.setHome wa v).dropCopies wa).unpoison wa
  s1.setMem { s1.mem with writes := Map.del s1.mem.writes wa }

/-! ### The write last in coherence order (R215, R217) -/

/-- A word with some of its bytes replaced. -/
def byMask (mask : BitVec 4) (old v : Word) : Word :=
  let b (i : Nat) : Byte := (if mask.toNat.testBit i then v else old).extractLsb' (8 * i) 8
  b 3 ++ b 2 ++ b 1 ++ b 0

/-- The write of the highest rank, and of one rank the latest. -/
def topWrite (ws : List Write) : Option Write :=
  ws.foldl (fun m x => match m with
    | none => some x
    | some y => if y.rank < x.rank || (y.rank == x.rank && y.num < x.num) then some x else m) none

/-- A word as the writes recorded leave it: each byte has the value of the highest write that covers it. -/
def lastWord (old : Word) (ws : List Write) : Word :=
  let b (i : Nat) : Byte := match topWrite (ws.filter fun x => x.mask.toNat.testBit i) with
    | none => old.extractLsb' (8 * i) 8
    | some x => x.val.extractLsb' (8 * i) 8
  b 3 ++ b 2 ++ b 1 ++ b 0

/-- What a new write leaves of a write recorded before it: it replaces one of its own rank, and one that its thread has seen
(R215). (DESIGN CHOICE, log 35.) -/
def Write.left (x : Write) (rank since : Nat) (mask : BitVec 4) : Write :=
  if x.rank == rank || x.num ≤ since then { x with mask := x.mask &&& ~~~mask } else x

/-- The home slice records a write of a word by a writer of some rank who has seen the first `since` writes; whether it is last
in coherence order for a byte (R217). (DESIGN CHOICE, log 35.) -/
def State.record (s : State) (wa rank since : Nat) (mask : BitVec 4) (v : Word) : State × Bool :=
  let before := ((Map.getD s.mem.writes wa []).map fun x => x.left rank since mask).filter fun x => x.mask != 0
  let new : Write := { rank := rank, num := s.mem.written + 1, mask := mask, val := v }
  let above := before.foldl (fun m x => if rank < x.rank then m ||| x.mask else m) 0
  let s1 := s.setHome wa (lastWord (s.homeWord wa) (new :: before))
  (s1.setMem { s1.mem with writes := Map.set s1.mem.writes wa (new :: before), written := s1.mem.written + 1 },
    (mask &&& ~~~above) != 0)

/-- A write performed at the home slice, and not kept in a data cache. (DESIGN CHOICE, log 36.) -/
def State.homeStore (s : State) (wa rank since : Nat) (mask : BitVec 4) (v : Word) : State :=
  let (s1, last) := s.record wa rank since mask v
  let s2 := if last then s1.dropCopies wa else s1
  if mask == 15 then s2.unpoison wa else s2

/-- An atomic's write, which follows every other write of the word recorded (R215). -/
def State.homeAtomic (s : State) (wa rank : Nat) (v : Word) : State :=
  let s1 := s.homeWrite wa v
  let w : Write := { rank := rank, num := s1.mem.written + 1, mask := 15, val := v }
  s1.setMem { s1.mem with writes := Map.set s1.mem.writes wa [w], written := s1.mem.written + 1 }

/-! ### Lines of the caches -/

/-- Every copy of a line's words in a core's data cache, or in every core's, becomes invalid. -/
def State.dropLine (s : State) (line : Nat) (core : Option Nat) : State :=
  s.setMem { s.mem with
    dcache := s.mem.dcache.filter fun p =>
      !(p.1 % 2 ^ 56 / 64 * 64 == line && (match core with
        | none => true
        | some c => p.1 / 2 ^ 56 == c)),
    dlines := Map.mapVals (fun i l => if core.isNone || core == some i then l.filter (· != line) else l) s.mem.dlines }

/-- The owned words of a line are recalled to their home slice, whose owner is none from then on (R254, R257). -/
def State.recallLine (s : State) (line : Nat) : State :=
  s.setMem { s.mem with
    owner := s.mem.owner.filter fun p => lineAddr p.1 != line,
    dcache := s.mem.dcache.filter fun p => !(lineAddr (p.1 % 2 ^ 56) == line && p.2.st == .owned) }

/-- Fresh keys of a world (19_trust R404). (DESIGN CHOICE, log 11.) -/
def State.drawKeys (s : State) : State × Keys :=
  let draw (i : Nat) : BitVec 256 := (Config.freeKey (s.fresh + i)).setWidth 256
  ({ s with fresh := s.fresh + 3 }, { xts1 := draw 0, xts2 := draw 1, mac := draw 2 })

/-- Sweeps that run (19_trust R407). -/
def State.sweeps (s : State) : Nat := (s.trust.worlds.filter fun p => p.2.sp.isSome).length

/-- The keys of a new generation of a world are drawn, and its sweep starts at the lowest device address (19_trust R407). -/
def State.startSweep (s : State) (w : Nat) : State :=
  let (s1, keys) := s.drawKeys
  let x := Map.getD s1.trust.worlds w World.init
  { s1 with trust := { s1.trust with worlds := Map.set s1.trust.worlds w { x with nextKeys := some keys, sp := some 0 } } }

/-- Levels of the counter tree below its top eight, over `n` counters (19_trust R406). -/
def treeLevels : Nat → Nat → Nat
  | 0, _ => 0
  | fuel + 1, n => if n ≤ 8 then 0 else treeLevels fuel ((n + 7) / 8) + 1

/-- A counter at a level counts, and each counter above it, up to the top. (DESIGN CHOICE, log 53.) -/
def Mem.countUp (m : Mem) (level i : Nat) : Nat → Mem
  | 0 => { m with top := m.top.modify i (· + 1) }
  | n + 1 =>
    let key := level * 2 ^ 48 + i
    Mem.countUp { m with counters := Map.set m.counters key (Map.getD m.counters key 0 + 1) } (level + 1) (i / 8) n

/-- The levels of the counter tree over the integrity range, and the place of a line in it. -/
def State.treeDepth (s : State) : Nat := treeLevels 20 ((s.trust.ident.ilimit - s.trust.ident.ibase) / 64)
def State.treePlace (s : State) (line : Nat) : Nat := (line - s.trust.ident.ibase) / 64

/-- The counter C of a line of integrity mode. -/
def State.lineCounter (s : State) (line : Nat) : BitVec 56 :=
  if s.treeDepth == 0 then s.mem.top.getD (s.treePlace line) 0 else Map.getD s.mem.counters (s.treePlace line) 0

/-- The counter of a line, and those above it, count a write. -/
def State.countLine (s : State) (line : Nat) : State := s.setMem (s.mem.countUp 0 (s.treePlace line) s.treeDepth)

/-- A line of integrity mode counts a write to memory; a counter at its limit first starts a sweep of its world, and stays there
while four other sweeps hold that back (19_trust R406, R407). (DESIGN CHOICE, log 53.) -/
def State.countWrite (s : State) (line : Nat) : State :=
  let e := Map.getD s.mem.pot (line / 4096) Pot.init
  if !(e.bound && e.mode == 2) then s
  else
    let w := e.world.toNat
    if s.lineCounter line != BitVec.allOnes 56 || (Map.getD s.trust.worlds w World.init).sp.isSome then s.countLine line
    else if s.sweeps < 4 then (s.startSweep w).countLine line
    else s

/-- A word that is dirty in L2 is written to memory. -/
def State.writeDirty (s : State) (wa : Nat) : State :=
  match Map.find? s.mem.l2 wa with
  | none => s
  | some v => s.setMem { s.mem with bytes := s.mem.bytes.setWord wa v, l2 := Map.del s.mem.l2 wa }

/-- The dirty words of a line are written to memory (R254). (DESIGN CHOICE, log 37.) -/
def State.writeLine (s : State) (line : Nat) : State :=
  let dirty := (List.range 16).any fun i => (Map.find? s.mem.l2 (line + 4 * i)).isSome
  let s1 := if dirty then (s.countWrite line).channelWrite line else s
  (List.range 16).foldl (fun s i => s.writeDirty (line + 4 * i)) s1

/-- A line leaves the L2: its owned words are recalled, and its dirty words written to memory. (DESIGN CHOICE, log 37.) -/
def State.evictLine (s : State) (line : Nat) : State := ((s.recallLine line).writeLine line).dropSlice line

/-- An access of a word finds its line in L2, or reads it there from memory, unless it is not to be allocated; `first` makes
the line the first to be evicted (R212). (DESIGN CHOICE, log 37.) -/
def State.touchSlice (s : State) (wa : Nat) (first alloc : Bool) : State :=
  let line := lineAddr wa
  let n := sliceOf line
  let held := Map.getD s.mem.slices n []
  let s1 := if held.contains line then s else s.channelRead line
  if !s.caches wa then s
  else if !(held.contains line || alloc) then s1
  else
    let rest := held.filter (· != line)
    let s2 := match rest with
      | [] => s1
      | v :: _ => if rest.length < Config.sliceLines then s1 else s1.evictLine v
    let keep := if rest.length < Config.sliceLines then rest else rest.drop 1
    s2.setMem { s2.mem with slices := Map.set s2.mem.slices n (if first then line :: keep else keep ++ [line]) }

/-! ### Registration (Table 9-3) -/

/-- The home slice records a registration. Where another core's write stays last, the registering core's word becomes invalid;
else the core owns the word, and with `drop` valid copies of other cores become invalid at once, but for those of the cores `late`.
(DESIGN CHOICE, log 35, 36.) -/
def State.register (s : State) (p : Pend) (drop : Bool) (late : List Nat := []) : State :=
  let s0 := (s.setMem { s.mem with pend := s.mem.pend.erase p }).touchSlice p.word false true
  let (s1, last) := s0.record p.word (p.core + 1) p.since p.mask p.val
  let key := dkey p.core p.word
  let more := s1.mem.pend.any fun q => q.core == p.core && q.word == p.word
  if last then
    let others := s1.mem.dcache.filter fun q =>
      !(q.1 % 2 ^ 56 == p.word && q.1 != key && (q.2.st == .owned || (drop && q.2.st == .valid && !late.contains (q.1 / 2 ^ 56))))
    let mine : CWord :=
      if more then { st := .pending, val := ((Map.find? others key).map fun w => w.val).getD p.val }
      else { st := .owned, val := s1.homeWord p.word }
    s1.setMem { s1.mem with owner := Map.set s1.mem.owner p.word p.core, dcache := Map.set others key mine }
  else if more then s1
  else s1.setMem { s1.mem with dcache := Map.del s1.mem.dcache key }

/-- Every owned and pending word of a core is written back to its home slice, and its data cache is discarded (R235,
R385). -/
def State.flushCore (s : State) (core : Nat) : State :=
  let s1 := (s.mem.pend.filter fun p => p.core == core).foldl (fun s p => s.register p true) s
  s1.setMem { s1.mem with
    owner := s1.mem.owner.filter fun p => p.2 != core,
    dcache := s1.mem.dcache.filter fun p => p.1 / 2 ^ 56 != core,
    dlines := Map.del s1.mem.dlines core }

/-- A line leaves a core's data cache: pending words are registered, and owned ones are the home slice's (Table 9-3).
(DESIGN CHOICE, log 37.) -/
def State.evictData (s : State) (core line : Nat) : State :=
  let s1 := (s.mem.pend.filter fun p => p.core == core && lineAddr p.word == line).foldl (fun s p => s.register p true) s
  (s1.setMem { s1.mem with owner := s1.mem.owner.filter fun p => !(p.2 == core && lineAddr p.1 == line) }).dropLine line (some core)

/-- A core's data cache holds the line of a word, in place of the first to be evicted where it is full; `first` makes it the
first itself (R212). (DESIGN CHOICE, log 37.) -/
def State.touchData (s : State) (core wa : Nat) (first : Bool) : State :=
  let line := lineAddr wa
  let rest := (Map.getD s.mem.dlines core []).filter (· != line)
  let s1 := match rest with
    | [] => s
    | v :: _ => if rest.length < Config.dataLines then s else s.evictData core v
  let keep := if rest.length < Config.dataLines then rest else rest.drop 1
  s1.setMem { s1.mem with dlines := Map.set s1.mem.dlines core (if first then line :: keep else keep ++ [line]) }

/-! ### The directory (R236 to R240) -/

def dirSize (e : DirEntry) : Nat := 65536 / 2 ^ e.level

/-- Entries of the directory (R237). -/
def dirCapacity : Nat := 262144

def State.dirFind (s : State) (pa : Nat) : Option DirEntry :=
  s.mem.dir.find? fun e => decide (e.base ≤ pa) && decide (pa < e.base + dirSize e)

/-- Whether a physical address lies in a region in mode HC (R236). -/
def State.isHc (s : State) (pa : Nat) : Bool := s.isDev pa && s.mem.hc.contains (pa / 65536)

def holderList (v : BitVec 16) : List Nat := (List.range 16).filter fun i => v.toNat.testBit i
def holderBit (h : Nat) : BitVec 16 := BitVec.ofNat 16 (2 ^ h)

/-- A split to the line that holds `pa`: the line's entry, and the other halves (R238). -/
def splitTo (e : DirEntry) (pa : Nat) : Nat → DirEntry × List DirEntry
  | 0 => (e, [])
  | n + 1 =>
    if 10 ≤ e.level then (e, [])
    else
      let half := dirSize e / 2
      let lo := { e with level := e.level + 1 }
      let hi := { e with base := e.base + half, level := e.level + 1 }
      let (mine, other) := if pa < e.base + half then (lo, hi) else (hi, lo)
      let (x, r) := splitTo mine pa n
      (x, other :: r)

def State.dirReplace (s : State) (old : DirEntry) (new : List DirEntry) : State :=
  s.setMem { s.mem with dir := new ++ s.mem.dir.filter (· != old) }

/-- Sends a back-invalidation on a line to each holder. -/
def State.backInvalidate (s : State) (hs : List Nat) (line : Nat) (inv : Bool) : State :=
  hs.foldl (fun s h => s.send (.bisnp h line inv)) s

/-- Evicts the least recently requested entry without an outstanding back-invalidation: one without holders is free at once,
another once its holders have answered (R239). `none` when there is no such entry. -/
def State.evictEntry (s : State) : Option State :=
  let idle := s.mem.dir.filter fun e => e.await.isEmpty
  match idle.find? (fun e => idle.all fun f => decide (e.last ≤ f.last)) with
  | none => none
  | some e =>
    if e.holders == 0 then some (s.dirReplace e [])
    else
      let hs := holderList e.holders
      let lines := (List.range (dirSize e / 64)).map fun i => e.base + 64 * i
      let s1 := lines.foldl (fun s l => s.backInvalidate hs l true) s
      some (s1.dirReplace e [{ e with holders := 0, evict := true,
                                      await := hs.flatMap fun h => lines.map fun l => (h, l) }])

/-- Makes room for `k` new entries (R239), evicting no more than the request needs beside the evictions in progress. `true`
when there is room. -/
def State.dirRoom (s : State) (k : Nat) : Nat → State × Bool
  | 0 => (s, false)
  | fuel + 1 =>
    if s.mem.dir.length + k ≤ dirCapacity then (s, true)
    else if s.mem.dir.length + k ≤ dirCapacity + (s.mem.dir.filter (·.evict)).length then (s, false)
    else match s.evictEntry with
    | none => (s, false)
    | some s1 => State.dirRoom s1 k fuel

/-- Whether requests for two lines concern one block of the directory. -/
def State.oneBlock (s : State) (x y : Nat) : Bool :=
  x == y || (match s.dirFind x with
    | none => false
    | some e => decide (e.base ≤ y) && decide (y < e.base + dirSize e))

def Ask.same (x y : Ask) : Bool := x.holder == y.holder && x.line == y.line && x.own == y.own

/-- Whether a request that arrived earlier for the same block still waits (R237). -/
def State.behind (s : State) (a : Ask) : Bool :=
  (s.mem.asks.takeWhile fun x => !x.same a).any fun x => s.oneBlock x.line a.line

/-- A request waits at the directory in its turn. -/
def State.queueAsk (s : State) (a : Ask) : State :=
  let again := s.mem.asks.map fun x => if x.same a then { x with made := a.made } else x
  s.setMem { s.mem with asks := if s.mem.asks.any (Ask.same a) then again else s.mem.asks ++ [a] }

/-- A request waits no longer. -/
def State.dropAsk (s : State) (a : Ask) : State :=
  if s.mem.asks.any (Ask.same a) then s.setMem { s.mem with asks := s.mem.asks.filter fun x => !x.same a } else s

/-- Whether the region of an address is in transition between modes (R257). -/
def State.inMove (s : State) (pa : Nat) : Bool := s.mem.moving.any fun p => p.1 == pa / 65536

/-- A request of the device that has its turn, at the entry that covers its line (Table 11-1): `true` when it may proceed,
else back-invalidations are outstanding. The line's entry keeps its state until they are answered. -/
def State.dirServe (s : State) (e : DirEntry) (pa : Nat) (write : Bool) : State × Bool :=
  let hs := holderList e.holders
  if !e.await.isEmpty then (s, false)
  else if hs.isEmpty || (!write && !e.excl) then (s.dirReplace e [{ e with last := s.now }], true)
  else
    let (s1, room) := s.dirRoom (10 - e.level) 17
    if !room then (s1, false)
    else
      let line := lineAddr pa
      let (l, rest) := splitTo { e with last := s.now } pa 10
      let l1 := { l with holders := if write then 0 else l.holders, await := hs.map fun h => (h, line) }
      ((s1.dirReplace e (l1 :: rest)).backInvalidate hs line write, false)

/-- A device read or write of a line at the directory: `true` when it may proceed, else it waits, in arrival order among the
requests to its block (R237), or for the region's transition (R257). (DESIGN CHOICE, log 142.) -/
def State.dirAccess (s : State) (pa : Nat) (write nc : Bool) : State × Bool :=
  let a : Ask := { holder := none, line := lineAddr pa, own := write, made := s.now }
  if nc || !s.isDev pa then (s, true)
  else if s.inMove pa then (s.queueAsk a, false)
  else if !s.isHc pa then (s.dropAsk a, true)
  else if s.behind a then (s.queueAsk a, false)
  else match s.dirFind pa with
  | none => (s.dropAsk a, true)
  | some e =>
    let (s1, go) := s.dirServe e pa write
    if go then (s1.dropAsk a, true) else (s1.queueAsk a, false)

/-! ### Loads and stores of the words of a thread (Tables 9-3 and 9-4) -/

/-- Registrations of a thread's earlier stores, or of those that `f` picks, are acknowledged; `false` while one waits for
back-invalidations (R219, R435). -/
def State.drainPend (s : State) (f : Pend → Bool) : State × Bool :=
  (s.mem.pend.filter f).foldl (fun acc p =>
    let (s1, ready) := acc.1.dirAccess p.word true p.nc
    if ready then (s1.register p true, acc.2) else (s1, false)) (s, true)

/-- A release point of a thread: its earlier stores are globally performed. -/
def State.drain (s : State) (k : Nat) : State × Bool := s.drainPend fun p => p.thread == k

/-- A release point of each of a list of threads. -/
def State.drainAll (s : State) (ks : List Nat) : State × Bool := s.drainPend fun p => ks.contains p.thread

/-- Whether a line is poisoned (R245, R246). -/
def State.poisonedLine (s : State) (wa : Nat) : Bool := s.mem.poison.contains (lineAddr wa + 1)

/-- Whether a word is poisoned, by itself or with its line. -/
def State.poisoned (s : State) (wa : Nat) : Bool := s.mem.poison.contains wa || s.poisonedLine wa

/-- A thread that has seen another core's write to a word on which its own core has a store pending reads the word once that
store's registration is acknowledged (R216). (DESIGN CHOICE, log 35.) -/
def State.meetPend (s : State) (k wa : Nat) : State :=
  if (Map.getD s.mem.writes wa []).any fun x => x.rank != coreOf k + 1 && decide (x.num ≤ (s.thread k).acq) then
    (s.drainPend fun p => p.core == coreOf k && p.word == wa).1
  else s

/-- A core's data cache holds a valid copy of a word as its home slice has it. -/
def State.fillWord (s : State) (core wa : Nat) : State :=
  s.setMem { s.mem with dcache := Map.set s.mem.dcache (dkey core wa) { st := .valid, val := s.homeWord wa } }

/-- A load of one word by a thread. Hints 2 and 3 allocate nothing in the data cache, and read a word of state valid anew; hint 1
makes the line the first to be evicted (Tables 9-3, 9-4). -/
def State.loadWord (s : State) (k hint wa : Nat) : State × Word :=
  let core := coreOf k
  let s0 := s.meetPend k wa
  if !s0.caches wa then (s0, s0.homeWord wa)
  else match s0.cached core wa with
  | some w =>
    if w.st == .valid && 2 ≤ hint then
      let s1 := s0.touchSlice wa false (s0.allocates hint wa)
      (s1.fillWord core wa, s1.homeWord wa)
    else (s0.touchData core wa (hint == 1), w.val)
  | none =>
    let s1 := s0.touchSlice wa false (s0.allocates hint wa)
    if 2 ≤ hint then (s1, s1.homeWord wa) else ((s1.touchData core wa (hint == 1)).fillWord core wa, s1.homeWord wa)

/-- A store of bytes of one word by a thread. Hints 2 and 3 write an invalid or valid word at the home slice; hint 1, or hint 3
in L2, makes the line the first to be evicted (Tables 9-3, 9-4). A store to an expander's memory is performed there (21_neardata
R435). -/
def State.storeWord (s : State) (k hint wa : Nat) (nc : Bool) (mask : BitVec 4) (v : Word) : State :=
  let core := coreOf k
  let seen := (s.thread k).acq
  let kept := match s.cached core wa with
    | some w => w.st != .valid
    | none => false
  if !s.keepsWrites wa || (2 ≤ hint && !kept) then
    let s1 := (s.touchSlice wa (hint == 3) (s.keepsWrites wa)).homeStore wa (core + 1) seen mask v
    s1.setMem { s1.mem with dcache := Map.del s1.mem.dcache (dkey core wa) }
  else
    let old := ((s.cached core wa).map fun w => w.val).getD (s.homeWord wa)
    let p : Pend := { core := core, thread := k, word := wa, nc := nc, mask := mask, val := v, since := seen }
    let s1 := (if mask == 15 then s.unpoison wa else s).touchData core wa (hint == 1)
    s1.setMem { s1.mem with
      dcache := Map.set s1.mem.dcache (dkey core wa) { st := .pending, val := byMask mask old v },
      pend := s1.mem.pend ++ [p] }

/-- Fetches a line into a core's data cache: every word that is not pending or owned becomes valid; `false` while the directory
holds the request back (R227). -/
def State.fetchLine (s : State) (core line : Nat) (nc : Bool) : State × Bool :=
  if !s.caches line then (s, true)
  else
    let (s1, go) := s.dirAccess line false nc
    if !go then (s1, false)
    else ((List.range 16).foldl (fun s i =>
      let wa := line + 4 * i
      let kept := match s.cached core wa with
        | some w => w.st != .valid
        | none => false
      if kept || s.poisoned wa then s else s.fillWord core wa) ((s1.touchSlice line false true).touchData core line false), true)

/-- A prefetch whose line the directory holds back waits for it (R227). -/
def State.fetch (s : State) (core line : Nat) (nc : Bool) : State :=
  let (s1, ok) := s.fetchLine core line nc
  if ok then s1 else s1.setMem { s1.mem with fetches := s1.mem.fetches ++ [(core, line, nc)] }

/-- Prefetches that wait try again. -/
def State.settleFetches (s : State) : State :=
  s.mem.fetches.foldl (fun s f => s.fetch f.1 f.2.1 f.2.2) (s.setMem { s.mem with fetches := [] })

/-! ### The POT (R267, R268) -/

def State.potAt (s : State) (pp : Nat) : Pot := Map.getD s.mem.pot pp Pot.init

def State.setPot (s : State) (pp : Nat) (e : Pot) : State := s.setMem { s.mem with pot := Map.set s.mem.pot pp e }

/-- The first failing check among the entries of pages `pp` to `hi − 1`, in order; an unlisted entry has world 0. -/
def potScan (world : BitVec 6) (mode : Nat) (hi : Nat) : Nat → Map Pot → Option Nat
  | pp, [] => if pp < hi then some 0x0B else none
  | pp, (k, e) :: r =>
    if hi ≤ pp then none
    else if k != pp || e.world != world then some 0x0B
    else if e.bound && e.mode.toNat != mode then some 0x0C
    else potScan world mode hi (pp + 1) r

/-- `pot_fill`: checks every page of `lo` to `hi − 1`, then binds the unbound ones; a fault binds nothing. A fill in mode 2
outside the integrity range is an alias fault (R406). (DESIGN CHOICE, log 16; DEDUCED, log 40.) -/
def State.potFill (s : State) (world : BitVec 6) (mode lo hi : Nat) : State ⊕ Nat :=
  let id := s.trust.ident
  match potScan world mode hi lo (s.mem.pot.filter fun p => decide (lo ≤ p.1) && decide (p.1 < hi)) with
  | some c => .inr c
  | none =>
    if mode == 2 && (lo * 4096 < id.ibase || id.ilimit < hi * 4096) then .inr 0x0C
    else
      let pot := Map.mapVals (fun pp e =>
        if decide (lo ≤ pp) && decide (pp < hi) && !e.bound then { e with mode := BitVec.ofNat 2 mode, bound := true }
        else e) s.mem.pot
      .inl (s.setMem { s.mem with pot := pot })

/-! ### Walks (R261 to R266, R441) -/

/-- 4 KiB pages of a leaf, by its size code: 4 KiB, 64 KiB, 2 MiB, 1 GiB, 512 GiB, and a leaf of the top level.
(DEDUCED, log 39.) -/
def sizePages (size : Nat) : Nat :=
  match size with
  | 0 => 1
  | 1 => 16
  | 2 => 2 ^ 9
  | 3 => 2 ^ 18
  | 4 => 2 ^ 27
  | _ => 2 ^ 36

/-- What a translation gives: an entry, a refusal with its reason (Table 12-3), or a fault of the POT check, these two with the
leaf where one was reached; or a wait. -/
inductive Xlat where
  | ok (e : TlbEntry) (hit : Bool)
  | refuse (reason : Nat) (leaf : Option TlbEntry)
  | cause (n : Nat) (leaf : Option TlbEntry)
  /-- the walk waits for a walk slot, or for a table line at the directory -/
  | wait
  deriving DecidableEq, Repr

def State.port (s : State) (p : Nat) : Port := Map.getD s.mem.ports p Port.init

/-- The cause and port of an access to memory that a lost expander or a viral port holds back (R390, R391).
(DESIGN CHOICE, log 13.) -/
def State.exitCause (s : State) (pa : Nat) : Option (Nat × Nat) :=
  if s.isDev pa then none
  else match s.mem.lost.find? (fun r => decide (r.2.1 ≤ pa) && decide (pa < r.2.1 + r.2.2)) with
  | some r => some (0x0F, r.1)
  | none =>
    if (s.mem.ports.any fun p => p.2.viral) && (s.port (b2n (Config.hostPort pa))).viral then
      some (0x0E, b2n (Config.hostPort pa))
    else none

/-- Whether an access kind writes (Table 12-3). -/
def kindWrites (kind : Nat) : Bool := kind == 1 || kind == 2 || kind == 5

def TlbEntry.permits (e : TlbEntry) (kind : Nat) : Bool := e.r && (!kindWrites kind || (e.w && e.d))

def TlbEntry.covers (e : TlbEntry) (ctx vpage : Nat) : Bool :=
  e.ctx == ctx && decide (e.base ≤ vpage) && decide (vpage < e.base + sizePages e.size)

/-- The leaf that a table entry holds at a level. (DEDUCED, log 39.) -/
def leafOf (c : Nat) (x : Context) (vpage level pte : Nat) : TlbEntry :=
  let napot := level == 0 && bitOf pte 63
  let size := if level == 0 then b2n napot else level + 1
  let n := sizePages size
  { place := 0, ctx := c, base := vpage / n * n, size := size, ppn := bitsOf pte 53 10 / n * n, r := bitOf pte 1,
    w := bitOf pte 2, d := bitOf pte 7, mode := if x.world == 1 then 0 else bitsOf pte 60 59, asid := x.asid.toNat, world1 := x.world == 1,
    g := bitOf pte 5 }

/-- The first refusal of a leaf, in the order of R441. -/
def leafRefusal (x : Context) (kind level pte : Nat) : Option Nat :=
  let ppn := bitsOf pte 53 10
  let mode := bitsOf pte 60 59
  let napot := bitOf pte 63
  if bitsOf pte 58 54 != 0 || bitsOf pte 62 61 != 0 || mode == 3 || (x.world == 1 && mode != 0) ||
      (napot && !(level == 0 && ppn % 16 == 8)) || (!napot && ppn % 2 ^ (9 * level) != 0) then some 3
  else if !bitOf pte 4 || !bitOf pte 1 || (kindWrites kind && !bitOf pte 2) then some 1
  else if !bitOf pte 6 || (kindWrites kind && !bitOf pte 7) then some 2
  else none

/-- The check of a table page that a world context reads: a fill with mode TMODE (R262). -/
def State.tableCheck (s : State) (x : Context) (ppn : Nat) : State ⊕ Nat :=
  if x.world == 1 then .inl s
  else if !s.isDev (ppn * 4096) then .inr 0x0B
  else s.potFill x.world x.tmode.toNat ppn (ppn + 1)

/-- The POT check of a leaf (R264, R267): host memory has no entry; a world's leaf lies in device memory. -/
def State.leafCheck (s : State) (x : Context) (e : TlbEntry) : State ⊕ Nat :=
  let hi := e.ppn + sizePages e.size
  let dev := s.devBytes / 4096
  if x.world == 1 then (if dev ≤ e.ppn then .inl s else s.potFill x.world 0 e.ppn (min hi dev))
  else if dev < hi then .inr 0x0B
  else s.potFill x.world e.mode e.ppn hi

/-- One walk from a table at `ppn`, with `n` levels left (R262). -/
def State.walkFrom (s : State) (c : Nat) (x : Context) (vpage kind ppn : Nat) : Nat → State × Xlat
  | 0 => (s, .refuse 0 none)
  | level + 1 =>
    match s.tableCheck x ppn with
    | .inr n => (s, .cause n none)
    | .inl s1 =>
      let pa := ppn * 4096 + 8 * (vpage / 2 ^ (9 * level) % 512)
      let (s1, go) := s1.dirAccess pa false false
      let pte := (dw (s1.homeWord pa) (s1.homeWord (pa + 4))).toNat
      if !go then (s1, .wait)
      else if s1.poisoned pa || s1.poisoned (pa + 4) || (s1.exitCause pa).isSome then (s1, .refuse 4 none)
      else if !bitOf pte 0 || (bitOf pte 2 && !bitOf pte 1) then (s1, .refuse 0 none)
      else if !bitOf pte 1 && !bitOf pte 3 then
        if bitsOf pte 63 54 != 0 then (s1, .refuse 3 none)
        else State.walkFrom s1 c x vpage kind (bitsOf pte 53 10) level
      else
        let e := leafOf c x vpage level pte
        match leafRefusal x kind level pte with
        | some reason => (s1, .refuse reason (some e))
        | none =>
          match s1.leafCheck x e with
          | .inr n => (s1, .cause n (some e))
          | .inl s2 => (s2, .ok e false)

/-- Keeps the first `n` entries of a place. (DESIGN CHOICE, log 38.) -/
def capPlace (place : Nat) : Nat → List TlbEntry → List TlbEntry
  | _, [] => []
  | n, e :: r =>
    if e.place == place then (match n with
      | 0 => capPlace place 0 r
      | m + 1 => e :: capPlace place m r)
    else e :: capPlace place n r

/-- Fills a TLB: the newest entry first, the oldest lost (R265). (DESIGN CHOICE, log 38.) -/
def State.tlbFill (s : State) (place : Nat) (e : TlbEntry) : State :=
  let cap := if place < 64 then Config.l1Entries else Config.l2Entries
  let rest := s.mem.tlb.filter fun f => !(f.place == place && f.ctx == e.ctx && f.base == e.base && f.size == e.size)
  s.setMem { s.mem with tlb := capPlace place cap ({ e with place := place } :: rest) }

/-- The virtual page number of a global pointer. -/
def vpageOf (a : DWord) : Nat := bitsOf a.toNat 56 12

/-- The physical address that an entry gives a pointer. -/
def TlbEntry.phys (e : TlbEntry) (a : DWord) : Nat := (e.ppn + (vpageOf a - e.base)) * 4096 + a.toNat % 4096

/-- Whether a virtual address lies in an enabled non-coherent window of a context (R240). -/
def State.inWindow (s : State) (c : Nat) (a : DWord) : Bool :=
  (s.ctx c).windows.any fun p => p.2.en && decide (p.2.base.toNat ≤ a.toNat) &&
    decide (a.toNat < p.2.base.toNat + p.2.count * 65536)

/-- A prefetch whose page has a translation fetches its line. -/
def State.prefetchAt (s : State) (c : Nat) (e : TlbEntry) (core : Nat) (a : DWord) : State :=
  if (s.exitCause (e.phys a)).isSome then s else s.fetch core (lineAddr (e.phys a)) (s.inWindow c a)

/-- Whether a walk is the one for a page of a context in a cluster. -/
def Walk.isFor (w : Walk) (cl c vpage : Nat) : Bool := w.cluster == cl && w.ctx == c && w.vpage == vpage

/-- Whether a request for a page in a cluster has a walk slot: its page's walk has one, or one is free (R266). -/
def State.slotFor (s : State) (cl c vpage : Nat) : Bool :=
  let l := s.mem.walks.filter fun w => w.cluster == cl
  ((l.findIdx? fun w => w.isFor cl c vpage).getD l.length) < Config.walkSlots

/-- A request joins the walk of its page, or starts it, in a walk slot or waiting for one in arrival order (R266).
(DESIGN CHOICE, log 41.) -/
def State.joinWalk (s : State) (w : Walk) : State :=
  let here (x : Walk) : Bool := x.isFor w.cluster w.ctx w.vpage
  let joined := s.mem.walks.map fun x =>
    if here x then { x with cores := (x.cores ++ w.cores).eraseDups, prefs := x.prefs ++ w.prefs } else x
  s.setMem { s.mem with walks := if s.mem.walks.any here then joined else s.mem.walks ++ [w] }

/-- A walk for a page ends: a success fills the L2 TLB and the L1 of every core that asked, those of a walk of the page in
flight included, which ends with it, and its prefetches fetch their lines (R227, R266). (DESIGN CHOICE, log 41.) -/
def State.walkNow (s : State) (cl : Nat) (core : Option Nat) (c vpage kind : Nat) : State × Xlat :=
  let w : Walk := { cluster := cl, ctx := c, vpage := vpage, kind := kind, cores := core.toList, prefs := [] }
  if !s.slotFor cl c vpage then (s.joinWalk w, .wait)
  else
    let mine := s.mem.walks.filter fun w => w.isFor cl c vpage
    let s0 := s.setMem { s.mem with walks := s.mem.walks.filter fun w => !w.isFor cl c vpage }
    let x := s0.ctx c
    match s0.walkFrom c x vpage kind x.ppn.toNat 5 with
    | (s1, .ok e _) =>
      let s2 := (core.toList ++ mine.flatMap fun w => w.cores).foldl (fun s i => s.tlbFill i e) (s1.tlbFill (64 + cl) e)
      ((mine.flatMap fun w => w.prefs).foldl (fun s p => s.prefetchAt c e p.1 p.2) s2, .ok e false)
    | (s1, .wait) => ((s1.setMem { s1.mem with walks := s.mem.walks }).joinWalk w, .wait)
    | r => r

/-- A translation of a page by a core: from its L1 TLB, the L2 TLB of its cluster, or a walk. An entry that does not
permit the access is no hit. -/
def State.translate (s : State) (core c vpage kind : Nat) : State × Xlat :=
  let usable (e : TlbEntry) : Bool := e.covers c vpage && e.permits kind
  match s.mem.tlb.find? (fun e => e.place == core && usable e) with
  | some e => (s, .ok e true)
  | none =>
    match s.mem.tlb.find? (fun e => e.place == 64 + clusterOf core && usable e) with
    | some e => (s.tlbFill core e, .ok e true)
    | none => s.walkNow (clusterOf core) (some core) c vpage kind

/-! ### Fault buffers (R271, R272) -/

def State.fb (s : State) (cl : Nat) : FaultBuf := Map.getD s.mem.fbs cl FaultBuf.init
def State.setFb (s : State) (cl : Nat) (b : FaultBuf) : State := s.setMem { s.mem with fbs := Map.set s.mem.fbs cl b }

def ctxBit (c : Nat) : BitVec 64 := BitVec.ofNat 64 (2 ^ c)

/-- `record`: a fault event in a cluster coalesces into an entry, fills the lowest free one, or is dropped; `first` is the core
in the cluster. -/
def State.recordFault (s : State) (cl first c vpage kind reason n : Nat) : State :=
  let b := s.fb cl
  match List.find? (fun p => p.2.ctx == c && p.2.vpage == vpage) b.entries with
  | some (i, e) => s.setFb cl { b with entries := Map.set b.entries i { e with count := min (e.count + n) 0xFFFF } }
  | none =>
    let s1 := s.send (.service (1 + cl % 15))
    match Map.lowestFree b.entries Config.faultEntries with
    | some i =>
      let e : FbEntry := { vpage := vpage, kind := kind, reason := reason, ctx := c, firstcore := first, count := min n 0xFFFF }
      s1.setFb cl { b with entries := Map.set b.entries i e }
    | none => s1.setFb cl { b with drops := min (b.drops + 1) 255, dropctx := b.dropctx ||| ctxBit c }

/-- Whether a fault event of a page in a cluster would be dropped. -/
def State.drops (s : State) (cl c vpage : Nat) : Bool :=
  let b := s.fb cl
  !(b.entries.any fun p => p.2.ctx == c && p.2.vpage == vpage) && (Map.lowestFree b.entries Config.faultEntries).isNone

/-- The place at which an engine operation of a cluster parks on a page. -/
def State.parkAt (s : State) (cl c vpage : Nat) (write : Bool) : Park :=
  { vpage := vpage, write := write, dropped := s.drops cl c vpage }

/-- The wait that a thread is in, or was in when it stopped. -/
def Thread.waiting (t : Thread) : TState := if t.st == .stopped then t.waited.getD .stopped else t.st

/-- Whether a thread is parked on a page, and of its cluster and context. -/
def State.parkedIn (s : State) (cl c k : Nat) : Bool :=
  clusterOf (coreOf k) == cl && s.ctxOf k == c && (match (s.thread k).waiting with
    | .blocked (.page _ _ _ _) => true
    | _ => false)

/-- A parked thread is released: it retries its word, or continues after a PARK (R228, R270). A stopped one stays stopped,
and will do so when it is resumed. -/
def State.unpark (s : State) (k : Nat) : State :=
  let t := s.thread k
  if t.st == .stopped then
    match t.waited with
    | some (.blocked (.page _ kind _ _)) =>
      let (pc, w) := if kind == 3 then s.after k else (t.pc, t.wpos)
      ((s.unplace k).modThread k fun t => { t with waited := none, pc := pc, wpos := w }).arrive k
    | _ => s
  else match t.st with
  | .blocked (.page _ kind _ _) => if kind == 3 then s.stepOver k else s.ready k
  | _ => s

/-! ### On-chip storage (R201 to R203, R208) -/

def spaceOf (a : DWord) : Nat := bitsOf a.toNat 63 60
def clusterField (a : DWord) : Nat := bitsOf a.toNat 59 56
/-- The core that an on-chip pointer names. -/
def targetCore (a : DWord) : Nat := clusterField a * 4 + bitsOf a.toNat 55 54
def offsetOf (a : DWord) : Nat := bitsOf a.toNat 53 0

/-- Whether a register of a yard slot can be reached through the window (R203). -/
def State.windowReg (s : State) (y r : Nat) : Bool := (s.yard y).bind.valid && r < 256 && s.holdsReg y r

/-- The offset rules of Table 9-1 and R203 for an access of `size` bytes; space 6 is judged by its blocks. -/
def State.offsetOk (s : State) (core space off size : Nat) : Bool :=
  match space with
  | 1 => off < 2 ^ 20
  | 2 =>
    let y := yardKey core (bitsOf off 22 16)
    let regs := if off < 2 ^ 23 then (List.range (size / 4)).map fun i => bitsOf off 9 2 + i
      else (List.range ((size + 7) / 8)).map fun i => bitsOf off 10 3 + i
    off < 2 ^ 24 && (off < 2 ^ 23 || bitsOf off 15 11 == 0) && regs.all fun r => s.windowReg y r
  | 3 => off < 2 ^ 18
  | 4 => off < 2 ^ 21 || (off / 2 ^ 16 == 0x20)
  | 5 => off < 2 ^ 19 && off % 65536 + size ≤ 65532
  | 6 => true
  | _ => false

/-- Whether a space accepts a size and an operation: kind 0 load, 1 store, 2 atomic (Table 9-1). -/
def spaceAccepts (space size kind : Nat) : Bool :=
  match space with
  | 1 => true
  | 2 => size ≤ 16 && kind ≤ 1
  | 3 => size ≤ 16 && kind ≤ 1
  | 4 => size ≤ 16 && kind ≤ 1
  | 5 => size ≤ 16 && kind == 0
  | 6 => size ≤ 8 && kind ≤ 1
  | _ => false

/-- Check 1 of Table 9-2 for an on-chip pointer. -/
def State.chipForm (s : State) (a : DWord) (size kind : Nat) : Bool :=
  clusterField a < 14 && spaceAccepts (spaceOf a) size kind &&
    s.offsetOk (targetCore a) (spaceOf a) (offsetOf a / size * size) size

/-- The word of on-chip storage at a key; register-window words come from the registers. -/
def State.chipWord (s : State) (key : Nat) : Word :=
  let a := BitVec.ofNat 64 key
  if spaceOf a == 2 then
    let off := offsetOf a
    let y := yardKey (targetCore a) (bitsOf off 22 16)
    if off < 2 ^ 23 then s.reg (threadKey y (bitsOf off 15 10)) (bitsOf off 9 2)
    else
      let b (i : Nat) : Byte := s.sideb y (bitsOf off 10 3) (off % 8 + i)
      b 3 ++ b 2 ++ b 1 ++ b 0
  else s.mem.bytes.word key

/-- On-chip storage with a word written; a register written through its window loses its pending tag (R203). -/
def State.setChipWord (s : State) (key : Nat) (v : Word) : State :=
  let a := BitVec.ofNat 64 key
  let s1 := s.setMem { s.mem with poison := s.mem.poison.filter (· != key) }
  if spaceOf a == 2 then
    let off := offsetOf a
    let y := yardKey (targetCore a) (bitsOf off 22 16)
    if off < 2 ^ 23 then
      let k := threadKey y (bitsOf off 15 10)
      let r := bitsOf off 9 2
      (s1.setReg k r v).dropTag k r
    else
      (List.range 4).foldl (fun s i =>
        s.setSideb y (bitsOf off 10 3) (off % 8 + i) (v.extractLsb' (8 * i) 8)) s1
  else s1.setMem { s1.mem with bytes := s1.mem.bytes.setWord key v }

/-- The entry of a core's range scoreboard that a byte range overlaps (R209). -/
def State.overlap (s : State) (core space lo hi : Nat) : Option Range :=
  let l := s.overlaps core space lo hi
  match l.find? fun r => r.faulted with
  | some r => some r
  | none => l.head?

/-- The trap of an access that overlaps a faulted entry (R210). -/
def rangeTrap (r : Range) : Trap :=
  { trapOf 0x17 (BitVec.ofNat 64 r.lo) with
    info1 := BitVec.ofNat 64 (r.hi - r.lo + r.space * 2 ^ 32 +
      (match r.fut with
        | none => 0
        | some f => f.2) * 2 ^ 40) }

/-- Whether a queued or running matrix operation of a core names an accumulator bank, or its B slice (R202, R330). -/
def matUses (o : MatOp) (space bank : Nat) : Bool :=
  match o.op with
  | .mma m => space == 4 || (space == 3 && m.bank.toNat == bank)
  | .mldb _ => space == 4
  | .mzero => space == 3 && (val o.vals 0).toNat % 2 == bank
  | _ => false

def State.matrixBusy (s : State) (core space off : Nat) : Bool :=
  let c := s.core core
  (c.mrun.toList ++ c.mqueue).any fun o => matUses o space (off / 2 ^ 17)

end Sys2Proof.Machine
end

