-- ==== Sys2Proof/Machine/Window.lean ====
section
/-! DEFINITION. The device control window (09_memory R439): trap records, statistics, copy engine blocks, pool slots, work
queues, queue attachment slots, tag blocks and quota blocks, and the attachments that stores to them make. -/

namespace Sys2Proof.Machine

/-! ### Accesses of the managers and engines -/

/-- What a translation and the checks behind it give an access. -/
inductive Reach where
  | at (pa : Nat) (nc : Bool)
  | park (vpage reason : Nat)
  | cause (n port : Nat)
  | wait
  deriving DecidableEq, Repr

/-- Where a global address of a context leads: through the TLBs of a core, or, for a manager, by a walk of its own. -/
def State.reach (s : State) (via : Option Nat) (c : Nat) (a : DWord) (kind : Nat) : State × Reach :=
  let r := match via with
    | some core => s.translate core c (vpageOf a) kind
    | none => s.walkFrom c (s.ctx c) (vpageOf a) kind (s.ctx c).ppn.toNat 5
  match r with
  | (s1, .ok e _) =>
    match s1.exitCause (e.phys a) with
    | some (n, p) => (s1, .cause n p)
    | none => (s1, .at (e.phys a) (s1.inWindow c a))
  | (s1, .refuse reason _) => (s1, .park (vpageOf a) reason)
  | (s1, .cause n _) => (s1, .cause n 0)
  | (s1, .wait) => (s1, .wait)

/-- A manager's read of a block at the directory: `false` while it waits (R237). -/
def State.managerReady (s : State) (c : Nat) (a : DWord) : State × Bool :=
  if !isGlobal a then (s, true)
  else match s.reach none c a 0 with
  | (s1, .at pa nc) => s1.dirAccess pa false nc
  | (s1, .wait) => (s1, false)
  | _ => (s, true)

/-- The words of a naturally aligned block that a manager reads for a context; `none` when it cannot. (DEDUCED, log 74.) -/
def State.managerWords (s : State) (c : Nat) (a : DWord) (n : Nat) : Option (List Word) :=
  if !isGlobal a then none
  else match s.reach none c a 0 with
  | (s1, .at pa _) =>
    if (List.range n).any fun i => s1.poisoned (pa + 4 * i) then none
    else some ((List.range n).map fun i => s1.homeWord (pa + 4 * i))
  | _ => none

/-! ### Trap records (18_system Table 18-2) -/

def TrapRec.word (r : TrapRec) (i : Nat) : Word :=
  match i with
  | 0 => BitVec.ofNat 32 (b2n r.intrap * 2 ^ 31 + b2n r.resume * 2 ^ 30 + r.lvalid.toNat * 2 ^ 26 + r.widx.toNat * 2 ^ 24 +
      b2n r.stopped * 2 ^ 23 + b2n r.sstep * 2 ^ 22 + r.origin.toNat * 2 ^ 8 + r.cause.toNat)
  | 1 => BitVec.ofNat 32 (r.ncause.toNat * 2 ^ 24 + r.epc.toNat)
  | 2 => val r.b 0
  | 3 => val r.b 1
  | 4 => val r.b 2
  | 5 => val r.b 3
  | 6 => DWord.lo r.info0
  | 7 => DWord.hi r.info0
  | 8 => DWord.lo r.info1
  | 9 => DWord.hi r.info1
  | 10 => DWord.lo r.info2
  | 11 => DWord.hi r.info2
  | _ => 0

/-- A store to a record writes its RW fields (R6, R367). -/
def TrapRec.setWord (r : TrapRec) (i : Nat) (v : Word) : TrapRec :=
  match i with
  | 0 => { r with resume := v.getLsbD 30, lvalid := v.extractLsb' 26 4, widx := v.extractLsb' 24 2, sstep := v.getLsbD 22 }
  | 1 => { r with epc := v.extractLsb' 0 16 }
  | 2 => { r with b := r.b.set 0 v }
  | 3 => { r with b := r.b.set 1 v }
  | 4 => { r with b := r.b.set 2 v }
  | 5 => { r with b := r.b.set 3 v }
  | _ => r

/-! ### Pools: header, slabs and slots (16_attention R345, R346) -/

/-- Pages of a slab of a class. -/
def slabPages (c : Nat) : Nat := 512 / (c + 1)

/-- A page of a pool: class, slab, page in slab. -/
structure PageId where
  cls : Nat
  slab : Nat
  page : Nat
  deriving DecidableEq, Repr

def Pool.slabBase (p : Pool) (c : Nat) : DWord := (p.slabs.getD c (0, 0)).1
def Pool.slabCount (p : Pool) (c : Nat) : Nat := (p.slabs.getD c (0, 0)).2

def Pool.pageAddr (p : Pool) (x : PageId) : DWord :=
  p.slabBase x.cls + BitVec.ofNat 64 (2 ^ 21 * x.slab + 4096 * (x.cls + 1) * x.page)

/-- The word of a bitmap that holds a page's bit, and the bit. -/
def Pool.bitOf (p : Pool) (x : PageId) : DWord × Nat :=
  let before := ((List.range x.cls).map fun c => p.slabCount c).sum
  (p.map + BitVec.ofNat 64 (64 * (before + x.slab) + 4 * (x.page / 32)), x.page % 32)

/-- The page of a class at an address. -/
def Pool.pageAt (p : Pool) (c : Nat) (a : DWord) : PageId :=
  let off := (a - p.slabBase c).toNat
  { cls := c, slab := off / 2 ^ 21, page := off % 2 ^ 21 / (4096 * (c + 1)) }

/-- The pages of a class in slab order. -/
def Pool.pages (p : Pool) (c : Nat) : List PageId :=
  (List.range (p.slabCount c)).flatMap fun s => (List.range (slabPages c)).map fun i => { cls := c, slab := s, page := i }

/-- Whether a page is free, as its bitmap stands; one whose bitmap cannot be read is not. -/
def State.pageFree (s : State) (p : Pool) (x : PageId) : Bool :=
  let (a, i) := p.bitOf x
  match s.managerWords p.ctx.toNat a 1 with
  | some ws => !(val ws 0).getLsbD i
  | none => false

def State.pool (s : State) (n : Nat) : Pool := Map.getD s.eng.pools n Pool.init
def State.setPool (s : State) (n : Nat) (p : Pool) : State :=
  s.setEng { s.eng with pools := Map.set s.eng.pools n p }

/-- The fields of a header, when each obeys its rule in Table 16-1. -/
def poolHeader (ws : List Word) : Option Pool :=
  let slab (c : Nat) : DWord := val2 ws (8 + 2 * c)
  let base (c : Nat) : DWord := slab c &&& BitVec.ofNat 64 (2 ^ 64 - 2 ^ 21)
  let count (c : Nat) : Nat := bitsOf (slab c).toNat 15 0
  let btab := val2 ws 0
  let stab := val2 ws 2
  let map := val2 ws 4
  let w7 := (val ws 7).toNat
  let ok := isGlobal btab && btab.toNat % 8 == 0 && isGlobal stab && stab.toNat % 16 == 0 && isGlobal map &&
    map.toNat % 64 == 0 && bitsOf w7 31 28 == 0 && bitsOf w7 27 24 ≤ 12 &&
    (List.range 4).all fun c => bitsOf (slab c).toNat 20 16 == 0 && (count c == 0 || isGlobal (base c))
  if ok then some { Pool.init with
    btab := btab, stab := stab, map := map, nblk := (val ws 6).toNat, logbp := bitsOf w7 27 24, nseq := bitsOf w7 23 0,
    slabs := (List.range 4).map fun c => (base c, count c) }
  else none

/-- Detaches a pool; a move in progress first publishes (R346, R350). -/
def State.poolDetach (s : State) (n : Nat) : State :=
  let busy := s.eng.moves.any fun m => m.2.pool == n
  s.setPool n { s.pool n with att := busy, leaving := busy }

/-- A store of a context to a pool slot's doubleword at 0x08: ERR is cleared by 1, CMPT written, then DETACH or ATTACH
acts. (DEDUCED, log 74.) -/
def State.poolControl (s : State) (n c : Nat) (v : DWord) : State :=
  let p := s.pool n
  let p1 := { p with err := p.err && !v.getLsbD 30, cmpt := v.getLsbD 2 }
  let s1 := s.setPool n p1
  if v.getLsbD 1 && p.att then s1.poolDetach n
  else if v.getLsbD 0 && !p.att then
    match (s.managerWords c p.hdr 16).bind poolHeader with
    | none => s1.setPool n { p1 with err := true }
    | some h => s1.setPool n { h with
        hdr := p.hdr, att := true, err := p1.err, ctx := BitVec.ofNat 6 c, cmpt := p1.cmpt, moves := p.moves,
        allocfail := p.allocfail }
  else s1

/-! ### Work queues (R357) -/

def State.wq (s : State) (q : Nat) : Wq := Map.getD s.eng.wqs q Wq.init
def State.setWq (s : State) (q : Nat) (w : Wq) : State := s.setEng { s.eng with wqs := Map.set s.eng.wqs q w }

/-- Whether a pull waits for an item: it is unassigned, and not withdrawn while its context is saved (16_attention R359). -/
def Pull.waits (p : Pull) : Bool := p.item.isNone && decide (p.core < Config.cores)

/-- Pulls that wait for an item. -/
def Wq.waiters (w : Wq) : Nat := (w.pulls.filter fun p => p.waits).length

/-- Detachment: CLOSED falls; refused while items or unassigned pulls are held. -/
def Wq.detach (w : Wq) : Wq :=
  if w.count != 0 || w.waiters != 0 then { w with err := true } else { w with att := false, closed := false }

/-- A store of a context to a work queue's doubleword at 0x08; a pull whose item is still to be written outlives the
attachment (R359). -/
def State.wqControl (s : State) (q c : Nat) (v : DWord) : State :=
  let w := s.wq q
  let w1 := { w with err := w.err && !v.getLsbD 30, logd := if w.att then w.logd else v.extractLsb' 8 5 }
  let w2 := if v.getLsbD 2 && w.att then { w1 with closed := true } else w1
  let w3 := if v.getLsbD 1 && w.att then w2.detach
    else if v.getLsbD 0 && !w.att then
      if w2.logd.toNat == 0 || 16 < w2.logd.toNat then { w2 with err := true }
      else { w2 with
        att := true, ctx := BitVec.ofNat 6 c, closed := false, count := 0, head := 0,
        pulls := w2.pulls.filter fun p => p.item.isSome }
    else w2
  s.setWq q w3

/-! ### Queue attachment slots (13_async R289) -/

def State.qslot (s : State) (n : Nat) : QSlot := Map.getD s.eng.queues n QSlot.init
def State.setQslot (s : State) (n : Nat) (q : QSlot) : State :=
  s.setEng { s.eng with queues := Map.set s.eng.queues n q }

/-- The attachment that a header makes in a slot, or nothing where R289 refuses it. -/
def State.headerSlot (s : State) (q : QSlot) (c : Nat) (host : Bool) (ws : List Word) : Option QSlot :=
  let w4 := (val ws 4).toNat
  let logd := bitsOf w4 4 0
  let ckind := bitsOf w4 11 8
  let cclust := bitsOf w4 15 12
  let rsv := bitsOf (val ws 2).toNat 5 0 != 0 || bitsOf w4 31 22 != 0 || bitsOf w4 7 5 != 0 ||
    (List.range 11).any fun i => val ws (5 + i) != 0
  let taken := s.eng.queues.any fun p => p.2.att && p.2.hdr == q.hdr && p.2.ctx.toNat == c
  if rsv || bitsOf w4 21 16 != c || ckind == 0 || 5 ≤ ckind || (ckind == 4 && !s.fitX) || (ckind == 1 && 13 < cclust) ||
      logd == 0 || 16 < logd || (!host && (ckind == 2 || ckind == 4)) || taken then none
  else some { q with
    att := true, ctx := BitVec.ofNat 6 c, ckind := BitVec.ofNat 4 ckind, ring := val2 ws 2, logd := logd, cclust := cclust,
    parked := none, failed := none }

/-- A write to a slot's doubleword at 0x08, by the host or by a storing context. (DEDUCED, log 74.) -/
def State.queueControl (s : State) (n : Nat) (storer : Option Nat) (v : DWord) : State :=
  let q := s.qslot n
  let c := match storer with
    | none => (v.extractLsb' 24 6).toNat
    | some c => c
  let q1 := { q with err := q.err && !v.getLsbD 30, ctx := if q.att then q.ctx else BitVec.ofNat 6 c }
  let s1 := s.setQslot n q1
  if v.getLsbD 1 && q.att then s1.setQslot n { q1 with att := false }
  else if v.getLsbD 0 && !q.att then
    match (s1.managerWords c q1.hdr 16).bind (s1.headerSlot q1 c storer.isNone) with
    | none => s1.setQslot n { q1 with err := true }
    | some r => s1.setQslot n r
  else s1

/-- Whether the header that a write to a slot's doubleword at 0x08 makes its manager read can be read (R237). -/
def State.attachReady (s : State) (att : Bool) (hdr : DWord) (c : Nat) (v : DWord) : State × Bool :=
  if v.getLsbD 0 && !att then s.managerReady c hdr else (s, true)

/-! ### Near-data tag blocks (19_trust R410) -/

/-- A store to the tag block's word at 0x40: SESSION, and GO clears DONE and sets BUSY. -/
def TagBlock.go (t : TagBlock) (v : Word) : TagBlock :=
  if v.getLsbD 31 then
    (if t.busy then t
     else { t with session := v.extractLsb' 0 16, under := v.extractLsb' 0 16, busy := true, done := false })
  else { t with session := v.extractLsb' 0 16 }

/-! ### Reading the window -/

/-- Word `i` of a doubleword, low word 0. -/
def halfOf (d : DWord) (i : Nat) : Word := if i % 2 == 0 then DWord.lo d else DWord.hi d

/-- HSTATUS (Table 11-2). -/
def Handover.status (h : Handover) : DWord :=
  dw (BitVec.ofNat 32 (b2n h.busy * 2 ^ 31 + b2n h.err * 2 ^ 30 + h.result.toNat * 2 ^ 28 + h.code.toNat * 2 ^ 24 +
    h.done.toNat)) h.seq

/-- The statistics of a pseudo-channel (Table 11-5), by doubleword. -/
def Refresh.stat (r : Refresh) (i : Nat) : DWord :=
  match i with
  | 0 => r.rstall
  | 1 => r.postp
  | 2 => r.forced
  | 3 => r.abref
  | 4 => BitVec.ofNat 64 (((List.range 16).map fun b => Map.getD r.owed b 0 * 16 ^ b).sum)
  | _ => dw (BitVec.ofNat 32 r.affwin) r.cecc

/-- Operations in flight of a copy engine (Table 13-7). -/
def State.inflight (s : State) (cl : Nat) : Nat := (s.eng.copies.filter fun c => c.cluster == cl).length

/-- A word of the window as context `c` reads it at cluster `cl`, core `co`; the cause where it may not. -/
def State.cwRead (s : State) (c cl co off : Nat) : Word ⊕ Nat :=
  let i := off / 4
  let blk := off / 2 ^ 16
  let zero := cl == 0 && co == 0
  if 0x500000 ≤ off && off < 0x580000 then
    let k := threadKey (yardKey (cl * 4 + co) ((off - 0x500000) / 4096)) (off % 4096 / 64)
    .inl ((s.thread k).trec.word (i % 16))
  else if blk == 0x40 then
    let m := off % 2 ^ 16 / 4096
    let q := off % 4096 / 64
    if !zero || 8 ≤ m || (if s.fitX then 12 ≤ q else false) || 0x30 ≤ off % 64 then .inr 0x09
    else if !(s.ctx c).statGrant then .inr 0x0A
    else .inl (halfOf ((Map.getD s.mem.refresh (64 * m + q) Refresh.init).stat (off % 64 / 8)) i)
  else if blk == 0x41 then
    if !zero || 8 ≤ off % 2 ^ 16 then .inr 0x09 else .inl (halfOf s.mem.ho.status i)
  else if blk == 0x42 then
    let o := off % 2 ^ 16
    let e := Map.getD s.eng.stats cl Engine.init
    if co != 0 || 0x20 ≤ o then .inr 0x09
    else if !(s.ctx c).statGrant then .inr 0x0A
    else .inl (match o / 4 with
      | 0 => BitVec.ofNat 32 (s.inflight cl)
      | 2 => DWord.lo e.bytes
      | 3 => DWord.hi e.bytes
      | 4 => DWord.lo e.ops
      | 5 => DWord.hi e.ops
      | 6 => e.loststat
      | _ => 0)
  else if blk == 0x43 then
    let n := off % 2 ^ 16 / 64
    let p := s.pool n
    if !zero || 16 ≤ n then .inr 0x09
    else if p.att && p.ctx.toNat != c then .inr 0x0A
    else .inl (match off % 64 / 4 with
      | 0 => DWord.lo p.hdr
      | 1 => DWord.hi p.hdr
      | 2 => BitVec.ofNat 32 (b2n p.att * 2 ^ 31 + b2n p.err * 2 ^ 30 + p.ctx.toNat * 2 ^ 24 + b2n p.cmpt * 4)
      | 3 => 0
      | 4 => DWord.lo p.moves
      | 5 => DWord.hi p.moves
      | 6 => DWord.lo p.allocfail
      | 7 => DWord.hi p.allocfail
      | j => if j % 2 == 1 then 0
             else if !p.att then 0
             else BitVec.ofNat 32 ((p.pages ((j - 8) / 2)).filter (s.pageFree p)).length)
  else if blk == 0x44 then
    let n := off % 2 ^ 16 / 64
    let w := s.wq n
    if !zero || 16 ≤ n || 0x20 ≤ off % 64 then .inr 0x09
    else if w.att && w.ctx.toNat != c then .inr 0x0A
    else .inl (match off % 64 / 4 with
      | 0 => DWord.lo w.ring
      | 1 => DWord.hi w.ring
      | 2 => BitVec.ofNat 32 (b2n w.att * 2 ^ 31 + b2n w.err * 2 ^ 30 + w.ctx.toNat * 2 ^ 24 + b2n w.closed * 2 ^ 23 +
          w.logd.toNat * 2 ^ 8)
      | 3 => 0
      | 4 => BitVec.ofNat 32 w.count
      | 5 => BitVec.ofNat 32 w.waiters
      | 6 => DWord.lo w.pushed
      | _ => DWord.hi w.pushed)
  else if blk == 0x45 then
    let n := off % 2 ^ 16 / 16
    let q := s.qslot n
    if !zero || 128 ≤ n then .inr 0x09
    else if q.att && q.ctx.toNat != c then .inr 0x0A
    else .inl (match off % 16 / 4 with
      | 0 => DWord.lo q.hdr
      | 1 => DWord.hi q.hdr
      | 2 => BitVec.ofNat 32 (b2n q.att * 2 ^ 31 + b2n q.err * 2 ^ 30 + q.ctx.toNat * 2 ^ 24 + q.ckind.toNat * 2 ^ 8)
      | _ => 0)
  else if blk == 0x46 then
    let o := off % 2 ^ 16
    let t := (s.ctx c).tag
    if !zero || 0x48 ≤ o then .inr 0x09
    else if o < 0x28 then .inl (val t.body (o / 4))
    else if o < 0x30 then .inl (halfOf t.pctr i)
    else if o < 0x40 then .inl (t.tag.extractLsb' (8 * (o - 0x30)) 32)
    else if o < 0x44 then .inl (t.session.zeroExtend 32)
    else .inl (BitVec.ofNat 32 (b2n t.busy * 2 ^ 31 + b2n t.done * 2 ^ 30 + t.err.toNat * 2 ^ 24))
  else if blk == 0x47 then
    let o := off % 2 ^ 16
    let w := Map.getD s.trust.worlds (s.worldOf c) World.init
    if !zero || 0x40 ≤ o then .inr 0x09
    else .inl (halfOf ((if o / 8 % 2 == 0 then w.limit else w.used).getD (o / 16) 0) i)
  else .inr 0x09

/-! ### Writing the window -/

/-- A doubleword with one or both of its words replaced. -/
def patch (d : DWord) (off size : Nat) (v : DWord) : DWord :=
  if size == 8 then v else if off % 8 == 0 then dw (DWord.lo v) (DWord.hi d) else dw (DWord.lo d) (DWord.lo v)

/-- The doubleword that a write presents to a command register at a multiple of 8: what it does not cover is zero. -/
def command (off size : Nat) (v : DWord) : DWord := patch 0 off size v

/-- Bits 63:6 of a doubleword, as an address field. -/
def line64 (d : DWord) : DWord := d &&& BitVec.ofNat 64 (2 ^ 64 - 64)

/-- Whether a store to the window can act: an attachment waits until its header can be read. -/
def State.cwReady (s : State) (c off size : Nat) (v : DWord) : State × Bool :=
  let o := off % 2 ^ 16
  let x := command off size v
  if off / 2 ^ 16 == 0x43 && o % 64 == 8 then s.attachReady (s.pool (o / 64)).att (s.pool (o / 64)).hdr c x
  else if off / 2 ^ 16 == 0x45 && o % 16 == 8 then s.attachReady (s.qslot (o / 16)).att (s.qslot (o / 16)).hdr c x
  else (s, true)

/-- A store of `size` bytes by context `c` to the window; the cause where it may not. -/
def State.cwWrite (s : State) (c cl co off size : Nat) (v : DWord) : State ⊕ Nat :=
  let blk := off / 2 ^ 16
  let zero := cl == 0 && co == 0
  let o := off % 2 ^ 16
  if 0x500000 ≤ off && off < 0x580000 then
    let k := threadKey (yardKey (cl * 4 + co) ((off - 0x500000) / 4096)) (off % 4096 / 64)
    .inl (s.modThread k fun t =>
      let r := t.trec.setWord (off / 4 % 16) (DWord.lo v)
      { t with trec := if size == 8 then r.setWord (off / 4 % 16 + 1) (DWord.hi v) else r })
  else if blk == 0x41 then
    if !zero || 8 ≤ o then .inr 0x09 else .inl s
  else if blk == 0x43 then
    let n := o / 64
    let p := s.pool n
    if !zero || 16 ≤ n then .inr 0x09
    else if p.att && p.ctx.toNat != c then .inr 0x0A
    else if o % 64 < 8 then
      .inl (if p.att then s else s.setPool n { p with hdr := line64 (patch p.hdr off size v) })
    else if o % 64 == 8 then .inl (s.poolControl n c (command off size v))
    else .inl s
  else if blk == 0x44 then
    let n := o / 64
    let w := s.wq n
    if !zero || 16 ≤ n || 0x20 ≤ o % 64 then .inr 0x09
    else if w.att && w.ctx.toNat != c then .inr 0x0A
    else if o % 64 < 8 then
      .inl (if w.att then s else s.setWq n { w with ring := line64 (patch w.ring off size v) })
    else if o % 64 == 8 then .inl (s.wqControl n c (command off size v))
    else .inl s
  else if blk == 0x45 then
    let n := o / 16
    let q := s.qslot n
    if !zero || 128 ≤ n then .inr 0x09
    else if q.att && q.ctx.toNat != c then .inr 0x0A
    else if o % 16 < 8 then
      .inl (if q.att then s else s.setQslot n { q with hdr := line64 (patch q.hdr off size v), ctx := BitVec.ofNat 6 c })
    else if o % 16 == 8 then .inl (s.queueControl n (some c) (command off size v))
    else .inl s
  else if blk == 0x46 then
    if !zero || 0x48 ≤ o then .inr 0x09
    else
      let t := (s.ctx c).tag
      let put (t : TagBlock) (o : Nat) (x : Word) : TagBlock :=
        if o < 0x28 then (if t.busy then t else { t with body := t.body.set (o / 4) x })
        else if o == 0x40 then t.go x
        else t
      let t1 := put t o (DWord.lo v)
      .inl (s.modCtx c fun x => { x with tag := if size == 8 then put t1 (o + 4) (DWord.hi v) else t1 })
  else .inr 0x09

/-- Whether an access to the window meets an offset that is not assigned, or an operation that no register there takes: check 1
of Table 9-2. -/
def State.cwUnassigned (s : State) (c : Nat) (a : DWord) (size kind : Nat) : Bool :=
  let cl := clusterField a
  let co := targetCore a % 4
  let off := offsetOf a / size * size
  let bad {α : Type} (r : α ⊕ Nat) : Bool := match r with
    | .inl _ => false
    | .inr n => n == 0x09
  if kind == 0 then (List.range (size / 4)).any fun i => bad (s.cwRead c cl co (off + 4 * i))
  else bad (s.cwWrite c cl co off size 0)

end Sys2Proof.Machine
end

