-- ==== Sys2Proof/Machine/Metering.lean ====
section
/-! DEFINITION. Worlds, quotas and usage records (19_trust R395, R412 to R416), and the pre-emption that an exhausted quota
asks for (03_threads R90). -/

namespace Sys2Proof.Machine

/-! ### Worlds -/

def State.world (s : State) (w : Nat) : World := Map.getD s.trust.worlds w World.init
def State.setWorld (s : State) (w : Nat) (x : World) : State :=
  s.setTrust { s.trust with worlds := Map.set s.trust.worlds w x }
def State.modWorld (s : State) (w : Nat) (f : World → World) : State := s.setWorld w (f (s.world w))

/-- Changes the USED value of a kind of a world (R412). -/
def State.modUsed (s : State) (w kind : Nat) (f : DWord → DWord) : State :=
  s.modWorld w fun x => { x with used := x.used.modify kind f }

/-- A kind whose USED has reached its LIMIT (R413). -/
def World.exhaustedKind (x : World) : Option Nat :=
  (List.range 4).find? fun k => decide ((x.limit.getD k 0).toNat ≤ (x.used.getD k 0).toNat)

/-- Contexts of a world that exist. -/
def State.contextsOf (s : State) (w : Nat) : List Nat :=
  s.ctxs.filterMap fun p => if p.2.created && p.2.world.toNat == w then some p.1 else none

/-! ### Digests and signatures, by use (log 14) -/

/-- The words of a 384-bit value, lowest first. -/
def words384 (v : BitVec 384) : List Word := (List.range 12).map fun i => v.extractLsb' (32 * i) 32

/-- SHA-384 of a run of bytes, and of a run of words. (DESIGN CHOICE, log 14.) -/
def sha384Bytes (bs : List Byte) : BitVec 384 := Config.crypto 0 (bs.map BitVec.toNat)
/-- DESIGN CHOICE, log 14. -/
def sha384 (ws : List Word) : BitVec 384 := sha384Bytes (ws.flatMap bytesOf)

/-- HKDF-Expand-SHA-384 of a key and the codes of its info, to `n` bytes. (DESIGN CHOICE, log 14.) -/
def hkdfExpand (key : BitVec 384) (info : List Nat) (n : Nat) : Nat :=
  let args := key.toNat :: n :: info
  ((Config.crypto 8 args).toNat + 2 ^ 384 * (Config.crypto 9 args).toNat) % 2 ^ (8 * n)

/-- The codes of the characters of a label. -/
def ascii (t : String) : List Nat := t.toList.map Char.toNat

/-- The words of a 384-bit value whose bytes stand highest first. -/
def words384Big (v : BitVec 384) : List Word :=
  let b (i : Nat) : Byte := v.extractLsb' (376 - 8 * i) 8
  (List.range 12).map fun i => b (4 * i + 3) ++ b (4 * i + 2) ++ b (4 * i + 1) ++ b (4 * i)

/-- An ECDSA signature under the identity key over the SHA-384 of a run of words: r, then s, big-endian. -/
def signWords (d : BitVec 384) (ws : List Word) : List Word :=
  let args := [d.toNat, (sha384 ws).toNat]
  words384Big (Config.crypto 1 args) ++ words384Big (Config.crypto 2 args)

/-! ### Usage records and checkpoints (R415, R416) -/

/-- The 32 words of a usage record (Table 19-7). (DEDUCED, log 121.) -/
def usageWords (x : World) (w ctx event : Nat) (ticks : DWord) : List Word :=
  words2 (x.seq + 1) ++ [BitVec.ofNat 32 (ctx * 2 ^ 16 + event * 2 ^ 8 + w), 0] ++ words2 ticks ++
    (x.used.flatMap words2) ++ [0, 0] ++ words384 x.prev ++ [0, 0, 0, 0]

/-- The first 40 words of a checkpoint (Table 19-8). -/
def checkpointWords (x : World) (w : Nat) (ticks : DWord) (mr : List (BitVec 384)) : List Word :=
  words2 x.seq ++ [BitVec.ofNat 32 w, 0] ++ words2 ticks ++ words384 x.prev ++
    words384 (sha384 (mr.flatMap words384)) ++ (x.used.flatMap words2) ++ [0, 0]

/-- Writes the next checkpoint of a world into its ring; a world with no ring has none, and counts none. (DESIGN CHOICE, log 153.) -/
def State.checkpointNow (s : State) (w : Nat) : State :=
  let x := s.world w
  match x.logRing with
  | none => s
  | some (_, _, ring) =>
    let ws := checkpointWords x w s.ticks s.trust.ident.mr
    (s.hostWords (ring.toNat + 256 * (x.checkpoints % 16)) (ws ++ signWords s.trust.ident.d ws)).setWorld w
      { x with checkpoints := x.checkpoints + 1 }

/-- Forms, chains and writes a usage record of a world; a checkpoint follows every 1,024th while the device has an identity.
(DEDUCED, log 121; DESIGN CHOICE, log 153.) -/
def State.usageRecord (s : State) (w ctx event : Nat) : State :=
  let x := s.world w
  let ws := usageWords x w ctx event s.ticks
  let seq := x.seq + 1
  let s1 := match x.logRing with
    | none => s
    | some (ring, depth, _) => s.hostWords (ring.toNat + 128 * (seq.toNat % 2 ^ depth)) ws
  let s2 := s1.setWorld w { x with seq := seq, prev := sha384 ws }
  if seq.toNat % 1024 == 0 && s.trust.ident.present then s2.checkpointNow w else s2

/-! ### Exhaustion (R413) -/

/-- A pre-emption request reaches the cores of a resident context (R90). -/
def State.preempt (s : State) (c : Nat) : State :=
  let x := s.ctx c
  if !x.resident then s
  else x.cores.foldl (fun s i => s.modCore i fun v => { v with preempt := true })
    (s.setCtx c { x with saving := true })

/-- A world becomes exhausted in a kind: its resident contexts are pre-empted, and usage event 5 is recorded, with the
lowest of them as its context. -/
def State.exhaust (s : State) (w kind : Nat) : State :=
  let cs := (s.contextsOf w).filter fun c => (s.ctx c).resident
  let s1 := cs.foldl (fun s c => (s.preempt c).modCtx c fun x => { x with exhausted := some kind }) s
  s1.usageRecord w (cs.headD 0) 5

/-- Acts on a world's values and limits; a world that this exhausts is dealt with. -/
def State.metered (s : State) (w : Nat) (f : World → World) : State :=
  let before := (s.world w).exhaustedKind
  let s1 := s.modWorld w f
  match before, (s1.world w).exhaustedKind with
  | none, some k => s1.exhaust w k
  | _, _ => s1

/-- Counts `n` more of a kind against a world. (DEDUCED, log 56.) -/
def State.charge (s : State) (w kind n : Nat) : State :=
  s.metered w fun x => { x with used := x.used.modify kind fun u => u + BitVec.ofNat 64 n }

/-- Whether the world of a context is exhausted. -/
def State.overQuota (s : State) (c : Nat) : Bool := (s.world (s.worldOf c)).exhaustedKind.isSome

end Sys2Proof.Machine
end

