-- ==== Sys2Proof/Machine/Engine.lean ====
section
/-! DEFINITION. What every engine shares (13_async 13.2, 13.5): accesses to memory and on-chip storage under a context's
translation, the completion actions of an operation, task entries, and the release of parked parties (12_translation
R272). -/

namespace Sys2Proof.Machine

/-! ### Accesses of an engine (R270, R296, R298) -/

/-- What an engine's access gives: bytes, a wait that ends by itself, a page on which it parks, or a status code of failure
(Table 13-4). -/
inductive Acc where
  | ok (bytes : List Byte)
  | wait
  | park (vpage reason : Nat)
  | fail (status : Nat)
  deriving DecidableEq, Repr

/-- The status of a failed access whose cause is `n`. -/
def statusOf (n : Nat) : Nat :=
  if n == 0x0B then 3 else if n == 0x0C then 4 else if n == 0x0D then 5 else if n == 0x0E || n == 0x0F then 11
  else if n == 0x0A then 7 else if n == 0x08 then 8 else 6

/-- A translation by an engine of a cluster: its L2 TLB, or the page's walk (R265, R266). -/
def State.engineXlat (s : State) (cl c vpage kind : Nat) : State × Xlat :=
  match s.mem.tlb.find? (fun e => e.place == 64 + cl && e.covers c vpage && e.permits kind) with
  | some e => (s, .ok e true)
  | none => s.walkNow cl none c vpage kind

/-- Where a global address leads an engine of a cluster. -/
def State.engineReach (s : State) (cl c : Nat) (a : DWord) (kind : Nat) : State × Reach :=
  match s.engineXlat cl c (vpageOf a) kind with
  | (s1, .ok e _) =>
    match s1.exitCause (e.phys a) with
    | some (n, p) => (s1, .cause n p)
    | none => (s1, .at (e.phys a) (s1.inWindow c a))
  | (s1, .refuse reason _) => (s1, .park (vpageOf a) reason)
  | (s1, .cause n _) => (s1, .cause n 0)
  | (s1, .wait) => (s1, .wait)

/-- A word from four bytes, lowest first. -/
def wordAt (bs : List Byte) (i : Nat) : Word := bs.getD (i + 3) 0 ++ bs.getD (i + 2) 0 ++ bs.getD (i + 1) 0 ++ bs.getD i 0

/-- Bytes as words, lowest first. -/
def toWords (bs : List Byte) : List Word := (List.range (bs.length / 4)).map fun i => wordAt bs (4 * i)

/-- The addresses of the words that `n` bytes at an address touch. -/
def wordsAt (a n : Nat) : List Nat := (List.range ((a % 4 + n + 3) / 4)).map fun i => a / 4 * 4 + 4 * i

/-- `n` bytes at an address, by a reader of words. -/
def bytesBy (f : Nat → Word) (a n : Nat) : List Byte := (((wordsAt a n).flatMap fun w => bytesOf (f w)).drop (a % 4)).take n

/-- A word with the bytes that a run of bytes at an address gives it. -/
def mergeWord (old : Word) (wa a : Nat) (bs : List Byte) : Word :=
  wordAt ((List.range 4).map fun i =>
    if a ≤ wa + i && wa + i < a + bs.length then bs.getD (wa + i - a) 0 else old.extractLsb' (8 * i) 8) 0

/-- What checks 1, 3 and 4 of Table 9-2 say of an engine's access to on-chip storage. -/
def State.engineChip (s : State) (c : Nat) (a : DWord) (n : Nat) : Option Acc :=
  let core := targetCore a
  let ws := wordsAt (offsetOf a) n
  if 13 < clusterField a || !ws.all (fun o => s.offsetOk core (spaceOf a) o 4) then some (.fail 6)
  else if (s.core core).ctx != some c then some (.fail 7)
  else none

/-- Reads `n` bytes of one 64-byte line. -/
def State.engineRead (s : State) (cl c : Nat) (a : DWord) (n : Nat) : State × Acc :=
  if isGlobal a then
    match s.engineReach cl c a 4 with
    | (s1, .park v r) => (s1, .park v r)
    | (s1, .cause m _) => (s1, .fail (statusOf m))
    | (s1, .wait) => (s1, .wait)
    | (s1, .at pa nc) =>
      let (s2, go) := s1.dirAccess pa false nc
      if !go then (s2, .wait)
      else if (wordsAt pa n).any s2.poisoned then (s2, .fail 5)
      else
        let s3 := s2.touchSlice pa false true
        (s3, .ok (bytesBy s3.homeWord pa n))
  else match s.engineChip c a n with
  | some r => (s, r)
  | none =>
    if (wordsAt a.toNat n).any fun w => s.mem.poison.contains w then (s, .fail 5)
    else (s, .ok (bytesBy s.chipWord a.toNat n))

/-- The bytes of a word that a run of bytes at an address covers. -/
def runMask (wa a n : Nat) : BitVec 4 :=
  BitVec.ofNat 4 ((List.range 4).map fun i => if a ≤ wa + i && wa + i < a + n then 2 ^ i else 0).sum

/-- Who writes for an engine operation: the rank of its writes, and the writes at the home slices that it has seen (R217). -/
structure Writer where
  rank : Nat
  since : Nat
  deriving DecidableEq, Repr

/-- A party outside the compute cores that has seen every write so far. -/
def State.manager (s : State) : Writer := { rank := 0, since := s.mem.written }

/-- Writes bytes of one word performed at its home slice; a poisoned word stays so unless the whole of it is written. -/
def State.homeMerge (s : State) (by_ : Writer) (wa a : Nat) (bs : List Byte) : State :=
  s.homeStore wa by_.rank by_.since (runMask wa a bs.length) (mergeWord 0 wa a bs)

/-- Writes bytes of one word of on-chip storage; a poisoned word stays so unless the whole of it is written (R389). -/
def State.chipMerge (s : State) (w a : Nat) (bs : List Byte) : State :=
  let s1 := s.setChipWord w (mergeWord (s.chipWord w) w a bs)
  if runMask w a bs.length == 15 then s1 else s1.setMem { s1.mem with poison := s.mem.poison }

/-- Writes bytes of one 64-byte line. A write to a poisoned line fails, unless it covers the line (R245, R246). -/
def State.engineWrite (s : State) (cl c : Nat) (by_ : Writer) (a : DWord) (bs : List Byte) : State × Acc :=
  if isGlobal a then
    match s.engineReach cl c a 5 with
    | (s1, .park v r) => (s1, .park v r)
    | (s1, .cause m _) => (s1, .fail (statusOf m))
    | (s1, .wait) => (s1, .wait)
    | (s1, .at pa nc) =>
      let (s2, go) := s1.dirAccess pa true nc
      let whole := pa % 64 == 0 && bs.length == 64
      if !go then (s2, .wait)
      else if s2.poisonedLine pa && !whole then (s2, .fail 5)
      else
        let s3 := if whole then s2.unpoison (pa + 1) else s2
        ((wordsAt pa bs.length).foldl (fun s wa => s.homeMerge by_ wa pa bs) (s3.touchSlice pa false (s3.keepsWrites pa)), .ok [])
  else match s.engineChip c a bs.length with
  | some r => (s, r)
  | none => ((wordsAt a.toNat bs.length).foldl (fun s w => s.chipMerge w a.toNat bs) s, .ok [])

/-- The 64-byte lines that `n` bytes at an address touch, as offset and length. -/
def lineParts (a n : Nat) : List (Nat × Nat) :=
  (List.range ((a % 64 + n + 63) / 64)).map fun i =>
    let lo := 64 * i - a % 64
    (lo, min n (64 * (i + 1) - a % 64) - lo)

/-- Reads a run of bytes, line by line; the first line that cannot be read decides. -/
def State.engineReads (s : State) (cl c : Nat) (a : DWord) : List (Nat × Nat) → State × Acc
  | [] => (s, .ok [])
  | (o, n) :: r =>
    match s.engineRead cl c (a + BitVec.ofNat 64 o) n with
    | (s1, .ok bs) =>
      match State.engineReads s1 cl c a r with
      | (s2, .ok cs) => (s2, .ok (bs ++ cs))
      | x => x
    | x => x

/-! ### Task entries (R302, R303) -/

def State.task (s : State) (n : Nat) : Task := Map.getD s.eng.tasks n Task.init
def State.setTask (s : State) (n : Nat) (t : Task) : State :=
  s.setEng { s.eng with tasks := Map.set s.eng.tasks n t }

/-- The identifier of an entry (Table 13-9). -/
def taskId (n : Nat) (t : Task) : Word := BitVec.ofNat 32 (t.gen.toNat * 4096 + n)

/-- The entry that an identifier names for a context, unless it is stale. -/
def State.taskOf (s : State) (c : Nat) (tid : Word) : Option Nat :=
  let n := tid.toNat % 4096
  let t := s.task n
  if t.st.isSome && taskId n t == tid && t.ctx == c then some n else none

/-- The completion fields of a packet (Table 13-2). (DEDUCED, log 58.) -/
def complOf (ws : List Word) : Compl :=
  let w := val ws 1
  { cstat := w.getLsbD 8, csig := w.getLsbD 9, caddr := val2 ws 2, sigtid := w >>> 12 }

/-- A READY task's launch is handed to the management core (Table 13-10). -/
def State.handOff (s : State) (n : Nat) : State :=
  let t := s.task n
  let l : Launch :=
    { num := s.serialNo, kind := 2, ctx := t.ctx, packet := t.packet, compl := complOf t.packet, task := some n,
      placed := false, yards := [], retired := 0, total := 0 }
  let s1 := s.setTask n { t with st := some .running }
  (s1.setEng { s1.eng with launches := s1.eng.launches ++ [l] }).bumpSerial

/-- A decrement of a task entry by `d` (R303). -/
def State.decTask (s : State) (n d : Nat) : State :=
  let t := s.task n
  if t.st != some .waiting then s
  else if t.count ≤ d && d != 0 then (s.setTask n { t with count := 0, st := some .ready }).handOff n
  else s.setTask n { t with count := t.count - d }

/-! ### Completion actions (R291) -/

/-- The completion status word (Table 13-3). -/
def statusWord (e : Ended) : Word :=
  BitVec.ofNat 32 (e.state * 2 ^ 30 + (if e.state == 1 then e.status else 0) * 2 ^ 24 + e.flags.toNat * 2 ^ 19 +
    e.aux % 2 ^ 16)

/-- DEDUCED, log 54. -/
def State.engineStat (s : State) (cl : Nat) (f : Engine → Engine) : State :=
  s.setEng { s.eng with stats := Map.set s.eng.stats cl (f (Map.getD s.eng.stats cl Engine.init)) }

/-- A fault event of one engine operation parked in a cluster (R271), which runs for a core. -/
def State.engineFault (s : State) (cl core c vpage kind reason : Nat) : State :=
  s.recordFault cl (if clusterOf core == cl then core % 4 else 0) c vpage kind reason 1

/-- Steps 3 and 4: the decrement, then the future; the task that the operation's end makes DONE is freed at once when it
has no future (Table 13-10). -/
def State.endRest (s : State) (e : Ended) : State :=
  let s1 := if e.compl.csig then
      (match s.taskOf e.ctx e.compl.sigtid with
        | none => s
        | some n => s.decTask n 1)
    else s
  let s2 := match e.task with
    | none => s1
    | some n =>
      let t := s1.task n
      s1.setTask n (if t.fut.isNone then { t with st := none } else { t with st := some .done })
  s2.resolveOpt e.fut e.state e.status

/-- Steps 2 to 4 of the completion actions: the status word is written, dropped or parked, and what follows it waits. -/
def State.finishEnd (s : State) (e : Ended) : State :=
  if !e.compl.cstat then s.endRest e
  else
    let a := e.compl.caddr
    let drop (s : State) : State := (s.engineStat e.cluster fun x => { x with loststat := x.loststat + 1 }).endRest e
    if !isGlobal a || a.toNat % 4 != 0 then drop s
    else match s.engineWrite e.cluster e.ctx { rank := e.rank, since := e.since } a (bytesOf (statusWord e)) with
    | (s1, .ok _) => s1.endRest e
    | (s1, .fail _) => drop s1
    | (s1, .wait) => s1.setEng { s1.eng with ends := s1.eng.ends ++ [e] }
    | (s1, .park v r) =>
      (s1.setEng { s1.eng with ends := s1.eng.ends ++ [{ e with parked := some (s1.parkAt e.cluster e.ctx v true) }] }).engineFault
        e.cluster (e.rank - 1) e.ctx v 5 r

/-- Operations whose status words wait and are not parked try again. -/
def State.retryEnds (s : State) : State :=
  let due := s.eng.ends.filter fun e => e.parked.isNone
  due.foldl (fun s e => s.finishEnd e)
    (s.setEng { s.eng with ends := s.eng.ends.filter fun e => e.parked.isSome })

/-- The cluster that serves the completion of an operation of no copy engine: that of the context's first core.
(DESIGN CHOICE, log 60.) -/
def State.homeCluster (s : State) (c : Nat) : Nat := clusterOf ((s.ctx c).cores.headD 0)

/-- A task reaches DONE: the completion actions of its packet run, and its future resolves (R303). -/
def State.taskDone (s : State) (n state status : Nat) : State :=
  let t := s.task n
  (s.setTask n { t with st := some .done }).finishEnd
    { cluster := s.homeCluster t.ctx, rank := 0, since := s.mem.written, ctx := t.ctx, compl := t.compl, fut := t.fut, task := some n, state := state,
      status := status, flags := 0, aux := 0, parked := none }

/-- A launch ends: its own completion actions run, then those of its task (R291, R303). -/
def State.launchEnd (s : State) (l : Launch) (state status : Nat) : State :=
  let s1 := s.setEng { s.eng with launches := s.eng.launches.filter fun x => x.num != l.num }
  let s2 := s1.finishEnd
    { cluster := s.homeCluster l.ctx, rank := 0, since := s.mem.written, ctx := l.ctx, compl := l.compl, fut := none, task := none, state := state,
      status := status, flags := 0, aux := 0, parked := none }
  match l.task with
  | none => s2
  | some n => s2.taskDone n state status

/-- Launches whose last yard has retired complete (R300). -/
def State.reapLaunches (s : State) : State :=
  (s.eng.launches.filter fun l => l.placed && l.total ≤ l.retired).foldl (fun s l => s.launchEnd l 0 0) s

/-! ### Release of parked parties (R272) -/

/-- The cluster whose fault buffer takes the events of a consumer's queue (R287): its engine's, or that of the context's first
core. (DESIGN CHOICE, log 60.) -/
def State.queueCluster (s : State) (q : QSlot) : Nat :=
  if q.ckind.toNat == 1 then q.cclust else s.homeCluster q.ctx.toNat

/-- Engine operations of a context that are parked in a cluster retry (R270, R272). The consumers of queues and the service
calls of the context retry as well. -/
def State.unparkEngines (s : State) (cl c : Nat) : State :=
  let e := s.eng
  let copies := e.copies.map fun x => if x.ctx == c && x.cluster == cl then { x with parked := none } else x
  let ends := e.ends.map fun x => if x.ctx == c && x.cluster == cl then { x with parked := none } else x
  let queues := Map.mapVals (fun _ q => if q.ctx.toNat == c && s.queueCluster q == cl then { q with parked := none } else q) e.queues
  let pull (p : Pull) : Pull := if p.ctx == c && clusterOf p.core == cl then { p with parked := none } else p
  let wqs := Map.mapVals (fun _ q => { q with pulls := q.pulls.map pull }) e.wqs
  let op (o : MatOp) : MatOp := if o.ctx == c then { o with parked := none } else o
  let call (r : Call) : Call := if r.ctx == c then { r with parked := none } else r
  let core (i : Nat) (x : Core) : Core :=
    if clusterOf i == cl then { x with mrun := x.mrun.map op, ring := Map.mapVals (fun _ c => call c) x.ring } else x
  { s with eng := { e with copies := copies, ends := ends, queues := queues, wqs := wqs },
           fab := { s.fab with cores := Map.mapVals core s.fab.cores } }

/-- The entries of a context leave a cluster's fault buffer (R272, R274). -/
def State.clearFaults (s : State) (cl c : Nat) : State :=
  let b := s.fb cl
  let entries := b.entries.filter fun p => p.2.ctx != c
  let dropctx := b.dropctx &&& ~~~(ctxBit c)
  s.setFb cl { entries := entries, dropctx := dropctx, drops := if entries.isEmpty && dropctx == 0 then 0 else b.drops }

/-- A replay of a context in a cluster, at one instant (R272). (DEDUCED, log 52.) -/
def State.replayIn (s : State) (cl c : Nat) : State :=
  let s1 := s.clearFaults cl c
  let parked := (s1.fab.threads.filter fun p => s1.parkedIn cl c p.1).map fun p => p.1
  ((parked.foldl (fun s k => s.unpark k) s1).unparkEngines cl c).retryEnds

end Sys2Proof.Machine
end

