-- ==== Sys2Proof/Machine/Copies.lean ====
section
/-! DEFINITION. The copy engine (13_async 13.3): the checks of a copy packet, conversions and swizzles, the codec of
16_attention R349, the rows of a copy, its end, and the landing of a segment (04_control R108). -/

namespace Sys2Proof.Machine

/-! ### The packet (R290, R293, R294) -/

/-- A header of Table 13-2 whose reserved bits are zero and whose KIND is not 5 or more. -/
def headerOk (ws : List Word) : Bool := bitsOf (val ws 1).toNat 11 10 == 0 && bitsOf (val ws 1).toNat 7 0 ≤ 4

def kindOf (ws : List Word) : Nat := bitsOf (val ws 1).toNat 7 0

/-- The copy that a packet describes (Table 13-5). -/
def copyOf (ws : List Word) (num cluster ctx core since : Nat) (fut : Option (Nat × Nat)) : Copy :=
  let o := (val ws 12).toNat
  { num := num, cluster := cluster, ctx := ctx, core := core, src := val2 ws 4, dst := val2 ws 6,
    rowlen := (val ws 8).toNat, nrows := (val ws 9).toNat, spitch := (val ws 10).toNat, dpitch := (val ws 11).toNat,
    rm := bitsOf o 19 17, swzsrc := bitOf o 16, swz := bitsOf o 15 8, sat := bitOf o 7, mxfmt := bitsOf o 6 4,
    conv := bitsOf o 3 0, compl := complOf ws, fut := fut, seg := none, row := 0, buf := none, pos := 0, flags := 0,
    aux := 0, parked := none, since := since }

/-- The unit that ROWLEN is a multiple of, and the alignment (Table 13-6). -/
def convUnit (conv : Nat) : Nat × Nat :=
  match conv with
  | 0 => (1, 1)
  | 1 => (4, 4)
  | 2 => (4, 4)
  | 3 => (2, 4)
  | 4 => (2, 4)
  | 5 => (128, 64)
  | 6 => (64, 64)
  | _ => (1, 64)

/-- DLEN, at most, of a conversion (Table 13-6). -/
def convLen (conv n : Nat) : Nat :=
  match conv with
  | 0 => n
  | 1 => n / 2
  | 2 => n / 2
  | 3 => 2 * n
  | 4 => 2 * n
  | 5 => n / 2
  | 6 => 2 * n
  | _ => 16384

/-- Chunk bytes, field width and lowest bit of a swizzle code (R295). -/
def swzChunk (code : Nat) : Nat := 16 * 2 ^ (code % 4)
def swzBits (code : Nat) : Nat := code / 4 % 8
def swzLow (code : Nat) : Nat := code / 32

/-- `sw(o, k)` (R295). -/
def sw (code o k : Nat) : Nat :=
  let ch := swzChunk code
  ch * ((o / ch) ^^^ (k / 2 ^ swzLow code % 2 ^ swzBits code)) + o % ch

/-- A row whose byte `o` is byte `sw(o, k)` of another. -/
def swizzle (code k : Nat) (bs : List Byte) : List Byte :=
  if swzBits code == 0 then bs else (List.range bs.length).map fun o => bs.getD (sw code o k) 0

/-- Whether a packet is malformed in the sense of status 9. -/
def Copy.malformed (x : Copy) (ws : List Word) : Bool :=
  let len := if x.swzsrc then x.rowlen else if x.conv == 7 then 4096 else convLen x.conv x.rowlen
  !headerOk ws || kindOf ws != 1 || bitsOf (val ws 12).toNat 31 20 != 0 || val ws 13 != 0 || val ws 14 != 0 ||
    val ws 15 != 0 || 8 < x.conv || 5 < x.mxfmt || 4 < x.rm || x.rowlen == 0 || 2 ^ 24 < x.rowlen || x.nrows == 0 ||
    65536 < x.nrows || x.rowlen % (convUnit x.conv).1 != 0 || (x.conv == 7 && x.rowlen != 16384) ||
    (x.conv == 8 && 16384 < x.rowlen) || (7 ≤ x.conv && x.nrows != 1) ||
    (swzBits x.swz != 0 && len % (swzChunk x.swz * 2 ^ swzBits x.swz) != 0)

/-- Whether an address or pitch is not of the alignment of the conversion. -/
def Copy.misaligned (x : Copy) : Bool :=
  let n := (convUnit x.conv).2
  x.src.toNat % n != 0 || x.dst.toNat % n != 0 || x.spitch % n != 0 || x.dpitch % n != 0

/-- The on-chip sides of a copy: core, space, and the bounding offsets over all rows (R297). -/
def Copy.sides (x : Copy) : List (Nat × Nat × Nat × Nat) :=
  let side (a : DWord) (pitch len : Nat) : List (Nat × Nat × Nat × Nat) :=
    if isGlobal a then []
    else [(targetCore a, spaceOf a, offsetOf a, offsetOf a + (x.nrows - 1) * pitch + len)]
  side x.src x.spitch x.rowlen ++ side x.dst x.dpitch (convLen x.conv x.rowlen)

/-- The status with which a packet fails before it starts (R292, R305). (DEDUCED, log 59.) -/
def State.copyRefused (s : State) (x : Copy) (ws : List Word) : Option Nat :=
  let form (a : DWord) : Bool := isGlobal a || (1 ≤ spaceOf a && spaceOf a ≤ 4 && clusterField a < 14)
  if x.malformed ws then some 9
  else if x.misaligned then some 8
  else if !form x.src || !form x.dst then some 6
  else if x.sides.any fun d => (s.core d.1).ctx != some x.ctx then some 7
  else none

/-- Whether every target core has free scoreboard entries for a copy (R297). (DEDUCED, log 73.) -/
def State.rangesFree (s : State) (x : Copy) : Bool :=
  x.sides.all fun d => decide ((s.core d.1).ranges.length + (x.sides.filter fun e => e.1 == d.1).length ≤ Config.scoreboard)

/-- Starts a copy: its scoreboard entries are allocated together and it is in flight. (DEDUCED, log 73.) -/
def State.startCopy (s : State) (x : Copy) : State :=
  let s1 := x.sides.foldl (fun s d =>
    let r : Range := { space := d.2.1, lo := d.2.2.1, hi := d.2.2.2, fut := x.fut, copy := x.num, faulted := false,
                       status := 0 }
    s.modCore d.1 fun c => { c with ranges := c.ranges ++ [r] }) s
  (s1.setEng { s1.eng with copies := s1.eng.copies ++ [x] }).bumpSerial

/-! ### Conversions (Table 13-6) -/

/-- A run of bytes in pieces of `n`. -/
def pieces (n : Nat) (bs : List Byte) : List (List Byte) :=
  (List.range (bs.length / n)).map fun i => (bs.drop (n * i)).take n

def natOf (bs : List Byte) : Nat := bs.foldr (fun b n => n * 256 + b.toNat) 0
def natBytes (n v : Nat) : List Byte := (List.range n).map fun i => BitVec.ofNat 8 (v / 256 ^ i)

/-- Converts a row in pieces and gathers the flags. -/
def byPiece (n : Nat) (bs : List Byte) (f : List Byte → List Byte × FFlags) : List Byte × FFlags :=
  (pieces n bs).foldl (fun acc p =>
    let (o, fl) := f p
    (acc.1 ++ o, acc.2 ||| fl)) ([], 0)

/-- One granule cell from 32 FP32 values, as MXPACK forms it (R186, R205). -/
def packCell (f : Fmt) (rm : RMode) (sat : Bool) (bs : List Byte) : List Byte × FFlags :=
  let vs := (toWords bs).map val32
  let special := vs.any fun v => match v with
    | .nan _ => true
    | .inf _ => true
    | _ => false
  if special then (List.replicate 32 0 ++ [0xFF] ++ List.replicate 31 0, flagNV)
  else
    let x : Int := match (vs.filterMap FVal.log).max? with
      | none => -127
      | some e => max (-127) (min 127 (e - f.emaxe))
    let rs := vs.map fun v => roundTo f (v.scale (-x)) rm sat
    (rs.map (fun r => BitVec.ofNat 8 r.1) ++ [BitVec.ofInt 8 (x + 127)] ++ List.replicate 31 0,
      rs.foldl (fun acc r => acc ||| r.2) 0)

/-- The 32 FP32 values of a granule cell (R187). -/
def unpackCell (f : Fmt) (rm : RMode) (bs : List Byte) : List Byte × FFlags :=
  let rs := (bs.take 32).map fun b => unpackElement f rm (bs.getD 32 0).toNat b.toNat
  (rs.flatMap fun r => bytesOf r.1, rs.foldl (fun acc r => acc ||| r.2) 0)

/-! ### The key-value codec (R349) -/

/-- The code of a line (Table 16-4). -/
def lineCode (bs : List Byte) : Nat :=
  if bs.all (· == 0) then 0
  else if (pieces 4 bs).all (· == bs.take 4) then 1
  else if bs.drop 32 == bs.take 32 then 2
  else 3

/-- Payload bytes of a code. -/
def codeLen (c : Nat) : Nat :=
  match c with
  | 0 => 0
  | 1 => 4
  | 2 => 32
  | _ => 64

/-- The line that a code and its payload stand for. -/
def lineFrom (c : Nat) (p : List Byte) : List Byte :=
  match c with
  | 0 => List.replicate 64 0
  | 1 => (List.replicate 16 (p.take 4)).flatten
  | 2 => p.take 32 ++ p.take 32
  | _ => p.take 64

/-- Compresses a block: what is written, and AUX. -/
def compress (bs : List Byte) : List Byte × Nat :=
  let lines := pieces 64 bs
  let codes := lines.map lineCode
  let head := (List.range 64).map fun i =>
    BitVec.ofNat 8 (codes.getD (4 * i) 0 + 4 * codes.getD (4 * i + 1) 0 + 16 * codes.getD (4 * i + 2) 0 +
      64 * codes.getD (4 * i + 3) 0)
  let body := (lines.zip codes).flatMap fun p => p.1.take (codeLen p.2)
  let out := head ++ body
  if 12288 < out.length then (bs, 256)
  else
    let c := (out.length + 4095) / 4096 - 1
    (out ++ List.replicate (4096 * (c + 1) - out.length) 0, 64 * (c + 1))

/-- The lines that codes stand for, with their payloads in order. -/
def expand : List Nat → List Byte → List Byte
  | [], _ => []
  | c :: r, p => lineFrom c p ++ expand r (p.drop (codeLen c))

/-- Decompresses a page; `none` when its payloads do not fit in it. -/
def decompress (bs : List Byte) : Option (List Byte) :=
  if bs.length == 16384 then some bs
  else
    let codes := (List.range 256).map fun l => (bs.getD (l / 4) 0).toNat / 4 ^ (l % 4) % 4
    if bs.length < 64 + (codes.map codeLen).sum then none else some (expand codes (bs.drop 64))

/-- The converted row `k` of a copy, the flags it raises and AUX; `none` where the data does not decode (R294, R295). -/
def Copy.convert (x : Copy) (k : Nat) (bs0 : List Byte) : Option (List Byte × FFlags × Nat) :=
  let bs := if x.swzsrc then swizzle x.swz k bs0 else bs0
  let rm := RMode.ofCode x.rm
  let put (r : List Byte × FFlags) (aux : Nat) : Option (List Byte × FFlags × Nat) :=
    some (if x.swzsrc then r.1 else swizzle x.swz k r.1, r.2, aux)
  let narrow (f : Fmt) : List Byte × FFlags := byPiece 4 bs fun p =>
    let (c, fl) := roundTo f (val32 (wordAt p 0)) rm x.sat
    (natBytes 2 c, fl)
  let wide (f : Fmt) : List Byte × FFlags := byPiece 2 bs fun p =>
    let (w, fl) := to32 (f.value (natOf p)) .rne
    (bytesOf w, fl)
  let f := elementFmt x.mxfmt
  match x.conv with
  | 0 => put (bs, 0) 0
  | 1 => put (narrow .bf16) 0
  | 2 => put (narrow .fp16) 0
  | 3 => put (wide .bf16) 0
  | 4 => put (wide .fp16) 0
  | 5 => put (byPiece 128 bs (packCell f rm x.sat)) 0
  | 6 => put (byPiece 64 bs (unpackCell f rm)) 0
  | 7 => put ((compress bs).1, 0) (compress bs).2
  | _ => (decompress bs).bind fun r => put (r, 0) 0

/-! ### Rows (R296, R298) -/

/-- What has become of a copy: a row is done, it pauses, or it fails with a status. -/
inductive RowOut where
  | done
  | pause
  | failed (status : Nat)
  deriving DecidableEq, Repr

/-- Who writes for a copy: the core whose thread issued it; for a packet of a queue, none that the engine knows (R217).
(DESIGN CHOICE, log 143.) -/
def Copy.writer (x : Copy) : Writer := { rank := if x.fut.isSome then x.core + 1 else 0, since := x.since }

/-- A copy parks on a page, as source or destination: the fault event is its engine's (R271). -/
def State.copyParks (s : State) (x : Copy) (v r : Nat) (dst : Bool) : State × Copy × RowOut :=
  (s.engineFault x.cluster x.core x.ctx v (if dst then 5 else 4) r, { x with parked := some (s.parkAt x.cluster x.ctx v dst) }, .pause)

/-- Writes what is left of a converted row, at most `n` lines of it; each counts against the world's quota. The answer says how
many lines are still to go. (DEDUCED, log 56.) -/
def State.copyWrites (s : State) (x : Copy) (a : DWord) (out : List Byte) (n : Nat) :
    List (Nat × Nat) → Nat × State × Copy × RowOut
  | [] => (n, s, { x with buf := none, pos := 0, row := x.row + 1 }, .done)
  | (o, m) :: r =>
    if o < x.pos then State.copyWrites s x a out n r
    else if n = 0 then (0, s, x, .pause)
    else match s.engineWrite x.cluster x.ctx x.writer (a + BitVec.ofNat 64 o) ((out.drop o).take m) with
    | (s1, .ok _) =>
      let s2 := s1.engineStat x.cluster fun e => { e with bytes := e.bytes + BitVec.ofNat 64 m }
      State.copyWrites (s2.charge (s2.worldOf x.ctx) 2 m) { x with pos := o + m } a out (n - 1) r
    | (s1, .wait) => (0, s1, x, .pause)
    | (s1, .park v reason) => (0, s1.copyParks x v reason true)
    | (s1, .fail st) => (0, s1, x, .failed st)

/-- The row in progress: its writes, once it has been read. -/
def State.copyPut (s : State) (x : Copy) (out : List Byte) (n : Nat) : Nat × State × Copy × RowOut :=
  let a := x.dst + BitVec.ofNat 64 (x.row * x.dpitch)
  s.copyWrites x a out n (lineParts a.toNat out.length)

/-- One row of a copy, or what is left of it, for at most `n` destination lines. (DESIGN CHOICE, log 57.) -/
def State.copyRow (s : State) (x : Copy) (n : Nat) : Nat × State × Copy × RowOut :=
  match x.buf with
  | some out => s.copyPut x out n
  | none =>
    let a := x.src + BitVec.ofNat 64 (x.row * x.spitch)
    match s.engineReads x.cluster x.ctx a (lineParts a.toNat x.rowlen) with
    | (s1, .wait) => (0, s1, x, .pause)
    | (s1, .park v reason) => (0, s1.copyParks x v reason false)
    | (s1, .fail st) => (0, s1, x, .failed st)
    | (s1, .ok bs) =>
      match x.convert x.row bs with
      | none => (0, s1, x, .failed 10)
      | some (out, fl, aux) =>
        s1.copyPut { x with buf := some out, pos := 0, flags := x.flags ||| fl, aux := aux } out n

/-- Rows of a copy, for at most `n` destination lines. (DESIGN CHOICE, log 57.) -/
def State.copyRows (s : State) (x : Copy) (n : Nat) : Nat → State × Copy × RowOut
  | 0 => (s, x, .pause)
  | rows + 1 =>
    if x.nrows ≤ x.row then (s, x, .done)
    else if n = 0 then (s, x, .pause)
    else match s.copyRow x n with
    | (m, s1, x1, .done) => State.copyRows s1 x1 m rows
    | (_, r) => r

/-! ### The end of a copy (R210, R291, R297) -/

def State.putCopy (s : State) (x : Copy) : State :=
  s.setEng { s.eng with copies := s.eng.copies.map fun y => if y.num == x.num then x else y }

/-- The entries of an ended copy retire, or are marked faulted. -/
def State.endRanges (s : State) (num : Nat) (faulted : Bool) (status : Nat) : State :=
  { s with fab := { s.fab with cores := Map.mapVals (fun _ c =>
      { c with ranges := if faulted then c.ranges.map fun r => if r.copy == num then { r with faulted := true, status := status }
                           else r
                         else c.ranges.filter fun r => r.copy != num }) s.fab.cores } }

/-- What the end of a fetch makes of its segment (R108, R115). -/
def Seg.ended (g : Seg) (state status : Nat) : Seg :=
  match state with
  | 0 => { g with st := 2, status := 0, slot := none }
  | 1 => { g with st := 3, status := status, slot := none }
  | _ => { g with st := 0, packets := 0, slot := none }

def State.setSeg (s : State) (core n : Nat) (g : Seg) : State :=
  s.modCore core fun c => { c with segs := Map.set c.segs n g }

/-- A copy or segment fetch is done (0), fails (1) or is cancelled (2). -/
def State.copyEnd (s : State) (x : Copy) (state status : Nat) : State :=
  let s1 := s.setEng { s.eng with copies := s.eng.copies.filter fun y => y.num != x.num }
  let s2 := (s1.endRanges x.num (state == 1) status).engineStat x.cluster fun e => { e with ops := e.ops + 1 }
  let s3 := match x.seg with
    | none => s2
    | some (c, n) => s2.setSeg c n ((s2.seg c n).ended state status)
  s3.finishEnd { cluster := x.cluster, rank := x.writer.rank, since := x.since, ctx := x.ctx, compl := x.compl, fut := x.fut,
                 task := none, state := state, status := status, flags := x.flags,
                 aux := if state == 0 then x.aux else 0, parked := none }

/-- A copy fails before it starts: an operation of its engine all the same (R299). -/
def State.copyFails (s : State) (x : Copy) (status : Nat) : State :=
  (s.engineStat x.cluster fun e => { e with ops := e.ops + 1 }).finishEnd
    { cluster := x.cluster, rank := x.writer.rank, since := x.since, ctx := x.ctx, compl := x.compl, fut := x.fut, task := none,
      state := 1, status := status, flags := 0, aux := 0, parked := none }

/-- What a run of rows leaves of a copy. -/
def State.copySettle (r : State × Copy × RowOut) : State :=
  match r with
  | (s, x, .done) => s.copyEnd x 0 0
  | (s, x, .pause) => s.putCopy x
  | (s, x, .failed st) => s.copyEnd x 1 st

/-- Destination lines that no copy exceeds. -/
def allLines : Nat := 2 ^ 48

/-- Runs a copy for a number of 64-byte destination lines, or to its end. (DESIGN CHOICE, log 57.) -/
def State.runCopy (s : State) (x : Copy) (lines : Nat) : State :=
  State.copySettle (s.copyRows x (if lines = 0 then allLines else lines) (x.nrows - x.row + 1))

/-- Lands a segment: every byte of the image is read, and the segment holds them (R108, R109). (DEDUCED, log 55, 96.) -/
def State.landSegment (s : State) (x : Copy) (core n : Nat) : State :=
  match s.engineReads x.cluster x.ctx x.src (lineParts x.src.toNat x.rowlen) with
  | (s1, .wait) => s1
  | (s1, .park v r) =>
    (s1.engineFault x.cluster x.core x.ctx v 4 r).putCopy { x with parked := some (s1.parkAt x.cluster x.ctx v false) }
  | (s1, .fail st) => s1.copyEnd x 1 st
  | (s1, .ok bs) =>
    let key := chipKey 5 core (n * 2 ^ 16)
    let s2 := if core < Config.cores then (toWords bs).zipIdx.foldl (fun s w => s.setChipWord (key + 4 * w.2) w.1) s1 else s1
    let s3 := s2.engineStat x.cluster fun e => { e with bytes := e.bytes + BitVec.ofNat 64 x.rowlen }
    (s3.charge (s3.worldOf x.ctx) 2 x.rowlen).copyEnd x 0 0

/-- A copy parked on a page fails as FBDELIVER fails it: status 1 for a source, 2 for a destination (R273, R298). -/
def State.failParked (s : State) (x : Copy) : State :=
  match x.parked with
  | none => s
  | some p => s.copyEnd x 1 (if p.write then 2 else 1)

end Sys2Proof.Machine
end

