-- ==== Sys2Proof/Machine/Memory.lean ====
section
/-! DEFINITION. Memory access instructions (09_memory): loads, stores, atomics, ordering points, PREF and PARK, over one
operation that checks and places an access (Table 9-2). -/

namespace Sys2Proof.Machine

/-! ### Placing an access (Table 9-2) -/

/-- Where the first byte of an access lies. -/
inductive Place where
  | chip (key : Nat)
  | cw (cl co off : Nat)
  | mem (pa : Nat) (nc : Bool)
  deriving DecidableEq, Repr

/-- What the checks of Table 9-2 give an access. -/
inductive Loc where
  | at (p : Place)
  | fail (i : Trap)
  | park (vpage reason : Nat)
  | stall
  deriving DecidableEq, Repr

/-- A trap whose record holds the address, and a port where one is at fault (Table 18-1). -/
def accessTrap (n : Nat) (a : DWord) (port : Nat) : Trap := { trapOf n a with info1 := BitVec.ofNat 64 port }

/-- Checks 3 and 4 for an on-chip access, and the waits of R202 and R209. -/
def State.chipPlace (s : State) (k : Nat) (a : DWord) (size : Nat) : Loc :=
  let core := targetCore a
  let sp := spaceOf a
  let off := offsetOf a
  let foreign := (s.core core).ctx != some (s.ctxOf k)
  if sp == 6 then
    if 0x500000 ≤ off && off < 0x580000 && foreign then .fail (accessTrap 0x0A a 0)
    else .at (.cw (clusterField a) (core % 4) off)
  else if foreign then .fail (accessTrap 0x0A a 0)
  else match s.overlap core sp off (off + size) with
  | some r => if r.faulted then .fail (rangeTrap r) else .stall
  | none => if s.matrixBusy core sp off then .stall else .at (.chip a.toNat)

/-- Checks 1 to 5 of Table 9-2, in order. -/
def State.locate (s : State) (k : Nat) (a : DWord) (size kind : Nat) : State × Loc :=
  if isGlobal a then
    if a.toNat % size != 0 then (s, .fail (accessTrap 0x08 a 0))
    else match s.reach (some (coreOf k)) (s.ctxOf k) a kind with
    | (s1, .at pa nc) => (s1, .at (.mem pa nc))
    | (s1, .park v r) => (s1, .park v r)
    | (s1, .cause n p) => (s1, .fail (accessTrap n a p))
    | (s1, .wait) => (s1, .stall)
  else if !s.chipForm a size kind || (spaceOf a == 6 && s.cwUnassigned (s.ctxOf k) a size kind) then
    (s, .fail (accessTrap 0x09 a 0))
  else if a.toNat % size != 0 then (s, .fail (accessTrap 0x08 a 0))
  else (s, s.chipPlace k a size)

/-- What a placed access that does not go on becomes in its lane. -/
def Loc.out (l : Loc) (kind : Nat) : LaneOut :=
  match l with
  | .at _ => .off
  | .fail i => .trap i
  | .park v r => .park (.blocked (.page v kind r false))
  | .stall => .stall

/-! ### Words at a place -/

/-- Whether a load of a word performs at its home slice. -/
def State.atHome (s : State) (core hint wa : Nat) : Bool :=
  match s.cached core wa with
  | none => true
  | some w => w.st == .valid && 2 ≤ hint

/-- A thread loads words, one after another. (DESIGN CHOICE, log 147.) -/
def State.loadRun (s : State) (k hint : Nat) : List Nat → State × List Word
  | [] => (s, [])
  | wa :: r =>
    let (s1, v) := s.loadWord k hint wa
    let (s2, vs) := State.loadRun s1 k hint r
    (s2, v :: vs)

/-- A thread stores words from an address on. (DESIGN CHOICE, log 147.) -/
def State.storeRun (s : State) (k hint pa : Nat) (nc : Bool) (ws : List Word) : State :=
  ws.zipIdx.foldl (fun s x => s.storeWord k hint (pa + 4 * x.2) nc 15 x.1) s

/-- Words of on-chip storage are written from a key on. (DESIGN CHOICE, log 147.) -/
def State.chipRun (s : State) (key : Nat) (ws : List Word) : State :=
  ws.zipIdx.foldl (fun s x => s.setChipWord (key + 4 * x.2) x.1) s

/-- Reads `n` words at a place, with check 6. (DEDUCED, log 50.) -/
def State.readPlace (s : State) (k hint : Nat) (a : DWord) (n : Nat) (p : Place) : State × (List Word ⊕ LaneOut) :=
  match p with
  | .chip key =>
    let ks := (List.range n).map fun i => key + 4 * i
    if ks.any fun x => s.mem.poison.contains x then (s, .inr (.trap (accessTrap 0x0D a 0)))
    else (s, .inl (ks.map s.chipWord))
  | .cw cl co off =>
    let rs := (List.range n).map fun i => s.cwRead (s.ctxOf k) cl co (off + 4 * i)
    match rs.findSome? (fun r => match r with
      | .inl _ => none
      | .inr c => some c) with
    | some c => (s, .inr (.trap (accessTrap c a 0)))
    | none => (s, .inl (rs.map fun r => match r with
      | .inl w => w
      | .inr _ => 0))
  | .mem pa nc =>
    let was := (List.range n).map fun i => pa + 4 * i
    let (s1, go) := if was.any (s.atHome (coreOf k) hint) then s.dirAccess pa false nc else (s, true)
    if !go then (s1, .inr .stall)
    else if was.any s1.poisoned then (s1, .inr (.trap (accessTrap 0x0D a 0)))
    else
      let r := s1.loadRun k hint was
      (r.1, .inl r.2)

/-- Writes words at a place; `none` when they are written. (DEDUCED, log 50.) -/
def State.writePlace (s : State) (k hint : Nat) (a : DWord) (ws : List Word) (p : Place) : State × Option LaneOut :=
  match p with
  | .chip key => (s.chipRun key ws, none)
  | .cw cl co off =>
    let (s1, go) := s.cwReady (s.ctxOf k) off (4 * ws.length) (val2 ws 0)
    if !go then (s1, some .stall)
    else match s1.cwWrite (s.ctxOf k) cl co off (4 * ws.length) (val2 ws 0) with
    | .inl s2 => (s2, none)
    | .inr c => (s, some (.trap (accessTrap c a 0)))
  | .mem pa nc =>
    let (s1, go) := if 2 ≤ hint then s.dirAccess pa true nc else (s, true)
    if !go then (s1, some .stall)
    else if s1.poisonedLine pa then (s1, some (.trap (accessTrap 0x0D a 0)))
    else (s1.storeRun k hint pa nc ws, none)

/-! ### The lanes of a memory word -/

/-- The record of the first poisoned word that a word of the group consumes (Table 18-8, type 1). (DEDUCED, log 51.) -/
def State.reportPoison (s : State) (outs : List (Nat × LaneOut)) : State :=
  match outs.findSome? (fun p => match p.2 with
    | .trap i => if i.cause == 0x0D then some (p.1, i.info0) else none
    | _ => none) with
  | none => s
  | some (k, a) => s.postRecord 1 0 (some (s.ctxOf k)) a (threadDetail k)

/-- The page, kind and reason on which a lane parks. -/
def parkOf (o : LaneOut) : Option (Nat × Nat × Nat) :=
  match o with
  | .park (.blocked (.page v kind r _)) => some (v, kind, r)
  | _ => none

/-- An outcome that parks on a page, marked with whether the fault event of its page is dropped (R271). -/
def markPark (s : State) (p : Nat × LaneOut) : Nat × LaneOut :=
  match p.2 with
  | .park (.blocked (.page v kind r _)) =>
    (p.1, .park (.blocked (.page v kind r (s.drops (clusterOf (coreOf p.1)) (s.ctxOf p.1) v))))
  | _ => p

/-- One fault event for each page on which lanes of a word park, with their number (R266); the lanes of a dropped event are
marked. -/
def State.reportParks (s : State) (outs : List (Nat × LaneOut)) : State × List (Nat × LaneOut) :=
  let parks := outs.filterMap fun p => (parkOf p.2).map fun x => (p.1, x)
  let pages := parks.foldl (fun l p => if l.contains p.2.1 then l else l ++ [p.2.1]) []
  pages.foldl (fun acc v =>
    match parks.filter (fun p => p.2.1 == v) with
    | [] => acc
    | p :: r =>
      (acc.1.recordFault (clusterOf (coreOf p.1)) (coreOf p.1 % 4) (acc.1.ctxOf p.1) v p.2.2.1 p.2.2.2 (1 + r.length),
        acc.2.map fun q => if (parkOf q.2).any fun x => x.1 == v then markPark acc.1 q else q)) (s, outs)

/-- What a memory word leaves behind once its lanes have acted; nothing when it has stalled. -/
def State.memDone (r : State × List (Nat × LaneOut)) : State × List (Nat × LaneOut) :=
  if r.2.any fun p => p.2 == .stall then r else (r.1.reportPoison r.2).reportParks r.2

/-- A whole line written by a context is no longer poisoned (R246). -/
def State.clearLines (s : State) (was : List Nat) : State :=
  s.setMem { s.mem with poison := s.mem.poison.filter fun p =>
    !(p % 4 == 1 && (List.range 16).all fun i => was.contains (p - 1 + 4 * i)) }

/-- The physical words that a store at a place covers. -/
def Place.covers (p : Place) (n : Nat) : List Nat :=
  match p with
  | .mem pa _ => (List.range n).map fun i => pa + 4 * i
  | _ => []

/-- The address of a word: the pointer pair stepped by the offset or index times `n` (R222). -/
def eaOf (ws : List Word) (n : Nat) : DWord := val2 ws 0 + (val ws 2).signExtend 64 * BitVec.ofNat 64 n

/-- Bytes of a size code. -/
def sizeBytes (sz : BitVec 2) : Nat :=
  match sz.toNat with
  | 0 => 4
  | 1 => 8
  | 2 => 16
  | _ => 64

def hintNum (h : Hint) : Nat :=
  match h with
  | .dflt => 0
  | .strm => 1
  | .nodc => 2
  | .once => 3

/-- The codes of the address operands. -/
def addrCodes (o : OpM) : List (BitVec 5) := codesFrom o.a 2 ++ [o.x]

/-- Lanes of a granule word, octet by octet: the addresses of one octet are uniform (R205). -/
def State.eachOctet (s : State) (ins : List (Nat × List Word)) (n : Nat)
    (f : State → Nat → List Word → State × LaneOut) : State × List (Nat × LaneOut) :=
  (List.range 8).foldl (fun acc o =>
    let l := ins.filter fun p => laneOf p.1 / 8 == o
    match octetMismatch (l.map fun p => p.1) with
    | some k => (acc.1, acc.2 ++ allTrap l (mismatch (laneOf k)))
    | none =>
      let r := uniformly (fun ws => eaOf ws n) l acc.1 (acc.1.eachLane l f)
      (r.1, acc.2 ++ r.2)) (s, [])

/-! ### LD, LDX, ST, STX (R205, R223) -/

/-- A load in one lane. -/
def State.loadLane (s : State) (k hint size : Nat) (a : DWord) : State × LaneOut :=
  match s.locate k a size 0 with
  | (s1, .at p) =>
    match s1.readPlace k hint a (size / 4) p with
    | (s2, .inl vs) => (s2, doneWith vs)
    | (s2, .inr o) => (s2, o)
  | (s1, l) => (s1, l.out 0)

/-- A place `n` bytes on. -/
def Place.add (p : Place) (n : Nat) : Place :=
  match p with
  | .chip key => .chip (key + n)
  | .cw cl co off => .cw cl co (off + n)
  | .mem pa nc => .mem (pa + n) nc

/-- A granule load in one lane: word m of the cell for lane 8o + m, and the scale byte. -/
def State.loadCell (s : State) (k hint : Nat) (a : DWord) : State × LaneOut :=
  match s.locate k a 64 0 with
  | (s1, .at p) =>
    match s1.readPlace k hint a 1 (p.add (4 * (laneOf k % 8))) with
    | (s2, .inl vs) =>
      match s2.readPlace k hint a 1 (p.add 32) with
      | (s3, .inl sc) => (s3, .done { vals := vs, ff := 0, sb := some ((val sc 0).extractLsb' 0 8), tag := none })
      | (s3, .inr o) => (s3, o)
    | (s2, .inr o) => (s2, o)
  | (s1, l) => (s1, l.out 0)

/-- LD and LDX; the offset counts `n` bytes a unit. -/
def State.loads (s : State) (i : Instr) (h : Hint) (o : OpM) (n : Nat) : State :=
  let size := sizeBytes o.sz
  if size == 64 then
    s.groupWord i o.s o.g (addrCodes o) o.lit (.vec 1 o.d) false fun s ins =>
      State.memDone (s.eachOctet ins n fun s k ws => s.loadCell k (hintNum h) (eaOf ws n))
  else
    s.groupWord i o.s o.g (addrCodes o) o.lit (.vec (size / 4) o.d) false fun s ins =>
      State.memDone (s.eachLane ins fun s k ws => s.loadLane k (hintNum h) size (eaOf ws n))

def execLd (h : Hint) (o : OpM) (s : State) : Outcome := .next (s.loads (.ld h o) h o 1)
def execLdx (h : Hint) (o : OpM) (s : State) : Outcome := .next (s.loads (.ldx h o) h o (sizeBytes o.sz))

/-- A store in one lane. -/
def State.storeLane (s : State) (k hint size : Nat) (a : DWord) (vs : List Word) : State × LaneOut :=
  match s.locate k a size 1 with
  | (s1, .at p) =>
    match s1.writePlace k hint a vs p with
    | (s2, none) => (s2, doneWith [])
    | (s2, some o) => (s2, o)
  | (s1, l) => (s1, l.out 1)

/-- Stores the low byte of a word at a place, the other bytes of the word unchanged. -/
def State.storeByte (s : State) (k hint : Nat) (b : Byte) (p : Place) : State :=
  match p with
  | .mem pa nc => s.storeWord k hint pa nc 1 (b.zeroExtend 32)
  | .chip key => s.chipMerge key key [b]
  | .cw _ _ _ => s

/-- A granule store in one lane: its word of the cell, and the scale byte (R205). -/
def State.storeCell (s : State) (k hint : Nat) (a : DWord) (v : Word) (sb : Byte) : State × LaneOut :=
  match s.locate k a 64 1 with
  | (s1, .at p) =>
    match s1.writePlace k hint a [v] (p.add (4 * (laneOf k % 8))) with
    | (s2, none) => (s2.storeByte k hint sb (p.add 32), doneWith [])
    | (s2, some o) => (s2, o)
  | (s1, l) => (s1, l.out 1)

/-- The physical words that the lanes of a store cover, where their pages are mapped. -/
def State.storeWords (s : State) (ins : List (Nat × List Word)) (n size : Nat) : List Nat :=
  ins.flatMap fun p => match (s.locate p.1 (eaOf p.2 n) size 1).2 with
    | .at q => q.covers (size / 4)
    | _ => []

/-- ST and STX. -/
def State.stores (s : State) (i : Instr) (h : Hint) (o : OpM) (n : Nat) : State :=
  let size := sizeBytes o.sz
  if size == 64 then
    s.groupWord i o.s o.g (addrCodes o ++ [o.d]) o.lit .none false fun s ins =>
      State.memDone (s.eachOctet ins n fun s k ws =>
        let sb := ((s.thread k).view.vs[o.d.toNat]?).elim 0 fun v => v.sb
        s.storeCell k (hintNum h) (eaOf ws n) (val ws 3) sb)
  else
    s.groupWord i o.s o.g (addrCodes o ++ codesFrom o.d (size / 4)) o.lit .none false fun s ins =>
      let s1 := if s.mem.poison.isEmpty then s else s.clearLines (s.storeWords ins n size)
      State.memDone (s1.eachLane ins fun s k ws => s.storeLane k (hintNum h) size (eaOf ws n) (ws.drop 3))

def execSt (h : Hint) (o : OpM) (s : State) : Outcome := .next (s.stores (.st h o) h o 1)
def execStx (h : Hint) (o : OpM) (s : State) : Outcome := .next (s.stores (.stx h o) h o (sizeBytes o.sz))

/-! ### LDU, STU (R224) -/

/-- An access made once for a yard, by its lowest active lane: what becomes of it holds for every active lane. -/
def State.yardAccess (s : State) (ins : List (Nat × List Word)) (f : State → Nat → List Word → State × LaneOut) :
    State × List (Nat × LaneOut) :=
  State.memDone (s.eachYard ins (fun ws => eaOf ws 1) fun s _ l =>
    match l with
    | [] => (s, [])
    | p :: _ =>
      let (s1, o) := f s p.1 p.2
      (s1, l.map fun q => (q.1, o)))

def execLdu (h : Hint) (o : OpM) (s : State) : Outcome :=
  let size := sizeBytes o.sz
  .next (s.groupWord (.ldu h o) o.s o.g (addrCodes o) o.lit (.uni (size / 4) o.d) false fun s ins =>
    s.yardAccess ins fun s k ws => s.loadLane k (hintNum h) size (eaOf ws 1))

def execStu (h : Hint) (o : OpM) (s : State) : Outcome :=
  let size := sizeBytes o.sz
  .next (s.groupWord (.stu h o) o.s o.g (addrCodes o ++ codesFrom (20 + o.d) (size / 4)) o.lit .none false fun s ins =>
    s.yardAccess ins fun s k ws => s.storeLane k (hintNum h) size (eaOf ws 1) (ws.drop 3))

/-! ### ATOM (R225) -/

/-- The new value of an atomic. -/
def atomNew {w : Nat} (p : AtomOp) (old v new : BitVec w) : BitVec w :=
  match p with
  | .add => old + v
  | .min => if old.slt v then old else v
  | .max => if old.slt v then v else old
  | .and => old &&& v
  | .or => old ||| v
  | .xor => old ^^^ v
  | .exch => v
  | .cas => if old = v then new else old

/-- Words a word operand of an atomic takes: two values for CAS. -/
def atomWords (p : AtomOp) (n : Nat) : Nat := if p == .cas then 2 * n else n

/-- An atomic event on `n` words at a place, by a function of the old words; its thread's earlier stores to them come
first. (DEDUCED, log 50.) -/
def State.atomPlace (s : State) (k : Nat) (a : DWord) (n : Nat) (p : Place) (f : List Word → List Word) :
    State × (List Word ⊕ LaneOut) :=
  match p with
  | .chip key =>
    let ks := (List.range n).map fun i => key + 4 * i
    if ks.any fun x => s.mem.poison.contains x then (s, .inr (.trap (accessTrap 0x0D a 0)))
    else
      let old := ks.map s.chipWord
      (s.chipRun key (f old), .inl old)
  | .cw _ _ _ => (s, .inr (.trap (accessTrap 0x09 a 0)))
  | .mem pa nc =>
    let was := (List.range n).map fun i => pa + 4 * i
    let (s1, ok) := s.drainPend fun q => q.thread == k && was.contains q.word
    let (s2, go) := s1.dirAccess pa true nc
    if !ok || !go then (s2, .inr .stall)
    else if was.any s2.poisoned then (s2, .inr (.trap (accessTrap 0x0D a 0)))
    else
      let s3 := s2.touchSlice pa false (s2.keepsWrites pa)
      let old := was.map s3.homeWord
      ((f old).zipIdx.foldl (fun s x => s.homeAtomic (pa + 4 * x.2) (coreOf k + 1) x.1) s3, .inl old)

/-- An atomic on `n` words at an address, in one lane. -/
def State.atomAt (s : State) (k : Nat) (a : DWord) (n : Nat) (f : List Word → List Word) : State × (List Word ⊕ LaneOut) :=
  match s.locate k a (4 * n) 2 with
  | (s1, .at p) => s1.atomPlace k a n p f
  | (s1, l) => (s1, .inr (l.out 2))

/-- The new words of an atomic of width 32 or 64. -/
def atomFun (p : AtomOp) (n : Nat) (data old : List Word) : List Word :=
  if n == 1 then [atomNew p (val old 0) (val data 0) (val data 1)]
  else words2 (atomNew p (val2 old 0) (val2 data 0) (val2 data 2))

/-- An atomic in one lane, with its ordering points: `acq` after it, `rel` before it (R213, R219). -/
def State.atomLane (s : State) (p : AtomOp) (acq rel : Bool) (n k : Nat) (ws : List Word) : State × LaneOut :=
  match s.locate k (eaOf ws 1) (4 * n) 2 with
  | (_, .at _) =>
    let (s1, ok) := if rel then s.drain k else (s, true)
    if !ok then (s1, .stall)
    else match s1.atomAt k (eaOf ws 1) n (atomFun p n (ws.drop 3)) with
    | (s2, .inl old) => (if acq then s2.acquire k else s2, doneWith old)
    | (s2, .inr o) => (s2, o)
  | (s1, l) => (s1, l.out 2)

def State.atoms (s : State) (i : Instr) (p : AtomOp) (o : OpM) (n : Nat) (acq rel : Bool) : State :=
  s.groupWord i o.s o.g (addrCodes o ++ codesFrom o.d (atomWords p n)) o.lit (.vec n o.d) false fun s ins =>
    State.memDone (s.eachLane ins fun s k ws => s.atomLane p acq rel n k ws)

/-- ATOM: SZ 0b00 is .w32, 0b10 .w64. -/
def execAtom (p : AtomOp) (o : OpM) (s : State) : Outcome :=
  .next (s.atoms (.atom p o) p o (if o.sz.toNat == 0 then 1 else 2) false false)

/-- ATOM with an ordering point: SZ[1] is the width, SZ[0] is 0 for .acq and 1 for .rel. -/
def execAtomOrdered (p : AtomOp) (o : OpM) (s : State) : Outcome :=
  .next (s.atoms (.atomOrdered p o) p o (if o.sz.getLsbD 1 then 2 else 1) (!o.sz.getLsbD 0) (o.sz.getLsbD 0))

/-! ### ACQ, REL, FENCE (R226) -/

/-- A word that is a release point of its active threads (`rel`), an acquire point of its core (`acq`), or both. -/
def State.order (s : State) (i : Instr) (o : OpM) (rel acq : Bool) : State :=
  s.groupWord i o.s o.g [] o.lit .none false fun s ins =>
    let (s1, ok) := if rel then s.drainAll (ins.map fun p => p.1) else (s, true)
    if !ok then (s1, ins.map fun p => (p.1, .stall))
    else (if acq then s1.acquireAll (ins.map fun p => p.1) else s1, allDone ins [])

def execAcq (o : OpM) (s : State) : Outcome := .next (s.order (.acq o) o false true)
def execRel (o : OpM) (s : State) : Outcome := .next (s.order (.rel o) o true false)
def execFence (o : OpM) (s : State) : Outcome := .next (s.order (.fence o) o true true)

/-! ### PREF, PARK (R227, R228) -/

/-- PREF in one lane: a TLB hit fetches the line; a miss joins or starts a walk, at whose end the line is fetched.
(DEDUCED, log 42.) -/
def State.prefetch (s : State) (k : Nat) (a : DWord) : State :=
  let core := coreOf k
  let c := s.ctxOf k
  let v := vpageOf a
  if !isGlobal a || a.toNat % 4 != 0 then s
  else match s.mem.tlb.find? (fun e =>
      (e.place == core || e.place == 64 + clusterOf core) && e.covers c v && e.permits 0) with
  | some e => s.prefetchAt c e core a
  | none => s.joinWalk { cluster := clusterOf core, ctx := c, vpage := v, kind := 0, cores := [core], prefs := [(core, a)] }

/-- DESIGN CHOICE, log 41; DEDUCED, log 42. -/
def execPref (o : OpM) (s : State) : Outcome :=
  .next (s.groupWord (.pref o) o.s o.g (addrCodes o) o.lit .none false fun s ins =>
    s.eachLane ins fun s k ws => (s.prefetch k (eaOf ws 1), doneWith []))

/-- PARK: a fault event of kind 3 and reason 5, whether the page is mapped or not (R280). -/
def execPark (o : OpM) (s : State) : Outcome :=
  .next (s.groupWord (.park o) o.s o.g (addrCodes o) o.lit .none false fun s ins =>
    State.memDone (s.eachLane ins fun s _ ws =>
      let a := eaOf ws 1
      (s, if isGlobal a then .park (.blocked (.page (vpageOf a) 3 5 false)) else .trap (accessTrap 0x09 a 0))))

end Sys2Proof.Machine
end

