-- ==== Sys2Proof/Machine/Async.lean ====
section
/-! DEFINITION. Instructions that hand work to engines: SEGFETCH (04_control R107 to R109), and the copy and task
instructions of 13_async 13.6. -/

namespace Sys2Proof.Machine

/-! ### Future entries at an issue (R111) -/

/-- Holders of the handle that a word writes: its lanes, unless D[4] discards it. -/
def holders (d : BitVec 5) (l : List (Nat × List Word)) : Nat := if noWrite d then 0 else l.length

/-- The lowest free entry of a core's future table; with none free the word stalls while one is pending, and else traps. -/
def State.freeSlot (s : State) (core : Nat) : Nat ⊕ LaneOut :=
  let fs := (s.core core).futs
  match Map.lowestFree fs Config.futures with
  | some i => .inl i
  | none => .inr (if fs.any fun p => p.2.res.isNone then .stall else .trap (trapOf 0x16 0))

/-- Every lane receives a pending handle, tagged. -/
def handed (l : List (Nat × List Word)) (vals : List Word) (kind slot : Nat) : List (Nat × LaneOut) :=
  l.map fun p => (p.1, .done { vals := vals ++ [handleWord 3 0 kind slot], ff := 0, sb := none, tag := some slot })

/-- The same outcome in every lane. -/
def allOut (l : List (Nat × List Word)) (o : LaneOut) : List (Nat × LaneOut) := l.map fun p => (p.1, o)

/-! ### SEGFETCH (R107 to R109) -/

/-- A new fetch of an overlay; an earlier one in progress is cancelled first (R108). (DEDUCED, log 55.) -/
def State.newFetch (s : State) (k n count : Nat) (a : DWord) (d : BitVec 5) (l : List (Nat × List Word)) :
    State × List (Nat × LaneOut) :=
  let core := coreOf k
  let (s1, ok) := s.drainAll (l.map fun p => p.1)
  let s2 := match s1.eng.copies.find? (fun x => x.seg == some (core, n)) with
    | some x => s1.copyEnd x 2 0
    | none => s1
  match s2.freeSlot core with
  | .inr o => (s, allOut l o)
  | .inl slot =>
    if !ok || 64 ≤ s2.inflight (clusterOf core) then (s1, allOut l .stall)
    else
      let s3 := s2.newFuture core slot 1 (holders d l) none
      let g := s3.seg core n
      let s4 := s3.setSeg core n
        { g with st := 1, packets := count, landno := g.landno + 1, status := 0, src := a, slot := some slot }
      let x : Copy :=
        { copyOf [] s4.serialNo (clusterOf core) (s4.ctxOf k) core (s4.thread k).acq (some (core, slot)) with
          src := a, rowlen := 12 * count, nrows := 1, seg := some (core, n) }
      ((s4.setEng { s4.eng with copies := s4.eng.copies ++ [x] }).bumpSerial, handed l [] 1 slot)

/-- SEGFETCH for its issue group, whose operands agree. (DEDUCED, log 71.) -/
def State.segfetch (s : State) (i : Instr) (d : BitVec 5) (l : List (Nat × List Word)) : State × List (Nat × LaneOut) :=
  match l with
  | [] => (s, [])
  | p :: _ =>
    let a := val2 p.2 0
    let b := (val p.2 2).toNat
    let n := bitsOf b 2 0
    let count := bitsOf b 28 16
    let core := coreOf p.1
    let g := s.seg core n
    let same := g.src == a && g.packets == count
    if n == 0 || count == 0 || 5461 < count || bitsOf b 15 3 != 0 || bitsOf b 31 29 != 0 then (s, allTrap l (badOperand i))
    else if !isGlobal a then (s, allTrap l (accessTrap 0x09 a 0))
    else if a.toNat % 64 != 0 then (s, allTrap l (accessTrap 0x08 a 0))
    else match g.slot with
    | some slot =>
      if g.st == 1 && same then (s.incRef core slot (holders d l), handed l [] 1 slot) else s.newFetch p.1 n count a d l
    | none =>
      if g.st == 2 && same then
        match s.freeSlot core with
        | .inr o => (s, allOut l o)
        | .inl slot =>
          (if noWrite d then s else s.newFuture core slot 1 (holders d l) (some (0, 0)), handed l [] 1 slot)
      else s.newFetch p.1 n count a d l

def execSegfetch (o : OpA) (s : State) : Outcome :=
  .next (s.groupWord (.segfetch o) o.s o.g (codesFrom o.a 2 ++ [o.b]) o.lit (.vec 1 o.d) false fun s ins =>
    uniformly (fun ws => ws) ins s (s.segfetch (.segfetch o) o.d ins))

/-! ### COPY (R305) -/

/-- The 64 bytes at an address, as loads of a thread: its words, or what becomes of the lane. -/
def State.packetWords (s : State) (k : Nat) (a : DWord) : State × (List Word ⊕ LaneOut) :=
  match s.locate k a 64 0 with
  | (s1, .at p) => s1.readPlace k 0 a 16 p
  | (s1, l) => (s1, .inr (l.out 0))

/-- COPY for one yard. -/
def State.copyIssue (s : State) (l : List (Nat × List Word)) : State × List (Nat × LaneOut) :=
  match l with
  | [] => (s, [])
  | p :: _ =>
    let k := p.1
    let a := eaOf p.2 1
    let core := coreOf k
    if !isGlobal a && spaceOf a != 1 then (s, allTrap l (accessTrap 0x09 a 0))
    else match s.locate k a 64 0 with
    | (_, .at _) =>
      let (s1, ok) := s.drain k
      if !ok then (s1, allOut l .stall)
      else match s1.packetWords k a with
      | (s2, .inr o) => (s2, allOut l o)
      | (s2, .inl ws) =>
        match s2.freeSlot core with
        | .inr o => (s2, allOut l o)
        | .inl slot =>
          let x := copyOf ws s2.serialNo (clusterOf core) (s2.ctxOf k) core (s2.thread k).acq (some (core, slot))
          let s3 := s2.newFuture core slot 2 l.length none
          match s3.copyRefused x ws with
          | some st => (s3.copyFails x st, handed l [] 2 slot)
          | none =>
            if !s3.rangesFree x || 64 ≤ s3.inflight (clusterOf core) then (s2, allOut l .stall)
            else (s3.startCopy { x with rm := (s3.thread k).rm.toNat }, handed l [] 2 slot)
    | (s1, r) => (s1, allOut l (r.out 0))

def execCopy (o : OpM) (s : State) : Outcome :=
  .next (s.groupWord (.copy o) o.s o.g (addrCodes o) o.lit (.vec 1 o.d) false fun s ins =>
    State.memDone (s.eachYard ins (fun ws => eaOf ws 1) fun s _ l => s.copyIssue l))

/-! ### Claims on a queue (R286, R306) -/

/-- What a claim gives: the index, whether it was claimed, RING and LOGD. -/
structure Claim where
  index : Word
  got : Bool
  ring : DWord
  logd : Nat
  deriving DecidableEq, Repr

/-- RING and LOGD as a header line stands. -/
def State.ringOf (s : State) (pa : Nat) : DWord × Nat :=
  let h := lineAddr pa
  (line64 (dw (s.homeWord (h + 8)) (s.homeWord (h + 12))), bitsOf (s.homeWord (h + 16)).toNat 4 0)

/-- `claim` by a thread at an address, in one atomic event. (DEDUCED, log 61.) -/
def State.claim (s : State) (k : Nat) (a : DWord) : State × (Claim ⊕ LaneOut) :=
  if !isGlobal a then (s, .inr (.trap (accessTrap 0x09 a 0)))
  else match s.locate k a 8 2 with
  | (s1, .at (.mem pa nc)) =>
    let (ring, logd) := s1.ringOf pa
    let room (old : List Word) : Bool := decide ((val old 0 - val old 1).toNat < 2 ^ logd)
    if [8, 12, 16].any fun o => s1.poisoned (lineAddr pa + o) then (s1, .inr (.trap (accessTrap 0x0D a 0)))
    else match s1.atomPlace k a 2 (.mem pa nc) (fun old => if room old then [val old 0 + 1, val old 1] else old) with
    | (s2, .inl old) => (s2, .inl { index := val old 0, got := room old, ring := ring, logd := logd })
    | (s2, .inr o) => (s2, .inr o)
  | (s1, .at _) => (s1, .inr (.trap (accessTrap 0x09 a 0)))
  | (s1, l) => (s1, .inr (l.out 2))

/-- QCLAIM in one lane. -/
def State.claimLane (s : State) (k : Nat) (ws : List Word) : State × LaneOut :=
  match s.claim k (eaOf ws 1) with
  | (s1, .inl c) => (s1, doneWith [c.index, BitVec.ofNat 32 (b2n (!c.got))])
  | (s1, .inr o) => (s1, o)

def execQclaim (o : OpM) (s : State) : Outcome :=
  .next (s.groupWord (.qclaim o) o.s o.g (addrCodes o) o.lit (.vec 2 o.d) false fun s ins =>
    State.memDone (s.eachLane ins fun s k ws => s.claimLane k ws))

/-! ### QPUT (R307) -/

/-- The index that a lane keeps from an earlier claim of the QPUT at its position: with its parked state, or in INFO2 of its
trap record. -/
def Thread.keptIndex (t : Thread) (pc : BitVec 16) (w : Nat) : Option Word :=
  match t.qidx with
  | some i => some i
  | none =>
    let r := t.trec
    if !r.intrap && r.info2.getLsbD 32 && r.epc == pc && r.widx.toNat == w then some (DWord.lo r.info2) else none

/-- The lanes of a quartet drop a kept index. -/
def State.dropIndex (s : State) (ks : List Nat) : State :=
  s.updLanes ks fun _ t =>
    { t with qidx := none, trec := if t.trec.info2.getLsbD 32 then { t.trec with info2 := 0 } else t.trec }

/-- The trap of a quartet after its claim: INFO2 keeps the index. -/
def keepIndex (o : LaneOut) (i : Word) : LaneOut :=
  match o with
  | .trap t => .trap { t with info2 := dw i 1 }
  | x => x

/-- Writes slot `i` of a queue from the 16 words of a packet, with the release point between (R287). -/
def State.putPacket (s : State) (k : Nat) (c : Claim) (ws : List Word) : State × Option LaneOut :=
  let a := c.ring + BitVec.ofNat 64 (64 * (c.index.toNat % 2 ^ c.logd))
  if !isGlobal a then (s, some (.trap (accessTrap 0x09 a 0)))
  else match s.locate k a 64 1 with
  | (s1, .at p) =>
    match s1.writePlace k 0 a (ws.drop 1) (p.add 4) with
    | (s2, some o) => (s2, some o)
    | (s2, none) =>
      let (s3, ok) := s2.drain k
      if !ok then (s3, some .stall) else s3.writePlace k 0 a [c.index] p
  | (s1, l) => (s1, some (l.out 1))

/-- The first lane of quartet `q` that is not among the active lanes of one yard. -/
def quartetGap (q : Nat) (l : List (Nat × List Word)) : Option Nat :=
  match l with
  | [] => none
  | p :: _ => ((List.range 4).map (4 * q + ·)).find? fun n => !l.any fun r => r.1 == threadKey (yardOf p.1) n

/-- The packet of a quartet, lane by lane, with RM in the packet of a copy. -/
def quartetPacket (l : List (Nat × List Word)) (rm : BitVec 3) : List Word :=
  let ws := l.flatMap fun p => (p.2.drop 3).take 4
  if kindOf ws == 1 then ws.modify 12 fun w => BitVec.ofNat 32 (w.toNat / 2 ^ 20 * 2 ^ 20 + rm.toNat * 2 ^ 17 + w.toNat % 2 ^ 17)
  else ws

/-- QPUT for one quartet. -/
def State.qput (s : State) (q : Nat) (l : List (Nat × List Word)) : State × List (Nat × LaneOut) :=
  match l with
  | [] => (s, [])
  | p :: _ =>
    match quartetGap q l with
    | some n => (s, allTrap l (mismatch n))
    | none =>
      let h := s.here
      let k := p.1
      let a := eaOf p.2 1
      let ks := l.map fun r => r.1
      let write (s : State) (c : Claim) : State × List (Nat × LaneOut) :=
        match s.putPacket k c (quartetPacket l (s.thread k).rm) with
        | (s1, none) => (s1.dropIndex ks, allDone l [])
        | (s1, some (.park st)) => (s1.updLanes ks fun _ t => { t with qidx := some c.index }, allOut l (.park st))
        | (s1, some o) => (s1.updLanes ks fun _ t => { t with qidx := none }, allOut l (keepIndex o c.index))
      uniformly (fun ws => eaOf ws 1) l s
        (match ks.findSome? (fun j => (s.thread j).keptIndex h.pc h.w) with
        | some i =>
          if !isGlobal a then (s, allTrap l (accessTrap 0x09 a 0))
          else match s.locate k a 8 2 with
          | (s1, .at (.mem pa _)) =>
            let (ring, logd) := s1.ringOf pa
            write s1 { index := i, got := true, ring := ring, logd := logd }
          | (s1, .at _) => (s1, allTrap l (accessTrap 0x09 a 0))
          | (s1, r) => (s1, allOut l (r.out 2))
        | none =>
          match s.claim k a with
          | (s1, .inr o) => (s1, allOut l o)
          | (s1, .inl c) => if c.got then write s1 c else (s1, allTrap l (trapOf 0x19 a)))

/-- A lane that executes a QPUT again keeps the index it has claimed, whatever trap it takes (Table 18-1). -/
def State.keepClaim (s : State) (p : Nat × LaneOut) : Nat × LaneOut :=
  match (s.thread p.1).keptIndex s.here.pc s.here.w with
  | some i => (p.1, keepIndex p.2 i)
  | none => p

/-- The operands are read inside, so that a lane that cannot read them keeps its index too. -/
def execQput (o : OpM) (s : State) : Outcome :=
  .next (s.groupWord (.qput o) o.s o.g [] o.lit .none false fun s lanes =>
    let (s1, ins, stopped) := s.moreIn (.qput o) (addrCodes o ++ codesFrom o.d 4) o.lit lanes
    let r := (List.range 16).foldl (fun acc q =>
      let r := acc.1.qput q (ins.filter fun p => laneOf p.1 / 4 == q)
      (r.1, acc.2 ++ r.2)) (s1, [])
    State.memDone (r.1, (stopped ++ r.2).map s.keepClaim))

/-! ### Tasks (R308, R309) -/

/-- Whether the body of a launch packet obeys R300. -/
def launchOk (ws : List Word) : Bool :=
  let w9 := (val ws 9).toNat
  headerOk ws && bitsOf (val ws 8).toNat 31 26 == 0 && bitsOf (val ws 8).toNat 25 0 != 0 && bitsOf w9 31 19 == 0 &&
    bitsOf w9 18 16 ≤ 3 && bitsOf w9 7 7 == 0 && 1 ≤ bitsOf w9 6 0 && bitsOf w9 6 0 ≤ 64 &&
    (List.range 6).all fun i => val ws (10 + i) == 0

/-- Defines a task in a free entry (Table 13-10): a launch packet that does not stand ends it failed with status 9. -/
def State.defineTask (s : State) (n c count : Nat) (packet : List Word) (fut : Option (Nat × Nat)) (compl : Compl) : State :=
  let t : Task :=
    { st := some .waiting, gen := (s.task n).gen + 1, count := count, ctx := c, packet := packet, fut := fut, compl := compl }
  if !(launchOk packet && kindOf packet == 2) then (s.setTask n t).taskDone n 1 9
  else if count == 0 then (s.setTask n { t with st := some .ready }).handOff n
  else s.setTask n t

/-- The lowest FREE task entry. -/
def State.freeTask (s : State) : Option Nat := (List.range 4096).find? fun n => (s.task n).st.isNone

/-- TASKDEF for one yard. -/
def State.taskdef (s : State) (i : Instr) (l : List (Nat × List Word)) : State × List (Nat × LaneOut) :=
  match l with
  | [] => (s, [])
  | p :: _ =>
    let a := val2 p.2 0
    let b := (val p.2 2).toNat
    let core := coreOf p.1
    if !isGlobal a then (s, allTrap l (accessTrap 0x09 a 0))
    else if a.toNat % 64 != 0 then (s, allTrap l (accessTrap 0x08 a 0))
    else if 65535 < b then (s, allTrap l (badOperand i))
    else match s.freeTask with
    | none => (s, allTrap l (trapOf 0x1A 0))
    | some n =>
      let (s1, ok) := s.drainAll (l.map fun q => q.1)
      if !ok then (s1, allOut l .stall)
      else match s1.packetWords p.1 a with
      | (s2, .inr o) => (s2, allOut l o)
      | (s2, .inl ws) =>
        match s2.freeSlot core with
        | .inr o => (s2, allOut l o)
        | .inl slot =>
          let s3 := s2.newFuture core slot 3 l.length none
          let tid := taskId n { s3.task n with gen := (s3.task n).gen + 1 }
          (s3.defineTask n (s3.ctxOf p.1) b ws (some (core, slot)) Compl.none, handed l [tid] 3 slot)

def execTaskdef (o : OpA) (s : State) : Outcome :=
  .next (s.groupWord (.taskdef o) o.s o.g (codesFrom o.a 2 ++ [o.b]) o.lit (.vec 2 o.d) false fun s ins =>
    State.memDone (s.eachYard ins (fun ws => ws) fun s _ l => s.taskdef (.taskdef o) l))

/-- The entry that a lane's identifier names, with its count operand; `none` where R309 refuses them. -/
def State.taskOperand (s : State) (k : Nat) (ws : List Word) : Option (Nat × Nat) :=
  let b := (val ws 1).toNat
  if 65535 < b then none else (s.taskOf (s.ctxOf k) (val ws 0)).map fun n => (n, b)

/-- TASKDEP in one lane. -/
def State.taskdepLane (s : State) (i : Instr) (k : Nat) (ws : List Word) : State × LaneOut :=
  match s.taskOperand k ws with
  | none => (s, .trap (badOperand i))
  | some (n, b) =>
    let t := s.task n
    if t.st == some .waiting then (s.setTask n { t with count := min (t.count + b) 65535 }, doneWith [0])
    else (s, doneWith [1])

def execTaskdep (o : OpA) (s : State) : Outcome :=
  .next (s.groupWord (.taskdep o) o.s o.g [o.a, o.b] o.lit (.vec 1 o.d) false fun s ins =>
    s.eachLane ins fun s k ws => s.taskdepLane (.taskdep o) k ws)

/-- TASKSIG in one lane. -/
def State.tasksigLane (s : State) (i : Instr) (k : Nat) (ws : List Word) : State × LaneOut :=
  match s.taskOperand k ws with
  | none => (s, .trap (badOperand i))
  | some (n, b) =>
    let (s1, ok) := s.drain k
    if !ok then (s1, .stall) else (s1.decTask n b, doneWith [])

def execTasksig (o : OpA) (s : State) : Outcome :=
  .next (s.groupWord (.tasksig o) o.s o.g [o.a, o.b] o.lit .none false fun s ins =>
    s.eachLane ins fun s k ws => s.tasksigLane (.tasksig o) k ws)

/-! ### SWZADR (R310) -/

/-- The swizzled offset of a destination whose rows lie 2^LOGP bytes apart. -/
def swzOffset (o code logp : Nat) : Nat :=
  let k := o / 2 ^ logp
  if swzBits code == 0 then o else k * 2 ^ logp + sw code (o % 2 ^ logp) k

/-- Whether a swizzle descriptor is legal. -/
def swzOk (b : Nat) : Bool :=
  let code := bitsOf b 7 0
  bitsOf b 31 13 == 0 && bitsOf b 12 8 ≤ 24 &&
    (swzBits code == 0 || swzChunk code * 2 ^ swzBits code ≤ 2 ^ bitsOf b 12 8)

/-- SWZADR in one lane. -/
def swzLane (i : Instr) (ws : List Word) : LaneOut :=
  let b := (val ws 1).toNat
  if swzOk b then doneWith [BitVec.ofNat 32 (swzOffset (val ws 0).toNat (bitsOf b 7 0) (bitsOf b 12 8))]
  else .trap (badOperand i)

def execSwzadr (o : OpA) (s : State) : Outcome :=
  .next (s.groupWord (.swzadr o) o.s o.g [o.a, o.b] o.lit (.vec 1 o.d) false fun s ins =>
    uniformly (fun ws => val ws 1) ins s (s, ins.map fun p => (p.1, swzLane (.swzadr o) p.2)))

end Sys2Proof.Machine
end

