-- ==== Sys2Proof/Machine/Matrix.lean ====
section
/-! DEFINITION. Residue matrix instructions (14_matrix): images, spans and closures, records and bindings, signing and
release, the matrix queue and its sequencer, and the words of 14.7. -/

namespace Sys2Proof.Machine

/-! ### Formats and images (R315 to R317) -/

/-- The format of a code of the format word: 0 to 5 as R185, 6 BF16. -/
def matFmt (c : Nat) : Fmt := if c == 6 then .bf16 else elementFmt c

def fmtA (fw : Word) : Nat := bitsOf fw.toNat 2 0
def fmtB (fw : Word) : Nat := bitsOf fw.toNat 5 3

/-- Whether a format word is legal (R315). -/
def fwOk (fw : Word) : Bool :=
  let a := fmtA fw
  let b := fmtB fw
  bitsOf fw.toNat 31 6 == 0 && ((a == 5 && b == 5) || (a == 6 && b == 6) || (a ≤ 4 && b ≤ 4))

/-- A block's images, high and low, with their terms k, and its scale (Table 14-1). Formats other than BF16 have one
image. -/
structure Images where
  hi : List Int
  lo : List Int
  kHi : Int
  kLo : Int
  scale : Nat
  deriving DecidableEq, Repr

/-- v × 2^n rounded to an integer, ties to even. -/
def imageOf (n : Int) (v : FVal) : Int :=
  match v with
  | .fin neg m e =>
    let r := (rndInt .rne neg m (e + n)).1
    if neg then -(r : Int) else r
  | _ => 0

/-- Division of a magnitude, keeping the sign. -/
def signed (x : Int) (m : Nat) : Int := if x < 0 then -(m : Int) else m

/-- The images of a block; `none` when it is invalid (R317). (DEDUCED, log 63.) -/
def imagesOf (fmt : Nat) (codes : List Nat) (scale : Nat) : Option Images :=
  let vs := codes.map (matFmt fmt).value
  let bad := vs.any fun v => match v with
    | .nan _ => true
    | .inf _ => true
    | _ => false
  let one (k : Int) : Option Images :=
    let im := vs.map (imageOf k)
    some { hi := im, lo := im, kHi := k, kLo := k, scale := scale }
  let top : Option Int := (vs.filterMap FVal.log).max?
  match fmt with
  | 2 => one 3
  | 3 => one 4
  | 4 => one 1
  | 5 =>
    let im := codes.map fun (c : Nat) => if 128 ≤ c % 256 then ((c % 256 : Nat) : Int) - 256 else ((c % 256 : Nat) : Int)
    some { hi := im, lo := im, kHi := 0, kLo := 0, scale := 127 }
  | 6 =>
    if scale == 255 || bad then none
    else
      let sh := top.elim 0 fun x => 13 - x
      let m := vs.map (imageOf sh)
      some { hi := m.map fun x => signed x (x.natAbs / 32), lo := m.map fun x => signed x (x.natAbs % 32),
             kHi := sh - 5, kLo := sh, scale := scale }
  | _ => if scale == 255 || bad then none else one (top.elim 0 fun x => 8 - x)

/-- The images and the exponent term of one side in a pass; `high` selects the high image (R319). -/
def Images.pick (x : Images) (high : Bool) : List Int × Int :=
  if high then (x.hi, (x.scale : Int) - 127 - x.kHi) else (x.lo, (x.scale : Int) - 127 - x.kLo)

/-! ### The A tile and the slice (R313, R314, R323, R325) -/

/-- An A tile: where it lies in the scratchpad, its source block size, and its scales. -/
structure ATile where
  ptr : DWord
  pitch : Nat
  rows : Nat
  cells : Bool
  swz : Nat
  bs : Nat
  soff : Nat
  spitch : Nat
  scaled : Bool
  deriving DecidableEq, Repr

/-- The A tile of a binding set, for format code `fa`. -/
def aTile (binds : List Word) (fa : Nat) : ATile :=
  let w3 := (val binds 3).toNat
  let cells := bitOf w3 8
  { ptr := val2 binds 0, pitch := (val binds 2).toNat, rows := bitsOf w3 23 16 + 1, cells := cells, swz := bitsOf w3 7 0,
    bs := if fa == 6 || cells then 64 else 32, soff := offsetOf (val2 binds 4), spitch := (val binds 6).toNat,
    scaled := (val binds 7).getLsbD 0 && !cells && fa != 5 }

/-- The scratchpad offsets of the 16-byte units of block `b` of row `i`. -/
def ATile.units (t : ATile) (i b : Nat) : List Nat :=
  (List.range (t.bs / 16)).map fun u => offsetOf t.ptr + i * t.pitch + sw t.swz (t.bs * b + 16 * u) i

/-- The units of blocks `b0` to `b0 + n − 1` of every row. -/
def ATile.allUnits (t : ATile) (b0 n : Nat) : List Nat :=
  (List.range t.rows).flatMap fun i => (List.range n).flatMap fun b => t.units i (b0 + b)

/-- The scale bytes of those blocks. -/
def ATile.allScales (t : ATile) (b0 n : Nat) : List Nat :=
  if t.scaled then (List.range t.rows).flatMap fun i => (List.range n).map fun b => t.soff + i * t.spitch + b0 + b else []

/-- The status with which an MMA fails at its start (R335). (DEDUCED, log 64.) -/
def ATile.refused (t : ATile) (fa b0 n : Nat) : Option Nat :=
  if (t.cells && fa == 6) || (swzBits t.swz != 0 && t.pitch % (swzChunk t.swz * 2 ^ swzBits t.swz) != 0) then some 9
  else if t.ptr.toNat % t.bs != 0 || t.pitch % t.bs != 0 then some 8
  else if t.ptr == 0 || ((t.allUnits b0 n).any fun o => decide (2 ^ 20 < o + 16)) ||
      ((t.allScales b0 n).any fun o => decide (2 ^ 20 ≤ o)) then some 6
  else none

def State.chipBytes (s : State) (space core off n : Nat) : List Byte :=
  (List.range n).map fun i => s.mem.bytes.read (chipKey space core (off + i))

/-- The element codes of a block's bytes. -/
def codesOf (fmt : Nat) (bs : List Byte) : List Nat :=
  if fmt == 6 then (List.range 32).map fun q => (bs.getD (2 * q) 0).toNat + 256 * (bs.getD (2 * q + 1) 0).toNat
  else (List.range 32).map fun q => (bs.getD q 0).toNat

/-- The images of A block `b` of row `i`. -/
def State.aImages (s : State) (core : Nat) (t : ATile) (fa i b : Nat) : Option Images :=
  let bs := (t.units i b).flatMap fun o => s.chipBytes 1 core o 16
  let scale := if t.cells then (bs.getD 32 0).toNat
    else if t.scaled then (s.mem.bytes.read (chipKey 1 core (t.soff + i * t.spitch + b))).toNat else 127
  imagesOf fa (codesOf fa bs) scale

/-- The images of slice block `b` of column `j`. -/
def State.bImages (s : State) (core fb j b : Nat) : Option Images :=
  let n := if fb == 6 then 64 else 32
  imagesOf fb (codesOf fb (s.chipBytes 4 core (j * 2 ^ 13 + n * b) n))
    (s.mem.bytes.read (chipKey 4 core (2 ^ 21 + 256 * j + b))).toNat

/-! ### Spans (R318 to R320) -/

/-- The worst-case magnitude of one block of products. -/
def unitU : Nat := 8355872

/-- `crt` (R318). -/
def crt (r1 r2 r3 : Nat) : Int :=
  let m := 1073740800
  let y := (r1 * 537395200 + r2 * 1072692225 + r3 * 537394176) % m
  if 536870400 ≤ y then (y : Int) - m else y

/-- A signed sum read back from its residues. -/
def readSum (r : Nat × Nat × Nat) : Int := crt r.1 r.2.1 r.2.2

/-- In every channel, a residue times 2^d, and a product added. -/
def stepSum (r : Nat × Nat × Nat) (d : Nat) (x : Int) : Nat × Nat × Nat :=
  let f (m q : Nat) : Nat := (((q * 2 ^ d : Nat) + x) % (m : Int)).toNat
  (f 1023 r.1, f 1024 r.2.1, f 1025 r.2.2)

/-- The rows and columns of one block in a pass: images with their exponent terms, or `none` for an invalid block. -/
abbrev BlockOps := List (Option (List Int × Int)) × List (Option (List Int × Int))

def dotInt (a b : List Int) : Int := ((a.zip b).map fun p => p.1 * p.2).sum

/-- What a block gives a cell; `none` when it marks it. -/
def BlockOps.at (b : BlockOps) (c : SpanCell) : Option (List Int × List Int × Int) :=
  match b.1.getD c.i none, b.2.getD c.j none with
  | some (x, ex), some (y, ey) => some (x, y, ex + ey)
  | _, _ => none

/-- A block marks the cells at which it is invalid. -/
def markCells (b : BlockOps) (cs : List SpanCell) : List SpanCell :=
  cs.map fun c => { c with live := c.live && (b.at c).isSome }

/-- Whether a block would break the bound of a live cell of the open span. -/
def breaksBound (b : BlockOps) (cs : List SpanCell) : Bool :=
  cs.any fun c => c.live && (match b.at c with
    | none => false
    | some (_, _, e) =>
      let m := min c.e e
      decide (536870399 < unitU * (c.w * 2 ^ (c.e - m).toNat + 2 ^ (e - m).toNat)))

/-- Adds a block to the span of every live cell; `fresh` opens the span. -/
def addBlock (b : BlockOps) (fresh : Bool) (cs : List SpanCell) : List SpanCell :=
  cs.map fun c =>
    match b.at c with
    | none => c
    | some (x, y, e) =>
      if !c.live then c
      else
        let c := if fresh then { c with e := e, w := 0, sum := (0, 0, 0) } else c
        let m := min c.e e
        { c with e := m, w := c.w * 2 ^ (c.e - m).toNat + 2 ^ (e - m).toNat,
                 sum := stepSum c.sum (c.e - m).toNat (dotInt x y * 2 ^ (e - m).toNat) }

/-- Runs a span from block `n`: the first block after it, and its cells. -/
def spanFrom (blk : Nat → BlockOps) (n : Nat) (fresh : Bool) (cs : List SpanCell) : Nat → Nat × List SpanCell
  | 0 => (n, cs)
  | k + 1 =>
    let b := blk n
    let cs := markCells b cs
    if !fresh && breaksBound b cs then (n, cs) else spanFrom blk (n + 1) false (addBlock b fresh cs) k

/-- The cells of an MMA before its first block, all live. -/
def newCells (rows cols : Nat) : List SpanCell :=
  (List.range rows).flatMap fun i => (List.range cols).map fun j =>
    { i := i, j := j, live := true, e := 0, w := 0, sum := (0, 0, 0) }

/-- The cells of an MMA as block `n` of a pass begins: marked where a block reached before is invalid. (DEDUCED, log 65.) -/
def cellsAt (blk : Nat → BlockOps) (rows cols n : Nat) : List SpanCell :=
  (List.range n).foldl (fun cs m => markCells (blk m) cs) (newCells rows cols)

/-- An MMA's operands: tile, format codes, first blocks, and the number of blocks, rows and columns. -/
structure MmaArgs where
  tile : ATile
  fa : Nat
  fb : Nat
  ablk0 : Nat
  bblk0 : Nat
  n : Nat
  cols : Nat
  deriving DecidableEq, Repr

def mmaArgs (binds : List Word) (fw : Word) (ablk0 bblk0 n cols : Nat) : MmaArgs :=
  { tile := aTile binds (fmtA fw), fa := fmtA fw, fb := fmtB fw, ablk0 := ablk0, bblk0 := bblk0, n := n, cols := cols }

/-- The operands of block `n` in pass 0, 1 or 2 (R319). -/
def State.blockOps (s : State) (core : Nat) (x : MmaArgs) (pass n : Nat) : BlockOps :=
  ((List.range x.tile.rows).map fun i => (s.aImages core x.tile x.fa i (x.ablk0 + n)).map fun m => m.pick (pass != 2),
   (List.range x.cols).map fun j => (s.bImages core x.fb j (x.bblk0 + n)).map fun m => m.pick (pass != 1))

/-- The span of a pass that begins at block `n`. (DEDUCED, log 65.) -/
def State.spanOf (s : State) (core : Nat) (x : MmaArgs) (pass n : Nat) : Nat × List SpanCell :=
  let blk := s.blockOps core x pass
  let cs := cellsAt blk x.tile.rows x.cols (if pass == 0 then n else x.n)
  spanFrom blk n true cs (x.n - n)

/-! ### Closures (R321, R322) -/

/-- The on-chip key of element (i, j) of a bank (R313). -/
def accKey (core bank i j : Nat) : Nat := chipKey 3 core (bank * 2 ^ 17 + i * 1024 + j * 4)

/-- What a closure makes of a cell's accumulator word, and the flags it raises. -/
def closeCell (rm : RMode) (acc : Word) (c : SpanCell) : Word × FFlags :=
  if !c.live then (nan32, flagNV)
  else
    let x := readSum c.sum
    let (t, f1) := roundTo .fp32 (if x == 0 then .zero false else .fin (x < 0) x.natAbs c.e) rm false
    let (r, f2) := opAdd .fp32 rm acc.toNat t
    (BitVec.ofNat 32 r, f1 ||| f2)

/-- What the one span of an INT8 MMA makes of an accumulator word (R321). -/
def closeInt (acc : Word) (x : Int) : Word × FFlags :=
  let v := acc.toInt + x
  if v < -(2 ^ 31) then (BitVec.ofInt 32 (-(2 ^ 31)), flagOF)
  else if 2 ^ 31 ≤ v then (BitVec.ofInt 32 (2 ^ 31 - 1), flagOF)
  else (BitVec.ofInt 32 v, 0)

/-- A span closure: accumulators are written, flags gathered in MXFLAGS, and one span counted. -/
def State.closeSpan (s : State) (core ctx bank : Nat) (cs : List SpanCell) (f : Word → SpanCell → Word × FFlags) : State :=
  let r := cs.foldl (fun (acc : State × FFlags) c =>
    let key := accKey core bank c.i c.j
    let (w, fl) := f (acc.1.chipWord key) c
    (acc.1.setChipWord key w, acc.2 ||| fl)) (s, 0)
  let s1 := r.1.modCore core fun c => { c with mxflags := c.mxflags ||| r.2, spans := c.spans + 1 }
  s1.charge (s1.worldOf ctx) 1 1

/-! ### The sequencer (R328 to R336, R340) -/

/-- A matrix operation ends: its future resolves, and the sequencer is free. -/
def State.matEnd (s : State) (core : Nat) (o : MatOp) (state status : Nat) : State :=
  (s.modCore core fun c => { c with mrun := none }).resolveOpt (o.slot.map fun i => (core, i)) state status

/-- Ranges of on-chip storage: core, space, and offsets. -/
abbrev Extents := List (Nat × Nat × Nat × Nat)

/-- What the range scoreboard says to an operation before it reads (R330): go on, wait, or fail with the status of the copy
that faulted. -/
inductive Gate where
  | go
  | wait
  | fail (status : Nat)
  deriving DecidableEq, Repr

/-- DEDUCED, log 70. -/
def State.gate (s : State) (xs : Extents) : Gate :=
  let hits := xs.flatMap fun x =>
    (s.core x.1).ranges.filter fun r => r.space == x.2.1 && decide (r.lo < x.2.2.2) && decide (x.2.2.1 < r.hi)
  match hits.find? fun r => r.faulted with
  | some r => .fail r.status
  | none => if hits.isEmpty then .go else .wait

/-- The slice that an operation names: elements and scales of `n` blocks from `b` of columns 0 to `cols − 1`. -/
def sliceExtents (core sb b n cols : Nat) : Extents :=
  (List.range cols).flatMap fun j =>
    [(core, 4, j * 2 ^ 13 + sb * b, j * 2 ^ 13 + sb * (b + n)), (core, 4, 2 ^ 21 + 256 * j + b, 2 ^ 21 + 256 * j + b + n)]

/-- The tile and slice extents that an MMA reads. (DEDUCED, log 70.) -/
def MmaArgs.reads (x : MmaArgs) (core : Nat) : Extents :=
  (x.tile.allUnits x.ablk0 x.n).map (fun o => (core, 1, o, o + 16)) ++
    (x.tile.allScales x.ablk0 x.n).map (fun o => (core, 1, o, o + 1)) ++
    sliceExtents core (if x.fb == 6 then 64 else 32) x.bblk0 x.n x.cols

/-- The bank words that an MMA writes. -/
def MmaArgs.writes (x : MmaArgs) (core bank : Nat) : Extents :=
  (List.range x.tile.rows).map fun i => (core, 3, bank * 2 ^ 17 + i * 1024, bank * 2 ^ 17 + i * 1024 + 4 * x.cols)

/-- Whether a word of a range is poisoned (R389). -/
def State.badExtent (s : State) (xs : Extents) : Bool :=
  !s.mem.poison.isEmpty && xs.any fun x =>
    (wordsAt (chipKey x.2.1 x.1 x.2.2.1) (x.2.2.2 - x.2.2.1)).any fun w => s.mem.poison.contains w

/-- The operation as the sequencer performs it. -/
def State.runOp (s : State) (core : Nat) (o : MatOp) : State := s.modCore core fun c => { c with mrun := some o }

def mmaOf (o : MatOp) (m : MmaOp) : MmaArgs :=
  mmaArgs o.binds o.fw m.ablk0.toNat m.bblk0.toNat (m.nblkm1.toNat + 1) (m.colsm1.toNat + 1)

/-- Passes of a format word (R319, R322). -/
def passes (fw : Word) : Nat := if fmtA fw == 6 then 3 else 1

/-- The next block of an MMA and what it does to the cells: the open span ends where the block would break its bound, and after
the last block of a pass (R320, R321). The one span of an INT8 MMA has no bound. -/
def State.mmaBlock (s : State) (core : Nat) (o : MatOp) (m : MmaOp) (x : MmaArgs) : State :=
  let b := s.blockOps core x o.pass o.block
  let cs := if x.fa == 5 then o.cells else markCells b o.cells
  let close (cs : List SpanCell) : State :=
    if x.fa == 5 then s.closeSpan core o.ctx m.bank.toNat cs fun acc c => closeInt acc (readSum c.sum)
    else s.closeSpan core o.ctx m.bank.toNat cs (closeCell (RMode.ofCode o.rm.toNat))
  if x.n ≤ o.block then
    let last := decide (passes o.fw ≤ o.pass + 1)
    let at_ := if last then x.n else 0
    (close o.cells).runOp core { o with pass := o.pass + 1, block := at_, span0 := at_, opened := false }
  else if o.opened && x.fa != 5 && breaksBound b cs then
    (close cs).runOp core { o with cells := cs, opened := false, span0 := o.block }
  else
    s.runOp core { o with
      cells := addBlock b (!o.opened) cs, opened := true, block := o.block + 1,
      span0 := if o.opened then o.span0 else o.block }

/-- An MMA goes on to its next interrupt point: its checks and waits at the start, then a block, or the closure of a span
(R329, R335). (DEDUCED, log 69.) -/
def State.mmaStep (s : State) (core : Nat) (o : MatOp) (m : MmaOp) : State :=
  let x := mmaOf o m
  let begin_ : State := s.mmaBlock core { o with cells := newCells x.tile.rows x.cols } m x
  if !o.cells.isEmpty then s.mmaBlock core o m x
  else match x.tile.refused x.fa x.ablk0 x.n with
  | some st => s.matEnd core o 1 st
  | none =>
    match s.gate (x.reads core ++ x.writes core m.bank.toNat) with
    | .wait => s.runOp core o
    | .fail st => s.matEnd core o 1 st
    | .go => if s.badExtent (x.reads core ++ x.writes core m.bank.toNat) then s.matEnd core o 1 5 else begin_

/-- What a B data record and a source address say of an MLDB (R324, R333). -/
structure MldbArgs where
  ea : DWord
  slb0 : Nat
  n : Nat
  pitch : Nat
  cols : Nat
  wide : Bool
  cells : Bool
  swz : Nat
  sptr : DWord
  spitch : Nat
  scaled : Bool
  deriving DecidableEq, Repr

def mldbArgs (o : MatOp) : MldbArgs :=
  let w0 := (val o.binds 8).toNat
  let w3 := (val o.binds 11).toNat
  { ea := eaOf o.vals 1, slb0 := bitsOf w0 7 0, n := bitsOf w0 15 8 + 1, pitch := (val o.binds 10).toNat,
    cols := bitsOf w3 23 16 + 1, wide := bitOf w3 9, cells := bitOf w3 8, swz := bitsOf w3 7 0, sptr := val2 o.binds 12,
    spitch := (val o.binds 14).toNat, scaled := (val o.binds 15).getLsbD 0 && !bitOf w3 8 }

def MldbArgs.bs (x : MldbArgs) : Nat := if x.wide || x.cells then 64 else 32
def MldbArgs.sb (x : MldbArgs) : Nat := if x.wide then 64 else 32

/-- The status with which an MLDB fails at its start. (DEDUCED, log 64.) -/
def MldbArgs.refused (x : MldbArgs) : Option Nat :=
  if (x.wide && x.cells) || (if x.wide then 128 else 256) < x.slb0 + x.n ||
      (swzBits x.swz != 0 && x.pitch % (swzChunk x.swz * 2 ^ swzBits x.swz) != 0) then some 9
  else if x.ea.toNat % x.bs != 0 || x.pitch % x.bs != 0 then some 8
  else none

/-- The address of byte 16u of source block `n` of column `j`. -/
def MldbArgs.unit (x : MldbArgs) (n j u : Nat) : DWord :=
  x.ea + BitVec.ofNat 64 (j * x.pitch + sw x.swz (x.bs * n + 16 * u) j)

/-- The extents that an MLDB waits for. -/
def MldbArgs.extents (x : MldbArgs) (core : Nat) : Extents :=
  let src : Extents := if isGlobal x.ea then [] else
    (List.range x.n).flatMap fun n => (List.range x.cols).flatMap fun j => (List.range (x.bs / 16)).map fun u =>
      let a := x.unit n j u
      (targetCore a, spaceOf a, offsetOf a, offsetOf a + 16)
  let scales : Extents := if isGlobal x.sptr || !x.scaled then [] else
    (List.range x.cols).map fun j =>
      (targetCore x.sptr, spaceOf x.sptr, offsetOf x.sptr + j * x.spitch, offsetOf x.sptr + j * x.spitch + x.n)
  sliceExtents core x.sb x.slb0 x.n x.cols ++ src ++ scales

/-- Writes bytes of on-chip storage. -/
def State.putChip (s : State) (space core off : Nat) (bs : List Byte) : State :=
  let a := chipKey space core off
  (wordsAt a bs.length).foldl (fun s w => s.chipMerge w a bs) s

/-- Reads units of 16 bytes; the first that cannot be read decides. -/
def State.unitReads (s : State) (cl c : Nat) : List DWord → State × Acc
  | [] => (s, .ok [])
  | a :: r =>
    match s.engineRead cl c a 16 with
    | (s1, .ok bs) =>
      match State.unitReads s1 cl c r with
      | (s2, .ok cs) => (s2, .ok (bs ++ cs))
      | x => x
    | x => x

/-- Column `j` of source block `n` is loaded; `.ok` when it is. -/
def State.mldbColumn (s : State) (core c : Nat) (x : MldbArgs) (n j : Nat) : State × Acc :=
  let cl := clusterOf core
  let blk := x.slb0 + n
  match s.unitReads cl c ((List.range (x.bs / 16)).map (x.unit n j)) with
  | (s1, .ok bs) =>
    let el := s1.putChip 4 core (j * 2 ^ 13 + x.sb * blk) (bs.take x.sb)
    let put (s : State) (v : Byte) : State := s.putChip 4 core (2 ^ 21 + 256 * j + blk) [v]
    if x.cells then (put el (bs.getD 32 0), .ok [])
    else if !x.scaled then (put el 0x7F, .ok [])
    else match el.engineRead cl c (x.sptr + BitVec.ofNat 64 (j * x.spitch + n)) 1 with
    | (s2, .ok sc) => (put s2 (sc.headD 0), .ok [])
    | r => r
  | r => r

/-- The columns from `j` on. -/
def State.mldbColumns (s : State) (core c : Nat) (x : MldbArgs) (n : Nat) : List Nat → State × Acc
  | [] => (s, .ok [])
  | j :: r =>
    match s.mldbColumn core c x n j with
    | (s1, .ok _) => State.mldbColumns s1 core c x n r
    | q => q

/-- An MLDB goes on by one slice block. (DEDUCED, log 69.) -/
def State.mldbStep (s : State) (core : Nat) (o : MatOp) : State :=
  let x := mldbArgs o
  let load (s : State) : State :=
    match s.mldbColumns core o.ctx x o.block (List.range x.cols) with
    | (s1, .ok _) => s1.runOp core { o with block := o.block + 1, span0 := 0 }
    | (s1, .wait) => s1.runOp core o
    | (s1, .park v r) =>
      (s1.engineFault (clusterOf core) core o.ctx v 4 r).runOp core { o with parked := some (s1.parkAt (clusterOf core) o.ctx v false) }
    | (s1, .fail st) => s1.matEnd core o 1 st
  if o.block != 0 then load s
  else match x.refused with
  | some st => s.matEnd core o 1 st
  | none =>
    match s.gate (x.extents core) with
    | .wait => s.runOp core o
    | .fail st => s.matEnd core o 1 st
    | .go => load s

/-- MZERO: every word of the bank is zero (R336). -/
def State.zeroBank (s : State) (core bank : Nat) : State :=
  let lo := accKey core bank 0 0
  let hi := lo + 2 ^ 17
  let out (a : Nat) : Bool := a < lo || hi ≤ a
  s.setMem { s.mem with
    bytes := s.mem.bytes.filter fun c => out c.1, poison := s.mem.poison.filter fun p => out p }

/-- Whether the operation has finished its last closure or block. -/
def MatOp.finished (o : MatOp) : Bool :=
  match o.op with
  | .mma _ => decide (passes o.fw ≤ o.pass)
  | .mldb _ => decide ((mldbArgs o).n ≤ o.block)
  | _ => decide (1 ≤ o.block)

/-- The sequencer goes on with an operation to its next interrupt point. -/
def State.matStep (s : State) (core : Nat) (o : MatOp) : State :=
  if o.parked.isSome || o.finished then s.runOp core o
  else match o.op with
  | .mma m => s.mmaStep core o m
  | .mldb _ => s.mldbStep core o
  | .mzero => (s.zeroBank core ((val o.vals 0).toNat % 2)).runOp core { o with block := 1 }
  | _ => s.runOp core { o with block := 1 }

/-- MATRIX_OP_START: the next queued operation begins, or the one that the sequencer performs goes on to its next
interrupt point; not on a core that halts (R90, R329). (DEDUCED, log 69.) -/
def execMatrixOpStart (core : Nat) (s : State) : Outcome :=
  let c := s.core core
  .next (if c.preempt then s
    else match c.mrun with
    | some o => s.matStep core o
    | none =>
      match c.mqueue with
      | [] => s
      | o :: r => (s.modCore core fun c => { c with mqueue := r }).matStep core o)

/-- MATRIX_OP_COMPLETE: the operation that has finished its last closure or block resolves its future. -/
def execMatrixOpComplete (core : Nat) (s : State) : Outcome :=
  .next (match (s.core core).mrun with
    | none => s
    | some o => if o.finished then s.matEnd core o 0 0 else s)

/-! ### The queue (R326, R328) -/

/-- The signers of an operation continue at the next word. -/
def State.signersGo (s : State) (signs : List Sign) : State :=
  signs.foldl (fun s x => if (s.thread x.thread).st == .signed then s.stepOver x.thread else s) s

/-- A signer's handle goes to the register that its word named; `false` where the register has been released (R136). -/
def State.putHandle (s : State) (x : Sign) (slot : Nat) : State × Bool :=
  match x.dst with
  | none => (s, false)
  | some r =>
    if x.active && s.holdsReg (yardOf x.thread) r then
      (((s.dropTag x.thread r).putReg x.thread r (handleWord 3 0 4 slot)).addTag x.thread r (some slot), true)
    else (s, false)

/-- Whether an operation takes a future entry (R331, R335). -/
def MatOp.wantsFuture (o : MatOp) : Bool :=
  match o.op with
  | .mma m => !noWrite m.hd
  | .mldb d => !noWrite d
  | _ => false

/-- An operation enters the queue, or its binding takes effect. -/
def State.enterQueue (s : State) (core : Nat) (o : MatOp) (slot : Option Nat) : State :=
  let s1 := s.modCore core fun c => { c with mreleased := c.mreleased.drop 1 }
  let bind (at_ : Nat) : State := s1.modCore core fun c =>
    let cl := Map.getD c.cleats o.cleat Cleat.init
    let cl1 := { cl with binds := cl.binds.take at_ ++ o.vals.take 8 ++ cl.binds.drop (at_ + 8) }
    { c with cleats := Map.set c.cleats o.cleat cl1 }
  match o.op with
  | .mseta => (bind 0).signersGo o.signers
  | .msetb => (bind 8).signersGo o.signers
  | _ =>
    let binds := (Map.getD (s1.core core).cleats o.cleat Cleat.init).binds
    match slot with
    | none => (s1.modCore core fun c => { c with mqueue := c.mqueue ++ [{ o with binds := binds }] }).signersGo o.signers
    | some i =>
      let (s3, n) := o.signers.foldl (fun (acc : State × Nat) x =>
        let (s2, ok) := acc.1.putHandle x i
        (s2, acc.2 + b2n ok)) (s1.newFuture core i 4 0 none, 0)
      let s4 := s3.modCore core fun c => { c with
        futs := Map.set c.futs i { kind := 4, res := none, refs := n, cancel := false },
        mqueue := c.mqueue ++ [{ o with binds := binds, slot := some i }] }
      s4.signersGo o.signers

/-- MATRIX_QUEUE_ENTER: the first released operation enters when a place is free and, if it wants one, a future entry. -/
def execMatrixQueueEnter (core : Nat) (s : State) : Outcome :=
  let c := s.core core
  .next (match c.mreleased with
    | [] => s
    | o :: r =>
      if 8 ≤ c.mqueue.length then s
      else if !o.wantsFuture then s.enterQueue core o none
      else match s.freeSlot core with
      | .inl i => s.enterQueue core o (some i)
      | .inr (.trap t) =>
        let s1 := s.modCore core fun c => { c with mreleased := r }
        (s1.raiseAt .rig ((o.signers.filter fun x => x.active).map fun x => (x.thread, x.pc, x.w, t))).signersGo
          (o.signers.filter fun x => !x.active)
      | .inr _ => s)

/-! ### Release (R327) -/

/-- The signers of a core. -/
def ofCore (core : Nat) (signs : List Sign) : List Sign := signs.filter fun x => coreOf x.thread == core

/-- A scratchpad pointer of a core. -/
def ownPad (core : Nat) (a : DWord) : Bool :=
  !isGlobal a && spaceOf a == 1 && clusterField a < 14 && targetCore a == core && offsetOf a < 2 ^ 20

/-- The instruction's own checks on a core (R332, R333, R335, R336). (DEDUCED, log 68, 72.) -/
def releaseCheck (core : Nat) (op : SignOp) (x : Sign) : Option Trap :=
  let v (i : Nat) : Nat := (val x.vals i).toNat
  let bad := trapOf 2 x.word
  match op with
  | .sign => none
  | .mseta =>
    if bitsOf (v 3) 31 24 != 0 || bitsOf (v 3) 15 9 != 0 || bitsOf (v 7) 31 1 != 0 then some bad
    else if !ownPad core (val2 x.vals 0) then some (accessTrap 0x09 (val2 x.vals 0) 0)
    else if bitOf (v 7) 0 && !bitOf (v 3) 8 && !ownPad core (val2 x.vals 4) then some (accessTrap 0x09 (val2 x.vals 4) 0)
    else none
  | .msetb =>
    if bitsOf (v 0) 31 16 != 0 || v 1 != 0 || bitsOf (v 3) 31 24 != 0 || bitsOf (v 3) 15 10 != 0 || bitsOf (v 7) 31 1 != 0 then
      some bad
    else none
  | .mzero => if bitsOf (v 0) 31 1 != 0 then some bad else none
  | .mldb _ =>
    let a := eaOf x.vals 1
    if !isGlobal a && (spaceOf a != 1 || 13 < clusterField a || 2 ^ 20 ≤ offsetOf a) then some (accessTrap 0x09 a 0) else none
  | .mma m =>
    if !fwOk x.fw || (if fmtA x.fw == 6 then 127 else 255) < m.bblk0.toNat + m.nblkm1.toNat then some bad else none

/-- Signers in rising order of rig index. -/
def State.byIndex (s : State) (signs : List Sign) : List Sign :=
  signs.foldl (fun l x =>
    l.takeWhile (fun y => s.rigIndex y.thread ≤ s.rigIndex x.thread) ++ [x] ++
      l.dropWhile (fun y => s.rigIndex y.thread ≤ s.rigIndex x.thread)) []

/-- The trap of a vote that fails, with the first differing signer (R327, step 1). (DEDUCED, log 68.) -/
def State.voteTrap (s : State) (signs : List Sign) : Option Trap :=
  match s.byIndex (signs.filter fun x => x.active) with
  | [] => none
  | a :: r =>
    (r.find? fun x => !(x.fw == a.fw && x.rm == a.rm)).map fun x =>
      { cause := 4, origin := s.rigIndex x.thread, resume := false, info0 := x.fw.zeroExtend 64,
        info1 := x.rm.zeroExtend 64, info2 := 0 }

/-- Whether the operands that an instruction declares uniform agree in two signers of a core: the address of MLDB, else every
operand (R332, R333, R336). -/
def sameSign (op : SignOp) (x y : Sign) : Bool :=
  match op with
  | .mldb _ => eaOf x.vals 1 == eaOf y.vals 1
  | _ => x.vals == y.vals

/-- What a core does at a release: nothing, traps in some of its signers, or the operation. -/
def State.releaseCore (s : State) (core cleat : Nat) (op : SignOp) (signs : List Sign) :
    State × List (Nat × BitVec 16 × Nat × Trap) :=
  let mine := ofCore core signs
  let act := s.byIndex (mine.filter fun x => x.active)
  let trapAll (l : List Sign) (t : Trap) := l.map fun x => (x.thread, x.pc, x.w, t)
  match act with
  | [] => (s.signersGo mine, [])
  | a :: r =>
    match r.find? fun x => !sameSign op x a with
    | some x => (s.signersGo (mine.filter fun x => !x.active), trapAll act (mismatch (s.rigIndex x.thread)))
    | none =>
      match releaseCheck core op a with
      | some t => (s, trapAll mine t)
      | none =>
        let o : MatOp :=
          { op := op, cleat := cleat, binds := [], fw := a.fw, rm := a.rm, vals := a.vals, signers := mine, slot := none,
            ctx := s.ctxOf a.thread, pass := 0, block := 0, span0 := 0, opened := false, cells := [], parked := none }
        (s.modCore core fun c => { c with mreleased := c.mreleased ++ [o] }, [])

/-- The cleat phase of a matrix instruction releases, its signers by now unsigned (R327). (DEDUCED, log 68.) -/
def State.matrixRelease (s : State) (r : Nat) (op : SignOp) (signs : List Sign) : State :=
  let vote := match op with
    | .mma _ => s.voteTrap signs
    | _ => none
  match vote with
  | some t => s.raiseAt .rig (signs.map fun x => (x.thread, x.pc, x.w, t))
  | none =>
    let (s1, traps) := (s.rigCleats r).foldl (fun (acc : State × List (Nat × BitVec 16 × Nat × Trap)) c =>
      let (s2, ts) := acc.1.releaseCore c.1 c.2 op signs
      (s2, acc.2 ++ ts)) (s, [])
    s1.raiseAt .rig traps

/-! ### Signing words (R327) -/

/-- A matrix word that signs: each active thread reads its operands, an inactive one signs as an inactive member. -/
def State.matrixSign (s : State) (i : Instr) (sc : BitVec 2) (g : BitVec 3) (codes : List (BitVec 5)) (lit : Word) (dst : Dst)
    (op : SignOp) (fw : List Word → Word) : State :=
  let h := s.here
  let act := s.active h g
  let s1 := act.foldl (fun s k => s.joinCodes k codes) s
  let ins := act.map fun k => (k, s1.laneIn i codes lit dst k)
  let reg (k : Nat) : Option Nat := match dst with
    | .vec _ d => if noWrite d then none else (s1.thread k).slotReg (slotOfD d)
    | _ => none
  let sign (k : Nat) (active : Bool) (vals : List Word) : Sign :=
    { thread := k, active := active, pc := h.pc, w := h.w, word := wordOf i, vals := vals, fw := fw vals,
      rm := (s1.thread k).rm, dst := if active then reg k else none }
  let signs := h.lanes.filterMap fun k =>
    match ins.find? fun p => p.1 == k with
    | none => some (sign k false [])
    | some (_, .inl ws) => some (sign k true ws)
    | some (_, .inr _) => none
  (s1.signAll i sc h op signs).finish { h with lanes := [] } .rig .none false (stoppedLanes ins)

/-- DEDUCED, log 72. -/
def execMseta (o : OpA) (s : State) : Outcome :=
  .next (s.matrixSign (.mseta o) o.s o.g (codesFrom o.a 4 ++ codesFrom o.b 4) o.lit .none .mseta fun _ => 0)

/-- DEDUCED, log 72. -/
def execMsetb (o : OpA) (s : State) : Outcome :=
  .next (s.matrixSign (.msetb o) o.s o.g (codesFrom o.a 4 ++ codesFrom o.b 4) o.lit .none .msetb fun _ => 0)

def execMzero (o : OpA) (s : State) : Outcome :=
  .next (s.matrixSign (.mzero o) o.s o.g [o.a] o.lit .none .mzero fun _ => 0)

def execMldb (o : OpM) (s : State) : Outcome :=
  .next (s.matrixSign (.mldb o) o.s o.g (addrCodes o) o.lit (.vec 1 o.d) (.mldb o.d) fun _ => 0)

/-- MMA: a packet, always guarded by 7; its operands are the packet's own and the format word. -/
def execMma (o : MmaOp) (s : State) : Outcome :=
  .next (s.matrixSign (.mma o) o.s 7 [o.fw] 0 (.vec 1 o.hd) (.mma o) fun ws => val ws 0)

/-! ### MRD, MWR (R337) -/

/-- An access to an accumulator element in one lane, once its bank is free. (DEDUCED, log 67.) -/
def State.elementLane (s : State) (i : Instr) (k : Nat) (ws : List Word) (f : State → Nat → State × LaneOut) :
    State × LaneOut :=
  let a := (val ws 0).toNat
  let core := coreOf k
  if 2 ^ 16 ≤ a then (s, .trap (badOperand i))
  else if s.matrixBusy core 3 (4 * a) then (s, .stall)
  else f s (chipKey 3 core (4 * a))

/-- The value of an element, which poison withholds. -/
def State.readElement (s : State) (key : Nat) : State × LaneOut :=
  if s.mem.poison.contains key then (s, .trap (accessTrap 0x0D (BitVec.ofNat 64 key) 0)) else (s, doneWith [s.chipWord key])

/-- DEDUCED, log 67. -/
def execMrd (o : OpA) (s : State) : Outcome :=
  .next (s.groupWord (.mrd o) o.s o.g [o.a] o.lit (.vec 1 o.d) false fun s ins =>
    State.memDone (s.eachLane ins fun s k ws => s.elementLane (.mrd o) k ws State.readElement))

/-- DEDUCED, log 67. -/
def execMwr (o : OpA) (s : State) : Outcome :=
  .next (s.groupWord (.mwr o) o.s o.g [o.a, o.b] o.lit .none false fun s ins =>
    s.eachLane ins fun s k ws => s.elementLane (.mwr o) k ws fun s key => (s.setChipWord key (val ws 1), doneWith []))

/-! ### MSPAN, MSEQ (R338, R339) -/

/-- MSPAN for one yard. (DEDUCED, log 66.) -/
def State.mspan (s : State) (i : Instr) (y : Nat) (l : List (Nat × List Word)) : State × List (Nat × LaneOut) :=
  let ws := lead l
  let d := (val ws 0).toNat
  let fw := val ws 1
  let kb := bitsOf d 7 0
  let n := bitsOf d 15 8 + 1
  let pass := bitsOf d 25 24
  let core := yardCore y
  let bf := fmtA fw == 6
  match s.cleatOf y with
  | none => (s, allTrap l (badOperand i))
  | some c =>
    let binds := (s.cleat (core, c)).binds
    let x := mmaArgs binds fw 0 0 n (bitsOf d 23 16 + 1)
    let queued := (s.core core).mreleased.any fun o => o.cleat == c && (o.op == .mseta || o.op == .msetb)
    if bitsOf d 31 26 != 0 || !fwOk fw || n ≤ kb || (bf && 128 < n) || pass == 3 || (!bf && pass != 0) then
      (s, allTrap l (badOperand i))
    else if queued then (s, allOut l .stall)
    else if (x.tile.refused x.fa 0 n).isSome then (s, allDone l [BitVec.allOnes 32])
    else if x.fa == 5 then (s, allDone l [BitVec.ofNat 32 n])
    else
      let live := (x.reads core).findSome? fun e => s.overlap core e.2.1 e.2.2.1 e.2.2.2
      match live with
      | some r => (s, if r.faulted then allTrap l (rangeTrap r) else allOut l .stall)
      | none =>
        if s.matrixBusy core 4 0 then (s, allOut l .stall)
        else if s.badExtent (x.reads core) then (s, allTrap l (accessTrap 0x0D x.tile.ptr 0))
        else (s, allDone l [BitVec.ofNat 32 (s.spanOf core x pass kb).1])

def execMspan (o : OpA) (s : State) : Outcome :=
  .next (s.groupWord (.mspan o) o.s o.g [o.a, o.b] o.lit (.vec 1 o.d) false fun s ins =>
    State.memDone (s.eachYard ins (fun ws => ws) fun s y l => s.mspan (.mspan o) y l))

/-- The sequencer's cursor (Table 14-11). -/
def Core.cursor (c : Core) : Word :=
  let head := b2n c.mrun.isSome * 2 ^ 31 + c.mqueue.length * 2 ^ 27
  match c.mrun with
  | none => BitVec.ofNat 32 head
  | some o =>
    let (op, pass) := match o.op with
      | .mma _ => (1, if passes o.fw == 3 then min (o.pass + 1) 3 else 0)
      | .mldb _ => (2, 0)
      | .mzero => (3, 0)
      | _ => (0, 0)
    BitVec.ofNat 32 (head + op * 2 ^ 24 + pass * 2 ^ 22 + o.block * 2 ^ 13 + o.span0 * 2 ^ 4)

/-- MSEQ for one yard. -/
def State.mseq (s : State) (i : Instr) (core : Nat) (l : List (Nat × List Word)) : State × List (Nat × LaneOut) :=
  let c := s.core core
  match (val (lead l) 0).toNat with
  | 0 => (s, allDone l [c.cursor])
  | 1 => (s, allDone l [c.mxflags.zeroExtend 32])
  | 2 => (s.modCore core fun c => { c with mxflags := 0 }, allDone l [c.mxflags.zeroExtend 32])
  | 3 => (s, allDone l [c.spans])
  | _ => (s, allTrap l (badOperand i))

def execMseq (o : OpA) (s : State) : Outcome :=
  .next (s.groupWord (.mseq o) o.s o.g [o.a] o.lit (.vec 1 o.d) false fun s ins =>
    s.eachYard ins (fun ws => ws) fun s y l => s.mseq (.mseq o) (yardCore y) l)

end Sys2Proof.Machine
end

