-- ==== Sys2Proof/Machine/Spill.lean ====
section
/-! DEFINITION. Operand staging and spilling (05_registers 5.1 and 5.7): STAGE, SPILLV and FILLV. -/

namespace Sys2Proof.Machine

/-! ### STAGE (R125, R126) -/

/-- The checks of R126 in one thread, the scoreboard apart. -/
def State.stageOk (s : State) (y : Nat) (vr ur : List Nat) : Bool :=
  vr.all (fun r => s.holdsReg y r) &&
    ur.all fun r => !(128 ≤ r && r < 192 && (s.yard y).stripe.isSome) && (s.uhome y r).isSome

/-- The trap that reading registers of a thread from the main file takes: a faulted range (R210) or a poisoned register
(R389). -/
def State.stageTrap (s : State) (k : Nat) (regs : List Nat) : Option Trap :=
  match (s.regRanges k regs).find? fun r => r.faulted with
  | some r => some (rangeTrap r)
  | none => if regs.any fun r => s.mem.poison.contains (regKey k r) then some (trapOf 0x0D 0) else none

/-- The registers that a thread's region would write back. -/
def Thread.dirtyRegs (t : Thread) : List Nat := (t.vs.filter fun v => v.wr || v.sbw).map fun v => v.reg

/-- A region established: the previous one ends, and the slots are read (R125). -/
def State.stageThread (s : State) (k : Nat) (vr ur : List Nat) : State :=
  let s1 := s.endRegion k
  s1.modThread k fun t => { t with region := some (vr, ur), vs := s1.loadVs k vr, us := s1.loadUs k ur }

/-- STAGE acts in every thread of the group; it is granule-aware (Table 5-2, R138). (DEDUCED, log 133.) -/
def execStage (o : StageOp) (s : State) : Outcome :=
  let vr := o.vregs
  let ur := o.uregs
  .next (s.groupWord (.stage o) o.s 7 [] 0 .none false fun s ins =>
    let live := ins.any fun p =>
      s.stageOk (yardOf p.1) vr ur && s.regsLive p.1 (vr ++ (s.thread p.1).dirtyRegs)
    if live then (s, ins.map fun p => (p.1, .stall))
    else State.memDone (s.eachLane ins fun s k _ =>
      match octetTrap (ins.map fun p => p.1) k with
      | some i => (s, .trap i)
      | none =>
      if !s.stageOk (yardOf k) vr ur then (s, .trap (badOperand (.stage o)))
      else match s.stageTrap k vr with
      | some i => (s, .trap i)
      | none => (s.stageThread k vr ur, doneWith [])))

/-! ### Spill bursts (R146 to R148) -/

/-- A burst to perform: the position of its word, yard, direction, the lanes it acts for, address, descriptor, and whether it
moves sideband bytes. -/
structure Job where
  pc : BitVec 16
  w : Nat
  yard : Nat
  fill : Bool
  lanes : List Nat
  addr : DWord
  desc : Word
  gran : Bool
  deriving DecidableEq, Repr

def Job.first (j : Job) : Nat := bitsOf j.desc.toNat 7 0
def Job.count (j : Job) : Nat := bitsOf j.desc.toNat 15 8 + 1
/-- Lines of the burst. -/
def Job.total (j : Job) : Nat := 4 * j.count + (if j.gran then (8 * j.count + 63) / 64 else 0)

/-- How a burst ends: every line is moved, the limit is met at a line, or a line cannot be moved. -/
inductive BurstEnd where
  | done
  | limit (line : Nat)
  | out (o : LaneOut)
  deriving DecidableEq, Repr

/-- The word of a line that the burst stores: elements of sixteen lanes, or sideband bytes, padding zero. -/
def State.burstWord (s : State) (j : Job) (line i : Nat) : Word :=
  if line < 4 * j.count then s.reg (threadKey j.yard (line % 4 * 16 + i)) (j.first + line / 4)
  else
    let b (x : Nat) : Byte :=
      let n := (line - 4 * j.count) * 64 + 4 * i + x
      if n / 8 < j.count then s.sideb j.yard (j.first + n / 8) (n % 8) else 0
    b 3 ++ b 2 ++ b 1 ++ b 0

/-- The word of a line, loaded: a lane of the burst's set takes its element, an octet with such a lane its byte. -/
def State.burstLoad (s : State) (j : Job) (line i : Nat) (v : Word) : State :=
  if line < 4 * j.count then
    let k := threadKey j.yard (line % 4 * 16 + i)
    let r := j.first + line / 4
    if j.lanes.contains k then (s.putReg k r v).dropTag k r else s
  else (List.range 4).foldl (fun s x =>
    let n := (line - 4 * j.count) * 64 + 4 * i + x
    if decide (n / 8 < j.count) && j.lanes.any fun k => laneOf k / 8 == n % 8 then
      s.setSideb j.yard (j.first + n / 8) (n % 8) (v.extractLsb' (8 * x) 8)
    else s) s

/-- The thread whose store or load a word of a line is: its own lane's, where that thread issues, else the first of the
set. -/
def Job.owner (j : Job) (k0 line i : Nat) : Nat :=
  let k := threadKey j.yard (line % 4 * 16 + i)
  if line < 4 * j.count && j.lanes.contains k then k else k0

/-- One line of a burst. -/
def State.burstLine (s : State) (j : Job) (k0 line : Nat) : State × Option LaneOut :=
  let a := j.addr + BitVec.ofNat 64 (64 * line)
  let kind := b2n (!j.fill)
  match s.locate k0 a 64 kind with
  | (s1, .at (.mem pa nc)) =>
    if j.fill then
      match s1.readPlace k0 0 a 16 (.mem pa nc) with
      | (s2, .inl ws) => (ws.zipIdx.foldl (fun s x => s.burstLoad j line x.2 x.1) s2, none)
      | (s2, .inr o) => (s2, some o)
    else
      let was := (List.range 16).map fun i => pa + 4 * i
      let s2 := (List.range 16).foldl (fun s i =>
        s.storeWord (j.owner k0 line i) 0 (pa + 4 * i) nc 15 (s.burstWord j line i)) (s1.clearLines was)
      (s2, none)
  | (s1, l) => (s1, some (l.out kind))

/-- The burst from a line on (R148). -/
def State.runBurst (s : State) (j : Job) (k0 line : Nat) : Nat → State × BurstEnd
  | 0 => (s, .done)
  | n + 1 =>
    let a := (j.addr + BitVec.ofNat 64 (64 * line)).toNat
    let spl := s.heldSpl k0
    if a < spl.1.toNat || spl.2.toNat < a + 64 then (s, .limit line)
    else match s.burstLine j k0 line with
    | (s1, none) => State.runBurst s1 j k0 (line + 1) n
    | (s1, some o) => (s1, .out o)

/-- A thread's slots that name registers of a fill are reloaded. -/
def State.reloadSlots (s : State) (k : Nat) (j : Job) : State :=
  s.modThread k fun t => { t with vs := t.vs.map fun v =>
    if j.first ≤ v.reg && v.reg < j.first + j.count then
      { v with val := s.reg k v.reg, wr := false, sb := s.sideb j.yard v.reg (laneOf k / 8), sbw := false }
    else v }

/-- The spill-limit trap (Table 18-1). -/
def Job.limitTrap (j : Job) (line : Nat) : Trap :=
  { trapOf 0x07 j.addr with
    info1 := BitVec.ofNat 64 (j.desc.toNat + (if j.gran then 3 else 0) * 2 ^ 32), info2 := BitVec.ofNat 64 line }

/-- Performs a burst from a line for the issuing lanes `ls`; a limit keeps it as the yard's unfinished burst, whose set is
`j.lanes`, in the place of an earlier one of the yard. (DESIGN CHOICE, log 134.) -/
def State.burst (s : State) (j : Job) (ls : List Nat) (line : Nat) : State × List (Nat × LaneOut) :=
  match s.runBurst j (ls.headD 0) line (j.total - line) with
  | (s1, .done) =>
    let s2 := if j.fill then ls.foldl (fun s k => s.reloadSlots k j) s1 else s1
    (s2, ls.map fun k => (k, doneWith []))
  | (s1, .limit n) =>
    let b : Burst := { pc := j.pc, w := j.w, fill := j.fill, lanes := j.lanes, line := n, addr := j.addr, desc := j.desc, gran := j.gran, done := false }
    (s1.modYard j.yard fun y => { y with burst := some b }, ls.map fun k => (k, .trap (j.limitTrap n)))
  | (s1, .out o) => (s1, ls.map fun k => (k, o))

/-- The pending tags that a spill must wait for: registers of its range, in any lane of the yard (R148). -/
def State.spillTags (s : State) (j : Job) : List (Nat × Nat × Nat) :=
  (yardLanes j.yard).flatMap fun k => ((s.thread k).tags.filter fun p =>
    decide (j.first ≤ p.1) && decide (p.1 < j.first + j.count)).map fun p => (k, p.1, p.2)

/-- A burst from a line on, for the issuing lanes `ls`: tags of the range resolve first, the issuing threads' written slots
are written back, then the lines move. -/
def State.spillFrom (s : State) (j : Job) (ls : List Nat) (line : Nat) : State × List (Nat × LaneOut) :=
  let tags := if j.fill then [] else s.spillTags j
  match tags.find? fun p => s.pending (coreOf p.1) p.2.2 with
  | some p => (s, ls.map fun k => (k, .park (.blocked (.future p.2.2))))
  | none =>
    let s1 := tags.foldl (fun s p => s.joinReg p.1 p.2.1) s
    let s2 := if j.fill then s1 else ls.foldl (fun s k => s.writeBack k) s1
    let bad := !j.fill && (yardLanes j.yard).any fun k =>
      (List.range j.count).any fun i => s2.mem.poison.contains (regKey k (j.first + i))
    if bad then (s2, ls.map fun k => (k, .trap (trapOf 0x0D 0))) else s2.burst j ls line

/-- Whether a thread that executes the word at a position resumes its yard's unfinished burst (R148). -/
def Burst.resumes (b : Burst) (h : Here) (k : Nat) : Bool := b.lanes.contains k && b.pc == h.pc && b.w == h.w

/-- Whether a thread has come back to its yard's unfinished burst. -/
def State.resuming (s : State) (h : Here) (k : Nat) : Bool :=
  match (s.yard (yardOf k)).burst with
  | some b => b.resumes h k
  | none => false

/-- The burst resumed once for its set; a thread that finds it done continues after the word. -/
def State.resumeBurst (s : State) (y : Nat) (b : Burst) (ls : List Nat) : State × List (Nat × LaneOut) :=
  let j : Job := { pc := b.pc, w := b.w, yard := y, fill := b.fill, lanes := b.lanes, addr := b.addr, desc := b.desc, gran := b.gran }
  let leave (s : State) : State :=
    let rest := b.lanes.filter fun k => !ls.contains k && (s.thread k).st != .exited
    s.modYard y fun v => { v with burst := if rest.isEmpty then none else some { b with lanes := rest, done := true } }
  if b.done then (leave (ls.foldl (fun s k => if b.fill then s.reloadSlots k j else s) s), ls.map fun k => (k, doneWith []))
  else
    let r := s.spillFrom j ls b.line
    if r.2.all fun p => p.2 == doneWith [] then (leave r.1, r.2) else r

/-- The checks of R146 on a descriptor and an address. -/
def State.spillTrap (s : State) (i : Instr) (j : Job) : Option Trap :=
  let last := j.first + j.count - 1
  if bitsOf j.desc.toNat 31 16 != 0 || 255 < last || !s.holdsReg j.yard last then some (badOperand i)
  else if !isGlobal j.addr then some (accessTrap 0x09 j.addr 0)
  else if j.addr.toNat % 64 != 0 then some (accessTrap 0x08 j.addr 0)
  else none

/-- SPILLV and FILLV: once for each yard among the active lanes; the granule size is granule-aware (R138). -/
def State.spill (s : State) (i : Instr) (o : OpM) (fill : Bool) : State :=
  let h := s.here
  s.groupWord i o.s o.g (addrCodes o ++ [o.d]) o.lit .none false fun s ins0 =>
    let split (p : Nat × List Word) : Option Trap :=
      if o.sz.toNat == 3 then octetTrap (ins0.map fun p => p.1) p.1 else none
    let ins := ins0.filter fun p => (split p).isNone
    let mixed := ins0.filterMap fun p => (split p).map fun t => (p.1, LaneOut.trap t)
    let back := ins.filter fun p => s.resuming h p.1
    let new := ins.filter fun p => !s.resuming h p.1
    let r1 := s.eachYard back (fun _ => 0) fun s y l =>
      match (s.yard y).burst with
      | some b => s.resumeBurst y b (l.map fun p => p.1)
      | none => (s, allDone l [])
    let r2 := r1.1.eachYard new (fun ws => ws) fun s y l =>
      let j : Job := { pc := h.pc, w := h.w, yard := y, fill := fill, lanes := l.map fun q => q.1, addr := eaOf (lead l) 1, desc := val (lead l) 3,
                       gran := o.sz.toNat == 3 }
      match s.spillTrap i j with
      | some t => (s, allTrap l t)
      | none => s.spillFrom j j.lanes 0
    State.memDone (r2.1, mixed ++ r1.2 ++ r2.2)

def execSpillv (o : OpM) (s : State) : Outcome := .next (s.spill (.spillv o) o false)
def execFillv (o : OpM) (s : State) : Outcome := .next (s.spill (.fillv o) o true)

end Sys2Proof.Machine
end

