-- ==== Sys2Proof/Machine/KeyValue.lean ====
section
/-! DEFINITION. Key-value blocks and work queues (16_attention): KVX, KVALLOC, KVFREE, KVPIN, KVUNPIN, WQPULL, WQPUSH and
LASTARR; attachment of pools and queues, compaction, and the completion of pulls. -/

namespace Sys2Proof.Machine

/-! ### Descriptors (R347) -/

def descPage (d : DWord) : DWord := d &&& BitVec.ofNat 64 (2 ^ 64 - 4096)
def descClass (d : DWord) : Nat := bitsOf d.toNat 11 10
def descPresent (d : DWord) : Bool := d.getLsbD 9
def descMoving (d : DWord) : Bool := d.getLsbD 8
def descPin (d : DWord) : Nat := bitsOf d.toNat 7 0

/-- A descriptor from its fields. -/
def mkDesc (page : DWord) (cls : Nat) (present moving : Bool) (pin : Nat) : DWord :=
  descPage page ||| BitVec.ofNat 64 (cls * 2 ^ 10 + b2n present * 2 ^ 9 + b2n moving * 2 ^ 8 + pin)

/-- The address of a block's descriptor. -/
def Pool.descAddr (p : Pool) (lbn : Nat) : DWord := p.btab + BitVec.ofNat 64 (8 * lbn)

/-- A pool slot's pool, when it is attached to a context. -/
def State.poolFor (s : State) (n c : Nat) : Option Pool :=
  let p := s.pool n
  if p.att && p.ctx.toNat == c then some p else none

/-! ### Block instructions (R353, R354) -/

inductive KvOp where
  | alloc | free | pin | unpin
  deriving DecidableEq, Repr

/-- The status word of Table 16-7. -/
def kvStatus (result code : Nat) (d : DWord) : Word := BitVec.ofNat 32 (result * 2 ^ 30 + code * 2 ^ 24 + bitsOf d.toNat 11 0)

/-- The CODE with which a word is refused on a descriptor. -/
def kvRefusal (op : KvOp) (d : DWord) : Option Nat :=
  match op with
  | .alloc => if descMoving d then some 4 else if descPresent d then some 2 else none
  | .free => if !descPresent d then some 1 else if descMoving d then some 4 else if descPin d != 0 then some 3 else none
  | .pin => if !descPresent d then some 1 else if descMoving d then some 4 else if descPin d == 255 then some 5 else none
  | .unpin => if !descPresent d then some 1 else if descPin d == 0 then some 6 else none

/-- Whether a word waits as a release point before its event. -/
def KvOp.releases (op : KvOp) : Bool := op == .free || op == .unpin

/-- The word of a bitmap with a bit set or cleared. -/
def putBit (w : Word) (i : Nat) (b : Bool) : Word :=
  let m : Word := BitVec.ofNat 32 (2 ^ i)
  if b then w ||| m else w &&& ~~~m

/-- The lowest free page of a class, slab by slab from `slab` on, read from the bitmaps; `none` when there is none.
(DEDUCED, log 77.) -/
def State.findFree (s : State) (k : Nat) (p : Pool) (c slab : Nat) : Nat → State × (Option PageId ⊕ LaneOut)
  | 0 => (s, .inl none)
  | n + 1 =>
    let a := (p.bitOf { cls := c, slab := slab, page := 0 }).1
    match s.locate k a 64 0 with
    | (s1, .at pl) =>
      match s1.readPlace k 2 a 16 pl with
      | (s2, .inr o) => (s2, .inr o)
      | (s2, .inl ws) =>
        match (List.range (slabPages c)).find? fun i => !(val ws (i / 32)).getLsbD (i % 32) with
        | some i => (s2, .inl (some { cls := c, slab := slab, page := i }))
        | none => State.findFree s2 k p c (slab + 1) n
    | (s1, l) => (s1, .inr (l.out 0))

/-- A page's bit of the bitmap set or cleared, by one atomic event. -/
def State.markPage (s : State) (k : Nat) (p : Pool) (x : PageId) (b : Bool) : State × (List Word ⊕ LaneOut) :=
  s.atomAt k (p.bitOf x).1 1 fun old => [putBit (val old 0) (p.bitOf x).2 b]

/-- Whether a page lies in its class's slabs. (DEDUCED, log 75.) -/
def Pool.hasPage (p : Pool) (x : PageId) : Bool := decide (x.slab < p.slabCount x.cls) && decide (x.page < slabPages x.cls)

/-- What a word that is not refused makes of the descriptor, and the page whose bit it sets or clears. (DEDUCED, log 75.) -/
def State.kvPlan (s : State) (k : Nat) (op : KvOp) (p : Pool) (cls : Nat) (d : DWord) :
    State × (Option (DWord × Option (PageId × Bool)) ⊕ LaneOut) :=
  match op with
  | .alloc =>
    match s.findFree k p cls 0 (p.slabCount cls) with
    | (s1, .inr o) => (s1, .inr o)
    | (s1, .inl none) => (s1, .inl none)
    | (s1, .inl (some x)) => (s1, .inl (some (mkDesc (p.pageAddr x) cls true false 1, some (x, true))))
  | .free =>
    let x := p.pageAt (descClass d) (descPage d)
    (s, .inl (some (0, if p.hasPage x then some (x, false) else none)))
  | .pin => (s, .inl (some (d + 1, none)))
  | .unpin => (s, .inl (some (d - 1, none)))

/-- KVALLOC, KVFREE, KVPIN or KVUNPIN in one lane, on the descriptor of `lbn` of the pool in slot `n`. (DEDUCED, log 77.) -/
def State.kvLane (s : State) (k : Nat) (op : KvOp) (n cls lbn : Nat) : State × LaneOut :=
  let p := s.pool n
  if p.nblk ≤ lbn then (s, doneWith [kvStatus 1 8 0])
  else
    let a := p.descAddr lbn
    match s.locate k a 8 2 with
    | (_, .at pl) =>
      let (s1, ok) := if op.releases then s.drain k else (s, true)
      if !ok then (s1, .stall)
      else match s1.atomPlace k a 2 pl (fun old => old) with
      | (s2, .inr o) => (s2, o)
      | (s2, .inl old) =>
        let d := val2 old 0
        let fin (s : State) (w : Word) : State × LaneOut :=
          (if op.releases then s else s.acquire k, doneWith [w])
        match kvRefusal op d with
        | some code => fin s2 (kvStatus 1 code d)
        | none =>
          match s2.kvPlan k op p cls d with
          | (s3, .inr o) => (s3, o)
          | (s3, .inl none) => fin (s3.setPool n { p with allocfail := p.allocfail + 1 }) (kvStatus 2 7 d)
          | (s3, .inl (some (new, mark))) =>
            let r := match mark with
              | none => (s3, Sum.inl [])
              | some (x, b) => s3.markPage k p x b
            match r with
            | (s4, .inr o) => (s4, o)
            | (s4, .inl _) =>
              match s4.atomPlace k a 2 pl (fun _ => words2 new) with
              | (s5, .inr o) => (s5, o)
              | (s5, .inl _) => fin s5 (kvStatus 0 0 new)
    | (s1, l) => (s1, l.out 2)

/-- One lane of a block word: an access that cannot be made leaves nothing of it changed. -/
def State.kvWhole (s : State) (k : Nat) (op : KvOp) (n cls lbn : Nat) : State × LaneOut :=
  match s.kvLane k op n cls lbn with
  | (s1, .done r) => (s1, .done r)
  | (s1, .stall) => (s1, .stall)
  | (_, o) => (s, o)

/-- The block words: B is declared uniform over a yard's active lanes, which act in increasing order. -/
def State.kvWord (s : State) (i : Instr) (o : OpA) (op : KvOp) : State :=
  s.groupWord i o.s o.g [o.a, o.b] o.lit (.vec 1 o.d) false fun s ins =>
    State.memDone (s.eachYard ins (fun ws => val ws 1) fun s y l =>
      let b := (val (lead l) 1).toNat
      if bitsOf b 31 6 != 0 || (op != .alloc && bitsOf b 5 4 != 0) || (s.poolFor (b % 16) (s.yardCtx y)).isNone then
        (s, allTrap l (badOperand i))
      else s.eachLane l fun s k ws => s.kvWhole k op (b % 16) (bitsOf b 5 4) (val ws 0).toNat)

def execKvalloc (o : OpA) (s : State) : Outcome := .next (s.kvWord (.kvalloc o) o .alloc)
def execKvfree (o : OpA) (s : State) : Outcome := .next (s.kvWord (.kvfree o) o .free)
def execKvpin (o : OpA) (s : State) : Outcome := .next (s.kvWord (.kvpin o) o .pin)
def execKvunpin (o : OpA) (s : State) : Outcome := .next (s.kvWord (.kvunpin o) o .unpin)

/-! ### KVX (R355, R356) -/

/-- What a lane's reads give it: its block and offset, a position out of range, or how it leaves the word. -/
inductive Spot where
  | at (lbn off : Nat)
  | oor
  | out (o : LaneOut)
  deriving DecidableEq, Repr

/-- A plain read of words in global memory by a thread; nothing where the address is on-chip. (DEDUCED, log 76.) -/
def State.plainRead (s : State) (k : Nat) (a : DWord) (n : Nat) : State × (Option (List Word) ⊕ LaneOut) :=
  if !isGlobal a then (s, .inl none)
  else match s.locate k a (4 * n) 0 with
  | (s1, .at pl) =>
    match s1.readPlace k 0 a n pl with
    | (s2, .inl ws) => (s2, .inl (some ws))
    | (s2, .inr o) => (s2, .inr o)
  | (s1, l) => (s1, .inr (l.out 0))

/-- The block and offset of a position of a sequence. (DEDUCED, log 76.) -/
def State.kvSpot (s : State) (k : Nat) (p : Pool) (q x : Nat) : State × Spot :=
  if p.nseq ≤ q then (s, .oor)
  else match s.plainRead k (p.stab + BitVec.ofNat 64 (16 * q)) 4 with
  | (s1, .inr o) => (s1, .out o)
  | (s1, .inl none) => (s1, .oor)
  | (s1, .inl (some e)) =>
    let list := val2 e 0
    if (val e 2).toNat ≤ x || !isGlobal list || list.toNat % 4 != 0 then (s1, .oor)
    else match s1.plainRead k (list + BitVec.ofNat 64 (4 * (x / 2 ^ p.logbp))) 1 with
    | (s2, .inr o) => (s2, .out o)
    | (s2, .inl none) => (s2, .oor)
    | (s2, .inl (some ws)) =>
      let lbn := (val ws 0).toNat
      if p.nblk ≤ lbn then (s2, .oor) else (s2, .at lbn (x % 2 ^ p.logbp * 2 ^ (14 - p.logbp)))

/-- The spots of the lanes, in order. -/
def State.kvSpots (s : State) (p : Pool) (ins : List (Nat × List Word)) : State × List (Nat × Spot) :=
  ins.foldl (fun acc q =>
    let (s1, x) := acc.1.kvSpot q.1 p (val q.2 0).toNat (val q.2 1).toNat
    (s1, acc.2 ++ [(q.1, x)])) (s, [])

/-- What KVX gives a lane: descriptor, offset and replay bit. -/
structure KvRes where
  desc : DWord
  off : Word
  rep : Bool
  deriving DecidableEq, Repr

/-- One event on the descriptor of a block, for the lanes that translate to it. (DEDUCED, log 76, 77.) -/
def State.kvBlock (s : State) (p : Pool) (pin : Bool) (lbn : Nat) (l : List (Nat × Nat)) :
    State × List (Nat × (KvRes ⊕ LaneOut)) :=
  match l with
  | [] => (s, [])
  | (k, _) :: _ =>
    let n := l.length
    let ready (d : DWord) : Bool := descPresent d && !descMoving d
    let room (d : DWord) : Bool := decide (descPin d + n ≤ 255)
    let a := p.descAddr lbn
    let f (old : List Word) : List Word :=
      let d := val2 old 0
      if pin && ready d && room d then words2 (d + BitVec.ofNat 64 n) else old
    let kind := if pin then 2 else 0
    if !isGlobal a then (s, l.map fun x => (x.1, .inr (.trap (accessTrap 0x09 a 0))))
    else match s.locate k a 8 kind with
    | (s1, .at pl) =>
      match s1.atomPlace k a 2 pl f with
      | (s2, .inr o) => (s2, l.map fun x => (x.1, .inr o))
      | (s2, .inl old) =>
        let d := val2 old 0
        let pinned := pin && ready d && room d
        let seen := if pinned then d + BitVec.ofNat 64 n else d
        (s2, l.map fun x =>
          (x.1, .inl { desc := seen, off := BitVec.ofNat 32 x.2, rep := if pin then !pinned else !ready d }))
    | (s1, r) => (s1, l.map fun x => (x.1, .inr (r.out kind)))

/-- The events of a word, one for each distinct block, in the order of its lowest lane. -/
def State.kvBlocks (s : State) (p : Pool) (pin : Bool) (at_ : List (Nat × Nat × Nat)) :
    State × List (Nat × (KvRes ⊕ LaneOut)) :=
  (at_.foldl (fun l x => if l.contains x.2.1 then l else l ++ [x.2.1]) []).foldl (fun acc lbn =>
    let g := at_.filterMap fun x => if x.2.1 == lbn then some (x.1, x.2.2) else none
    let r := acc.1.kvBlock p pin lbn g
    (r.1, acc.2 ++ r.2)) (s, [])

/-- The offset and the replay bit reach their slot and predicate in one lane. -/
def State.kvPut (s : State) (k : Nat) (o : KvxOp) (r : KvRes) : State :=
  let s1 := s.modThread k fun t =>
    { t with preds := setPred t.preds (o.pm.zeroExtend 5) r.rep,
             vs := if noWrite o.od then t.vs else Machine.writeSlot t.vs (slotOfD o.od) r.off }
  ((s1.thread k).dstRegs (.vec 1 o.od)).foldl (fun s x => s.dropTag k x) s1

/-- KVX on the lanes that have read their operands. -/
def State.kvx (s : State) (o : KvxOp) (ins : List (Nat × List Word)) : State × List (Nat × LaneOut) :=
  let bad := ins.filter fun p =>
    !(s.thread p.1).dstOk (.vec 1 o.od) || (s.poolFor o.pool.toNat (s.ctxOf p.1)).isNone
  let good := ins.filter fun p => !bad.contains p
  let p := s.pool o.pool.toNat
  let (s1, spots) := s.kvSpots p good
  let at_ := spots.filterMap fun x => match x.2 with
    | .at lbn off => some (x.1, lbn, off)
    | _ => none
  let early := spots.filterMap fun x => match x.2 with
    | .oor => some (x.1, Sum.inl { desc := 0, off := BitVec.allOnes 32, rep := false })
    | .out e => some (x.1, Sum.inr e)
    | .at _ _ => none
  if early.any fun x => x.2 == .inr .stall then (s1, allOut ins .stall)
  else
    let (s2, got) := s1.kvBlocks p (o.pin == 1) at_
    let all := early ++ got
    let s3 := all.foldl (fun s x => match x.2 with
      | .inl r => s.kvPut x.1 o r
      | .inr _ => s) s2
    let outs := all.map fun x => (x.1, match x.2 with
      | .inl r => doneWith (words2 r.desc)
      | .inr e => e)
    let done := all.filterMap fun x => match x.2 with
      | .inl _ => some x.1
      | .inr _ => none
    (s3.acquireAll done, outs ++ allTrap bad (badOperand (.kvx o)))

def execKvx (o : KvxOp) (s : State) : Outcome :=
  .next (s.groupWord (.kvx o) o.s 7 [o.seq, o.pos] 0 (.vec 2 o.d) false fun s ins => State.memDone (s.kvx o ins))

/-! ### Work queues (R357 to R359) -/

/-- Slot `i` of a work queue's ring. -/
def Wq.slotAddr (w : Wq) (i : Nat) : DWord := w.ring + BitVec.ofNat 64 (32 * (i % 2 ^ w.logd.toNat))

/-- The checks of R358 for one yard: the queue, or the trap. -/
def State.wqCheck (s : State) (i : Instr) (k : Nat) (a : DWord) (x : Nat) : Nat ⊕ Trap :=
  let w := s.wq x
  let own := spaceOf a == 1 && targetCore a == coreOf k && s.chipForm a 32 1
  if 16 ≤ x || !w.att || w.ctx.toNat != s.ctxOf k then .inr (badOperand i)
  else if !isGlobal a && !own then .inr (accessTrap 0x09 a 0)
  else if a.toNat % 32 != 0 then .inr (accessTrap 0x08 a 0)
  else .inl x

/-- A pull leaves its queue. -/
def Wq.without (w : Wq) (p : Pull) : Wq := { w with pulls := w.pulls.erase p }

/-- A pull resolves. -/
def State.pullEnd (s : State) (q : Nat) (p : Pull) (state status : Nat) : State :=
  (s.setWq q ((s.wq q).without p)).resolveOpt (p.slot.map fun i => (p.core, i)) state status

/-- The oldest unassigned pull of a queue receives the oldest item, or zeros where the queue is closed and empty.
(DEDUCED, log 78.) -/
def State.wqAssign (s : State) (q : Nat) : State :=
  let w := s.wq q
  match w.pulls.find? fun p => p.waits with
  | none => s
  | some p =>
    let put (w : Wq) (x : Pull) : Wq := { w with pulls := w.pulls.map fun y => if y == p then x else y }
    if p.parked.isSome then s
    else if w.count == 0 then
      if w.closed then s.setWq q (put w { p with item := some (List.replicate 8 0) }) else s
    else
      let next := { w with count := w.count - 1, head := w.head + 1 }
      match s.engineRead (clusterOf p.core) p.ctx (w.slotAddr w.head) 32 with
      | (s1, .ok bs) => s1.setWq q (put next { p with item := some (toWords bs) })
      | (s1, .wait) => s1
      | (s1, .park v r) =>
        (s1.engineFault (clusterOf p.core) p.core p.ctx v 4 r).setWq q
          (put w { p with parked := some (s1.parkAt (clusterOf p.core) p.ctx v false) })
      | (s1, .fail st) => (s1.setWq q next).pullEnd q p 1 st

/-- WQPUSH for one yard. -/
def State.wqpush (s : State) (i : Instr) (l : List (Nat × List Word)) : State × List (Nat × LaneOut) :=
  match l with
  | [] => (s, [])
  | p :: _ =>
    let a := val2 p.2 0
    match s.wqCheck i p.1 a (val p.2 2).toNat with
    | .inr t => (s, allTrap l t)
    | .inl q =>
      let (s1, ok) := s.drainAll (l.map fun x => x.1)
      if !ok then (s1, allOut l .stall)
      else match s1.locate p.1 a 32 0 with
      | (s2, .at pl) =>
        match s2.readPlace p.1 0 a 8 pl with
        | (s3, .inr o) => (s3, allOut l o)
        | (s3, .inl ws) =>
          let w := s3.wq q
          let slot := w.slotAddr (w.head + w.count)
          if val ws 0 == 0 then (s3, allTrap l (badOperand i))
          else if w.closed || 2 ^ w.logd.toNat ≤ w.count then (s3, allTrap l (trapOf 0x19 (BitVec.ofNat 64 q)))
          else match s3.locate p.1 slot 32 1 with
          | (s4, .at r) =>
            match s4.atomPlace p.1 slot 8 r (fun _ => ws) with
            | (s5, .inr o) => (s5, allOut l o)
            | (s5, .inl _) =>
              ((s5.setWq q { w with count := w.count + 1, pushed := w.pushed + 1 }).wqAssign q, allDone l [])
          | (s4, r) => (s4, allOut l (r.out 1))
      | (s2, r) => (s2, allOut l (r.out 0))

def execWqpush (o : OpM) (s : State) : Outcome :=
  .next (s.groupWord (.wqpush o) o.s o.g (addrCodes o) o.lit .none false fun s ins =>
    State.memDone (s.eachYard ins (fun ws => ws) fun s _ l => s.wqpush (.wqpush o) l))

/-- WQPULL for one yard: every active lane's destination receives the handle. -/
def State.wqpull (s : State) (i : Instr) (d : BitVec 5) (l : List (Nat × List Word)) : State × List (Nat × LaneOut) :=
  match l with
  | [] => (s, [])
  | p :: _ =>
    let a := val2 p.2 0
    let core := coreOf p.1
    match s.wqCheck i p.1 a (val p.2 2).toNat with
    | .inr t => (s, allTrap l t)
    | .inl q =>
      match s.freeSlot core with
      | .inr o => (s, allOut l o)
      | .inl slot =>
        let (s1, ok) := s.drainAll (l.map fun x => x.1)
        if !ok then (s1, allOut l .stall)
        else
          let s2 := s1.newFuture core slot 7 (holders d l) none
          let w := s2.wq q
          let x : Pull := { core := core, ctx := s.ctxOf p.1, dst := a, slot := some slot, item := none, parked := none }
          ((s2.setWq q { w with pulls := w.pulls ++ [x] }).wqAssign q, handed l [] 7 slot)

def execWqpull (o : OpM) (s : State) : Outcome :=
  .next (s.groupWord (.wqpull o) o.s o.g (addrCodes o) o.lit (.vec 1 o.d) false fun s ins =>
    State.memDone (s.eachYard ins (fun ws => ws) fun s _ l => s.wqpull (.wqpull o) o.d l))

/-- An assigned pull writes its item at its destination and resolves. -/
def State.pullWrite (s : State) (q : Nat) (p : Pull) (ws : List Word) : State :=
  match s.engineWrite (clusterOf p.core) p.ctx { rank := p.core + 1, since := s.mem.written } p.dst (ws.flatMap bytesOf) with
  | (s1, .ok _) => s1.pullEnd q p 0 0
  | (s1, .wait) => s1
  | (s1, .fail st) => s1.pullEnd q p 1 st
  | (s1, .park v r) =>
    let w := s1.wq q
    let x := { p with parked := some (s1.parkAt (clusterOf p.core) p.ctx v true) }
    (s1.engineFault (clusterOf p.core) p.core p.ctx v 5 r).setWq q
      { w with pulls := w.pulls.map fun y => if y == p then x else y }

/-- WQPULL_COMPLETE: the oldest assigned pull that is not parked; an assignment that is still due comes first. -/
def execWqpullComplete (q : Nat) (s : State) : Outcome :=
  let s1 := s.wqAssign q
  .next (match (s1.wq q).pulls.find? fun p => p.item.isSome && p.parked.isNone with
    | none => s1
    | some p => s1.pullWrite q p (p.item.getD []))

/-- WQ_ATTACH, WQ_DETACH and WQ_CLOSE: a context stores to the queue's doubleword at 0x08; another context may not while it
is attached. -/
def State.wqStore (s : State) (q c : Nat) (v : DWord) : State :=
  if q < 16 && !((s.wq q).att && (s.wq q).ctx.toNat != c) then s.wqControl q c v else s

def execWqAttach (q ctx : Nat) (v : DWord) (s : State) : Outcome :=
  .next (if v.getLsbD 0 then s.wqStore q ctx v else s)
def execWqDetach (q ctx : Nat) (s : State) : Outcome := .next (s.wqStore q ctx 2)
def execWqClose (q ctx : Nat) (s : State) : Outcome := .next (s.wqStore q ctx 4)

/-! ### LASTARR (R360) -/

/-- LASTARR in one lane. -/
def State.lastArr (s : State) (k : Nat) (a : DWord) : State × LaneOut :=
  match s.locate k a 4 2 with
  | (_, .at _) =>
    let (s1, ok) := s.drain k
    if !ok then (s1, .stall)
    else match s1.atomAt k a 1 (fun old => [if val old 0 == 0 then 0 else val old 0 - 1]) with
    | (s2, .inl old) =>
      let last := val old 0 == 1
      (if last then s2.acquire k else s2, doneWith [BitVec.ofNat 32 (b2n last)])
    | (s2, .inr o) => (s2, o)
  | (s1, l) => (s1, l.out 2)

def execLastarr (o : OpM) (s : State) : Outcome :=
  .next (s.groupWord (.lastarr o) o.s o.g (addrCodes o) o.lit (.pred o.d) false fun s ins =>
    State.memDone (s.eachLane ins fun s k ws => s.lastArr k (eaOf ws 1)))

/-! ### Pools: attachment and compaction (R346, R350) -/

/-- A context stores to a pool slot's doubleword at 0x08; an attachment waits until its header can be read. -/
def State.poolStore (s : State) (n c : Nat) (v : DWord) : State :=
  if n < 16 && !((s.pool n).att && (s.pool n).ctx.toNat != c) then
    let (s1, ok) := s.attachReady (s.pool n).att (s.pool n).hdr c v
    if ok then s1.poolControl n c v else s1
  else s

def execPoolAttach (slot ctx : Nat) (v : DWord) (s : State) : Outcome :=
  .next (if v.getLsbD 0 then s.poolStore slot ctx v else s)

/-- POOL_DETACH: DETACH is stored; CMPT keeps its value. -/
def execPoolDetach (slot ctx : Nat) (s : State) : Outcome :=
  .next (s.poolStore slot ctx (if (s.pool slot).cmpt then 6 else 2))

/-- Bytes of one line written by the block manager under a context's translation; `none` where they cannot be.
(DEDUCED, log 79.) -/
def State.managerWrite (s : State) (c : Nat) (a : DWord) (bs : List Byte) : Option State :=
  if !isGlobal a then none
  else match s.reach none c a 1 with
  | (s1, .at pa _) =>
    if (wordsAt pa bs.length).any s1.poisoned then none
    else some ((wordsAt pa bs.length).foldl (fun s wa => s.homeMerge s.manager wa pa bs) s1)
  | _ => none

/-- A page's bit set or cleared by the manager. -/
def State.managerMark (s : State) (p : Pool) (x : PageId) (b : Bool) : Option State :=
  let (a, i) := p.bitOf x
  (s.managerWords p.ctx.toNat a 1).bind fun ws => s.managerWrite p.ctx.toNat a (bytesOf (putBit (val ws 0) i b))

/-- A descriptor written by the manager, in one event. -/
def State.managerDesc (s : State) (p : Pool) (lbn : Nat) (d : DWord) : Option State :=
  s.managerWrite p.ctx.toNat (p.descAddr lbn) ((words2 d).flatMap bytesOf)

/-- The holders of lines that the manager is about to read or write (`true`) are asked for them; `false` while one has not
answered. -/
def State.linesReady (s : State) (c : Nat) (l : List (DWord × Bool)) : State × Bool :=
  l.foldl (fun acc x =>
    match acc.1.reach none c x.1 (b2n x.2) with
    | (s1, .at pa nc) =>
      let (s2, ok) := s1.dirAccess pa x.2 nc
      (s2, acc.2 && ok)
    | (s1, .wait) => (s1, false)
    | _ => acc) (s, true)

/-- The lines of a page. -/
def pageLines (a : DWord) (cls : Nat) : List DWord := (List.range (64 * (cls + 1))).map fun i => a + BitVec.ofNat 64 (64 * i)

/-- The pool that an engine serves next: attached, with CMPT, from `from_` on in a circle. -/
def State.nextPool (s : State) (from_ : Nat) : Option Nat :=
  ((List.range 16).map fun i => (from_ + i) % 16).find? fun n =>
    let p := s.pool n
    p.att && p.cmpt && !p.leaving && p.nblk != 0

/-- The move that a descriptor allows: to the lowest free page of its class, where that lies below its own. -/
def State.moveFor (s : State) (n c lbn : Nat) : Option (DWord × PageId) :=
  let p := s.pool n
  (s.managerWords p.ctx.toNat (p.descAddr lbn) 2).bind fun ws =>
    let d := val2 ws 0
    if descPresent d && descClass d == c && !descMoving d && descPin d == 0 then
      match (p.pages c).find? (s.pageFree p) with
      | none => none
      | some x => if (p.pageAddr x).toNat < (descPage d).toNat then some (d, x) else none
    else none

/-- The change, or the state where it cannot be made. -/
def State.orElse (s : State) (r : Option State) : State := r.getD s

/-- A pool whose compaction an access fault has ended (R350). -/
def State.endCompaction (s : State) (n : Nat) : State := s.setPool n { s.pool n with cmpt := false }

/-- The first event of a move and its page's bit; a fault of either leaves the descriptor with MOVING = 0 and ends compaction
of the pool. -/
def State.startMove (s : State) (n cls lbn : Nat) (d : DWord) (x : PageId) : State :=
  let p := s.pool n
  match s.managerDesc p lbn (d ||| 0x100) with
  | none => s.endCompaction n
  | some s1 =>
    match s1.managerMark p x true with
    | none => (s1.orElse (s1.managerDesc p lbn d)).endCompaction n
    | some s2 =>
      let m : Move := { pool := n, lbn := lbn, cls := cls, old := descPage d, dst := p.pageAddr x }
      s2.setEng { s2.eng with moves := Map.set s2.eng.moves cls m }

/-- COMPACTION_STEP: the engine of a class examines the next descriptor of the pool in turn, and may start a move. While it
moves a block it examines none. -/
def execCompactionStep (cls : Nat) (s : State) : Outcome :=
  .next (if 3 < cls || (Map.find? s.eng.moves cls).isSome then s
    else match s.nextPool (Map.getD s.eng.robin cls 0) with
    | none => s
    | some n =>
      let p := s.pool n
      let lbn := p.scan % p.nblk
      let next (s : State) : State :=
        let s1 := s.setPool n { s.pool n with scan := (lbn + 1) % p.nblk }
        s1.setEng { s1.eng with robin := Map.set s1.eng.robin cls ((n + 1) % 16) }
      let (s0, readable) := s.managerReady p.ctx.toNat (p.descAddr lbn)
      if !readable then s0
      else match s0.moveFor n cls lbn with
      | none => next s0
      | some (d, x) =>
        let (s1, ok) := s0.linesReady p.ctx.toNat [(p.descAddr lbn, true), ((p.bitOf x).1, true)]
        if ok then (next s1).startMove n cls lbn d x else s1)

/-- Copies `n` lines of a page, in increasing address. -/
def State.moveLines (s : State) (c : Nat) (src dst : DWord) (i : Nat) : Nat → Option State
  | 0 => some s
  | n + 1 =>
    match s.managerWords c (src + BitVec.ofNat 64 (64 * i)) 16 with
    | none => none
    | some ws =>
      match s.managerWrite c (dst + BitVec.ofNat 64 (64 * i)) (ws.flatMap bytesOf) with
      | none => none
      | some s1 => State.moveLines s1 c src dst (i + 1) n

/-- A move has ended: a detachment that waited for it takes effect. -/
def State.moveOver (s : State) (m : Move) : State :=
  let s1 := s.setEng { s.eng with moves := Map.del s.eng.moves m.cls }
  if (s1.pool m.pool).leaving then s1.poolDetach m.pool else s1

/-- The descriptor as it stands, with MOVING = 0 at a page. -/
def State.settleDesc (s : State) (p : Pool) (m : Move) (page : DWord) : Option State :=
  (s.managerWords p.ctx.toNat (p.descAddr m.lbn) 2).bind fun ws =>
    let d := val2 ws 0
    s.managerDesc p m.lbn (mkDesc page (descClass d) (descPresent d) false (descPin d))

/-- A page's bit cleared by the manager; a fault ends compaction of the pool. -/
def State.freePage (s : State) (p : Pool) (n : Nat) (x : PageId) : State :=
  match s.managerMark p x false with
  | some s1 => s1
  | none => s.endCompaction n

/-- A move runs to its end: the page is copied, the descriptor names the new page, and the old one is free; a fault ends the
move at the old page, frees the new one and ends compaction of the pool. -/
def State.publish (s : State) (m : Move) : State :=
  let p := s.pool m.pool
  match (s.moveLines p.ctx.toNat m.old m.dst 0 (64 * (m.cls + 1))).bind fun s => s.settleDesc p m m.dst with
  | some s1 =>
    let s2 := s1.freePage p m.pool (p.pageAt m.cls m.old)
    (s2.setPool m.pool { s2.pool m.pool with moves := p.moves + 1 }).moveOver m
  | none =>
    let s1 := s.orElse (s.settleDesc p m m.old)
    ((s1.freePage p m.pool (p.pageAt m.cls m.dst)).endCompaction m.pool).moveOver m

/-- Whether the lines that a move reads and writes are the manager's to use. -/
def State.moveReady (s : State) (m : Move) : State × Bool :=
  let p := s.pool m.pool
  s.linesReady p.ctx.toNat
    ((pageLines m.old m.cls).map (·, false) ++ (pageLines m.dst m.cls).map (·, true) ++
      [(p.descAddr m.lbn, true), ((p.bitOf (p.pageAt m.cls m.old)).1, true), ((p.bitOf (p.pageAt m.cls m.dst)).1, true)])

/-- MOVE_PUBLISH. (DEDUCED, log 79.) -/
def execMovePublish (cls : Nat) (s : State) : Outcome :=
  .next (match Map.find? s.eng.moves cls with
    | none => s
    | some m =>
      let (s1, ok) := s.moveReady m
      if ok then s1.publish m else s1)

end Sys2Proof.Machine
end

