-- ==== Sys2Proof/Machine/System.lean ====
section
/-! DEFINITION. System instructions (18_system): SYSC and FENCEC, TRAP, TRET, BRK and HALT; stopping a thread, widening a
stop and resuming a stop group; and the service of system calls. -/

namespace Sys2Proof.Machine

/-! ### SYSC (R373, R374) -/

/-- Whether the context of a thread holds a system-call grant. -/
def State.contextGrant (s : State) (k : Nat) : Bool := (s.ctx (s.ctxOf k)).sysGrant

/-- The 16 words of a call packet (Table 18-3). -/
def Call.packet (c : Call) : List Word :=
  [c.seq, c.call, DWord.lo c.args, DWord.hi c.args, BitVec.ofNat 32 (c.world * 2 ^ 24 + c.ctx * 2 ^ 16),
   BitVec.ofNat 32 (laneOf c.thread * 2 ^ 16 + slotOf c.thread * 2 ^ 8 + coreOf c.thread),
   BitVec.ofNat 32 (c.epoch.toNat * 2 ^ 10 + c.slot)] ++ List.replicate 9 0

/-- The free slot of a core's mailbox ring that the next packet takes: the first one in ring order (R373). (DESIGN CHOICE,
log 139.) -/
def Core.ringSlot (x : Core) : Option Nat :=
  ((List.range Config.mailbox).map fun i => (x.ringnext + i) % Config.mailbox).find? fun i => (Map.find? x.ring i).isNone

/-- SYSC in one lane. -/
def State.syscLane (s : State) (k : Nat) (a : DWord) (n : Word) : State × LaneOut :=
  let core := coreOf k
  if !isGlobal a then (s, .trap (accessTrap 0x09 a 0))
  else if a.toNat % 64 != 0 then (s, .trap (accessTrap 0x08 a 0))
  else if !s.contextGrant k then (s, .trap (trapOf 0x13 (n.zeroExtend 64)))
  else
    let (s1, ok) := s.drain k
    if !ok then (s1, .stall)
    else match s1.freeSlot core with
    | .inr o => (s1, o)
    | .inl slot =>
      match (s1.core core).ringSlot with
      | none => (s1, .stall)
      | some i =>
        let t := s1.thread k
        let call : Call :=
          { num := s1.serialNo, after := t.fence, seq := BitVec.ofNat 32 i, call := n, args := a,
            world := s1.worldOf (s1.ctxOf k), ctx := s1.ctxOf k, thread := k, epoch := t.epoch, slot := slot,
            parked := none }
        let s2 := (s1.newFuture core slot 6 1 none).modCore core fun x =>
          { x with ring := Map.set x.ring i call, ringnext := (i + 1) % Config.mailbox }
        (s2.bumpSerial, .done { vals := [handleWord 3 0 6 slot], ff := 0, sb := none, tag := some slot })

def execSysc (o : OpA) (s : State) : Outcome :=
  .next (s.groupWord (.sysc o) o.s o.g (codesFrom o.a 2 ++ [o.b]) o.lit (.vec 1 o.d) false fun s ins =>
    State.memDone (s.eachLane ins fun s k ws => s.syscLane k (val2 ws 0) (val ws 2)))

/-! ### FENCEC (R375) -/

/-- The calls of threads that have not resolved. -/
def State.openCalls (s : State) (ks : List Nat) : List Nat :=
  s.fab.cores.flatMap fun p => p.2.ring.filterMap fun c => if ks.contains c.2.thread then some c.2.num else none

/-- A fence among threads: the calls that any of them has issued come before those that any of them issues later.
(DEDUCED, log 86.) -/
def State.fenceCalls (s : State) (ks : List Nat) : State :=
  let calls := s.openCalls ks ++ ks.flatMap fun k => (s.thread k).fence
  s.updLanes ks fun _ t => { t with fence := calls, epoch := t.epoch + 1 }

/-- A fence of a RIG set acts once, when the first of its groups issues it: every call that a member issues later comes after
it, whichever group the member is in. -/
def State.fenceRig (s : State) (k : Nat) : State :=
  let acted := match (s.thread k).released with
    | none => false
    | some id => s.fab.fenced.contains id
  if acted then s
  else
    let s1 := s.fenceCalls (s.setMembers (yardOf k) true)
    { s1 with fab := { s1.fab with fenced := s1.fab.fenced ++ ((s.thread k).released.map fun id => [id]).getD [] } }

/-- FENCEC: at LANE scope for each active thread, at YARD or RIG scope among the members of each set. -/
def execFencec (o : OpA) (s : State) : Outcome :=
  let kind := setKind (s.groupVersion s.here.lanes) o.s
  let rigOf (k : Nat) : Nat := ((s.yard (yardOf k)).rig.map fun m => m.1).getD 0
  .next (s.groupWord (.fencec o) o.s o.g [] 0 .none false fun s ins =>
    let ks := ins.map fun p => p.1
    let s1 := match kind with
      | .lane => ks.foldl (fun s k => s.fenceCalls [k]) s
      | .yard => (firsts yardOf [] ks).foldl (fun s k => s.fenceCalls (s.setMembers (yardOf k) false)) s
      | .rig => (firsts rigOf [] ks).foldl (fun s k => s.fenceRig k) s
    (s1, allDone ins []))

/-! ### Stops (R377, R383) -/

/-- The record of a stop: as a trap entry writes it, INTRAP unchanged and STOPPED set; with INTRAP set only STOPPED is
written. -/
def Thread.stopRecord (t : Thread) (pc : BitVec 16) (w : Nat) (i : Trap) (halt : Bool) (n : Nat) : TrapRec :=
  if t.trec.intrap && !halt then { t.trec with stopped := true }
  else { t.trec.fill pc w i t.latches n with stopped := true }

/-- The record that tells the host of a stop: type 9 for HALT, else type 10. (DEDUCED, log 81.) -/
def State.tellStop (s : State) (k : Nat) (i : Trap) : State :=
  if i.cause == 0x1C then s.postRecord 9 0 (some (s.ctxOf k)) 0 (threadDetail k ++ [DWord.lo i.info0])
  else s.postRecord 10 0 (some (s.ctxOf k)) 0 (threadDetail k ++ [BitVec.ofNat 32 i.cause])

/-- A thread that stops at the word that issues: its record is written; the word parks it as stopped. -/
def State.stopMark (s : State) (k : Nat) (pc : BitVec 16) (w : Nat) (i : Trap) (group : Nat) : State :=
  let s1 := s.modThread k fun t =>
    { t with trec := t.stopRecord pc w i (i.cause == 0x1C) s.fresh, stopGroup := some group, waited := none,
             stopDue := none, released := none, given := none }
  ({ s1 with fresh := s1.fresh + 4 }).tellStop k i

/-- A thread stops where it stands; a streaming one leaves its group at `pc`, word `w`. (DEDUCED, log 81.) -/
def State.stopAt (s : State) (k : Nat) (pc : BitVec 16) (w : Nat) (i : Trap) (group : Nat) : State :=
  let t := s.thread k
  let s1 := s.modThread k fun t =>
    { t with trec := t.stopRecord pc w i false s.fresh, stopGroup := some group, stopDue := none,
             waited := if t.st == .streaming || t.st == .eligible || t.st == .unindexed || t.st == .suspended then none
                       else some t.st }
  let s2 := { s1 with fresh := s1.fresh + 4 }
  if t.st == .streaming then
    let s3 := ((s2.suspendRegion k).leaveGroup k).unplace k
    (s3.modThread k fun t =>
      { t with st := .stopped, pc := pc, wpos := w, lat := noLatches, held := none, kept := none, released := none }).arrive k
  else s2.modThread k fun t => { t with st := .stopped }

/-- What a stop that another caused records (Table 18-1). -/
def widened : Trap := trapOf 0 0

/-- A thread that a stop reaches stops at its next switch point where it streams, else at once. -/
def State.stopSoon (s : State) (k group : Nat) (command : Bool) : State :=
  let t := s.thread k
  match t.st with
  | .unlaunched => s
  | .exited => s
  | .stopped => s
  | .streaming =>
    if t.stopDue.isSome then s else s.modThread k fun t => { t with stopDue := some (group, command) }
  | _ =>
    let s1 := s.stopAt k t.pc t.wpos widened group
    if command then s1.tellStop k widened else s1

/-- The threads that the stop width adds to a stop of thread `k`. (DEDUCED, log 81.) -/
def State.widenSet (s : State) (k : Nat) : List Nat :=
  match (s.ctx (s.ctxOf k)).dbg.stopw.toNat with
  | 0 => []
  | 1 => s.liveLanes (yardOf k)
  | _ => ((List.range 128).map (yardKey (coreOf k))).flatMap fun y =>
      if s.yardCtx y == s.ctxOf k && (s.yard y).resident then s.liveLanes y else []

/-- Widens a stop of threads to the rest of their yards or cores. -/
def State.widen (s : State) (ks : List Nat) (group : Nat) : State :=
  ks.foldl (fun s k => ((s.widenSet k).filter fun j => !ks.contains j).foldl (fun s j => s.stopSoon j group false) s) s

/-- Whether BRK and steps stop a thread. -/
def State.attached (s : State) (k : Nat) : Bool := (s.ctx (s.ctxOf k)).dbg.attach

/-! ### TRAP, BRK, HALT (R378) -/

/-- A trap that continues after its word, with the value of A. -/
def codeTrap (cause : Nat) (v : Word) : Trap := { trapOf cause (v.zeroExtend 64) with resume := true }

/-- TRAP. -/
def execTrap (o : OpA) (s : State) : Outcome :=
  .next (s.laneWord (.trap o) o.s o.g [o.a] o.lit .none false fun _ _ ws => .trap (codeTrap 0x1B (val ws 0)))

/-- Lanes that stop at the word: they form one stop group, which is widened. -/
def State.stopLanes (s : State) (cause : Nat) (l : List (Nat × List Word)) : State × List (Nat × LaneOut) :=
  let h := s.here
  let group := s.serialNo
  let s1 := l.foldl (fun s p => s.stopMark p.1 h.pc h.w (codeTrap cause (val p.2 0)) group) s.bumpSerial
  (s1.widen (l.map fun p => p.1) group, allOut l (.park .stopped))

/-- BRK: it stops a thread with ATTACH = 1, unless it is in a handler, and else traps (R371, R377). -/
def execBrk (o : OpA) (s : State) : Outcome :=
  .next (s.groupWord (.brk o) o.s o.g [o.a] o.lit .none false fun s ins =>
    let stops := ins.filter fun p => s.attached p.1 && !(s.thread p.1).trec.intrap
    let traps := ins.filter fun p => !stops.contains p
    let (s1, outs) := s.stopLanes 0x11 stops
    (s1, outs ++ traps.map fun p => (p.1, .trap (codeTrap 0x11 (val p.2 0)))))

/-- HALT. (DEDUCED, log 124.) -/
def execHalt (o : OpA) (s : State) : Outcome :=
  .next (s.groupWord (.halt o) o.s o.g [o.a] o.lit .none false fun s ins => s.stopLanes 0x1C ins)

/-! ### TRET (R369) -/

/-- The check of a record: the cause that fails it. -/
def State.retCheck (s : State) (core : Nat) (r : TrapRec) : Option Nat :=
  if !(layoutWords (s.packetAt core r.epc)).contains r.widx.toNat then some 0x02
  else if Config.lastPacket < r.epc.toNat % 8192 then some 0x15
  else if !s.segReady core r.epc then some 0x06
  else none

/-- The return itself: the handler's region ends and the thread resumes as its record says. -/
def State.retNow (s : State) (k : Nat) : State :=
  let s1 := (s.endRegion k).leaveGroup k
  let s2 := s1.modThread k fun t => { t with trec := { t.trec with intrap := false }, leaving := .no, released := none, given := none }
  (s2.liftSets k).resume k

/-- TRET in one lane. -/
def State.retLane (s : State) (i : Instr) (left k : Nat) : State × LaneOut :=
  let r := (s.thread k).trec
  if !r.intrap then (s, .trap (trapOf 1 (wordOf i)))
  else match s.retCheck (coreOf k) r with
  | some c => (s, .trap (trapOf c (if c == 0x02 then wordOf i else r.epc.zeroExtend 64)))
  | none => if left = 0 then (s.retNow k, doneWith []) else (s.modThread k fun t => { t with leaving := .ret }, doneWith [])

/-- DEDUCED, log 80. -/
def execTret (o : OpA) (s : State) : Outcome :=
  .next (s.groupWord (.tret o) o.s o.g [] 0 .none false fun s ins =>
    s.eachLane ins fun s k _ => s.retLane (.tret o) s.here.left k)

/-! ### Resuming a stop group (R371, R379) -/

/-- Whether a HOIST request of a thread still waits. -/
def State.hoistWaits (s : State) (k : Nat) : Bool := (s.part (partOf k)).hoistq.any fun r => r.members.contains k

/-- Whether a thread has signed a phase, or an operation, that has not let it go. -/
def State.signsStill (s : State) (k : Nat) : Bool :=
  let c := s.core (coreOf k)
  (c.cleats.any fun p => p.2.signs.any fun x => x.thread == k) ||
    c.mreleased.any fun o => o.signers.any fun x => x.thread == k

/-- A stopped thread continues where it stands: in its wait while that lasts, else at its program counter.
(DEDUCED, log 124.) -/
def State.continueAt (s : State) (k : Nat) : State :=
  let t := s.thread k
  let s1 := s.modThread k fun t => { t with waited := none, step := if t.trec.sstep then .armed else t.step }
  let back := s1.modThread k fun u => { u with st := t.waited.getD .eligible }
  match t.waited with
  | some (.rendezvous _) => back
  | some .signed => if s.signsStill k then back else s1.stepOver k
  | some (.blocked (.page _ _ _ _)) => back
  | some (.blocked .hoist) => if s.hoistWaits k then back else s1.ready k
  | _ => s1.ready k

/-- One thread of a stop group resumes. A thread that a double trap stopped resumes as from TRET's `resume`.
(DEDUCED, log 82, 87.) -/
def State.resumeOne (s : State) (k : Nat) : State :=
  let r := (s.thread k).trec
  let s1 := s.modThread k fun t =>
    { t with stopGroup := none, trec := { t.trec with stopped := false, ncause := 0 } }
  if r.ncause != 0 then (s1.modThread k fun t => { t with waited := none }).resume k
  else if !r.intrap && r.cause != 0 then
    (s1.modThread k fun t => { t with waited := none, saved := t.region }).resume k
  else if r.cause == 0x1C && r.epc == (s.thread k).pc && r.widx.toNat == (s.thread k).wpos then
    (s1.modThread k fun t => { t with step := if t.trec.sstep then .armed else t.step }).stepOver k
  else s1.continueAt k

/-- Every thread of a thread's stop group resumes; stops of the group that are still due are dropped. (DEDUCED, log 82.) -/
def State.resumeGroup (s : State) (k : Nat) : State :=
  let group := (s.thread k).stopGroup
  let ks := (s.fab.threads.filter fun p => p.2.st == .stopped && p.2.stopGroup == group).map fun p => p.1
  let s1 := { s with fab := { s.fab with threads := Map.mapVals (fun _ t =>
    if t.stopDue.map (·.1) == group then { t with stopDue := none } else t) s.fab.threads } }
  ks.foldl (fun s j => s.resumeOne j) s1

/-! ### The debug block's commands (R376, R379, R384) -/

/-- The target of a context's debug block, when its core serves the context and the thread is one of its resident
threads. -/
def State.debugTarget (s : State) (c : Nat) : Option Nat :=
  let d := (s.ctx c).dbg
  let y := yardKey d.core.toNat d.yslot.toNat
  let k := threadKey y d.lane.toNat
  let t := s.thread k
  if (s.core d.core.toNat).ctx == some c && (s.yard y).resident && s.yardCtx y == c && t.st != .unlaunched &&
      t.st != .exited then some k else none

def State.debugErr (s : State) (c : Nat) : State := s.modCtx c fun x => { x with dbg := { x.dbg with err := true } }

/-- CMD 1: the target stops, at its next switch point where it streams; its stop is widened when it happens. -/
def execDebugStop (ctx : Nat) (s : State) : Outcome :=
  .next (match s.debugTarget ctx with
    | none => s.debugErr ctx
    | some k =>
      let group := s.serialNo
      let s1 := s.bumpSerial.stopSoon k group true
      if (s.thread k).st == .streaming || (s.thread k).st == .stopped then s1 else s1.widen [k] group)

/-- CMD 2. -/
def execDebugResume (ctx : Nat) (s : State) : Outcome :=
  .next (match s.debugTarget ctx with
    | none => s.debugErr ctx
    | some k => if (s.thread k).st == .stopped then s.resumeGroup k else s.debugErr ctx)

/-- CMD 3: SSTEP is set in the target's record, then its stop group resumes. -/
def execDebugStep (ctx : Nat) (s : State) : Outcome :=
  .next (match s.debugTarget ctx with
    | none => s.debugErr ctx
    | some k =>
      if (s.thread k).st == .stopped then
        (s.modThread k fun t => { t with trec := { t.trec with sstep := true } }).resumeGroup k
      else s.debugErr ctx)

/-- A write of the debug block's doubleword at 0x00: STOPW 3 sets ERR and is ignored. (DEDUCED, log 84.) -/
def execStopwWrite (ctx : Nat) (v : DWord) (s : State) : Outcome :=
  let w := v.extractLsb' 1 2
  .next (s.modCtx ctx fun x =>
    { x with dbg := if w.toNat == 3 then { x.dbg with err := true, attach := v.getLsbD 0 }
                      else { x.dbg with stopw := w, attach := v.getLsbD 0 } })

/-! ### The service of calls (R373 to R375) -/

/-- The call in a slot of a core's ring, when every call that a fence puts before it has resolved and it is not parked.
(DEDUCED, log 86, 97.) -/
def State.callDue (s : State) (core n : Nat) : Option Call :=
  match Map.find? (s.core core).ring n with
  | none => none
  | some c =>
    let waits := s.fab.cores.any fun p => p.2.ring.any fun d => c.after.contains d.2.num
    if waits || c.parked.isSome || Config.cores ≤ core then none else some c

/-- A call resolves and leaves its ring. -/
def State.callEnd (s : State) (core : Nat) (c : Call) (state status : Nat) : State :=
  (s.modCore core fun x => { x with ring := x.ring.filter fun d => d.2.num != c.num }).resolve core c.slot state status

/-- A call parks on a page. -/
def State.callPark (s : State) (core : Nat) (c : Call) (v kind reason : Nat) : State :=
  let p := s.parkAt (clusterOf core) c.ctx v (kind == 5)
  (s.modCore core fun x => { x with ring := Map.mapVals (fun _ d =>
    if d.num == c.num then { d with parked := some p } else d) x.ring }).engineFault (clusterOf core) core c.ctx v kind reason

/-- What an access of a call gives goes on with `f`, or ends or parks the call. -/
def State.callAcc (core : Nat) (c : Call) (kind : Nat) (r : State × Acc) (f : State → List Byte → State) : State :=
  match r with
  | (s, .ok bs) => f s bs
  | (s, .wait) => s
  | (s, .fail st) => s.callEnd core c 1 st
  | (s, .park v reason) => s.callPark core c v kind reason

/-- The argument block, read under the context's translation. -/
def State.callBlock (s : State) (core : Nat) (c : Call) (f : State → List Byte → State) : State :=
  State.callAcc core c 4 (s.engineRead (clusterOf core) c.ctx c.args 64) f

/-- Bytes of the block written, and then the call is done. -/
def State.callWrite (s : State) (core : Nat) (c : Call) (bs : List Byte) : State :=
  State.callAcc core c 5 (s.engineWrite (clusterOf core) c.ctx s.manager c.args bs) fun s _ => s.callEnd core c 0 0

/-- SYSCALL_ECHO: the block is unchanged. -/
def execSyscallEcho (core n : Nat) (s : State) : Outcome :=
  .next (match s.callDue core n with
    | none => s
    | some c => if c.call != 0 then s else s.callBlock core c fun s _ => s.callEnd core c 0 0)

/-- SYSCALL_TIME: bytes 0 to 7 become the reference-clock ticks. -/
def execSyscallTime (core n : Nat) (s : State) : Outcome :=
  .next (match s.callDue core n with
    | none => s
    | some c => if c.call != 1 then s
      else s.callBlock core c fun s _ => s.callWrite core c ((words2 s.ticks).flatMap bytesOf))

/-- Whether the next error record will be dropped (R388). -/
def State.queueFull (s : State) : Bool :=
  let q := s.status
  q.eqlogd == 0 || 2 ^ q.eqlogd.toNat ≤ (q.eqwidx - q.eqridx).toNat

/-- SYSCALL_HOSTMSG: bytes 0x00 to 0x27 go to the host as a record of type 11, and word 0 says whether it was dropped. A call
that parks on the write has sent nothing yet. (DEDUCED, log 85.) -/
def execSyscallHostmsg (core n : Nat) (s : State) : Outcome :=
  .next (match s.callDue core n with
    | none => s
    | some c => if c.call != 2 then s
      else s.callBlock core c fun s bs =>
        let tell (s : State) : State := s.postRecord 11 0 (some c.ctx) 0 ((toWords bs).take 10)
        match s.engineWrite (clusterOf core) c.ctx s.manager c.args (bytesOf (BitVec.ofNat 32 (b2n s.queueFull))) with
        | (s1, .ok _) => (tell s1).callEnd core c 0 0
        | (s1, .fail st) => (tell s1).callEnd core c 1 st
        | r => State.callAcc core c 5 r fun s _ => s)

/-- SYSCALL_UNKNOWN: status 9. -/
def execSyscallUnknown (core n : Nat) (s : State) : Outcome :=
  .next (match s.callDue core n with
    | none => s
    | some c => if c.call.toNat < 3 then s else s.callEnd core c 1 9)

end Sys2Proof.Machine
end

