-- ==== Sys2Proof/Machine/Schedule.lean ====
section
/-! DEFINITION. Scheduling (03_threads): dispatch of bind records, the frontier table and the selector, issue groups,
rendezvous, cleats, and a deadlocked register pool (05_registers R145). -/

namespace Sys2Proof.Machine

/-! ### The selector (R74, R75, R78) -/

/-- Whether an entry holds an eligible thread. -/
def State.entryReady (s : State) (e : Entry) : Bool := e.wait.any fun k => (s.thread k).st == .eligible

/-- The aged queue as the states of the entries leave it: an entry that is held has left it, and one that is eligible again
with AGE 16 has joined its back. -/
def State.agedNow (s : State) (q : Part) : List (BitVec 16) :=
  let old := q.aged.filter fun a => q.entries.any fun e => e.addr == a && s.entryReady e
  let new := (q.entries.filter fun e => e.age == Config.ageLimit && s.entryReady e && !old.contains e.addr).map (·.addr)
  old ++ sortBy (fun a b => decide (a ≤ b)) new

/-- Keeps the aged queues of all partitions as the entries stand. -/
def State.settleAged (s : State) : State :=
  { s with fab := { s.fab with parts := Map.mapVals (fun _ q => { q with aged := s.agedNow q }) s.fab.parts } }

/-- The entry of lowest address of a list. -/
def lowestEntry (l : List Entry) : Option Entry := l.find? fun e => l.all fun f => decide (e.addr ≤ f.addr)

/-- The entry that the selector chooses. -/
def State.choose (s : State) (q : Part) : Option Entry :=
  let cand := q.entries.filter s.entryReady
  match (s.agedNow q).head? with
  | some a => cand.find? fun e => e.addr == a
  | none => lowestEntry cand

/-- The frontier entries after a selection: the chosen one begins anew, the other eligible ones age. -/
def State.agedEntries (s : State) (q : Part) (e : Entry) (stream : List Nat) : List Entry :=
  q.entries.map fun f =>
    if f.addr == e.addr then { f with age := 0, wait := f.wait.filter fun k => !stream.contains k }
    else if s.entryReady f && f.age < Config.ageLimit then { f with age := f.age + 1 }
    else f

/-- Places threads whole in the lowest group in which all of their lanes are free. A closed group takes no more. -/
def placeIn (ks : List Nat) : List (Bool × List Nat) → List (Bool × List Nat)
  | [] => [(false, ks)]
  | (closed, g) :: r =>
    if closed || ks.any fun k => g.any fun j => laneOf j == laneOf k then (closed, g) :: placeIn ks r
    else (closed, g ++ ks) :: r

/-- The threads of a stream that one completed rendezvous released together, yard by yard. (DESIGN CHOICE, log 135.) -/
def State.releasedUnits (s : State) (ks : List Nat) : List (List Nat) :=
  let key (k : Nat) : Option (Nat × Nat) := (s.thread k).released.map fun n => (n, yardOf k)
  let keys := (ks.filterMap key).eraseDups
  keys.map fun x => ks.filter fun k => key k == some x

/-- The issue groups of a stream: a thread that resumes forms a group of its own, then the released sets, yard by yard, then
each other thread in the lowest group where its lane is free (R78, R369). The spec gives no order of the sets against the
other threads. (DESIGN CHOICE, log 135.) -/
def State.formGroups (s : State) (ks : List Nat) : List (List Nat) :=
  let own := ks.filter fun k => (s.thread k).alone
  let sets := s.releasedUnits (ks.filter fun k => !(s.thread k).alone)
  let rest := ks.filter fun k => !(s.thread k).alone && (s.thread k).released.isNone
  let g0 := own.map fun k => (true, [k])
  let g1 := sets.foldl (fun g u => placeIn u g) g0
  (rest.foldl (fun g k => placeIn [k] g) g1).map (·.2)

/-- The lanes of a group in order. -/
def byLane (g : List Nat) : List Nat := sortBy (fun a b => decide (laneOf a ≤ laneOf b)) g

/-- The registers that a region descriptor names. -/
def Thread.regionRegs (t : Thread) : List Nat :=
  match t.region with
  | none => []
  | some (vr, _) => vr

/-- The first word position of a group. -/
def State.firstWord (s : State) (g : List Nat) : Nat := ((g.map fun k => (s.thread k).wpos).min?).getD 0

/-- Streams an entry: its eligible threads form issue groups, and their regions are restaged, where a faulted range or a
poisoned register traps the thread (R75, R78, R129, R210). A thread whose restage stalls on a range that a copy holds joins
no group yet (R129, R209). -/
def State.streamEntry (s : State) (p : Nat) (e : Entry) : State :=
  let q := s.part p
  let ks := e.wait.filter fun k => (s.thread k).st == .eligible && !s.regsLive k (s.thread k).regionRegs
  if ks.isEmpty then s else
  let groups := s.formGroups ks
  let gs := groups.map fun g =>
    { lanes := byLane g, pc := e.addr, w := s.firstWord g, words := [], run := 0, left := 0, sw := false,
      runs := false, stall := false }
  let s1 := s.setPart p { q with
    entries := s.agedEntries q e ks, aged := (s.agedNow q).filter (· != e.addr),
    stream := some { addr := e.addr, groups := gs, cur := 0 } }
  let s2 := s1.updLanes ks fun _ t => { t with st := .streaming, alone := false, lat := noLatches, held := none }
  ks.foldl (fun s k =>
    match s.stageTrap k ((s.thread k).regionRegs.filter (· != noReg)) with
    | some i => s.trap k (s.thread k).pc (s.thread k).wpos i
    | none => s.restage k) s2

/-- Whether a core makes selections: it serves a context, is not being pre-empted (R90), and the core clock runs (20_boundary
R429). -/
def State.coreRuns (s : State) (core : Nat) : Bool :=
  (s.core core).ctx.isSome && !(s.core core).preempt && s.power.pstate == 0

/-- Whether a core serves a context that is resident: while its context is saved, no count of it runs (R84, R88). -/
def State.coreIn (s : State) (core : Nat) : Bool :=
  match (s.core core).ctx with
  | none => false
  | some c => (s.ctx c).resident

/-- A selection in a partition with no streaming block (R74). -/
def State.selectIn (s : State) (core part : Nat) : State :=
  let p := partKey core part
  let q := s.part p
  if q.stream.isSome || !s.coreRuns core then s
  else match s.choose q with
  | none => s
  | some e => s.streamEntry p e

def execSelect (core part : Nat) (s : State) : Outcome := .next (s.selectIn core part)

/-! ### Rescans (R76) -/

/-- The frontier entries with threads at an address added: to its entry, or in a new one. -/
def addWaiters (es : List Entry) (a : BitVec 16) (ks : List Nat) : List Entry :=
  if es.any fun e => e.addr == a then
    es.map fun e => if e.addr == a then { e with wait := ks.foldl (fun l j => insertKey j l) e.wait } else e
  else { addr := a, wait := ks.foldl (fun l j => insertKey j l) [], age := 0 } :: es

/-- The unindexed threads of an address take their places in the frontier. -/
def State.indexAt (s : State) (p : Nat) (a : BitVec 16) : State :=
  let q := s.part p
  let ks := q.unindexed.filter fun j => (s.thread j).pc == a
  let s1 := s.setPart p { q with
    entries := addWaiters q.entries a ks, unindexed := q.unindexed.filter fun j => (s.thread j).pc != a }
  s1.updLanes ks fun _ t => { t with st := if t.st == .unindexed then .eligible else t.st }

/-- Gives entries to the addresses of unindexed threads, the longest first: an address that has an entry by now takes no other
(R73). -/
def State.rescanFrom (s : State) (p : Nat) : Nat → State
  | 0 => s
  | n + 1 =>
    let q := s.part p
    let room := decide (q.entries.length < Config.frontier)
    match q.unindexed.find? fun k => room || q.entries.any fun e => e.addr == (s.thread k).pc with
    | none => s
    | some k => State.rescanFrom (s.indexAt p (s.thread k).pc) p n

def execRescan (core part : Nat) (s : State) : Outcome :=
  .next (if s.coreRuns core then
      s.rescanFrom (partKey core part) (s.part (partKey core part)).unindexed.length
    else s)

/-! ### Rendezvous (R82 to R85) -/

/-- A position as one number. -/
def posNum (pc : BitVec 16) (w : Nat) : Nat := pc.toNat * 4 + w

/-- DEDUCED, log 30, 149. -/
def Thread.pos (t : Thread) : Nat := posNum t.pc t.wpos

/-- Whether a thread waits at a rendezvous. -/
def Thread.atRendezvous (t : Thread) : Bool :=
  match t.st with
  | .rendezvous _ => true
  | _ => false

/-- The scope of the rendezvous at which a thread waits. -/
def State.waitScope (s : State) (k : Nat) : SetKind := s.scopeAt k

/-- The cycle at which a thread began to wait at a rendezvous, which it does while it is stopped there too (R84, R383). -/
def Thread.waitSince (t : Thread) : Option Nat :=
  match t.st, t.waited with
  | .rendezvous n, _ => some n
  | .stopped, some (.rendezvous n) => some n
  | _, _ => none

/-- Whether a set has all of its members: a rig is sealed and every member of it has been initialised (R83). -/
def State.setWhole (s : State) (y : Nat) (rigWide : Bool) : Bool :=
  if !rigWide then true
  else match (s.yard y).rig with
  | none => false
  | some (r, _) => (s.rig r).st == some .sealed && (s.rig r).members.all fun m => (s.yard m.1).resident

/-- The members that wait where a thread waits, those stopped in that wait among them. -/
def State.waitersWith (s : State) (k : Nat) : List Nat :=
  let x := (s.thread k).pos
  (s.setMembers (yardOf k) (s.waitScope k == .rig)).filter fun j =>
    (s.thread j).waitSince.isSome && (s.thread j).pos == x

/-- Whether the rendezvous at which a thread waits is complete: every other member stands beyond it, and no member that waits
is stopped or has a write-back outstanding. (DEDUCED, log 30, 149.) -/
def State.complete (s : State) (k : Nat) : Bool :=
  let rigWide := s.waitScope k == .rig
  let x := (s.thread k).pos
  s.setWhole (yardOf k) rigWide && (s.setMembers (yardOf k) rigWide).all fun j =>
    let t := s.thread j
    (t.atRendezvous && t.pos == x && !s.owes j) || decide (x < t.pos)

/-- The registers that the data slots of exchange words name for threads where they stand. -/
def State.snapRegs (s : State) (ks : List Nat) : List Nat :=
  (ks.flatMap fun k => ((s.issueWords k).filterMap fun x => dataSlot x.instr).filterMap fun c =>
    (s.thread k).regionRegs[c.toNat]?).eraseDups

/-- The main-file values of those registers in every member of the set, kept for the words that released threads issue
(08_exchange R191). -/
def State.snapshot (s : State) (id : Nat) (ks : List Nat) : State :=
  match ks, s.snapRegs ks with
  | k :: _, r :: rs =>
    let m := (s.setMembers (yardOf k) (s.waitScope k == .rig)).flatMap fun u =>
      (r :: rs).map fun x => (u * 256 + x, s.reg u x)
    { s with fab := { s.fab with snaps := Map.set s.fab.snaps id m } }
  | _, _ => s

/-- What is kept of a released set is dropped once every thread of it has issued. -/
def State.settleSnaps (s : State) : State :=
  let used (n : Nat) : Bool := s.fab.threads.any fun t => t.2.released == some n
  { s with fab := { s.fab with snaps := s.fab.snaps.filter (fun p => used p.1), fenced := s.fab.fenced.filter used } }

/-- Members are let through a rendezvous together: it is a release point of each and an acquire point of each (R219), and it
fixes the source values of exchange words (08_exchange R191). -/
def State.letThrough (s : State) (ks : List Nat) : State :=
  let (s1, ok) := s.drainAll ks
  if !ok then s1
  else
    let id := s1.serialNo
    let s2 := (s1.bumpSerial.snapshot id ks).acquireAll ks
    ks.foldl (fun s k => (s.modThread k fun t => { t with released := some id }).ready k) s2

def execRendezvousComplete (t : Nat) (s : State) : Outcome :=
  .next (if (s.thread t).atRendezvous && s.complete t then s.letThrough (s.waitersWith t) else s)

/-- The cycle at which the first of threads began to wait. -/
def State.waitStart (s : State) (ks : List Nat) : Nat := ((ks.filterMap fun k => (s.thread k).waitSince).min?).getD s.now

/-- The trap of a timeout: the program counter of X, and 1 for a cleat. (DEDUCED, log 27.) -/
def timeoutTrap (pc : BitVec 16) (cleat : Nat) : Trap :=
  { trapOf 5 (pc.zeroExtend 64) with info1 := BitVec.ofNat 64 cleat }

/-- DEDUCED, log 27. -/
def execRendezvousTimeout (t : Nat) (s : State) : Outcome :=
  let x := s.thread t
  let ks := s.waitersWith t
  .next (if x.waitSince.isSome && (s.ctx (s.ctxOf t)).resident && decide (Config.timeout ≤ s.now - s.waitStart ks) then
      s.raiseAt (s.waitScope t) (ks.map fun k => (k, x.pc, x.wpos, timeoutTrap x.pc 0))
    else s)

/-! ### Cleats (R87, R88) -/

/-- Whether the phase of a rig's cleats releases: one has signatures, every one has all it expects, and no signer is
stopped. -/
def State.phaseDone (s : State) (r : Nat) : Bool :=
  let cs := (s.rigCleats r).map fun c => s.cleat c
  (cs.any fun c => c.opened) && (cs.all fun c => c.signs.length == c.expect) &&
    (s.rigSigners r).all fun x => (s.thread x.thread).st == .signed

/-- The operation of the open phase of a rig. -/
def State.phaseOp (s : State) (r : Nat) : SignOp :=
  ((((s.rigCleats r).map fun c => s.cleat c).find? fun c => c.opened).map fun c => c.op).getD .sign

def execCleatRelease (core cleat : Nat) (s : State) : Outcome :=
  .next (match (s.cleat (core, cleat)).rig with
    | none => s
    | some r =>
      if !s.phaseDone r then s
      else
        let signs := s.rigSigners r
        let ks := signs.map fun x => x.thread
        let op := s.phaseOp r
        let (s1, ok) := s.drainAll ks
        if !ok then s1
        else
          let s2 := s1.acquireAll ks
          let s3 := (s2.rigCleats r).foldl (fun s c => s.modCleat c fun x =>
            { x with opened := false, signs := [], phase := x.phase + 1 }) s2
          if op == .sign then s3.signersGo signs else s3.matrixRelease r op signs)

/-- DEDUCED, log 27. -/
def execCleatTimeout (core cleat : Nat) (s : State) : Outcome :=
  let c := s.cleat (core, cleat)
  .next (match c.rig with
    | none => s
    | some r =>
      if !c.opened || !s.coreIn core || s.phaseDone r || s.now - c.first < Config.timeout then s
      else
        let signs := s.rigSigners r
        let s1 := (s.rigCleats r).foldl (fun s c => s.modCleat c fun x => { x with fault := x.opened }) s
        (s1.clearPhase r).raiseAt .rig (signs.map fun x => (x.thread, x.pc, x.w, timeoutTrap c.addr 1)))

/-! ### Dispatch (R63 to R66, R70) -/

/-- The record that four doublewords describe, ERR apart. -/
def bindOf (w0 w1 w2 w3 : DWord) : Bind :=
  { argptr := w0, righ := w1, trapvec := w2.extractLsb' 32 16, yardno := w2.extractLsb' 0 26, valid := w3.getLsbD 63,
    hold := w3.getLsbD 62, err := false, context := w3.extractLsb' 50 6, world := w3.extractLsb' 44 6,
    version := w3.extractLsb' 42 2, ord := w3.extractLsb' 36 6, entry := w3.extractLsb' 16 16, lanes := w3.extractLsb' 0 7 }

/-- Whether a reserved field of a record is non-zero. -/
def bindReserved (w2 w3 : DWord) : Bool :=
  bitsOf w2.toNat 63 48 != 0 || bitsOf w2.toNat 31 26 != 0 || bitsOf w3.toNat 60 56 != 0 || bitsOf w3.toNat 35 32 != 0 ||
    bitsOf w3.toNat 15 7 != 0

/-- COUNT of a rig handle. -/
def righCount (v : DWord) : Nat := bitsOf v.toNat 35 30

/-- The rig record that a handle names. -/
def righRecord (v : DWord) : Nat := bitsOf v.toNat 29 26 * 64 + bitsOf v.toNat 41 36

/-- Whether dispatch refuses a record (R64). -/
def State.bindRefused (s : State) (core : Nat) (b : Bind) : Bool :=
  (s.core core).ctx != some b.context.toNat || b.world != (s.ctx b.context.toNat).world || b.version == 0 ||
    b.lanes == 0 || decide (64 < b.lanes.toNat) || (b.righ != 0 && decide (righCount b.righ ≤ b.ord.toNat))

/-- A write of a bind record by the management core. A write that leaves VALID at 1 in a record that still waits is checked like
one that sets it, so that two contexts never meet on a core (R15). (DEDUCED, log 136.) -/
def State.writeBind (s : State) (core slot : Nat) (w0 w1 w2 w3 : DWord) : State :=
  let y := yardKey core slot
  let v := s.yard y
  let err := v.bind.err && !w3.getLsbD 61
  let b := { bindOf w0 w1 w2 w3 with err := err }
  if v.resident then s.setYard y { v with bind := { v.bind with err := true } }
  else if !b.valid then s.setYard y { v with bind := b, waiting := false }
  else if bindReserved w2 w3 || s.bindRefused core b then
    (s.setYard y { v with bind := { b with valid := false, err := true }, waiting := false }).send (.report 3 [core, slot])
  else s.setYard y { v with bind := b, waiting := !v.bind.valid || v.waiting }

def execBindRecordWrite (core slot : Nat) (w0 w1 w2 w3 : DWord) (s : State) : Outcome :=
  .next (if core < Config.cores && slot < 128 then s.writeBind core slot w0 w1 w2 w3 else s)

/-- The hint of a launch packet, when it has a preference. -/
def hintOf (ws : List Word) : Option Nat :=
  let h := bitsOf (val ws 9).toNat 15 8
  if bitOf h 7 then none else some (h % 4)

/-- The operating point of a cluster (R427, Table 20-7). -/
def State.point (s : State) (cl : Nat) : Nat := Map.getD s.power.points cl 2

/-- The point that a cluster is to run at: the fastest that a launch with a yard bound there asks for, OP2 without one, and
no faster than capping allows (R427, R428). (DEDUCED, log 91.) -/
def State.pointAsked (s : State) (cl : Nat) : Nat :=
  let hints := (s.eng.launches.filter fun l => l.placed && l.yards.any fun y => clusterOf y.1 == cl).filterMap
    fun l => hintOf l.packet
  max (hints.min?.getD 2) (Map.getD s.power.capped cl 0)

/-- Whether the operating point of a cluster is stable (R65, R427). (DEDUCED, log 91.) -/
def State.pointStable (s : State) (cl : Nat) : Bool := s.point cl == s.pointAsked cl

/-- The lowest slot of a core whose record waits. -/
def State.nextInit (s : State) (core : Nat) : Option Nat :=
  ((List.range 128).map (yardKey core)).find? fun y => (s.yard y).waiting

/-- The threads of a new yard, its records cleared, each launched one holding its index in v0. -/
def State.newThreads (s : State) (y : Nat) (b : Bind) : State :=
  (List.range 64).foldl (fun s l =>
    let k := threadKey y l
    if l < b.lanes.toNat then
      let s1 := s.setThread k { Thread.init with st := .eligible, pc := b.entry }
      (s1.setReg k 0 (BitVec.ofNat 32 (64 * b.yardno.toNat + l))).arrive k
    else s.setThread k Thread.init) s

/-- A yard becomes the member of its launch rig, which is sealed from its first bind (R70). -/
def State.joinLaunchRig (s : State) (y : Nat) (b : Bind) : State :=
  if b.righ == 0 then s
  else
    let r := righRecord b.righ
    let s1 := s.modYard y fun v => { v with rig := some (r, b.ord.toNat), stripe := some r }
    s1.modRig r fun g =>
      { g with members := if g.members.any fun m => m.1 == y then g.members else g.members ++ [(y, b.ord.toNat)],
               stripes := Map.set g.stripes b.ord.toNat y }

/-- Initialises a yard (R66): what its task waited for comes before its threads (09_memory R214, R219). -/
def State.initYard (s : State) (y : Nat) : State :=
  let b := (s.yard y).bind
  let file : Map Word := [(0, DWord.lo b.argptr), (1, DWord.hi b.argptr), (2, DWord.lo b.righ), (3, DWord.hi b.righ)]
  let s1 := s.setYard y { Yard.init with bind := b, resident := true, ufile := file }
  (((s1.zeroRegs y 0 31).newThreads y b).acquireAll (yardLanes y)).joinLaunchRig y b

/-- YARD_INIT: the lowest waiting slot of a core, once its HOLD and its partition's pool allow; while a HOIST request waits
there, dispatch waits too (R65, R135). (DEDUCED, log 91.) No yard is initialised on a core that a pre-emption request has
reached, on which the steps of R90 are silent. (DESIGN CHOICE, log 137.) -/
def execYardInit (core : Nat) (s : State) : Outcome :=
  .next (match s.nextInit core with
    | none => s
    | some y =>
      let held := (s.yard y).bind.hold && !s.pointStable (clusterOf core)
      let full := s.poolFree (yardPart y) == 0 || !(s.part (yardPart y)).hoistq.isEmpty
      if held || full || !s.coreRuns core then s else s.initYard y)

/-! ### Pool deadlock (R145) -/

/-- Whether every resident yard of a partition has a queued request. -/
def State.deadlocked (s : State) (p : Nat) : Bool :=
  let ys := s.residentYards p
  !ys.isEmpty && ys.all fun y => (s.part p).hoistq.any fun r => r.yard == y

/-- POOL_DEADLOCK: the newest request is withdrawn with cause 0x10, and the host is told. The number of waiters counts the
threads of all queued requests. (DESIGN CHOICE, log 138.) -/
def execPoolDeadlock (core part : Nat) (s : State) : Outcome :=
  let p := partKey core part
  let q := s.part p
  .next (match q.hoistq.getLast? with
    | none => s
    | some r =>
      if !s.deadlocked p then s
      else
        let waiters := ((q.hoistq.map fun x => x.members.length).sum)
        let s1 := (s.postRecord 7 0 ((s.core core).ctx) 0 [BitVec.ofNat 32 core, BitVec.ofNat 32 part, BitVec.ofNat 32 waiters]).send
          (.report 4 [core, part, waiters])
        let s2 := s1.modPart p fun q => { q with hoistq := q.hoistq.dropLast }
        s2.raiseAt .yard (r.members.map fun k => (k, (s.thread k).pc, (s.thread k).wpos, trapOf 0x10 2)))

end Sys2Proof.Machine
end

