-- ==== Sys2Proof/Machine/Launch.lean ====
section
/-! DEFINITION. Launches (13_async R300, R301; 02_encoding R48 to R53; 03_threads R70): the loader, placement, and near-data
packets. -/

namespace Sys2Proof.Machine

/-! ### Launch packets (Table 13-8) -/

def yardsOf (ws : List Word) : Nat := bitsOf (val ws 8).toNat 25 0
def lastLanes (ws : List Word) : Nat := bitsOf (val ws 9).toNat 6 0
def argOf (ws : List Word) : DWord := val2 ws 6

/-! ### The kernel header (R51, R52) -/

/-- One step of the CRC-32 of IEEE 802.3, bit by bit, lowest first. -/
def crcBit (c : BitVec 32) : BitVec 32 := if c.getLsbD 0 then (c >>> 1) ^^^ 0xEDB88320 else c >>> 1

def crcByte (c : BitVec 32) (b : Byte) : BitVec 32 :=
  crcBit (crcBit (crcBit (crcBit (crcBit (crcBit (crcBit (crcBit (c ^^^ b.zeroExtend 32))))))))

/-- The CRC-32 of a run of bytes. -/
def crc32 (bs : List Byte) : BitVec 32 := ~~~(bs.foldl crcByte (BitVec.allOnes 32))

/-- The fields of a header that the loader and placement use. -/
structure Kernel where
  addr : DWord
  version : Nat
  segs : Nat
  rigYards : Nat
  partLimit : Nat
  regNeed : Nat
  entry : BitVec 16
  trapvec : BitVec 16
  packets : Nat
  check : Word
  /-- bytes of the binary that the header's sizes imply -/
  size : Nat
  deriving DecidableEq, Repr

/-- A number of bytes rounded up to a multiple of 64. -/
def padTo64 (n : Nat) : Nat := (n + 63) / 64 * 64

/-- The header as the loader accepts it; nothing where R52 refuses it. (DEDUCED, log 89.) A RIGYARDS above 48 is a load fault
by Table 2-10, though R300 gives status 16 to a rig above 48 yards. (DESIGN CHOICE, log 140.) -/
def kernelOf (addr : DWord) (bs : List Byte) : Option Kernel :=
  let ws := toWords bs
  let f (i hi lo : Nat) : Nat := bitsOf (val ws i).toNat hi lo
  let segs := f 2 7 0
  let need := f 3 15 0
  let ovl := f 6 15 0
  let sizes := (List.range 8).all fun k =>
    f (6 + k) 31 16 == 0 && (if k < segs then 1 ≤ f (6 + k) 15 0 && f (6 + k) 15 0 ≤ 5461 else f (6 + k) 15 0 == 0)
  let ok := val ws 0 == 0x4E594459 && 1 ≤ f 1 15 0 && f 1 15 0 ≤ 3 && f 1 31 16 == 0 && 1 ≤ segs && segs ≤ 8 &&
    f 2 15 8 ≤ 48 && 1 ≤ f 2 23 16 && f 2 23 16 ≤ 16 && f 2 31 24 == 0 && 32 ≤ need && need ≤ 256 && need % 32 == 0 &&
    f 3 31 16 < ovl && f 4 15 0 < ovl && f 4 31 16 == 0 && sizes && val ws 15 == 0 &&
    !(f 1 15 0 == 1 && f 2 15 8 != 0) && val ws 14 == crc32 (bs.take 56)
  if ok then some
    { addr := addr, version := f 1 15 0, segs := segs, rigYards := f 2 15 8, partLimit := f 2 23 16, regNeed := need,
      entry := BitVec.ofNat 16 (f 3 31 16), trapvec := BitVec.ofNat 16 (f 4 15 0), packets := ovl, check := val ws 14,
      size := 64 + ((List.range segs).map fun k => padTo64 (12 * f (6 + k) 15 0)).sum + padTo64 (val ws 5).toNat }
  else none

/-- Bytes `[off, off + n)` of the binary of a launch: from global memory under the context's translation, or from a verified
image. (DEDUCED, log 89.) -/
def State.kernelRead (s : State) (l : Launch) (image : Option Image) (off n : Nat) : State × Acc :=
  match image with
  | some x => if x.bytes.length < off + n then (s, .fail 15) else (s, .ok ((x.bytes.drop off).take n))
  | none =>
    let a := val2 l.packet 4
    if !isGlobal a then (s, .fail 6)
    else
      let b := a + BitVec.ofNat 64 off
      s.engineReads (s.homeCluster l.ctx) l.ctx b (lineParts b.toNat n)

/-- Whether the binary of a launch is shorter than its header implies: an image of fewer bytes, or a binary that would run past
the end of global memory (R52). (DEDUCED, log 89.) -/
def tooShort (l : Launch) (image : Option Image) (k : Kernel) : Bool :=
  match image with
  | some x => decide (x.bytes.length < k.size)
  | none =>
    let a := val2 l.packet 4
    let last := a + BitVec.ofNat 64 (k.size - 1)
    !isGlobal last || a.getLsbD 63 != last.getLsbD 63

/-! ### Placement (R49, R53, R70) -/

/-- The bound yards of a partition: those whose bind record is VALID (R53). -/
def State.boundIn (s : State) (p : Nat) : List Nat := ((List.range 16).map (p * 16 + ·)).filter fun y => (s.yard y).bind.valid

/-- Whether no yard is resident on a core, or waits there for dispatch (R49). A record that only holds a rig stripe is no yard.
(DEDUCED, log 90.) -/
def State.coreFree (s : State) (c : Nat) : Bool :=
  (List.range 128).all fun i => !(s.yard (yardKey c i)).resident && !(s.yard (yardKey c i)).waiting

/-- Whether a core can take yards of a kernel. -/
def State.coreTakes (s : State) (c : Nat) (k : Kernel) : Bool := s.coreFree c || (s.core c).kernel == some (k.addr, k.check)

/-- Whether a placement obeys the rules that bind firmware. -/
def State.placesOk (s : State) (l : Launch) (k : Kernel) (places : List (Nat × Nat)) : Bool :=
  let ys := places.map fun p => yardKey p.1 p.2
  let inPart (p : Nat) : Nat := (ys.filter fun y => yardPart y == p).length
  let rigOf (i : Nat) : Nat := if k.rigYards == 0 then i else i / k.rigYards
  places.length == yardsOf l.packet && ys.eraseDups.length == ys.length &&
    (places.all fun p => p.2 < 128 && (s.ctx l.ctx).cores.contains p.1 && (s.core p.1).ctx == some l.ctx &&
      s.coreTakes p.1 k && !(s.yard (yardKey p.1 p.2)).bind.valid) &&
    (ys.all fun y =>
      let p := yardPart y
      let bound := s.boundIn p
      let held := (bound.map fun z => (s.yard z).chunks).sum
      decide (bound.length + inPart p ≤ k.partLimit) &&
        decide ((k.regNeed - 32) / 32 + bound.length + inPart p + held ≤ 24)) &&
    (k.rigYards == 0 || places.zipIdx.all fun x => places.zipIdx.all fun y =>
      rigOf x.2 != rigOf y.2 || clusterOf x.1.1 == clusterOf y.1.1)

/-- A core begins to serve a kernel: segments 1 to 7 are EMPTY, and overlay 0 is LANDED in segment 0 (R48, R49).
(DEDUCED, log 90.) -/
def State.landKernel (s : State) (core : Nat) (k : Kernel) (code : List Byte) : State :=
  let s1 := (s.eng.copies.filter fun x => (x.seg.map fun y => y.1) == some core).foldl (fun s x => s.copyEnd x 2 0) s
  let seg0 : Seg := { Seg.init with
    st := 2, packets := k.packets, landno := (s1.seg core 0).landno + 1, src := k.addr + 64 }
  let s2 := s1.modCore core fun c => { c with kernel := some (k.addr, k.check), segs := [(0, seg0)] }
  (toWords code).zipIdx.foldl (fun s w => s.setChipWord (chipKey 5 core 0 + 4 * w.2) w.1) s2

/-- Every core of a placement serves the kernel. -/
def State.landAll (s : State) (k : Kernel) (code : List Byte) (cores : List Nat) : State :=
  cores.foldl (fun s c => if (s.core c).kernel == some (k.addr, k.check) then s else s.landKernel c k code) s

/-- One rig of a launch: the lowest free record of its cluster, a cleat on each core with a member, and EXPECT counting
every member's lanes; nothing when one cannot be had. -/
def State.formRig (s : State) (ctx : Nat) (members : List (Nat × Nat × Nat)) : Option (State × Nat) :=
  match members with
  | [] => none
  | (y0, _, _) :: _ =>
    (s.freeRig (clusterOf (yardCore y0))).bind fun r =>
      let s1 := s.setRig r { Rig.init with
        st := some .sealed, reuse := (s.rig r).reuse + 1, count := members.length, context := ctx, given := members.length,
        members := members.map fun m => (m.1, m.2.1) }
      let s2 := (members.map fun m => yardCore m.1).eraseDups.foldl
        (fun (acc : Option State) c => acc.bind fun s => s.allocCleat r c) (some s1)
      s2.map fun s =>
        (members.foldl (fun s m =>
          match Map.find? (s.rig r).cleat (yardCore m.1 % 4) with
          | none => s
          | some c => s.modCleat (yardCore m.1, c) fun x => { x with expect := x.expect + m.2.2 }) s, r)

/-- The rigs of a launch, in order of their first yard, with the handle of each yard's rig. -/
def State.formRigs (s : State) (ctx : Nat) (ys : List (Nat × Nat)) (n : Nat) : Nat → Option (State × List DWord)
  | 0 => some (s, [])
  | fuel + 1 =>
    if ys.isEmpty then some (s, [])
    else
      let members := (ys.take n).zipIdx.map fun x => (x.1.1, x.2, x.1.2)
      (s.formRig ctx members).bind fun (s1, r) =>
        (State.formRigs s1 ctx (ys.drop n) n fuel).map fun (s2, hs) =>
          (s2, (members.map fun _ => s2.rigHandle r) ++ hs)

/-- The bind records of a launch. The first record of the launch on a core, which holds the others back until the operating point
is stable (R22, R65), is that of its lowest slot. (DESIGN CHOICE, log 141.) -/
def State.bindYards (s : State) (l : Launch) (k : Kernel) (ys : List (Nat × Nat)) (handles : List DWord) : State :=
  ys.zipIdx.foldl (fun s x =>
    let (y, lanes) := x.1
    let first := ys.all fun z => yardCore z.1 != yardCore y || decide (y ≤ z.1)
    let b : Bind :=
      { Bind.init with
        argptr := argOf l.packet, righ := handles.getD x.2 0, trapvec := k.trapvec, yardno := BitVec.ofNat 26 x.2,
        valid := true, hold := first, context := BitVec.ofNat 6 l.ctx, world := (s.ctx l.ctx).world,
        version := BitVec.ofNat 2 k.version, ord := BitVec.ofNat 6 (if k.rigYards == 0 then 0 else x.2 % k.rigYards),
        entry := k.entry, lanes := BitVec.ofNat 7 lanes }
    s.modYard y fun v => { v with bind := b, waiting := true }) s

/-- The yards of a launch with the lanes each launches (R300). -/
def yardLanesOf (ws : List Word) (places : List (Nat × Nat)) : List (Nat × Nat) :=
  places.zipIdx.map fun x => (yardKey x.1.1 x.1.2, if x.2 + 1 == yardsOf ws then lastLanes ws else 64)

/-- Places a launch whose kernel is accepted; nothing where the placement breaks a rule or its rigs cannot be formed. -/
def State.place (s : State) (l : Launch) (k : Kernel) (code : List Byte) (places : List (Nat × Nat)) : Option State :=
  let ys := yardLanesOf l.packet places
  if !s.placesOk l k places then none
  else
    let rigs := if k.rigYards == 0 then some (s, []) else s.formRigs l.ctx ys k.rigYards ys.length
    rigs.map fun (s1, handles) =>
      let s2 := (s1.landAll k code (places.map fun p => p.1).eraseDups).bindYards l k ys handles
      s2.setEng { s2.eng with launches := s2.eng.launches.map fun x =>
        if x.num == l.num then { x with placed := true, yards := places, total := ys.length } else x }

/-- The loader and the placement of a launch: it fails, waits for a page of its binary, or its yards are bound.
(DEDUCED, log 88.) -/
def State.launchOn (s : State) (l : Launch) (image : Option Image) (key : DWord) (places : List (Nat × Nat)) : State :=
  let acc (r : State × Acc) (f : State → List Byte → State) : State :=
    match r with
    | (s1, .ok bs) => f s1 bs
    | (s1, .wait) => s1
    | (s1, .park v reason) => s1.engineFault (s1.homeCluster l.ctx) (4 * s1.homeCluster l.ctx) l.ctx v 4 reason
    | (s1, .fail st) => s1.launchEnd l 1 st
  if s.overQuota l.ctx then s.launchEnd l 1 14
  else acc (s.kernelRead l image 0 64) fun s1 head =>
    match kernelOf key head with
    | none => s1.launchEnd l 1 15
    | some k =>
      if tooShort l image k then s1.launchEnd l 1 15
      else if places.isEmpty then s1.launchEnd l 1 16
      else acc (s1.kernelRead l image 64 (12 * k.packets)) fun s2 code => (s2.place l k code places).getD s

/-- A launch that is not placed, by its number. -/
def State.launchOf (s : State) (n kind : Nat) : Option Launch :=
  s.eng.launches.find? fun l => l.num == n && l.kind == kind && !l.placed

/-- LAUNCH: firmware takes a launch to the cores and slots that it chooses; `places` empty refuses the placement. A placement
that breaks a rule, or that no rig record or cleat can serve, does not happen. -/
def execLaunch (n : Nat) (places : List (Nat × Nat)) (s : State) : Outcome :=
  .next (match s.launchOf n 2 with
    | none => s
    | some l => s.launchOn l none (val2 l.packet 4) places)

/-! ### Near-data packets (R301, R410, R426) -/

/-- The tag of packet words 0x04 to 0x2F under a session key: the first 128 bits of the HMAC. (DESIGN CHOICE, log 14.) -/
def ndTag (key : BitVec 384) (ws : List Word) : BitVec 128 :=
  (Config.crypto 3 (key.toNat :: ws.map BitVec.toNat)).extractLsb' 0 128

/-- The TAG field of a packet. -/
def packetTag (ws : List Word) : BitVec 128 := val ws 15 ++ val ws 14 ++ val ws 13 ++ val ws 12

/-- The checks of a packet: the session that accepts it and its image, or the status. -/
def State.ndCheck (s : State) (l : Launch) : (Session × Image) ⊕ Nat :=
  let ws := l.packet
  match s.trust.nd.find? fun x => x.num == bitsOf (val ws 5).toNat 15 0 with
  | none => .inr 12
  | some x =>
    if ndTag x.key ((ws.drop 1).take 11) != packetTag ws || (val2 ws 10).toNat ≤ x.last.toNat then .inr 12
    else match (s.world x.world).images.find? fun i => i.num == (val ws 4).toNat with
    | none => .inr 13
    | some i => if x.world != s.worldOf l.ctx then .inr 12 else .inl (x, i)

/-- The key by which the kernel of an image is told from others (R49). -/
def imageKey (world n : Nat) : DWord := BitVec.ofNat 64 (2 ^ 63 + world * 2 ^ 32 + n)

/-- NEAR_DATA_PACKET: a packet that passes its checks advances its session's counter and is launched; a placement that cannot
stand leaves it waiting. (DEDUCED, log 88.) -/
def execNearDataPacket (n : Nat) (places : List (Nat × Nat)) (s : State) : Outcome :=
  .next (match s.launchOf n 4 with
    | none => s
    | some l =>
      match s.ndCheck l with
      | .inr st => s.launchEnd l 1 st
      | .inl (x, i) =>
        let s1 := s.launchOn l (some i) (imageKey x.world i.num) places
        if s1 == s then s
        else s1.setTrust { s1.trust with nd := s1.trust.nd.map fun y =>
          if y.num == x.num then { y with last := val2 l.packet 10 } else y })

end Sys2Proof.Machine
end

