-- ==== Sys2Proof/Machine/Queue.lean ====
section
/-! DEFINITION. Queues and the engines behind them as events (13_async): attachment, consumption, the end of copies and of
segment fetches, and cancellation (04_control R115). -/

namespace Sys2Proof.Machine

/-! ### Attachment by the host (R289) -/

/-- QUEUE_ATTACH: the host writes ATTACH in a slot's doubleword at 0x08. -/
def execQueueAttach (slot : Nat) (v : DWord) (s : State) : Outcome :=
  .next (if slot < 128 && v.getLsbD 0 then s.queueControl slot none v else s)

/-- QUEUE_DETACH: the host writes DETACH. -/
def execQueueDetach (slot : Nat) (s : State) : Outcome :=
  .next (if slot < 128 && (s.qslot slot).att then s.queueControl slot none 2 else s)

/-! ### Consumption (R287, R288) -/

/-- Whether a consumer of a kind takes packets of a kind (Table 13-1). -/
def accepts (ckind kind : Nat) : Bool := kind == 0 || kind == ckind

/-- An operation of a packet of a queue ends without having started; one of a copy engine counts there (R299).
(DEDUCED, log 58.) -/
def State.packetEnd (s : State) (slot cl : Nat) (ws : List Word) (state status : Nat) : State :=
  let q := s.qslot slot
  let s1 := if q.ckind.toNat == 1 then s.engineStat cl fun e => { e with ops := e.ops + 1 } else s
  s1.finishEnd { cluster := cl, rank := 0, since := s1.mem.written, ctx := q.ctx.toNat, compl := complOf ws, fut := none,
                 task := none, state := state, status := status, flags := 0, aux := 0, parked := none }

/-- A page on which the service of a queue parks. -/
def State.queuePark (s : State) (slot cl v kind reason : Nat) : State :=
  let q := s.qslot slot
  (s.engineFault cl (4 * cl) q.ctx.toNat v kind reason).setQslot slot
    { q with parked := some (s.parkAt cl q.ctx.toNat v (kind == 5)) }

/-- What a read of the header or a slot gives goes on with `f`; a fault detaches the queue. -/
def State.queueAcc (slot cl : Nat) (r : State × Acc) (f : State → List Byte → State) : State :=
  match r with
  | (s, .ok bs) => f s bs
  | (s, .wait) => s
  | (s, .park v reason) => s.queuePark slot cl v 4 reason
  | (s, .fail _) => s.setQslot slot { s.qslot slot with att := false, err := true }

/-- The consumer of a queue (R288): a copy engine by its cluster, the others as 14 to 16. -/
def QSlot.consumer (q : QSlot) : Nat := if q.ckind.toNat == 1 then q.cclust else 12 + q.ckind.toNat

/-- RIDX advances past the slot consumed, the consumer's turn passes on, and the packet's operation starts with `f`. -/
def State.queueTake (s : State) (slot cl : Nat) (ridx : Word) (f : State → State) : State :=
  let q := s.qslot slot
  match s.engineWrite cl q.ctx.toNat s.manager (q.hdr + 4) (bytesOf (ridx + 1)) with
  | (s1, .ok _) =>
    let s2 := s1.setQslot slot { s1.qslot slot with failed := none }
    f (s2.setEng { s2.eng with turn := Map.set s2.eng.turn q.consumer (slot + 1) })
  | (s1, .wait) => s1
  | (s1, .park v reason) => s1.queuePark slot cl v 5 reason
  | (s1, .fail _) => s1.setQslot slot { q with att := false, err := true }

/-- A launch handed to the management core. -/
def State.appendLaunch (s : State) (c kind : Nat) (ws : List Word) : State :=
  let l : Launch :=
    { num := s.serialNo, kind := kind, ctx := c, packet := ws, compl := complOf ws, task := none, placed := false, yards := [],
      retired := 0, total := 0 }
  (s.setEng { s.eng with launches := s.eng.launches ++ [l] }).bumpSerial

/-- Whether the body of a task packet obeys Table 13-8 and R300. -/
def taskOk (ws : List Word) : Bool :=
  (val2 ws 4).toNat % 64 == 0 && bitsOf (val ws 6).toNat 31 16 == 0 && val ws 7 == 0 &&
    (List.range 6).all fun i => val ws (10 + i) == 0

/-- Whether the body of a near-data packet obeys Table 13-8 and R300. -/
def nearOk (ws : List Word) : Bool :=
  bitsOf (val ws 5).toNat 31 16 == 0 && bitsOf (val ws 8).toNat 31 26 == 0 && yardsOf ws != 0 &&
    bitsOf (val ws 9).toNat 31 16 == 0 && bitsOf (val ws 9).toNat 7 7 == 0 && 1 ≤ lastLanes ws && lastLanes ws ≤ 64

/-- A task packet's accesses, which come before the consumption: a page that has been delivered fails the packet with
`status`. -/
def State.taskAcc (slot cl status kind : Nat) (ridx : Word) (ws : List Word) (r : State × Acc)
    (f : State → List Byte → State) : State :=
  match r with
  | (s, .ok bs) => f s bs
  | (s, .wait) => s
  | (s, .fail st) => s.queueTake slot cl ridx fun s => s.packetEnd slot cl ws 1 st
  | (s, .park v reason) =>
    if (s.qslot slot).failed == some v then
      s.queueTake slot cl ridx fun s => s.packetEnd slot cl ws 1 status
    else s.queuePark slot cl v kind reason

/-- A task packet: its launch packet is read, its identifier written, and the entry defined (R303). (DEDUCED, log 61.) -/
def State.taskPacket (s : State) (slot cl : Nat) (ridx : Word) (ws : List Word) : State :=
  let c := (s.qslot slot).ctx.toNat
  let fail (st : Nat) : State := s.queueTake slot cl ridx fun s => s.packetEnd slot cl ws 1 st
  let launch := val2 ws 4
  let tidaddr := val2 ws 8
  if !taskOk ws then fail 9
  else match s.freeTask with
  | none => fail 17
  | some n =>
    State.taskAcc slot cl 1 4 ridx ws (s.engineRead cl c launch 64) fun s bs =>
      let tid := taskId n { s.task n with gen := (s.task n).gen + 1 }
      let define (s : State) : State := s.queueTake slot cl ridx fun s =>
        s.defineTask n c (bitsOf (val ws 6).toNat 15 0) (toWords bs) none (complOf ws)
      if tidaddr == 0 then define s
      else if !isGlobal tidaddr || tidaddr.toNat % 4 != 0 then
        s.queueTake slot cl ridx fun s => s.packetEnd slot cl ws 1 (if isGlobal tidaddr then 8 else 6)
      else State.taskAcc slot cl 2 5 ridx ws (s.engineWrite cl c s.manager tidaddr (bytesOf tid)) fun s _ => define s

/-- A copy packet: its header and quota are judged, and the copy starts. (DEDUCED, log 59.) -/
def State.copyPacket (s : State) (slot cl : Nat) (ridx : Word) (ws : List Word) : State :=
  let c := (s.qslot slot).ctx.toNat
  let x := copyOf ws s.serialNo cl c (4 * cl) s.mem.written none
  match s.copyRefused x ws with
  | some st => s.queueTake slot cl ridx fun s => s.packetEnd slot cl ws 1 st
  | none =>
    if s.overQuota c then s.queueTake slot cl ridx fun s => s.packetEnd slot cl ws 1 14
    else if !s.rangesFree x then s
    else s.queueTake slot cl ridx fun s => s.startCopy { x with num := s.serialNo }

/-- The packet in the slot at RIDX is consumed and its operation starts. -/
def State.queueStart (s : State) (slot cl : Nat) (ridx : Word) (ws : List Word) : State :=
  let q := s.qslot slot
  let c := q.ctx.toNat
  let kind := kindOf ws
  let take (f : State → State) : State := s.queueTake slot cl ridx f
  if !headerOk ws || !accepts q.ckind.toNat kind then take fun s => s.packetEnd slot cl ws 1 9
  else match kind with
  | 0 => take fun s => s.packetEnd slot cl ws 0 0
  | 1 => s.copyPacket slot cl ridx ws
  | 2 => take fun s => if launchOk ws then s.appendLaunch c 2 ws else s.packetEnd slot cl ws 1 9
  | 3 => s.taskPacket slot cl ridx ws
  | _ => take fun s => if nearOk ws then s.appendLaunch c 4 ws else s.packetEnd slot cl ws 1 9

/-- The packet that stands next in a queue, with RIDX; `none` where none is due. -/
def State.queueNext (s : State) (slot : Nat) (f : State → Word → List Word → State) : State :=
  let q := s.qslot slot
  let cl := s.queueCluster q
  State.queueAcc slot cl (s.engineRead cl q.ctx.toNat q.hdr 8) fun s1 idx =>
    let widx := wordAt idx 0
    let ridx := wordAt idx 4
    if widx == ridx then s1
    else
      let a := q.ring + BitVec.ofNat 64 (64 * (ridx.toNat % 2 ^ q.logd))
      State.queueAcc slot cl (s1.engineRead cl q.ctx.toNat a 64) fun s2 bs =>
        if wordAt bs 0 != ridx then s2 else f s2 ridx (toWords bs)

/-- Whether a consumer can take a slot of a queue. -/
def State.queueOpen (s : State) (slot : Nat) : Bool :=
  let q := s.qslot slot
  q.att && q.parked.isNone && !(q.ckind.toNat == 1 && 64 ≤ s.inflight q.cclust)

/-- Whether another queue of the consumer of a slot is served before it: the queues in round robin from the consumer's turn on
that have a packet due (R288). -/
def State.queueBefore (s : State) (slot : Nat) : Bool :=
  let c := (s.qslot slot).consumer
  let start := Map.getD s.eng.turn c 0
  let pos (n : Nat) : Nat := (n + 256 - start) % 128
  let due (n : Nat) : Bool := decide ((s.queueNext n fun s _ _ => s.bumpSerial).serialNo ≠ s.serialNo)
  s.eng.queues.any fun p => decide (p.1 < 128) && p.2.consumer == c && decide (pos p.1 < pos slot) && s.queueOpen p.1 && due p.1

/-- QUEUE_CONSUME: the consumer of a slot reads the header; where a slot is due and its SEQ matches, it takes it, in the turn of
its queue. -/
def execQueueConsume (slot : Nat) (s : State) : Outcome :=
  .next (if !s.queueOpen slot || s.queueBefore slot then s
    else s.queueNext slot fun s2 ridx ws => s2.queueStart slot (s2.queueCluster (s2.qslot slot)) ridx ws)

/-! ### Copies and fetches (R291, R108) -/

/-- COPY_COMPLETE: a copy that is not parked writes destination lines, and ends with its last. (DESIGN CHOICE, log 57.) -/
def execCopyComplete (n lines : Nat) (s : State) : Outcome :=
  .next (match s.eng.copies.find? fun x => x.num == n && x.seg.isNone && x.parked.isNone with
    | none => s
    | some x => s.runCopy x lines)

/-- SEGMENT_LANDED: the fetch of a segment reads its image and ends. -/
def execSegmentLanded (core seg : Nat) (s : State) : Outcome :=
  .next (match s.eng.copies.find? fun x => x.seg == some (core, seg) && x.parked.isNone with
    | none => s
    | some x => s.landSegment x core seg)

/-! ### Cancellation (R115, R359) -/

/-- What a cancel request does to the operation of a future: a copy stops between destination lines, a fetch at once, a matrix
operation at its interrupt point or in the queue, a pull while it is unassigned; any other operation completes. -/
def State.cancelFuture (s : State) (core slot : Nat) : State :=
  match s.eng.copies.find? fun x => x.fut == some (core, slot) with
  | some x => s.copyEnd x 2 0
  | none =>
    let c := s.core core
    match c.mrun.toList.find? fun o => o.slot == some slot with
    | some o => s.matEnd core o 2 0
    | none =>
      if c.mqueue.any fun o => o.slot == some slot then
        (s.modCore core fun c => { c with mqueue := c.mqueue.filter fun o => o.slot != some slot }).resolve core slot 2 0
      else
        match s.eng.wqs.findSome? fun w =>
            (w.2.pulls.find? fun p => p.core == core && p.slot == some slot && p.item.isNone).map fun p => (w.1, p) with
        | some (q, p) => s.pullEnd q p 2 0
        | none => s

/-- ENGINE_CANCEL. (DESIGN CHOICE, log 125.) -/
def execEngineCancel (core slot : Nat) (s : State) : Outcome :=
  .next (match Map.find? (s.core core).futs slot with
    | none => s
    | some f => if f.cancel && f.res.isNone then s.cancelFuture core slot else s)

end Sys2Proof.Machine
end

