-- ==== Sys2Proof/Machine/Coherence.lean ====
section
/-! DEFINITION. Cache and coherence instructions (11_coherence 11.6): CFLUSH, CINV, CWB, HANDOFF, RMODE and NCWIN. -/

namespace Sys2Proof.Machine

/-! ### CFLUSH, CINV, CWB (R254) -/

/-- CINV: the L2 line and every word of it on every core are discarded, and no core owns one. -/
def State.discardLine (s : State) (line : Nat) : State :=
  let inLine (wa : Nat) : Bool := lineAddr wa == line
  ((s.setMem { s.mem with
    l2 := s.mem.l2.filter fun p => !inLine p.1, owner := s.mem.owner.filter fun p => !inLine p.1,
    writes := s.mem.writes.filter fun p => !inLine p.1,
    pend := s.mem.pend.filter fun p => !inLine p.word }).dropLine line none).dropSlice line

/-- A word on the line that holds ea, in one lane: the thread's earlier stores to the line come first, and with `all` those
of its core; the word itself back-invalidates no holder. (DEDUCED, log 45.) -/
def State.lineLane (s : State) (k : Nat) (a : DWord) (all : Bool) (f : State → Nat → State) : State × LaneOut :=
  if !isGlobal a then (s, .trap (accessTrap 0x09 a 0))
  else match s.reach (some (coreOf k)) (s.ctxOf k) a 0 with
  | (s1, .at pa _) =>
    let line := lineAddr pa
    let (s2, ok) := s1.drainPend fun p =>
      (p.thread == k || (all && p.core == coreOf k)) && lineAddr p.word == line
    if ok && !s2.inMove pa then (f s2 line, doneWith []) else (s2, .stall)
  | (s1, .park v r) => (s1, .park (.blocked (.page v 0 r false)))
  | (s1, .cause n p) => (s1, .trap (accessTrap n a p))
  | (s1, .wait) => (s1, .stall)

/-- DEDUCED, log 44. -/
def State.lineWord (s : State) (i : Instr) (o : OpM) (all : Bool) (f : State → Nat → State) : State :=
  s.groupWord i o.s o.g (addrCodes o) o.lit .none false fun s ins =>
    State.memDone (s.eachLane ins fun s k ws => s.lineLane k (eaOf ws 1) all f)

def execCwb (o : OpM) (s : State) : Outcome :=
  .next (s.lineWord (.cwb o) o false fun s line => (s.recallLine line).writeLine line)

/-- DEDUCED, log 45. -/
def execCflush (o : OpM) (s : State) : Outcome :=
  .next (s.lineWord (.cflush o) o true fun s line => (((s.recallLine line).writeLine line).dropSlice line).dropLine line (some s.focus.1))

def execCinv (o : OpM) (s : State) : Outcome :=
  .next (s.lineWord (.cinv o) o false fun s line => s.discardLine line)

/-! ### Handover (R242 to R244) -/

/-- No write of a line's words is kept for R217: what follows a handover follows them all. -/
def State.settleWrites (s : State) (line : Nat) : State :=
  s.setMem { s.mem with writes := s.mem.writes.filter fun p => lineAddr p.1 != line }

/-- A handover of one line: lines in HC regions are skipped. (DEDUCED, log 48.) -/
def State.handoverLine (s : State) (line : Nat) (toDevice : Bool) : State :=
  if s.isHc line then s
  else if !toDevice then (s.evictLine line).settleWrites line
  else
    let s1 := (s.mem.pend.filter fun p => lineAddr p.word == line).foldl (fun s p => s.register p true) s
    let s2 := (List.range 16).foldl (fun s i =>
      let wa := line + 4 * i
      match Map.find? s.mem.owner wa with
      | none => s
      | some _ => s.setMem { s.mem with bytes := s.mem.bytes.setWord wa (s.homeWord wa) }) s1
    s2.discardLine line

/-- Whether a link to a host is up. (DEDUCED, log 47.) -/
def State.hostLinkUp (s : State) : Bool := s.mem.ports.any fun p => p.2.linkup

/-- A coherence status word (Table 11-7). -/
def coStatus (result code done : Nat) : Word := BitVec.ofNat 32 (result * 2 ^ 30 + code * 2 ^ 24 + done)

/-- A word on a range has ended: its status word is kept for its yard. -/
def State.endLong (s : State) (y : Nat) (w : Word) : State :=
  s.setMem { s.mem with longs := s.mem.longs.map fun l =>
    if l.yard == y && l.status.isNone then { l with status := some w } else l }

/-- How a handover ends: all done, stopped with the host link down, or stopped by a pre-emption request. -/
inductive HoEnd where
  | all | link | preempt
  deriving DecidableEq, Repr

/-- RESULT and CODE of the status word of a HANDOFF (Table 11-7). -/
def HoEnd.codes (e : HoEnd) : Nat × Nat :=
  match e with
  | .all => (0, 0)
  | .link => (2, 2)
  | .preempt => (1, 0)

/-- The end of a handover: HSTATUS is written, and the status word of a HANDOFF (R243, R244). (DESIGN CHOICE, log 46.) -/
def State.handoverEnd (s : State) (done : Nat) (e : HoEnd) : State :=
  let s1 := s.setMem { s.mem with ho := { s.mem.ho with
    seq := s.mem.ho.seq + 1, busy := false, done := BitVec.ofNat 24 done, result := if e == .all then 0 else 2,
    code := if e == .link then 2 else 0, progress := 0, by_ := none, pages := [], off := 0, total := 0 } }
  match s.mem.ho.by_ with
  | none => s1
  | some y => s1.endLong y (coStatus e.codes.1 e.codes.2 done)

/-- The physical pages of a range of a context, page by page, or what stops the translation of one. -/
def State.pagesOf (s : State) (k : Nat) (a : DWord) (kind : Nat) : Nat → State × (List (Nat × Bool) ⊕ LaneOut)
  | 0 => (s, .inl [])
  | n + 1 =>
    match s.reach (some (coreOf k)) (s.ctxOf k) a kind with
    | (s1, .at pa nc) =>
      match State.pagesOf s1 k (a + 4096) kind n with
      | (s2, .inl r) => (s2, .inl ((pa, nc) :: r))
      | (s2, .inr o) => (s2, .inr o)
    | (s1, .park v r) => (s1, .inr (.park (.blocked (.page v kind r false))))
    | (s1, .cause c p) => (s1, .inr (.trap (accessTrap c a p)))
    | (s1, .wait) => (s1, .inr .stall)

/-- Line `i` of a handover's range. -/
def Handover.lineAt (h : Handover) (i : Nat) : Nat :=
  match h.by_ with
  | none => h.pages.headD 0 + 64 * i
  | some _ => h.pages.getD ((h.off % 4096 + 64 * i) / 4096) 0 + (h.off + 64 * i) % 4096

/-- Whether a handover stands inside a region, of which it has done a line (R244). -/
def State.handing (s : State) (region : Nat) : Bool :=
  let h := s.mem.ho
  h.busy && decide (0 < h.progress) && h.lineAt h.progress / 65536 == region && h.lineAt (h.progress - 1) / 65536 == region

/-- The record of a word on a range that a yard has in progress at a position. -/
def State.long (s : State) (y : Nat) (pc : BitVec 16) (w : Nat) : Option Long :=
  s.mem.longs.find? fun l => l.yard == y && l.pc == pc && l.w == w

/-- A word on a range comes into progress, or has done more. -/
def State.setLong (s : State) (x : Long) : State :=
  s.setMem { s.mem with longs := x :: s.mem.longs.filter fun l => !(l.yard == x.yard && l.pc == x.pc && l.w == x.w) }

/-- A HANDOFF whose checks have passed starts its handover, unless one runs or the host link is down.
(DESIGN CHOICE, log 46.) -/
def State.handoffStart (s : State) (h : Here) (y k : Nat) (a : DWord) (len : Nat) (dev : Bool) : State × Option LaneOut :=
  if s.mem.ho.busy then (s, some .stall)
  else match s.pagesOf k a 0 ((a.toNat % 4096 + len + 4095) / 4096) with
  | (s2, .inr o) => (s2, some o)
  | (s2, .inl pages) =>
    let s3 := s2.setLong { yard := y, pc := h.pc, w := h.w, done := 0, status := none }
    let s4 := s3.setMem { s3.mem with ho := { s3.mem.ho with
      busy := true, progress := 0, toDev := dev, by_ := some y, total := len / 64,
      pages := pages.map fun p => p.1 / 4096 * 4096, off := a.toNat % 65536 } }
    if s4.hostLinkUp then (s4, some .stall) else (s4.handoverEnd 0 .link, none)

/-- The answer of a HANDOFF whose handover has ended; with DIR an acquire point follows. -/
def State.handoffDone (s : State) (l : List (Nat × List Word)) (dev : Bool) (w : Word) : State × List (Nat × LaneOut) :=
  (if dev then s.acquireAll (l.map fun q => q.1) else s, allDone l [w])

/-- HANDOFF for one yard. (DEDUCED, log 44; DESIGN CHOICE, log 46.) -/
def State.handoff (s : State) (i : Instr) (h : Here) (y : Nat) (l : List (Nat × List Word)) (dev : Bool) :
    State × List (Nat × LaneOut) :=
  let ops := lead l
  let a := val2 ops 0
  let len := (val ops 2).toNat
  let k := (l.map fun q => q.1).headD 0
  let all (o : LaneOut) : List (Nat × LaneOut) := l.map fun q => (q.1, o)
  if !isGlobal a then (s, allTrap l (accessTrap 0x09 a 0))
  else if a.toNat % 64 != 0 then (s, allTrap l (accessTrap 0x08 a 0))
  else if len == 0 || len % 64 != 0 || 2 ^ 24 < len then (s, allTrap l (badOperand i))
  else match (s.long y h.pc h.w).map fun x => x.status with
  | some (some w) => s.handoffDone l dev w
  | some none => (s, all .stall)
  | none =>
    let (s1, ok) := s.drainAll (l.map fun q => q.1)
    if !ok then (s1, all .stall)
    else match s1.handoffStart h y k a len dev with
    | (s2, some o) => (s2, all o)
    | (s2, none) => s2.handoffDone l dev (coStatus 2 2 0)

def execHandoff (o : OpM) (s : State) : Outcome :=
  .next (s.longWord (.handoff o) o.s o.g (addrCodes o) o.lit (.vec 1 o.d) fun s ins =>
    State.memDone (s.eachYard ins (fun ws => ws) fun s y l => s.handoff (.handoff o) s.here y l (o.sz.getLsbD 0)))

/-! ### RMODE (R256, R257) -/

/-- Stores to a region that are in flight are performed (R257): at the directory they come before its transition. -/
def State.drainRegion (s : State) (region : Nat) : State × Bool :=
  (s.mem.pend.filter fun p => p.word / 65536 == region).foldl (fun acc p =>
    match (if p.nc || !acc.1.isHc p.word then none else acc.1.dirFind p.word) with
    | none => (acc.1.register p true, acc.2)
    | some e =>
      let (s1, go) := acc.1.dirServe e p.word true
      if go then (s1.register p true, acc.2) else (s1, false)) (s, true)

/-- Back-invalidates every holder of every line of a region, and frees its entries once they have answered. -/
def State.dirPurge (s : State) (region : Nat) : State × Bool :=
  let mine := s.mem.dir.filter fun e => e.base / 65536 == region
  if mine.any fun e => !e.await.isEmpty then (s, false)
  else if mine.all fun e => e.holders == 0 then
    (s.setMem { s.mem with dir := s.mem.dir.filter fun e => e.base / 65536 != region }, true)
  else (mine.foldl (fun s e =>
    let hs := holderList e.holders
    let lines := (List.range (dirSize e / 64)).map fun i => e.base + 64 * i
    let s1 := lines.foldl (fun s l => s.backInvalidate hs l true) s
    s1.dirReplace e [{ e with holders := 0, await := hs.flatMap fun h => lines.map fun l => (h, l) }]) s, false)

/-- A region is in transition for a yard's RMODE, or no longer. -/
def State.markMove (s : State) (region y : Nat) : State :=
  s.setMem { s.mem with moving := if s.inMove (region * 65536) then s.mem.moving else (region, y) :: s.mem.moving }
def State.endMove (s : State) (region : Nat) : State :=
  s.setMem { s.mem with moving := s.mem.moving.filter fun p => p.1 != region }

/-- One region put into a mode for a yard; `false` while a handover or another RMODE holds the region (R244), or while
back-invalidations are outstanding. -/
def State.setRegion (s : State) (y region : Nat) (hc : Bool) : State × Bool :=
  if s.handing region || s.mem.moving.any fun p => p.1 == region && p.2 != y then (s, false)
  else if s.mem.hc.contains region == hc then (s, true)
  else
    let lines := (List.range 1024).map fun i => region * 65536 + 64 * i
    let (s1, drained) := (s.markMove region y).drainRegion region
    if !drained then (s1, false)
    else
      let s2 := lines.foldl (fun s l => s.evictLine l) s1
      if hc then ((s2.setMem { s2.mem with hc := insertKey region s2.mem.hc }).endMove region, true)
      else
        let (s3, ok) := s2.dirPurge region
        (if ok then (s3.setMem { s3.mem with hc := s3.mem.hc.filter (· != region) }).endMove region else s3, ok)

/-- The region that an RMODE reaches: the one that it already has in transition, else the one that the pages form; `none` where
they form none; or what stops the word (R256). -/
def State.regionAt (s : State) (y k : Nat) (a : DWord) : State × (Option Nat ⊕ LaneOut) :=
  match s.mem.moving.find? fun p => p.2 == y with
  | some p => (s, .inl (some p.1))
  | none =>
    match s.pagesOf k a 0 16 with
    | (s1, .inr o) => (s1, .inr o)
    | (s1, .inl pages) =>
      let base := (pages.headD (0, false)).1
      let formed := base % 65536 == 0 && s1.isDev base && pages.zipIdx.all fun p => p.1.1 == base + 4096 * p.2
      (s1, .inl (if formed then some (base / 65536) else none))

/-- The regions of an RMODE in turn, from those already changed; the answer is a status word, or what stops the word. A
pre-emption request stops it at the next boundary. (DESIGN CHOICE, log 46.) -/
def State.rmodeFrom (s : State) (h : Here) (y k : Nat) (a : DWord) (hc : Bool) (done : Nat) : Nat → State × (Word ⊕ LaneOut)
  | 0 => (s, .inl (coStatus 0 0 done))
  | n + 1 =>
    match s.regionAt y k (a + BitVec.ofNat 64 (65536 * done)) with
    | (s1, .inr o) => (s1, .inr o)
    | (s1, .inl none) => (s1, .inl (coStatus 2 1 done))
    | (s1, .inl (some region)) =>
      match s1.setRegion y region hc with
      | (s2, false) =>
        (if s2.mem.moving.contains (region, y) then s2.setLong { yard := y, pc := h.pc, w := h.w, done := done, status := none }
         else s2, .inr .stall)
      | (s2, true) =>
        let s3 := s2.setLong { yard := y, pc := h.pc, w := h.w, done := done + 1, status := none }
        if n != 0 && (s3.core (coreOf k)).preempt then (s3, .inl (coStatus 1 0 (done + 1)))
        else State.rmodeFrom s3 h y k a hc (done + 1) n

/-- RMODE for one yard. (DEDUCED, log 44.) -/
def State.rmode (s : State) (i : Instr) (h : Here) (y : Nat) (l : List (Nat × List Word)) : State × List (Nat × LaneOut) :=
  let ops := lead l
  let a := val2 ops 0
  let b := (val ops 2).toNat
  let k := (l.map fun q => q.1).headD 0
  let done := ((s.long y h.pc h.w).map fun x => x.done).getD 0
  if bitsOf b 7 1 != 0 || bitsOf b 31 8 == 0 then (s, allTrap l (badOperand i))
  else if !isGlobal a then (s, allTrap l (accessTrap 0x09 a 0))
  else if a.toNat % 65536 != 0 then (s, allTrap l (accessTrap 0x08 a 0))
  else match s.rmodeFrom h y k a (bitOf b 0) done (bitsOf b 31 8 - done) with
  | (s1, .inl w) => (s1, allDone l [w])
  | (s1, .inr o) => (s1, l.map fun q => (q.1, o))

def execRmode (o : OpA) (s : State) : Outcome :=
  .next (s.longWord (.rmode o) o.s o.g (codesFrom o.a 2 ++ [o.b]) o.lit (.vec 1 o.d) fun s ins =>
    State.memDone (s.eachYard ins (fun ws => ws) fun s y l => s.rmode (.rmode o) s.here y l))

/-! ### NCWIN (R258) -/

/-- Whether the control word of an NCWIN enables its window: the base is then read. -/
def ncwinOn (b : Word) : Bool := bitOf b.toNat 4

/-- NCWIN for one yard, by its base, where it is read, and its control word: the checks in order, then the context's window
register. -/
def State.ncwin (s : State) (i : Instr) (y : Nat) (l : List (Nat × List Word)) : State × List (Nat × LaneOut) :=
  let ops := lead l
  let b := (val ops (ops.length - 1)).toNat
  let a := val2 ops 0
  let en := bitOf b 4
  if bitsOf b 7 5 != 0 then (s, allTrap l (badOperand i))
  else if en && !isGlobal a then (s, allTrap l (accessTrap 0x09 a 0))
  else if en && a.toNat % 65536 != 0 then (s, allTrap l (accessTrap 0x08 a 0))
  else if en && bitsOf b 31 8 == 0 then (s, allTrap l (badOperand i))
  else (s.modCtx (s.yardCtx y) fun c =>
      { c with windows := Map.set c.windows (bitsOf b 3 0) { en := en, base := if en then a else 0, count := bitsOf b 31 8 } },
    allDone l [])

/-- With EN = 0 the base is not read. -/
def execNcwin (o : OpA) (s : State) : Outcome :=
  .next (s.groupWord (.ncwin o) o.s o.g [o.b] o.lit .none false fun s ins =>
    let (s1, based, stopped) := s.moreIn (.ncwin o) (codesFrom o.a 2) o.lit (ins.filter fun p => ncwinOn (val p.2 0))
    let r := s1.eachYard (ins.filter (fun p => !ncwinOn (val p.2 0)) ++ based) (fun ws => ws) fun s y l => s.ncwin (.ncwin o) y l
    (r.1, stopped ++ r.2))

end Sys2Proof.Machine
end

