-- ==== Sys2Proof/Machine/Translation.lean ====
section
/-! DEFINITION. Translation and protection instructions (12_translation 12.6): TLBINV, TLBPROBE, REPLAY and POTSET. -/

namespace Sys2Proof.Machine

/-! ### TLBINV (R278) -/

/-- Entries of a context, or those that cover a page of it, are invalidated in every TLB. -/
def State.tlbDrop (s : State) (f : TlbEntry → Bool) : State := s.setMem { s.mem with tlb := s.mem.tlb.filter fun e => !f e }

/-- Whether the control word of a TLBINV names one page: its address is then read. -/
def tlbinvPaged (b : Word) : Bool := b == 0

/-- TLBINV for one yard, by its address, where it is read, and its control word. -/
def State.tlbinv (s : State) (i : Instr) (y : Nat) (l : List (Nat × List Word)) : State × List (Nat × LaneOut) :=
  let ops := lead l
  let b := (val ops (ops.length - 1)).toNat
  let a := val2 ops 0
  let c := s.yardCtx y
  let (s1, ok) := s.drainAll (l.map fun q => q.1)
  if !ok then (s1, l.map fun q => (q.1, .stall))
  else if 1 < b then (s1, allTrap l (badOperand i))
  else if b == 1 then (s1.tlbDrop fun e => e.ctx == c, allDone l [])
  else if !isGlobal a then (s1, allTrap l (accessTrap 0x09 a 0))
  else (s1.tlbDrop fun e => e.covers c (vpageOf a), allDone l [])

/-- With ALL = 1 the address is not read. -/
def execTlbinv (o : OpA) (s : State) : Outcome :=
  .next (s.groupWord (.tlbinv o) o.s o.g [o.b] o.lit .none false fun s ins =>
    let (s1, paged, stopped) := s.moreIn (.tlbinv o) (codesFrom o.a 2) o.lit (ins.filter fun p => tlbinvPaged (val p.2 0))
    let r := s1.eachYard (ins.filter (fun p => !tlbinvPaged (val p.2 0)) ++ paged) (fun ws => ws) fun s y l =>
      s.tlbinv (.tlbinv o) y l
    (r.1, stopped ++ r.2))

/-! ### TLBPROBE (R279, Table 12-7) -/

/-- The status word of a probe. -/
def probeWord (x : Xlat) : Word :=
  let leaf (result hit : Nat) (e : Option TlbEntry) : Word :=
    match e with
    | none => BitVec.ofNat 32 (result * 2 ^ 30)
    | some e => BitVec.ofNat 32 (result * 2 ^ 30 + e.mode * 2 ^ 28 + e.size * 2 ^ 25 + b2n e.r * 2 ^ 24 + b2n e.w * 2 ^ 23 +
        hit * 2 ^ 22)
  match x with
  | .ok e hit => leaf 0 (b2n hit) (some e)
  | .refuse reason e => if reason == 0 || reason == 4 then leaf 1 0 none else leaf 2 0 e
  | .cause _ e => leaf 3 0 e
  | .wait => 0

/-- TLBPROBE in one lane. -/
def State.probeLane (s : State) (i : Instr) (k : Nat) (ws : List Word) : State × LaneOut :=
  let a := val2 ws 0
  let b := (val ws 2).toNat
  if 2 < b then (s, .trap (badOperand i))
  else if !isGlobal a then (s, .trap (accessTrap 0x09 a 0))
  else match s.translate (coreOf k) (s.ctxOf k) (vpageOf a) b with
  | (s1, .ok e hit) => (s1, doneWith [probeWord (.ok e hit)])
  | (s1, .wait) => (s1, .stall)
  | (_, x) => (s, doneWith [probeWord x])

def execTlbprobe (o : OpA) (s : State) : Outcome :=
  .next (s.groupWord (.tlbprobe o) o.s o.g (codesFrom o.a 2 ++ [o.b]) o.lit (.vec 1 o.d) false fun s ins =>
    s.eachLane ins fun s k ws => s.probeLane (.tlbprobe o) k ws)

/-! ### REPLAY (R281) -/

/-- The clusters where a context is resident. -/
def State.clustersOf (s : State) (c : Nat) : List Nat :=
  (s.ctx c).cores.foldl (fun l i => if l.contains (clusterOf i) then l else l ++ [clusterOf i]) []

/-- Whether a context is resident on a core of a cluster. -/
def State.residentIn (s : State) (cl c : Nat) : Bool := (s.ctx c).resident && (s.clustersOf c).contains cl

def execReplay (o : OpA) (s : State) : Outcome :=
  .next (s.groupWord (.replay o) o.s o.g [o.b] o.lit .none false fun s ins =>
    s.eachYard ins (fun ws => ws) fun s y l =>
      let b := (val (lead l) 0).toNat
      let c := s.yardCtx y
      if 1 < b then (s, allTrap l (badOperand (.replay o)))
      else if b == 0 then (s.replayIn (clusterOf (yardCore y)) c, allDone l [])
      else ((s.clustersOf c).foldl (fun s cl => s.replayIn cl c) s, allDone l []))

/-! ### POTSET (R282) -/

/-- Zeroes every word of a page, each write performed at its home slice (R268). -/
def State.zeroPage (s : State) (pp : Nat) : State :=
  let s1 := s.setMem { s.mem with
    pend := s.mem.pend.filter fun p => p.word / 4096 != pp,
    dcache := s.mem.dcache.filter fun p => p.1 % 2 ^ 56 / 4096 != pp }
  let s2 := (List.range 1024).foldl (fun s i => s.homeWrite (pp * 4096 + 4 * i) 0) s1
  s2.setMem { s2.mem with poison := s2.mem.poison.filter fun p => p / 4096 != pp }

/-- Back-invalidates the holders of a page's lines, as device writes do; `false` while one is outstanding. -/
def State.pageReady (s : State) (pp : Nat) (nc : Bool) : State × Bool :=
  (List.range 64).foldl (fun acc i =>
    let (s1, ok) := acc.1.dirAccess (pp * 4096 + 64 * i) true nc
    (s1, acc.2 && ok)) (s, true)

/-- Releases a page: its TLB entries are invalidated, it is zeroed, and its entry loses WORLD and BOUND (R268, R282). -/
def State.releasePage (s : State) (pp : Nat) : State :=
  let e := s.potAt pp
  let s1 := ((s.tlbDrop fun x => decide (x.ppn ≤ pp) && decide (pp < x.ppn + sizePages x.size)).zeroPage pp).setPot pp
    { e with world := 0, bound := false }
  if e.world == 0 then s1 else s1.modUsed e.world.toNat 3 fun u => u - 1

/-- POTSET for one yard. (DEDUCED, log 49.) -/
def State.potset (s : State) (i : Instr) (l : List (Nat × List Word)) : State × List (Nat × LaneOut) :=
  match l with
  | [] => (s, [])
  | p :: _ =>
    let a := val2 p.2 0
    let b := (val p.2 2).toNat
    if 1 < b then (s, allTrap l (badOperand i))
    else if !isGlobal a then (s, allTrap l (accessTrap 0x09 a 0))
    else match s.reach (some (coreOf p.1)) (s.ctxOf p.1) a 1 with
    | (s1, .park v r) => (s1, l.map fun q => (q.1, .park (.blocked (.page v 1 r false))))
    | (s1, .wait) => (s1, l.map fun q => (q.1, .stall))
    | (s1, .cause n po) => (s1, allTrap l (accessTrap n a po))
    | (s1, .at pa nc) =>
      let pp := pa / 4096
      let e := s1.potAt pp
      let (s2, ok) := s1.drainAll (l.map fun q => q.1)
      if !ok then (s2, l.map fun q => (q.1, .stall))
      else if e.sys || !s2.isDev pa then (s2, allDone l [coStatus 2 1 0])
      else
        let (s3, go) := s2.pageReady pp nc
        if !go then (s3, l.map fun q => (q.1, .stall))
        else if b == 1 then ((s3.releasePage pp).send (.report 2 [pp]), allDone l [coStatus 0 0 1])
        else
          let s4 := (s3.tlbDrop fun x => decide (x.ppn ≤ pp) && decide (pp < x.ppn + sizePages x.size)).zeroPage pp
          (s4.setPot pp { e with bound := false }, allDone l [coStatus 0 0 1])

def execPotset (o : OpA) (s : State) : Outcome :=
  .next (s.groupWord (.potset o) o.s o.g (codesFrom o.a 2 ++ [o.b]) o.lit (.vec 1 o.d) false fun s ins =>
    State.memDone (s.eachYard ins (fun ws => ws) fun s _ l => s.potset (.potset o) l))

end Sys2Proof.Machine
end

