-- ==== Sys2Proof/Machine/Faults.lean ====
section
/-! DEFINITION. Events of the home slices and of translation (09_memory R211, 12_translation 12.2 to 12.5): acknowledgement of
stores, walks, fault buffers and shootdown. -/

namespace Sys2Proof.Machine

/-! ### Acknowledgement of a store (R211, R217) -/

/-- STORE_REGISTRATION_ACK: the registration of the n-th pending store reaches its home slice, or that of an earlier store of its
thread to its word (R215), once the holders of its line have answered. (DESIGN CHOICE, log 35.) -/
def execStoreRegistrationAck (n : Nat) (late : List Nat) (drop : Bool) (s : State) : Outcome :=
  .next (match s.mem.pend[n]?.bind fun p => s.mem.pend.find? fun q => q.thread == p.thread && q.word == p.word with
    | none => s
    | some p =>
      let (s1, ready) := s.dirAccess p.word true p.nc
      if ready then s1.register p drop late else s1)

/-! ### Walks (R266) -/

/-- WALK_COMPLETE: a walk that has a walk slot ends (R266). A miss parks no one: a thread or an engine that waits for it asks
again. (DESIGN CHOICE, log 41.) -/
def execWalkComplete (n : Nat) (s : State) : Outcome :=
  .next (match s.mem.walks[n]? with
    | none => s
    | some w => if s.slotFor w.cluster w.ctx w.vpage then (s.walkNow w.cluster w.cores.head? w.ctx w.vpage w.kind).1 else s)

/-! ### Fault buffers (R272, R273) -/

/-- FBREPLAY: a service core replays a context in a cluster; it has no effect while the context is not resident there (R274).
(DEDUCED, log 52.) -/
def execFbreplay (cluster ctx : Nat) (s : State) : Outcome :=
  .next (if s.residentIn cluster ctx then s.replayIn cluster ctx else s)

/-- The trap of a thread to which its page's fault is delivered. -/
def deliveredTrap (e : FbEntry) (qidx : Option Word) : Trap :=
  { trapOf 0x18 (BitVec.ofNat 64 (e.vpage * 4096)) with
    info1 := BitVec.ofNat 64 (e.kind + e.reason * 8),
    info2 := match qidx with
      | none => 0
      | some i => dw i 1 }

/-- Whether a thread of a cluster and context is parked on a page with an event that was not dropped (R273). -/
def State.parkedOn (s : State) (cl c v k : Nat) : Bool :=
  s.parkedIn cl c k && (match (s.thread k).waiting with
    | .blocked (.page w _ _ dropped) => w == v && !dropped
    | _ => false)

/-- Whether an engine operation is parked on a page with an event that was not dropped. -/
def parkedAt (p : Option Park) (v : Nat) : Bool := p.any fun x => x.vpage == v && !x.dropped

/-- The status of an operation whose fault is delivered: 2 for a write, 1 for a read (Table 13-4). -/
def deliveredStatus (p : Option Park) : Nat := if p.any fun x => x.write then 2 else 1

/-- The threads parked on the page of an entry trap; each word's set is treated as its scope says. -/
def State.deliverThreads (s : State) (cl : Nat) (e : FbEntry) : State :=
  let ks := (s.fab.threads.filter fun p => s.parkedOn cl e.ctx e.vpage p.1).map fun p => p.1
  let kind (k : Nat) : SetKind := s.scopeAt k
  let traps (d : SetKind) : List (Nat × BitVec 16 × Nat × Trap) := (ks.filter fun k => kind k == d).map fun k =>
    (k, (s.thread k).pc, (s.thread k).wpos, deliveredTrap e (s.thread k).qidx)
  let s0 := s.updLanes ks fun _ t => { t with qidx := none }
  let s1 := s0.setMem { s0.mem with longs := s0.mem.longs.filter fun l => !(ks.any fun k => yardOf k == l.yard) }
  ((s1.raiseAt .lane (traps .lane)).raiseAt .yard (traps .yard)).raiseAt .rig (traps .rig)

/-- Copies and fetches of a context that a cluster's engine has parked on a page fail. -/
def State.deliverCopies (s : State) (cl : Nat) (e : FbEntry) : State :=
  (s.eng.copies.filter fun x => x.ctx == e.ctx && x.cluster == cl && parkedAt x.parked e.vpage).foldl
    (fun s x => s.failParked x) s

/-- Operations whose status words are parked on a page lose them, and resolve failed. (DEDUCED, log 62.) -/
def State.deliverEnds (s : State) (cl : Nat) (e : FbEntry) : State :=
  let mine (x : Ended) : Bool := x.ctx == e.ctx && x.cluster == cl && parkedAt x.parked e.vpage
  let s1 := s.setEng { s.eng with ends := s.eng.ends.filter fun x => !mine x }
  (s.eng.ends.filter mine).foldl (fun s x =>
    (s.engineStat cl fun g => { g with loststat := g.loststat + 1 }).endRest { x with state := 1, status := 2 }) s1

/-- Matrix operations, calls and pulls of a cluster's cores that are parked on a page fail, and the consumers of the
context's queues learn of it. -/
def State.deliverCores (s : State) (cl : Nat) (e : FbEntry) : State :=
  let cores := (List.range 4).map (4 * cl + ·)
  let s1 := cores.foldl (fun s i => match (s.core i).mrun with
    | some o => if o.ctx == e.ctx && parkedAt o.parked e.vpage then s.matEnd i o 1 1 else s
    | none => s) s
  let s2 := cores.foldl (fun s i =>
    ((s.core i).ring.filter fun r => r.2.ctx == e.ctx && parkedAt r.2.parked e.vpage).foldl (fun s r =>
      s.callEnd i r.2 1 (deliveredStatus r.2.parked)) s) s1
  let s3 := s2.eng.wqs.foldl (fun s w =>
    (w.2.pulls.filter fun p => p.ctx == e.ctx && clusterOf p.core == cl && parkedAt p.parked e.vpage).foldl
      (fun s p => s.pullEnd w.1 p 1 (deliveredStatus p.parked)) s) s2
  let queues := Map.mapVals (fun _ (q : QSlot) =>
    if q.ctx.toNat == e.ctx && s.queueCluster q == cl && parkedAt q.parked e.vpage then { q with parked := none, failed := some e.vpage } else q) s3.eng.queues
  s3.setEng { s3.eng with queues := queues }

/-- FBDELIVER. -/
def execFbdeliver (cluster entry : Nat) (s : State) : Outcome :=
  let b := s.fb cluster
  .next (match Map.find? b.entries entry with
    | none => s
    | some e =>
      let s1 := (((s.deliverThreads cluster e).deliverCopies cluster e).deliverEnds cluster e).deliverCores cluster e
      let c := s1.fb cluster
      let entries := Map.del c.entries entry
      s1.setFb cluster { c with entries := entries, drops := if entries.isEmpty && c.dropctx == 0 then 0 else c.drops })

/-! ### Shootdown (R275, R276, R423) -/

def State.setSd (s : State) (d : Shootdown) : State := s.setMem { s.mem with sd := d }

/-- INTERRUPT_FILE_WRITE: identity SDID starts a shootdown while ACKSEQ differs from SEQ. -/
def execInterruptFileWrite (ident : Word) (s : State) : Outcome :=
  let d := s.mem.sd
  .next (if s.status.sdid != 0 && ident == s.status.sdid.zeroExtend 32 && d.ackseq != d.seq then
      s.setSd { d with running := true }
    else s)

/-- A write of SEQ, refused while a shootdown runs. -/
def State.writeSeq (s : State) (v : Word) : State :=
  let d := s.mem.sd
  s.setSd (if d.running then { d with err := true } else { d with seq := v })

def execShootdownSeqWrite (v : Word) (s : State) : Outcome := .next (s.writeSeq v)

/-- Whether a shootdown names an entry. (DEDUCED, log 122.) -/
def Shootdown.names (d : Shootdown) (e : TlbEntry) : Bool :=
  let lo := bitsOf d.va.toNat 56 12
  e.world1 && (d.allasid || e.asid == d.asid.toNat) &&
    (d.alladdr || (d.npages != 0 && decide (e.base < lo + d.npages.toNat) && decide (lo < e.base + sizePages e.size)))

/-- SHOOTDOWN_COMPLETE: entries are invalidated, the stores of world-1 contexts are performed, and the host is told.
(DEDUCED, log 122.) -/
def execShootdownComplete (s : State) : Outcome :=
  let d := s.mem.sd
  .next (if !d.running then s
    else
      let s1 := s.tlbDrop d.names
      let (s2, ok) := s1.drainPend fun p => s1.worldOf (s1.ctxOf p.thread) == 1
      if !ok then s2
      else
        let s3 := s2.setSd { d with ackseq := d.seq, running := false }
        if d.ackaddr == 0 then s3 else s3.send (.msi d.ackaddr d.ackdata))

end Sys2Proof.Machine
end

