-- ==== Sys2Proof/Machine/Directory.lean ====
section
/-! DEFINITION. Agents outside the device at the home slices (11_coherence 11.1 to 11.4): holders' requests and the
directory, back-invalidation responses, snoops, and handovers that the host starts. -/

namespace Sys2Proof.Machine

/-- A CXL.mem or CXL.cache request restarts the count of quiet time, and wakes the device from PS3 (20_boundary R429).
(DEDUCED, log 117.) -/
def State.noteRequest (s : State) : State :=
  { s with power := { s.power with
      quietSince := s.ticks.toNat,
      exiting := if s.power.pstate == 3 && s.power.exiting.isNone then some 0 else s.power.exiting } }

/-- A request of an agent outside is noted, and served unless the device is in PS3: then it is served after the exit
(20_boundary R429). -/
def State.served (s : State) (f : State → State) : State := if s.power.pstate == 3 then s.noteRequest else f s.noteRequest

/-- The physical address to which the HDM decoder of a port maps a host physical address, if it does (20_boundary R419): the
blocks of the interleave granularity that come to this port, one after another. (PRESUMED, log 154.) -/
def Port.maps (p : Port) (hpa : Nat) : Option Nat :=
  match p.hdm with
  | none => none
  | some (base, size, ways, gran) =>
    if base ≤ hpa && hpa < base + size then some ((hpa - base) / (ways * gran) * gran + (hpa - base) % gran) else none

/-- The physical address of a request of a holder: one behind a port that has its identifier (R237), which its port's decoder
maps. A request that no decoder maps completes with an error and touches nothing (20_boundary R419). (PRESUMED, log 154.) -/
def State.holderAddr (s : State) (h hpa : Nat) : Option Nat :=
  let p := s.port (h / 8)
  if h < 16 && p.ids.any fun x => x.1 == h then p.maps hpa else none

/-! ### Requests of external holders (R235, R237, Table 11-1) -/

/-- The largest aligned block that holds a line, lies in its region and overlaps no live entry: its level (R237). -/
def State.freeBlock (s : State) (line : Nat) : Nat :=
  ((List.range 11).find? fun lv =>
    let size := 65536 / 2 ^ lv
    let base := line / size * size
    s.mem.dir.all fun e => decide (base + size ≤ e.base) || decide (e.base + dirSize e ≤ base)).getD 10

/-- A request of a holder counts as the last that its directory entry has seen. -/
def State.touchDir (s : State) (pa : Nat) : State :=
  match s.dirFind pa with
  | none => s
  | some e => s.dirReplace e [{ e with last := s.now }]

/-- A holder comes to own a line: its owned words are recalled, and what the holder writes follows every write of the device
(R217). -/
def State.takeLine (s : State) (line : Nat) : State := (s.recallLine line).settleWrites line

/-- A request that has no back-invalidation to wait for is served. -/
def State.serveHolder (s : State) (line : Nat) (own : Bool) : State := if own then s.takeLine line else s

/-- A request that needs back-invalidations: the entry splits to the line, and they are sent (R238); `false` where there is no
room for the split. -/
def State.splitFor (s : State) (e : DirEntry) (line : Nat) (keep : BitVec 16) (hs : List Nat) (r : DirReq) (inv : Bool) :
    State × Bool :=
  let (s1, room) := s.dirRoom (10 - e.level) 17
  if !room then (s1, false)
  else
    let (l, rest) := splitTo { e with last := s.now } line 10
    let l1 := { l with holders := keep, await := hs.map fun h => (h, line), req := some r }
    ((s1.dirReplace e (l1 :: rest)).backInvalidate hs line inv, true)

/-- A request of holder `h` for a line of an HC region that has its turn (Table 11-1); `false` where it has still to wait for its
entry. -/
def State.askEntry (s : State) (h line : Nat) (own : Bool) : State × Bool :=
  match s.dirFind line with
  | none =>
    let (s1, room) := s.dirRoom 1 17
    if !room then (s1, false)
    else
      let lv := s1.freeBlock line
      let size := 65536 / 2 ^ lv
      let e : DirEntry := { base := line / size * size, level := lv, holders := holderBit h, excl := own, last := s.now,
                            await := [], req := none, evict := false }
      ((s1.setMem { s1.mem with dir := e :: s1.mem.dir }).serveHolder line own, true)
  | some e =>
    let others := (holderList e.holders).filter (· != h)
    if !e.await.isEmpty then (s, false)
    else if !own && !e.excl then (s.dirReplace e [{ e with holders := e.holders ||| holderBit h, last := s.now }], true)
    else if others.isEmpty then
      let e1 := { e with holders := holderBit h, excl := own || e.excl && e.holders != 0, last := s.now }
      ((s.dirReplace e [e1]).serveHolder line own, true)
    else if own then s.splitFor e line (e.holders &&& holderBit h) others (.own h) true
    else s.splitFor e line e.holders others (.read h) false

/-- A request of a holder at the directory: served, or waiting in its turn (R237, R257). -/
def State.askTurn (s : State) (h line : Nat) (own : Bool) : State :=
  let a : Ask := { holder := some h, line := line, own := own, made := s.now }
  if s.inMove line then s.queueAsk a
  else if !s.isHc line then (s.dropAsk a).serveHolder line own
  else if s.behind a then s.queueAsk a
  else
    let (s1, done) := s.askEntry h line own
    if done then s1.dropAsk a else s1.queueAsk a

/-- A read or an ownership request of holder `h` for a line. -/
def State.holderAsk (s : State) (h pa : Nat) (own : Bool) : State :=
  if !s.isDev pa || 16 ≤ h then s else (s.touchDir pa).askTurn h (lineAddr pa) own

/-- Requests of holders that wait are served when their turn has come; a request of the device that has not been made again
for a long time is no longer one. (DESIGN CHOICE, log 142.) -/
def State.settleAsks (s : State) : State :=
  let old (a : Ask) : Bool := a.holder.isNone && decide (a.made + Config.timeout ≤ s.now)
  let s1 := if s.mem.asks.any old then s.setMem { s.mem with asks := s.mem.asks.filter fun a => !old a } else s
  s1.mem.asks.foldl (fun s a => match a.holder with
    | none => s
    | some h => s.askTurn h a.line a.own) s1

def execHolderRead (h hpa : Nat) (s : State) : Outcome :=
  .next (match s.holderAddr h hpa with
    | none => s
    | some pa => s.served fun s => s.holderAsk h pa false)
def execHolderOwnershipRequest (h hpa : Nat) (s : State) : Outcome :=
  .next (match s.holderAddr h hpa with
    | none => s
    | some pa => s.served fun s => s.holderAsk h pa true)

/-- A word of a holder's line is written at its home slice: the holder ranks below every core (R217). (DEDUCED, log 98.) -/
def State.holderWord (line : Nat) (s : State) (x : Word × Nat) : State := s.homeStore (line + 4 * x.2) 0 0 15 x.1

/-- HOLDER_WRITEBACK (R241). (DEDUCED, log 98.) -/
def execHolderWriteback (h hpa : Nat) (data : List Word) (s : State) : Outcome :=
  .next (match s.holderAddr h hpa with
    | none => s
    | some pa =>
      if !s.isDev pa || data.length != 16 then s
      else s.served fun s => (data.zipIdx.foldl (State.holderWord (lineAddr pa)) s).touchDir pa)

/-! ### Back-invalidation responses (Table 11-1) -/

/-- The last response to an entry's back-invalidations has arrived: an entry that is evicted is free, and the request that waits
takes its result (R237, R239). -/
def State.answered (s : State) (e : DirEntry) : State :=
  if e.evict then s.dirReplace e []
  else match e.req with
  | none => s.dirReplace e [{ e with excl := false }]
  | some (.read h) => s.dirReplace e [{ e with excl := false, holders := e.holders ||| holderBit h, req := none }]
  | some (.own h) => (s.dirReplace e [{ e with excl := true, holders := holderBit h, req := none }]).takeLine e.base

/-- BISNP_RESPONSE: dirty data is written at the home slice before the waiting request proceeds. -/
def execBisnpResponse (h pa : Nat) (data : List Word) (s : State) : Outcome :=
  let line := lineAddr pa
  .next (match s.dirFind pa with
    | none => s
    | some e =>
      if !e.await.contains (h, line) then s
      else
        let s1 := (data.take 16).zipIdx.foldl (fun s x => s.homeWrite (line + 4 * x.2) x.1) s
        let e1 := { e with await := e.await.filter (· != (h, line)) }
        let s2 := s1.dirReplace e [e1]
        if e1.await.isEmpty then s2.answered e1 else s2)

/-! ### Merging (R238) -/

/-- Whether an entry can merge: no back-invalidation is outstanding, and it has been quiet for 2^20 core cycles. -/
def State.quiet (s : State) (e : DirEntry) : Bool := e.await.isEmpty && decide (e.last + Config.timeout ≤ s.now)

/-- Merges the siblings of a level whose parent's base is given, and on upwards. (DEDUCED, log 99.) -/
def State.mergeAt (s : State) (base level : Nat) : Nat → State
  | 0 => s
  | n + 1 =>
    let size := 65536 / 2 ^ level
    let lo := base / (2 * size) * (2 * size)
    let pick (b : Nat) := s.mem.dir.find? fun e => e.base == b && e.level == level
    if level == 0 then s
    else match pick lo, pick (lo + size) with
    | some x, some y =>
      if !s.quiet x || !s.quiet y then s
      else if x.holders == 0 || y.holders == 0 || (x.holders == y.holders && x.excl == y.excl) then
        let z := if x.holders == 0 then y else x
        let parent := { z with base := lo, level := level - 1, last := max x.last y.last }
        State.mergeAt (s.setMem { s.mem with dir := parent :: s.mem.dir.filter fun e => e != x && e != y }) lo (level - 1) n
      else s
    | _, _ => s

def execDirectoryMerge (pa level : Nat) (s : State) : Outcome := .next (if 10 < level then s else s.mergeAt pa level 10)

/-! ### Snoops of host-homed lines (R235) -/

/-- SNOOP: owned words are recalled and dirty words reach memory; a snoop that takes the line away leaves no owner, and the line
is no longer in L2. -/
def execSnoop (pa : Nat) (inv : Bool) (s : State) : Outcome :=
  let line := lineAddr pa
  .next (if s.fitX || s.isDev pa then s
    else s.served fun s => if inv then (s.evictLine line).settleWrites line else s.writeLine line)

/-! ### Handovers that the host starts (R242 to R244) -/

/-- Whether LEN is in range (Table 11-2). -/
def Handover.lenOk (h : Handover) : Bool := decide (1 ≤ h.len.toNat / 64) && decide (h.len.toNat / 64 ≤ 2 ^ 18)

/-- A write of the word at 0x0C. -/
def State.handoverWrite (s : State) (v : Word) : State :=
  let h := s.mem.ho
  let go := v.getLsbD 0
  let dir := v.getLsbD 1
  s.setMem { s.mem with ho :=
    if go && (h.busy || !h.lenOk) then { h with err := true }
    else if go then
      { h with dir := dir, busy := true, progress := 0, toDev := dir, by_ := none, total := h.len.toNat / 64,
               pages := [h.base.toNat / 64 * 64], off := 0 }
    else { h with dir := dir } }

def execHandoverGo (v : Word) (s : State) : Outcome := .next (s.handoverWrite v)

/-- Whether a HANDOFF's handover stands at a 64 KiB boundary of its range at which a pre-emption request stops it (R255). -/
def State.handoverStops (s : State) : Bool :=
  let h := s.mem.ho
  0 < h.progress && (h.off + 64 * h.progress) % 65536 == 0 && h.by_.any fun y => (s.core (yardCore y)).preempt

/-- Lines of the handover that runs, at most `n`, up to a region that an RMODE holds (R244), and its end: after the last line,
with the host link down, or where a pre-emption request stops it. (DESIGN CHOICE, log 46.) -/
def State.handoverRun (s : State) : Nat → State
  | 0 => if s.mem.ho.total ≤ s.mem.ho.progress then s.handoverEnd s.mem.ho.total .all else s
  | n + 1 =>
    let h := s.mem.ho
    if h.total ≤ h.progress then s.handoverEnd h.total .all
    else if !s.hostLinkUp then s.handoverEnd h.progress .link
    else if s.handoverStops then s.handoverEnd h.progress .preempt
    else if s.inMove (h.lineAt h.progress) then s
    else
      let s1 := s.handoverLine (h.lineAt h.progress) h.toDev
      State.handoverRun (s1.setMem { s1.mem with ho := { s1.mem.ho with progress := h.progress + 1 } }) n

/-- HANDOVER_COMPLETE: the lines that remain, or some of them, and the end of the handover; with the host link down it stops
after the line in progress. (DEDUCED, log 48.) -/
def execHandoverComplete (lines : Nat) (s : State) : Outcome :=
  .next (if s.mem.ho.busy then s.handoverRun (if lines == 0 then s.mem.ho.total else lines) else s)

end Sys2Proof.Machine
end

