-- ==== Sys2Proof/Machine/Links.lean ====
section
/-! DEFINITION. Memory channels and their refresh (11_coherence 11.5), the loss of a link, viral state and a lost expander
(R245, R246; 18_system R389 to R391), and the link-recovery commands (20_boundary R424). -/

namespace Sys2Proof.Machine

/-! ### Memory channels (R250, R252) -/

/-- A refresh tick of a pseudo-channel, when its next one is due. -/
def execRefreshTick (pc : Nat) (s : State) : Outcome :=
  .next (if s.hasChannel pc && s.tickDue (s.channel pc) then s.setChannel pc (s.tick (s.channel pc)) else s)

/-- REFRESH_FORCED: once no column access is in progress, the all-bank refreshes are issued. (DEDUCED, log 101.) -/
def execRefreshForced (pc : Nat) (s : State) : Outcome :=
  let r := s.channel pc
  .next (if s.ns < r.column then s else s.setChannel pc (s.issueForced r))

/-- Marks a line poisoned (R246, R252, R406). -/
def State.poisonLine (s : State) (line : Nat) : State :=
  s.setMem { s.mem with poison := if s.mem.poison.contains (line + 1) then s.mem.poison else (line + 1) :: s.mem.poison }

/-- MEMORY_READ, and what its ECC and the integrity check find (R252, R406). (DESIGN CHOICE, log 53.) -/
def execMemoryRead (pa ecc : Nat) (queued : Bool) (s : State) : Outcome :=
  let c := s.cellOf pa
  let pc := c.channel
  let r := s.channel pc
  let a := BitVec.ofNat 64 pa
  let pot := s.potAt (pa / 4096)
  .next (if !s.isDev pa then s
    else if queued then s.setChannel pc { r with queued := r.queued ++ [(c.bank, s.ns)] }
    else
      let r1 := s.serveRead r c.bank
      let s1 := s.setChannel pc (if ecc == 1 then { r1 with cecc := r1.cecc + 1 } else r1)
      if ecc == 2 then
        (s1.poisonLine (lineAddr pa)).postRecord 2 0 none a
          ([c.controller, c.pseudo, c.bank, c.row].map (BitVec.ofNat 32))
      else if (ecc == 3 || ecc == 4) && pot.bound && pot.mode == 2 then
        (s1.poisonLine (lineAddr pa)).postRecord 12 0 none (line64 a) [pot.world.zeroExtend 32, BitVec.ofNat 32 (ecc - 2)]
      else s1)

/-! ### Host-homed lines (R245) -/

def State.setPort (s : State) (p : Nat) (v : Port) : State := s.setMem { s.mem with ports := Map.set s.mem.ports p v }

/-- Whether an address is host-homed and reached through a port. -/
def State.homedAt (s : State) (p a : Nat) : Bool :=
  !s.fitX && !s.isDev a && decide (a < 2 ^ 56) && b2n (Config.hostPort a) == p

/-- Poisoned host-homed lines of a port. -/
def State.poisonedLines (s : State) (p : Nat) : List Nat :=
  s.mem.poison.filterMap fun x => if x % 64 == 1 && s.homedAt p (x - 1) then some (x - 1) else none

/-- Dirty host-homed lines of a port: those with a word that L2 holds or a core owns. -/
def State.dirtyLines (s : State) (p : Nat) : List Nat :=
  let was := s.mem.l2.map (fun q => q.1) ++ s.mem.owner.map fun q => q.1
  was.foldl (fun l wa => if s.homedAt p (lineAddr wa) && !l.contains (lineAddr wa) then l ++ [lineAddr wa] else l) []

/-- The holders behind a port (R237). -/
def behindPort (p h : Nat) : Bool := h / 8 == p

/-- The holders behind a port, as bits of HOLDERS. -/
def behindMask (p : Nat) : BitVec 16 := BitVec.ofNat 16 (255 * 2 ^ (8 * p))

/-- An entry after the loss of a port's holders (R246): the lines that one of them held EXCL are poisoned in memory. -/
def State.loseHolders (s : State) (p : Nat) (e : DirEntry) : State :=
  let lost := e.await.filter fun x => behindPort p x.1
  let lines :=
    if !e.excl then []
    else if (e.holders &&& behindMask p) != 0 && e.await.isEmpty then
      (List.range (dirSize e / 64)).map fun i => e.base + 64 * i
    else lost.map fun x => x.2
  let s1 := lines.foldl (fun s l => ((s.recallLine l).writeLine l).poisonLine l) s
  let req := match e.req with
    | some (.read h) => if behindPort p h then none else e.req
    | some (.own h) => if behindPort p h then none else e.req
    | none => none
  let e1 := { e with
    holders := e.holders &&& ~~~(behindMask p), await := e.await.filter fun x => !behindPort p x.1, req := req,
    excl := e.excl && !(e.await.isEmpty && (e.holders &&& behindMask p) != 0) }
  let s2 := s1.dirReplace e [e1]
  if !e.await.isEmpty && e1.await.isEmpty then s2.answered e1 else s2

/-- The dirty host-homed lines of a port are poisoned. -/
def State.poisonDirty (s : State) (port : Nat) : State := (s.dirtyLines port).foldl (fun s l => s.poisonLine l) s

/-- Clean host-homed lines are dropped from L2, and the copies of them that data caches only read. -/
def State.dropShared (s : State) (port : Nat) : State :=
  let clean (a : Nat) : Bool := s.homedAt port a && !(s.poisonedLines port).contains (lineAddr a)
  s.setMem { s.mem with
    dcache := s.mem.dcache.filter fun q => !(q.2.st == .valid && clean (q.1 % 2 ^ 56)),
    slices := Map.mapVals (fun _ l => l.filter fun x => !clean x) s.mem.slices }

/-- Every entry of the directory loses the holders behind a port, whose requests wait no longer. -/
def State.loseAll (s : State) (port : Nat) : State :=
  let s1 := s.setMem { s.mem with asks := s.mem.asks.filter fun a => !(a.holder.any fun h => behindPort port h) }
  s1.mem.dir.foldl (fun s e => s.loseHolders port e) s1

/-- LINK_DOWN. -/
def execLinkDown (port : Nat) (s : State) : Outcome :=
  .next (if 2 ≤ port || !(s.port port).linkup then s
    else
      let s1 := s.setPort port { s.port port with linkup := false, downseen := true, ids := [] }
      let s2 := ((s1.poisonDirty port).dropShared port).loseAll port
      s2.postRecord 3 port none 0 [BitVec.ofNat 32 (s2.poisonedLines port).length])

/-- LINK_TRAIN (R419): the identifiers of the port's holders are assigned. (DEDUCED, log 119.) -/
def execLinkTrain (port : Nat) (ids : List (Nat × Nat)) (s : State) : Outcome :=
  .next (if 2 ≤ port then s
    else s.setPort port { s.port port with linkup := true, ids := ids.filter fun x => behindPort port x.1 })

/-! ### Viral ports, lost expanders, soft errors (R389 to R391) -/

def execPortViral (port : Nat) (s : State) : Outcome :=
  .next (if 2 ≤ port || (s.port port).viral then s
    else (s.setPort port { s.port port with viral := true }).postRecord 4 port none 0 [])

def execExpanderLost (port base len : Nat) (s : State) : Outcome :=
  .next (if s.fitX || 2 ≤ port || len == 0 then s
    else (s.setMem { s.mem with lost := (port, base, len) :: s.mem.lost }).postRecord 5 port none (BitVec.ofNat 64 base)
      (words2 (BitVec.ofNat 64 len)))

/-- SRAM_SOFT_ERROR: a corrected error is counted, and changes nothing else. (DEDUCED, log 103.) -/
def execSramSoftError (addr : Nat) (uncorrectable : Bool) (uid index : Nat) (s : State) : Outcome :=
  let wa := addr / 4 * 4
  .next (if !uncorrectable then s.setMem { s.mem with corrected := s.mem.corrected + 1 }
    else (s.setMem { s.mem with poison := if s.mem.poison.contains wa then s.mem.poison else wa :: s.mem.poison }).postRecord
      6 0 none 0 [BitVec.ofNat 32 uid, BitVec.ofNat 32 index])

/-! ### Link recovery (R424) -/

/-- A recovery command that ends at once, with its RESULT and DONE. -/
def State.recovered (s : State) (p result done : Nat) : State :=
  s.setPort p { s.port p with result := BitVec.ofNat 3 result, done := BitVec.ofNat 24 done }

def State.clearPoison (s : State) (line : Nat) : State :=
  s.setMem { s.mem with poison := s.mem.poison.filter fun x => x != line + 1 && !(x % 4 == 0 && lineAddr x == line) }

/-- What SALVAGE does to a line, which is written to host memory, and what DISCARD does, which invalidates it; its poison is
cleared. -/
def State.salvageLine (s : State) (line : Nat) : State := ((s.recallLine line).writeLine line).clearPoison line
def State.discardPoisoned (s : State) (line : Nat) : State := (s.discardLine line).clearPoison line

/-- CMD starts SALVAGE (1) or DISCARD (2) on a port that runs none: BUSY is set, over the lines that are poisoned then. SALVAGE
with the link down is refused. (DESIGN CHOICE, log 102.) -/
def State.recoveryStart (s : State) (p code : Nat) : State :=
  let x := s.port p
  if x.cmd.isSome then s
  else if code == 1 && !x.linkup then s.recovered p 1 0
  else s.setPort p { x with cmd := some code, left := s.poisonedLines p, result := 0, done := 0 }

/-- SALVAGE or DISCARD goes on for `lines` lines, or for all that remain; a port that runs none starts it. A line that is
poisoned no more, or whose write fails, is left as it is. (DESIGN CHOICE, log 102.) -/
def State.recovery (s : State) (p code lines : Nat) (fails : Nat → Bool) (f : State → Nat → State) : State :=
  let x := s.port p
  let left := if x.cmd.isSome then x.left else s.poisonedLines p
  let done := if x.cmd.isSome then x.done.toNat else 0
  let n := if lines == 0 then left.length else lines
  if x.cmd.any (· != code) then s
  else if x.cmd.isNone && code == 1 && !x.linkup then s.recovered p 1 0
  else
    let mine := (left.take n).filter fun l => (s.poisonedLines p).contains l && !fails l
    let rest := left.drop n
    let s1 := mine.foldl f s
    s1.setPort p { s1.port p with
      cmd := if rest.isEmpty then none else some code, left := rest, result := 0, done := BitVec.ofNat 24 (done + mine.length) }

/-- CLEARVIRAL: the containment of R390 ends. (DESIGN CHOICE, log 102.) -/
def State.clearViral (s : State) (port : Nat) : State :=
  if (s.port port).cmd.isSome then s
  else if !(s.port port).linkup then s.recovered port 1 0
  else (s.setPort port { s.port port with viral := false }).recovered port 0 0

/-- SALVAGE: with the link down, the write of every line fails. (DESIGN CHOICE, log 102.) -/
def execSalvage (port : Nat) (work : Nat × List Nat) (s : State) : Outcome :=
  .next (if 2 ≤ port then s
    else s.recovery port 1 work.1 (fun l => !(s.port port).linkup || work.2.any fun w => lineAddr w == l) State.salvageLine)
/-- DISCARD, for every line at once. (DESIGN CHOICE, log 102.) -/
def execDiscard (port : Nat) (s : State) : Outcome :=
  .next (if 2 ≤ port then s else s.recovery port 2 0 (fun _ => false) State.discardPoisoned)
def execClearviral (port : Nat) (s : State) : Outcome := .next (if 2 ≤ port then s else s.clearViral port)

end Sys2Proof.Machine
end

