-- ==== Sys2Proof/Machine/Preempt.lean ====
section
/-! DEFINITION. Pre-emption, the save area and restore (03_threads R90; 18_system R380, R385 to R387; 12_translation R274),
and the context kick (20_boundary R422). While a context is saved, its core `i` stands in the tables of the fabric under the
number `savedCore c i`: those are the core blocks of its save area, in which firmware records what resolves meanwhile. -/

namespace Sys2Proof.Machine

/-! ### The numbers of a saved context's cores -/

/-- The number under which core `i` of context `c` stands while the context is saved; above every core of the device, and
of a cluster of the context's own. (DESIGN CHOICE, log 120.) -/
def savedCore (c i : Nat) : Nat := 64 * (1 + c) + i

/-- The device core that a number stands for. (DESIGN CHOICE, log 120.) -/
def savedFrom (n : Nat) : Nat := n % 64

/-- A map with its keys renamed. -/
def Map.rekey {α : Type} (f : Nat → Nat) (m : Map α) : Map α := m.foldl (fun r p => Map.set r (f p.1) p.2) []

/-- A key of which each core has `unit`, with its core renamed. -/
def atUnit (mc : Nat → Nat) (unit k : Nat) : Nat := mc (k / unit) * unit + k % unit

/-- How a context's cores are renumbered: each core, and each cluster of the context's rigs. -/
structure Renumber where
  ctx : Nat
  core : Nat → Nat
  cluster : Nat → Nat

def Renumber.thread (m : Renumber) (k : Nat) : Nat := atUnit m.core 8192 k
def Renumber.yard (m : Renumber) (y : Nat) : Nat := atUnit m.core 128 y
def Renumber.rig (m : Renumber) (r : Nat) : Nat := m.cluster (r / 64) * 64 + r % 64
def Renumber.slot (m : Renumber) (f : Option (Nat × Nat)) : Option (Nat × Nat) := f.map fun x => (m.core x.1, x.2)

def Renumber.signs (m : Renumber) (l : List Sign) : List Sign := l.map fun x => { x with thread := m.thread x.thread }
def Renumber.op (m : Renumber) (o : MatOp) : MatOp := { o with signers := m.signs o.signers }

def Renumber.yardVal (m : Renumber) (v : Yard) : Yard :=
  { v with
    rig := v.rig.map fun x => (m.rig x.1, x.2), stripe := v.stripe.map m.rig,
    burst := v.burst.map fun b => { b with lanes := b.lanes.map m.thread } }

def Renumber.partVal (m : Renumber) (q : Part) : Part :=
  { q with
    entries := q.entries.map fun e => { e with wait := e.wait.map m.thread },
    unindexed := q.unindexed.map m.thread,
    hoistq := q.hoistq.map fun h => { h with yard := m.yard h.yard, members := h.members.map m.thread } }

def Renumber.coreVal (m : Renumber) (x : Core) : Core :=
  { x with
    cleats := Map.mapVals (fun _ c => { c with rig := c.rig.map m.rig, signs := m.signs c.signs }) x.cleats,
    mreleased := x.mreleased.map m.op, mqueue := x.mqueue.map m.op, mrun := x.mrun.map m.op,
    ring := Map.mapVals (fun _ r => { r with thread := m.thread r.thread }) x.ring }

def Renumber.rigVal (m : Renumber) (r : Nat) (g : Rig) : Rig :=
  { g with
    members := g.members.map fun x => (m.yard x.1, x.2), stripes := Map.mapVals (fun _ y => m.yard y) g.stripes,
    cleat := Map.rekey (fun j => m.core (r / 64 * 4 + j) % 4) g.cleat }

/-- The rig records of a cluster table, those of the context renumbered; a record left keeps its reuse count (R117). -/
def Renumber.rigs (m : Renumber) (l : Map Rig) : Map Rig :=
  l.foldl (fun r p =>
    if p.2.st.isSome && p.2.context == m.ctx then
      Map.set (Map.set r p.1 { Rig.init with reuse := p.2.reuse }) (m.rig p.1) (m.rigVal p.1 p.2)
    else r) l

/-- The values of a map renumbered where the core of the key is. -/
def Renumber.vals {α : Type} (m : Renumber) (unit : Nat) (f : α → α) (l : Map α) : Map α :=
  Map.rekey (atUnit m.core unit) (Map.mapVals (fun k v => if m.core (k / unit) == k / unit then v else f v) l)

/-- The machine with the cores of a context renumbered. (DEDUCED, log 93; DESIGN CHOICE, log 120, 150.) -/
def State.renumber (s : State) (m : Renumber) : State :=
  let f := s.fab
  let e := s.eng
  { s with
    fab := { f with
      threads := m.vals 8192 (fun t => t) f.threads, main := m.vals (8192 * 256) (fun w => w) f.main,
      side := m.vals (128 * 2048) (fun b => b) f.side, yards := m.vals 128 m.yardVal f.yards,
      parts := m.vals 8 m.partVal f.parts,
      cores := Map.mapVals (fun _ x => { x with ranges := x.ranges.map fun r => { r with fut := m.slot r.fut } })
        (m.vals 1 m.coreVal f.cores),
      rigs := m.rigs f.rigs,
      sets := f.sets.map fun x =>
        { trapped := x.trapped.map m.thread, held := x.held.map m.thread, id := x.id, due := x.due.map m.thread },
      owed := f.owed.map fun o => { o with thread := m.thread o.thread },
      snaps := Map.mapVals (fun _ l => Map.rekey (atUnit m.core (8192 * 256)) l) f.snaps },
    mem := { s.mem with
      longs := s.mem.longs.map fun l => { l with yard := m.yard l.yard },
      moving := s.mem.moving.map fun x => (x.1, m.yard x.2),
      ho := { s.mem.ho with by_ := s.mem.ho.by_.map m.yard } },
    eng := { e with
      copies := e.copies.map fun x => { x with core := m.core x.core, fut := m.slot x.fut, seg := m.slot x.seg },
      ends := e.ends.map fun x => { x with fut := m.slot x.fut, rank := if x.rank = 0 then 0 else m.core (x.rank - 1) + 1 },
      tasks := Map.mapVals (fun _ t => { t with fut := m.slot t.fut }) e.tasks,
      launches := e.launches.map fun l => { l with yards := l.yards.map fun y => (m.core y.1, y.2) },
      wqs := Map.mapVals (fun _ w => { w with pulls := w.pulls.map fun p => { p with core := m.core p.core } }) e.wqs } }

/-! ### The halt (R90) -/

/-- PREEMPT_REQUEST: a request of firmware's own policy. -/
def execPreemptRequest (ctx : Nat) (s : State) : Outcome :=
  .next (if (s.ctx ctx).created && !(s.ctx ctx).saving then s.preempt ctx else s)

/-- Whether every issue group of a core stands at a switch point, or at a word that has stalled (R81, R90).
(DEDUCED, log 92.) -/
def State.atSwitch (s : State) (core : Nat) : Bool :=
  (List.range Config.partitions).all fun q =>
    match (s.part (partKey core q)).stream with
    | none => true
    | some st => st.groups.all fun g => g.lanes.isEmpty || !g.runs || g.stall

/-- A streaming thread stays where it stands: its region is suspended, and the latches of a stalled word are kept.
(DEDUCED, log 92.) -/
def State.unstream (s : State) (stalled : Bool) (k : Nat) : State :=
  let s1 := s.modThread k fun t => { t with kept := if stalled then some t.lat else none }
  ((s1.suspendRegion k).leaveGroup k).modThread k (fun t => { t with lat := noLatches, held := none }) |>.arrive k

/-- A partition has no streaming block any more; an entry that no thread waits in is freed. (DEDUCED, log 28.) -/
def State.endStream (s : State) (p : Nat) : State :=
  match (s.part p).stream with
  | none => s
  | some st =>
    let s1 := st.groups.foldl (fun s g => g.lanes.foldl (fun s k => s.unstream (g.stall && g.runs) k) s) s
    s1.modPart p fun q => { q with stream := none, entries := q.entries.filter fun e => !e.wait.isEmpty }

/-- Whether a group stands at a HANDOFF or an RMODE that is in progress: it is at no switch point until that ends. -/
def State.longAt (s : State) (g : Group) : Bool :=
  s.mem.longs.any fun l => l.pc == g.pc && l.w == g.w && g.lanes.any fun k => yardOf k == l.yard

/-- Whether an issue group of a core stands at a HANDOFF or an RMODE that is in progress: it goes on to its next boundary
(11_coherence R255, R257). (DESIGN CHOICE, log 46.) -/
def State.longRuns (s : State) (core : Nat) : Bool :=
  (List.range Config.partitions).any fun q =>
    match (s.part (partKey core q)).stream with
    | none => false
    | some st => st.groups.any s.longAt

/-- CORE_HALT: the core acknowledges. -/
def execCoreHalt (core : Nat) (s : State) : Outcome :=
  let c := s.core core
  .next (if !c.preempt || c.halted || Config.cores ≤ core || !s.atSwitch core || s.longRuns core then s
    else
      let s1 := (List.range Config.partitions).foldl (fun s q => s.endStream (partKey core q)) s
      s1.modCore core fun c => { c with halted := true })

/-! ### The save (R385, R386) -/

/-- Whether an address is on-chip storage of a core. -/
def chipOf (core a : Nat) : Bool := decide (2 ^ 60 ≤ a) && a / 2 ^ 54 % 64 == core

/-- An address of on-chip storage as core 0 would give it, and back. -/
def chipBase (a : Nat) : Nat := a / 2 ^ 60 * 2 ^ 60 + a % 2 ^ 54
def chipAt (core a : Nat) : Nat := a / 2 ^ 60 * 2 ^ 60 + core * 2 ^ 54 + a % 2 ^ 54

/-- The bytes of a core block; instruction segments are not among them. -/
def State.coreImage (s : State) (core : Nat) : CoreImage :=
  let mine (a : Nat) : Bool := chipOf core a && a / 2 ^ 60 != 5
  { mem := (s.mem.bytes.filter fun c => mine c.1).map fun c => (chipBase c.1, c.2),
    poison := (s.mem.poison.filter mine).map chipBase }

/-- The on-chip storage of a core is blank. (DESIGN CHOICE, log 144.) -/
def State.clearChip (s : State) (core : Nat) : State :=
  s.setMem { s.mem with
    bytes := s.mem.bytes.filter fun c => !chipOf core c.1, poison := s.mem.poison.filter fun a => !chipOf core a }

/-- Counts of waiting turned from the cycle they began at into cycles counted, or back. -/
def Thread.turn (t : Thread) (now : Nat) : Thread :=
  let f (st : TState) : TState := match st with
    | .rendezvous n => .rendezvous (now - n)
    | st => st
  { t with st := f t.st, waited := t.waited.map f }

def State.turnCounts (s : State) (cores : List Nat) : State :=
  { s with fab := { s.fab with
    threads := Map.mapVals (fun k t => if cores.contains (coreOf k) then t.turn s.now else t) s.fab.threads,
    cores := Map.mapVals (fun i x => if cores.contains i then
      { x with cleats := Map.mapVals (fun _ c => { c with first := s.now - c.first }) x.cleats } else x) s.fab.cores } }

/-- Copies that hold a scoreboard entry of a core of the context. -/
def State.holdingCopies (s : State) (cores : List Nat) : List Copy :=
  s.eng.copies.filter fun x => cores.any fun i => (s.core i).ranges.any fun r => !r.faulted && r.copy == x.num

/-- Whether a pull of the context has an item that it has still to write. -/
def State.pullsWrite (s : State) (c : Nat) : Bool :=
  s.eng.wqs.any fun w => w.2.pulls.any fun p => p.ctx == c && p.item.isSome

/-- The end of a context kick. -/
def State.kickEnd (s : State) (result : Nat) : State :=
  { s with kick := { s.kick with run := none, result := BitVec.ofNat 3 result, kseq := s.kick.kseq + 1 } }

/-- Steps 2 to 5: data caches and L1 TLBs are emptied, the core blocks written, the context's fault-buffer entries removed,
and its cores freed. (DEDUCED, log 93, 97, 148; DESIGN CHOICE, log 150.) -/
def State.saveContext (s : State) (c : Nat) : State :=
  let cores := (s.ctx c).cores
  let s1 := cores.foldl (fun s i => (s.flushCore i).tlbDrop fun e => e.place == i) s.settleOwed
  let images := cores.map s1.coreImage
  let s2 := cores.foldl (fun s i => s.clearChip i) (s1.turnCounts cores)
  let m : Renumber :=
    { ctx := c, core := fun i => if cores.contains i then savedCore c i else i, cluster := fun cl => 16 * (1 + c) + cl }
  let s3 := (List.range Config.clusters).foldl (fun s cl => s.clearFaults cl c) (s2.renumber m)
  let s4 := s3.setMem { s3.mem with walks := s3.mem.walks.filter fun w => w.ctx != c }
  let s5 := s4.modCtx c fun x => { x with resident := false, saving := false, image := images }
  let s6 := (s5.usageRecord (s5.worldOf c) c 3).send (.report 5 cores)
  if s6.kick.run == some (c, 1) then s6.kickEnd 0 else s6

/-- CONTEXT_SAVE: once every core has halted and, as step 1 has it, every copy that holds a scoreboard entry has ended; one
that is parked fails. -/
def execContextSave (ctx : Nat) (s : State) : Outcome :=
  let x := s.ctx ctx
  .next (if !x.resident || !x.saving || !(x.cores.all fun i => (s.core i).halted) then s
    else
      let s1 := (s.holdingCopies x.cores).foldl (fun s y => s.failParked y) s
      if !(s1.holdingCopies x.cores).isEmpty || s1.pullsWrite ctx then s1 else s1.saveContext ctx)

/-! ### Restore (R387) -/

/-- The bytes of the overlay that a segment holds: from the memory that it was fetched from, or from the image of a near-data
kernel. -/
def State.overlay (s : State) (c core n : Nat) : State × Acc :=
  let g := s.seg core n
  let len := 12 * g.packets
  let near := match (s.core core).kernel with
    | some (a, _) => n == 0 && a.getLsbD 63
    | none => false
  if near then
    let a := g.src.toNat - 64
    match (s.world (a / 2 ^ 32 % 2 ^ 31)).images.find? fun i => i.num == a % 2 ^ 32 with
    | some i => (s, .ok ((i.bytes.drop 64).take len))
    | none => (s, .fail 13)
  else s.engineReads (clusterOf core) c g.src (lineParts g.src.toNat len)

/-- The overlay of a segment as a restore reads it: its bytes, or the status of a read that fails. -/
structure Landing where
  core : Nat
  seg : Nat
  data : List Byte ⊕ Nat

/-- Reads the overlays of segments. None is answered when one cannot be read yet: a line waits for back-invalidations, or a
page is not mapped, which is a fault event. (DEDUCED, log 94.) -/
def State.overlays (s : State) (c : Nat) : List (Nat × Nat) → State × Option (List Landing)
  | [] => (s, some [])
  | (core, n) :: r =>
    match s.overlay c core n with
    | (s1, .wait) => (s1, none)
    | (s1, .park v reason) => (s1.engineFault (clusterOf core) core c v 4 reason, none)
    | (s1, .ok bs) => match State.overlays s1 c r with
      | (s2, l) => (s2, l.map fun l => { core := core, seg := n, data := .inl bs } :: l)
    | (s1, .fail st) => match State.overlays s1 c r with
      | (s2, l) => (s2, l.map fun l => { core := core, seg := n, data := .inr st } :: l)

/-- Re-lands a segment; one whose overlay cannot be read is FAILED. (DEDUCED, log 94, 96.) -/
def State.reland (s : State) (x : Landing) : State :=
  match x.data with
  | .inl bs =>
    (toWords bs).zipIdx.foldl (fun s w => s.setChipWord (chipKey 5 x.core (x.seg * 2 ^ 16) + 4 * w.2) w.1) s
  | .inr st => s.setSeg x.core x.seg { s.seg x.core x.seg with st := 3, status := st }

/-- The on-chip bytes of a core block go to a core. -/
def State.placeImage (s : State) (core : Nat) (x : CoreImage) : State :=
  s.setMem { s.mem with
    bytes := x.mem.foldl (fun m c => m.write (chipAt core c.1) c.2) s.mem.bytes,
    poison := x.poison.map (chipAt core) ++ s.mem.poison }

/-- Withdrawn pulls of a context are queued again behind the others, in their old relative order (16_attention R359). -/
def State.requeuePulls (s : State) (c : Nat) : State :=
  let mine (p : Pull) : Bool := p.ctx == c && p.item.isNone
  let wqs := Map.mapVals (fun _ w => { w with pulls := (w.pulls.filter fun p => !mine p) ++ w.pulls.filter mine }) s.eng.wqs
  wqs.foldl (fun s w => w.2.pulls.foldl (fun s _ => s.wqAssign w.1) s) (s.setEng { s.eng with wqs := wqs })

/-- Whether a context can be restored onto cores: as many, all free, cores of one cluster in one, and the numbers of its rig
records free there. -/
def State.fits (s : State) (c : Nat) (m : Renumber) (onto : List Nat) : Bool :=
  let old := (s.ctx c).cores
  onto.length == old.length && onto.eraseDups.length == onto.length &&
    (onto.all fun i => decide (i < Config.cores) && (s.core i).ctx.isNone && s.ctxs.all fun p =>
      !(p.2.created && p.2.resident && p.2.cores.contains i)) &&
    ((old.zip onto).all fun x => (old.zip onto).all fun y => clusterOf x.1 != clusterOf y.1 || clusterOf x.2 == clusterOf y.2) &&
    (let mine := (s.fab.rigs.filter fun p => p.2.st.isSome && p.2.context == c).map fun p => m.rig p.1
     mine.eraseDups.length == mine.length && mine.all fun r => (s.rig r).st.isNone)

/-- How the cores of a saved context become those of a list. -/
def restoreOnto (c : Nat) (old onto : List Nat) : Renumber :=
  let pairs := old.zip onto
  { ctx := c,
    core := fun i => match pairs.find? fun x => savedCore c x.1 == i with
      | some x => x.2
      | none => i,
    cluster := fun cl => match pairs.find? fun x => 16 * (1 + c) + clusterOf x.1 == cl with
      | some x => clusterOf x.2
      | none => cl }

/-- A restored thread that is eligible takes cause 0x14 before its next issue where a quota had pre-empted its context
(R380). -/
def State.quotaTraps (s : State) (cores : List Nat) (kind : Nat) : State :=
  { s with fab := { s.fab with threads := Map.mapVals (fun k t =>
    if cores.contains (coreOf k) && t.st == .eligible then { t with quotaTrap := some kind } else t) s.fab.threads } }

/-- The periodic usage records of a world count from the moment at which one of its contexts becomes resident (19_trust
R415). -/
def State.startPeriod (s : State) (c : Nat) : State :=
  let w := s.worldOf c
  if (s.contextsOf w).any fun d => d != c && (s.ctx d).resident then s
  else s.modWorld w fun x => { x with lastPeriodic := s.ticks.toNat }

/-- The LANDED segments of cores. -/
def State.landed (s : State) (cores : List Nat) : List (Nat × Nat) :=
  cores.flatMap fun i => ((s.core i).segs.filter fun g => g.2.st == 2).map fun g => (i, g.1)

/-- A saved context comes back onto cores, its segments with the overlays read: parked parties are released in every cluster
(12_translation R274). -/
def State.restoreContext (s : State) (c : Nat) (m : Renumber) (onto : List Nat) (lands : List Landing) : State :=
  let x := s.ctx c
  let s1 := (s.renumber m).modCtx c fun x => { x with resident := true, cores := onto, image := [], exhausted := none }
  let s2 := (onto.zip x.image).foldl (fun s p => s.placeImage p.1 p.2) (s1.turnCounts onto)
  let s3 := lands.foldl State.reland
    (onto.foldl (fun s i => s.modCore i fun v => { v with preempt := false, halted := false }) s2)
  let s4 := match x.exhausted with
    | some k => s3.quotaTraps onto k
    | none => s3
  let s5 := ((List.range Config.clusters).foldl (fun s cl => s.replayIn cl c) s4).requeuePulls c
  let s6 := s5.startPeriod c
  s6.usageRecord (s6.worldOf c) c 4

/-- CONTEXT_RESTORE: firmware restores a saved context onto cores. One that fails its checks is refused, and a record of type 6
tells the host; its unit and index are free values. (DESIGN CHOICE, log 2, 95; DEDUCED, log 94.) -/
def execContextRestore (ctx : Nat) (onto : List Nat) (intact : Bool) (s : State) : Outcome :=
  let x := s.ctx ctx
  let m := restoreOnto ctx x.cores onto
  let asked := s.kick.run == some (ctx, 2)
  .next (if !x.created || x.resident || s.overQuota ctx then s
    else if !intact then
      let s1 := { s with fresh := s.fresh + 2 }
      let s2 := s1.postRecord 6 0 (some ctx) 0 [Config.freeWord s.fresh, Config.freeWord (s.fresh + 1)]
      if asked then s2.kickEnd 4 else s2
    else if !s.fits ctx m onto then s
    else
      let t := s.renumber m
      match t.overlays ctx (t.landed onto) with
      | (u, none) => { s with mem := u.mem, out := u.out }
      | (u, some lands) =>
        let s1 := { s with mem := u.mem, out := u.out }.restoreContext ctx m onto lands
        if asked then s1.kickEnd 0 else s1)

/-! ### The context kick (R422, Table 20-4) -/

/-- GO of an action: it is ignored with ERR while a command runs; an action that cannot begin ends at once. -/
def State.kick1 (s : State) (f : State → State) : State :=
  if s.kick.run.isSome then { s with kick := { s.kick with err := true } } else f s

/-- PREEMPT of context `c`: it ends when the context block has been written. -/
def State.kickPreempt (s : State) (c : Nat) : State :=
  let x := s.ctx c
  if !x.created then s.kickEnd 1
  else if !x.resident then s.kickEnd 2
  else
    let s1 := { s with kick := { s.kick with run := some (c, 1) } }
    if x.saving then s1 else s1.preempt c

/-- RESTORE of context `c`: firmware is asked. -/
def State.kickRestore (s : State) (c : Nat) : State :=
  let x := s.ctx c
  if !x.created then s.kickEnd 1
  else if x.resident then s.kickEnd 2
  else if s.overQuota c then s.kickEnd 3
  else { s with kick := { s.kick with run := some (c, 2) } }

/-- REPLAY of context `c` in the clusters named, or wherever it is resident. -/
def State.kickReplay (s : State) (c : Nat) (clusters : BitVec 14) : State :=
  let x := s.ctx c
  if !x.created then s.kickEnd 1
  else
    let named := if clusters == 0 then s.clustersOf c else (List.range Config.clusters).filter fun k => clusters.toNat.testBit k
    ((named.filter fun k => s.residentIn k c).foldl (fun s cl => s.replayIn cl c) s).kickEnd 0

/-- The registers of a kick. -/
def State.kickSet (s : State) (c action : Nat) (clusters : BitVec 14) : State :=
  { s with kick := { s.kick with ctx := BitVec.ofNat 6 c, action := BitVec.ofNat 2 action, clusters := clusters } }

def execKickPreempt (ctx : Nat) (s : State) : Outcome :=
  .next (s.kick1 fun s => (s.kickSet ctx 1 s.kick.clusters).kickPreempt (ctx % 64))

def execKickRestore (ctx : Nat) (s : State) : Outcome :=
  .next (s.kick1 fun s => (s.kickSet ctx 2 s.kick.clusters).kickRestore (ctx % 64))

def execKickReplay (ctx : Nat) (clusters : BitVec 14) (s : State) : Outcome :=
  .next (s.kick1 fun s => (s.kickSet ctx 3 clusters).kickReplay (ctx % 64) clusters)

/-! ### Yard-time (19_trust R412) -/

/-- Yard slots in VALID of a world's contexts on the device's cores. -/
def State.validYards (s : State) (w : Nat) : Nat :=
  (s.fab.yards.filter fun p => decide (yardCore p.1 < Config.cores) && p.2.bind.valid &&
    s.worldOf (p.2.bind.context.toNat) == w).length

/-- A core cycle adds the yard slots in VALID of each world's contexts to the yard-time not yet folded in. -/
def State.countYards (s : State) : State :=
  let ws := (s.ctxs.filterMap fun p => if p.2.created then some p.2.world.toNat else none).eraseDups
  let more := ws.foldl (fun m w =>
    let n := s.validYards w
    if n == 0 then m else Map.set m w (Map.getD m w 0 + n)) s.trust.unfolded
  s.setTrust { s.trust with unfolded := more }

/-- QUOTA_FOLD: every 1,024 core cycles, the yard-time counted since the last fold is folded into USED. -/
def execQuotaFold (s : State) : Outcome :=
  .next (if s.now < s.trust.lastFold + 1024 then s
    else
      let s1 := s.setTrust { s.trust with lastFold := s.now, unfolded := [] }
      s.trust.unfolded.foldl (fun s p => s.charge p.1 0 p.2) s1)

end Sys2Proof.Machine
end

