-- ==== Sys2Proof/Machine/Trust.lean ====
section
/-! DEFINITION. Trust commands (19_trust R395 to R397, R403, R407, R409, R412 to R416), near-data tags (R410), and the near-data
sessions of a TD9-H. -/

namespace Sys2Proof.Machine

/-! ### The command block (R396) -/

def State.setCmd (s : State) (t : Trust) : State := s.setTrust { s.trust with cmd := t }

/-- A command begins: the registers of its GO, and the command that runs. -/
def State.trustBegin (s : State) (w code : Nat) : State :=
  let t := s.trust.cmd
  s.setCmd { t with
    world := BitVec.ofNat 6 w, code := BitVec.ofNat 8 code,
    run := some { code := code, world := w % 64, arg0 := t.arg0, arg1 := t.arg1, arg2 := t.arg2 } }

/-- The command that runs completes, or is refused with a code. (DEDUCED, log 105.) -/
def State.trustEnd (s : State) (errc : Nat) : State :=
  let t := s.trust.cmd
  s.setCmd { t with run := none, errc := BitVec.ofNat 7 errc, cseq := t.cseq + 1 }

/-- DEDUCED, log 105. -/
def State.setOut (s : State) (v : DWord) : State := s.setCmd { s.trust.cmd with out := v }

/-- A command is run: one that its GO names now, or one that runs already and waits. While another runs, it is ignored. -/
def State.trustRun (s : State) (code w : Nat) (f : State → TrustRun → State) : State :=
  match s.trust.cmd.run with
  | none =>
    let s1 := s.trustBegin w code
    match s1.trust.cmd.run with
    | none => s1
    | some r => f s1 r
  | some r => if r.code == code && r.world == w % 64 then f s r else s

/-- Whether the trust core has an identity (R399). (DEDUCED, log 104.) -/
def State.noIdentity (s : State) : Bool := !s.trust.ident.present

def State.isLive (s : State) (w : Nat) : Bool := (s.world w).st == .live

/-- Bytes of host memory, as the trust core reads them. -/
def State.hostBytes (s : State) (a : DWord) (n : Nat) : List Byte := bytesBy s.homeWord a.toNat n

/-- A number of `n` bytes of host memory, the first byte lowest. -/
def State.hostNat (s : State) (a : DWord) (n : Nat) : Nat := natOf (s.hostBytes a n)

/-! ### Worlds (R395, R397) -/

/-- CREATE. (DEDUCED, log 104, 106.) -/
def State.createWorld (s : State) (r : TrustRun) : State :=
  if s.noIdentity then s.trustEnd 9
  else if r.world < 2 then s.trustEnd 1
  else if (s.world r.world).st != .free then s.trustEnd 2
  else
    let (s1, keys) := s.drawKeys
    (s1.setWorld r.world { World.init with
      st := .live, keys := some keys, authority := BitVec.ofNat 768 (s.hostNat r.arg0 96),
      limit := List.replicate 4 (BitVec.allOnes 64) }).trustEnd 0

def execCreate (w : Nat) (s : State) : Outcome := .next (s.trustRun 1 w State.createWorld)

/-- No holder has a line of these pages any more; `false` while back-invalidations are outstanding. -/
def State.pagesReady (s : State) (pages : List Nat) : State × Bool :=
  pages.foldl (fun acc pp =>
    let (s2, go) := acc.1.pageReady pp false
    (s2, acc.2 && go)) (s, true)

/-- Releases pages as POTSET RELEASE does; none while back-invalidations are outstanding. -/
def State.releasePages (s : State) (pages : List Nat) : State × Bool :=
  let (s1, ok) := s.pagesReady pages
  if ok then (pages.foldl (fun s pp => s.releasePage pp) s1, true) else (s1, false)

/-- The pages of a world. -/
def State.pagesOfWorld (s : State) (w : Nat) : List Nat :=
  s.mem.pot.filterMap fun p => if p.2.world.toNat == w then some p.1 else none

/-- DESTROY. -/
def State.destroyWorld (s : State) (r : TrustRun) : State :=
  let x := s.world r.world
  if r.world < 2 then s.trustEnd 1
  else if x.st == .free then s.trustEnd 2
  else if !(s.contextsOf r.world).isEmpty then s.trustEnd 3
  else
    let s1 := s.setWorld r.world { x with st := .closing }
    let (s2, ok) := s1.releasePages (s1.pagesOfWorld r.world)
    if !ok then s2
    else
      let s3 := s2.modWorld r.world fun x => { x with keys := none, nextKeys := none, sp := none }
      let s4 := s3.usageRecord r.world 0 9
      (s4.modWorld r.world fun x => { x with st := .free, images := [], allowed := [] }).trustEnd 0

def execDestroy (w : Nat) (s : State) : Outcome := .next (s.trustRun 2 w State.destroyWorld)

/-! ### Pages (R397, codes 3 and 12) -/

/-- Gives a page to a world: it is zeroed, and unbound. (DEDUCED, log 115.) -/
def State.givePage (s : State) (w pp : Nat) : State :=
  let s1 := ((s.tlbDrop fun x => decide (x.ppn ≤ pp) && decide (pp < x.ppn + sizePages x.size)).zeroPage pp).setPot pp
    { s.potAt pp with world := BitVec.ofNat 6 w, bound := false }
  if w == 0 then s1 else s1.charge w 3 1

/-- How far an ASSIGN to a world goes from a page on, when `used` extents are counted already, and the refusal that stops it. -/
def State.assignPlan (s : State) (w pp used : Nat) : Nat → Nat × Nat
  | 0 => (0, 0)
  | n + 1 =>
    let e := s.potAt pp
    if e.sys || e.world != 0 || !s.isDev (pp * 4096) then (0, 4)
    else if ((s.world w).limit.getD 3 0).toNat < used + 1 then (0, 5)
    else
      let r := State.assignPlan s w (pp + 1) (used + 1) n
      (r.1 + 1, r.2)

/-- How far a RECLAIM goes from a page on: any page that is not SYS is released. -/
def State.reclaimPlan (s : State) (pp : Nat) : Nat → Nat × Nat
  | 0 => (0, 0)
  | n + 1 =>
    if (s.potAt pp).sys || !s.isDev (pp * 4096) then (0, 4)
    else
      let r := State.reclaimPlan s (pp + 1) n
      (r.1 + 1, r.2)

/-- Acts on the pages of a plan once no holder has a line of them, and ends the command. -/
def State.pageCmd (s : State) (pp : Nat) (plan : Nat × Nat) (f : State → Nat → State) : State :=
  let pages := (List.range plan.1).map (pp + ·)
  let (s1, ok) := s.pagesReady pages
  if !ok then s1 else ((pages.foldl f s1).setOut (BitVec.ofNat 64 plan.1)).trustEnd plan.2

/-- ASSIGN. -/
def State.assignPages (s : State) (r : TrustRun) : State :=
  let pp := r.arg0.toNat / 4096
  if r.arg0.toNat % 4096 != 0 then s.trustEnd 1
  else if !s.isLive r.world then s.trustEnd 2
  else s.pageCmd pp (s.assignPlan r.world pp ((s.world r.world).used.getD 3 0).toNat r.arg1.toNat) fun s p => s.givePage r.world p

def execAssign (w : Nat) (s : State) : Outcome := .next (s.trustRun 3 w State.assignPages)

/-- RECLAIM. -/
def State.reclaimPages (s : State) (r : TrustRun) : State :=
  let pp := r.arg0.toNat / 4096
  if r.arg0.toNat % 4096 != 0 then s.trustEnd 1
  else s.pageCmd pp (s.reclaimPlan pp r.arg1.toNat) fun s p => s.releasePage p

def execReclaim (w : Nat) (s : State) : Outcome := .next (s.trustRun 12 w State.reclaimPages)

/-! ### Quotas, rotation, records (R407, R412 to R416) -/

/-- QUOTA: usage event 6, the LIMIT, and what exhaustion it brings. -/
def State.setQuota (s : State) (r : TrustRun) : State :=
  let k := r.arg0.toNat
  if 4 ≤ k then s.trustEnd 1
  else if !s.isLive r.world then s.trustEnd 2
  else
    let used := (s.world r.world).used.getD k 0
    let s1 := (s.usageRecord r.world 0 6).metered r.world fun x => { x with limit := x.limit.set k r.arg1 }
    (s1.setOut used).trustEnd 0

def execQuota (w : Nat) (s : State) : Outcome := .next (s.trustRun 4 w State.setQuota)

/-- ROTATE. -/
def State.rotateWorld (s : State) (r : TrustRun) : State :=
  if r.world == 0 then s.trustEnd 1
  else if !s.isLive r.world then s.trustEnd 2
  else if (s.world r.world).sp.isSome || 4 ≤ s.sweeps then s.trustEnd 6
  else (s.startSweep r.world).trustEnd 0

def execRotate (w : Nat) (s : State) : Outcome := .next (s.trustRun 5 w State.rotateWorld)

/-- A line that a sweep passes is read under the old generation and written under the new one; one of integrity mode counts the
write (R407). (DESIGN CHOICE, log 53.) -/
def State.sweepLine (s : State) (mode : BitVec 2) (line : Nat) : State :=
  let s1 := (s.channelRead line).channelWrite line
  if mode == 2 then s1.countLine line else s1

/-- A sweep of a world passes the lines from one address up to another: those of its encrypted pages, as they are at this moment
(R407). -/
def State.sweepLines (s : State) (w lo hi : Nat) : State :=
  let pages := s.mem.pot.filter fun p => p.2.world.toNat == w && p.2.bound && (p.2.mode == 1 || p.2.mode == 2)
  pages.foldl (fun s p => (List.range 64).foldl (fun s i =>
    let line := p.1 * 4096 + 64 * i
    if lo ≤ line && line < hi then s.sweepLine p.2.mode line else s) s) s

/-- KEY_SWEEP_COMPLETE: the sweep of a world passes a number of lines, or all that remain; past the last line of device memory the old keys are
erased, KGEN advances, and usage event 8 is recorded. -/
def execKeySweepComplete (sweep : Nat × Nat) (s : State) : Outcome :=
  let (w, lines) := sweep
  let x := s.world w
  .next (match x.sp with
    | none => s
    | some lo =>
      let hi := if lines == 0 then s.devBytes else min s.devBytes (lo + 64 * lines)
      let s1 := s.sweepLines w lo hi
      if hi < s.devBytes then s1.setWorld w { x with sp := some hi }
      else (s1.setWorld w { x with keys := x.nextKeys, nextKeys := none, kgen := x.kgen + 1, sp := none }).usageRecord w 0 8)

/-- CHECKPOINT. -/
def State.checkpointCmd (s : State) (r : TrustRun) : State :=
  if s.noIdentity then s.trustEnd 9
  else if !s.isLive r.world then s.trustEnd 2
  else (s.checkpointNow r.world).trustEnd 0

def execCheckpoint (w : Nat) (s : State) : Outcome := .next (s.trustRun 8 w State.checkpointCmd)

/-- LOG. -/
def State.setLog (s : State) (r : TrustRun) : State :=
  let depth := bitsOf r.arg1.toNat 4 0
  if depth < 4 || 20 < depth then s.trustEnd 1
  else if !s.isLive r.world then s.trustEnd 2
  else (s.modWorld r.world fun x => { x with logRing := some (r.arg0, depth, r.arg2) }).trustEnd 0

def execLog (w : Nat) (s : State) : Outcome := .next (s.trustRun 9 w State.setLog)

/-- USAGE_PERIODIC: 1,000,000 reference-clock ticks after the last, while a context of the world is resident. -/
def execUsagePeriodic (w : Nat) (s : State) : Outcome :=
  let x := s.world w
  let due := x.lastPeriodic + 1000000 ≤ s.ticks.toNat
  .next (if due && (s.contextsOf w).any fun c => (s.ctx c).resident then
      (s.usageRecord w 0 7).modWorld w fun x => { x with lastPeriodic := s.ticks.toNat }
    else s)

/-! ### Images and certificates (R397, R400, R403) -/

/-- A measurement register extended by a digest (R400). -/
def mrExtend (mr d : BitVec 384) : BitVec 384 := sha384 (words384 mr ++ words384 d)

/-- The digest by which MR6 is extended at a registration: over the 48 bytes of SHA-384(image) and one of the world.
(DEDUCED, log 145.) -/
def imageInput (digest : BitVec 384) (w : Nat) : BitVec 384 :=
  sha384Bytes ((words384 digest).flatMap bytesOf ++ [BitVec.ofNat 8 w])

def State.extendMr (s : State) (i : Nat) (d : BitVec 384) : State :=
  let id := s.trust.ident
  s.setTrust { s.trust with ident := { id with mr := id.mr.modify i fun m => mrExtend m d } }

/-- The lowest image number that a world does not use. (DESIGN CHOICE, log 107.) -/
def World.freeImage (x : World) : Nat :=
  ((List.range (x.images.length + 1)).find? fun n => x.images.all fun i => i.num != n).getD 0

/-- REGISTER. (DEDUCED, log 104.) -/
def State.registerImage (s : State) (r : TrustRun) : State :=
  let n := r.arg1.toNat
  let x := s.world r.world
  let code := s.hostBytes r.arg0 n
  let digest := sha384Bytes code
  if s.noIdentity then s.trustEnd 9
  else if n == 0 || 2 ^ 20 < n then s.trustEnd 1
  else if !s.isLive r.world then s.trustEnd 2
  else if !Config.cryptoOk 1 [x.authority.toNat, digest.toNat, s.hostNat r.arg2 96] then s.trustEnd 7
  else
    let image : Image := { num := x.freeImage, digest := digest, bytes := code, order := s.trust.registered }
    let s1 := s.setWorld r.world { x with images := x.images ++ [image] }
    let s2 := s1.setTrust { s1.trust with registered := s1.trust.registered + 1 }
    ((s2.extendMr 6 (imageInput digest r.world)).setOut (BitVec.ofNat 64 image.num)).trustEnd 0

def execRegister (w : Nat) (s : State) : Outcome := .next (s.trustRun 6 w State.registerImage)

/-- Whether a certificate slot is locked (R403). -/
def State.slotLocked (s : State) (n : Nat) : Bool := s.trust.conns.any fun c => c.2.lock == some n

/-- CERT: it waits while its slot is locked. -/
def State.setCert (s : State) (r : TrustRun) : State :=
  let slot := r.arg0.toNat
  let n := r.arg2.toNat
  let id := s.trust.ident
  if slot == 0 || 8 ≤ slot || n == 0 || 2 ^ 16 < n then s.trustEnd 1
  else if s.slotLocked slot then s
  else
    let chain := (n, sha384Bytes (s.hostBytes r.arg1 n))
    (s.setTrust { s.trust with ident := { id with chains := Map.set id.chains slot chain } }).trustEnd 0

def execCert (w : Nat) (s : State) : Outcome := .next (s.trustRun 7 w State.setCert)

/-! ### Near-data sessions (R397, R409) -/

/-- NDALLOW. -/
def State.allowPeer (s : State) (r : TrustRun) : State :=
  if s.noIdentity then s.trustEnd 9
  else if !s.fitX then s.trustEnd 1
  else if !s.isLive r.world then s.trustEnd 2
  else (s.modWorld r.world fun x => { x with allowed := BitVec.ofNat 384 (s.hostNat r.arg0 48) :: x.allowed }).trustEnd 0

def execNdallow (w : Nat) (s : State) : Outcome := .next (s.trustRun 10 w State.allowPeer)

/-- The key KND of a session, from its export master secret. (DESIGN CHOICE, log 14.) -/
def sessionKey (secret : BitVec 384) (world session : Nat) : BitVec 384 :=
  BitVec.ofNat 384 (hkdfExpand secret (ascii "TD9 near-data" ++ [world, session]) 48)

/-- NDOPEN: `peer` is the SHA-384 of the expander's slot 0 leaf key, which must equal the 48 bytes at ARG2, and `accepted`
says that the exchange with it succeeds. -/
def State.openSession (s : State) (r : TrustRun) (session : Nat) (accepted : Bool) (peer : BitVec 384) : State :=
  if s.noIdentity then s.trustEnd 9
  else if s.fitX || 2 ≤ r.arg0.toNat || 64 ≤ r.arg1.toNat then s.trustEnd 1
  else if !s.isLive r.world then s.trustEnd 2
  else if peer != BitVec.ofNat 384 (s.hostNat r.arg2 48) || !accepted then s.trustEnd 8
  else
    let key := sessionKey (Config.freeKey s.fresh) r.arg1.toNat session
    let x : Session := { num := session, world := r.world, key := key, next := 1, last := 0 }
    let s1 := { s with fresh := s.fresh + 1 }
    ((s1.setTrust { s1.trust with nd := x :: s1.trust.nd.filter fun y => y.num != session }).setOut
      (BitVec.ofNat 64 session)).trustEnd 0

def execNdopen (w session : Nat) (accepted : Bool) (peer : BitVec 384) (s : State) : Outcome :=
  .next (s.trustRun 11 w fun s r => s.openSession r (session % 65536) accepted peer)

/-- TRUST_UNKNOWN_COMMAND: the world that a running command names is the one of its GO. -/
def execTrustUnknownCommand (code : Nat) (s : State) : Outcome :=
  let w := (s.trust.cmd.run.map (·.world)).getD s.trust.cmd.world.toNat
  .next (if code == 0 || (13 ≤ code && code ≤ 255) then s.trustRun code w fun s _ => s.trustEnd 1 else s)

/-! ### Near-data tags (R410) -/

def execNearDataTagGo (ctx : Nat) (v : Word) (s : State) : Outcome :=
  .next (s.modCtx ctx fun x => { x with tag := x.tag.go v })

/-- The session that SESSION named at a tag block's GO, when it is bound to the context's world. -/
def State.tagSession (s : State) (ctx : Nat) : Option Session :=
  s.trust.nd.find? fun y => y.num == (s.ctx ctx).tag.under.toNat && y.world == s.worldOf ctx

/-- NEAR_DATA_TAG_DONE: PCTR is the session's next counter, and TAG covers packet bytes 0x04 to 0x2F. (DEDUCED, log 108.) -/
def execNearDataTagDone (ctx : Nat) (s : State) : Outcome :=
  let t := (s.ctx ctx).tag
  .next (if !t.busy then s
    else match s.tagSession ctx with
    | none => s.modCtx ctx fun x => { x with tag := { t with busy := false, err := 12 } }
    | some y =>
      let tag := ndTag y.key ((t.body.drop 1).take 9 ++ words2 y.next)
      let s1 := s.modCtx ctx fun x =>
        { x with tag := { t with busy := false, done := true, err := 0, pctr := y.next, tag := tag } }
      s1.setTrust { s1.trust with nd := s1.trust.nd.map fun z =>
        if z.num == y.num then { z with next := z.next + 1 } else z })

end Sys2Proof.Machine
end

