-- ==== Sys2Proof/Machine/Responder.lean ====
section
/-! DEFINITION. The SPDM responder (19_trust R401 to R403), one connection for each transport: 0 the DOE mailbox, 1 MCTP over
I3C; and dynamic capacity on a TD9-X (20_boundary R425). -/

namespace Sys2Proof.Machine

def State.conn (s : State) (tr : Nat) : Conn := Map.getD s.trust.conns tr Conn.init
def State.setConn (s : State) (tr : Nat) (c : Conn) : State :=
  s.setTrust { s.trust with conns := Map.set s.trust.conns tr c }

/-- A CERT that waited for a lock acts once it is clear (R403). -/
def State.certGoes (s : State) : State :=
  match s.trust.cmd.run with
  | none => s
  | some r => if r.code == 7 then s.setCert r else s

/-- A running hash of a transcript takes in an exchange: the request's code and fields, the response's code, parameter and body.
(DESIGN CHOICE, log 14.) -/
def absorb (t : BitVec 384) (request : Nat) (fields : List Nat) (code param : Nat) (body : List (BitVec 384)) : BitVec 384 :=
  Config.crypto 5 (t.toNat :: request :: code :: param :: fields.length :: (fields ++ body.map BitVec.toNat))

/-- A response leaves, and the connection stands as `c`. (PRESUMED, log 109.) -/
def State.answer (s : State) (tr : Nat) (c : Conn) (code param : Nat) (body : List (BitVec 384)) : State :=
  ((s.setConn tr c).send (.spdm tr code param body)).certGoes

/-- An ERROR that changes neither the state nor the transcript. -/
def State.spdmError (s : State) (tr : Nat) (c : Conn) (code : Nat) : State := s.answer tr c 0x7F code []

/-- ERROR UnexpectedRequest: the transcript is cleared, a pending handshake ends, and the connection goes to NONE. -/
def State.unexpected (s : State) (tr : Nat) : State :=
  s.spdmError tr { s.conn tr with st := .none, vca := 0, m := 0, th := 0, pending := none, lock := none } 4

/-- Near-data sessions end with their SPDM sessions (R409). -/
def State.endSessions (s : State) (ids : List Nat) : State :=
  s.setTrust { s.trust with nd := s.trust.nd.filter fun x => !(s.fitX && ids.contains x.num) }

/-- A signature of the responder under the identity key: r, then s. -/
def State.spdmSign (s : State) (args : List Nat) : List (BitVec 384) :=
  [Config.crypto 1 (s.trust.ident.d.toNat :: args), Config.crypto 2 (s.trust.ident.d.toNat :: args)]

/-- The hash over MR0 to MR7. -/
def State.measSummary (s : State) : BitVec 384 := sha384 (s.trust.ident.mr.flatMap words384)

/-- CHALLENGE_AUTH: CertChainHash, the responder's nonce, the measurement summary and the signature over the M2 transcript; the
slot's lock clears. (DESIGN CHOICE, log 110.) -/
def State.challengeAuth (s : State) (tr : Nat) : State :=
  let c := s.conn tr
  match c.chal with
  | none => s
  | some (slot, nonce) =>
    let chain := Map.getD s.trust.ident.chains slot (0, 0)
    let head := [chain.2, Config.freeKey s.fresh, s.measSummary]
    let sign := s.spdmSign [(absorb c.m 0x83 [slot, nonce.toNat] 0x03 slot head).toNat]
    State.answer { s with fresh := s.fresh + 1 } tr { c with chal := none, lock := none, m := c.vca } 0x03 slot (head ++ sign)

/-- GET_VERSION (0x84): VERSION has one entry, 1.2. (PRESUMED, log 109.) -/
def execGetVersion (tr : Nat) (s : State) : Outcome :=
  let s1 := s.challengeAuth tr
  .next (if 2 ≤ tr then s
    else (s1.endSessions (s1.conn tr).sessions).answer tr
      { Conn.init with st := .versioned, vca := absorb 0 0x84 [] 0x04 0 [0x1200] } 0x04 0 [0x1200])

/-- A request that the connection takes in one state only, in the course of the negotiation; its answer's body is `body`. -/
def State.negotiation (s : State) (tr : Nat) (wellFormed : Bool) (at_ after : SpdmState) (request code : Nat)
    (body : List (BitVec 384)) : State :=
  let s1 := s.challengeAuth tr
  let c := s1.conn tr
  if 2 ≤ tr then s
  else if c.st != at_ then s1.unexpected tr
  else if !wellFormed then s1.spdmError tr { c with lock := none } 1
  else
    let t := absorb c.vca request [] code 0 body
    s1.answer tr { c with st := after, lock := none, vca := t, m := t, th := t } code 0 body

/-- The capability flags of R401: CERT, CHAL, MEAS with signatures, ENCRYPT, MAC and KEY_EX. (PRESUMED, log 109.) -/
def spdmFlags : BitVec 384 := 0x2D6

/-- The algorithms of R401: DMTF measurements, SHA-384 for them, ECDSA P-384, SHA-384, secp384r1 and AES-256-GCM, each as its
bit. (PRESUMED, log 109.) -/
def spdmAlgorithms : List (BitVec 384) := [0x01, 0x04, 0x80, 0x02, 0x10, 0x02]

/-- PRESUMED, log 109. -/
def execGetCapabilities (tr : Nat) (wellFormed : Bool) (s : State) : Outcome :=
  .next (s.negotiation tr wellFormed .versioned .caps 0xE1 0x61 [spdmFlags])

/-- PRESUMED, log 109. -/
def execNegotiateAlgorithms (tr : Nat) (wellFormed : Bool) (s : State) : Outcome :=
  .next (s.negotiation tr wellFormed .caps .ready 0xE3 0x63 spdmAlgorithms)

/-- A request of state READY: without an identity it gets ERROR Unspecified; a malformed one changes nothing, and any other ends
a pending handshake. The locked slot that it leaves standing is `keep`. A CHALLENGE that is being answered is answered first.
(DEDUCED, log 111.) -/
def State.readyRequest (s0 : State) (tr : Nat) (wellFormed : State → Bool) (keep : Option Nat) (f : State → Conn → State) :
    State :=
  let s := s0.challengeAuth tr
  let c := s.conn tr
  let held := if keep.isSome && c.lock == keep then keep else none
  if 2 ≤ tr then s0
  else if s.noIdentity then s.spdmError tr { c with lock := held } 5
  else if c.st != .ready then s.unexpected tr
  else if !wellFormed s then s.spdmError tr { c with lock := held } 1
  else f s { c with pending := none, lock := held }

/-- The mask of certificate slots that hold a chain, and their digests in order. -/
def State.slotMask (s : State) : Nat := (s.trust.ident.chains.map fun p => 2 ^ p.1).sum

/-- An answer of the certificate exchanges, which M1/M2 takes in. -/
def State.certAnswer (s : State) (tr : Nat) (c : Conn) (request : Nat) (fields : List Nat) (code param : Nat)
    (body : List (BitVec 384)) : State :=
  s.answer tr { c with m := absorb c.m request fields code param body } code param body

def execGetDigests (tr : Nat) (wellFormed : Bool) (s : State) : Outcome :=
  .next (s.readyRequest tr (fun _ => wellFormed) none fun s c =>
    s.certAnswer tr c 0x81 [] 0x01 s.slotMask (s.trust.ident.chains.map fun p => p.2.2))

/-- GET_CERTIFICATE (0x82): a portion of a chain; one from offset 0 locks the slot, and the last one frees it. -/
def execGetCertificate (tr : Nat) (wellFormed : Bool) (slot offset length : Nat) (s : State) : Outcome :=
  let keep := if offset == 0 then none else some slot
  let chain (s : State) := Map.find? s.trust.ident.chains slot
  .next (s.readyRequest tr (fun s => wellFormed && (chain s).any fun x => decide (offset ≤ x.1)) keep fun s c =>
    let x := (chain s).getD (0, 0)
    let part := min length (x.1 - offset)
    let lock := if x.1 - offset == part then none else if offset == 0 then some slot else c.lock
    s.certAnswer tr { c with lock := lock } 0x82 [offset, length] 0x02 slot [Config.crypto 6 [x.2.toNat, offset, part],
      BitVec.ofNat 384 part, BitVec.ofNat 384 (x.1 - offset - part)])

/-- CHALLENGE (0x83): the request locks its slot, and the next such event of the transport is its answer.
(DESIGN CHOICE, log 110.) -/
def execChallenge (tr : Nat) (wellFormed : Bool) (slot : Nat) (nonce : BitVec 256) (s : State) : Outcome :=
  .next (if (s.conn tr).chal.isSome then s.challengeAuth tr
    else s.readyRequest tr (fun s => wellFormed && (Map.find? s.trust.ident.chains slot).isSome) none fun s c =>
      (s.setConn tr { c with lock := some slot, chal := some (slot, nonce) }).certGoes)

/-- GET_MEASUREMENTS (0xE0): index 0 asks how many blocks there are, 1 to 8 name MR0 to MR7, and 0xFF all of them. The signature
covers the L2 transcript. (PRESUMED, log 109.) -/
def execGetMeasurements (tr : Nat) (wellFormed : Bool) (index : Nat) (s : State) : Outcome :=
  .next (s.readyRequest tr (fun _ => wellFormed && (decide (index ≤ 8) || index == 0xFF)) none fun s c =>
    let mr := s.trust.ident.mr
    let l := if index == 0 then [] else if index ≤ 8 then [mr.getD (index - 1) 0] else mr
    let param := if index == 0 then 8 else index
    s.answer tr { c with m := c.vca } 0x60 param (l ++ s.spdmSign [(absorb c.vca 0xE0 [index] 0x60 param l).toNat]))

/-- Sessions open or pending on the device. -/
def State.openCount (s : State) : Nat :=
  (s.trust.conns.map fun p => p.2.sessions.length + b2n p.2.pending.isSome).sum

/-- The lowest session number of the responder that no session has, open or pending. (DESIGN CHOICE, log 107.) -/
def State.freeSession (s : State) : Nat :=
  ((List.range 65536).find? fun n => s.trust.conns.all fun p =>
    !(p.2.sessions.contains n || p.2.pending.any fun x => x.1 == n)).getD 0

/-- Whether a near-data session towards a world is accepted from a peer (R409). -/
def State.acceptsPeer (s : State) (w : Nat) (peer : BitVec 384) : Bool :=
  s.fitX && s.isLive w && (s.world w).allowed.contains peer

/-- KEY_EXCHANGE (0xE4): the handshake of a new session is pending; TH takes in the exchange, and the signature covers it. A
near-data session that is not accepted gets an ERROR whose code is a free value.
(DESIGN CHOICE, log 112; PRESUMED, log 109.) -/
def execKeyExchange (tr : Nat) (wellFormed : Bool) (session : Nat) (ndWorld : Option Nat) (peer : BitVec 384) (s : State) :
    Outcome :=
  .next (s.readyRequest tr (fun _ => wellFormed) none fun s c =>
    let s0 := s.setConn tr c
    if 16 ≤ s0.openCount then s0.spdmError tr c 0x0A
    else if (match ndWorld with
      | none => true
      | some w => s0.acceptsPeer w peer) then
      let n := s0.freeSession
      let th := absorb c.vca 0xE4 [session, peer.toNat] 0x64 session [BitVec.ofNat 384 n]
      s0.answer tr { c with pending := some (n, ndWorld), m := c.vca, th := th } 0x64 session
        (BitVec.ofNat 384 n :: s0.spdmSign [th.toNat])
    else State.spdmError { s0 with fresh := s0.fresh + 1 } tr c ((Config.freeWord s0.fresh).toNat % 256))

/-- FINISH (0xE5): the pending session is established, or ends. (DESIGN CHOICE, log 112.) -/
def execFinish (tr : Nat) (wellFormed verified : Bool) (s0 : State) : Outcome :=
  let s := s0.challengeAuth tr
  let c := { s.conn tr with lock := none }
  .next (if 2 ≤ tr then s0
    else if s.noIdentity then s.spdmError tr c 5
    else match (if c.st == .ready then c.pending else none) with
    | none => s.unexpected tr
    | some (n, nd) =>
      if !wellFormed then s.spdmError tr c 1
      else if !verified then s.spdmError tr { c with pending := none } 6
      else
        let s1 := match nd with
          | none => s
          | some w =>
            let x : Session := { num := n, world := w, key := sessionKey (Config.freeKey s.fresh) w n, next := 1, last := 0 }
            let s1 := { s with fresh := s.fresh + 1 }
            s1.setTrust { s1.trust with nd := x :: s1.trust.nd.filter fun y => y.num != n }
        s1.answer tr { c with pending := none, sessions := c.sessions ++ [n], th := absorb c.th 0xE5 [] 0x65 0 [] } 0x65 0 [])

/-- SPDM_UNEXPECTED_REQUEST. (DEDUCED, log 111.) -/
def execSpdmUnexpectedRequest (tr : Nat) (s0 : State) : Outcome :=
  let s := s0.challengeAuth tr
  .next (if 2 ≤ tr then s0
    else if s.noIdentity then s.spdmError tr { s.conn tr with lock := none } 5
    else s.unexpected tr)

/-! ### Dynamic capacity (R425) -/

/-- The world that an extent's tag names, when its other bytes are zero. -/
def tagWorld (tag : BitVec 128) : Option Nat := if tag.toNat < 64 then some tag.toNat else none

/-- Blocks of 256 MiB of the dynamic capacity region: their bytes, and their pages. -/
def dcBlock : Nat := 2 ^ 28
def dcPages : Nat := 2 ^ 16

/-- Whether whole blocks lie in the dynamic capacity region: device memory above the static capacity.
(DESIGN CHOICE, log 152.) -/
def State.inDcRegion (s : State) (base pages : Nat) : Bool :=
  base % dcBlock == 0 && pages != 0 && pages % dcPages == 0 && decide (s.trust.ident.dcBase ≤ base) &&
    decide (base + 4096 * pages ≤ s.devBytes)

/-- Whether every page from one on, up to another, has world 0 and SYS 0; an unlisted POT entry has. -/
def State.pagesFree (s : State) (lo hi : Nat) : Bool :=
  s.mem.pot.all fun p => decide (p.1 < lo) || decide (hi ≤ p.1) || (p.2.world == 0 && !p.2.sys)

/-- Whether the device accepts an offered extent. (DESIGN CHOICE, log 152.) -/
def State.extentOk (s : State) (w base pages : Nat) : Bool :=
  let x := s.world w
  s.fitX && s.isLive w && s.inDcRegion base pages && s.pagesFree (base / 4096) (base / 4096 + pages) &&
    decide ((x.used.getD 3 0).toNat + pages ≤ (x.limit.getD 3 0).toNat)

/-- DC_EXTENT_OFFER: the pages of an accepted extent are zeroed and given to the world before the response is sent; its pages
count once in USED. An extent that is not accepted is left out of the response. (DEDUCED, log 115.) -/
def execDcExtentOffer (base pages : Nat) (tag : BitVec 128) (s : State) : Outcome :=
  .next (match tagWorld tag with
    | none => s.send (.report 6 [])
    | some w =>
      if !s.extentOk w base pages then s.send (.report 6 [])
      else
        let l := (List.range pages).map (base / 4096 + ·)
        let (s1, ok) := s.pagesReady l
        if !ok then s1
        else
          let s2 := l.foldl (fun s pp => s.givePage w pp) s1
          (s2.setTrust { s2.trust with extents := (base, pages, w) :: s2.trust.extents }).send (.report 6 [base, pages]))

/-- DC_EXTENT_RELEASE. -/
def execDcExtentRelease (base pages : Nat) (s : State) : Outcome :=
  .next (if !s.trust.extents.any fun x => x.1 == base && x.2.1 == pages then s
    else
      let (s1, ok) := s.releasePages ((List.range pages).map (base / 4096 + ·))
      if !ok then s1
      else (s1.setTrust { s1.trust with extents := s1.trust.extents.filter fun x => !(x.1 == base && x.2.1 == pages) }).send
        (.report 7 [base, pages]))

end Sys2Proof.Machine
end

