-- ==== Sys2Proof/Machine/Power.lean ====
section
/-! DEFINITION. Operating points, power states and package signals (20_boundary R427 to R429, R433, R434, R442), and contexts as
firmware creates and ends them (12_translation R261; 20_boundary step 12). -/

namespace Sys2Proof.Machine

/-! ### Operating points and capping (R427, R428) -/

def State.setPower (s : State) (p : Power) : State := { s with power := p }

/-- OP_CHANGE_COMPLETE: the cluster runs at the point asked of it. -/
def execOpChangeComplete (cluster : Nat) (s : State) : Outcome :=
  .next (if Config.clusters ≤ cluster || s.pointStable cluster then s
    else s.setPower { s.power with points := Map.set s.power.points cluster (s.pointAsked cluster) })

/-- Whether POWER exceeds the envelope, or TEMP 105 °C. -/
def State.excess (s : State) : Bool :=
  decide ((if s.fitX then 750 else 1600) < s.status.power.toNat) || decide (105 * 8 < s.status.temp.toNat)

/-- Whether the next step of capping is due: a millisecond after the last, in ticks of the reference clock.
(DEDUCED, log 123.) -/
def State.capDue (s : State) : Bool := s.power.lastStep.all fun t => decide (t + 100000 ≤ s.ticks.toNat)

/-- POWER_CAP_STEP: every cluster moves one point slower, and CAP is set. (DEDUCED, log 123.) -/
def execPowerCapStep (s : State) : Outcome :=
  let slower := (List.range Config.clusters).map fun cl => (cl, min 3 (max (s.point cl) (Map.getD s.power.capped cl 0) + 1))
  .next (if s.excess && s.capDue then
      s.setPower { s.power with cap := true, capped := slower, coolSince := none, lastStep := some s.ticks.toNat }
    else s)

/-- CAP_CLEAR: the cause has been absent for 10 ms, which are 1,000,000 ticks of the reference clock. -/
def execCapClear (s : State) : Outcome :=
  .next (match s.power.coolSince with
    | none => s
    | some t =>
      if s.power.cap && !s.excess && decide (t + 1000000 ≤ s.ticks.toNat) then
        s.setPower { s.power with cap := false, capped := [], coolSince := none }
      else s)

/-- SENSOR_READING (R442). (DESIGN CHOICE, log 7.) -/
def execSensorReading (temp power : BitVec 16) (s : State) : Outcome :=
  let s1 := { s with status := { s.status with temp := temp, power := power } }
  let cool := if s1.excess then none else some (s1.power.coolSince.getD s1.ticks.toNat)
  .next (s1.setPower { s1.power with coolSince := cool })

/-- THERM_N is asserted above 105 °C (Table 20-10), and ALERT_N while a record waits in a full queue, a start has failed or
THERM_N is asserted (R434). -/
def State.thermN (s : State) : Bool := decide (105 * 8 < s.status.temp.toNat)
def State.alertN (s : State) : Bool := (s.queueFull && s.status.eqlogd != 0) || s.status.state == 3 || s.thermN

/-! ### Power states (R429) -/

/-- Exit latency of a power state in ns (Table 20-7). -/
def exitLatency (st : Nat) : Nat :=
  match st with
  | 0 => 0
  | 1 => 2000
  | 2 => 20000
  | _ => 150000

/-- The deepest package state that a tolerance allows, no deeper than `st`. -/
def allowed (ltol st : Nat) : Nat :=
  if 3 ≤ st && exitLatency 3 ≤ ltol then 3 else if 2 ≤ st && exitLatency 2 ≤ ltol then 2 else 0

/-- A write of LTOL: one below the exit latency of the current state starts an exit, to the deepest state that it allows; one
below that of PS1 brings the gated clusters out. A write during an exit changes the register alone. (DEDUCED, log 116.) -/
def State.writeLtol (s : State) (v : Word) : State :=
  let p := s.power
  let st := p.pstate.toNat
  s.setPower (
    if p.exiting.isSome then { p with ltol := v }
    else if v.toNat < exitLatency st then { p with ltol := v, exiting := some (allowed v.toNat st) }
    else if v.toNat < exitLatency 1 then { p with ltol := v, gated := 0 }
    else { p with ltol := v })

def execLtolWrite (v : Word) (s : State) : Outcome := .next (s.writeLtol v)

/-- Whether a cluster has no yard bound and no copy of its engine in flight (Table 20-7). -/
def State.clusterIdle (s : State) (cl : Nat) : Bool :=
  !(s.fab.yards.any fun p => clusterOf (yardCore p.1) == cl && p.2.bind.valid) && s.inflight cl == 0

/-- CLUSTER_GATE: once the words that its cores own have been written back (R235), an idle cluster enters PS1. -/
def execClusterGate (cluster : Nat) (s : State) : Outcome :=
  let bit := BitVec.ofNat 14 (2 ^ cluster)
  .next (if Config.clusters ≤ cluster || s.power.gated.toNat.testBit cluster || !s.clusterIdle cluster ||
        s.power.ltol.toNat < exitLatency 1 || s.power.exiting.isSome then s
    else
      let s1 := (List.range 4).foldl (fun s i => s.flushCore (4 * cluster + i)) s
      s1.setPower { s1.power with gated := s1.power.gated ||| bit, gatedSince := s1.ticks.toNat })

/-- Whether no engine operation, trust command, handover, RMODE or sweep runs. -/
def State.quietDevice (s : State) : Bool :=
  s.eng.copies.isEmpty && s.eng.ends.isEmpty && s.eng.moves.isEmpty && s.trust.cmd.run.isNone && !s.mem.ho.busy &&
    s.mem.moving.isEmpty && s.sweeps == 0 && s.eng.wqs.all fun w => w.2.pulls.all fun p => p.item.isNone

/-- PS2_ENTRY: every cluster has been in PS1 for 50 µs. -/
def execPs2Entry (s : State) : Outcome :=
  let p := s.power
  .next (if p.pstate == 0 && p.exiting.isNone && p.gated == BitVec.allOnes 14 && s.quietDevice &&
        decide (p.gatedSince + 5000 ≤ s.ticks.toNat) && decide (exitLatency 2 ≤ p.ltol.toNat) then
      s.setPower { p with pstate := 2 }
    else s)

/-- PS3_ENTRY: PS2 holds, and no CXL.mem or CXL.cache request for 100 µs. -/
def execPs3Entry (s : State) : Outcome :=
  let p := s.power
  .next (if p.pstate == 2 && p.exiting.isNone && decide (p.quietSince + 10000 ≤ s.ticks.toNat) &&
        decide (exitLatency 3 ≤ p.ltol.toNat) then s.setPower { p with pstate := 3 }
    else s)

/-- POWER_WAKE: an exit into full power starts, unless one runs already. -/
def execPowerWake (s : State) : Outcome :=
  let p := s.power
  .next (if p.exiting.isSome || (p.pstate == 0 && p.gated == 0) then s else s.setPower { p with exiting := some 0 })

/-- After the self-refresh of PS3 the ticks of every pseudo-channel begin anew. (DEDUCED, log 101.) -/
def State.endSelfRefresh (s : State) : State :=
  if s.power.pstate == 3 then
    s.setMem { s.mem with refresh := Map.mapVals (fun _ r => { r with lastTick := none }) s.mem.refresh }
  else s

/-- POWER_EXIT_DONE: an exit into full power leaves no cluster in PS1. -/
def execPowerExitDone (s : State) : Outcome :=
  let p := s.power
  .next (match p.exiting with
    | none => s
    | some st => s.endSelfRefresh.setPower { p with
        exiting := none, pstate := BitVec.ofNat 2 st, gated := if st == 0 then 0 else p.gated,
        gatedSince := if st == 0 then s.ticks.toNat else p.gatedSince })

/-- A cluster on which a yard is bound or a copy runs leaves PS1. (DEDUCED, log 117.) -/
def State.ungate (s : State) : State :=
  if s.power.gated == 0 then s
  else
    let keep := (List.range Config.clusters).filter fun cl => s.power.gated.toNat.testBit cl && s.clusterIdle cl
    s.setPower { s.power with gated := BitVec.ofNat 14 ((keep.map fun cl => 2 ^ cl).sum) }

/-- What a cluster or an engine has to do wakes the device from a package state (R429). (DEDUCED, log 117.) -/
def State.rouse (s : State) : State :=
  let p := s.power
  if p.pstate != 0 && p.exiting.isNone && !(p.gated == BitVec.allOnes 14 && s.quietDevice) then
    s.setPower { p with exiting := some 0 }
  else s

/-- Reference-clock ticks pass: they are counted for the package state (Table 20-7). (DESIGN CHOICE, log 17.) -/
def State.passTicks (s : State) (n : DWord) : State :=
  let p := s.power
  { s with ticks := s.ticks + n, power :=
      if p.pstate == 2 then { p with res2 := p.res2 + n }
      else if p.pstate == 3 then { p with res3 := p.res3 + n }
      else { p with res0 := p.res0 + n } }

/-- I3C_ENTDAA (R434). -/
def execI3cEntdaa (addr : BitVec 7) (s : State) : Outcome :=
  .next { s with status := { s.status with i3c := some addr } }

/-- The addresses at which the device answers on I3C: the static one, and the dynamic one that ENTDAA has given (R434). -/
def State.i3cAnswers (s : State) (a : BitVec 7) : Bool := a == 0x3A || s.status.i3c == some a

/-- HDM_DECODER_WRITE (R419): ways and granularity that the decoder does not accept change nothing. -/
def execHdmDecoderWrite (port base size ways gran : Nat) (s : State) : Outcome :=
  let ok := [1, 2, 4, 8].contains ways && [256, 512, 1024, 2048, 4096, 8192, 16384].contains gran
  .next (if 2 ≤ port || !ok then s else s.setPort port { s.port port with hdm := some (base, size, ways, gran) })

/-! ### Contexts (R261, R395) -/

/-- Whether firmware refuses a root record (R261). -/
def rootRefused (r0 r1 : DWord) : Bool :=
  let world := bitsOf r1.toNat 5 0
  let tmode := bitsOf r1.toNat 9 8
  bitsOf r0.toNat 63 60 != 0xA || world == 0 || tmode == 3 || (world == 1 && tmode != 0) || bitsOf r1.toNat 63 10 != 0 ||
    bitsOf r1.toNat 7 6 != 0

/-- Cores that no resident context has. -/
def State.coresFree (s : State) (cores : List Nat) : Bool :=
  cores.eraseDups.length == cores.length && cores.all fun i =>
    decide (i < Config.cores) && s.ctxs.all fun p => !(p.2.created && p.2.resident && p.2.cores.contains i)

/-- CONTEXT_CREATED, in a LIVE world, on cores that are free. The accumulators and slices of its cores are zero (14_matrix R313),
and so is their other on-chip storage: nothing of an earlier context is left there. (DESIGN CHOICE, log 144.) -/
def execContextCreated (ctx : Nat) (root0 root1 : DWord) (cores : List Nat) (grants : BitVec 2) (s : State) : Outcome :=
  let w := bitsOf root1.toNat 5 0
  .next (if 64 ≤ ctx || (s.ctx ctx).created || rootRefused root0 root1 || !s.isLive w || cores.isEmpty || !s.coresFree cores then s
    else
      let x : Context := { Context.init with
        created := true, resident := true, mode := root0.extractLsb' 60 4, asid := root0.extractLsb' 44 16,
        ppn := root0.extractLsb' 0 44, tmode := root1.extractLsb' 8 2, world := root1.extractLsb' 0 6, cores := cores,
        statGrant := grants.getLsbD 0, sysGrant := grants.getLsbD 1 }
      let s1 := cores.foldl (fun s i => (s.clearChip i).setCore i { Core.init with ctx := some ctx }) (s.setCtx ctx x)
      (s1.startPeriod ctx).usageRecord w ctx 1)

/-- The tables of a context's cores are emptied, and its rig records freed. -/
def State.dropFabric (s : State) (c : Nat) (cores : List Nat) : State :=
  let out (unit k : Nat) : Bool := !cores.contains (k / unit)
  let f := s.fab
  let gone (l : List Nat) : List Nat := l.filter fun k => out 8192 k
  let fault (x : SetFault) : SetFault := { trapped := gone x.trapped, held := gone x.held, id := x.id, due := gone x.due }
  let s := s.dropLongs (fun y => cores.contains (yardCore y))
  { s with
    fab := { f with
      threads := f.threads.filter fun p => out 8192 p.1, main := f.main.filter fun p => out (8192 * 256) p.1,
      side := f.side.filter fun p => out (128 * 2048) p.1, yards := f.yards.filter fun p => out 128 p.1,
      parts := f.parts.filter fun p => out 8 p.1, cores := f.cores.filter fun p => out 1 p.1,
      rigs := Map.mapVals (fun _ g => if g.st.isSome && g.context == c then { Rig.init with reuse := g.reuse } else g) f.rigs,
      sets := f.sets.map fault, owed := f.owed.filter fun o => out 8192 o.thread,
      snaps := Map.mapVals (fun _ l => l.filter fun p => out (8192 * 256) p.1) f.snaps },
    mem := { s.mem with fetches := s.mem.fetches.filter fun x => !cores.contains x.1 } }

/-- What the engines hold for a context is discarded: attachments, pools, work queues and operations in flight; its task entries
are free, their futures with them (13_async Table 13-10). (DESIGN CHOICE, log 114.) -/
def State.dropEngines (s : State) (c : Nat) : State :=
  let e := s.eng
  s.setEng { e with
    queues := Map.mapVals (fun _ q => if q.att && q.ctx.toNat == c then { q with att := false, parked := none, failed := none } else q)
      e.queues,
    copies := e.copies.filter fun x => x.ctx != c, ends := e.ends.filter fun x => x.ctx != c,
    pools := Map.mapVals (fun _ p => if p.att && p.ctx.toNat == c then { p with att := false, leaving := false } else p) e.pools,
    tasks := Map.mapVals (fun _ t => if t.ctx == c then { t with st := none, fut := none } else t) e.tasks,
    wqs := Map.mapVals (fun _ w =>
      if w.att && w.ctx.toNat == c then { w with att := false, closed := false, count := 0, pulls := [] }
      else { w with pulls := w.pulls.filter fun p => p.ctx != c }) e.wqs }

/-- The launches and task entries of a context fail, with a status that is a free value (13_async Table 13-10).
(DESIGN CHOICE, log 114.) -/
def State.failTasks (s : State) (c : Nat) : State :=
  let status := (Config.freeWord s.fresh).toNat % 64
  let s0 := { s with fresh := s.fresh + 1 }
  let s1 := (s0.eng.launches.filter fun l => l.ctx == c).foldl (fun s l => s.launchEnd l 1 status) s0
  (s1.eng.tasks.filter fun p => p.2.ctx == c && (p.2.st == some .waiting || p.2.st == some .ready || p.2.st == some .running)).foldl
    (fun s p => s.taskDone p.1 1 status) s1

/-- The moves of a context's pools publish before the context ends (16_attention R346, R350); `false` where one has still to wait
for its lines. (DESIGN CHOICE, log 114.) -/
def State.finishMoves (s : State) (c : Nat) : State × Bool :=
  (s.eng.moves.filter fun m => (s.pool m.2.pool).ctx.toNat == c).foldl (fun acc m =>
    let (s1, ok) := acc.1.moveReady m.2
    if ok then (s1.publish m.2, acc.2) else (s1, false)) (s, true)

/-- The end of a context, whose cores keep nothing of it. (DESIGN CHOICE, log 114, 144.) -/
def State.endContext (s : State) (c : Nat) : State :=
  let x := s.ctx c
  let cores := if x.resident then x.cores else x.cores.map (savedCore c)
  let s1 := (s.failTasks c).dropEngines c
  let s2 := (if x.resident then cores else []).foldl (fun s i => s.flushCore i) s1
  let s3 := (List.range Config.clusters).foldl (fun s cl => s.clearFaults cl c) (s2.tlbDrop fun e => e.ctx == c)
  let s4 := s3.setMem { s3.mem with walks := s3.mem.walks.filter fun w => w.ctx != c }
  let s5 := ((if x.resident then cores else []).foldl (fun s i => s.clearChip i) (s4.dropFabric c cores)).usageRecord
    x.world.toNat c 2
  let s6 := s5.setCtx c Context.init
  if (s6.kick.run.map fun r => r.1) == some c then s6.kickEnd 1 else s6

def execContextEnded (ctx : Nat) (s : State) : Outcome :=
  .next (if (s.ctx ctx).created then
      let (s1, ok) := s.finishMoves ctx
      if ok then s1.endContext ctx else s1
    else s)

end Sys2Proof.Machine
end

