-- ==== Sys2Proof/Machine/Boot.lean ====
section
/-! DEFINITION. Starts and the loss of power (20_boundary R430, R431; 19_trust R398 to R400, R404, R406). The digests of what is
measured, the identity key and the slot 0 chain are constants of the part that nothing evaluates (log 14). -/

namespace Sys2Proof.Machine

/-! ### Steps of a start (Table 20-9) -/

/-- The digest of a measured object, by a number of its own. -/
def measured (n : Nat) : BitVec 384 := Config.crypto 10 [n]

/-- The machine without power: all volatile state is lost, and what belongs to the model itself is kept.
(DEDUCED, log 113.) -/
def State.powerless (s : State) : State :=
  { State.reset with
    agenda := s.agenda, focus := s.focus, fresh := s.fresh, fitX := s.fitX, now := s.now, out := s.out,
    fab := { Fabric.init with serial := s.fab.serial } }

def State.setStatus (s : State) (f : Status → Status) : State := { s with status := f s.status }

def State.setIdent (s : State) (f : Identity → Identity) : State :=
  s.setTrust { s.trust with ident := f s.trust.ident }

/-- Runs the steps of a start in order, and stops at the one that fails; STAGE advances as each completes. -/
def State.runSteps (s : State) (failAt : Nat) (steps : List (State → State)) : State :=
  let s1 := steps.zipIdx.foldl (fun s x =>
    if failAt == 0 || x.2 + 1 < failAt then (x.1 s).setStatus fun t => { t with stage := BitVec.ofNat 8 (x.2 + 1) } else s) s
  if failAt == 0 || steps.length < failAt then s1 else s1.setStatus fun t => { t with state := 3 }

/-- Step 14: ready, with or without an identity. -/
def State.startReady (s : State) : State :=
  s.setStatus fun t => { t with state := if s.trust.ident.present then 1 else 2 }

/-- Step 13: both links are trained, and no holder is known behind them yet. (DEDUCED, log 119.) -/
def State.trainLinks (s : State) : State :=
  (List.range 2).foldl (fun s p => s.setPort p { s.port p with linkup := true }) s

/-- Step 8: the firmware of the trust, service and management cores is measured. -/
def State.measureFirmware (s : State) : State :=
  [1, 2, 3].foldl (fun s i => s.extendMr i (measured i)) s

/-- The order n of the P-384 group (R398). (PRESUMED, log 146.) -/
def p384Order : Nat :=
  0xFFFFFFFFFFFFFFFFFFFFFFFFFFFFFFFFFFFFFFFFFFFFFFFFC7634D81F4372DDF581A0DB248B0A77AECEC196ACCC52973

/-- The public key of an identity key, and that of the slot 0 leaf: x, then y. (DESIGN CHOICE, log 14.) -/
def publicKey (d : BitVec 384) : BitVec 384 × BitVec 384 := (Config.crypto 15 [d.toNat], Config.crypto 16 [d.toNat])
/-- DESIGN CHOICE, log 10, 14. -/
def leafKey : BitVec 384 × BitVec 384 := (Config.crypto 17 [], Config.crypto 18 [])

/-- The identity key d and the seal key KS of the decoded PUF response (R398). -/
def identityKey (w : List Word) : BitVec 384 :=
  BitVec.ofNat 384 (hkdfExpand (sha384 w) (ascii "TD9 identity P-384") 56 % (p384Order - 1) + 1)
def sealKey (w : List Word) : BitVec 256 := BitVec.ofNat 256 (hkdfExpand (sha384 w) (ascii "TD9 seal") 32)

/-- Step 2: d and KS from the first of three responses of the PUF array that decodes (R398). (DESIGN CHOICE, log 10.) -/
def State.rebuildKey (s : State) (puf : PufReading) : State :=
  match (puf.responses.take 3).findSome? fun resp => Config.bchDecode resp puf.helper with
  | none => s
  | some w => s.setIdent fun i => { i with present := true, d := identityKey w, ks := sealKey w }

/-- Step 4 but for the identity check: helper data, then the slot 0 chain. -/
def State.measureHelper (s : State) : State :=
  let chain := Map.getD s.trust.ident.chains 0 (0, 0)
  (s.extendMr 5 s.trust.ident.helper).extendMr 5 chain.2

/-- Step 4's identity check: the key was rebuilt, and its public key is the slot 0 leaf's (R399). (DESIGN CHOICE, log 10.) -/
def State.checkIdentity (s : State) : State :=
  s.setIdent fun i => { i with present := i.present && publicKey i.d == leafKey }

/-- World 1's keys (R404). -/
def State.drawWorld1 (s : State) : State :=
  let (s1, keys) := s.drawKeys
  s1.modWorld 1 fun x => { x with keys := some keys }

/-! ### Cold starts -/

/-- The steps of a cold start. (DESIGN CHOICE, log 16, 152.) -/
def coldSteps (puf : PufReading) (dbgen : Bool) (sysPages : List Nat) : List (State → State) :=
  [ fun s => s.extendMr 0 (measured 0),
    fun s => s.rebuildKey puf,
    fun s => s.extendMr 4 (measured 4),
    fun s =>
      let s1 := s.setIdent fun i =>
        { i with helper := sha384 puf.helper, chains := [(0, ((Config.crypto 13 []).toNat % 65537, Config.crypto 12 []))] }
      s1.measureHelper.checkIdentity,
    fun s => (s.setIdent fun i => { i with dbgen := dbgen }).extendMr 7 (sha384Bytes [BitVec.ofNat 8 (b2n dbgen)]),
    fun s => s,
    fun s =>
      let s1 := { s with fresh := s.fresh + 1 }
      let s2 := s1.setIdent fun i =>
        { i with kt := (Config.freeKey s.fresh).setWidth 256, ibase := Config.integrityRange.1,
                 ilimit := Config.integrityRange.2, dcBase := Config.staticCapacity }
      (s2.setMem { s2.mem with counters := [], top := List.replicate 8 0 }).drawWorld1,
    State.measureFirmware,
    fun s =>
      let pot := sysPages.foldl (fun (m : Map Pot) p => Map.set m p { Pot.init with sys := true }) []
      s.setMem { s.mem with pot := pot },
    fun s => s.setMem { s.mem with hc := [] },
    fun s => s,
    fun s => s,
    State.trainLinks,
    State.startReady ]

/-- COLD_START: PWRGD rises on a machine without power, or on one that has not started since reset.
(DESIGN CHOICE, log 10, 11.) -/
def execColdStart (failAt : Nat) (puf : PufReading) (dbgen : Bool) (sysPages : List Nat) (s : State) : Outcome :=
  .next (if s.status.pwrgd && !(s.status.stage == 0 && s.status.state == 0) then s
    else (s.powerless.setStatus fun t => { t with pwrgd := true }).runSteps failAt (coldSteps puf dbgen sysPages))

/-- PWRGD_FALL. (DEDUCED, log 113.) -/
def execPwrgdFall (s : State) : Outcome := .next (s.powerless.setStatus fun t => { t with pwrgd := false })

/-! ### Warm starts -/

/-- Every owned word and every dirty L2 line is written back to memory (R430). (DESIGN CHOICE, log 37.) -/
def State.writeBackAll (s : State) : State :=
  let s1 := (List.range Config.cores).foldl (fun s i => s.flushCore i) s
  let lines := (s1.mem.l2.map fun p => lineAddr p.1).eraseDups
  lines.foldl (fun s l => s.writeLine l) s1

/-- Near-data images of all worlds, in the order of their registration. -/
def State.registrations (s : State) : List (Nat × Image) :=
  let all := s.trust.worlds.flatMap fun p => p.2.images.map fun i => (p.1, i)
  sortBy (fun a b => decide (a.2.order ≤ b.2.order)) all

/-- The registers that a warm start resets: all but those whose reset value is marked cold (R8). (DEDUCED, log 118.) -/
def State.warmRegisters (s : State) : State :=
  let t := s.status
  let m := s.mem
  let e := s.eng
  { s with
    kick := State.reset.kick,
    power := { Power.init with res0 := s.power.res0, res2 := s.power.res2, res3 := s.power.res3 },
    status := { t with stage := 0, state := 0, sdid := 0 },
    mem := { m with
      sd := Mem.init.sd, ho := Mem.init.ho, ports := Map.mapVals (fun _ p => { Port.init with hdm := p.hdm }) m.ports,
      refresh := Map.mapVals (fun _ r => { Refresh.init with
        rstall := r.rstall, postp := r.postp, forced := r.forced, abref := r.abref, cecc := r.cecc }) m.refresh },
    eng := { e with
      pools := Map.mapVals (fun _ p => { Pool.init with moves := p.moves, allocfail := p.allocfail }) e.pools,
      wqs := Map.mapVals (fun _ w => { Wq.init with pushed := w.pushed }) e.wqs },
    trust := { s.trust with
      cmd := TrustSt.init.cmd, conns := [], nd := [], ident := { s.trust.ident with mr := List.replicate 8 0 } } }

/-- Step 11: what holds work or copies of memory is emptied; a host-homed line is dropped with its poison. -/
def State.emptyCaches (s : State) : State :=
  let m := s.mem
  let e := s.eng
  { s with
    mem := { m with
      l2 := [], slices := [], owner := [], writes := [], dcache := [], dlines := [], pend := [], tlb := [], walks := [], fbs := [],
      dir := [], asks := [], fetches := [], moving := [], longs := [],
      poison := m.poison.filter fun a => s.isDev a },
    eng := { Engines.init with stats := e.stats, pools := e.pools, wqs := e.wqs },
    fab := { s.fab with cores := Map.mapVals (fun _ c => { c with futs := [] }) s.fab.cores } }

/-- Step 12: every context ends; no context block and no bind record keeps what was written before (R8).
(DEDUCED, log 118.) -/
def State.endContexts (s : State) : State :=
  let s1 := (s.ctxs.filter fun p => p.2.created).foldl (fun s p => s.endContext p.1) s
  { s1 with ctxs := [], fab := { s1.fab with yards := [] } }

/-- The steps of a warm start. -/
def warmSteps : List (State → State) :=
  [ fun s => s.extendMr 0 (measured 0),
    fun s => s,
    fun s => s.extendMr 4 (measured 4),
    State.measureHelper,
    fun s => s.extendMr 7 (sha384Bytes [BitVec.ofNat 8 (b2n s.trust.ident.dbgen)]),
    fun s => s,
    fun s => s,
    State.measureFirmware,
    fun s => s,
    fun s => s.registrations.foldl (fun s x => s.extendMr 6 (imageInput x.2.digest x.1)) s,
    State.emptyCaches,
    State.endContexts,
    State.trainLinks,
    State.startReady ]

/-- Moves in progress publish before what they move is written back (16_attention R350). -/
def State.publishAll (s : State) : State := s.eng.moves.foldl (fun s m => s.publish m.2) s

/-- WARM_START. (DEDUCED, log 118.) -/
def execWarmStart (failAt : Nat) (s : State) : Outcome :=
  .next (if !s.status.pwrgd || s.status.state == 0 then s
    else (s.publishAll.writeBackAll.warmRegisters).runSteps failAt warmSteps)

end Sys2Proof.Machine
end

