-- ==== Sys2Proof/Machine/Boundary.lean ====
section
/-! DEFINITION. The register window of the host (20_boundary R420 to R424): what each word of it reads, and what writes do. -/

namespace Sys2Proof.Machine

/-- A word from fields, each a value and its lowest bit. -/
def fields (l : List (Nat × Nat)) : Word := BitVec.ofNat 32 ((l.map fun x => x.1 * 2 ^ x.2).sum)

/-! ### Reading (Tables 20-3, 11-2, 20-7, 20-4, 20-5, 12-5, 19-1, 13-13 and 18-5) -/

/-- The device status block. -/
def State.statusWord (s : State) (o : Nat) : Word :=
  let t := s.status
  match o with
  | 0x00 => fields [(t.stage.toNat, 8), (b2n s.fitX, 7), (t.state.toNat, 0)]
  | 0x08 => DWord.lo t.eqbase
  | 0x0C => DWord.hi t.eqbase
  | 0x10 => t.eqlogd.zeroExtend 32
  | 0x14 => t.eqwidx
  | 0x18 => t.eqridx
  | 0x1C => t.lost
  | 0x20 => DWord.lo t.msiaddr
  | 0x24 => DWord.hi t.msiaddr
  | 0x28 => t.msidata
  | 0x38 => fields [(t.temp.toNat, 16), (t.power.toNat, 0)]
  | 0x40 => t.sdid.zeroExtend 32
  | _ => 0

/-- The handover registers. -/
def State.handoverWord (s : State) (o : Nat) : Word :=
  let h := s.mem.ho
  match o with
  | 0x00 => DWord.lo h.base
  | 0x04 => DWord.hi h.base
  | 0x08 => h.len
  | 0x0C => fields [(b2n h.dir, 1)]
  | 0x10 => DWord.lo h.status
  | 0x14 => DWord.hi h.status
  | _ => 0

/-- Whether every cluster is at its point. -/
def State.allStable (s : State) : Bool := (List.range Config.clusters).all s.pointStable

/-- The power registers. -/
def State.powerWord (s : State) (o : Nat) : Word :=
  let p := s.power
  match o with
  | 0x00 => p.ltol
  | 0x08 => fields [(b2n p.cap, 31), (b2n s.allStable, 30), (p.gated.toNat, 16), (p.pstate.toNat, 0)]
  | 0x0C => fields ((List.range Config.clusters).map fun k => (s.point k, 2 * k))
  | 0x10 => DWord.lo p.res0
  | 0x14 => DWord.hi p.res0
  | 0x18 => DWord.lo p.res2
  | 0x1C => DWord.hi p.res2
  | 0x20 => DWord.lo p.res3
  | 0x24 => DWord.hi p.res3
  | _ => 0

/-- The context kick. -/
def State.kickWord (s : State) (o : Nat) : Word :=
  let k := s.kick
  match o with
  | 0x00 => fields [(k.action.toNat, 8), (k.ctx.toNat, 0)]
  | 0x04 => fields [(k.clusters.toNat, 0)]
  | 0x08 => fields [(b2n k.run.isSome, 31), (b2n k.err, 30), (k.result.toNat, 27)]
  | 0x0C => k.kseq
  | _ => 0

/-- Link recovery of a port. -/
def State.linkWord (s : State) (p o : Nat) : Word :=
  let x := s.port p
  match o with
  | 0x00 => fields [(b2n x.linkup, 31), (b2n x.viral, 30), (b2n x.downseen, 29), ((s.poisonedLines p).length % 2 ^ 24, 0)]
  | 0x08 => fields [(b2n x.cmd.isSome, 31), (x.result.toNat, 28), (x.done.toNat, 0)]
  | _ => 0

/-- The shootdown block. -/
def State.shootWord (s : State) (o : Nat) : Word :=
  let d := s.mem.sd
  match o with
  | 0x00 => fields [(b2n d.alladdr, 17), (b2n d.allasid, 16), (d.asid.toNat, 0)]
  | 0x08 => DWord.lo d.va
  | 0x0C => DWord.hi d.va
  | 0x10 => d.npages
  | 0x18 => d.seq
  | 0x1C => d.ackseq
  | 0x20 => DWord.lo d.ackaddr
  | 0x24 => DWord.hi d.ackaddr
  | 0x28 => d.ackdata
  | 0x2C => fields [(b2n d.err, 0)]
  | _ => 0

/-- The trust command block. -/
def State.trustWord (s : State) (o : Nat) : Word :=
  let t := s.trust.cmd
  match o with
  | 0x00 => DWord.lo t.arg0
  | 0x04 => DWord.hi t.arg0
  | 0x08 => DWord.lo t.arg1
  | 0x0C => DWord.hi t.arg1
  | 0x10 => DWord.lo t.arg2
  | 0x14 => DWord.hi t.arg2
  | 0x18 => fields [(t.world.toNat, 8), (t.code.toNat, 0)]
  | 0x1C => fields [(b2n t.run.isSome, 31), (t.errc.toNat, 24), (t.cseq.toNat, 0)]
  | 0x20 => DWord.lo t.out
  | 0x24 => DWord.hi t.out
  | _ => 0

/-- A queue attachment slot. -/
def State.slotWord (s : State) (n o : Nat) : Word :=
  let q := s.qslot n
  match o with
  | 0x00 => DWord.lo q.hdr
  | 0x04 => DWord.hi q.hdr
  | 0x08 => fields [(b2n q.att, 31), (b2n q.err, 30), (q.ctx.toNat, 24), (q.ckind.toNat, 8)]
  | _ => 0

/-- A byte that a private read at an offset below 0x40 returns on I3C: the device status block (R434). -/
def State.i3cByte (s : State) (o : Nat) : Byte := (s.statusWord (o / 4 * 4)).extractLsb' (8 * (o % 4)) 8

/-- The target of a debug block while it is stopped. -/
def State.stoppedTarget (s : State) (c : Nat) : Option Nat :=
  (s.debugTarget c).filter fun k => (s.thread k).st == .stopped

/-- Stopped threads of a context. -/
def State.stoppedCount (s : State) (c : Nat) : Nat :=
  (s.fab.threads.filter fun p => decide (coreOf p.1 < Config.cores) && s.ctxOf p.1 == c && p.2.st == .stopped).length

/-- The debug block of a context. -/
def State.debugWord (s : State) (c o : Nat) : Word :=
  let d := (s.ctx c).dbg
  if 0x40 ≤ o then
    match s.stoppedTarget c with
    | some k => (s.thread k).trec.word ((o - 0x40) / 4)
    | none => 0
  else match o with
  | 0x00 => fields [(d.stopw.toNat, 1), (b2n d.attach, 0)]
  | 0x08 => fields [(d.lane.toNat, 16), (d.yslot.toNat, 8), (d.core.toNat, 0)]
  | 0x10 => fields [(b2n (s.stoppedTarget c).isSome, 31), (b2n d.err, 30), (min (s.stoppedCount c) 65535, 0)]
  | _ => 0

/-- A word of the window as the host reads it, at a multiple of 4; an offset that is not listed reads zero (R420). -/
def State.windowWord (s : State) (off : Nat) : Word :=
  if off < 0x100 then s.statusWord off
  else if off < 0x120 then s.handoverWord (off - 0x100)
  else if 0x140 ≤ off && off < 0x180 then s.powerWord (off - 0x140)
  else if 0x180 ≤ off && off < 0x1A0 then s.kickWord (off - 0x180)
  else if 0x1A0 ≤ off && off < 0x1C0 then s.linkWord ((off - 0x1A0) / 16) (off % 16)
  else if 0x200 ≤ off && off < 0x240 then s.shootWord (off - 0x200)
  else if 0x300 ≤ off && off < 0x328 then s.trustWord (off - 0x300)
  else if 0x800 ≤ off && off < 0x1000 then s.slotWord ((off - 0x800) / 16) (off % 16)
  else if 0x1000 ≤ off && off < 0x3000 then s.debugWord ((off - 0x1000) / 128) (off % 128)
  else 0

/-! ### Writing: the fields -/

/-- A doubleword with the half at a byte offset replaced. -/
def setHalf (d : DWord) (o : Nat) (v : Word) : DWord := patch d o 4 (v.zeroExtend 64)

def State.statusPut (s : State) (o : Nat) (v : Word) : State :=
  let logd := v.toNat % 32
  s.setStatus fun t =>
    match o with
    | 0x08 => { t with eqbase := line64 (setHalf t.eqbase o v) }
    | 0x0C => { t with eqbase := line64 (setHalf t.eqbase o v) }
    | 0x10 => { t with eqlogd := if 4 ≤ logd && logd ≤ 16 then BitVec.ofNat 5 logd else 0 }
    | 0x18 => { t with eqridx := v }
    | 0x20 => { t with msiaddr := setHalf t.msiaddr o v }
    | 0x24 => { t with msiaddr := setHalf t.msiaddr o v }
    | 0x28 => { t with msidata := v }
    | 0x40 => { t with sdid := v.extractLsb' 0 11 }
    | _ => t

def State.handoverPut (s : State) (o : Nat) (v : Word) : State :=
  let h := s.mem.ho
  s.setMem { s.mem with ho :=
    match o with
    | 0x00 => { h with base := line64 (setHalf h.base o v) }
    | 0x04 => { h with base := line64 (setHalf h.base o v) }
    | 0x08 => { h with len := v &&& 0xFFFFFFC0 }
    | 0x10 => { h with err := h.err && !v.getLsbD 30 }
    | _ => h }

def State.kickPut (s : State) (o : Nat) (v : Word) : State :=
  let k := s.kick
  { s with kick :=
    match o with
    | 0x00 => { k with action := v.extractLsb' 8 2, ctx := v.extractLsb' 0 6 }
    | 0x04 => { k with clusters := v.extractLsb' 0 14 }
    | 0x08 => { k with err := k.err && !v.getLsbD 30 }
    | _ => k }

def State.shootPut (s : State) (o : Nat) (v : Word) : State :=
  let d := s.mem.sd
  match o with
  | 0x00 => s.setSd { d with alladdr := v.getLsbD 17, allasid := v.getLsbD 16, asid := v.extractLsb' 0 16 }
  | 0x08 => s.setSd { d with va := setHalf d.va o (v &&& 0xFFFFF000) }
  | 0x0C => s.setSd { d with va := setHalf d.va o (v &&& 0x01FFFFFF) }
  | 0x10 => s.setSd { d with npages := v }
  | 0x18 => s.writeSeq v
  | 0x20 => s.setSd { d with ackaddr := setHalf d.ackaddr o v }
  | 0x24 => s.setSd { d with ackaddr := setHalf d.ackaddr o v }
  | 0x28 => s.setSd { d with ackdata := v }
  | 0x2C => s.setSd { d with err := d.err && !v.getLsbD 0 }
  | _ => s

def State.trustPut (s : State) (o : Nat) (v : Word) : State :=
  let t := s.trust.cmd
  s.setCmd (
    match o / 8 with
    | 0 => { t with arg0 := setHalf t.arg0 o v }
    | 1 => { t with arg1 := setHalf t.arg1 o v }
    | 2 => { t with arg2 := setHalf t.arg2 o v }
    | _ => if o == 0x18 then { t with world := v.extractLsb' 8 6, code := v.extractLsb' 0 8 } else t)

def State.slotPut (s : State) (n o : Nat) (v : Word) : State :=
  let q := s.qslot n
  if o < 8 && !q.att then s.setQslot n { q with hdr := line64 (setHalf q.hdr o v) } else s

def State.debugPut (s : State) (c o : Nat) (v : Word) : State :=
  let put (f : Debug → Debug) : State := s.modCtx c fun x => { x with dbg := f x.dbg }
  if 0x40 ≤ o then
    match s.stoppedTarget c with
    | some k => s.modThread k fun t => { t with trec := t.trec.setWord ((o - 0x40) / 4) v }
    | none => s
  else match o with
  | 0x08 => put fun d => { d with lane := v.extractLsb' 16 6, yslot := v.extractLsb' 8 7, core := v.extractLsb' 0 6 }
  | 0x10 => put fun d => { d with err := d.err && !v.getLsbD 30 }
  | _ => s

/-- The fields that a written word sets. -/
def State.windowPut (s : State) (off : Nat) (v : Word) : State :=
  if off < 0x100 then s.statusPut off v
  else if off < 0x120 then s.handoverPut (off - 0x100) v
  else if off == 0x140 then s.writeLtol v
  else if 0x180 ≤ off && off < 0x1A0 then s.kickPut (off - 0x180) v
  else if 0x1A0 ≤ off && off < 0x1C0 then
    let p := (off - 0x1A0) / 16
    if off % 16 == 0 then s.setPort p { s.port p with downseen := (s.port p).downseen && !v.getLsbD 29 } else s
  else if 0x200 ≤ off && off < 0x240 then s.shootPut (off - 0x200) v
  else if 0x300 ≤ off && off < 0x320 then s.trustPut (off - 0x300) v
  else if 0x800 ≤ off && off < 0x1000 then s.slotPut ((off - 0x800) / 16) (off % 16) v
  else if 0x1000 ≤ off && off < 0x3000 then s.debugPut ((off - 0x1000) / 128) (off % 128) v
  else s

/-! ### Writing: the commands -/

/-- The state that an event leads to. -/
def nextOf (s : State) (f : State → Outcome) : State :=
  match f s with
  | .next t => t
  | _ => s

/-- The context kick's GO (R422): ACTION 0 has no effect. -/
def State.kickGo (s : State) : State :=
  s.kick1 fun s =>
    let c := s.kick.ctx.toNat
    match s.kick.action.toNat with
    | 1 => s.kickPreempt c
    | 2 => s.kickRestore c
    | 3 => s.kickReplay c s.kick.clusters
    | _ => s

/-- CMD of a debug block. -/
def State.debugCmd (s : State) (c cmd : Nat) : State :=
  match cmd with
  | 1 => nextOf s (execDebugStop c)
  | 2 => nextOf s (execDebugResume c)
  | 3 => nextOf s (execDebugStep c)
  | _ => s

/-- The command bits of a written word act, once every word of its write has been written. A GO of the trust core leaves its
command running; the command is an event of its own. -/
def State.windowGo (s : State) (off : Nat) (v : Word) : State :=
  if off == 0x30 then
    if v.getLsbD 0 then s.setStatus fun t => { t with state := 4 } else s
  else if off == 0x10C then s.handoverWrite v
  else if off == 0x180 then (if v.getLsbD 31 then s.kickGo else s)
  else if 0x1A0 ≤ off && off < 0x1C0 && off % 16 == 4 then
    let p := (off - 0x1A0) / 16
    match v.toNat % 4 with
    | 1 => s.recoveryStart p 1
    | 2 => s.recoveryStart p 2
    | 3 => s.clearViral p
    | _ => s
  else if off == 0x318 then
    let t := s.trust.cmd
    if v.getLsbD 31 && t.run.isNone then s.trustBegin t.world.toNat t.code.toNat else s
  else if 0x800 ≤ off && off < 0x1000 && off % 16 == 8 then s.queueControl ((off - 0x800) / 16) none (v.zeroExtend 64)
  else if 0x1000 ≤ off && off < 0x3000 then
    let c := (off - 0x1000) / 128
    if off % 128 == 0 then nextOf s (execStopwWrite c (v.zeroExtend 64))
    else if off % 128 == 0x0C then s.debugCmd c (v.toNat % 4)
    else s
  else s

/-- A host write to the window: 4 or 8 bytes, naturally aligned; any other has no effect. The interrupt file takes writes of
4 bytes (R423). A write wakes a device in a package state, but for one of LTOL itself (R429). (DEDUCED, log 117.) -/
def State.windowWrite (s : State) (off size : Nat) (v : DWord) : State :=
  let lo := DWord.lo v
  let hi := DWord.hi v
  if !(size == 4 || size == 8) || off % size != 0 || 0x10000 < off + size then s
  else if size == 4 && off == 0x4000 then nextOf s (execInterruptFileWrite lo)
  else
    let s0 := if off == 0x140 || s.power.pstate == 0 then s else nextOf s execPowerWake
    if size == 4 then (s0.windowPut off lo).windowGo off lo
    else (((s0.windowPut off lo).windowPut (off + 4) hi).windowGo off lo).windowGo (off + 4) hi

def execRegisterWrite (off size : Nat) (v : DWord) (s : State) : Outcome := .next (s.windowWrite off size v)

end Sys2Proof.Machine
end

