-- ==== Sys2Proof/Machine/Exchange.lean ====
section
/-! DEFINITION. Lane exchange instructions (08_exchange). -/

namespace Sys2Proof.Machine

/-! ### Domains (R189, R190) -/

/-- A domain: its size, the thread at an index, and whether indices are those of a rig. -/
structure Dom where
  n : Nat
  yard : Nat
  rig : Option Nat
  deriving DecidableEq, Repr

/-- The thread at index `j`, if its ordinal is a member. -/
def State.domThread (s : State) (d : Dom) (j : Nat) : Option Nat :=
  match d.rig with
  | none => some (threadKey d.yard j)
  | some r => ((s.rig r).members.find? fun m => m.2 == j / 64).map fun m => threadKey m.1 (j % 64)

/-- The index of a thread in its domain. -/
def State.domIdx (s : State) (d : Dom) (k : Nat) : Nat :=
  match d.rig with
  | none => laneOf k
  | some _ => s.rigIndex k

/-- The value of register `r` of thread `u` that the rendezvous of the issuing group found, if one released it (R191). -/
def State.snapped (s : State) (u r : Nat) : Option Word :=
  if s.fab.snaps.isEmpty then none
  else s.here.lanes.findSome? fun k =>
    match (s.thread k).released with
    | none => none
    | some id => Map.find? (Map.getD s.fab.snaps id []) (u * 256 + r)

/-- srcval(j, r) (R190); at YARD and RIG scope the main-file value is that at the completion of the rendezvous (R191). -/
def State.srcval (s : State) (d : Dom) (j r : Nat) : Word :=
  match s.domThread d j with
  | none => 0
  | some u =>
    let t := s.thread u
    if t.st == .exited || t.st == .unlaunched || !s.holdsReg (yardOf u) r then 0
    else
      let inGroup := match s.group with
        | none => false
        | some g => g.lanes.contains u
      match (if inGroup then t.view.vs.find? (fun v => v.reg == r) else none) with
      | some v => v.val
      | none => (s.snapped u r).getD (s.reg u r)

/-- An active lane of a domain: its thread and index, the register its region names in the data slot, its operand B, its
predicate A and its RM. -/
structure Reader where
  k : Nat
  idx : Nat
  r : Nat
  b : Word
  p : Bool
  rm : BitVec 3
  deriving DecidableEq, Repr

/-- What a domain's word gives each of its active lanes. -/
abbrev DomOp := State → Dom → List Reader → List (Nat × LaneOut)

/-- The readers of a list of lanes that have read B; a lane whose data slot is unstaged traps. -/
def State.readers (s : State) (i : Instr) (d : Dom) (data : Bool) (a : BitVec 5) (ins : List (Nat × List Word)) :
    List Reader × List (Nat × LaneOut) :=
  let one (p : Nat × List Word) : Reader ⊕ (Nat × LaneOut) :=
    let t := s.peek p.1
    let mk (r : Nat) : Reader :=
      { k := p.1, idx := s.domIdx d p.1, r := r, b := val p.2 0, p := t.view.preds.toNat.testBit a.toNat, rm := t.rm }
    if data then
      match t.slotReg a.toNat with
      | none => .inr (p.1, .trap (badOperand i))
      | some r => .inl (mk r)
    else .inl (mk 0)
  let rs := ins.map one
  (rs.filterMap fun x => match x with
    | .inl r => some r
    | .inr _ => none,
   rs.filterMap fun x => match x with
    | .inl _ => none
    | .inr o => some o)

/-- Readers in rising order of index. -/
def insertReader (x : Reader) : List Reader → List Reader
  | [] => [x]
  | y :: r => if x.idx < y.idx then x :: y :: r else y :: insertReader x r
def sortReaders (l : List Reader) : List Reader := l.foldr insertReader []

/-- The checks of R192: what is declared uniform is compared over the active lanes of the domain. -/
def domUniform {β : Type} [DecidableEq β] (f : Reader → β) (next : DomOp) : DomOp := fun s d rs =>
  match rs with
  | [] => []
  | r0 :: rest =>
    match rest.find? (fun r => f r ≠ f r0) with
    | some r => rs.map fun x => (x.k, .trap (mismatch r.idx))
    | none => next s d rs

/-- The lanes of a group by yard, in order of first appearance. -/
def byYard (ins : List (Nat × List Word)) (f : Nat → List (Nat × List Word) → List (Nat × LaneOut)) :
    List (Nat × LaneOut) :=
  (firsts yardOf [] (ins.map fun p => p.1)).flatMap fun k =>
    f (yardOf k) (ins.filter fun p => yardOf p.1 == yardOf k)

/-- Runs a domain's word over the lanes given. -/
def State.runDom (s : State) (i : Instr) (data : Bool) (a : BitVec 5) (op : DomOp) (d : Dom)
    (ins : List (Nat × List Word)) : List (Nat × LaneOut) :=
  let (rs, bad) := s.readers i d data a ins
  bad ++ op s d (sortReaders rs)

/-- An outcome kept for a member whose group issues the word later. -/
def Given.ofOut : LaneOut → Option Given
  | .done r => some { vals := r.vals, ff := r.ff, bad := none }
  | .trap i => if i.cause == 3 then some { vals := [], ff := 0, bad := some i.origin } else none
  | _ => none

/-- A kept outcome, now that the member's group issues the word. -/
def Given.toOut (g : Given) : LaneOut :=
  match g.bad with
  | some n => .trap (mismatch n)
  | none => .done { vals := g.vals, ff := g.ff, sb := none, tag := none }

/-- The other members of a rig that were released with a thread and whose group has not issued. -/
def State.releasedMates (s : State) (rig : Nat) (id : Option Nat) (lanes : List Nat) : List Nat :=
  (s.rig rig).members.flatMap fun m => (yardLanes m.1).filter fun k =>
    let t := s.thread k
    id.isSome && t.released == id && !lanes.contains k && t.given.isNone

/-- Resolved handles among the operands of a member that is not in the issuing group are rewritten in place (R112). -/
def State.joinPeek (codes : List (BitVec 5)) (s : State) (k : Nat) : State :=
  codes.foldl (fun s c =>
    match (if c.toNat < 16 then (s.peek k).slotReg c.toNat else none) with
    | none => s
    | some r => s.joinReg k r) s

/-- Reads operands of a member that is not in the issuing group. A lane of the issuing group that blocks on B or traps on an
unstaged slot at the word itself is no active lane of the domain; a member of another group counts as one whether or not its
destination is staged. (DESIGN CHOICE, log 132.) -/
def State.peekIn (s : State) (codes : List (BitVec 5)) (lit : Word) (k : Nat) : Option (List Word) :=
  match (s.setThread k (s.peek k)).readCodes k lit codes with
  | .ok ws => some ws
  | _ => none

/-- The rig of a thread's yard. -/
def State.rigNo (s : State) (k : Nat) : Nat :=
  match (s.yard (yardOf k)).rig with
  | none => 0
  | some (r, _) => r

/-- A RIG-scope exchange word: it acts once for the set, and members whose groups have not issued it keep their results
until they do (R189, R191). (DEDUCED, log 34.) -/
def State.rigExchange (s : State) (i : Instr) (o : OpA) (codes : List (BitVec 5)) (dst : Dst) (data : Bool) (op : DomOp) :
    State :=
  s.groupWord i o.s o.g codes o.lit dst false fun s ins =>
    let kept := ins.filter fun p => (s.thread p.1).given.isSome
    let fresh := ins.filter fun p => (s.thread p.1).given.isNone
    let outs1 := kept.map fun p => (p.1, ((s.thread p.1).given.map Given.toOut).getD .off)
    let others (s : State) (k : Nat) : List Nat :=
      (s.releasedMates (s.rigNo k) (s.thread k).released s.here.lanes).filter fun j => (s.thread j).guard o.g
    let heads := firsts s.rigNo [] (fresh.map fun p => p.1)
    let s := (heads.flatMap (others s)).foldl (State.joinPeek codes) s
    let outs2 := heads.flatMap fun k =>
      let r := s.rigNo k
      let mine := fresh.filter fun p => s.rigNo p.1 == r
      let others := others s k
      let theirs := others.filterMap fun j => (s.peekIn codes o.lit j).map fun ws => (j, ws)
      s.runDom i data o.a op { n := 64 * (s.rig r).count, yard := yardOf k, rig := some r } (mine ++ theirs)
    let here := s.here.lanes
    let s1 := outs2.foldl (fun s p =>
      if here.contains p.1 then s else s.modThread p.1 fun t => { t with given := Given.ofOut p.2 }) s
    let s2 := kept.foldl (fun s p => s.modThread p.1 fun t => { t with given := none }) s1
    (s2, outs1 ++ outs2.filter fun p => here.contains p.1)

/-- An exchange word: one domain for each yard of the group, or one for the rig. `codes` are its ordinary sources. -/
def State.exchange (s : State) (i : Instr) (o : OpA) (codes : List (BitVec 5)) (dst : Dst) (data : Bool) (op : DomOp) :
    State :=
  match setKind (s.groupVersion s.here.lanes) o.s with
  | .rig => s.rigExchange i o codes dst data op
  | _ => s.groupWord i o.s o.g codes o.lit dst true fun s ins =>
      (s, byYard ins fun y l => s.runDom i data o.a op { n := 64, yard := y, rig := none } l)

/-! ### SHFL and BCAST (R195) -/

/-- The index that each shuffle reads; `none` gives zero. -/
def shflAtIdx (n _ : Nat) (b : Word) : Option Nat := if n ≤ b.toNat then none else some b.toNat
def shflRotIdx (n i : Nat) (b : Word) : Option Nat := some ((i + b.toNat) % n)
def shflSlideIdx (n i : Nat) (b : Word) : Option Nat :=
  some ((min (max ((i : Int) + b.toInt) 0) ((n : Int) - 1)).toNat)
def shflFlipIdx (n i : Nat) (b : Word) : Option Nat :=
  let j := i ^^^ b.toNat
  some (if n ≤ j then i else j)

/-- A shuffle over a domain. -/
def shflOp (idx : Nat → Nat → Word → Option Nat) : DomOp := fun s d rs =>
  rs.map fun r =>
    let v := match idx d.n r.idx r.b with
      | none => 0
      | some j => s.srcval d j r.r
    (r.k, doneWith [v])

def State.shfl (s : State) (i : Instr) (o : OpA) (idx : Nat → Nat → Word → Option Nat) : State :=
  s.exchange i o [o.b] (.vec 1 o.d) true (domUniform Reader.r (shflOp idx))

/-- SHFL.at. -/
def execShflAt (o : OpA) (s : State) : Outcome := .next (s.shfl (.shflAt o) o shflAtIdx)
/-- SHFL.rot. -/
def execShflRot (o : OpA) (s : State) : Outcome := .next (s.shfl (.shflRot o) o shflRotIdx)
/-- SHFL.slide. -/
def execShflSlide (o : OpA) (s : State) : Outcome := .next (s.shfl (.shflSlide o) o shflSlideIdx)
/-- SHFL.flip. -/
def execShflFlip (o : OpA) (s : State) : Outcome := .next (s.shfl (.shflFlip o) o shflFlipIdx)
/-- BCAST: SHFL.at with B declared uniform. -/
def execBcast (o : OpA) (s : State) : Outcome :=
  .next (s.exchange (.bcast o) o [o.b] (.vec 1 o.d) true
    (domUniform (fun r => (r.r, r.b)) (shflOp shflAtIdx)))

/-! ### VOTE, BALLOT and MATCH (R196, R197) -/

/-- A vote over the predicates of the active lanes. -/
def voteOp (f : List Bool → Bool) : DomOp := fun _ _ rs =>
  let v := BitVec.ofNat 32 (b2n (f (rs.map Reader.p)))
  rs.map fun r => (r.k, doneWith [v])

def State.vote (s : State) (i : Instr) (o : OpA) (f : List Bool → Bool) : State :=
  s.exchange i o [] (.pred o.d) false (voteOp f)

/-- VOTE.every. -/
def execVoteEvery (o : OpA) (s : State) : Outcome := .next (s.vote (.voteEvery o) o fun l => l.all id)
/-- VOTE.some. -/
def execVoteSome (o : OpA) (s : State) : Outcome := .next (s.vote (.voteSome o) o fun l => l.any id)
/-- VOTE.same. -/
def execVoteSame (o : OpA) (s : State) : Outcome :=
  .next (s.vote (.voteSame o) o fun l => l.all id || !l.any id)
/-- VOTE.odd. -/
def execVoteOdd (o : OpA) (s : State) : Outcome :=
  .next (s.vote (.voteOdd o) o fun l => (l.filter id).length % 2 == 1)

/-- The mask of the lanes of one yard whose predicate is 1. -/
def ballotMask (rs : List Reader) (yard : Nat) : DWord :=
  BitVec.ofNat 64 ((rs.filter fun r => r.p && yardOf r.k == yard).map fun r => 2 ^ laneOf r.k).sum

/-- BALLOT: the mask of the yard, or at RIG scope of the member that B names. -/
def ballotOp : DomOp := fun s d rs =>
  rs.map fun r =>
    let m : DWord := match d.rig with
      | none => ballotMask rs d.yard
      | some g =>
        match (s.rig g).members.find? fun m => m.2 == r.b.toNat with
        | none => 0
        | some m => ballotMask rs m.1
    (r.k, doneWith (words2 m))

/-- BALLOT. -/
def execBallot (o : OpA) (s : State) : Outcome :=
  .next (s.exchange (.ballot o) o [o.b] (.vec 2 o.d) false ballotOp)

/-- MATCH: the leader and the count of the lanes of equal value. -/
def matchOp : DomOp := fun s d rs =>
  let vs := rs.map fun r => (r.idx, s.srcval d r.idx r.r)
  rs.map fun r =>
    let same := vs.filter fun p => p.2 == s.srcval d r.idx r.r
    let lead := match same with
      | [] => r.idx
      | p :: _ => p.1
    (r.k, doneWith [BitVec.ofNat 32 lead, BitVec.ofNat 32 same.length])

/-- MATCH. -/
def execMatchLanes (o : OpA) (s : State) : Outcome :=
  .next (s.exchange (.matchLanes o) o [] (.vec 2 o.d) true (domUniform Reader.r matchOp))

/-! ### REDUCE and SCAN (R198, R199) -/

/-- Whether an op is one of the .f32 operations. -/
def redIsFp : RedOp → Bool
  | .addF32 => true
  | .minF32 => true
  | .maxF32 => true
  | _ => false

/-- combine(a, b) (Table 8-2). -/
def redCombine (p : RedOp) (rm : RMode) (a b : Word) : Word × FFlags :=
  match p with
  | .addS32 => (a + b, 0)
  | .addF32 => typedOp .f32 opAdd rm a b
  | .minS32 => (minS a b, 0)
  | .maxS32 => (maxS a b, 0)
  | .minF32 => typedOp .f32 opMin rm a b
  | .maxF32 => typedOp .f32 opMax rm a b
  | .and => (a &&& b, 0)
  | .or => (a ||| b, 0)

/-- The identity, for SCAN.exc (Table 8-2). -/
def redIdentity : RedOp → Word
  | .addS32 => 0
  | .addF32 => 0x80000000
  | .minS32 => 0x7FFFFFFF
  | .maxS32 => 0x80000000
  | .minF32 => 0x7F800000
  | .maxF32 => 0xFF800000
  | .and => 0xFFFFFFFF
  | .or => 0

/-- One level of the tree: an absent child passes the other on. -/
def treeLevel (p : RedOp) (rm : RMode) : List (Option Word) → List (Option Word) × FFlags
  | some a :: some b :: r =>
    let (v, fl) := redCombine p rm a b
    let (l, fr) := treeLevel p rm r
    (some v :: l, fl ||| fr)
  | some a :: none :: r => let (l, fr) := treeLevel p rm r; (some a :: l, fr)
  | none :: x :: r => let (l, fr) := treeLevel p rm r; (x :: l, fr)
  | [x] => ([x], 0)
  | [] => ([], 0)

/-- The root of the tree over 2^levels leaves, with the flags of every combination. -/
def treeFold (p : RedOp) (rm : RMode) : Nat → List (Option Word) → Option Word × FFlags
  | 0, l => (l.headD none, 0)
  | n + 1, l =>
    let (l1, f1) := treeLevel p rm l
    let (v, f2) := treeFold p rm n l1
    (v, f1 ||| f2)

/-- The rounding mode that the active lanes share. -/
def sharedRm (rs : List Reader) : RMode :=
  match rs with
  | [] => .rne
  | r :: _ => RMode.ofCode r.rm.toNat

/-- The values of a domain by index: those of its active lanes. -/
def leaves (s : State) (d : Dom) (rs : List Reader) : List (Option Word) :=
  (List.range d.n).map fun j => (rs.find? fun r => r.idx == j).map fun r => s.srcval d j r.r

/-- REDUCE: a pairwise tree over indices (R199). Twelve levels hold every domain. -/
def reduceOp (p : RedOp) : DomOp := fun s d rs =>
  let (v, fl) := treeFold p (sharedRm rs) 12 (leaves s d rs)
  rs.map fun r => (r.k, .done { vals := [v.getD 0], ff := fl, sb := none, tag := none })

/-- The folds of SCAN over the active values in rising index: before and after each, with the flags of each step. -/
def scanGo (p : RedOp) (rm : RMode) (acc : Option Word) : List Word → List (Option Word × Word × FFlags)
  | [] => []
  | x :: r =>
    let (v, fl) := match acc with
      | none => (x, (0 : FFlags))
      | some a => redCombine p rm a x
    (acc, v, fl) :: scanGo p rm (some v) r

/-- SCAN: inclusive, or exclusive with the identity where nothing stands before (R199). -/
def scanOp (exclusive : Bool) (p : RedOp) : DomOp := fun s d rs =>
  let steps := scanGo p (sharedRm rs) none (rs.map fun r => s.srcval d r.idx r.r)
  let used := if exclusive then steps.dropLast else steps
  let fl := used.foldl (fun f x => f ||| x.2.2) (0 : FFlags)
  (rs.zip steps).map fun x =>
    let v := if exclusive then x.2.1.getD (redIdentity p) else x.2.2.1
    (x.1.k, .done { vals := [v], ff := fl, sb := none, tag := none })

/-- The uniform checks of a reduction: the register, and RM for .f32 (R192). -/
def State.combining (s : State) (i : Instr) (o : OpA) (p : RedOp) (op : DomOp) : State :=
  s.exchange i o [] (.vec 1 o.d) true (if redIsFp p then domUniform (fun r => (r.r, r.rm)) op else domUniform Reader.r op)

/-- REDUCE. -/
def execReduce (p : RedOp) (o : OpA) (s : State) : Outcome := .next (s.combining (.reduce p o) o p (reduceOp p))
/-- SCAN.inc. -/
def execScanInc (p : RedOp) (o : OpA) (s : State) : Outcome :=
  .next (s.combining (.scanInc p o) o p (scanOp false p))
/-- SCAN.exc. -/
def execScanExc (p : RedOp) (o : OpA) (s : State) : Outcome :=
  .next (s.combining (.scanExc p o) o p (scanOp true p))

end Sys2Proof.Machine
end

