-- ==== Sys2Proof/Machine/Dispatch.lean ====
section
/-! DEFINITION. One arm for each constructor of `Instr`: a direct call of its meaning, or a rejection by name. -/

namespace Sys2Proof.Machine

def exec (i : Instr) (s : State) : Host.Outcome State Fault Refusal :=
  match i with
  | .nop o => Sys2Proof.Machine.execNop o s
  | .yield o => Sys2Proof.Machine.execYield o s
  | .exit o => Sys2Proof.Machine.execExit o s
  | .jmp o => Sys2Proof.Machine.execJmp o s
  | .calli o => Sys2Proof.Machine.execCalli o s
  | .ret o => Sys2Proof.Machine.execRet o s
  | .bra o => Sys2Proof.Machine.execBra o s
  | .call o => Sys2Proof.Machine.execCall o s
  | .bway o => Sys2Proof.Machine.execBway o s
  | .jmpf o => Sys2Proof.Machine.execJmpf o s
  | .segfetch o => Sys2Proof.Machine.execSegfetch o s
  | .segstat o => Sys2Proof.Machine.execSegstat o s
  | .rigdef o => Sys2Proof.Machine.execRigdef o s
  | .join o => Sys2Proof.Machine.execJoin o s
  | .leave o => Sys2Proof.Machine.execLeave o s
  | .sign o => Sys2Proof.Machine.execSign o s
  | .fwait o => Sys2Proof.Machine.execFwait o s
  | .ftest o => Sys2Proof.Machine.execFtest o s
  | .fcancel o => Sys2Proof.Machine.execFcancel o s
  | .fpass o => Sys2Proof.Machine.execFpass o s
  | .stage o => Sys2Proof.Machine.execStage o s
  | .mov o => Sys2Proof.Machine.execMov o s
  | .movs o => Sys2Proof.Machine.execMovs o s
  | .rdsr o => Sys2Proof.Machine.execRdsr o s
  | .wrsr o => Sys2Proof.Machine.execWrsr o s
  | .sel o => Sys2Proof.Machine.execSel o s
  | .hoist o => Sys2Proof.Machine.execHoist o s
  | .reef o => Sys2Proof.Machine.execReef o s
  | .gmov o => Sys2Proof.Machine.execGmov o s
  | .spillv o => Sys2Proof.Machine.execSpillv o s
  | .fillv o => Sys2Proof.Machine.execFillv o s
  | .iadd o => Sys2Proof.Machine.execIadd o s
  | .isub o => Sys2Proof.Machine.execIsub o s
  | .addc o => Sys2Proof.Machine.execAddc o s
  | .subb o => Sys2Proof.Machine.execSubb o s
  | .iminS32 o => Sys2Proof.Machine.execIminS32 o s
  | .iminN32 o => Sys2Proof.Machine.execIminN32 o s
  | .imaxS32 o => Sys2Proof.Machine.execImaxS32 o s
  | .imaxN32 o => Sys2Proof.Machine.execImaxN32 o s
  | .iabs o => Sys2Proof.Machine.execIabs o s
  | .and o => Sys2Proof.Machine.execAnd o s
  | .or o => Sys2Proof.Machine.execOr o s
  | .xor o => Sys2Proof.Machine.execXor o s
  | .andn o => Sys2Proof.Machine.execAndn o s
  | .popc o => Sys2Proof.Machine.execPopc o s
  | .clz o => Sys2Proof.Machine.execClz o s
  | .brev o => Sys2Proof.Machine.execBrev o s
  | .add64 o => Sys2Proof.Machine.execAdd64 o s
  | .ptag o => Sys2Proof.Machine.execPtag o s
  | .shl o => Sys2Proof.Machine.execShl o s
  | .shr o => Sys2Proof.Machine.execShr o s
  | .sar o => Sys2Proof.Machine.execSar o s
  | .rot o => Sys2Proof.Machine.execRot o s
  | .bfxN32 o => Sys2Proof.Machine.execBfxN32 o s
  | .bfxS32 o => Sys2Proof.Machine.execBfxS32 o s
  | .imul o => Sys2Proof.Machine.execImul o s
  | .imulhS32 o => Sys2Proof.Machine.execImulhS32 o s
  | .imulhN32 o => Sys2Proof.Machine.execImulhN32 o s
  | .idivS32 o => Sys2Proof.Machine.execIdivS32 o s
  | .idivN32 o => Sys2Proof.Machine.execIdivN32 o s
  | .iremS32 o => Sys2Proof.Machine.execIremS32 o s
  | .iremN32 o => Sys2Proof.Machine.execIremN32 o s
  | .icmpEq o => Sys2Proof.Machine.execIcmpEq o s
  | .icmpNe o => Sys2Proof.Machine.execIcmpNe o s
  | .icmpLtS32 o => Sys2Proof.Machine.execIcmpLtS32 o s
  | .icmpLeS32 o => Sys2Proof.Machine.execIcmpLeS32 o s
  | .icmpGtS32 o => Sys2Proof.Machine.execIcmpGtS32 o s
  | .icmpGeS32 o => Sys2Proof.Machine.execIcmpGeS32 o s
  | .icmpLtN32 o => Sys2Proof.Machine.execIcmpLtN32 o s
  | .icmpLeN32 o => Sys2Proof.Machine.execIcmpLeN32 o s
  | .icmpGtN32 o => Sys2Proof.Machine.execIcmpGtN32 o s
  | .icmpGeN32 o => Sys2Proof.Machine.execIcmpGeN32 o s
  | .pand o => Sys2Proof.Machine.execPand o s
  | .por o => Sys2Proof.Machine.execPor o s
  | .pxor o => Sys2Proof.Machine.execPxor o s
  | .pnot o => Sys2Proof.Machine.execPnot o s
  | .imad o => Sys2Proof.Machine.execImad o s
  | .bfi o => Sys2Proof.Machine.execBfi o s
  | .addi o => Sys2Proof.Machine.execAddi o s
  | .lea o => Sys2Proof.Machine.execLea o s
  | .fadd ty o => Sys2Proof.Machine.execFadd ty o s
  | .fsub ty o => Sys2Proof.Machine.execFsub ty o s
  | .fmul ty o => Sys2Proof.Machine.execFmul ty o s
  | .fmin ty o => Sys2Proof.Machine.execFmin ty o s
  | .fmax ty o => Sys2Proof.Machine.execFmax ty o s
  | .fscale ty o => Sys2Proof.Machine.execFscale ty o s
  | .fmaF32 o => Sys2Proof.Machine.execFmaF32 o s
  | .fmaF32Neg o => Sys2Proof.Machine.execFmaF32Neg o s
  | .fmaBf16 o => Sys2Proof.Machine.execFmaBf16 o s
  | .fabs o => Sys2Proof.Machine.execFabs o s
  | .frcp o => Sys2Proof.Machine.execFrcp o s
  | .frsq o => Sys2Proof.Machine.execFrsq o s
  | .fsqrt o => Sys2Proof.Machine.execFsqrt o s
  | .fexp2 o => Sys2Proof.Machine.execFexp2 o s
  | .flog2 o => Sys2Proof.Machine.execFlog2 o s
  | .ftanh o => Sys2Proof.Machine.execFtanh o s
  | .fsin o => Sys2Proof.Machine.execFsin o s
  | .fcos o => Sys2Proof.Machine.execFcos o s
  | .frnd o => Sys2Proof.Machine.execFrnd o s
  | .fclass o => Sys2Proof.Machine.execFclass o s
  | .fdot2 o => Sys2Proof.Machine.execFdot2 o s
  | .mxpack o => Sys2Proof.Machine.execMxpack o s
  | .mxunpk o => Sys2Proof.Machine.execMxunpk o s
  | .fcmpEq o => Sys2Proof.Machine.execFcmpEq o s
  | .fcmpNe o => Sys2Proof.Machine.execFcmpNe o s
  | .fcmpLt o => Sys2Proof.Machine.execFcmpLt o s
  | .fcmpLe o => Sys2Proof.Machine.execFcmpLe o s
  | .fcmpGt o => Sys2Proof.Machine.execFcmpGt o s
  | .fcmpGe o => Sys2Proof.Machine.execFcmpGe o s
  | .fcmpUn o => Sys2Proof.Machine.execFcmpUn o s
  | .fcvtBf16F32 o => Sys2Proof.Machine.execFcvtBf16F32 o s
  | .fcvtF16F32 o => Sys2Proof.Machine.execFcvtF16F32 o s
  | .fcvtF32Bf16 o => Sys2Proof.Machine.execFcvtF32Bf16 o s
  | .fcvtF32F16 o => Sys2Proof.Machine.execFcvtF32F16 o s
  | .fcvtS32F32 o => Sys2Proof.Machine.execFcvtS32F32 o s
  | .fcvtF32S32 o => Sys2Proof.Machine.execFcvtF32S32 o s
  | .fcvtN32F32 o => Sys2Proof.Machine.execFcvtN32F32 o s
  | .fcvtF32N32 o => Sys2Proof.Machine.execFcvtF32N32 o s
  | .shflAt o => Sys2Proof.Machine.execShflAt o s
  | .shflRot o => Sys2Proof.Machine.execShflRot o s
  | .shflSlide o => Sys2Proof.Machine.execShflSlide o s
  | .shflFlip o => Sys2Proof.Machine.execShflFlip o s
  | .bcast o => Sys2Proof.Machine.execBcast o s
  | .voteEvery o => Sys2Proof.Machine.execVoteEvery o s
  | .voteSome o => Sys2Proof.Machine.execVoteSome o s
  | .voteSame o => Sys2Proof.Machine.execVoteSame o s
  | .voteOdd o => Sys2Proof.Machine.execVoteOdd o s
  | .ballot o => Sys2Proof.Machine.execBallot o s
  | .matchLanes o => Sys2Proof.Machine.execMatchLanes o s
  | .reduce p o => Sys2Proof.Machine.execReduce p o s
  | .scanInc p o => Sys2Proof.Machine.execScanInc p o s
  | .scanExc p o => Sys2Proof.Machine.execScanExc p o s
  | .ld h o => Sys2Proof.Machine.execLd h o s
  | .st h o => Sys2Proof.Machine.execSt h o s
  | .ldx h o => Sys2Proof.Machine.execLdx h o s
  | .stx h o => Sys2Proof.Machine.execStx h o s
  | .ldu h o => Sys2Proof.Machine.execLdu h o s
  | .stu h o => Sys2Proof.Machine.execStu h o s
  | .atom p o => Sys2Proof.Machine.execAtom p o s
  | .atomOrdered p o => Sys2Proof.Machine.execAtomOrdered p o s
  | .acq o => Sys2Proof.Machine.execAcq o s
  | .rel o => Sys2Proof.Machine.execRel o s
  | .fence o => Sys2Proof.Machine.execFence o s
  | .pref o => Sys2Proof.Machine.execPref o s
  | .park o => Sys2Proof.Machine.execPark o s
  | .cflush o => Sys2Proof.Machine.execCflush o s
  | .cinv o => Sys2Proof.Machine.execCinv o s
  | .cwb o => Sys2Proof.Machine.execCwb o s
  | .handoff o => Sys2Proof.Machine.execHandoff o s
  | .rmode o => Sys2Proof.Machine.execRmode o s
  | .ncwin o => Sys2Proof.Machine.execNcwin o s
  | .tlbinv o => Sys2Proof.Machine.execTlbinv o s
  | .tlbprobe o => Sys2Proof.Machine.execTlbprobe o s
  | .replay o => Sys2Proof.Machine.execReplay o s
  | .potset o => Sys2Proof.Machine.execPotset o s
  | .copy o => Sys2Proof.Machine.execCopy o s
  | .qput o => Sys2Proof.Machine.execQput o s
  | .qclaim o => Sys2Proof.Machine.execQclaim o s
  | .taskdef o => Sys2Proof.Machine.execTaskdef o s
  | .taskdep o => Sys2Proof.Machine.execTaskdep o s
  | .tasksig o => Sys2Proof.Machine.execTasksig o s
  | .swzadr o => Sys2Proof.Machine.execSwzadr o s
  | .mseta o => Sys2Proof.Machine.execMseta o s
  | .msetb o => Sys2Proof.Machine.execMsetb o s
  | .mzero o => Sys2Proof.Machine.execMzero o s
  | .mrd o => Sys2Proof.Machine.execMrd o s
  | .mwr o => Sys2Proof.Machine.execMwr o s
  | .mspan o => Sys2Proof.Machine.execMspan o s
  | .mseq o => Sys2Proof.Machine.execMseq o s
  | .mma o => Sys2Proof.Machine.execMma o s
  | .mldb o => Sys2Proof.Machine.execMldb o s
  | .kvx o => Sys2Proof.Machine.execKvx o s
  | .kvalloc o => Sys2Proof.Machine.execKvalloc o s
  | .kvfree o => Sys2Proof.Machine.execKvfree o s
  | .kvpin o => Sys2Proof.Machine.execKvpin o s
  | .kvunpin o => Sys2Proof.Machine.execKvunpin o s
  | .wqpull o => Sys2Proof.Machine.execWqpull o s
  | .wqpush o => Sys2Proof.Machine.execWqpush o s
  | .lastarr o => Sys2Proof.Machine.execLastarr o s
  | .sysc o => Sys2Proof.Machine.execSysc o s
  | .fencec o => Sys2Proof.Machine.execFencec o s
  | .trap o => Sys2Proof.Machine.execTrap o s
  | .tret o => Sys2Proof.Machine.execTret o s
  | .brk o => Sys2Proof.Machine.execBrk o s
  | .halt o => Sys2Proof.Machine.execHalt o s
  | .select core part => Sys2Proof.Machine.execSelect core part s
  | .rescan core part => Sys2Proof.Machine.execRescan core part s
  | .rendezvousComplete t => Sys2Proof.Machine.execRendezvousComplete t s
  | .rendezvousTimeout t => Sys2Proof.Machine.execRendezvousTimeout t s
  | .cleatRelease core cleat => Sys2Proof.Machine.execCleatRelease core cleat s
  | .cleatTimeout core cleat => Sys2Proof.Machine.execCleatTimeout core cleat s
  | .bindRecordWrite core slot w0 w1 w2 w3 => Sys2Proof.Machine.execBindRecordWrite core slot w0 w1 w2 w3 s
  | .yardInit core => Sys2Proof.Machine.execYardInit core s
  | .poolDeadlock core part => Sys2Proof.Machine.execPoolDeadlock core part s
  | .launch n places => Sys2Proof.Machine.execLaunch n places s
  | .queueConsume slot => Sys2Proof.Machine.execQueueConsume slot s
  | .nearDataPacket n places => Sys2Proof.Machine.execNearDataPacket n places s
  | .queueAttach slot v => Sys2Proof.Machine.execQueueAttach slot v s
  | .queueDetach slot => Sys2Proof.Machine.execQueueDetach slot s
  | .copyComplete n lines => Sys2Proof.Machine.execCopyComplete n lines s
  | .segmentLanded core seg => Sys2Proof.Machine.execSegmentLanded core seg s
  | .engineCancel core slot => Sys2Proof.Machine.execEngineCancel core slot s
  | .matrixQueueEnter core => Sys2Proof.Machine.execMatrixQueueEnter core s
  | .matrixOpStart core => Sys2Proof.Machine.execMatrixOpStart core s
  | .matrixOpComplete core => Sys2Proof.Machine.execMatrixOpComplete core s
  | .storeRegistrationAck n late drop => Sys2Proof.Machine.execStoreRegistrationAck n late drop s
  | .walkComplete n => Sys2Proof.Machine.execWalkComplete n s
  | .fbreplay cluster ctx => Sys2Proof.Machine.execFbreplay cluster ctx s
  | .fbdeliver cluster entry => Sys2Proof.Machine.execFbdeliver cluster entry s
  | .interruptFileWrite ident => Sys2Proof.Machine.execInterruptFileWrite ident s
  | .shootdownSeqWrite v => Sys2Proof.Machine.execShootdownSeqWrite v s
  | .shootdownComplete => Sys2Proof.Machine.execShootdownComplete s
  | .holderRead h pa => Sys2Proof.Machine.execHolderRead h pa s
  | .holderOwnershipRequest h pa => Sys2Proof.Machine.execHolderOwnershipRequest h pa s
  | .holderWriteback h pa data => Sys2Proof.Machine.execHolderWriteback h pa data s
  | .bisnpResponse h pa data => Sys2Proof.Machine.execBisnpResponse h pa data s
  | .directoryMerge pa level => Sys2Proof.Machine.execDirectoryMerge pa level s
  | .handoverGo v => Sys2Proof.Machine.execHandoverGo v s
  | .handoverComplete lines => Sys2Proof.Machine.execHandoverComplete lines s
  | .refreshTick pc => Sys2Proof.Machine.execRefreshTick pc s
  | .refreshForced pc => Sys2Proof.Machine.execRefreshForced pc s
  | .memoryRead pa ecc queued => Sys2Proof.Machine.execMemoryRead pa ecc queued s
  | .linkDown port => Sys2Proof.Machine.execLinkDown port s
  | .linkTrain port ids => Sys2Proof.Machine.execLinkTrain port ids s
  | .portViral port => Sys2Proof.Machine.execPortViral port s
  | .expanderLost port base len => Sys2Proof.Machine.execExpanderLost port base len s
  | .sramSoftError addr uncorrectable uid index => Sys2Proof.Machine.execSramSoftError addr uncorrectable uid index s
  | .salvage port work => Sys2Proof.Machine.execSalvage port work s
  | .discard port => Sys2Proof.Machine.execDiscard port s
  | .clearviral port => Sys2Proof.Machine.execClearviral port s
  | .kickPreempt ctx => Sys2Proof.Machine.execKickPreempt ctx s
  | .kickRestore ctx => Sys2Proof.Machine.execKickRestore ctx s
  | .kickReplay ctx clusters => Sys2Proof.Machine.execKickReplay ctx clusters s
  | .preemptRequest ctx => Sys2Proof.Machine.execPreemptRequest ctx s
  | .coreHalt core => Sys2Proof.Machine.execCoreHalt core s
  | .contextSave ctx => Sys2Proof.Machine.execContextSave ctx s
  | .contextRestore ctx onto intact => Sys2Proof.Machine.execContextRestore ctx onto intact s
  | .quotaFold => Sys2Proof.Machine.execQuotaFold s
  | .debugStop ctx => Sys2Proof.Machine.execDebugStop ctx s
  | .debugResume ctx => Sys2Proof.Machine.execDebugResume ctx s
  | .debugStep ctx => Sys2Proof.Machine.execDebugStep ctx s
  | .stopwWrite ctx v => Sys2Proof.Machine.execStopwWrite ctx v s
  | .syscallEcho core n => Sys2Proof.Machine.execSyscallEcho core n s
  | .syscallTime core n => Sys2Proof.Machine.execSyscallTime core n s
  | .syscallHostmsg core n => Sys2Proof.Machine.execSyscallHostmsg core n s
  | .syscallUnknown core n => Sys2Proof.Machine.execSyscallUnknown core n s
  | .poolAttach slot ctx v => Sys2Proof.Machine.execPoolAttach slot ctx v s
  | .poolDetach slot ctx => Sys2Proof.Machine.execPoolDetach slot ctx s
  | .compactionStep cls => Sys2Proof.Machine.execCompactionStep cls s
  | .movePublish cls => Sys2Proof.Machine.execMovePublish cls s
  | .wqAttach q ctx v => Sys2Proof.Machine.execWqAttach q ctx v s
  | .wqDetach q ctx => Sys2Proof.Machine.execWqDetach q ctx s
  | .wqClose q ctx => Sys2Proof.Machine.execWqClose q ctx s
  | .wqpullComplete q => Sys2Proof.Machine.execWqpullComplete q s
  | .create w => Sys2Proof.Machine.execCreate w s
  | .destroy w => Sys2Proof.Machine.execDestroy w s
  | .assign w => Sys2Proof.Machine.execAssign w s
  | .quota w => Sys2Proof.Machine.execQuota w s
  | .rotate w => Sys2Proof.Machine.execRotate w s
  | .keySweepComplete sweep => Sys2Proof.Machine.execKeySweepComplete sweep s
  | .register w => Sys2Proof.Machine.execRegister w s
  | .cert w => Sys2Proof.Machine.execCert w s
  | .checkpoint w => Sys2Proof.Machine.execCheckpoint w s
  | .log w => Sys2Proof.Machine.execLog w s
  | .ndallow w => Sys2Proof.Machine.execNdallow w s
  | .ndopen w session accepted peer => Sys2Proof.Machine.execNdopen w session accepted peer s
  | .reclaim w => Sys2Proof.Machine.execReclaim w s
  | .trustUnknownCommand code => Sys2Proof.Machine.execTrustUnknownCommand code s
  | .usagePeriodic w => Sys2Proof.Machine.execUsagePeriodic w s
  | .nearDataTagGo ctx v => Sys2Proof.Machine.execNearDataTagGo ctx v s
  | .nearDataTagDone ctx => Sys2Proof.Machine.execNearDataTagDone ctx s
  | .getVersion tr => Sys2Proof.Machine.execGetVersion tr s
  | .getCapabilities tr wellFormed => Sys2Proof.Machine.execGetCapabilities tr wellFormed s
  | .negotiateAlgorithms tr wellFormed => Sys2Proof.Machine.execNegotiateAlgorithms tr wellFormed s
  | .getDigests tr wellFormed => Sys2Proof.Machine.execGetDigests tr wellFormed s
  | .getCertificate tr wellFormed slot offset length => Sys2Proof.Machine.execGetCertificate tr wellFormed slot offset length s
  | .challenge tr wellFormed slot nonce => Sys2Proof.Machine.execChallenge tr wellFormed slot nonce s
  | .getMeasurements tr wellFormed index => Sys2Proof.Machine.execGetMeasurements tr wellFormed index s
  | .keyExchange tr wellFormed session ndWorld peer => Sys2Proof.Machine.execKeyExchange tr wellFormed session ndWorld peer s
  | .finish tr wellFormed verified => Sys2Proof.Machine.execFinish tr wellFormed verified s
  | .spdmUnexpectedRequest tr => Sys2Proof.Machine.execSpdmUnexpectedRequest tr s
  | .dcExtentOffer base pages tag => Sys2Proof.Machine.execDcExtentOffer base pages tag s
  | .dcExtentRelease base pages => Sys2Proof.Machine.execDcExtentRelease base pages s
  | .coldStart failAt puf dbgen sysPages => Sys2Proof.Machine.execColdStart failAt puf dbgen sysPages s
  | .warmStart failAt => Sys2Proof.Machine.execWarmStart failAt s
  | .i3cEntdaa addr => Sys2Proof.Machine.execI3cEntdaa addr s
  | .opChangeComplete cluster => Sys2Proof.Machine.execOpChangeComplete cluster s
  | .powerCapStep => Sys2Proof.Machine.execPowerCapStep s
  | .capClear => Sys2Proof.Machine.execCapClear s
  | .ltolWrite v => Sys2Proof.Machine.execLtolWrite v s
  | .clusterGate cluster => Sys2Proof.Machine.execClusterGate cluster s
  | .ps2Entry => Sys2Proof.Machine.execPs2Entry s
  | .ps3Entry => Sys2Proof.Machine.execPs3Entry s
  | .powerWake => Sys2Proof.Machine.execPowerWake s
  | .powerExitDone => Sys2Proof.Machine.execPowerExitDone s
  | .registerWrite off size v => Sys2Proof.Machine.execRegisterWrite off size v s
  | .snoop pa inv => Sys2Proof.Machine.execSnoop pa inv s
  | .contextCreated ctx root0 root1 cores grants => Sys2Proof.Machine.execContextCreated ctx root0 root1 cores grants s
  | .contextEnded ctx => Sys2Proof.Machine.execContextEnded ctx s
  | .hdmDecoderWrite port base size ways gran => Sys2Proof.Machine.execHdmDecoderWrite port base size ways gran s
  | .sensorReading temp power => Sys2Proof.Machine.execSensorReading temp power s
  | .pwrgdFall => Sys2Proof.Machine.execPwrgdFall s

end Sys2Proof.Machine
end

