-- ==== Sys2Proof/Machine/Issue.lean ====
section
/-! DEFINITION. Issue (02_encoding R24, R25; 03_threads R74 to R81): what the focused partition does next, the words of a packet
and of a chain in their order, switch points, merges and departures; the events that happen by themselves; and the passing of
a core cycle. The step calls these. -/

namespace Sys2Proof.Machine

/-! ### A core cycle -/

/-- Whether the clock of a core's cluster runs: it stands still in PS1, and on the whole device in PS2 and PS3 (20_boundary
R429). -/
def State.clocked (s : State) (core : Nat) : Bool := s.power.pstate == 0 && !s.power.gated.toNat.testBit (clusterOf core)

/-- A core cycle passes: CYC of every core that serves a context and is clocked (R440), yard-time (19_trust R412) and the reference clock.
(DESIGN CHOICE, log 4, 17, 126.) -/
def State.passCycle (s : State) : State :=
  let s1 := { s with
    now := s.now + 1,
    fab := { s.fab with cores := Map.mapVals (fun i x =>
      if i < Config.cores && x.ctx.isSome && s.clocked i then { x with cyc := x.cyc + 1 } else x) s.fab.cores } }
  (s1.countYards).passTicks (Config.ticksOf s.now)

/-- What the threads leave of a step: write-backs that no copy holds up, members that a set fault suspends, source values that
no word needs any longer. -/
def State.settleThreads (s : State) : State := s.settleOwed.settleSets.settleSnaps

/-- Requests that wait at the directory take their turns (11_coherence R237, 09_memory R227). -/
def State.settleRequests (s : State) : State := s.settleAsks.settleFetches

/-- What follows from the end of a step: launches complete, aged queues, gated clusters and the package state are as the threads
and the engines leave them. -/
def State.wrapUp (s : State) : State := (s.settleThreads.settleRequests.reapLaunches.settleAged).ungate.rouse

/-- An outcome with a function applied to its next state. -/
def outcomeMap (f : State → State) (o : Outcome) : Outcome :=
  match o with
  | .next s => .next (f s)
  | .fault r => .fault r
  | .refused r => .refused r

/-! ### Streams and their groups -/

/-- The partition key of the focus. -/
def State.fpart (s : State) : Nat := partKey s.focus.1 s.focus.2

/-- The number of the next group after `cur`, round robin, that has threads left. -/
def nextGroup (groups : List Group) (cur : Nat) : Nat :=
  let n := groups.length
  (((List.range n).map fun i => (cur + 1 + i) % n).find? fun j =>
    match groups[j]? with
    | none => false
    | some g => !g.lanes.isEmpty).getD cur

/-- Issue passes to the next group of a partition's stream (R80). (DEDUCED, log 25.) -/
def State.passIssue (s : State) (p : Nat) : State :=
  s.modPart p fun q => { q with stream := q.stream.map fun st => { st with cur := nextGroup st.groups st.cur } }

/-- A switch point of the current group: its latches are lost, its run ends, and issue passes on (R80, R132).
(DEDUCED, log 28.) -/
def State.endRun (s : State) (p : Nat) : State :=
  match s.group with
  | none => s
  | some g =>
    let s1 := s.updLanes g.lanes fun _ t => { t with lat := noLatches }
    (s1.modGroup p fun g => { g with sw := false, run := 0, runs := false }).passIssue p

/-- Whether a streaming thread leaves its group at a switch point: a stop is due, or a set fault holds it (R372, R377). -/
def State.leavesAtSwitch (s : State) (k : Nat) : Bool := (s.thread k).stopDue.isSome || s.heldBySet k

/-- A thread leaves its group at a switch point: it stops if that is due, and else waits where it stands. -/
def State.leaveAtSwitch (s : State) (k : Nat) : State :=
  let t := s.thread k
  match t.stopDue with
  | some (group, command) =>
    let s1 := s.stopAt k t.pc t.wpos widened group
    if command then (s1.tellStop k widened).widen [k] group else s1
  | none => s.unstream false k

/-! ### The start of a packet -/

/-- Whether the group at the start of a packet merges into another entry (R79). (DEDUCED, log 28.) -/
def Part.merges (q : Part) (st : Stream) (g : Group) : Bool :=
  q.entries.any fun e => e.addr == g.pc && e.addr != st.addr && !e.wait.isEmpty

/-- The fetch of a packet by the threads of a group: the trap that it raises (R26, R105). -/
def State.fetchTrap (s : State) (core : Nat) (pc : BitVec 16) : Option Trap :=
  if Config.lastPacket < pc.toNat % 8192 then some (trapOf 0x15 (pc.zeroExtend 64))
  else if !s.segReady core pc then some (trapOf 0x06 (pc.zeroExtend 64))
  else none

/-- Every thread of a group traps at a word of its packet. -/
def State.trapGroup (s : State) (g : Group) (w : Nat) (i : Trap) : State :=
  s.raiseAt .lane (g.lanes.map fun k => (k, g.pc, w, i))

/-! ### Before a chain -/

/-- A step is due: its trap, or the stop that takes its place in a debugged thread outside a handler (R382). -/
def State.stepDue (s : State) (k : Nat) : State :=
  let s1 := s.modThread k fun t => { t with step := .off }
  let t := s1.thread k
  let i := trapOf 0x12 0
  if s1.attached k && !t.trec.intrap then
    let group := s1.serialNo
    ((s1.bumpSerial.stopAt k t.pc t.wpos i group).tellStop k i).widen [k] group
  else s1.trap k t.pc t.wpos i

/-- Whether a thread takes an exception of its own before its next issue. -/
def Thread.dueNow (t : Thread) : Bool := t.quotaTrap.isSome || t.step == .due

/-- A thread takes it: a quota (R380), else a step. -/
def State.takeDue (s : State) (k : Nat) : State :=
  let t := s.thread k
  match t.quotaTrap with
  | some q => (s.modThread k fun t => { t with quotaTrap := none }).trap k t.pc t.wpos (trapOf 0x14 (BitVec.ofNat 64 q))
  | none => s.stepDue k

/-- The first word of a chain that carries RIG scope. (DEDUCED, log 24.) -/
def rigWord (v : Nat) (c : List SlotWord) : Option SlotWord :=
  c.find? fun x => setKind v (BitVec.ofNat 2 x.instr.form.scope) == .rig

/-- Threads reach a word of wider scope: each waits there, and those of a yard in no rig trap at RIG scope (R82, R83). -/
def State.openRendezvous (s : State) (g : Group) (kind : SetKind) (i : Trap) (ks : List Nat) : State :=
  let lost := if kind == .rig then ks.filter fun k => (s.yard (yardOf k)).rig.isNone else []
  let s1 := (ks.filter fun k => !lost.contains k).foldl (fun s k => s.park k g.w (.rendezvous s.now) false) s
  s1.raiseAt kind (lost.map fun k => (k, g.pc, g.w, i))

/-- The threads of the group that issue its word, made ready: latches kept for the word are restored (R134), and where words of
the chain remain, they read their operands as they stand before it (R24). A chain that is executed apart, as though it were
unchained, stays so to its end. (DEDUCED, log 29.) -/
def State.readyThreads (s : State) (ks : List Nat) (more apart : Bool) : State :=
  s.updLanes ks fun k t =>
    let t1 := { t with lat := t.kept.getD t.lat, kept := none, loose := t.loose || apart }
    let y := s.yard (yardOf k)
    if more && t1.held.isNone && !t1.loose then
      { t1 with held := some { view := t1.view, rig := y.rig, spl := (y.splbase, y.spllim), pool := s.poolWords k } }
    else t1

/-! ### What the focused partition does next -/

/-- What a partition does in a step: the next word of its current group issues, with the words of its chain that remain
after it, in the state made ready for it; something else happens; or nothing can. -/
inductive Issue where
  | word (x : SlotWord) (n : Nat) (s : State)
  | done (s : State)
  | idle
  deriving DecidableEq, Repr

/-- The words of a group's packet: as it has fetched them, or as they stand. (DEDUCED, log 29.) -/
def State.groupWords (s : State) (core : Nat) (g : Group) : List Word :=
  if g.words.isEmpty then s.packetAt core g.pc else g.words

/-- The next word of a group whose packet has been decoded. -/
def State.issueWord (s : State) (p v : Nat) (ws : List Word) (dec : List SlotWord) (g : Group) : Issue :=
  let ks := g.lanes.filter fun k => (s.thread k).wpos ≤ g.w
  let loose := ks.any fun k => (s.thread k).loose
  let lead := ks.headD 0
  let chain := s.chainAt lead dec g.w loose
  let apart := s.conflicting lead (chainOf dec g.w)
  let kind := widest v chain
  let late := if g.left = 0 then ks.filter fun k => (s.thread k).dueNow else []
  let waits := if g.left = 0 && kind != .lane then ks.filter fun k => (s.thread k).released.isNone else []
  match chain with
  | [] => .done (s.trapGroup g g.w (trapOf 0x02 ((ws.getD g.w 0).zeroExtend 64)))
  | x :: _ =>
    let n := if g.left = 0 then chain.length - 1 else g.left - 1
    let stage := match x.instr with
      | .stage _ => true
      | _ => false
    if !late.isEmpty then .done (late.foldl (fun s k => s.takeDue k) s)
    else if stage && g.runs then .done (s.endRun p)
    else if !waits.isEmpty then
      let i := trapOf 0x02 (((rigWord v chain).map fun y => wordOf y.instr).getD 0)
      .done (s.openRendezvous g kind i waits)
    else
      let s1 := s.modGroup p fun g => { g with words := ws, left := n, stall := false, runs := true }
      .word x n (s1.readyThreads ks (decide (0 < n)) (apart && decide (g.left = 0)))

/-- The next packet or word of the current group. (DEDUCED, log 24.) -/
def State.issueGroup (s : State) (p : Nat) (q : Part) (st : Stream) (g : Group) : Issue :=
  let core := s.focus.1
  let busy := g.runs || s.longAt g
  let leavers := if busy then [] else g.lanes.filter s.leavesAtSwitch
  let start := g.lanes.all fun k => decide (g.w < (s.thread k).wpos)
  if g.lanes.isEmpty then .done (s.passIssue p)
  else if !busy && (s.core core).preempt then .idle
  else if !leavers.isEmpty then .done (leavers.foldl (fun s k => s.leaveAtSwitch k) s)
  else if g.words.isEmpty && q.merges st g then
    .done ((g.lanes.foldl (fun s k => if s.leavesAtSwitch k then s.leaveAtSwitch k else s.unstream false k) s).endRun p)
  else if start then .done (s.modGroup p fun g => { g with w := s.firstWord g.lanes })
  else
    match (if g.words.isEmpty then s.fetchTrap core g.pc else none) with
    | some i => .done (s.trapGroup g 0 i)
    | none =>
      let v := s.groupVersion g.lanes
      let ws := s.groupWords core g
      match decodePacket v ws with
      | .bad w cause => .done (s.trapGroup g w (trapOf cause ((ws.getD w 0).zeroExtend 64)))
      | .words dec => s.issueWord p v ws dec g

/-- What the focused partition does next. -/
def State.issue (s : State) : Issue :=
  let core := s.focus.1
  let p := s.fpart
  let q := s.part p
  if Config.cores ≤ core || Config.partitions ≤ s.focus.2 || (s.core core).ctx.isNone then .idle
  else match q.stream with
  | none => if s.coreRuns core && (s.choose q).isSome then .done (s.selectIn core s.focus.2) else .idle
  | some st =>
    if st.groups.all fun g => g.lanes.isEmpty then .done (s.endStream p)
    else match st.groups[st.cur]? with
    | none => .done (s.passIssue p)
    | some g => s.issueGroup p q st g

/-! ### After a word -/

/-- The index of the instruction word after a word of a packet, if there is one. -/
def wordAfter (dec : List SlotWord) (idx : Nat) : Option Nat :=
  (dec.find? fun x => decide (idx < x.idx)).map fun x => x.idx

/-- Whether a thread that has left its group did not issue the word: it waits to issue it again. -/
def Thread.retries (t : Thread) : Bool :=
  match t.st with
  | .blocked (.future _) => true
  | .blocked .burst => true
  | .blocked (.page _ kind _ _) => kind != 3
  | _ => false

/-- The step of a thread that has performed its issue is due (R382). -/
def Thread.stepTaken (t : Thread) : Thread := if t.retries then t else { t with step := .due }

/-- What a thread does at the end of its chain, when a word of it said so (R25). -/
def State.depart (s : State) (k : Nat) : State :=
  match (s.thread k).leaving with
  | .no => s
  | .goto pc => s.goto k pc
  | .exit => s.exitThread k
  | .ret => s.retNow k

/-- The group goes on to the next word of its packet or to the next packet, and its threads with it. -/
def State.moveOn (s : State) (p : Nat) (next : Option Nat) (ks : List Nat) : State :=
  match next with
  | some w => (s.updLanes ks fun _ t => { t with wpos := w }).modGroup p fun g => { g with w := w }
  | none =>
    (s.updLanes ks fun _ t => { t with pc := t.pc + 1, wpos := 0 }).modGroup p fun g =>
      { g with pc := g.pc + 1, w := 0, words := [], run := g.run + 1, sw := g.sw || Config.runPackets ≤ g.run + 1 }

/-- The end of a chain or of a single word: what its threads kept for it is cleared, departures take effect, and a switch
point ends the run (R80). (DEDUCED, log 80.) -/
def State.chainEnd (s : State) (p : Nat) (dec : List SlotWord) (next : Option Nat) (ks : List Nat) : State :=
  let heads := (chainsOf dec).filterMap fun c => c.head?.map fun x => x.idx
  let out := match next with
    | none => true
    | some w => heads.contains w
  let s1 := s.updLanes ks fun _ t =>
    { t with held := none, released := none, given := none, loose := t.loose && !out }
  let s2 := ks.foldl (fun s k => s.depart k) s1
  match s2.group with
  | none => s2
  | some g => if g.sw then s2.endRun p else s2

/-- The state after a word has been performed: a stalled word has not issued and is tried again; else the group moves on.
`was` is the group before the word, `issued` the threads that issued it and `armed` those of them whose step it is.
(DEDUCED, log 25.) -/
def State.afterWord (s : State) (x : SlotWord) (dec : List SlotWord) (n : Nat) (was : Group) (issued armed : List Nat) : State :=
  let p := s.fpart
  match s.group with
  | none => s
  | some g =>
    if g.stall then
      let s1 := s.modGroup p fun g => { g with left := was.left, runs := was.runs }
      let s2 := if was.left = 0 then s1.updLanes issued fun _ t => { t with held := none } else s1
      if was.runs then s2 else s2.passIssue p
    else
      let ks := issued.filter fun k => g.lanes.contains k
      let s1 := if x.instr.pipe == .m then s.modGroup p fun g => { g with sw := true } else s
      let s2 := s1.updLanes (armed.filter fun k => decide (n = 0) || !g.lanes.contains k) fun _ t => t.stepTaken
      let next := wordAfter dec x.idx
      let s3 := s2.moveOn p next ks
      if n = 0 then s3.chainEnd p dec next ks else s3

/-! ### A turn of the focused partition -/

/-- The words of the packet that a group issues from. -/
def State.groupDecoded (s : State) (g : Group) : List SlotWord :=
  match decodePacket (s.groupVersion g.lanes) (s.groupWords s.focus.1 g) with
  | .bad _ _ => []
  | .words dec => dec

/-- The word `x` issues in a state that has been made ready for it: its meaning is performed, and the group moves on. -/
def State.perform (s was : State) (x : SlotWord) (n : Nat) : Outcome :=
  match was.group with
  | none => .next s
  | some g =>
    let armed := s.here.lanes.filter fun k => (s.thread k).step == .armed
    outcomeMap (fun t => (t.afterWord x (was.groupDecoded g) n g s.here.lanes armed).wrapUp) (exec x.instr s)

/-- The focused partition takes its turn. -/
def State.runIssue (s : State) : Outcome :=
  match s.issue with
  | .word x n s1 => s1.perform s x n
  | .done s1 => .next s1.wrapUp
  | .idle => .next s.wrapUp

/-- Whether the focused group stands inside a chain whose words issue in one core cycle. -/
def State.midChain (s : State) : Bool :=
  match s.group with
  | none => false
  | some g => decide (0 < g.left) && !g.stall && !g.lanes.isEmpty

/-- Whether the focused group's word has stalled. -/
def State.stalledNow (s : State) : Bool :=
  match s.group with
  | none => false
  | some g => g.stall

/-- Whether the focused group stands inside a run. -/
def State.midRun (s : State) : Bool :=
  match s.group with
  | none => false
  | some g => g.runs && !g.stall && !g.lanes.isEmpty

/-! ### Events that happen by themselves -/

/-- Events of a partition's scheduling. -/
def partEvents (core part : Nat) (q : Part) : List (State → Outcome) :=
  (if q.unindexed.isEmpty then [] else [execRescan core part]) ++ (if q.hoistq.isEmpty then [] else [execPoolDeadlock core part])

/-- Events of a core. -/
def coreEvents (i : Nat) (x : Core) : List (State → Outcome) :=
  x.cleats.flatMap (fun c => [execCleatRelease i c.1, execCleatTimeout i c.1]) ++
  [execMatrixQueueEnter i, execMatrixOpComplete i, execMatrixOpStart i] ++
  x.segs.filterMap (fun g => if g.2.st == 1 then some (execSegmentLanded i g.1) else none) ++
  x.futs.filterMap (fun f => if f.2.cancel && f.2.res.isNone then some (execEngineCancel i f.1) else none) ++
  [execYardInit i] ++
  x.ring.flatMap (fun c =>
    [execSyscallEcho i c.1, execSyscallTime i c.1, execSyscallHostmsg i c.1, execSyscallUnknown i c.1]) ++ [execCoreHalt i]

/-- Events of threads that wait at a rendezvous. -/
def State.threadEvents (s : State) : List (State → Outcome) :=
  (s.fab.threads.filter fun p => p.2.waitSince.isSome).flatMap fun p => [execRendezvousComplete p.1, execRendezvousTimeout p.1]

/-- The trust command that runs. NDOPEN waits for its expander, and so is not among them. -/
def trustEvent (r : TrustRun) : List (State → Outcome) :=
  match r.code with
  | 1 => [execCreate r.world]
  | 2 => [execDestroy r.world]
  | 3 => [execAssign r.world]
  | 4 => [execQuota r.world]
  | 5 => [execRotate r.world]
  | 6 => [execRegister r.world]
  | 7 => [execCert r.world]
  | 8 => [execCheckpoint r.world]
  | 9 => [execLog r.world]
  | 10 => [execNdallow r.world]
  | 11 => []
  | 12 => [execReclaim r.world]
  | n => [execTrustUnknownCommand n]

/-- Events that happen by themselves when their condition holds: each leaves the state as it is when it does not. What the host,
firmware's policy, a link or an expander does comes with the agenda alone. (DESIGN CHOICE, log 1.) -/
def State.events (s : State) : List (State → Outcome) :=
  s.fab.parts.flatMap (fun p => partEvents (p.1 / 8) (p.1 % 8) p.2) ++ s.threadEvents ++
  s.fab.cores.flatMap (fun c => if c.1 < Config.cores then coreEvents c.1 c.2 else []) ++
  s.eng.copies.map (fun x => execCopyComplete x.num 0) ++
  s.eng.queues.filterMap (fun q => if q.2.att then some (execQueueConsume q.1) else none) ++
  s.eng.moves.map (fun m => execMovePublish m.1) ++
  s.eng.pools.flatMap (fun p => if p.2.att then (List.range 4).map execCompactionStep else []) ++
  s.eng.wqs.map (fun w => execWqpullComplete w.1) ++
  (List.range s.mem.walks.length).map execWalkComplete ++
  (List.range s.mem.pend.length).map (fun n => execStoreRegistrationAck n [] true) ++
  (if s.mem.sd.running then [execShootdownComplete] else []) ++
  (if s.mem.ho.busy then [execHandoverComplete 0] else []) ++
  s.mem.refresh.flatMap (fun r => (if r.2.lastTick.isSome then [execRefreshTick r.1] else []) ++
    (if r.2.pendingForced.isSome then [execRefreshForced r.1] else [])) ++
  s.ctxs.flatMap (fun c => (if c.2.saving then [execContextSave c.1] else []) ++
    (if c.2.tag.busy then [execNearDataTagDone c.1] else [])) ++
  (match s.trust.cmd.run with
    | none => []
    | some r => trustEvent r) ++
  s.trust.worlds.flatMap (fun w => (if w.2.sp.isSome then [execKeySweepComplete (w.1, 0)] else []) ++ [execUsagePeriodic w.1]) ++
  s.mem.ports.flatMap (fun p => if p.2.cmd.isSome then [execSalvage p.1 (0, []), execDiscard p.1] else []) ++
  [execQuotaFold] ++ (if s.status.state == 4 then [execWarmStart 0] else []) ++
  (List.range Config.clusters).flatMap (fun c => [execOpChangeComplete c, execClusterGate c]) ++
  [execPowerCapStep, execCapClear, execPowerExitDone, execPs2Entry, execPs3Entry]

/-- Whether an event changes the state. -/
def State.enabled (s : State) (f : State → Outcome) : Bool :=
  match f s with
  | .next t => decide (t ≠ s)
  | _ => false

/-- The event that happens next by itself: the first enabled one, the list begun at a place that moves with time. -/
def State.nextEvent (s : State) : Option (State → Outcome) :=
  let l := s.events
  let n := s.now / 2 % (l.length + 1)
  (l.drop n ++ l.take n).find? s.enabled

/-- An event happens. -/
def State.happen (s : State) (f : State → Outcome) : Outcome := outcomeMap State.wrapUp (f s)

/-! ### A step with an empty agenda -/

/-- Whether a partition has a stream or an entry that can be selected. -/
def State.hasWork (s : State) (p : Nat) : Bool :=
  (s.part p).stream.isSome || (s.coreRuns (p / 8) && (s.choose (s.part p)).isSome)

/-- The focus passes to the next partition that has work, round robin. -/
def State.passFocus (s : State) : State :=
  let ps := s.fab.parts.filterMap fun p => if p.1 < 8 * Config.cores && s.hasWork p.1 then some p.1 else none
  match ps.find? (fun p => decide (s.fpart < p)) with
  | some p => { s with focus := (p / 8, p % 8) }
  | none => match ps with
    | [] => s
    | p :: _ => { s with focus := (p / 8, p % 8) }

/-- Nothing that the focused partition could do comes first: an event happens, or the focus passes on. -/
def State.yieldTurn (s : State) : Outcome :=
  match s.nextEvent with
  | some f => s.happen f
  | none => (s.passFocus).runIssue

/-- A step with an empty agenda: the focused partition goes on with its run; between runs, and while its word is stalled, it
takes turns with the events and with the other partitions. (DESIGN CHOICE, log 1.) -/
def State.auto (s : State) : Outcome :=
  if s.midRun then s.runIssue
  else if s.now % 2 = 1 then
    match s.issue with
    | .idle => s.yieldTurn
    | _ => s.runIssue
  else s.yieldTurn

/-! ### A machine about to fetch a packet -/

/-- A packet that holds one instruction whose first words are given, with its literal word if it takes one, and NOP words.
(DESIGN CHOICE, log 18.) -/
def packetOf (ws : List Word) : List Word :=
  let w (i : Nat) : Word := ws.getD i 0
  match decodeWords 3 [w 0, w 1, w 2] with
  | none => [w 0, w 1, w 2]
  | some i =>
    if i.form.isWide then [w 0, w 1, w 2]
    else if i.form.takesLit then [w 0, w 1, nopWord]
    else [w 0, nopWord, nopWord]

/-- The machine with a kernel of one packet loaded on core 0: context 0 of world 1 is resident there, one yard of one thread is
bound in slot 0 under encoding version 3, and the thread streams at packet 0 of segment 0. It stands for the placement of a
launch and the landing of its overlay (log 18). -/
def State.loadPacket (s : State) (ws : List Word) : State :=
  let bytes := ws.zipIdx.foldl (fun m x => m.setWord (chipKey 5 0 (4 * x.2)) x.1) s.mem.bytes
  let group : Group := { lanes := [0], pc := 0, w := 0, words := [], run := 0, left := 0, sw := false, runs := false,
                         stall := false }
  let s1 := (s.setMem { s.mem with bytes := bytes }).setCtx 0 { s.ctx 0 with
    created := true, resident := true, saving := false, world := 1, cores := [0] }
  let s2 := s1.setCore 0 { s.core 0 with
    ctx := some 0, preempt := false, halted := false, segs := [(0, { Seg.init with st := 2, packets := 1 })] }
  let s3 := s2.setYard 0 { Yard.init with
    bind := { Bind.init with valid := true, world := 1, version := 3, lanes := 1 }, resident := true }
  let s4 := (s3.setThread 0 { Thread.init with st := .streaming }).setPart 0 { Part.init with
    entries := [{ addr := 0, wait := [], age := 0 }], stream := some { addr := 0, groups := [group], cur := 0 } }
  { s4 with agenda := [], focus := (0, 0) }

end Sys2Proof.Machine
end

