-- ==== Sys2Proof/Machine/Step.lean ====
section
/-! DEFINITION. The step, and the state in which a given instruction is the next that the step fetches. -/

namespace Sys2Proof.Machine

/-- One step. The words of a chain issue one step after another with nothing between them; else the agenda says what happens,
and with an empty agenda the machine goes on by itself. (DESIGN CHOICE, log 1, 126, 147.) -/
def step (s : State) : Host.Outcome State Fault Refusal :=
  if s.midChain then s.runIssue
  else match s.agenda with
  | .event i :: r =>
    if i.form.isEvent then ({ s with agenda := r }).passCycle.happen (exec i) else .fault .notAnEvent
  | .issue core part :: r => ({ s with agenda := r, focus := (core, part) }).passCycle.runIssue
  | [] => s.passCycle.auto

/-- The state with the instruction of an opcode-table row stored where the step fetches its next instruction.
(DESIGN CHOICE, log 18.) -/
def State.withFetchWord (s : State) (nbits w : Nat) : State :=
  let v := w % 2 ^ nbits
  s.loadPacket (packetOf [BitVec.ofNat 32 v, BitVec.ofNat 32 (v / 2 ^ 32), BitVec.ofNat 32 (v / 2 ^ 64)])

end Sys2Proof.Machine
end

