-- ==== Sys2Proof/Safety.lean ====
section
/-! DEFINITION. The terms in which statements speak of the machine: when a word executes normally, what it then gives the threads
of its group, and what stays as it was. -/

namespace Sys2Proof.Machine

/-! ### When a word executes normally -/

/-- Every active lane reads its operands, with the values given: every slot that it names is staged, every latch valid, and
no register is waiting for a future (04_control R112, 05_registers R127, R132). -/
abbrev State.Reads (s : State) (g : BitVec 3) (codes : List (BitVec 5)) (lit : Word) (rd : Nat → List Word) : Prop :=
  ∀ k ∈ s.active s.here g, s.readCodes k lit codes = .ok (rd k)

/-- Every active lane can write the destination: it is staged (R127), and none of its registers holds a pending tag (R112). -/
abbrev State.Writes (s : State) (g : BitVec 3) (dst : Dst) : Prop :=
  ∀ k ∈ s.active s.here g, (s.thread k).dstOk dst = true ∧
    ∀ r ∈ (s.thread k).dstRegs dst, ∀ p ∈ (s.thread k).tags, p.1 ≠ r

/-- Both: what a word needs of its operands. -/
abbrev State.Ready (s : State) (g : BitVec 3) (codes : List (BitVec 5)) (lit : Word) (dst : Dst) (rd : Nat → List Word) : Prop :=
  s.Reads g codes lit rd ∧ s.Writes g dst

/-! ### What a word gives its group -/

/-- The threads of the group at which the word stands in `s` take its results in `t`, the state that its side effects have left:
each active lane's destination takes its results and its latches shift, FFLAGS takes in the flags raised; each inactive lane's
latches shift alone; and nothing else changes (Table 5-1, R131, R137). -/
def State.deliver (t s : State) (g : BitVec 3) (dst : Dst) (shift : Bool) (res : Nat → List Word) (fl : Nat → BitVec 5) : State :=
  t.updLanes s.here.lanes fun k x =>
    if (s.thread k).guard g then { x.put dst shift (res k) with ff := x.ff ||| fl k } else x.idle dst shift

/-- The same for a word without side effects. -/
def State.gives (s : State) (g : BitVec 3) (dst : Dst) (shift : Bool) (res : Nat → List Word) (fl : Nat → BitVec 5) : State :=
  s.deliver s g dst shift res fl

/-- The results of the lowest active lane of a yard. -/
def State.yardPick (s : State) (g : BitVec 3) (res : Nat → List Word) (y : Nat) : Option (List Word) :=
  ((s.active s.here g).find? fun k => yardOf k == y).map res

/-- A uniform destination takes the results of its yard's lowest active lane, in every thread of the group whose region
stages it; nothing else in the machine changes (Table 5-1). -/
def State.deliverUni (t s : State) (g : BitVec 3) (dst : Dst) (shift : Bool) (res : Nat → List Word) : State :=
  t.updLanes s.here.lanes fun k x =>
    match s.yardPick g res (yardOf k) with
    | some vals => if (s.thread k).guard g || x.dstOk dst then x.put dst shift vals else x.idle dst shift
    | none => x.idle dst shift

/-- The threads of the group at which the word stands in `s` take their outcomes in `t`. -/
def State.deliverOuts (t s : State) (dst : Dst) (shift : Bool) (outs : List (Nat × LaneOut)) : State :=
  t.updLanes s.here.lanes fun k x => x.applyOut k dst shift outs (outOf outs k)

/-- The one active lane of a word's group. -/
abbrev State.Sole (s : State) (g : BitVec 3) (k : Nat) : Prop := s.active s.here g = [k]

/-- The handle of a future reaches the destination register of a thread with its pending tag (R111). -/
def State.tagged (t : State) (k slot : Nat) (d : BitVec 5) : State :=
  if noWrite d then t
  else match ((t.thread k).vs.drop (slotOfD d)).head? with
    | none => t
    | some v => t.modThread k fun x => { x with tags := (v.reg, slot) :: x.tags }

/-- No flag. -/
def noFlags (_ : Nat) : BitVec 5 := 0

/-- The results of one value for each lane. -/
def one (f : Nat → Word) (k : Nat) : List Word := [f k]

/-- Lanes act one after another, each in the state that the one before it leaves: `R u k v` says that lane `k` takes `u` to
`v`. -/
def Turns (R : State → Nat → State → Prop) : List Nat → State → State → Prop
  | [], s, t => t = s
  | k :: r, s, t => ∃ u, R s k u ∧ Turns R r u t

/-- The lanes' results reach the group, and the handles among them bring their futures' tags (R111, R116). -/
def State.deliverTags (t s : State) (g : BitVec 3) (dst : Dst) (shift : Bool) (res : Nat → List Word) (tag : Nat → Option Nat) : State :=
  ((s.active s.here g).map fun k => (k, LaneOut.done { vals := res k, ff := 0, sb := none, tag := tag k })).foldl (State.tagOut dst)
    (t.deliver s g dst shift res noFlags)

/-! ### Shapes of completion -/

/-- Wherever its operands are ready, a format A word completes with `f` of A and B in the destination slot of each active lane. -/
def CompletesA (i : OpA → Instr) (f : Word → Word → Word) : Prop :=
  ∀ (s : State) (o : OpA) (a b : Nat → Word), s.Ready o.g [o.a, o.b] o.lit (.vec 1 o.d) (fun k => [a k, b k]) →
    exec (i o) s = .next (s.gives o.g (.vec 1 o.d) true (one fun k => f (a k) (b k)) noFlags)

/-- The same for a compare: the predicate D[2:0] takes the truth of `f`, and no latch shifts. -/
def CompletesP (i : OpA → Instr) (f : Word → Word → Bool) : Prop :=
  ∀ (s : State) (o : OpA) (a b : Nat → Word), s.Ready o.g [o.a, o.b] o.lit (.pred o.d) (fun k => [a k, b k]) →
    exec (i o) s = .next (s.gives o.g (.pred o.d) false (one fun k => if f (a k) (b k) then 1 else 0) noFlags)

/-- The same for a word over the predicates that A and B name; it reads no operand. -/
def CompletesPP (i : OpA → Instr) (f : Bool → Bool → Bool) : Prop :=
  ∀ (s : State) (o : OpA), s.Ready o.g [] 0 (.pred o.d) (fun _ => []) →
    exec (i o) s = .next (s.gives o.g (.pred o.d) false (one fun k => if f (s.pval k o.a) (s.pval k o.b) then 1 else 0) noFlags)

/-- The same for a format T word with sources A, B and C3. -/
def CompletesT (i : OpT → Instr) (f : Word → Word → Word → Word) : Prop :=
  ∀ (s : State) (o : OpT) (a b c : Nat → Word),
    s.Ready o.g [o.a, o.b, o.e] o.lit (.vec 1 o.d) (fun k => [a k, b k, c k]) →
    exec (i o) s = .next (s.gives o.g (.vec 1 o.d) true (one fun k => f (a k) (b k) (c k)) noFlags)

/-- The same for a floating-point word of two operands: `f` takes the rounding mode of the thread's RM, and the flags that it
raises enter FFLAGS. -/
def CompletesF (i : OpA → Instr) (f : RMode → Word → Word → Word × FFlags) : Prop :=
  ∀ (s : State) (o : OpA) (a b : Nat → Word), s.Ready o.g [o.a, o.b] o.lit (.vec 1 o.d) (fun k => [a k, b k]) →
    exec (i o) s = .next (s.gives o.g (.vec 1 o.d) true (one fun k => (f (s.thread k).rmode (a k) (b k)).1)
      fun k => (f (s.thread k).rmode (a k) (b k)).2)

/-- The same for a floating-point word of three operands. -/
def CompletesFT (i : OpT → Instr) (f : RMode → Word → Word → Word → Word × FFlags) : Prop :=
  ∀ (s : State) (o : OpT) (a b c : Nat → Word),
    s.Ready o.g [o.a, o.b, o.e] o.lit (.vec 1 o.d) (fun k => [a k, b k, c k]) →
    exec (i o) s = .next (s.gives o.g (.vec 1 o.d) true (one fun k => (f (s.thread k).rmode (a k) (b k) (c k)).1)
      fun k => (f (s.thread k).rmode (a k) (b k) (c k)).2)

/-- The same for a floating-point compare. -/
def CompletesFP (i : OpA → Instr) (f : Word → Word → Bool) (fl : Word → Word → FFlags) : Prop :=
  ∀ (s : State) (o : OpA) (a b : Nat → Word), s.Ready o.g [o.a, o.b] o.lit (.pred o.d) (fun k => [a k, b k]) →
    exec (i o) s = .next (s.gives o.g (.pred o.d) false (one fun k => if f (a k) (b k) then 1 else 0) fun k => fl (a k) (b k))

/-- The active lanes in octet position `c`. -/
def State.octetOf (s : State) (g : BitVec 3) (c : Nat) : List Nat := (s.active s.here g).filter fun k => laneOf k / 8 == c

/-- Active lanes of one octet position stand in one yard (R138). -/
abbrev State.OctetsAgree (s : State) (g : BitVec 3) : Prop :=
  ∀ j ∈ s.active s.here g, ∀ k ∈ s.active s.here g, laneOf j / 8 = laneOf k / 8 → yardOf j = yardOf k

/-- Active lanes of one octet have one RM (R186). -/
abbrev State.ModesAgree (s : State) (g : BitVec 3) : Prop :=
  ∀ j ∈ s.active s.here g, ∀ k ∈ s.active s.here g, laneOf j / 8 = laneOf k / 8 → (s.thread j).rm = (s.thread k).rm

/-- The active lanes, of which there is one at least, stand in one yard. -/
abbrev State.InYard (s : State) (g : BitVec 3) (y : Nat) : Prop :=
  s.active s.here g ≠ [] ∧ ∀ k ∈ s.active s.here g, yardOf k = y

/-- The lanes that go, each to its target. -/
def State.goers (s : State) (g : BitVec 3) (goes : Nat → Option (BitVec 16)) : List (Nat × BitVec 16) :=
  (s.active s.here g).filterMap fun k => (goes k).map fun t => (k, t)

/-- RA receives the packet after the word in the threads that go (R98, R102). -/
def State.linked (s : State) (ts : List (Nat × BitVec 16)) : State :=
  ts.foldl (fun t p => t.modThread p.1 fun x => { x with ra := s.here.pc + 1 }) s

/-- Element `j` of a lane's word, scaled by the sideband byte of slot `a` (R187). -/
def State.unpacked (s : State) (a : BitVec 5) (w : Word) (k : Nat) (x : Word) (j : Nat) : Word × FFlags :=
  unpackElement (elementFmt (w.toNat % 8)) (s.thread k).rmode (((s.thread k).view.vs[a.toNat]?).elim 0 fun v => v.sb.toNat)
    (x.toNat / 256 ^ j % 256)

/-! ### Exchange -/

/-- The domain of an exchange word, and whether its latches shift: below RIG scope each yard of the group is one (R189, R131); at
RIG scope the rig is, all of whose members that the word awaits stand in this group. -/
def State.Domains (s : State) (o : OpA) (shift : Bool) (dom : Nat → Dom) : Prop :=
  (setKind (s.groupVersion s.here.lanes) o.s ≠ .rig ∧ shift = true ∧
    ∀ k ∈ s.active s.here o.g, dom k = { n := 64, yard := yardOf k, rig := none }) ∨
  (setKind (s.groupVersion s.here.lanes) o.s = .rig ∧ shift = false ∧ ∃ r,
    (∀ k ∈ s.active s.here o.g, (s.thread k).given = none ∧ (∃ ord, (s.yard (yardOf k)).rig = some (r, ord)) ∧
      s.releasedMates r (s.thread k).released s.here.lanes = []) ∧
    ∀ k ∈ s.active s.here o.g, dom k = { n := 64 * (s.rig r).count, yard := yardOf ((s.active s.here o.g).headD 0), rig := some r })

/-- An active lane as its domain sees it, with the register of its data slot and its operand B. -/
def State.readerOf (s : State) (d : Dom) (a : BitVec 5) (r : Nat) (b : Word) (k : Nat) : Reader :=
  { k := k, idx := s.domIdx d k, r := r, b := b, p := (s.peek k).view.preds.toNat.testBit a.toNat, rm := (s.peek k).rm }

/-- The active lanes of a domain in rising order of index. -/
def State.domReaders (s : State) (o : OpA) (dom : Nat → Dom) (reg : Nat → Nat) (b : Nat → Word) (k : Nat) : List Reader :=
  sortReaders (((s.active s.here o.g).filter fun j => dom j = dom k).map fun j => s.readerOf (dom j) o.a (reg j) (b j) j)

/-- Every active lane's data slot names a register, the same in each domain (R192). -/
abbrev State.DataAgree (s : State) (o : OpA) (dom : Nat → Dom) (reg : Nat → Nat) : Prop :=
  (∀ k ∈ s.active s.here o.g, (s.peek k).slotReg o.a.toNat = some (reg k)) ∧
    ∀ j ∈ s.active s.here o.g, ∀ k ∈ s.active s.here o.g, dom j = dom k → reg j = reg k

/-! ### Memory words -/

/-- An access of a lane to on-chip storage passes the checks of Table 9-2 and waits for nothing: the form, size and operation
suit the space, the address is aligned, the core serves the thread's context, no entry of the core's range scoreboard overlaps
the bytes, no matrix operation uses them, and no word of them is poisoned. -/
structure State.ChipReady (s : State) (k : Nat) (a : DWord) (size kind : Nat) : Prop where
  onChip : isGlobal a = false
  form : s.chipForm a size kind = true
  aligned : a.toNat % size = 0
  memory : spaceOf a ≠ 6
  context : (s.core (targetCore a)).ctx = some (s.ctxOf k)
  free : s.overlap (targetCore a) (spaceOf a) (offsetOf a) (offsetOf a + size) = none
  idle : s.matrixBusy (targetCore a) (spaceOf a) (offsetOf a) = false
  clean : ∀ i < size / 4, s.mem.poison.contains (a.toNat + 4 * i) = false

/-- A lane's access to global memory is translated, in the state `t` that the translation leaves, to a physical address. -/
structure State.GlobalReady (s : State) (k : Nat) (a : DWord) (size kind pa : Nat) (nc : Bool) (t : State) : Prop where
  global : isGlobal a = true
  aligned : a.toNat % size = 0
  reached : s.reach (some (coreOf k)) (s.ctxOf k) a kind = (t, .at pa nc)

/-- A lane's line word may act on its line: its address is translated, the earlier stores to the line of the thread, or with `all`
of its core, are registered, and the line's region is not in transition (11_coherence R254, R257). `v` is the state that this
leaves. -/
structure State.LineReady (u : State) (k : Nat) (a : DWord) (all : Bool) (line : Nat) (v : State) : Prop where
  global : isGlobal a = true
  ready : ∃ (t : State) (pa : Nat) (nc : Bool), u.reach (some (coreOf k)) (u.ctxOf k) a 0 = (t, .at pa nc) ∧
    t.drainPend (fun p => (p.thread == k || (all && p.core == coreOf k)) && lineAddr p.word == lineAddr pa) = (v, true) ∧
    v.inMove pa = false ∧ line = lineAddr pa

/-- The words of on-chip storage from an address on. -/
def State.chipWords (s : State) (a : DWord) (n : Nat) : List Word := (List.range n).map fun i => s.chipWord (a.toNat + 4 * i)

/-- The physical addresses of `n` words. -/
def wordsFrom (pa n : Nat) : List Nat := (List.range n).map fun i => pa + 4 * i

/-! ### Issue -/

/-- The focused group stands at the start of word `x` of its packet, which is fetched now, decodes as a whole, and issues with
the words `rest` of its chain after it: its core serves a context that is not being pre-empted, nothing takes a thread of the
group away first, and a rendezvous that the chain needs is behind its threads (02_encoding R24, R44; 03_threads R79 to R83). -/
structure State.AtWord (u : State) (g : Group) (dec : List SlotWord) (x : SlotWord) (rest : List SlotWord) : Prop where
  core : u.focus.1 < Config.cores
  part : u.focus.2 < Config.partitions
  serves : (u.core u.focus.1).ctx.isSome = true
  going : (u.core u.focus.1).preempt = false
  group : u.group = some g
  here : ∃ k ∈ g.lanes, (u.thread k).wpos ≤ g.w
  stays : ∀ k ∈ g.lanes, u.leavesAtSwitch k = false
  unmerged : ∀ st, (u.part u.fpart).stream = some st → (u.part u.fpart).merges st g = false
  fresh : g.words = [] ∧ g.left = 0 ∧ g.runs = false
  fetched : u.fetchTrap u.focus.1 g.pc = none
  decoded : decodePacket (u.groupVersion g.lanes) (u.packetAt u.focus.1 g.pc) = .words dec
  chain : u.chainAt ((g.lanes.filter fun k => decide ((u.thread k).wpos ≤ g.w)).headD 0) dec g.w ((g.lanes.filter fun k => decide ((u.thread k).wpos ≤ g.w)).any fun k => (u.thread k).loose) = x :: rest
  notDue : ∀ k ∈ g.lanes, (u.thread k).wpos ≤ g.w → (u.thread k).dueNow = false
  metUp : widest (u.groupVersion g.lanes) (x :: rest) = .lane ∨
    ∀ k ∈ g.lanes, (u.thread k).wpos ≤ g.w → (u.thread k).released.isSome = true

/-- The state made ready for that word: the packet is fetched, the run has begun, and the threads that issue hold what the words
of the chain read, or go through a conflicting chain word by word. -/
def State.readied (u : State) (g : Group) (dec : List SlotWord) (n : Nat) : State :=
  let ks := g.lanes.filter fun k => decide ((u.thread k).wpos ≤ g.w)
  (u.modGroup u.fpart fun h => { h with
    words := u.packetAt u.focus.1 g.pc, left := n, stall := false, runs := true }).readyThreads
    ks (decide (0 < n)) (u.conflicting (ks.headD 0) (chainOf dec g.w))

/-- The threads at the word in `t` whose single step it is. -/
def State.stepping (t : State) : List Nat := t.here.lanes.filter fun k => (t.thread k).step == .armed

/-! ### What every step keeps -/

/-- The aged queue of each partition holds its aged entries that can be chosen (03_threads R74), no cluster in PS1 has a yard
bound or a copy in flight (Table 20-7), and no placed launch has all its yards retired (13_async R300). -/
structure State.Settled (s : State) : Prop where
  aged : ∀ p q, Map.find? s.fab.parts p = some q → q.aged = s.agedNow q
  gated : ∀ cl < Config.clusters, s.power.gated.toNat.testBit cl = true → s.clusterIdle cl = true
  launches : ∀ l ∈ s.eng.launches, l.placed = true → l.retired < l.total

end Sys2Proof.Machine
end

