-- ==== Sys2Proof/Certificates/Slice0/Obligations.lean ====
section
/-! DEFINITION. Statements about the machine, from the numbered rules of the spec. -/

section
open Sys2Proof Sys2Proof.Machine

/-! ### Integer words (06_integer) -/

/-- Addition and subtraction with carry and borrow words, minima, maxima, products, quotients and remainders. Logic, bit counts,
shifts by the whole of a natural count, and bit fields. -/
def Obligations.IntegerWords : Prop :=
  (CompletesA .iadd (fun a b => BitVec.ofNat 32 (a.toNat + b.toNat)) ∧
   CompletesA .isub (fun a b => BitVec.ofInt 32 ((a.toNat : Int) - b.toNat)) ∧
   CompletesA .addc (fun a b => if 2 ^ 32 ≤ a.toNat + b.toNat then 1 else 0) ∧
   CompletesA .subb (fun a b => if a.toNat < b.toNat then 1 else 0) ∧
   CompletesA .iminS32 (fun a b => if a.toInt ≤ b.toInt then a else b) ∧
   CompletesA .iminN32 (fun a b => if a.toNat ≤ b.toNat then a else b) ∧
   CompletesA .imaxS32 (fun a b => if b.toInt ≤ a.toInt then a else b) ∧
   CompletesA .imaxN32 (fun a b => if b.toNat ≤ a.toNat then a else b) ∧
   CompletesA .iabs (fun a _ => BitVec.ofNat 32 a.toInt.natAbs) ∧
   CompletesA .imul (fun a b => BitVec.ofNat 32 (a.toNat * b.toNat)) ∧
   CompletesA .imulhS32 (fun a b => BitVec.ofInt 32 (a.toInt * b.toInt / 2 ^ 32)) ∧
   CompletesA .imulhN32 (fun a b => BitVec.ofNat 32 (a.toNat * b.toNat / 2 ^ 32)) ∧
   CompletesA .idivS32 (fun a b => if b = 0 then 0xFFFFFFFF else BitVec.ofInt 32 (a.toInt.tdiv b.toInt)) ∧
   CompletesA .idivN32 (fun a b => if b = 0 then 0xFFFFFFFF else BitVec.ofNat 32 (a.toNat / b.toNat)) ∧
   CompletesA .iremS32 (fun a b => if b = 0 then a else BitVec.ofInt 32 (a.toInt.tmod b.toInt)) ∧
   CompletesA .iremN32 (fun a b => if b = 0 then a else BitVec.ofNat 32 (a.toNat % b.toNat))) ∧
  (CompletesA .and (fun a b => a &&& b) ∧
   CompletesA .or (fun a b => a ||| b) ∧
   CompletesA .xor (fun a b => a ^^^ b) ∧
   CompletesA .andn (fun a b => a &&& ~~~b) ∧
   CompletesA .popc (fun a _ => BitVec.ofNat 32 ((List.range 32).filter fun i => a.getLsbD i).length) ∧
   CompletesA .clz (fun a _ => BitVec.ofNat 32 ((List.range 32).takeWhile fun i => !a.getLsbD (31 - i)).length) ∧
   CompletesA .brev (fun a _ => a.reverse) ∧
   CompletesA .shl (fun a b => BitVec.ofNat 32 (a.toNat * 2 ^ b.toNat)) ∧
   CompletesA .shr (fun a b => BitVec.ofNat 32 (a.toNat / 2 ^ b.toNat)) ∧
   CompletesA .sar (fun a b => BitVec.ofInt 32 (a.toInt / 2 ^ b.toNat)) ∧
   CompletesA .rot (fun a b => a.rotateLeft (b.toNat % 32)) ∧
   CompletesA .bfxN32 (fun a c =>
     let pos := c.toNat % 32
     let len := min (c.toNat / 2 ^ 8 % 64) (32 - pos)
     BitVec.ofNat 32 (a.toNat / 2 ^ pos % 2 ^ len)) ∧
   CompletesA .bfxS32 (fun a c =>
     let pos := c.toNat % 32
     let len := min (c.toNat / 2 ^ 8 % 64) (32 - pos)
     let f := a.toNat / 2 ^ pos % 2 ^ len
     BitVec.ofInt 32 (if len ≠ 0 ∧ 2 ^ (len - 1) ≤ f then (f : Int) - 2 ^ len else f)))

/-- Words of three operands, of an immediate, and of 64-bit results. PTAG and LEA complete where their checks pass. Compares
write a predicate, signed compares by two's-complement value and natural ones by natural value; words over predicates write
one. -/
def Obligations.WideIntegersAndCompares : Prop :=
  (CompletesT .imad (fun a b c => BitVec.ofNat 32 (a.toNat * b.toNat + c.toNat)) ∧
   CompletesT .bfi (fun a b c =>
     let pos := c.toNat % 32
     let len := min (c.toNat / 2 ^ 8 % 64) (32 - pos)
     let m := BitVec.ofNat 32 ((2 ^ len - 1) * 2 ^ pos)
     (b &&& ~~~m) ||| ((a <<< pos) &&& m)) ∧
   (∀ (s : State) (o : OpI) (a : Nat → Word), s.Ready 7 [o.a] 0 (.vec 1 o.d) (fun k => [a k]) →
     exec (.addi o) s = .next (s.gives 7 (.vec 1 o.d) true (one fun k => a k + o.imm.signExtend 32) noFlags)) ∧
   (∀ (s : State) (o : OpA) (lo hi b : Nat → Word),
     s.Ready o.g [o.a, o.a + 1, o.b] o.lit (.vec 2 o.d) (fun k => [lo k, hi k, b k]) →
     exec (.add64 o) s = .next (s.gives o.g (.vec 2 o.d) true
       (fun k => words2 (dw (lo k) (hi k) + (b k).signExtend 64)) noFlags)) ∧
   (∀ (s : State) (o : OpA) (a g : Nat → Word), s.Ready o.g [o.a, o.b] o.lit (.vec 2 o.d) (fun k => [a k, g k]) →
     (∀ k ∈ s.active s.here o.g, tagCause (g k) = none) →
     exec (.ptag o) s = .next (s.gives o.g (.vec 2 o.d) true (fun k => words2 (tagPointer (coreOf k) (a k) (g k))) noFlags)) ∧
   (∀ (s : State) (o : OpI) (lo hi : Nat → Word) (q : Nat → DWord),
     s.Ready 7 [o.a, o.a + 1] 0 (.vec 2 o.d) (fun k => [lo k, hi k]) →
     (∀ k ∈ s.active s.here 7, leaPointer (dw (lo k) (hi k)) o.imm = some (q k)) →
     exec (.lea o) s = .next (s.gives 7 (.vec 2 o.d) true (fun k => words2 (q k)) noFlags))) ∧
  (CompletesP .icmpEq (fun a b => a.toNat == b.toNat) ∧
   CompletesP .icmpNe (fun a b => a.toNat != b.toNat) ∧
   CompletesP .icmpLtS32 (fun a b => decide (a.toInt < b.toInt)) ∧
   CompletesP .icmpLeS32 (fun a b => decide (a.toInt ≤ b.toInt)) ∧
   CompletesP .icmpGtS32 (fun a b => decide (b.toInt < a.toInt)) ∧
   CompletesP .icmpGeS32 (fun a b => decide (b.toInt ≤ a.toInt)) ∧
   CompletesP .icmpLtN32 (fun a b => decide (a.toNat < b.toNat)) ∧
   CompletesP .icmpLeN32 (fun a b => decide (a.toNat ≤ b.toNat)) ∧
   CompletesP .icmpGtN32 (fun a b => decide (b.toNat < a.toNat)) ∧
   CompletesP .icmpGeN32 (fun a b => decide (b.toNat ≤ a.toNat)) ∧
   CompletesPP .pand (fun a b => a && b) ∧
   CompletesPP .por (fun a b => a || b) ∧
   CompletesPP .pxor (fun a b => a ^^ b) ∧
   CompletesPP .pnot (fun a _ => !a))

/-! ### Floating-point words (07_float) -/

/-- Arithmetic words round the exact result once in the thread's RM: on FP32 words, or on each half of a word apart; FABS clears
the sign and raises no flag. -/
def Obligations.FloatArithmetic : Prop :=
  (∀ ty, CompletesF (.fadd ty) (typedOp ty fun f rm a b => roundTo f ((f.value a).add rm (f.value b)) rm false)) ∧
  (∀ ty, CompletesF (.fsub ty) (typedOp ty fun f rm a b => roundTo f ((f.value a).add rm (f.value b).neg) rm false)) ∧
  (∀ ty, CompletesF (.fmul ty) (typedOp ty fun f rm a b => roundTo f ((f.value a).mul (f.value b)) rm false)) ∧
  (∀ ty, CompletesF (.fmin ty) (typedOp ty opMin)) ∧
  (∀ ty, CompletesF (.fmax ty) (typedOp ty opMax)) ∧
  (∀ ty, CompletesF (.fscale ty) (typedOp ty opScale)) ∧
  CompletesFT .fmaF32 (fun rm a b c => to32 (((val32 a).mul (val32 b)).add rm (val32 c)) rm) ∧
  CompletesFT .fmaF32Neg (fun rm a b c => to32 (((val32 a).neg.mul (val32 b)).add rm (val32 c)) rm) ∧
  CompletesFT .fmaBf16 fmaHalves ∧
  CompletesF .fabs (fun _ a _ => (a &&& 0x7FFFFFFF, 0)) ∧
  CompletesF .fdot2 (fun rm a b =>
    let v (n : Nat) : FVal := Fmt.bf16.value (n % 65536)
    to32 (((v a.toNat).mul (v b.toNat)).add rm ((v (a.toNat / 65536)).mul (v (b.toNat / 65536)))) rm)

/-- The functions of one operand complete with their results and flags; those of R179 do not depend on RM, and where the spec
leaves a choice between two neighbours the result is that of the opaque choice (log 12). Compares write a predicate, an
unordered one as its condition says, with NV as Table 7-10 gives it; conversions round in the thread's RM, saturating to an
integer. -/
def Obligations.FloatFunctionsAndConversions : Prop :=
  (CompletesF .frcp (fun rm a _ => frcpW rm a) ∧
   CompletesF .frsq (fun rm a _ => frsqW rm a) ∧
   CompletesF .fsqrt (fun rm a _ => fsqrtW rm a) ∧
   CompletesF .frnd (fun rm a _ => frndW rm a) ∧
   CompletesF .fexp2 (fun _ a _ => fexp2W a) ∧
   CompletesF .flog2 (fun _ a _ => flog2W a) ∧
   CompletesF .ftanh (fun _ a _ => ftanhW a) ∧
   CompletesF .fsin (fun _ a _ => fsinW a) ∧
   CompletesF .fcos (fun _ a _ => fcosW a) ∧
   CompletesF .fclass (fun _ a _ => (fclassW a, 0))) ∧
  (CompletesFP .fcmpEq (fun a b => !unordered a b && key32 a == key32 b) (cmpFlags false) ∧
   CompletesFP .fcmpNe (fun a b => unordered a b || key32 a != key32 b) (cmpFlags false) ∧
   CompletesFP .fcmpLt (fun a b => !unordered a b && decide (key32 a < key32 b)) (cmpFlags true) ∧
   CompletesFP .fcmpLe (fun a b => !unordered a b && decide (key32 a ≤ key32 b)) (cmpFlags true) ∧
   CompletesFP .fcmpGt (fun a b => !unordered a b && decide (key32 b < key32 a)) (cmpFlags true) ∧
   CompletesFP .fcmpGe (fun a b => !unordered a b && decide (key32 b ≤ key32 a)) (cmpFlags true) ∧
   CompletesFP .fcmpUn unordered (cmpFlags false) ∧
   CompletesF .fcvtBf16F32 (fun rm a b => narrow2 .bf16 rm a b) ∧
   CompletesF .fcvtF16F32 (fun rm a b => narrow2 .fp16 rm a b) ∧
   CompletesF .fcvtF32Bf16 (fun _ a b => widen .bf16 a b) ∧
   CompletesF .fcvtF32F16 (fun _ a b => widen .fp16 a b) ∧
   CompletesF .fcvtS32F32 (fun rm a _ => toInteger true rm a) ∧
   CompletesF .fcvtN32F32 (fun rm a _ => toInteger false rm a) ∧
   CompletesF .fcvtF32S32 (fun rm a _ => to32 (intVal a.toInt) rm) ∧
   CompletesF .fcvtF32N32 (fun rm a _ => to32 (intVal a.toNat) rm))

/-- Where the active lanes name one legal format and the lanes of each octet stand in one yard with one RM, MXPACK packs each
octet with its shared scale into the destination and its sideband byte, and MXUNPK scales each element by the sideband byte
of the source. -/
def Obligations.Granules : Prop :=
  (∀ (s : State) (o : OpA) (rd : Nat → List Word) (w : Word),
    s.Ready o.g [o.a, o.a + 1, o.a + 2, o.a + 3, o.b] o.lit (.vec 1 o.d) rd →
    (∀ k ∈ s.active s.here o.g, val (rd k) 4 = w) → formatOk w = true → s.OctetsAgree o.g → s.ModesAgree o.g →
    exec (.mxpack o) s = .next (s.deliverOuts s (.vec 1 o.d) true
      ((List.range 8).flatMap fun c => packOctet s (elementFmt (w.toNat % 8)) (w.getLsbD 3)
        ((s.octetOf o.g c).map fun k => (k, rd k))))) ∧
  (∀ (s : State) (o : OpA) (a : Nat → Word) (w : Word),
    s.Ready o.g [o.a, o.b] o.lit (.vec 4 o.d) (fun k => [a k, w]) → formatOk w = true → s.OctetsAgree o.g → o.a.toNat < 16 →
    exec (.mxunpk o) s = .next (s.gives o.g (.vec 4 o.d) true
      (fun k => (List.range 4).map fun j => (s.unpacked o.a w k (a k) j).1)
      (fun k => ((List.range 4).map fun j => (s.unpacked o.a w k (a k) j).2).foldl (fun x y => x ||| y) 0)))

/-- A value of FP32, FP16 or BF16 that is no NaN rounds to its own code, in every mode, and raises no flag. -/
def Obligations.RoundingIsExactOnValues : Prop :=
  ∀ (f : Fmt) (c : Nat) (rm : RMode) (sat : Bool), f = .fp32 ∨ f = .fp16 ∨ f = .bf16 → c < 2 * f.signBit →
    (f.value c).isNan = false → roundTo f (f.value c) rm sat = (c, 0)

/-! ### Register words (05_registers) -/

/-- MOV copies an operand, and from a vector slot the sideband byte with it; MOVS gives a uniform slot the value of its yard's
lowest active lane; SEL picks by a predicate. STAGE in a group of one thread whose registers exist and are in no copy: the
region that ends is written back, and the new one's slots hold the registers named, all invalid latches apart (R125, R126). -/
def Obligations.MovesAndStage : Prop :=
  ((∀ (s : State) (o : OpA) (a b : Nat → Word), 16 ≤ o.a.toNat →
     s.Ready o.g [o.a, o.b] o.lit (.vec 1 o.d) (fun k => [a k, b k]) →
     exec (.mov o) s = .next (s.gives o.g (.vec 1 o.d) true (one a) noFlags)) ∧
   (∀ (s : State) (o : OpA) (a : Nat → Word), o.a.toNat < 16 → s.Ready o.g [o.a] o.lit (.vec 1 o.d) (one a) → s.OctetsAgree o.g →
     exec (.mov o) s = .next (s.deliverOuts s (.vec 1 o.d) true
       ((List.range 8).flatMap fun c => (s.octetOf o.g c).map fun k =>
         (k, .done { vals := [a k], ff := 0, sb := ((s.thread k).view.vs[o.a.toNat]?).map fun v => v.sb, tag := none })))) ∧
   (∀ (s : State) (o : OpA) (a : Nat → Word), s.Ready o.g [o.a] o.lit (.uni 1 o.d) (one a) →
     exec (.movs o) s = .next (s.deliverUni s o.g (.uni 1 o.d) true (one a))) ∧
   (∀ (s : State) (o : OpT) (a b : Nat → Word), s.Ready o.g [o.a, o.b] o.lit (.vec 1 o.d) (fun k => [a k, b k]) →
     exec (.sel o) s = .next (s.gives o.g (.vec 1 o.d) true
       (one fun k => if s.pval k o.e then a k else b k) noFlags))) ∧
  (∀ (s : State) (o : StageOp) (k : Nat), s.here.lanes = [k] → (s.thread k).guard 7 = true →
     s.stageOk (yardOf k) o.vregs o.uregs = true → s.regRanges k (o.vregs ++ (s.thread k).dirtyRegs) = [] →
     (∀ r ∈ o.vregs, s.mem.poison.contains (regKey k r) = false) →
     exec (.stage o) s = .next ((s.endRegion k).modThread k fun x =>
       { x with region := some (o.vregs, o.uregs), vs := (s.endRegion k).loadVs k o.vregs,
                us := (s.endRegion k).loadUs k o.uregs }))

/-- RDSR reads the register that every active lane names, and reading CYCLO latches the high half of CYC in the thread; WRSR
writes a register of each thread, or of the yard with the value of its lowest active lane. -/
def Obligations.SpecialRegisters : Prop :=
  (∀ (s : State) (o : OpA) (n : Word) (v : Nat → Word), s.Ready o.g [o.a] o.lit (.vec 1 o.d) (fun _ => [n]) → n ≠ 0x0E →
    (∀ k ∈ s.active s.here o.g, s.readSpecial k n.toNat = some (v k)) →
    exec (.rdsr o) s = .next (s.gives o.g (.vec 1 o.d) true (one v) noFlags)) ∧
  (∀ (s : State) (o : OpA), s.Ready o.g [o.a] o.lit (.vec 1 o.d) (fun _ => [0x0E]) →
    exec (.rdsr o) s = .next (((s.active s.here o.g).foldl (fun t k => t.modThread k fun x =>
      { x with cychi := (s.core (coreOf k)).cyc.extractLsb' 32 32 }) s).deliver s o.g (.vec 1 o.d) true
        (one fun k => (s.core (coreOf k)).cyc.extractLsb' 0 32) noFlags)) ∧
  (∀ (s : State) (o : OpA) (n : Word) (v : Nat → Word), s.Reads o.g [o.a, o.b] o.lit (fun k => [n, v k]) → n.toNat ≤ 3 →
    (n = 1 → ∀ k ∈ s.active s.here o.g, (v k).toNat % 8 < 5) →
    exec (.wrsr o) s = .next ((s.active s.here o.g).foldl (fun t k => t.modThread k fun x =>
      match n.toNat with
      | 0 => { x with ra := (v k).extractLsb' 0 16 }
      | 1 => { x with rm := (v k).extractLsb' 0 3 }
      | 2 => { x with ff := (v k).extractLsb' 0 5 }
      | _ => { x with preds := (v k).extractLsb' 0 8 }) s)) ∧
  (∀ (s : State) (o : OpA) (n : Word) (v : Nat → Word) (y k0 : Nat) (ks : List Nat),
    s.Reads o.g [o.a, o.b] o.lit (fun k => [n, v k]) → 0x0A ≤ n.toNat → n.toNat ≤ 0x0D → s.InYard o.g y →
    s.active s.here o.g = k0 :: ks →
    exec (.wrsr o) s = .next (s.modYard y fun x => (x.writeSpecial n.toNat (v k0)).getD x))

/-- GMOV exchanges a g register of the yard's rig; HOIST grants chunks that the pool has, and none where the yard has them; REEF
returns chunks to the pool. A SPILLV or FILLV of the lanes of one yard whose burst meets no limit and whose every line
moves: it completes with what the lines leave, and a fill reloads the slots that it has filled. -/
def Obligations.PoolRegistersAndSpills : Prop :=
  ((∀ (s : State) (o : OpA) (a b : Word) (y : Nat), s.Ready o.g [o.a, o.b] o.lit (.uni 1 o.d) (fun _ => [a, b]) → s.InYard o.g y →
     a.toNat / 2 ^ 9 = 0 → a.toNat / 2 ^ 6 % 4 = 0 → (s.uhome y (192 + a.toNat % 64)).isSome →
     exec (.gmov o) s = .next ((if a.toNat.testBit 8 then s.setUreg y (192 + a.toNat % 64) b else s).deliverUni s o.g (.uni 1 o.d)
       true fun _ => [s.ureg y (192 + a.toNat % 64)])) ∧
   (∀ (s : State) (o : OpA) (n : Word) (y : Nat), s.Reads o.g [o.a] o.lit (fun _ => [n]) → s.InYard o.g y →
     s.yardScoped o.s = true → n.toNat ≤ 7 → n.toNat + (s.residentYards (yardPart y)).length ≤ 24 →
     (n.toNat ≤ (s.yard y).chunks → exec (.hoist o) s = .next s) ∧
     ((s.yard y).chunks < n.toNat → (s.part (yardPart y)).hoistq = [] →
       n.toNat - (s.yard y).chunks ≤ s.poolFree (yardPart y) →
       exec (.hoist o) s = .next ((s.zeroRegs y (32 * ((s.yard y).chunks + 1)) (32 * n.toNat + 31)).modYard y
         fun v => { v with chunks := n.toNat }))) ∧
   (∀ (s : State) (o : OpA) (n : Word) (y : Nat), s.Reads o.g [o.a] o.lit (fun _ => [n]) → s.InYard o.g y →
     s.yardScoped o.s = true → n.toNat ≤ 7 →
     exec (.reef o) s = .next (if n.toNat < (s.yard y).chunks
       then (s.releaseChunks y n.toNat).serveHoists (yardPart y) 16 else s))) ∧
  ((∀ (s t : State) (o : OpM) (ws : List Word) (y k0 : Nat) (ks : List Nat) (j : Job),
     s.Reads o.g (addrCodes o ++ [o.d]) o.lit (fun _ => ws) → s.InYard o.g y → s.active s.here o.g = k0 :: ks →
     (s.yard y).burst = none → j = { pc := s.here.pc, w := s.here.w, yard := y, fill := false, lanes := k0 :: ks, addr := eaOf ws 1, desc := val ws 3, gran := o.sz.toNat == 3 } →
     s.spillTrap (.spillv o) j = none → s.spillTags j = [] →
     (∀ k ∈ yardLanes y, ∀ i < j.count, (j.lanes.foldl (fun s k => s.writeBack k) s).mem.poison.contains (regKey k (j.first + i)) = false) →
     (j.lanes.foldl (fun s k => s.writeBack k) s).runBurst j k0 0 j.total = (t, .done) →
     exec (.spillv o) s = .next t) ∧
   (∀ (s t : State) (o : OpM) (ws : List Word) (y k0 : Nat) (ks : List Nat) (j : Job),
     s.Reads o.g (addrCodes o ++ [o.d]) o.lit (fun _ => ws) → s.InYard o.g y → s.active s.here o.g = k0 :: ks →
     (s.yard y).burst = none → j = { pc := s.here.pc, w := s.here.w, yard := y, fill := true, lanes := k0 :: ks, addr := eaOf ws 1, desc := val ws 3, gran := o.sz.toNat == 3 } →
     s.spillTrap (.fillv o) j = none → s.runBurst j k0 0 j.total = (t, .done) →
     exec (.fillv o) s = .next (j.lanes.foldl (fun s k => s.reloadSlots k j) t)))

/-! ### Control words (04_control) -/

/-- NOP does nothing; the other transfers take the threads that go to their targets, at once or at the end of the chain that
holds the word, where the target is a packet index that the class allows and, for a full program counter, its segment has
landed. CALL and CALLI leave the packet after the word in RA. BRA and CALL take the threads whose guard, with N applied,
holds, by a signed offset of packets within the segment; BWAY takes the first of its pairs whose guard holds; a thread that
takes none goes on. -/
def Obligations.TransfersAndBranches : Prop :=
  ((∀ (s : State) (o : OpA), exec (.nop o) s = .next s) ∧
   (∀ (s : State) (o : OpA), (s.here.pc + 1).toNat % 8192 ≤ Config.lastPacket →
     exec (.yield o) s = .next (s.takeTransfers s.here (s.goers o.g fun _ => some (s.here.pc + 1)))) ∧
   (∀ (s : State) (o : OpA) (v : Nat → Word), s.Reads o.g [o.a] o.lit (one v) →
     (∀ k ∈ s.active s.here o.g, (v k).toNat ≤ Config.lastPacket) →
     exec (.jmp o) s = .next (s.takeTransfers s.here (s.goers o.g fun k =>
       some (BitVec.ofNat 16 (s.here.pc.toNat / 8192 * 8192 + (v k).toNat))))) ∧
   (∀ (s : State) (o : OpA) (v : Nat → Word), s.Reads o.g [o.a] o.lit (one v) →
     (∀ k ∈ s.active s.here o.g, (v k).toNat < 2 ^ 16 ∧ (v k).toNat % 8192 ≤ Config.lastPacket ∧
       s.segReady s.here.core ((v k).setWidth 16) = true) →
     exec (.jmpf o) s = .next (s.takeTransfers s.here (s.goers o.g fun k => some ((v k).setWidth 16)))) ∧
   (∀ (s : State) (o : OpA) (v : Nat → Word), s.Reads o.g [o.a] o.lit (one v) →
     (∀ k ∈ s.active s.here o.g, (v k).toNat < 2 ^ 16 ∧ (v k).toNat % 8192 ≤ Config.lastPacket ∧
       s.segReady s.here.core ((v k).setWidth 16) = true) →
     let ts := s.goers o.g fun k => some ((v k).setWidth 16)
     exec (.calli o) s = .next ((s.linked ts).takeTransfers s.here ts)) ∧
   (∀ (s : State) (o : OpA),
     (∀ k ∈ s.active s.here o.g, (s.thread k).view.ra.toNat % 8192 ≤ Config.lastPacket ∧
       s.segReady s.here.core (s.thread k).view.ra = true) →
     exec (.ret o) s = .next (s.takeTransfers s.here (s.goers o.g fun k => some (s.thread k).view.ra)))) ∧
  ((∀ (s : State) (o : OpB) (i : Nat), ((s.here.pc.toNat % 8192 : Nat) : Int) + o.off.toInt = i → i ≤ Config.lastPacket →
     let ts := s.goers 7 fun k => if (s.thread k).taken o.g (o.n == 1)
       then some (BitVec.ofNat 16 (s.here.pc.toNat / 8192 * 8192 + i)) else none
     exec (.bra o) s = .next (s.takeTransfers s.here ts) ∧
     exec (.call o) s = .next ((s.linked ts).takeTransfers s.here ts)) ∧
   (∀ (s : State) (o : BwayOp), (∀ p ∈ o.pairs.take o.np.toNat, (BitVec.ofNat 13 p.2.2).toNat ≤ Config.lastPacket) →
     exec (.bway o) s = .next (s.takeTransfers s.here (s.goers 7 fun k =>
       ((o.pairs.take o.np.toNat).find? fun p => (s.thread k).taken p.1 p.2.1).map fun p =>
         BitVec.ofNat 16 (s.here.pc.toNat / 8192 * 8192 + p.2.2 % 8192)))))

/-- EXIT ends its active threads, or lets them end with the chain that holds it. SEGSTAT reads a segment's status word; RIGDEF
declares a rig in the lowest free record and gives its handle; JOIN makes the yard the rig's next member; LEAVE takes it
out. -/
def Obligations.ExitsRigsAndSegments : Prop :=
  (∀ (s : State) (o : OpA),
     (s.here.left = 0 → exec (.exit o) s = .next ((s.active s.here o.g).foldl State.exitThread s)) ∧
     (s.here.left ≠ 0 → exec (.exit o) s = .next ((s.active s.here o.g).foldl (fun t k =>
       t.modThread k fun x => { x with leaving := .exit }) s))) ∧
  ((∀ (s : State) (o : OpA) (v : Nat → Word), s.Ready o.g [o.a] o.lit (.vec 1 o.d) (one v) →
     (∀ k ∈ s.active s.here o.g, (v k).toNat < 8) →
     exec (.segstat o) s = .next (s.gives o.g (.vec 1 o.d) false (one fun k => segWord (s.seg (coreOf k) (v k).toNat)) noFlags)) ∧
   (∀ (s : State) (o : OpA) (n : Word) (y r : Nat), s.Ready o.g [o.a] o.lit (.uni 2 o.d) (fun _ => [n]) → s.InYard o.g y →
     s.yardScoped o.s = true → 1 ≤ n.toNat → n.toNat ≤ 48 → s.freeRig (clusterOf (yardCore y)) = some r →
     let t := s.setRig r { Rig.init with
       st := some .declared, reuse := (s.rig r).reuse + 1, count := n.toNat, context := s.yardCtx y }
     exec (.rigdef o) s = .next (t.deliverUni s o.g (.uni 2 o.d) true fun _ => words2 (t.rigHandle r))) ∧
   (∀ (s t : State) (o : OpA) (lo hi : Word) (y r : Nat), s.Ready o.g [o.a, o.a + 1] o.lit (.uni 1 o.d) (fun _ => [lo, hi]) →
     s.InYard o.g y → s.yardScoped o.s = true → s.handleRig y (dw lo hi) = some r → (s.yard y).rig = none →
     (s.yard y).stripe = none → (s.rig r).st ≠ some .sealed →
     (if (Map.find? (s.rig r).cleat (yardCore y % 4)).isSome then t = s else s.allocCleat r (yardCore y) = some t) →
     exec (.join o) s = .next ((t.addMember r y (s.rig r).given).deliverUni s o.g (.uni 1 o.d) true
       fun _ => [BitVec.ofNat 32 (s.rig r).given])) ∧
   (∀ (s : State) (o : OpA) (lo hi : Word) (y r ord : Nat), s.Reads o.g [o.a, o.a + 1] o.lit (fun _ => [lo, hi]) →
     s.InYard o.g y → s.yardScoped o.s = true → s.handleRig y (dw lo hi) = some r → (s.yard y).rig = some (r, ord) →
     (∀ k ∈ s.liveLanes y, (s.thread k).st ≠ .signed ∧ ∀ n, (s.thread k).st ≠ .rendezvous n) →
     exec (.leave o) s = .next ((s.decExpect y (s.liveLanes y).length).leaveRig y)))

/-- The first thread of a rig to SIGN opens the cleat of its core at the word's position, and waits there; one that finds the
cleat open at its own position signs it. A matrix word that signs: the first thread of a rig to reach it, its operands read,
opens the cleat of its core at the word's position with the word's operation, and waits there; one that finds the cleat open
at its own position signs it. -/
def Obligations.CleatWords : Prop :=
  (∀ (s : State) (o : OpA) (k r ord c : Nat), s.here.lanes = [k] → (s.yard (yardOf k)).rig = some (r, ord) →
     Map.find? (s.rig r).cleat (yardCore (yardOf k) % 4) = some c →
     (∀ d ∈ s.rigCleats r, (s.cleat d).opened = true → (s.cleat d).addr = s.here.pc ∧ (s.cleat d).addrw = s.here.w) →
     exec (.sign o) s = .next ((s.modCleat (coreOf k, c) fun cl =>
       let x : Sign := { thread := k, active := (s.thread k).guard o.g, pc := s.here.pc, w := s.here.w, word := wordOf (.sign o),
                         vals := [], fw := 0, rm := (s.thread k).rm, dst := none }
       if cl.opened then { cl with signs := cl.signs ++ [x] }
       else { cl with opened := true, fault := false, addr := s.here.pc, addrw := s.here.w, op := .sign, first := s.now,
                      signs := [x] }).park k s.here.w .signed false)) ∧
  (∀ (s : State) (k r ord c : Nat) (rd : Nat → List Word), s.here.lanes = [k] → (s.yard (yardOf k)).rig = some (r, ord) →
     Map.find? (s.rig r).cleat (yardCore (yardOf k) % 4) = some c →
     (∀ d ∈ s.rigCleats r, (s.cleat d).opened = true → (s.cleat d).addr = s.here.pc ∧ (s.cleat d).addrw = s.here.w) →
     (s.thread k).tags = [] →
     let signed (i : Instr) (op : SignOp) (fw : Word) (dst : Option Nat) : State := (s.modCleat (coreOf k, c) fun cl =>
       let x : Sign := { thread := k, active := true, pc := s.here.pc, w := s.here.w, word := wordOf i, vals := rd k, fw := fw,
                         rm := (s.thread k).rm, dst := dst }
       if cl.opened then { cl with signs := cl.signs ++ [x] }
       else { cl with opened := true, fault := false, addr := s.here.pc, addrw := s.here.w, op := op, first := s.now,
                      signs := [x] }).park k s.here.w .signed false
     let reg (d : BitVec 5) : Option Nat := if noWrite d then none else (s.thread k).slotReg (slotOfD d)
     (∀ o : OpA, (s.thread k).guard o.g = true →
       (s.Reads o.g (codesFrom o.a 4 ++ codesFrom o.b 4) o.lit rd →
         exec (.mseta o) s = .next (signed (.mseta o) .mseta 0 none) ∧
         exec (.msetb o) s = .next (signed (.msetb o) .msetb 0 none)) ∧
       (s.Reads o.g [o.a] o.lit rd → exec (.mzero o) s = .next (signed (.mzero o) .mzero 0 none))) ∧
     (∀ o : OpM, (s.thread k).guard o.g = true → s.Ready o.g (addrCodes o) o.lit (.vec 1 o.d) rd →
       exec (.mldb o) s = .next (signed (.mldb o) (.mldb o.d) 0 (reg o.d))) ∧
     (∀ o : MmaOp, (s.thread k).guard 7 = true → s.Ready 7 [o.fw] 0 (.vec 1 o.hd) rd →
       exec (.mma o) s = .next (signed (.mma o) (.mma o) (val (rd k) 0) (reg o.hd))))

/-- FWAIT completes with the operand, and where its register carries the tag of a future that has resolved, with the handle that
the read rewrites in place. FTEST completes at once with 1 where the operand carries no tag or its operation has resolved,
which is then an acquire point, and with 0 where it is pending; FCANCEL completes at once, and asks the engine to cancel a
pending operation; FPASS completes at once with a copy of the operand, and the handle of a tagged one keeps its tag, with one
holder more. -/
def Obligations.Futures : Prop :=
  (∀ (s t : State) (o : OpA) (a b : Nat → Word), t = (s.active s.here o.g).foldl (fun u k => u.joinCodes k [o.a, o.b]) s →
    t.Ready o.g [o.a, o.b] o.lit (.vec 1 o.d) (fun k => [a k, b k]) →
    exec (.fwait o) s = .next (t.gives o.g (.vec 1 o.d) true (one a) noFlags)) ∧
  (∀ (s : State) (o : OpA), s.Writes o.g (.pred o.d) → (∀ k ∈ s.active s.here o.g, ∃ v, s.readRaw k o.lit o.a = .ok v) →
    let pending (k : Nat) : Bool := ((s.thread k).tagOf o.a).elim false fun slot => s.pending (coreOf k) slot
    let joined := (s.active s.here o.g).filter fun k => ((s.thread k).tagOf o.a).isSome && !pending k
    exec (.ftest o) s = .next ((joined.foldl State.acquire s).deliver s o.g (.pred o.d) false
      (one fun k => if pending k then 0 else 1) noFlags)) ∧
  (∀ (s : State) (o : OpA), (∀ k ∈ s.active s.here o.g, ∃ v, s.readRaw k o.lit o.a = .ok v) →
    exec (.fcancel o) s = .next ((s.active s.here o.g).foldl (fun t k => match (s.thread k).tagOf o.a with
      | none => t
      | some slot => t.askCancel (coreOf k) slot) s)) ∧
  (∀ (s : State) (o : OpA) (v : Nat → Word), s.Writes o.g (.vec 1 o.d) →
    (∀ k ∈ s.active s.here o.g, s.readRaw k o.lit o.a = .ok (v k)) →
    let tag (k : Nat) : Option Nat := if noWrite o.d then none else (s.thread k).tagOf o.a
    exec (.fpass o) s = .next (((s.active s.here o.g).foldl (fun t k => match tag k with
      | none => t
      | some slot => t.incRef (coreOf k) slot 1) s).deliverTags s o.g (.vec 1 o.d) true (one v) tag))

/-! ### Exchange words (08_exchange) -/

/-- A shuffle gives each active lane the data register of the lane of its domain that its operand names: by index, by rotation,
by a step held at the ends, or by exclusive or; BCAST reads the lane that all of them name. -/
def Obligations.Shuffles : Prop :=
  ∀ (s : State) (o : OpA) (shift : Bool) (dom : Nat → Dom) (reg : Nat → Nat) (b : Nat → Word),
    s.Domains o shift dom → s.DataAgree o dom reg → s.Ready o.g [o.b] o.lit (.vec 1 o.d) (one b) →
    let src (k j : Nat) : Word := s.srcval (dom k) j (reg k)
    exec (.shflAt o) s = .next (s.gives o.g (.vec 1 o.d) shift
      (one fun k => if (dom k).n ≤ (b k).toNat then 0 else src k (b k).toNat) noFlags) ∧
    exec (.shflRot o) s = .next (s.gives o.g (.vec 1 o.d) shift
      (one fun k => src k ((s.domIdx (dom k) k + (b k).toNat) % (dom k).n)) noFlags) ∧
    exec (.shflSlide o) s = .next (s.gives o.g (.vec 1 o.d) shift
      (one fun k => src k (min (max ((s.domIdx (dom k) k : Int) + (b k).toInt) 0) ((dom k).n - 1)).toNat) noFlags) ∧
    exec (.shflFlip o) s = .next (s.gives o.g (.vec 1 o.d) shift
      (one fun k => let j := s.domIdx (dom k) k ^^^ (b k).toNat
        src k (if (dom k).n ≤ j then s.domIdx (dom k) k else j)) noFlags) ∧
    ((∀ j ∈ s.active s.here o.g, ∀ k ∈ s.active s.here o.g, dom j = dom k → b j = b k) →
      exec (.bcast o) s = .next (s.gives o.g (.vec 1 o.d) shift
        (one fun k => if (dom k).n ≤ (b k).toNat then 0 else src k (b k).toNat) noFlags))

/-- A vote gives every active lane of a domain one predicate of the lanes' predicates; BALLOT gives their mask. MATCH gives each
active lane the lowest index and the number of the active lanes of its domain with its value; REDUCE the root of the
pairwise tree over the domain; SCAN the fold of the values up to, or before, its own. A combination of .f32 needs one RM in
the domain, and its flags reach every active lane of it. -/
def Obligations.VotesAndReductions : Prop :=
  ((∀ (s : State) (o : OpA) (shift : Bool) (dom : Nat → Dom), s.Domains o shift dom → s.Writes o.g (.pred o.d) →
     let rs (k : Nat) : List Reader := s.domReaders o dom (fun _ => 0) (fun _ => 0) k
     exec (.voteEvery o) s = .next (s.gives o.g (.pred o.d) shift
       (one fun k => if (rs k).all Reader.p then 1 else 0) noFlags) ∧
     exec (.voteSome o) s = .next (s.gives o.g (.pred o.d) shift
       (one fun k => if (rs k).any Reader.p then 1 else 0) noFlags) ∧
     exec (.voteSame o) s = .next (s.gives o.g (.pred o.d) shift
       (one fun k => if (rs k).all Reader.p || !(rs k).any Reader.p then 1 else 0) noFlags) ∧
     exec (.voteOdd o) s = .next (s.gives o.g (.pred o.d) shift
       (one fun k => if (rs k).countP Reader.p % 2 = 1 then 1 else 0) noFlags)) ∧
   (∀ (s : State) (o : OpA) (shift : Bool) (dom : Nat → Dom) (b : Nat → Word), s.Domains o shift dom →
     s.Ready o.g [o.b] o.lit (.vec 2 o.d) (one b) →
     exec (.ballot o) s = .next (s.gives o.g (.vec 2 o.d) shift (fun k =>
       let rs := s.domReaders o dom (fun _ => 0) b k
       words2 (match (dom k).rig with
         | none => ballotMask rs (dom k).yard
         | some r => match (s.rig r).members.find? fun m => m.2 == (b k).toNat with
           | none => 0
           | some m => ballotMask rs m.1)) noFlags))) ∧
  (∀ (s : State) (o : OpA) (shift : Bool) (dom : Nat → Dom) (reg : Nat → Nat),
     s.Domains o shift dom → s.DataAgree o dom reg →
     let rs (k : Nat) : List Reader := s.domReaders o dom reg (fun _ => 0) k
     let vals (k : Nat) : List Word := (rs k).map fun r => s.srcval (dom k) r.idx r.r
     (s.Writes o.g (.vec 2 o.d) →
       exec (.matchLanes o) s = .next (s.gives o.g (.vec 2 o.d) shift (fun k =>
         let mine := s.srcval (dom k) (s.domIdx (dom k) k) (reg k)
         let same := (rs k).filter fun r => s.srcval (dom k) r.idx r.r == mine
         [BitVec.ofNat 32 ((same.map Reader.idx).headD (s.domIdx (dom k) k)), BitVec.ofNat 32 same.length]) noFlags)) ∧
     (s.Writes o.g (.vec 1 o.d) → ∀ p : RedOp,
       (redIsFp p = true → ∀ j ∈ s.active s.here o.g, ∀ k ∈ s.active s.here o.g, dom j = dom k → (s.peek j).rm = (s.peek k).rm) →
       exec (.reduce p o) s = .next (s.gives o.g (.vec 1 o.d) shift
         (one fun k => (treeFold p (sharedRm (rs k)) 12 (leaves s (dom k) (rs k))).1.getD 0)
         fun k => (treeFold p (sharedRm (rs k)) 12 (leaves s (dom k) (rs k))).2) ∧
       (s.here.lanes.Nodup → exec (.scanInc p o) s = .next (s.gives o.g (.vec 1 o.d) shift
         (one fun k => ((((rs k).zip (scanGo p (sharedRm (rs k)) none (vals k))).find? fun x => x.1.k == k).map fun x => x.2.2.1).getD 0)
         fun k => (scanGo p (sharedRm (rs k)) none (vals k)).foldl (fun f x => f ||| x.2.2) 0)) ∧
       (s.here.lanes.Nodup → exec (.scanExc p o) s = .next (s.gives o.g (.vec 1 o.d) shift
         (one fun k => ((((rs k).zip (scanGo p (sharedRm (rs k)) none (vals k))).find? fun x => x.1.k == k).map fun x =>
           x.2.1.getD (redIdentity p)).getD 0)
         fun k => (scanGo p (sharedRm (rs k)) none (vals k)).dropLast.foldl (fun f x => f ||| x.2.2) 0))))

/-! ### Memory words (09_memory) -/

/-- Loads of on-chip storage give each active lane the words at its own address, LDX by an index in units of the size and LDU
once for a yard; they change nothing else. A store of one lane to on-chip storage, or of a yard by STU, writes its words at
its address and nothing else; a register written through its window loses its pending tag. -/
def Obligations.OnChipAccesses : Prop :=
  ((∀ (s : State) (h : Hint) (o : OpM) (rd : Nat → List Word), o.sz ≠ 3 →
     s.Ready o.g (addrCodes o) o.lit (.vec (sizeBytes o.sz / 4) o.d) rd →
     ((∀ k ∈ s.active s.here o.g, s.ChipReady k (eaOf (rd k) 1) (sizeBytes o.sz) 0) →
       exec (.ld h o) s = .next (s.gives o.g (.vec (sizeBytes o.sz / 4) o.d) false
         (fun k => s.chipWords (eaOf (rd k) 1) (sizeBytes o.sz / 4)) noFlags)) ∧
     ((∀ k ∈ s.active s.here o.g, s.ChipReady k (eaOf (rd k) (sizeBytes o.sz)) (sizeBytes o.sz) 0) →
       exec (.ldx h o) s = .next (s.gives o.g (.vec (sizeBytes o.sz / 4) o.d) false
         (fun k => s.chipWords (eaOf (rd k) (sizeBytes o.sz)) (sizeBytes o.sz / 4)) noFlags))) ∧
   (∀ (s : State) (h : Hint) (o : OpM) (ws : List Word) (y : Nat), s.InYard o.g y →
     s.Ready o.g (addrCodes o) o.lit (.uni (sizeBytes o.sz / 4) o.d) (fun _ => ws) →
     s.ChipReady ((s.active s.here o.g).headD 0) (eaOf ws 1) (sizeBytes o.sz) 0 →
     exec (.ldu h o) s = .next (s.deliverUni s o.g (.uni (sizeBytes o.sz / 4) o.d) false
       fun _ => s.chipWords (eaOf ws 1) (sizeBytes o.sz / 4)))) ∧
  ((∀ (s : State) (h : Hint) (o : OpM) (k : Nat) (rd : Nat → List Word), o.sz ≠ 3 → s.Sole o.g k →
     s.Reads o.g (addrCodes o ++ codesFrom o.d (sizeBytes o.sz / 4)) o.lit rd →
     (s.ChipReady k (eaOf (rd k) 1) (sizeBytes o.sz) 1 →
       exec (.st h o) s = .next (s.chipRun (eaOf (rd k) 1).toNat ((rd k).drop 3))) ∧
     (s.ChipReady k (eaOf (rd k) (sizeBytes o.sz)) (sizeBytes o.sz) 1 →
       exec (.stx h o) s = .next (s.chipRun (eaOf (rd k) (sizeBytes o.sz)).toNat ((rd k).drop 3)))) ∧
   (∀ (s : State) (h : Hint) (o : OpM) (ws : List Word) (y : Nat), s.InYard o.g y →
     s.Reads o.g (addrCodes o ++ codesFrom (20 + o.d) (sizeBytes o.sz / 4)) o.lit (fun _ => ws) →
     s.ChipReady ((s.active s.here o.g).headD 0) (eaOf ws 1) (sizeBytes o.sz) 1 →
     exec (.stu h o) s = .next (s.chipRun (eaOf ws 1).toNat (ws.drop 3))))

/-- A load of one lane from global memory, once its page is translated and the directory lets it proceed, gives the words that
its core's data cache or the home slices hold; a store, where its line is not poisoned or it covers the whole of it, has its
words pending in the core's data cache, or writes them at the home slices. -/
def Obligations.GlobalLoadsAndStores : Prop :=
  (∀ (s t u : State) (h : Hint) (o : OpM) (k pa : Nat) (nc : Bool) (rd : Nat → List Word), o.sz ≠ 3 → s.Sole o.g k →
    s.Ready o.g (addrCodes o) o.lit (.vec (sizeBytes o.sz / 4) o.d) rd →
    s.GlobalReady k (eaOf (rd k) 1) (sizeBytes o.sz) 0 pa nc t →
    (if (wordsFrom pa (sizeBytes o.sz / 4)).any (t.atHome (coreOf k) (hintNum h)) then t.dirAccess pa false nc = (u, true)
      else u = t) →
    (∀ wa ∈ wordsFrom pa (sizeBytes o.sz / 4), u.poisoned wa = false) →
    let r := u.loadRun k (hintNum h) (wordsFrom pa (sizeBytes o.sz / 4))
    exec (.ld h o) s = .next (r.1.deliver s o.g (.vec (sizeBytes o.sz / 4) o.d) false (fun _ => r.2) noFlags)) ∧
  (∀ (s t t' u : State) (h : Hint) (o : OpM) (k pa : Nat) (nc : Bool) (rd : Nat → List Word), o.sz ≠ 3 → s.Sole o.g k →
    s.Reads o.g (addrCodes o ++ codesFrom o.d (sizeBytes o.sz / 4)) o.lit rd →
    let c := if s.mem.poison = [] then s else s.clearLines (wordsFrom pa (sizeBytes o.sz / 4))
    s.GlobalReady k (eaOf (rd k) 1) (sizeBytes o.sz) 1 pa nc t' → c.GlobalReady k (eaOf (rd k) 1) (sizeBytes o.sz) 1 pa nc t →
    (if 2 ≤ hintNum h then t.dirAccess pa true nc = (u, true) else u = t) → u.poisonedLine pa = false →
    exec (.st h o) s = .next (u.storeRun k (hintNum h) pa nc ((rd k).drop 3)))

/-- A granule load gives lane 8o + m of an octet word m of the 64-byte cell at the octet's address, and the octet's sideband
byte the byte after the words; a granule store writes the lane's word and the scale byte there. -/
def Obligations.GranuleAccesses : Prop :=
  (∀ (s : State) (h : Hint) (o : OpM) (k : Nat) (rd : Nat → List Word) (i : Instr) (n : Nat), o.sz = 3 → s.Sole o.g k →
    s.Ready o.g (addrCodes o) o.lit (.vec 1 o.d) rd → (i = .ld h o ∧ n = 1) ∨ (i = .ldx h o ∧ n = 64) →
    s.ChipReady k (eaOf (rd k) n) 64 0 →
    let a := (eaOf (rd k) n).toNat
    exec i s = .next (s.deliverOuts s (.vec 1 o.d) false
      [(k, .done { vals := [s.chipWord (a + 4 * (laneOf k % 8))], ff := 0, sb := some ((s.chipWord (a + 32)).setWidth 8),
                   tag := none })])) ∧
  (∀ (s : State) (h : Hint) (o : OpM) (k : Nat) (rd : Nat → List Word) (i : Instr) (n : Nat), o.sz = 3 → s.Sole o.g k →
    s.Reads o.g (addrCodes o ++ [o.d]) o.lit rd → (i = .st h o ∧ n = 1) ∨ (i = .stx h o ∧ n = 64) →
    s.ChipReady k (eaOf (rd k) n) 64 1 →
    let a := (eaOf (rd k) n).toNat
    let t := s.chipRun (a + 4 * (laneOf k % 8)) [val (rd k) 3]
    let sb : Byte := ((s.thread k).view.vs[o.d.toNat]?).elim 0 fun v => v.sb
    exec i s = .next (t.chipMerge (a + 32) (a + 32) [sb]))

/-- An atomic of one lane on on-chip storage answers the old value and leaves the new one; with .acq it is then an acquire point
of the core, and with .rel a release point of its thread first. -/
def Obligations.Atomics : Prop :=
  (∀ (s : State) (p : AtomOp) (o : OpM) (k : Nat) (rd : Nat → List Word), s.Sole o.g k →
    let n := if o.sz = 0 then 1 else 2
    s.Ready o.g (addrCodes o ++ codesFrom o.d (atomWords p n)) o.lit (.vec n o.d) rd →
    s.ChipReady k (eaOf (rd k) 1) (4 * n) 2 →
    let old := s.chipWords (eaOf (rd k) 1) n
    exec (.atom p o) s = .next ((s.chipRun (eaOf (rd k) 1).toNat (atomFun p n ((rd k).drop 3) old)).deliver s o.g (.vec n o.d)
      false (fun _ => old) noFlags)) ∧
  (∀ (s t : State) (p : AtomOp) (o : OpM) (k : Nat) (rd : Nat → List Word), s.Sole o.g k →
    let n := if o.sz.getLsbD 1 then 2 else 1
    s.Ready o.g (addrCodes o ++ codesFrom o.d (atomWords p n)) o.lit (.vec n o.d) rd →
    s.ChipReady k (eaOf (rd k) 1) (4 * n) 2 → (if o.sz.getLsbD 0 then s.drain k = (t, true) else t = s) →
    t.ChipReady k (eaOf (rd k) 1) (4 * n) 2 →
    let old := t.chipWords (eaOf (rd k) 1) n
    let u := t.chipRun (eaOf (rd k) 1).toNat (atomFun p n ((rd k).drop 3) old)
    exec (.atomOrdered p o) s = .next ((if o.sz.getLsbD 0 then u else u.acquire k).deliver s o.g (.vec n o.d)
      false (fun _ => old) noFlags))

/-- ACQ makes every valid word of its threads' data caches invalid, and they have then seen every write performed so far; REL
completes when the registrations of its threads' earlier stores are acknowledged; FENCE does both, in this order. PREF asks
for the line of each active lane's address and raises nothing; PARK parks a lane at a global address on its page with one
fault event of kind 3 and reason 5. -/
def Obligations.OrderingAndPrefetch : Prop :=
  (∀ (s t : State) (o : OpM), s.active s.here o.g ≠ [] →
     let acquired (u : State) : State := ({ u with mem := { u.mem with dcache := u.mem.dcache.filter fun p =>
       !(((s.active s.here o.g).any fun k => coreOf k == p.1 / 2 ^ 56) && p.2.st == WState.valid) } }).updLanes (s.active s.here o.g)
         fun _ x => { x with acq := u.mem.written }
     exec (.acq o) s = .next (acquired s) ∧
     (s.drainAll (s.active s.here o.g) = (t, true) →
       exec (.rel o) s = .next t ∧ exec (.fence o) s = .next (acquired t))) ∧
  ((∀ (s : State) (o : OpM) (rd : Nat → List Word), s.Reads o.g (addrCodes o) o.lit rd →
     exec (.pref o) s = .next ((s.active s.here o.g).foldl (fun t k => t.prefetch k (eaOf (rd k) 1)) s)) ∧
   (∀ (s : State) (o : OpM) (k : Nat) (rd : Nat → List Word), s.Reads o.g (addrCodes o) o.lit rd → s.Sole o.g k →
     isGlobal (eaOf (rd k) 1) = true →
     let v := vpageOf (eaOf (rd k) 1)
     let cl := clusterOf (coreOf k)
     exec (.park o) s = .next ((s.recordFault cl (coreOf k % 4) (s.ctxOf k) v 3 5 1).park k s.here.w
       (.blocked (.page v 3 5 (s.drops cl (s.ctxOf k) v))) true)))

/-! ### Coherence and translation words (11_coherence, 12_translation) -/

/-- CWB, CINV and CFLUSH complete where each active lane in turn may act on its line: CWB recalls the line's words and writes the
home slices' bytes to memory, CFLUSH does so and drops the line from L2 and from the core's data cache, and CINV discards it
everywhere. HANDOFF whose operands pass its checks begins its handover and waits; once that has ended it completes with its
status word, and with DIR 1 an acquire point follows. With no host link up it completes at once with RESULT 2 and CODE 2.
RMODE completes with the number of its regions once each in turn is put into the mode of its operand; at one that its pages
do not form as 16 contiguous pages of device memory it ends with RESULT 2 and CODE 1. -/
def Obligations.CoherenceWords : Prop :=
  ((∀ (s t : State) (o : OpM) (rd : Nat → List Word), s.Reads o.g (addrCodes o) o.lit rd →
     let act (all : Bool) (f : State → Nat → State) : Prop := Turns (fun u k v => ∃ w line,
       u.LineReady k (eaOf (rd k) 1) all line w ∧ v = f w line) (s.active s.here o.g) s t
     (act false (fun u line => (u.recallLine line).writeLine line) → exec (.cwb o) s = .next t) ∧
     (act false State.discardLine → exec (.cinv o) s = .next t) ∧
     (act true (fun u line => (((u.recallLine line).writeLine line).dropSlice line).dropLine line (some u.focus.1)) →
       exec (.cflush o) s = .next t)) ∧
   (∀ (u : State) (line wa : Nat), lineAddr wa = line → wa < 2 ^ 56 → let w := u.discardLine line
     w.homeWord wa = u.mem.bytes.word wa ∧ (∀ core, w.cached core wa = none) ∧ (∀ p ∈ w.mem.pend, p.word ≠ wa) ∧
       w.mem.bytes = u.mem.bytes)) ∧
  (∀ (s : State) (o : OpM) (y : Nat) (ws : List Word), s.InYard o.g y → s.Ready o.g (addrCodes o) o.lit (.vec 1 o.d) (fun _ => ws) →
     let a := val2 ws 0
     let len := (val ws 2).toNat
     let ks := s.active s.here o.g
     let answer (t : State) (w : Word) : State :=
       ((if o.sz.getLsbD 0 then t.acquireAll ks else t).forgetLong [y] s.here.pc s.here.w).deliver s o.g (.vec 1 o.d) false
         (one fun _ => w) noFlags
     isGlobal a = true → a.toNat % 64 = 0 → 0 < len → len % 64 = 0 → len ≤ 2 ^ 24 →
     (∀ x w, s.long y s.here.pc s.here.w = some x → x.status = some w → exec (.handoff o) s = .next (answer s w)) ∧
     (∀ t u pages, s.long y s.here.pc s.here.w = none → s.drainAll ks = (t, true) → t.mem.ho.busy = false →
       t.pagesOf (ks.headD 0) a 0 ((a.toNat % 4096 + len + 4095) / 4096) = (u, .inl pages) →
       let v := u.setLong { yard := y, pc := s.here.pc, w := s.here.w, done := 0, status := none }
       let begun := v.setMem { v.mem with ho := { v.mem.ho with
         busy := true, progress := 0, toDev := o.sz.getLsbD 0, by_ := some y, total := len / 64,
         pages := pages.map fun p => p.1 / 4096 * 4096, off := a.toNat % 65536 } }
       (u.hostLinkUp = true → exec (.handoff o) s = .next (begun.markStall s.here)) ∧
       (u.hostLinkUp = false → exec (.handoff o) s = .next (answer (begun.handoverEnd 0 .link) 0x82000000)))) ∧
  (∀ (s t : State) (o : OpA) (y m : Nat) (ws : List Word), s.InYard o.g y →
     s.Ready o.g (codesFrom o.a 2 ++ [o.b]) o.lit (.vec 1 o.d) (fun _ => ws) →
     let a := val2 ws 0
     let b := (val ws 2).toNat
     let n := bitsOf b 31 8
     let k := (s.active s.here o.g).headD 0
     let done := ((s.long y s.here.pc s.here.w).map Long.done).getD 0
     let answer (u : State) (w : Word) : State :=
       (u.forgetLong [y] s.here.pc s.here.w).deliver s o.g (.vec 1 o.d) false (one fun _ => w) noFlags
     bitsOf b 7 1 = 0 → n ≠ 0 → isGlobal a = true → a.toNat % 65536 = 0 → done + m ≤ n →
     Turns (fun u i v => ∃ p q region, u.regionAt y k (a + BitVec.ofNat 64 (65536 * i)) = (p, .inl (some region)) ∧
       p.setRegion y region (bitOf b 0) = (q, true) ∧
       v = q.setLong { yard := y, pc := s.here.pc, w := s.here.w, done := i + 1, status := none } ∧
       (i + 1 < n → (v.core (coreOf k)).preempt = false)) (List.range' done m) s t →
     (done + m = n → exec (.rmode o) s = .next (answer t (BitVec.ofNat 32 n))) ∧
     (∀ p, done + m < n → t.regionAt y k (a + BitVec.ofNat 64 (65536 * (done + m))) = (p, .inl none) →
       exec (.rmode o) s = .next (answer p (BitVec.ofNat 32 (0x81000000 + (done + m))))))

/-- NCWIN completes with one window register of its context written; with EN 0 it does not read its base. TLBINV completes with
the context's translations, or those of one page, dropped from every TLB. REPLAY completes with the context's parked threads
of the cluster replayed, or those of every cluster where it is resident. TLBPROBE completes with what a translation gives
each active lane: a page that is mapped, with the leaf's mode, size and permissions and whether a TLB held it, a page that is
not present, one that is refused, and a walk that a table or an exit stops. POTSET with operand 1 completes with a device
page released: every TLB entry that covers it goes, it is zeroed, its ownership entry loses WORLD and BOUND, and the host is
told; with 0 the page is zeroed and loses BOUND alone. On a page that is the platform's or not device memory it changes
nothing and answers RESULT 2 with CODE 1. -/
def Obligations.TranslationWords : Prop :=
  ((∀ (s : State) (o : OpA) (y : Nat) (b : Word), s.InYard o.g y → s.Reads o.g [o.b] o.lit (fun _ => [b]) →
     let n := b.toNat
     let put (x : Win) : State := s.modCtx (s.yardCtx y) fun c => { c with windows := Map.set c.windows (bitsOf n 3 0) x }
     (bitsOf n 7 5 = 0 → bitOf n 4 = false →
       exec (.ncwin o) s = .next (put { en := false, base := 0, count := bitsOf n 31 8 })) ∧
     (∀ lo hi, bitsOf n 7 5 = 0 → bitOf n 4 = true → s.Reads o.g (codesFrom o.a 2) o.lit (fun _ => [lo, hi]) →
       isGlobal (dw lo hi) = true → (dw lo hi).toNat % 65536 = 0 → bitsOf n 31 8 ≠ 0 →
       exec (.ncwin o) s = .next (put { en := true, base := dw lo hi, count := bitsOf n 31 8 })) ∧
     (∀ t : State, s.drainAll (s.active s.here o.g) = (t, true) →
       (b = 1 → exec (.tlbinv o) s =
         .next { t with mem := { t.mem with tlb := t.mem.tlb.filter fun e => !(e.ctx == s.yardCtx y) } }) ∧
       (∀ lo hi, b = 0 → s.Reads o.g (codesFrom o.a 2) o.lit (fun _ => [lo, hi]) → isGlobal (dw lo hi) = true →
         exec (.tlbinv o) s =
           .next { t with mem := { t.mem with tlb := t.mem.tlb.filter fun e => !(e.covers (s.yardCtx y) (vpageOf (dw lo hi))) } }))) ∧
   (∀ (s : State) (o : OpA) (y : Nat) (b : Word), s.InYard o.g y → s.Reads o.g [o.b] o.lit (fun _ => [b]) →
     (b = 0 → exec (.replay o) s = .next (s.replayIn (clusterOf (yardCore y)) (s.yardCtx y))) ∧
     (b = 1 → exec (.replay o) s =
       .next ((s.clustersOf (s.yardCtx y)).foldl (fun t cl => t.replayIn cl (s.yardCtx y)) s)))) ∧
  (∀ (s t : State) (o : OpA) (rd : Nat → List Word) (r : Nat → Word),
     s.Ready o.g (codesFrom o.a 2 ++ [o.b]) o.lit (.vec 1 o.d) rd →
     let leaf (r : Nat) (e : TlbEntry) (hit : Bool) : Word := BitVec.ofNat 32 (r * 2 ^ 30 + e.mode * 2 ^ 28 + e.size * 2 ^ 25 +
       b2n e.r * 2 ^ 24 + b2n e.w * 2 ^ 23 + b2n hit * 2 ^ 22)
     Turns (fun u k v => (val (rd k) 2).toNat ≤ 2 ∧ isGlobal (val2 (rd k) 0) = true ∧ ∃ p x,
       u.translate (coreOf k) (u.ctxOf k) (vpageOf (val2 (rd k) 0)) (val (rd k) 2).toNat = (p, x) ∧
       match x with
       | .ok e hit => v = p ∧ r k = leaf 0 e hit
       | .refuse reason e => v = u ∧
           r k = if reason = 0 ∨ reason = 4 then 0x40000000 else e.elim 0x80000000 fun e => leaf 2 e false
       | .cause _ e => v = u ∧ r k = e.elim 0xC0000000 fun e => leaf 3 e false
       | .wait => False) (s.active s.here o.g) s t →
     exec (.tlbprobe o) s = .next (t.deliver s o.g (.vec 1 o.d) false (one r) noFlags)) ∧
  (∀ (s t u : State) (o : OpA) (y : Nat) (ws : List Word) (pa : Nat) (nc : Bool), s.InYard o.g y →
     s.Ready o.g (codesFrom o.a 2 ++ [o.b]) o.lit (.vec 1 o.d) (fun _ => ws) →
     let a := val2 ws 0
     let pp := pa / 4096
     isGlobal a = true →
     s.reach (some (coreOf ((s.active s.here o.g).headD 0))) (s.ctxOf ((s.active s.here o.g).headD 0)) a 1 = (t, .at pa nc) →
     t.drainAll (s.active s.here o.g) = (u, true) →
     ((t.potAt pp).sys = true ∨ u.isDev pa = false → (val ws 2).toNat ≤ 1 →
       exec (.potset o) s = .next (u.deliver s o.g (.vec 1 o.d) false (one fun _ => 0x81000000) noFlags)) ∧
     ((t.potAt pp).sys = false → u.isDev pa = true → ∀ v, u.pageReady pp nc = (v, true) →
       (val ws 2 = 1 → exec (.potset o) s = .next (((v.releasePage pp).send (.report 2 [pp])).deliver s o.g (.vec 1 o.d) false
         (one fun _ => 1) noFlags)) ∧
       (val ws 2 = 0 → exec (.potset o) s =
         .next ((((v.tlbDrop fun x => decide (x.ppn ≤ pp) && decide (pp < x.ppn + sizePages x.size)).zeroPage pp).setPot pp
           { t.potAt pp with bound := false }).deliver s o.g (.vec 1 o.d) false (one fun _ => 1) noFlags))))

/-! ### Engines and tasks (04_control, 13_async) -/

/-- COPY of one lane, once its own stores are registered, reads its packet, takes a future entry and starts the copy, or ends it
at once with the status that refuses it; either way its destination takes the handle with the pending tag. SEGFETCH of a
segment that no fetch is landing and that does not hold the overlay begins a new fetch: the segment takes its packets and
source, its landing number rises, a copy of 12 bytes a packet starts, and the destination takes the handle. -/
def Obligations.CopiesAndSegmentFetches : Prop :=
  (∀ (s t u : State) (o : OpM) (k slot : Nat) (rd : Nat → List Word) (p : Place) (ws : List Word), s.Sole o.g k →
     s.Ready o.g (addrCodes o) o.lit (.vec 1 o.d) rd →
     let a := eaOf (rd k) 1
     isGlobal a = true ∨ spaceOf a = 1 → (s.locate k a 64 0).2 = .at p → s.drain k = (t, true) →
     t.packetWords k a = (u, .inl ws) → u.freeSlot (coreOf k) = .inl slot →
     let x := copyOf ws u.serialNo (clusterOf (coreOf k)) (u.ctxOf k) (coreOf k) (u.thread k).acq (some (coreOf k, slot))
     let v := u.newFuture (coreOf k) slot 2 1 none
     (v.copyRefused x ws = none → v.rangesFree x = true → v.inflight (clusterOf (coreOf k)) < 64 →
       exec (.copy o) s = .next ((v.startCopy { x with rm := (v.thread k).rm.toNat }).deliverTags s o.g (.vec 1 o.d) false
         (one fun _ => handleWord 3 0 2 slot) fun _ => some slot)) ∧
     (∀ st, v.copyRefused x ws = some st →
       let e : Ended :=
         { cluster := x.cluster, rank := coreOf k + 1, since := x.since, ctx := x.ctx, compl := x.compl, fut := x.fut, task := none,
           state := 1, status := st, flags := 0, aux := 0, parked := none }
       exec (.copy o) s = .next (((v.engineStat x.cluster fun n => { n with ops := n.ops + 1 }).finishEnd e).deliverTags s o.g
         (.vec 1 o.d) false (one fun _ => handleWord 3 0 2 slot) fun _ => some slot))) ∧
  (∀ (s t : State) (o : OpA) (k slot : Nat) (rd : Nat → List Word), s.Sole o.g k →
     s.Ready o.g (codesFrom o.a 2 ++ [o.b]) o.lit (.vec 1 o.d) rd →
     let a := val2 (rd k) 0
     let b := (val (rd k) 2).toNat
     let n := bitsOf b 2 0
     let count := bitsOf b 28 16
     let core := coreOf k
     n ≠ 0 → count ≠ 0 → count ≤ 5461 → bitsOf b 15 3 = 0 → bitsOf b 31 29 = 0 → isGlobal a = true → a.toNat % 64 = 0 →
     (s.seg core n).slot = none → (s.seg core n).st ≠ 2 → t.freeSlot core = .inl slot → s.drainAll [k] = (t, true) →
     (∀ x ∈ t.eng.copies, x.seg ≠ some (core, n)) → t.inflight (clusterOf core) < 64 →
     let u := t.newFuture core slot 1 (if noWrite o.d then 0 else 1) none
     let g := u.seg core n
     let v := u.setSeg core n { g with st := 1, packets := count, landno := g.landno + 1, status := 0, src := a, slot := some slot }
     let x : Copy := { copyOf [] v.serialNo (clusterOf core) (v.ctxOf k) core (v.thread k).acq (some (core, slot)) with
       src := a, rowlen := 12 * count, nrows := 1, seg := some (core, n) }
     let w := (v.setEng { v.eng with copies := v.eng.copies ++ [x] }).bumpSerial
     exec (.segfetch o) s = .next ((w.deliver s o.g (.vec 1 o.d) false (one fun _ => handleWord 3 0 1 slot) noFlags).tagged k slot o.d))

/-- QCLAIM completes with each active lane's claim, in turn: it takes the index WIDX of a queue and advances it where the ring has
room, in one atomic event, and answers the index and whether the queue was full. QPUT of a quartet completes where its claim
finds room: it writes the packet of its lanes into the slot. -/
def Obligations.QueueWords : Prop :=
  (∀ (s t : State) (o : OpM) (rd ans : Nat → List Word), s.Ready o.g (addrCodes o) o.lit (.vec 2 o.d) rd →
    Turns (fun u k v => ∃ p pa nc old, isGlobal (eaOf (rd k) 1) = true ∧ u.locate k (eaOf (rd k) 1) 8 2 = (p, .at (.mem pa nc)) ∧
      (∀ i ∈ [8, 12, 16], p.poisoned (lineAddr pa + i) = false) ∧
      let room (old : List Word) : Bool := decide ((val old 0 - val old 1).toNat < 2 ^ (p.ringOf pa).2)
      p.atomPlace k (eaOf (rd k) 1) 2 (.mem pa nc) (fun old => if room old then [val old 0 + 1, val old 1] else old) =
        (v, .inl old) ∧ ans k = [val old 0, if room old then 0 else 1]) (s.active s.here o.g) s t →
    exec (.qclaim o) s = .next (t.deliver s o.g (.vec 2 o.d) false ans noFlags)) ∧
  (∀ (s t u : State) (o : OpM) (y q : Nat) (c : Claim) (rd : Nat → List Word) (a : DWord), q < 16 →
    let ks := (List.range 4).map fun n => threadKey y (4 * q + n)
    s.active s.here o.g = ks → s.Reads o.g (addrCodes o ++ codesFrom o.d 4) o.lit rd →
    (∀ k ∈ ks, eaOf (rd k) 1 = a ∧ (s.thread k).keptIndex s.here.pc s.here.w = none) →
    s.claim (threadKey y (4 * q)) a = (t, .inl c) → c.got = true →
    t.putPacket (threadKey y (4 * q)) c (quartetPacket (ks.map fun k => (k, rd k)) (t.thread (threadKey y (4 * q))).rm) =
      (u, none) →
    exec (.qput o) s = .next (u.dropIndex ks))

/-- TASKDEF of one yard's lanes completes: it reads the launch packet, takes the lowest free task entry and a future entry, and
answers the task's identifier and the handle. TASKDEP completes, each active lane in turn: it adds to the count of a waiting
task, at most to 65535, and answers 0; of a task that no longer waits it answers 1. TASKSIG completes, each active lane in
turn after its thread's stores: it subtracts from the count, and the task whose count reaches 0 is handed over. SWZADR
completes with the swizzled offset. -/
def Obligations.TaskWords : Prop :=
  (∀ (s t u : State) (o : OpA) (y k n slot : Nat) (ks : List Nat) (rd ws : List Word), s.InYard o.g y → s.active s.here o.g = k :: ks →
     s.Ready o.g (codesFrom o.a 2 ++ [o.b]) o.lit (.vec 2 o.d) (fun _ => rd) →
     let a := val2 rd 0
     isGlobal a = true → a.toNat % 64 = 0 → (val rd 2).toNat ≤ 65535 → s.freeTask = some n → s.drainAll (k :: ks) = (t, true) →
     t.packetWords k a = (u, .inl ws) → u.freeSlot (coreOf k) = .inl slot →
     let v := u.newFuture (coreOf k) slot 3 (ks.length + 1) none
     let tid := taskId n { v.task n with gen := (v.task n).gen + 1 }
     let w := v.defineTask n (v.ctxOf k) (val rd 2).toNat ws (some (coreOf k, slot)) Compl.none
     exec (.taskdef o) s = .next (w.deliverTags s o.g (.vec 2 o.d) false (fun _ => [tid, handleWord 3 0 3 slot]) fun _ => some slot)) ∧
  ((∀ (s t : State) (o : OpA) (rd : Nat → List Word) (r : Nat → Word), s.Ready o.g [o.a, o.b] o.lit (.vec 1 o.d) rd →
     Turns (fun u k v => ∃ n, (val (rd k) 1).toNat ≤ 65535 ∧ u.taskOf (u.ctxOf k) (val (rd k) 0) = some n ∧
       ((u.task n).st = some .waiting ∧ r k = 0 ∧
           v = u.setTask n { u.task n with count := min ((u.task n).count + (val (rd k) 1).toNat) 65535 } ∨
         (u.task n).st ≠ some .waiting ∧ r k = 1 ∧ v = u)) (s.active s.here o.g) s t →
     exec (.taskdep o) s = .next (t.deliver s o.g (.vec 1 o.d) false (one r) noFlags)) ∧
   (∀ (s t : State) (o : OpA) (rd : Nat → List Word), s.Reads o.g [o.a, o.b] o.lit rd →
     Turns (fun u k v => ∃ n p, (val (rd k) 1).toNat ≤ 65535 ∧ u.taskOf (u.ctxOf k) (val (rd k) 0) = some n ∧ u.drain k = (p, true) ∧
       ((p.task n).st = some .waiting ∧ (val (rd k) 1).toNat < (p.task n).count ∧
           v = p.setTask n { p.task n with count := (p.task n).count - (val (rd k) 1).toNat } ∨
         (p.task n).st = some .waiting ∧ (p.task n).count ≤ (val (rd k) 1).toNat ∧ val (rd k) 1 ≠ 0 ∧
           v = (p.setTask n { p.task n with count := 0, st := some .ready }).handOff n ∨
         (p.task n).st ≠ some .waiting ∧ v = p)) (s.active s.here o.g) s t →
     exec (.tasksig o) s = .next t) ∧
   (∀ (s : State) (o : OpA) (rd : Nat → List Word) (b : Word), s.Ready o.g [o.a, o.b] o.lit (.vec 1 o.d) rd →
     (∀ k ∈ s.active s.here o.g, val (rd k) 1 = b) → swzOk b.toNat = true →
     exec (.swzadr o) s = .next (s.gives o.g (.vec 1 o.d) false
       (one fun k => BitVec.ofNat 32 (swzOffset (val (rd k) 0).toNat (bitsOf b.toNat 7 0) (bitsOf b.toNat 12 8))) noFlags)))

/-! ### System words (18_system) -/

/-- SYSC of one lane completes, once its own stores are registered: it takes a future entry and puts a call record into the next
free slot of its core's ring, and the destination takes the handle. FENCEC completes: at LANE scope it puts the open calls of
each active thread before its later ones, and its epoch rises; at YARD scope it does so among the members of the yard, and at
RIG scope among those of the rig, once for the rendezvous. -/
def Obligations.SystemCalls : Prop :=
  (∀ (s t : State) (o : OpA) (k slot i : Nat) (rd : Nat → List Word), s.Sole o.g k →
     s.Ready o.g (codesFrom o.a 2 ++ [o.b]) o.lit (.vec 1 o.d) rd →
     let a := val2 (rd k) 0
     isGlobal a = true → a.toNat % 64 = 0 → (s.ctx (s.ctxOf k)).sysGrant = true → s.drain k = (t, true) →
     t.freeSlot (coreOf k) = .inl slot → (t.core (coreOf k)).ringSlot = some i →
     let call : Call :=
       { num := t.serialNo, after := (t.thread k).fence, seq := BitVec.ofNat 32 i,
         call := val (rd k) 2, args := a, world := t.worldOf (t.ctxOf k), ctx := t.ctxOf k, thread := k,
         epoch := (t.thread k).epoch, slot := slot, parked := none }
     let u := ((t.newFuture (coreOf k) slot 6 1 none).modCore (coreOf k) fun x =>
       { x with ring := Map.set x.ring i call, ringnext := (i + 1) % Config.mailbox }).bumpSerial
     exec (.sysc o) s = .next ((u.deliver s o.g (.vec 1 o.d) false (one fun _ => handleWord 3 0 6 slot) noFlags).tagged k slot o.d)) ∧
  (∀ (s : State) (o : OpA),
     let kind := setKind (s.groupVersion s.here.lanes) o.s
     let fence (t : State) (ks : List Nat) : State := t.updLanes ks fun _ x =>
       { x with fence := t.openCalls ks ++ ks.flatMap (fun k => (t.thread k).fence), epoch := x.epoch + 1 }
     (kind = .lane → exec (.fencec o) s = .next ((s.active s.here o.g).foldl (fun t k => fence t [k]) s)) ∧
     (∀ y, s.InYard o.g y →
       (kind = .yard → exec (.fencec o) s = .next (fence s (s.setMembers y false))) ∧
       (kind = .rig → ∀ id, (s.thread ((s.active s.here o.g).headD 0)).released = some id →
         (s.fab.fenced.contains id = true → exec (.fencec o) s = .next s) ∧
         (s.fab.fenced.contains id = false → let t := fence s (s.setMembers y true)
           exec (.fencec o) s = .next { t with fab := { t.fab with fenced := t.fab.fenced ++ [id] } }))))

/-- TRAP takes the trap 0x1B in each active lane with A as INFO0, and resumes after the word; BRK does the same with 0x11 where
the context is not attached. HALT stops each active thread at the word: its record is written as a trap entry writes it,
with STOPPED set, the host is told, the stop is widened, and the thread parks. TRET completes, each active lane in turn: in
the last word of its packet it ends the handler's region, clears INTRAP, and the thread resumes where its record says;
where a later word of its chain follows, the return waits for the chain's end. -/
def Obligations.TrapWords : Prop :=
  (∀ (s : State) (o : OpA) (a : Nat → Word), s.Reads o.g [o.a] o.lit (fun k => [a k]) →
     let t (n k : Nat) : Trap := { cause := n, origin := 0, resume := true, info0 := (a k).zeroExtend 64, info1 := 0, info2 := 0 }
     let ks := s.active s.here o.g
     let kind := setKind (s.groupVersion s.here.lanes) o.s
     exec (.trap o) s = .next (s.raise s.here kind (ks.map fun k => (k, t 0x1B k))) ∧
     ((∀ k ∈ ks, (s.ctx (s.ctxOf k)).dbg.attach = false) →
       exec (.brk o) s = .next (s.bumpSerial.raise s.here kind (ks.map fun k => (k, t 0x11 k)))) ∧
     exec (.halt o) s = .next (ks.foldl (fun u k => u.park k s.here.w .stopped true)
       ((ks.foldl (fun u k => u.stopMark k s.here.pc s.here.w (t 0x1C k) s.serialNo) s.bumpSerial).widen ks s.serialNo))) ∧
  (∀ (s t : State) (o : OpA),
     Turns (fun u k v => (u.thread k).trec.intrap = true ∧ u.retCheck (coreOf k) (u.thread k).trec = none ∧
       (u.here.left = 0 ∧ v = ((((u.endRegion k).leaveGroup k).modThread k fun x =>
           { x with trec := { x.trec with intrap := false }, leaving := .no, released := none, given := none }).liftSets k).resume k ∨
         u.here.left ≠ 0 ∧ v = u.modThread k fun x => { x with leaving := .ret })) (s.active s.here o.g) s t →
     exec (.tret o) s = .next t)

/-! ### Matrix, block and work-queue words (14_matrix, 16_attention) -/

/-- MRD reads the accumulator word that A numbers, bank by bank and row by row, once no matrix operation uses the bank; MWR
writes it. MSPAN answers the block after the span that begins at its block: all ones for a tile that an MMA would refuse,
the number of blocks for INT8, and else where the span's bound ends it. MSEQ answers the sequencer's cursor, the flags, the
flags with their clearing, and the spans closed. -/
def Obligations.AccumulatorsAndSpans : Prop :=
  (∀ (s : State) (o : OpA) (a b : Nat → Word),
     (∀ k ∈ s.active s.here o.g, (a k).toNat < 2 ^ 16 ∧ s.matrixBusy (coreOf k) 3 (4 * (a k).toNat) = false) →
     (s.Ready o.g [o.a] o.lit (.vec 1 o.d) (fun k => [a k]) →
       (∀ k ∈ s.active s.here o.g, s.mem.poison.contains (chipKey 3 (coreOf k) (4 * (a k).toNat)) = false) →
       exec (.mrd o) s = .next (s.gives o.g (.vec 1 o.d) false
         (one fun k => s.chipWord (chipKey 3 (coreOf k) (4 * (a k).toNat))) noFlags)) ∧
     (s.Reads o.g [o.a, o.b] o.lit (fun k => [a k, b k]) →
       (∀ t k, (State.setChipWord t (chipKey 3 (coreOf k) (4 * (a k).toNat)) (b k)).fab = t.fab) →
       exec (.mwr o) s = .next ((s.active s.here o.g).foldl (fun t k =>
         t.setChipWord (chipKey 3 (coreOf k) (4 * (a k).toNat)) (b k)) s))) ∧
  ((∀ (s : State) (o : OpA) (y c : Nat) (d fw : Word), s.InYard o.g y →
     s.Ready o.g [o.a, o.b] o.lit (.vec 1 o.d) (fun _ => [d, fw]) → s.cleatOf y = some c → bitsOf d.toNat 31 26 = 0 →
     fwOk fw = true → bitsOf d.toNat 7 0 ≤ bitsOf d.toNat 15 8 → (fmtA fw = 6 → bitsOf d.toNat 15 8 < 128) →
     bitsOf d.toNat 25 24 ≠ 3 → (fmtA fw ≠ 6 → bitsOf d.toNat 25 24 = 0) →
     (∀ p ∈ (s.core (yardCore y)).mreleased, p.cleat = c → p.op ≠ .mseta ∧ p.op ≠ .msetb) →
     let n := bitsOf d.toNat 15 8 + 1
     let x := mmaArgs (s.cleat (yardCore y, c)).binds fw 0 0 n (bitsOf d.toNat 23 16 + 1)
     let answer (w : Word) : State := s.gives o.g (.vec 1 o.d) false (one fun _ => w) noFlags
     (x.tile.refused x.fa 0 n ≠ none → exec (.mspan o) s = .next (answer 0xFFFFFFFF)) ∧
     (x.tile.refused x.fa 0 n = none → x.fa = 5 → exec (.mspan o) s = .next (answer (BitVec.ofNat 32 n))) ∧
     (x.tile.refused x.fa 0 n = none → x.fa ≠ 5 →
       (∀ e ∈ x.reads (yardCore y), s.overlap (yardCore y) e.2.1 e.2.2.1 e.2.2.2 = none) →
       s.matrixBusy (yardCore y) 4 0 = false → s.badExtent (x.reads (yardCore y)) = false →
       exec (.mspan o) s = .next (answer (BitVec.ofNat 32 (s.spanOf (yardCore y) x (bitsOf d.toNat 25 24) (bitsOf d.toNat 7 0)).1)))) ∧
   (∀ (s : State) (o : OpA) (y : Nat) (a : Word), s.InYard o.g y → s.Ready o.g [o.a] o.lit (.vec 1 o.d) (fun _ => [a]) →
     let c := s.core (yardCore y)
     let answer (t : State) (w : Word) : State := t.deliver s o.g (.vec 1 o.d) false (one fun _ => w) noFlags
     (a = 0 → exec (.mseq o) s = .next (answer s c.cursor)) ∧
     (a = 1 → exec (.mseq o) s = .next (answer s (c.mxflags.zeroExtend 32))) ∧
     (a = 2 → exec (.mseq o) s =
       .next (answer (s.modCore (yardCore y) fun c => { c with mxflags := 0 }) (c.mxflags.zeroExtend 32))) ∧
     (a = 3 → exec (.mseq o) s = .next (answer s c.spans))))

/-- The descriptor event of a block word of one lane, that is refused: the descriptor stays, and the answer holds RESULT 1, the
CODE and the descriptor's low bits; KVPIN and KVUNPIN of a block that may be pinned or unpinned step its PIN count. KVALLOC
of one lane on an absent block takes the lowest free page of its class, sets its bit and writes a descriptor with PIN 1;
with no page free it answers RESULT 2 with CODE 7 and counts the failure. KVFREE of an unpinned block clears its page's bit
and its descriptor. -/
def Obligations.BlockPinsAndAllocation : Prop :=
  (∀ (s t : State) (o : OpA) (k pa : Nat) (nc : Bool) (a b : Word), s.Sole o.g k →
     s.Ready o.g [o.a, o.b] o.lit (.vec 1 o.d) (fun _ => [a, b]) → b.toNat < 16 →
     (s.pool b.toNat).att = true → (s.pool b.toNat).ctx.toNat = s.yardCtx (yardOf k) →
     a.toNat < (s.pool b.toNat).nblk →
     let addr := (s.pool b.toNat).descAddr a.toNat
     s.locate k addr 8 2 = (t, .at (.mem pa nc)) →
     (∀ u d, s.atomPlace k addr 2 (.mem pa nc) (fun old => old) = (u, .inl d) → val2 d 0 = 0 →
       u.fab.threads = s.fab.threads →
       exec (.kvpin o) s = .next ((u.acquire k).deliver s o.g (.vec 1 o.d) false (one fun _ => 0x41000000) noFlags)) ∧
     (∀ u v d e, s.atomPlace k addr 2 (.mem pa nc) (fun old => old) = (u, .inl d) → descPresent (val2 d 0) = true →
       descMoving (val2 d 0) = false → descPin (val2 d 0) ≠ 255 →
       u.atomPlace k addr 2 (.mem pa nc) (fun _ => words2 (val2 d 0 + 1)) = (v, .inl e) → v.fab.threads = s.fab.threads →
       exec (.kvpin o) s = .next ((v.acquire k).deliver s o.g (.vec 1 o.d) false
         (one fun _ => BitVec.ofNat 32 (bitsOf (val2 d 0 + 1).toNat 11 0)) noFlags)) ∧
     (∀ r u v d e, s.drain k = (r, true) → r.atomPlace k addr 2 (.mem pa nc) (fun old => old) = (u, .inl d) →
       descPresent (val2 d 0) = true → descPin (val2 d 0) ≠ 0 →
       u.atomPlace k addr 2 (.mem pa nc) (fun _ => words2 (val2 d 0 - 1)) = (v, .inl e) → v.fab.threads = s.fab.threads →
       exec (.kvunpin o) s = .next (v.deliver s o.g (.vec 1 o.d) false
         (one fun _ => BitVec.ofNat 32 (bitsOf (val2 d 0 - 1).toNat 11 0)) noFlags))) ∧
  (∀ (s t : State) (o : OpA) (k pa : Nat) (nc : Bool) (a b : Word), s.Sole o.g k →
     s.Ready o.g [o.a, o.b] o.lit (.vec 1 o.d) (fun _ => [a, b]) → bitsOf b.toNat 31 6 = 0 →
     let n := b.toNat % 16
     let cls := bitsOf b.toNat 5 4
     let p := s.pool n
     p.att = true → p.ctx.toNat = s.yardCtx (yardOf k) → a.toNat < p.nblk →
     let addr := p.descAddr a.toNat
     s.locate k addr 8 2 = (t, .at (.mem pa nc)) →
     (∀ u v d, s.atomPlace k addr 2 (.mem pa nc) (fun old => old) = (u, .inl d) → descPresent (val2 d 0) = false →
       descMoving (val2 d 0) = false → u.findFree k p cls 0 (p.slabCount cls) = (v, .inl none) → v.fab.threads = s.fab.threads →
       exec (.kvalloc o) s = .next (((v.setPool n { p with allocfail := p.allocfail + 1 }).acquire k).deliver s o.g
         (.vec 1 o.d) false (one fun _ => kvStatus 2 7 (val2 d 0)) noFlags)) ∧
     (∀ u v w x d e f (page : PageId), s.atomPlace k addr 2 (.mem pa nc) (fun old => old) = (u, .inl d) →
       descPresent (val2 d 0) = false → descMoving (val2 d 0) = false →
       u.findFree k p cls 0 (p.slabCount cls) = (v, .inl (some page)) →
       let new := mkDesc (p.pageAddr page) cls true false 1
       v.atomAt k (p.bitOf page).1 1 (fun old => [putBit (val old 0) (p.bitOf page).2 true]) = (w, .inl e) →
       w.atomPlace k addr 2 (.mem pa nc) (fun _ => words2 new) = (x, .inl f) → x.fab.threads = s.fab.threads →
       exec (.kvalloc o) s = .next ((x.acquire k).deliver s o.g (.vec 1 o.d) false
         (one fun _ => kvStatus 0 0 new) noFlags)) ∧
     (∀ r u w x d e f, cls = 0 → s.drain k = (r, true) → r.atomPlace k addr 2 (.mem pa nc) (fun old => old) = (u, .inl d) →
       descPresent (val2 d 0) = true → descMoving (val2 d 0) = false → descPin (val2 d 0) = 0 →
       let page := p.pageAt (descClass (val2 d 0)) (descPage (val2 d 0))
       p.hasPage page = true →
       u.atomAt k (p.bitOf page).1 1 (fun old => [putBit (val old 0) (p.bitOf page).2 false]) = (w, .inl e) →
       w.atomPlace k addr 2 (.mem pa nc) (fun _ => words2 0) = (x, .inl f) → x.fab.threads = s.fab.threads →
       exec (.kvfree o) s = .next (x.deliver s o.g (.vec 1 o.d) false (one fun _ => kvStatus 0 0 0) noFlags)))

/-- KVX of one lane translates a position of a sequence to its block's descriptor and byte offset: the block comes from the
sequence's list, without .pin the descriptor is read in one event, and a position out of range gives a zero descriptor and
an offset of all ones. -/
def Obligations.BlockTranslation : Prop :=
  ∀ (s t : State) (o : KvxOp) (k : Nat) (q x : Word), s.Sole 7 k → s.Ready 7 [o.seq, o.pos] 0 (.vec 2 o.d) (fun _ => [q, x]) →
    (s.thread k).dstOk (.vec 1 o.od) = true → (s.thread k).tags = [] →
    let p := s.pool o.pool.toNat
    p.att = true → p.ctx.toNat = s.ctxOf k →
    let put (t : State) (off : Word) (rep : Bool) : State := t.modThread k fun x =>
      { x with preds := setPred x.preds (o.pm.zeroExtend 5) rep,
               vs := if noWrite o.od then x.vs else writeSlot x.vs (slotOfD o.od) off }
    let answer (u : State) (d : DWord) : State := (u.acquire k).deliver s 7 (.vec 2 o.d) false (fun _ => words2 d) noFlags
    (s.kvSpot k p q.toNat x.toNat = (t, .oor) → t.fab = s.fab →
      exec (.kvx o) s = .next (answer (put t 0xFFFFFFFF false) 0)) ∧
    (∀ lbn off pa nc u v old, s.kvSpot k p q.toNat x.toNat = (t, .at lbn off) → v.fab = s.fab →
      isGlobal (p.descAddr lbn) = true → o.pin ≠ 1 → t.locate k (p.descAddr lbn) 8 0 = (u, .at (.mem pa nc)) →
      u.atomPlace k (p.descAddr lbn) 2 (.mem pa nc) (fun old => old) = (v, .inl old) →
      exec (.kvx o) s = .next (answer (put v (BitVec.ofNat 32 off)
        (!(descPresent (val2 old 0) && !descMoving (val2 old 0)))) (val2 old 0)))

/-- WQPUSH appends an item of 32 bytes to its queue and WQPULL asks it for one, after the thread's stores; an item and a pull
that meet are assigned in order. LASTARR counts an arrival down to 0 and answers whether it was the last. -/
def Obligations.WorkQueues : Prop :=
  (∀ (s t u v w : State) (o : OpM) (k : Nat) (rd : Nat → List Word) (p r : Place) (ws old : List Word), s.Sole o.g k →
    s.Reads o.g (addrCodes o) o.lit rd →
    let a := val2 (rd k) 0
    let q := (val (rd k) 2).toNat
    s.wqCheck (.wqpush o) k a q = .inl q → s.drainAll [k] = (t, true) → t.locate k a 32 0 = (u, .at p) →
    u.readPlace k 0 a 8 p = (v, .inl ws) → val ws 0 ≠ 0 → (v.wq q).closed = false →
    (v.wq q).count < 2 ^ (v.wq q).logd.toNat →
    let slot := (v.wq q).slotAddr ((v.wq q).head + (v.wq q).count)
    v.locate k slot 32 1 = (w, .at r) → ∀ z, w.atomPlace k slot 8 r (fun _ => ws) = (z, .inl old) →
    exec (.wqpush o) s = .next ((z.setWq q { v.wq q with
      count := (v.wq q).count + 1, pushed := (v.wq q).pushed + 1 }).wqAssign q)) ∧
  (∀ (s t : State) (o : OpM) (k slot : Nat) (rd : Nat → List Word), s.Sole o.g k →
    s.Ready o.g (addrCodes o) o.lit (.vec 1 o.d) rd →
    let a := val2 (rd k) 0
    let q := (val (rd k) 2).toNat
    s.wqCheck (.wqpull o) k a q = .inl q → s.freeSlot (coreOf k) = .inl slot → s.drainAll [k] = (t, true) →
    let u := t.newFuture (coreOf k) slot 7 (if noWrite o.d then 0 else 1) none
    let x : Pull := { core := coreOf k, ctx := s.ctxOf k, dst := a, slot := some slot, item := none, parked := none }
    let v := (u.setWq q { u.wq q with pulls := (u.wq q).pulls ++ [x] }).wqAssign q
    v.fab.threads = s.fab.threads →
    exec (.wqpull o) s = .next ((v.deliver s o.g (.vec 1 o.d) false (one fun _ => handleWord 3 0 7 slot) noFlags).tagged k slot o.d)) ∧
  (∀ (s t u : State) (o : OpM) (k : Nat) (rd : Nat → List Word) (p : Place) (old : List Word), s.Sole o.g k →
    s.Ready o.g (addrCodes o) o.lit (.pred o.d) rd →
    let a := eaOf (rd k) 1
    (s.locate k a 4 2).2 = .at p → s.drain k = (t, true) →
    t.atomAt k a 1 (fun old => [if val old 0 == 0 then 0 else val old 0 - 1]) = (u, .inl old) → u.fab.threads = s.fab.threads →
    exec (.lastarr o) s = .next ((if val old 0 = 1 then u.acquire k else u).deliver s o.g (.pred o.d) false
      (one fun _ => if val old 0 = 1 then 1 else 0) noFlags))

/-! ### Events of scheduling, launches and engines (03_threads, 13_async, 14_matrix) -/

/-- SELECT streams the eligible entry of lowest address where no entry has aged, and the head of the aged queue else. RESCAN
gives an unindexed thread the entry of its address, or a free one. YARD_INIT initialises the lowest waiting slot, and a bind record that dispatch
refuses is marked ERR and reported. -/
def Obligations.SelectionAndDispatch : Prop :=
  (∀ (s : State) (core part : Nat) (e : Entry),
    let q := s.part (partKey core part)
    q.stream = none → s.coreRuns core = true → e ∈ q.entries → s.entryReady e = true → (q.entries.map fun f => f.addr).Nodup →
    (s.agedNow q = [] → (∀ f ∈ q.entries, s.entryReady f = true → e.addr ≤ f.addr) →
      exec (.select core part) s = .next (s.streamEntry (partKey core part) e)) ∧
    (∀ r, s.agedNow q = e.addr :: r → exec (.select core part) s = .next (s.streamEntry (partKey core part) e))) ∧
  (∀ (s : State) (core part k : Nat),
    let p := partKey core part
    let q := s.part p
    let placed (es : List Entry) : State := (s.setPart p { q with entries := es, unindexed := [] }).updLanes [k] fun _ t =>
      { t with st := if t.st == .unindexed then .eligible else t.st }
    s.coreRuns core = true → q.unindexed = [k] →
    (q.entries.length < Config.frontier → (∀ e ∈ q.entries, e.addr ≠ (s.thread k).pc) →
      exec (.rescan core part) s = .next (placed ({ addr := (s.thread k).pc, wait := [k], age := 0 } :: q.entries))) ∧
    ((∃ e ∈ q.entries, e.addr = (s.thread k).pc) →
      exec (.rescan core part) s = .next (placed (q.entries.map fun e =>
        if e.addr = (s.thread k).pc then { e with wait := insertKey k e.wait } else e)))) ∧
  (∀ (s : State) (core y : Nat), s.nextInit core = some y → ((s.yard y).bind.hold = true → s.pointStable (clusterOf core) = true) →
    s.poolFree (yardPart y) ≠ 0 → (s.part (yardPart y)).hoistq = [] → s.coreRuns core = true → exec (.yardInit core) s = .next (s.initYard y)) ∧
  (∀ (s : State) (core slot : Nat) (w0 w1 w2 w3 : DWord), core < Config.cores → slot < 128 →
    let y := yardKey core slot
    let v := s.yard y
    let b := { bindOf w0 w1 w2 w3 with err := v.bind.err && !w3.getLsbD 61 }
    v.resident = false → w3.getLsbD 63 = true →
    (bindReserved w2 w3 = false → s.bindRefused core b = false → v.bind.valid = false ∨ v.waiting = true →
      exec (.bindRecordWrite core slot w0 w1 w2 w3) s = .next (s.setYard y { v with bind := b, waiting := true })) ∧
    (bindReserved w2 w3 = true ∨ s.bindRefused core b = true →
      exec (.bindRecordWrite core slot w0 w1 w2 w3) s =
        .next ((s.setYard y { v with bind := { b with valid := false, err := true }, waiting := false }).send
          (.report 3 [core, slot]))))

/-- A rendezvous that is complete lets its waiters through together, as a release and an acquire point of each; one that has
waited for the timeout traps them with cause 5. A cleat phase that is done releases its signers, and one that has waited
traps them; a partition in which every yard waits for registers traps the youngest request. -/
def Obligations.WaitsEnd : Prop :=
  (∀ (s t : State) (k : Nat), (s.thread k).atRendezvous = true → s.complete k = true → s.drainAll (s.waitersWith k) = (t, true) →
    exec (.rendezvousComplete k) s = .next ((s.waitersWith k).foldl (fun u j =>
      (u.modThread j fun x => { x with released := some t.serialNo }).ready j)
      ((t.bumpSerial.snapshot t.serialNo (s.waitersWith k)).acquireAll (s.waitersWith k)))) ∧
  (∀ (s : State) (k : Nat), (s.thread k).waitSince.isSome = true → (s.ctx (s.ctxOf k)).resident = true →
    Config.timeout ≤ s.now - s.waitStart (s.waitersWith k) →
    exec (.rendezvousTimeout k) s = .next (s.raiseAt (s.waitScope k) ((s.waitersWith k).map fun j =>
      (j, (s.thread k).pc, (s.thread k).wpos,
        { cause := 5, origin := 0, resume := false, info0 := (s.thread k).pc.zeroExtend 64, info1 := 0, info2 := 0 })))) ∧
  (∀ (s t : State) (core cleat r : Nat), (s.cleat (core, cleat)).rig = some r → s.phaseDone r = true → s.phaseOp r = .sign →
    let ks := (s.rigSigners r).map fun x => x.thread
    s.drainAll ks = (t, true) →
    let u := t.acquireAll ks
    exec (.cleatRelease core cleat) s = .next (((u.rigCleats r).foldl (fun u c => u.modCleat c fun x =>
      { x with opened := false, signs := [], phase := x.phase + 1 }) u).signersGo (s.rigSigners r))) ∧
  (∀ (s : State) (core cleat r : Nat),
    let c := s.cleat (core, cleat)
    c.rig = some r → c.opened = true → s.coreIn core = true → s.phaseDone r = false → Config.timeout ≤ s.now - c.first →
    exec (.cleatTimeout core cleat) s = .next ((((s.rigCleats r).foldl (fun u d => u.modCleat d fun x =>
      { x with fault := x.opened }) s).clearPhase r).raiseAt .rig ((s.rigSigners r).map fun x => (x.thread, x.pc, x.w,
        { cause := 5, origin := 0, resume := false, info0 := c.addr.zeroExtend 64, info1 := 1, info2 := 0 })))) ∧
  (∀ (s : State) (core part : Nat) (r : HoistReq),
    let p := partKey core part
    (s.part p).hoistq.getLast? = some r → s.deadlocked p = true →
    let n := ((s.part p).hoistq.map fun x => x.members.length).sum
    exec (.poolDeadlock core part) s = .next (((((s.postRecord 7 0 ((s.core core).ctx) 0 [BitVec.ofNat 32 core, BitVec.ofNat 32 part,
      BitVec.ofNat 32 n]).send (.report 4 [core, part, n])).modPart p fun q => { q with hoistq := q.hoistq.dropLast })).raiseAt .yard
      (r.members.map fun k => (k, (s.thread k).pc, (s.thread k).wpos,
        { cause := 0x10, origin := 0, resume := false, info0 := 2, info1 := 0, info2 := 0 }))))

/-- A launch that firmware places is loaded and its yards are bound, all of them or none; a near-data packet whose tag, counter
and image are right is launched and its session's counter advances, and one that fails its checks ends with their status.
QUEUE_CONSUME, when its consumer's turn is at the queue, takes the packet in the slot at RIDX when its SEQ matches, advances
RIDX and starts its operation: a NOP
completes, a launch is handed over, and a packet of another kind than the consumer's fails with status 9. With the ring
empty, or the slot's SEQ not yet there, it takes nothing. -/
def Obligations.LaunchAndQueueEvents : Prop :=
  ((∀ (s u v : State) (n : Nat) (places : List (Nat × Nat)) (l : Launch) (k : Kernel) (head code : List Byte),
     s.launchOf n 2 = some l → s.overQuota l.ctx = false → s.kernelRead l none 0 64 = (u, .ok head) →
     kernelOf (val2 l.packet 4) head = some k → tooShort l none k = false → places ≠ [] →
     u.kernelRead l none 64 (12 * k.packets) = (v, .ok code) →
     (∀ w, v.place l k code places = some w → exec (.launch n places) s = .next w) ∧
     (v.place l k code places = none → exec (.launch n places) s = .next s)) ∧
   (∀ (s u : State) (n : Nat) (places : List (Nat × Nat)) (l : Launch) (head : List Byte), s.launchOf n 2 = some l →
     (s.overQuota l.ctx = true → exec (.launch n places) s = .next (s.launchEnd l 1 14)) ∧
     (s.overQuota l.ctx = false → s.kernelRead l none 0 64 = (u, .ok head) →
       (kernelOf (val2 l.packet 4) head = none → exec (.launch n places) s = .next (u.launchEnd l 1 15)) ∧
       (∀ k, kernelOf (val2 l.packet 4) head = some k →
         (tooShort l none k = true → exec (.launch n places) s = .next (u.launchEnd l 1 15)) ∧
         (tooShort l none k = false → exec (.launch n []) s = .next (u.launchEnd l 1 16))))) ∧
   (∀ (s : State) (n : Nat) (places : List (Nat × Nat)) (l : Launch), s.launchOf n 4 = some l →
     (∀ st, s.ndCheck l = .inr st → exec (.nearDataPacket n places) s = .next (s.launchEnd l 1 st)) ∧
     (∀ x i, s.ndCheck l = .inl (x, i) →
       let t := s.launchOn l (some i) (imageKey x.world i.num) places
       t ≠ s → exec (.nearDataPacket n places) s = .next (t.setTrust { t.trust with nd := t.trust.nd.map fun y =>
         if y.num = x.num then { y with last := val2 l.packet 10 } else y })))) ∧
  (∀ (s t u : State) (slot : Nat) (idx bs : List Byte),
     let q := s.qslot slot
     let c := q.ctx.toNat
     let cl := s.queueCluster q
     s.queueOpen slot = true → s.queueBefore slot = false → s.engineRead cl c q.hdr 8 = (t, .ok idx) →
     (wordAt idx 0 = wordAt idx 4 → exec (.queueConsume slot) s = .next t) ∧
     (wordAt idx 0 ≠ wordAt idx 4 →
       t.engineRead cl c (q.ring + BitVec.ofNat 64 (64 * ((wordAt idx 4).toNat % 2 ^ q.logd))) 64 = (u, .ok bs) →
       (wordAt bs 0 ≠ wordAt idx 4 → exec (.queueConsume slot) s = .next u) ∧
       (wordAt bs 0 = wordAt idx 4 → u.qslot slot = q → u.queueCluster q = cl → ∀ v,
         u.engineWrite cl c u.manager (q.hdr + 4) (bytesOf (wordAt idx 4 + 1)) = (v, .ok []) →
         let x := v.setQslot slot { v.qslot slot with failed := none }
         let w := x.setEng { x.eng with turn := Map.set x.eng.turn q.consumer (slot + 1) }
         let ws := toWords bs
         (headerOk ws = false ∨ accepts q.ckind.toNat (kindOf ws) = false →
           exec (.queueConsume slot) s = .next (w.packetEnd slot cl ws 1 9)) ∧
         (headerOk ws = true → kindOf ws = 0 → exec (.queueConsume slot) s = .next (w.packetEnd slot cl ws 0 0)) ∧
         (headerOk ws = true → kindOf ws = 2 → q.ckind.toNat = 2 → launchOk ws = true →
           exec (.queueConsume slot) s = .next (w.appendLaunch c 2 ws)))))

/-- A queue slot is attached and detached by the host's stores; a copy that runs performs rows and a segment's fetch lands; a
cancelled copy ends with state 2, as does a cancelled matrix operation, queued or running. The matrix queue takes a released
operation while it has room, its binding takes effect or it queues with a future entry and its signers go on; the sequencer
takes the head of the queue, clears the bank for MZERO, and resolves the operation that has finished. -/
def Obligations.EngineAndMatrixEvents : Prop :=
  ((∀ (s : State) (slot : Nat) (v : DWord), slot < 128 → v.getLsbD 0 = true →
     exec (.queueAttach slot v) s = .next (s.queueControl slot none v)) ∧
   (∀ (s : State) (slot : Nat), slot < 128 → (s.qslot slot).att = true →
     exec (.queueDetach slot) s = .next (s.queueControl slot none 2)) ∧
   (∀ (s : State) (n rows : Nat) (x : Copy) (l r : List Copy), s.eng.copies = l ++ x :: r → (∀ y ∈ l, y.num ≠ n) → x.num = n →
     x.seg = none → x.parked = none → exec (.copyComplete n rows) s = .next (s.runCopy x rows)) ∧
   (∀ (s : State) (core seg : Nat) (x : Copy) (l r : List Copy), s.eng.copies = l ++ x :: r →
     (∀ y ∈ l, y.seg ≠ some (core, seg)) → x.seg = some (core, seg) → x.parked = none →
     exec (.segmentLanded core seg) s = .next (s.landSegment x core seg)) ∧
   (∀ (s : State) (core slot : Nat) (f : Fut), Map.find? (s.core core).futs slot = some f → f.cancel = true → f.res = none →
     (∀ x l r, s.eng.copies = l ++ x :: r → (∀ y ∈ l, y.fut ≠ some (core, slot)) → x.fut = some (core, slot) →
       exec (.engineCancel core slot) s = .next (s.copyEnd x 2 0)) ∧
     ((∀ x ∈ s.eng.copies, x.fut ≠ some (core, slot)) →
       (∀ o, (s.core core).mrun = some o → o.slot = some slot → exec (.engineCancel core slot) s = .next (s.matEnd core o 2 0)) ∧
       ((∀ o, (s.core core).mrun = some o → o.slot ≠ some slot) → (∃ o ∈ (s.core core).mqueue, o.slot = some slot) →
         exec (.engineCancel core slot) s = .next ((s.modCore core fun c =>
           { c with mqueue := c.mqueue.filter fun o => o.slot != some slot }).resolve core slot 2 0))))) ∧
  ((∀ (s : State) (core : Nat) (o : MatOp) (r : List MatOp), (s.core core).mreleased = o :: r → (s.core core).mqueue.length < 8 →
     (o.wantsFuture = false → exec (.matrixQueueEnter core) s = .next (s.enterQueue core o none)) ∧
     (∀ i, o.wantsFuture = true → s.freeSlot core = .inl i →
       exec (.matrixQueueEnter core) s = .next (s.enterQueue core o (some i)))) ∧
   (∀ (s : State) (core : Nat), (s.core core).preempt = false →
     (∀ o, (s.core core).mrun = some o → exec (.matrixOpStart core) s = .next (s.matStep core o)) ∧
     (∀ o r, (s.core core).mrun = none → (s.core core).mqueue = o :: r → o.op = .mzero → o.parked = none → o.block = 0 →
       exec (.matrixOpStart core) s = .next ((((s.modCore core fun c => { c with mqueue := r }).zeroBank core
         ((val o.vals 0).toNat % 2)).runOp core { o with block := 1 })))) ∧
   (∀ (s : State) (core : Nat) (o : MatOp), (s.core core).mrun = some o → o.finished = true →
     exec (.matrixOpComplete core) s = .next ((s.modCore core fun c => { c with mrun := none }).resolveOpt
       (o.slot.map fun i => (core, i)) 0 0)))

/-! ### Events of memory and links (09_memory, 11_coherence, 12_translation, 20_boundary) -/

/-- A pending store is registered once its line's holders have answered, the stores of its thread to its word in their order; a
walk that has a slot ends, and fills the TLBs; a replay unparks a context resident in the cluster and FBDELIVER ends an
entry's waits; a shootdown starts at its identity, drops the entries it names and the stores
of world 1, and sends its acknowledgement. -/
def Obligations.HomeSliceEvents : Prop :=
  (∀ (s t : State) (n : Nat) (late : List Nat) (drop : Bool) (p q : Pend), s.mem.pend[n]? = some p →
    s.mem.pend.find? (fun q => q.thread == p.thread && q.word == p.word) = some q →
    (s.dirAccess q.word true q.nc = (t, true) → exec (.storeRegistrationAck n late drop) s = .next (t.register q drop late)) ∧
    (s.dirAccess q.word true q.nc = (t, false) → exec (.storeRegistrationAck n late drop) s = .next t)) ∧
  (∀ (s : State) (n : Nat) (w : Walk), s.mem.walks[n]? = some w →
    (s.slotFor w.cluster w.ctx w.vpage = true →
      exec (.walkComplete n) s = .next (s.walkNow w.cluster w.cores.head? w.ctx w.vpage w.kind).1) ∧
    (s.slotFor w.cluster w.ctx w.vpage = false → exec (.walkComplete n) s = .next s)) ∧
  (∀ (s : State) (cluster ctx : Nat), let there := (s.ctx ctx).resident = true ∧ ∃ i ∈ (s.ctx ctx).cores, clusterOf i = cluster
    (there → exec (.fbreplay cluster ctx) s = .next (s.replayIn cluster ctx)) ∧
    (¬there → exec (.fbreplay cluster ctx) s = .next s)) ∧
  (∀ (s : State) (cluster entry : Nat) (e : FbEntry), Map.find? (s.fb cluster).entries entry = some e →
    let t := (((s.deliverThreads cluster e).deliverCopies cluster e).deliverEnds cluster e).deliverCores cluster e
    let r := Map.del (t.fb cluster).entries entry
    exec (.fbdeliver cluster entry) s = .next (t.setFb cluster { t.fb cluster with
      entries := r, drops := if (r.isEmpty && (t.fb cluster).dropctx == 0) = true then 0 else (t.fb cluster).drops })) ∧
  (∀ (s : State) (v : Word), (s.mem.sd.running = true →
      exec (.shootdownSeqWrite v) s = .next (s.setSd { s.mem.sd with err := true })) ∧
    (s.mem.sd.running = false → exec (.shootdownSeqWrite v) s = .next (s.setSd { s.mem.sd with seq := v }))) ∧
  (∀ (s : State) (v : Word),
    (s.status.sdid ≠ 0 → v = s.status.sdid.zeroExtend 32 → s.mem.sd.ackseq ≠ s.mem.sd.seq →
      exec (.interruptFileWrite v) s = .next (s.setSd { s.mem.sd with running := true })) ∧
    (s.status.sdid = 0 ∨ v ≠ s.status.sdid.zeroExtend 32 ∨ s.mem.sd.ackseq = s.mem.sd.seq →
      exec (.interruptFileWrite v) s = .next s)) ∧
  (∀ (s t : State),
    let u := s.tlbDrop s.mem.sd.names
    let v := t.setSd { s.mem.sd with ackseq := s.mem.sd.seq, running := false }
    s.mem.sd.running = true → (u.drainPend fun p => u.worldOf (u.ctxOf p.thread) == 1) = (t, true) →
    (s.mem.sd.ackaddr = 0 → exec .shootdownComplete s = .next v) ∧
    (s.mem.sd.ackaddr ≠ 0 → exec .shootdownComplete s = .next (v.send (.msi s.mem.sd.ackaddr s.mem.sd.ackdata))))

/-- A request of a holder that its port's decoder maps, for a host-coherent line, waits its turn at the line's entry, and then
joins, takes over or splits it; an ownership request recalls the words that cores own. One that no decoder maps touches
nothing, and one in PS3 starts the exit alone. A write-back writes the words, below every write of a core; the last
response to a back-invalidation lets the waiting request through; quiet siblings merge; a snoop recalls or shares a
host-homed line; a handover passes its lines over, and stops while the host link is down. -/
def Obligations.DirectoryEvents : Prop :=
  (∀ (s : State) (h hpa : Nat) (data : List Word),
    (s.holderAddr h hpa = none → exec (.holderRead h hpa) s = .next s ∧ exec (.holderOwnershipRequest h hpa) s = .next s ∧
      exec (.holderWriteback h hpa data) s = .next s) ∧
    (∀ pa, s.holderAddr h hpa = some pa → s.power.pstate = 3 →
      exec (.holderRead h hpa) s = .next s.noteRequest ∧ exec (.holderOwnershipRequest h hpa) s = .next s.noteRequest)) ∧
  (∀ (s : State) (h hpa pa : Nat) (own : Bool),
    let i : Instr := if own then .holderOwnershipRequest h hpa else .holderRead h hpa
    let u := s.noteRequest.touchDir pa
    let line := lineAddr pa
    let a : Ask := { holder := some h, line := line, own := own, made := s.now }
    s.holderAddr h hpa = some pa → s.power.pstate ≠ 3 → s.isDev pa = true →
    (u.inMove line = true → exec i s = .next (u.queueAsk a)) ∧
    (u.inMove line = false → u.isHc line = false →
      exec i s = .next (if own then ((u.dropAsk a).recallLine line).settleWrites line else u.dropAsk a)) ∧
    (u.inMove line = false → u.isHc line = true →
      (u.behind a = true → exec i s = .next (u.queueAsk a)) ∧
      (∀ e, u.behind a = false → u.dirFind line = some e →
        let others := (holderList e.holders).filter (· != h)
        (e.await ≠ [] → exec i s = .next (u.queueAsk a)) ∧
        (e.await = [] →
          (own = false → e.excl = false → exec i s =
            .next ((u.dirReplace e [{ e with holders := e.holders ||| holderBit h, last := u.now }]).dropAsk a)) ∧
          (own = true → others = [] → exec i s = .next ((((u.dirReplace e [{ e with
            holders := holderBit h, excl := true, last := u.now }]).recallLine line).settleWrites line).dropAsk a)) ∧
          (∀ v ok, others ≠ [] →
            (own = true → u.splitFor e line (e.holders &&& holderBit h) others (.own h) true = (v, ok) →
              exec i s = .next (if ok then v.dropAsk a else v.queueAsk a)) ∧
            (own = false → e.excl = true → u.splitFor e line e.holders others (.read h) false = (v, ok) →
              exec i s = .next (if ok then v.dropAsk a else v.queueAsk a))))))) ∧
  (∀ (s : State) (h hpa pa : Nat) (data : List Word), s.holderAddr h hpa = some pa → s.power.pstate ≠ 3 → s.isDev pa = true →
    data.length = 16 → exec (.holderWriteback h hpa data) s = .next ((data.zipIdx.foldl (fun t x =>
      t.homeStore (lineAddr pa + 4 * x.2) 0 0 15 x.1) s.noteRequest).touchDir pa)) ∧
  (∀ (s : State) (h pa : Nat) (data : List Word) (e : DirEntry), s.dirFind pa = some e → (h, lineAddr pa) ∈ e.await →
    let e1 := { e with await := e.await.filter (· != (h, lineAddr pa)) }
    let t := ((data.take 16).zipIdx.foldl (fun t x => t.homeWrite (lineAddr pa + 4 * x.2) x.1) s).dirReplace e [e1]
    (e1.await ≠ [] → exec (.bisnpResponse h pa data) s = .next t) ∧
    (e1.await = [] → exec (.bisnpResponse h pa data) s = .next (t.answered e1))) ∧
  (∀ (s : State) (pa : Nat) (x y : DirEntry), let lo := pa / 65536 * 65536
    (s.mem.dir.find? fun e => e.base == lo && e.level == 1) = some x →
    (s.mem.dir.find? fun e => e.base == lo + 32768 && e.level == 1) = some y →
    s.quiet x = true → s.quiet y = true → x.holders = y.holders → x.excl = y.excl → x.holders ≠ 0 →
    exec (.directoryMerge pa 1) s = .next (s.setMem { s.mem with dir :=
      { x with base := lo, level := 0, last := max x.last y.last } :: s.mem.dir.filter fun e => e != x && e != y })) ∧
  (∀ (s : State) (pa : Nat), s.fitX = false → s.isDev pa = false → s.power.pstate ≠ 3 → let line := lineAddr pa
    exec (.snoop pa true) s = .next ((((s.noteRequest.recallLine line).writeLine line).dropSlice line).settleWrites line) ∧
    exec (.snoop pa false) s = .next (s.noteRequest.writeLine line)) ∧
  (∀ (s : State) (v : Word), let h := s.mem.ho; let n := h.len.toNat / 64; v.getLsbD 0 = true →
    (h.busy = false → 1 ≤ n → n ≤ 2 ^ 18 → exec (.handoverGo v) s = .next (s.setMem { s.mem with ho := { h with
      dir := v.getLsbD 1, busy := true, progress := 0, toDev := v.getLsbD 1, by_ := none, total := n,
      pages := [h.base.toNat / 64 * 64], off := 0 } })) ∧
    (h.busy = true ∨ n = 0 ∨ 2 ^ 18 < n →
      exec (.handoverGo v) s = .next (s.setMem { s.mem with ho := { h with err := true } }))) ∧
  (∀ (s : State), let h := s.mem.ho; h.busy = true → h.progress < h.total →
    (∀ t, Turns (fun u i v => u.hostLinkUp = true ∧ u.handoverStops = false ∧ u.inMove (h.lineAt i) = false ∧
        let w := u.handoverLine (h.lineAt i) h.toDev
        w.mem.ho = u.mem.ho ∧ v = w.setMem { w.mem with ho := { w.mem.ho with progress := i + 1 } })
        (List.range' h.progress (h.total - h.progress)) s t →
      exec (.handoverComplete 0) s = .next (t.handoverEnd h.total .all)) ∧
    (s.hostLinkUp = false → ∀ n, exec (.handoverComplete n) s = .next (s.handoverEnd h.progress .link)))

/-- A refresh tick that is due refreshes an idle bank, owes one to a busy bank up to eight, and then forces all of them; a memory
read waits for its bank and poisons what its check finds wrong; a link that goes down poisons the dirty lines behind it and
is recorded; each recovery command ends with its count, and one that is given while another runs changes nothing. -/
def Obligations.LinkAndChannelEvents : Prop :=
  (∀ (s : State) (pc : Nat), let r := s.channel pc; let b := r.nextBank
    let r1 := { r with nextBank := (b + 1) % 16, lastTick := some (r.lastTick.elim s.ns (· + 244)) }
    s.hasChannel pc = true →
    (s.power.pstate = 3 → exec (.refreshTick pc) s = .next s) ∧
    (∀ n, r.lastTick = some n → s.ns < n + 244 → exec (.refreshTick pc) s = .next s) ∧
    (s.power.pstate ≠ 3 → (∀ n, r.lastTick = some n → n + 244 ≤ s.ns) → r.pendingForced = none →
      ((∀ x < 16, s.ns < Map.getD r.busyUntil x 0) → exec (.refreshTick pc) s = .next (s.setChannel pc r1)) ∧
      ((∃ x < 16, Map.getD r.busyUntil x 0 ≤ s.ns) →
        let free := max s.ns (Map.getD r.busyUntil b 0)
        (r.busyAt b s.ns = false → exec (.refreshTick pc) s = .next (s.setChannel pc { r1 with
          owed := Map.del r.owed b, busyFrom := Map.set r.busyFrom b free,
          busyUntil := Map.set r.busyUntil b (free + (1 + r.owedOf b) * s.rfcPb) })) ∧
        (r.busyAt b s.ns = true → r.owedOf b < 8 → exec (.refreshTick pc) s = .next (s.setChannel pc { r1 with
          owed := Map.set r.owed b (r.owedOf b + 1), postp := r.postp + 1 })) ∧
        (r.busyAt b s.ns = true → 8 ≤ r.owedOf b → exec (.refreshTick pc) s = .next (s.setChannel pc { r1 with
          pendingForced := some (1 + r.owedOf b) }))))) ∧
  (∀ (s : State) (pc n : Nat), let r := s.channel pc; r.pendingForced = some n → r.column ≤ s.ns →
    exec (.refreshForced pc) s = .next (s.setChannel pc { r with
      pendingForced := none, forced := r.forced + 1, abref := r.abref + BitVec.ofNat 64 n, owed := [],
      busyFrom := (List.range 16).map fun b => (b, s.ns), busyUntil := (List.range 16).map fun b => (b, s.ns + n * s.rfcAb) })) ∧
  (∀ (s : State) (pa : Nat), let c := s.cellOf pa; let pc := 64 * c.controller + c.pseudo; let r := s.channel pc
    let busy := Map.getD r.busyUntil c.bank 0
    let start := max s.ns busy
    let arrival := ((r.queued.find? fun q => q.1 == c.bank).map Prod.snd).getD s.ns
    let r1 := { r with rstall := r.rstall + BitVec.ofNat 64 (min start busy - max arrival (Map.getD r.busyFrom c.bank 0)),
                       lastRead := Map.set r.lastRead c.bank (start + s.missTime),
                       column := max r.column (start + s.missTime), queued := r.queued.eraseP fun q => q.1 == c.bank }
    s.isDev pa = true →
    exec (.memoryRead pa 0 true) s = .next (s.setChannel pc { r with queued := r.queued ++ [(c.bank, s.ns)] }) ∧
    exec (.memoryRead pa 0 false) s = .next (s.setChannel pc r1) ∧
    exec (.memoryRead pa 1 false) s = .next (s.setChannel pc { r1 with cecc := r1.cecc + 1 }) ∧
    exec (.memoryRead pa 2 false) s = .next (((s.setChannel pc r1).poisonLine (lineAddr pa)).postRecord 2 0 none (BitVec.ofNat 64 pa)
      ([c.controller, c.pseudo, c.bank, c.row].map (BitVec.ofNat 32)))) ∧
  (∀ (s : State) (port : Nat), port < 2 →
    ((s.port port).linkup = true →
      let t := (((s.setPort port { s.port port with linkup := false, downseen := true, ids := [] }).poisonDirty port).dropShared
        port).loseAll port
      exec (.linkDown port) s = .next (t.postRecord 3 port none 0 [BitVec.ofNat 32 (t.poisonedLines port).length])) ∧
    (∀ ids, exec (.linkTrain port ids) s =
      .next (s.setPort port { s.port port with linkup := true, ids := ids.filter fun x => x.1 / 8 == port })) ∧
    ((s.port port).viral = false → exec (.portViral port) s =
      .next ((s.setPort port { s.port port with viral := true }).postRecord 4 port none 0 [])) ∧
    (∀ base len, s.fitX = false → len ≠ 0 → exec (.expanderLost port base len) s =
      .next ((s.setMem { s.mem with lost := (port, base, len) :: s.mem.lost }).postRecord 5 port none (BitVec.ofNat 64 base)
        (words2 (BitVec.ofNat 64 len)))) ∧
    (∀ c, (s.port port).cmd = some c → exec (.clearviral port) s = .next s ∧ (c ≠ 1 → exec (.salvage port (0, [])) s = .next s) ∧
      (c ≠ 2 → exec (.discard port) s = .next s)) ∧
    ((s.port port).cmd = none → let n := (s.poisonedLines port).length
      let ended (t : State) : State := t.setPort port { t.port port with
        cmd := none, left := [], result := 0, done := BitVec.ofNat 24 n }
      exec (.discard port) s =
        .next (ended ((s.poisonedLines port).foldl (fun t l => (t.discardLine l).clearPoison l) s)) ∧
      ((s.port port).linkup = true →
        exec (.salvage port (0, [])) s = .next (ended ((s.poisonedLines port).foldl (fun t l =>
          ((t.recallLine l).writeLine l).clearPoison l) s)) ∧
        exec (.clearviral port) s = .next ((s.setPort port { s.port port with viral := false }).recovered port 0 0)) ∧
      ((s.port port).linkup = false → exec (.salvage port (0, [])) s = .next (s.recovered port 1 0) ∧
        exec (.clearviral port) s = .next (s.recovered port 1 0)))) ∧
  (∀ (s : State) (a uid i : Nat), exec (.sramSoftError a false uid i) s =
      .next (s.setMem { s.mem with corrected := s.mem.corrected + 1 }) ∧
    (a / 4 * 4 ∉ s.mem.poison → exec (.sramSoftError a true uid i) s =
      .next ((s.setMem { s.mem with poison := a / 4 * 4 :: s.mem.poison }).postRecord 6 0 none 0
        [BitVec.ofNat 32 uid, BitVec.ofNat 32 i])))

/-! ### Events of contexts, debugging, calls, pools and trust (03_threads, 16_attention, 18_system, 19_trust) -/

/-- A context kick begins its action or ends at once with the result of what forbids it, and while one runs another sets ERR; a
core halts at its switch points; a context is saved once its cores have halted, and restored onto free cores once the overlays of
its landed segments can be read, a record telling of one that fails its checks; a fold charges the yard-time counted. -/
def Obligations.PreemptionEvents : Prop :=
  (∀ (s : State) (c : Nat) (clusters : BitVec 14), c < 64 → s.kick.run.isSome = true →
    exec (.kickPreempt c) s = .next ({ s with kick := { s.kick with err := true } }) ∧
    exec (.kickRestore c) s = .next ({ s with kick := { s.kick with err := true } }) ∧
    exec (.kickReplay c clusters) s = .next ({ s with kick := { s.kick with err := true } })) ∧
  (∀ (s : State) (c : Nat), let t := s.kickSet c 1 s.kick.clusters; c < 64 → s.kick.run = none →
    ((s.ctx c).created = false → exec (.kickPreempt c) s = .next (t.kickEnd 1)) ∧
    ((s.ctx c).created = true → (s.ctx c).resident = false → exec (.kickPreempt c) s = .next (t.kickEnd 2)) ∧
    ((s.ctx c).created = true → (s.ctx c).resident = true → (s.ctx c).saving = false → exec (.kickPreempt c) s =
      .next (({ t with kick := { t.kick with run := some (c, 1) } } : State).preempt c))) ∧
  (∀ (s : State) (c : Nat), let t := s.kickSet c 2 s.kick.clusters; c < 64 → s.kick.run = none → (s.ctx c).created = true →
    ((s.ctx c).resident = true → exec (.kickRestore c) s = .next (t.kickEnd 2)) ∧
    ((s.ctx c).resident = false → s.overQuota c = true → exec (.kickRestore c) s = .next (t.kickEnd 3)) ∧
    ((s.ctx c).resident = false → s.overQuota c = false →
      exec (.kickRestore c) s = .next { t with kick := { t.kick with run := some (c, 2) } })) ∧
  (∀ (s : State) (c : Nat), let t := s.kickSet c 3 0; c < 64 → s.kick.run = none → (s.ctx c).created = true →
    (s.ctx c).resident = true → exec (.kickReplay c 0) s = .next ((((s.clustersOf c).filter fun k =>
      (s.clustersOf c).contains k).foldl (fun u cl => u.replayIn cl c) t).kickEnd 0)) ∧
  (∀ (s : State) (c : Nat), (s.ctx c).created = true → (s.ctx c).saving = false →
    exec (.preemptRequest c) s = .next (s.preempt c)) ∧
  (∀ (s : State) (core : Nat), core < Config.cores → (s.core core).preempt = true → (s.core core).halted = false →
    (s.atSwitch core = true → s.longRuns core = false → exec (.coreHalt core) s = .next (((List.range Config.partitions).foldl (fun t q =>
      t.endStream (partKey core q)) s).modCore core fun c => { c with halted := true })) ∧
    (s.atSwitch core = false ∨ s.longRuns core = true → exec (.coreHalt core) s = .next s)) ∧
  (∀ (s : State) (c : Nat), let x := s.ctx c; x.resident = true → x.saving = true →
    ((∀ i ∈ x.cores, (s.core i).halted = true) → s.holdingCopies x.cores = [] → s.pullsWrite c = false →
      exec (.contextSave c) s = .next (s.saveContext c)) ∧
    ((∃ i ∈ x.cores, (s.core i).halted = false) → exec (.contextSave c) s = .next s)) ∧
  (∀ (s : State) (c : Nat) (onto : List Nat), let m := restoreOnto c (s.ctx c).cores onto
    (s.ctx c).created = true → (s.ctx c).resident = false → s.overQuota c = false → s.kick.run ≠ some (c, 2) →
    (s.fits c m onto = true → let t := s.renumber m
      (∀ u lands, t.overlays c (t.landed onto) = (u, some lands) → exec (.contextRestore c onto true) s =
        .next (({ s with mem := u.mem, out := u.out } : State).restoreContext c m onto lands)) ∧
      (∀ u, t.overlays c (t.landed onto) = (u, none) →
        exec (.contextRestore c onto true) s = .next { s with mem := u.mem, out := u.out })) ∧
    exec (.contextRestore c onto false) s = .next (({ s with fresh := s.fresh + 2 } : State).postRecord 6 0 (some c) 0
      [Config.freeWord s.fresh, Config.freeWord (s.fresh + 1)])) ∧
  (∀ (s : State), (s.now < s.trust.lastFold + 1024 → exec .quotaFold s = .next s) ∧
    (s.trust.lastFold + 1024 ≤ s.now → exec .quotaFold s = .next (s.trust.unfolded.foldl (fun t p => t.charge p.1 0 p.2)
      (s.setTrust { s.trust with lastFold := s.now, unfolded := [] }))))

/-- The debug block stops its target and what its stop is widened to, resumes or steps a stopped one, and sets ERR where the
target is not there; STOPW 3 is refused. A system call that is due resolves: ECHO leaves its block, TIME writes the ticks,
HOSTMSG posts a record, and any other number fails with status 9. -/
def Obligations.DebugAndCallEvents : Prop :=
  (∀ (s : State) (c : Nat), s.debugTarget c = none → exec (.debugStop c) s = .next (s.debugErr c) ∧
    exec (.debugResume c) s = .next (s.debugErr c) ∧ exec (.debugStep c) s = .next (s.debugErr c)) ∧
  (∀ (s : State) (c k : Nat), s.debugTarget c = some k →
    ((s.thread k).st = .streaming → exec (.debugStop c) s = .next (s.bumpSerial.stopSoon k s.serialNo true)) ∧
    ((s.thread k).st = .eligible →
      exec (.debugStop c) s = .next ((s.bumpSerial.stopSoon k s.serialNo true).widen [k] s.serialNo)) ∧
    ((s.thread k).st = .stopped → exec (.debugResume c) s = .next (s.resumeGroup k) ∧
      exec (.debugStep c) s =
        .next ((s.modThread k fun t => { t with trec := { t.trec with sstep := true } }).resumeGroup k)) ∧
    ((s.thread k).st ≠ .stopped → exec (.debugResume c) s = .next (s.debugErr c) ∧
      exec (.debugStep c) s = .next (s.debugErr c))) ∧
  (∀ (s : State) (c : Nat) (v : DWord),
    (v.extractLsb' 1 2 = 3 → exec (.stopwWrite c v) s = .next (s.modCtx c fun x =>
      { x with dbg := { x.dbg with err := true, attach := v.getLsbD 0 } })) ∧
    (v.extractLsb' 1 2 ≠ 3 → exec (.stopwWrite c v) s = .next (s.modCtx c fun x =>
      { x with dbg := { x.dbg with stopw := v.extractLsb' 1 2, attach := v.getLsbD 0 } }))) ∧
  (∀ (s t u : State) (core n : Nat) (c : Call) (bs : List Byte), s.callDue core n = some c →
    s.engineRead (clusterOf core) c.ctx c.args 64 = (t, .ok bs) →
    (c.call = 0 → exec (.syscallEcho core n) s = .next (t.callEnd core c 0 0)) ∧
    (c.call = 1 → t.engineWrite (clusterOf core) c.ctx t.manager c.args ((words2 t.ticks).flatMap bytesOf) = (u, .ok []) →
      exec (.syscallTime core n) s = .next (u.callEnd core c 0 0)) ∧
    (c.call = 2 → t.engineWrite (clusterOf core) c.ctx t.manager c.args (bytesOf (BitVec.ofNat 32 (b2n t.queueFull))) = (u, .ok []) →
      exec (.syscallHostmsg core n) s =
        .next ((u.postRecord 11 0 (some c.ctx) 0 ((toWords bs).take 10)).callEnd core c 0 0))) ∧
  (∀ (s : State) (core n : Nat) (c : Call), s.callDue core n = some c → 3 ≤ c.call.toNat →
    exec (.syscallUnknown core n) s = .next (s.callEnd core c 1 9))

/-- A store to a pool slot or a work queue attaches it from its header or its LOGD, detaches and closes it, and a store of
another context than the attached one's changes nothing; compaction examines one descriptor a step and starts the move that
it allows, which publishes the copied page, or settles at the old one where a line cannot be copied; an assigned pull writes
its item and resolves. -/
def Obligations.PoolAndWorkQueueEvents : Prop :=
  (∀ (s : State) (n c : Nat), let p := s.pool n; n < 16 →
    (p.att = true → p.ctx.toNat ≠ c → ∀ v, exec (.poolAttach n c v) s = .next s ∧ exec (.poolDetach n c) s = .next s) ∧
    (p.att = false → ∀ (v : DWord) (t : State) (ws : List Word), v.getLsbD 0 = true → s.managerReady c p.hdr = (t, true) →
      t.pool n = p → t.managerWords c p.hdr 16 = some ws →
      let p1 := { p with err := p.err && !v.getLsbD 30, cmpt := v.getLsbD 2 }
      (poolHeader ws = none → exec (.poolAttach n c v) s = .next ((t.setPool n p1).setPool n { p1 with err := true })) ∧
      (∀ h, poolHeader ws = some h → exec (.poolAttach n c v) s = .next ((t.setPool n p1).setPool n { h with
        hdr := p.hdr, att := true, err := p.err && !v.getLsbD 30, ctx := BitVec.ofNat 6 c, cmpt := v.getLsbD 2, moves := p.moves,
        allocfail := p.allocfail }))) ∧
    (p.att = true → p.ctx.toNat = c →
      exec (.poolDetach n c) s = .next ((s.setPool n p).poolDetach n))) ∧
  (∀ (s : State) (q c : Nat), let w := s.wq q; q < 16 →
    (w.att = true → w.ctx.toNat ≠ c → exec (.wqDetach q c) s = .next s ∧ exec (.wqClose q c) s = .next s) ∧
    (w.att = true → w.ctx.toNat = c →
      exec (.wqClose q c) s = .next (s.setWq q { w with closed := true }) ∧
      (w.count = 0 → w.waiters = 0 → exec (.wqDetach q c) s = .next (s.setWq q { w with att := false, closed := false })) ∧
      (w.count ≠ 0 ∨ w.waiters ≠ 0 → exec (.wqDetach q c) s = .next (s.setWq q { w with err := true }))) ∧
    (w.att = false → ∀ v : DWord, v.getLsbD 0 = true → v.getLsbD 30 = false → 1 ≤ (v.extractLsb' 8 5).toNat →
      (v.extractLsb' 8 5).toNat ≤ 16 → exec (.wqAttach q c v) s = .next (s.setWq q { w with
        logd := v.extractLsb' 8 5, att := true, ctx := BitVec.ofNat 6 c, closed := false, count := 0, head := 0,
        pulls := w.pulls.filter fun x => x.item.isSome }))) ∧
  (∀ (s t : State) (cls n : Nat), let p := s.pool n; let lbn := p.scan % p.nblk; let c := p.ctx.toNat
    let next (u : State) : State :=
      let v := u.setPool n { u.pool n with scan := (lbn + 1) % p.nblk }
      v.setEng { v.eng with robin := Map.set v.eng.robin cls ((n + 1) % 16) }
    cls ≤ 3 → Map.find? s.eng.moves cls = none → s.nextPool (Map.getD s.eng.robin cls 0) = some n →
    s.managerReady c (p.descAddr lbn) = (t, true) →
    (t.moveFor n cls lbn = none → exec (.compactionStep cls) s = .next (next t)) ∧
    (∀ d x u, t.moveFor n cls lbn = some (d, x) → t.linesReady c [(p.descAddr lbn, true), ((p.bitOf x).1, true)] = (u, true) →
      let v := next u
      let q := v.pool n
      let m : Move := { pool := n, lbn := lbn, cls := cls, old := descPage d, dst := q.pageAddr x }
      (∀ w, ((v.managerDesc q lbn (d ||| 0x100)).bind fun y => y.managerMark q x true) = some w →
        exec (.compactionStep cls) s = .next (w.setEng { w.eng with moves := Map.set w.eng.moves cls m })) ∧
      (v.managerDesc q lbn (d ||| 0x100) = none → exec (.compactionStep cls) s = .next (v.endCompaction n)))) ∧
  (∀ (s t : State) (cls : Nat) (m : Move), let p := t.pool m.pool; let c := p.ctx.toNat
    Map.find? s.eng.moves cls = some m → s.moveReady m = (t, true) →
    (∀ u v, t.moveLines c m.old m.dst 0 (64 * (m.cls + 1)) = some u → u.settleDesc p m m.dst = some v →
      let w := v.freePage p m.pool (p.pageAt m.cls m.old)
      exec (.movePublish cls) s = .next ((w.setPool m.pool { w.pool m.pool with moves := p.moves + 1 }).moveOver m)) ∧
    (t.moveLines c m.old m.dst 0 (64 * (m.cls + 1)) = none → ∀ v, t.settleDesc p m m.old = some v →
      exec (.movePublish cls) s =
        .next (((v.freePage p m.pool (p.pageAt m.cls m.dst)).endCompaction m.pool).moveOver m))) ∧
  (∀ (s : State) (q : Nat) (p : Pull) (ws : List Word), let t := s.wqAssign q
    ((t.wq q).pulls.find? fun x => x.item.isSome && x.parked.isNone) = some p → p.item = some ws →
    ∀ u, t.engineWrite (clusterOf p.core) p.ctx { rank := p.core + 1, since := t.mem.written } p.dst (ws.flatMap bytesOf) = (u, .ok []) →
      exec (.wqpullComplete q) s = .next (u.pullEnd q p 0 0))

/-- CREATE makes a free world LIVE with fresh keys and no quota in the way, DESTROY frees one that no context has, ASSIGN and
RECLAIM give and take a page, QUOTA sets a LIMIT, ROTATE starts a sweep, which passes lines in order and
installs the new keys past the last; each refusal has its code. A command's registers are those of its GO. -/
def Obligations.TrustWorldCommands : Prop :=
  (∀ (s : State) (w : Nat), let t := s.trustBegin w 1; s.trust.cmd.run = none → w < 64 →
    (s.trust.ident.present = false → exec (.create w) s = .next (t.trustEnd 9)) ∧
    (s.trust.ident.present = true →
      (w < 2 → exec (.create w) s = .next (t.trustEnd 1)) ∧
      (2 ≤ w → (s.world w).st ≠ .free → exec (.create w) s = .next (t.trustEnd 2)) ∧
      (2 ≤ w → (s.world w).st = .free → exec (.create w) s = .next ((t.drawKeys.1.setWorld w { World.init with
        st := .live, keys := some {
          xts1 := (Config.freeKey s.fresh).setWidth 256, xts2 := (Config.freeKey (s.fresh + 1)).setWidth 256,
          mac := (Config.freeKey (s.fresh + 2)).setWidth 256 },
        authority := BitVec.ofNat 768 (natOf (s.hostBytes s.trust.cmd.arg0 96)),
        limit := List.replicate 4 (BitVec.allOnes 64) }).trustEnd 0)))) ∧
  (∀ (s u : State) (w : Nat), let t := s.trustBegin w 2; s.trust.cmd.run = none → w < 64 →
    (w < 2 → exec (.destroy w) s = .next (t.trustEnd 1)) ∧
    (2 ≤ w → (s.world w).st = .free → exec (.destroy w) s = .next (t.trustEnd 2)) ∧
    (2 ≤ w → (s.world w).st ≠ .free → s.contextsOf w ≠ [] → exec (.destroy w) s = .next (t.trustEnd 3)) ∧
    (let v := t.setWorld w { s.world w with st := .closing };
      2 ≤ w → (s.world w).st ≠ .free → s.contextsOf w = [] → v.releasePages (v.pagesOfWorld w) = (u, true) →
      exec (.destroy w) s = .next (((((u.modWorld w fun x => { x with keys := none, nextKeys := none, sp := none }).usageRecord w 0 9
        ).modWorld w fun x => { x with st := .free, images := [], allowed := [] })).trustEnd 0))) ∧
  (∀ (s u : State) (w : Nat), let t := s.trustBegin w 3; let pp := s.trust.cmd.arg0.toNat / 4096
    s.trust.cmd.run = none → w < 64 →
    (s.trust.cmd.arg0.toNat % 4096 ≠ 0 → exec (.assign w) s = .next (t.trustEnd 1)) ∧
    (s.trust.cmd.arg0.toNat % 4096 = 0 → (s.world w).st ≠ .live → exec (.assign w) s = .next (t.trustEnd 2)) ∧
    (s.trust.cmd.arg0.toNat % 4096 = 0 → (s.world w).st = .live → s.trust.cmd.arg1 = 1 →
      (t.potAt pp).sys = false → (t.potAt pp).world = 0 → t.isDev (pp * 4096) = true →
      ((s.world w).used.getD 3 0).toNat + 1 ≤ ((s.world w).limit.getD 3 0).toNat → t.pagesReady [pp] = (u, true) →
      exec (.assign w) s = .next (((u.givePage w pp).setOut 1).trustEnd 0))) ∧
  (∀ (s u : State) (w : Nat), let t := s.trustBegin w 12; let pp := s.trust.cmd.arg0.toNat / 4096
    s.trust.cmd.run = none → w < 64 → s.trust.cmd.arg0.toNat % 4096 = 0 → s.trust.cmd.arg1 = 1 →
    (t.potAt pp).sys = false → t.isDev (pp * 4096) = true → t.pagesReady [pp] = (u, true) →
    exec (.reclaim w) s = .next (((u.releasePage pp).setOut 1).trustEnd 0)) ∧
  (∀ (s : State) (w : Nat), let t := s.trustBegin w 4; let k := s.trust.cmd.arg0.toNat; s.trust.cmd.run = none → w < 64 →
    (4 ≤ k → exec (.quota w) s = .next (t.trustEnd 1)) ∧
    (k < 4 → (s.world w).st = .live → exec (.quota w) s = .next ((((t.usageRecord w 0 6).metered w fun x =>
      { x with limit := x.limit.set k s.trust.cmd.arg1 }).setOut ((s.world w).used.getD k 0)).trustEnd 0))) ∧
  (∀ (s : State) (w : Nat), let t := s.trustBegin w 5; s.trust.cmd.run = none → w < 64 → w ≠ 0 → (s.world w).st = .live →
    ((s.world w).sp.isSome = true ∨ 4 ≤ s.sweeps → exec (.rotate w) s = .next (t.trustEnd 6)) ∧
    ((s.world w).sp = none → s.sweeps < 4 → exec (.rotate w) s = .next ((t.startSweep w).trustEnd 0))) ∧
  (∀ (s : State) (w lo n : Nat), let x := s.world w; x.sp = some lo →
    (0 < n → lo + 64 * n < s.devBytes → exec (.keySweepComplete (w, n)) s =
      .next ((s.sweepLines w lo (lo + 64 * n)).setWorld w { x with sp := some (lo + 64 * n) })) ∧
    (n = 0 ∨ s.devBytes ≤ lo + 64 * n → exec (.keySweepComplete (w, n)) s =
      .next (((s.sweepLines w lo s.devBytes).setWorld w { x with
        keys := x.nextKeys, nextKeys := none, kgen := x.kgen + 1, sp := none }).usageRecord w 0 8)))

/-- REGISTER takes an image whose signature the world's authority made, and extends MR6; CERT writes a slot that is not locked;
CHECKPOINT, LOG and NDALLOW act for a LIVE world; NDOPEN opens a session that the expander accepted, and ends with code 8
where it refuses; an unknown command and a missing identity have their codes. A tag block that is given GO is busy until its
session's key has made its tag. -/
def Obligations.TrustRecordCommands : Prop :=
  (∀ (s : State) (w : Nat),
    let t := s.trustBegin w 6; let x := s.world w; let n := s.trust.cmd.arg1.toNat
    let code := s.hostBytes s.trust.cmd.arg0 n; let digest := sha384Bytes code
    let known := Config.cryptoOk 1 [x.authority.toNat, digest.toNat, natOf (s.hostBytes s.trust.cmd.arg2 96)]
    s.trust.cmd.run = none → w < 64 → s.trust.ident.present = true → 1 ≤ n → n ≤ 2 ^ 20 → x.st = .live →
    (known = false → exec (.register w) s = .next (t.trustEnd 7)) ∧
    (known = true →
      let image : Image := { num := x.freeImage, digest := digest, bytes := code, order := s.trust.registered }
      let u := t.setWorld w { x with images := x.images ++ [image] }
      exec (.register w) s = .next ((((u.setTrust { u.trust with registered := s.trust.registered + 1 }).extendMr 6
        (imageInput digest w)).setOut (BitVec.ofNat 64 x.freeImage)).trustEnd 0))) ∧
  (∀ (s : State) (w : Nat),
    let t := s.trustBegin w 7; let slot := s.trust.cmd.arg0.toNat; let n := s.trust.cmd.arg2.toNat
    s.trust.cmd.run = none → w < 64 → 1 ≤ slot → slot < 8 → 1 ≤ n → n ≤ 2 ^ 16 →
    (s.slotLocked slot = true → exec (.cert w) s = .next t) ∧
    (s.slotLocked slot = false → exec (.cert w) s = .next ((t.setTrust { t.trust with ident := { t.trust.ident with
      chains := Map.set t.trust.ident.chains slot (n, sha384Bytes (s.hostBytes s.trust.cmd.arg1 n)) } }).trustEnd 0))) ∧
  (∀ (s : State) (w : Nat), s.trust.cmd.run = none → w < 64 → (s.world w).st = .live →
    (s.trust.ident.present = true →
      exec (.checkpoint w) s = .next (((s.trustBegin w 8).checkpointNow w).trustEnd 0) ∧
      (s.fitX = true → exec (.ndallow w) s = .next (((s.trustBegin w 10).modWorld w fun x =>
        { x with allowed := BitVec.ofNat 384 (natOf (s.hostBytes s.trust.cmd.arg0 48)) :: x.allowed }).trustEnd 0)) ∧
      (s.fitX = false → exec (.ndallow w) s = .next ((s.trustBegin w 10).trustEnd 1))) ∧
    (s.trust.ident.present = false → exec (.checkpoint w) s = .next ((s.trustBegin w 8).trustEnd 9)) ∧
    (let d := bitsOf s.trust.cmd.arg1.toNat 4 0;
      (d < 4 ∨ 20 < d → exec (.log w) s = .next ((s.trustBegin w 9).trustEnd 1)) ∧
      (4 ≤ d → d ≤ 20 → exec (.log w) s = .next (((s.trustBegin w 9).modWorld w fun x =>
        { x with logRing := some (s.trust.cmd.arg0, d, s.trust.cmd.arg2) }).trustEnd 0)))) ∧
  (∀ (s : State) (w n : Nat), let t := s.trustBegin w 11
    s.trust.cmd.run = none → w < 64 → n < 65536 → s.trust.ident.present = true → s.fitX = false →
    s.trust.cmd.arg0.toNat < 2 → s.trust.cmd.arg1.toNat < 64 → (s.world w).st = .live →
    let expected := BitVec.ofNat 384 (natOf (s.hostBytes s.trust.cmd.arg2 48))
    (∀ peer, peer ≠ expected → exec (.ndopen w n true peer) s = .next (t.trustEnd 8)) ∧
    exec (.ndopen w n false expected) s = .next (t.trustEnd 8) ∧
    (let x : Session := { num := n, world := w, key := sessionKey (Config.freeKey s.fresh) s.trust.cmd.arg1.toNat n,
                          next := 1, last := 0 };
      exec (.ndopen w n true expected) s = .next (((({ t with fresh := s.fresh + 1 } : State).setTrust { t.trust with
        nd := x :: t.trust.nd.filter fun y => y.num != n }).setOut (BitVec.ofNat 64 n)).trustEnd 0))) ∧
  (∀ (s : State) (code : Nat), s.trust.cmd.run = none → code = 0 ∨ 13 ≤ code ∧ code ≤ 255 →
    exec (.trustUnknownCommand code) s = .next ((s.trustBegin s.trust.cmd.world.toNat code).trustEnd 1)) ∧
  (∀ (s : State) (w : Nat), (s.world w).lastPeriodic + 1000000 ≤ s.ticks.toNat →
    (∃ c ∈ s.contextsOf w, (s.ctx c).resident = true) →
    exec (.usagePeriodic w) s = .next ((s.usageRecord w 0 7).modWorld w fun x => { x with lastPeriodic := s.ticks.toNat })) ∧
  (∀ (s : State) (c : Nat) (v : Word), v.getLsbD 31 = true → (s.ctx c).tag.busy = false →
    exec (.nearDataTagGo c v) s = .next (s.setCtx c { s.ctx c with
      tag := { (s.ctx c).tag with session := v.extractLsb' 0 16, under := v.extractLsb' 0 16, busy := true, done := false } })) ∧
  (∀ (s : State) (c : Nat), let b := (s.ctx c).tag; b.busy = true →
    (s.tagSession c = none →
      exec (.nearDataTagDone c) s = .next (s.setCtx c { s.ctx c with tag := { b with busy := false, err := 12 } })) ∧
    (∀ y, s.tagSession c = some y →
      let t := s.setCtx c { s.ctx c with tag := { b with
        busy := false, done := true, err := 0, pctr := y.next, tag := ndTag y.key ((b.body.drop 1).take 9 ++ words2 y.next) } }
      exec (.nearDataTagDone c) s = .next (t.setTrust { t.trust with
        nd := t.trust.nd.map fun z => if z.num = y.num then { z with next := z.next + 1 } else z })))

/-- GET_VERSION resets a connection and answers with version 1.2; the negotiation goes from VERSIONED to CAPS to READY in order,
and its transcript takes each exchange in; a request out of order gets ERROR UnexpectedRequest and returns the connection to
NONE. In READY each request is answered from the identity, the chains and the measurements, and signed over its own
transcript; a CHALLENGE locks its slot until its answer leaves; a session's handshake is pending from KEY_EXCHANGE to FINISH.
The numbers in the bodies are those of log 109. An accepted extent's pages are
given to its world before the response, one that is not accepted is left out, and a released extent's pages are free. -/
def Obligations.ResponderAndDynamicCapacity : Prop :=
  ((∀ (s : State) (tr : Nat), let c := s.conn tr; tr < 2 → c.chal = none →
     let after (st : SpdmState) (request code : Nat) (body : List (BitVec 384)) : Conn :=
       let h := absorb c.vca request [] code 0 body
       { c with st := st, lock := none, vca := h, m := h, th := h }
     exec (.getVersion tr) s = .next ((s.endSessions c.sessions).answer tr
       { Conn.init with st := .versioned, vca := absorb 0 0x84 [] 0x04 0 [0x1200] } 0x04 0 [0x1200]) ∧
     (c.st = .versioned → exec (.getCapabilities tr true) s =
       .next (s.answer tr (after .caps 0xE1 0x61 [spdmFlags]) 0x61 0 [spdmFlags])) ∧
     (c.st = .caps → exec (.negotiateAlgorithms tr true) s =
       .next (s.answer tr (after .ready 0xE3 0x63 spdmAlgorithms) 0x63 0 spdmAlgorithms)) ∧
     (c.st ≠ .versioned → exec (.getCapabilities tr true) s = .next (s.unexpected tr)) ∧
     (c.st ≠ .caps → exec (.negotiateAlgorithms tr true) s = .next (s.unexpected tr)) ∧
     (s.trust.ident.present = true → exec (.spdmUnexpectedRequest tr) s = .next (s.unexpected tr)) ∧
     (s.trust.ident.present = false → exec (.getDigests tr true) s = .next (s.spdmError tr { c with lock := none } 5))) ∧
   (∀ (s : State) (tr : Nat), let c := { s.conn tr with pending := none, lock := none }
     tr < 2 → (s.conn tr).chal = none → s.trust.ident.present = true → (s.conn tr).st = .ready →
     (let body := s.trust.ident.chains.map fun p => p.2.2
      exec (.getDigests tr true) s =
        .next (s.answer tr { c with m := absorb c.m 0x81 [] 0x01 s.slotMask body } 0x01 s.slotMask body)) ∧
     exec (.getDigests tr false) s = .next (s.spdmError tr { s.conn tr with lock := none } 1) ∧
     (∀ slot nonce x, Map.find? s.trust.ident.chains slot = some x →
       exec (.challenge tr true slot nonce) s =
         .next (s.setConn tr { c with lock := some slot, chal := some (slot, nonce) }).certGoes) ∧
     (∀ i, 1 ≤ i → i ≤ 8 → let l := [s.trust.ident.mr.getD (i - 1) 0]
       exec (.getMeasurements tr true i) s = .next (s.answer tr { c with m := c.vca } 0x60 i
         (l ++ s.spdmSign [(absorb c.vca 0xE0 [i] 0x60 i l).toNat]))) ∧
     (∀ slot n d len, Map.find? s.trust.ident.chains slot = some (n, d) → len < n →
       let body := [Config.crypto 6 [d.toNat, 0, len], BitVec.ofNat 384 len, BitVec.ofNat 384 (n - len)]
       exec (.getCertificate tr true slot 0 len) s = .next (s.answer tr
         { c with lock := some slot, m := absorb c.m 0x82 [0, len] 0x02 slot body } 0x02 slot body)) ∧
     (∀ session peer, let t := s.setConn tr c
       (16 ≤ t.openCount → exec (.keyExchange tr true session none peer) s = .next (t.spdmError tr c 0x0A)) ∧
       (t.openCount < 16 →
         let n := t.freeSession
         let th := absorb c.vca 0xE4 [session, peer.toNat] 0x64 session [BitVec.ofNat 384 n]
         exec (.keyExchange tr true session none peer) s = .next (t.answer tr
           { c with pending := some (n, none), m := c.vca, th := th } 0x64 session
           (BitVec.ofNat 384 n :: t.spdmSign [th.toNat]))))) ∧
   (∀ (s : State) (tr slot n : Nat) (nonce : BitVec 256) (d : BitVec 384) (ok : Bool), let c := s.conn tr
     c.chal = some (slot, nonce) → Map.find? s.trust.ident.chains slot = some (n, d) →
     let head := [d, Config.freeKey s.fresh, sha384 (s.trust.ident.mr.flatMap words384)]
     ∀ slot' nonce', exec (.challenge tr ok slot' nonce') s = .next (({ s with fresh := s.fresh + 1 } : State).answer tr
       { c with chal := none, lock := none, m := c.vca } 0x03 slot
       (head ++ s.spdmSign [(absorb c.m 0x83 [slot, nonce.toNat] 0x03 slot head).toNat]))) ∧
   (∀ (s : State) (tr n : Nat), let c := { s.conn tr with lock := none }
     tr < 2 → c.chal = none → s.trust.ident.present = true → (s.conn tr).st = .ready →
     (c.pending = none → exec (.finish tr true true) s = .next (s.unexpected tr)) ∧
     (c.pending = some (n, none) →
       exec (.finish tr true true) s = .next (s.answer tr { c with
         pending := none, sessions := c.sessions ++ [n], th := absorb c.th 0xE5 [] 0x65 0 [] } 0x65 0 []) ∧
       exec (.finish tr true false) s = .next (s.spdmError tr { c with pending := none } 6)))) ∧
  ((∀ (s t : State) (base pages : Nat) (tag : BitVec 128), tag.toNat < 64 →
     (s.extentOk tag.toNat base pages = false → exec (.dcExtentOffer base pages tag) s = .next (s.send (.report 6 []))) ∧
     (s.extentOk tag.toNat base pages = true → s.pagesReady ((List.range pages).map (base / 4096 + ·)) = (t, true) →
       let u := ((List.range pages).map (base / 4096 + ·)).foldl (fun v pp => v.givePage tag.toNat pp) t
       exec (.dcExtentOffer base pages tag) s = .next ((u.setTrust { u.trust with
         extents := (base, pages, tag.toNat) :: u.trust.extents }).send (.report 6 [base, pages])))) ∧
   (∀ (s : State) (base pages : Nat) (tag : BitVec 128), 64 ≤ tag.toNat →
     exec (.dcExtentOffer base pages tag) s = .next (s.send (.report 6 []))) ∧
   (∀ (s t : State) (base pages w : Nat), (base, pages, w) ∈ s.trust.extents →
     s.releasePages ((List.range pages).map (base / 4096 + ·)) = (t, true) →
     exec (.dcExtentRelease base pages) s = .next ((t.setTrust { t.trust with
       extents := t.trust.extents.filter fun x => !(x.1 == base && x.2.1 == pages) }).send (.report 7 [base, pages]))))

/-! ### Power and starts (20_boundary) -/

/-- Each cluster runs at the point asked of it; excess moves every cluster one point slower, a millisecond apart, and sets CAP until its cause has
been absent for 10 ms; a tolerance below a state's exit latency starts an exit; an idle cluster enters PS1, and the device
PS2 and PS3 once all have been quiet for their times, as LTOL allows; an exit to PS0 ends there. I3C enumeration and a write
of an HDM decoder set their registers. -/
def Obligations.PowerEvents : Prop :=
  (∀ (s : State) (cl : Nat), cl < Config.clusters →
    (s.pointStable cl = true → exec (.opChangeComplete cl) s = .next s) ∧
    (s.pointStable cl = false → exec (.opChangeComplete cl) s =
      .next (s.setPower { s.power with points := Map.set s.power.points cl (s.pointAsked cl) }))) ∧
  (∀ s : State, (s.excess = false → exec .powerCapStep s = .next s) ∧
    (∀ t, s.power.lastStep = some t → s.ticks.toNat < t + 100000 → exec .powerCapStep s = .next s) ∧
    (s.excess = true → (∀ t, s.power.lastStep = some t → t + 100000 ≤ s.ticks.toNat) →
      exec .powerCapStep s = .next (s.setPower { s.power with
      cap := true, coolSince := none, lastStep := some s.ticks.toNat,
      capped := (List.range Config.clusters).map fun cl => (cl, min 3 (max (s.point cl) (Map.getD s.power.capped cl 0) + 1)) })) ∧
    (∀ t, s.power.coolSince = some t → s.power.cap = true → s.excess = false →
      (t + 1000000 ≤ s.ticks.toNat →
        exec .capClear s = .next (s.setPower { s.power with cap := false, capped := [], coolSince := none })) ∧
      (s.ticks.toNat < t + 1000000 → exec .capClear s = .next s))) ∧
  (∀ (s : State) (temp power : BitVec 16), let t := { s with status := { s.status with temp := temp, power := power } }
    exec (.sensorReading temp power) s = .next (t.setPower { s.power with
      coolSince := if t.excess = true then none else some (s.power.coolSince.getD s.ticks.toNat) })) ∧
  (∀ (s : State) (v : Word), let p := s.power
    (p.exiting.isSome = true → exec (.ltolWrite v) s = .next (s.setPower { p with ltol := v })) ∧
    (p.exiting = none → v.toNat < exitLatency p.pstate.toNat → exec (.ltolWrite v) s =
      .next (s.setPower { p with ltol := v, exiting := some (allowed v.toNat p.pstate.toNat) })) ∧
    (p.exiting = none → exitLatency p.pstate.toNat ≤ v.toNat → 2000 ≤ v.toNat →
      exec (.ltolWrite v) s = .next (s.setPower { p with ltol := v })) ∧
    (p.exiting = none → exitLatency p.pstate.toNat ≤ v.toNat → v.toNat < 2000 →
      exec (.ltolWrite v) s = .next (s.setPower { p with ltol := v, gated := 0 }))) ∧
  (∀ (s : State) (cl : Nat), let t := (List.range 4).foldl (fun u i => u.flushCore (4 * cl + i)) s
    cl < Config.clusters → s.power.gated.toNat.testBit cl = false → s.clusterIdle cl = true → 2000 ≤ s.power.ltol.toNat →
    s.power.exiting = none → exec (.clusterGate cl) s = .next (t.setPower { t.power with
      gated := t.power.gated ||| BitVec.ofNat 14 (2 ^ cl), gatedSince := t.ticks.toNat })) ∧
  (∀ s : State, let p := s.power; p.exiting = none →
    (p.pstate = 0 → p.gated = BitVec.allOnes 14 → s.quietDevice = true → p.gatedSince + 5000 ≤ s.ticks.toNat →
      20000 ≤ p.ltol.toNat → exec .ps2Entry s = .next (s.setPower { p with pstate := 2 })) ∧
    (p.pstate = 2 → p.quietSince + 10000 ≤ s.ticks.toNat → 150000 ≤ p.ltol.toNat →
      exec .ps3Entry s = .next (s.setPower { p with pstate := 3 })) ∧
    (p.pstate ≠ 0 → exec .powerWake s = .next (s.setPower { p with exiting := some 0 }))) ∧
  (∀ s : State, s.power.exiting = some 0 → exec .powerExitDone s =
    .next (s.endSelfRefresh.setPower { s.power with exiting := none, pstate := 0, gated := 0, gatedSince := s.ticks.toNat })) ∧
  (∀ (s : State) (a : BitVec 7), exec (.i3cEntdaa a) s = .next { s with status := { s.status with i3c := some a } }) ∧
  (∀ (s : State) (port base size ways gran : Nat), port < 2 →
    (ways ∈ [1, 2, 4, 8] → gran ∈ [256, 512, 1024, 2048, 4096, 8192, 16384] → exec (.hdmDecoderWrite port base size ways gran) s =
      .next (s.setPort port { s.port port with hdm := some (base, size, ways, gran) })) ∧
    (ways ∉ [1, 2, 4, 8] → exec (.hdmDecoderWrite port base size ways gran) s = .next s))

/-- A cold start takes a machine without power through its fourteen steps to READY: with its identity where one of three PUF
responses decodes and its public key is that of the slot 0 leaf, else without, or it stops at its fifth step where that one
fails. A warm start publishes the moves in progress and writes back what the caches hold first; the loss of power leaves no
thread, no byte of memory and the worlds of a reset. A write of the window sets its register. A context is created in a LIVE
world on free cores, whose on-chip storage is then blank (log 144), and its end, once its moves have published, discards
it. -/
def Obligations.StartsAndContexts : Prop :=
  (∀ (s : State) (puf : PufReading) (dbgen : Bool) (pages : List Nat), s.status.pwrgd = false →
    let good : Bool :=
      ((puf.responses.take 3).findSome? fun r => Config.bchDecode r puf.helper).any fun w => publicKey (identityKey w) == leafKey
    (∃ t : State, exec (.coldStart 0 puf dbgen pages) s = .next t ∧ t.status.stage = 14 ∧
      t.status.state = (if good then 1 else 2) ∧ t.status.pwrgd = true ∧ t.trust.ident.present = good ∧
      t.trust.ident.dbgen = dbgen ∧ t.mem.hc = [] ∧ t.mem.bytes = []) ∧
    (∃ t : State, exec (.coldStart 5 puf dbgen pages) s = .next t ∧ t.status.stage = 4 ∧ t.status.state = 3)) ∧
  (∀ (s : State) (failAt : Nat), s.status.pwrgd = true → s.status.state ≠ 0 →
    exec (.warmStart failAt) s = .next (s.publishAll.writeBackAll.warmRegisters.runSteps failAt warmSteps)) ∧
  (∀ s : State, ∃ t : State, exec .pwrgdFall s = .next t ∧ t.status.pwrgd = false ∧ t.fab.threads = [] ∧ t.mem.bytes = [] ∧
    t.trust.worlds = State.reset.trust.worlds) ∧
  (∀ (s : State) (v : DWord), s.power.pstate = 0 →
    exec (.registerWrite 0x18 4 v) s = .next { s with status := { s.status with eqridx := DWord.lo v } } ∧
    exec (.registerWrite 0x20 8 v) s = .next { s with status := { s.status with msiaddr := v } } ∧
    exec (.registerWrite 0x1A 4 v) s = .next s) ∧
  (∀ (s : State) (c : Nat) (r0 r1 : DWord) (cores : List Nat) (grants : BitVec 2), let w := bitsOf r1.toNat 5 0
    let x : Context := { Context.init with
      created := true, resident := true, mode := r0.extractLsb' 60 4, asid := r0.extractLsb' 44 16,
      ppn := r0.extractLsb' 0 44, tmode := r1.extractLsb' 8 2, world := r1.extractLsb' 0 6, cores := cores,
      statGrant := grants.getLsbD 0, sysGrant := grants.getLsbD 1 }
    c < 64 → (s.ctx c).created = false →
    (rootRefused r0 r1 = true → exec (.contextCreated c r0 r1 cores grants) s = .next s) ∧
    (rootRefused r0 r1 = false → (s.world w).st = .live → cores ≠ [] → s.coresFree cores = true →
      exec (.contextCreated c r0 r1 cores grants) s = .next (((cores.foldl (fun t i =>
        (t.clearChip i).setCore i { Core.init with ctx := some c }) (s.setCtx c x)).startPeriod c).usageRecord w c 1))) ∧
  (∀ (s t : State) (c : Nat),
    ((s.ctx c).created = true → s.finishMoves c = (t, true) → exec (.contextEnded c) s = .next (t.endContext c)) ∧
    ((s.ctx c).created = false → exec (.contextEnded c) s = .next s))

/-! ### Encodings (02_encoding) -/

/-- Decoding the words of a well-formed instruction of a version gives it back, whatever follows them: no bit of an encoding is
dropped, and no two instructions share a word. -/
def Obligations.DecodeEncode : Prop :=
  ∀ (v : Nat) (i : Instr) (rest : List Word), i.form.isEvent = false → i.wf v = true → i.form.scope < 3 →
    absentIn v ((encode i).headD 0) = false → decodeWords v (encode i ++ rest) = some i

/-- Words that the encoding chapters and the worked programs write out decode to what they stand for, in every family: NOP,
EXIT, BRA, SEGFETCH, FWAIT, STAGE, SPILLV, IMUL, ADDI, FCVT, SHFL, BALLOT, LD, ST, ATOM, FENCE, CWB, HANDOFF, TLBPROBE,
COPY, TASKSIG, MSETA, MLDB, KVX, KVPIN, SYSC, FENCEC and HALT; an all-zero word is an illegal operand, and reserved
encodings are illegal instructions. -/
def Obligations.DecodedWords : Prop :=
  decodeWords 3 [0x00439CE0] = some (.nop { c := 0, s := 0, d := 16, a := 28, b := 28, g := 7, lit := 0 }) ∧
  decodeWords 3 [0x00439CE2] = some (.exit { c := 0, s := 0, d := 16, a := 28, b := 28, g := 7, lit := 0 }) ∧
  decodeWords 3 [0x00AFFFFD] = some (.bra { c := 0, s := 0, g := 2, n := 1, off := 0x7FFFD }) ∧
  decodeWords 3 [0x22105FE1, 0x20001] = some (.segfetch { c := 0, s := 1, d := 4, a := 2, b := 31, g := 7, lit := 131073 }) ∧
  decodeWords 3 [0x03109CE0] = some (.fwait { c := 0, s := 0, d := 4, a := 4, b := 28, g := 7, lit := 0 }) ∧
  decodeWords 3 [0x04140080, 0, 0x20000] = some (.stage {
      s := 0, nv := 1, nu := 1, vbase0 := 0, vlen0 := 2, rsv0 := 0, vbase1 := 0, vlen1 := 0,
      vbase2 := 0, vlen2 := 0, vbase3 := 0, vlen3 := 0, ubase0 := 0, ulen0 := 1, ubase1 := 0, ulen1 := 0, rsv2 := 0 }) ∧
  decodeWords 3 [0x06045CF8] = some (.spillv { c := 0, s := 0, d := 1, a := 2, x := 28, g := 7, sz := 3, lit := 0 }) ∧
  decodeWords 3 [0x08841FE8, 3] = some (.imul { c := 0, s := 0, d := 1, a := 0, b := 31, g := 7, lit := 3 }) ∧
  decodeWords 3 [0x0A8A0064] = some (.addi { c := 0, s := 0, d := 2, a := 16, imm := 100 }) ∧
  decodeWords 3 [0x0E0870F8] = some (.fcvtBf16F32 { c := 0, s := 0, d := 2, a := 3, b := 16, g := 7, lit := 0 }) ∧
  decodeWords 3 [0x10083FE3, 0x10] = some (.shflFlip { c := 0, s := 0, d := 2, a := 1, b := 31, g := 7, lit := 16 }) ∧
  decodeWords 3 [0x10905CE4] = some (.ballot { c := 0, s := 0, d := 4, a := 2, b := 28, g := 7, lit := 0 }) ∧
  decodeWords 3 [0x120A9FE8, 8] = some (.ld .dflt { c := 0, s := 0, d := 2, a := 20, x := 31, g := 7, sz := 1, lit := 8 }) ∧
  decodeWords 3 [0x120A81E4] = some (.st .dflt { c := 0, s := 0, d := 2, a := 20, x := 1, g := 7, sz := 0, lit := 0 }) ∧
  decodeWords 3 [0x14069FE8, 0x80] = some (.atomOrdered .add { c := 0, s := 0, d := 1, a := 20, x := 31, g := 7, sz := 1, lit := 128 }) ∧
  decodeWords 3 [0x14C39CE2] = some (.fence { c := 0, s := 0, d := 16, a := 28, x := 28, g := 7, sz := 0, lit := 0 }) ∧
  decodeWords 3 [0x15429FE2, 0x40] = some (.cwb { c := 0, s := 0, d := 16, a := 20, x := 31, g := 7, sz := 0, lit := 64 }) ∧
  decodeWords 3 [0x150A9FEB, 0x1000] = some (.handoff { c := 0, s := 0, d := 2, a := 20, x := 31, g := 7, sz := 1, lit := 4096 }) ∧
  decodeWords 3 [0x16105FE1, 1] = some (.tlbprobe { c := 0, s := 0, d := 4, a := 2, b := 31, g := 7, lit := 1 }) ∧
  decodeWords 3 [0x18069FE0, 0x40] = some (.copy { c := 0, s := 0, d := 1, a := 20, x := 31, g := 7, sz := 0, lit := 64 }) ∧
  decodeWords 3 [0x18C05FE2, 1] = some (.tasksig { c := 0, s := 0, d := 16, a := 2, b := 31, g := 7, lit := 1 }) ∧
  decodeWords 3 [0x194298E0] = some (.mseta { c := 0, s := 0, d := 16, a := 20, b := 24, g := 7, lit := 0 }) ∧
  decodeWords 3 [0x1A169FE0, 0x40] = some (.mldb { c := 0, s := 0, d := 5, a := 20, x := 31, g := 7, sz := 0, lit := 64 }) ∧
  decodeWords 3 [0x1A902275, 0x30000000, 0] = some (.kvx { s := 0, d := 4, seq := 1, pos := 2, pm := 3, pin := 1, pool := 5, od := 6, rsv1 := 0, rsv2 := 0 }) ∧
  decodeWords 3 [0x1B0C34E2] = some (.kvpin { c := 0, s := 0, d := 3, a := 1, b := 20, g := 7, lit := 0 }) ∧
  decodeWords 3 [0x1C105FE0, 1] = some (.sysc { c := 0, s := 0, d := 4, a := 2, b := 31, g := 7, lit := 1 }) ∧
  decodeWords 3 [0x3C439CE1] = some (.fencec { c := 0, s := 1, d := 16, a := 28, b := 28, g := 7, lit := 0 }) ∧
  decodeWords 3 [0x1CC3FCE3, 7] = some (.halt { c := 0, s := 0, d := 16, a := 31, b := 28, g := 7, lit := 7 }) ∧
  decodePacket 3 [0, nopWord, nopWord] = .bad 0 0x02 ∧
  decodePacket 3 [0x03800000, nopWord, nopWord] = .bad 0 0x01 ∧
  decodePacket 3 [nopWord, 0x04000000, nopWord] = .bad 1 0x01

/-- Predicate sources accept codes 0 to 7, and 28 where the field is unused; in a version 1 kernel no source field accepts code
30; a packet whose first word breaks this traps with cause 2. -/
def Obligations.SourceCodes : Prop :=
  (∀ (v : Nat) (o : OpA), ¬ (o.a.toNat < 8 ∧ o.b.toNat < 8) →
    (Instr.pand o).wf v = false ∧ (Instr.por o).wf v = false ∧ (Instr.pxor o).wf v = false) ∧
  (∀ (v : Nat) (o : OpA), ¬ (o.a.toNat < 8 ∧ o.b.toNat = 28) →
    (Instr.pnot o).wf v = false ∧ (Instr.voteEvery o).wf v = false ∧ (Instr.voteSome o).wf v = false ∧
    (Instr.voteSame o).wf v = false ∧ (Instr.voteOdd o).wf v = false) ∧
  (∀ (v : Nat) (o : OpA), o.a.toNat < 8 → o.d.toNat < 8 → o.lit = 0 →
    (o.b.toNat < 8 → (Instr.pand o).wf v = true ∧ (Instr.por o).wf v = true ∧ (Instr.pxor o).wf v = true) ∧
    (o.b.toNat = 28 → (Instr.pnot o).wf v = true ∧ (Instr.voteEvery o).wf v = true ∧ (Instr.voteSome o).wf v = true ∧
      (Instr.voteSame o).wf v = true ∧ (Instr.voteOdd o).wf v = true)) ∧
  (∀ (v : Nat) (o : OpA), ¬ o.a.toNat < 8 → (Instr.ballot o).wf v = false) ∧
  (∀ (v : Nat) (o : OpT), ¬ o.e.toNat < 8 → (Instr.sel o).wf v = false) ∧
  (∀ i : Instr, (∃ o maj fn, i.form = .a maj fn o ∧ (o.a = 30 ∨ o.b = 30)) ∨ (∃ o maj, i.form = .t maj o ∧
      (o.a = 30 ∨ o.b = 30 ∨ o.e = 30)) ∨ (∃ o maj fn, i.form = .m maj fn o ∧ (o.a = 30 ∨ o.x = 30)) ∨
      (∃ o maj, i.form = .i maj o ∧ o.a = 30) → i.wf 1 = false) ∧
  (∀ (v : Nat) (i : Instr) (w w1 w2 : Word), decodeInstr v w w1 w2 = some i → i.wf v = false → i.form.chained = false →
    decodePacket v [w, w1, w2] = .bad 0 0x02)

/-! ### The step -/

/-- When the packet at the program counter of the focused group decodes, the step runs the decoded instruction: it is exec of
that instruction in the state made ready for it, with what the step adds around it (the cycle that passes before the first
word of a chain, the move past the word, and what the end of a step settles). An event of the agenda is exec of that event. -/
def Obligations.StepRunsTheWord : Prop :=
  (∀ (s u : State) (core part : Nat) (r : List Turn) (g : Group) (dec : List SlotWord) (x : SlotWord) (rest : List SlotWord),
    s.midChain = false → s.agenda = .issue core part :: r →
    ({ s with agenda := r, focus := (core, part) } : State).passCycle = u → u.AtWord g dec x rest →
    let t := u.readied g dec rest.length
    step s = outcomeMap (fun v => (v.afterWord x dec rest.length g t.here.lanes t.stepping).wrapUp) (exec x.instr t)) ∧
  (∀ (s t : State) (x : SlotWord) (n : Nat) (g : Group), s.midChain = true → s.issue = .word x n t → s.group = some g →
    step s = outcomeMap (fun v => (v.afterWord x (s.groupDecoded g) n g t.here.lanes t.stepping).wrapUp) (exec x.instr t)) ∧
  (∀ (s : State) (i : Instr) (r : List Turn), s.midChain = false → s.agenda = .event i :: r → i.form.isEvent = true →
    step s = outcomeMap State.wrapUp (exec i ({ s with agenda := r } : State).passCycle))

/-- Every instruction has a next state in every state, and a step gives one too: it stops only where the agenda names an
instruction word as an event. -/
def Obligations.EveryInstructionGoesOn : Prop :=
  (∀ (i : Instr) (s : State), ∃ t, exec i s = .next t) ∧
  (∀ s : State, (∃ t, step s = .next t) ∨
    (step s = .fault .notAnEvent ∧ s.midChain = false ∧ ∃ i r, s.agenda = .event i :: r ∧ i.form.isEvent = false))

/-- Every step leaves the machine settled: aged queues as their entries stand, no gated cluster with work, no launch that has
retired and not completed. -/
def Obligations.StepKeepsSettled : Prop := ∀ s t : State, s.Settled → step s = .next t → t.Settled

/-- The machine after reset is settled and its memory is in canonical form, with nothing listed; no thread has been launched, no
context exists, no queue, pool or work queue is attached, and the status block reads STATE 0 and STAGE 0. -/
def Obligations.ResetState : Prop :=
  State.reset.Settled ∧ State.reset.mem.bytes.wf = true ∧ (∀ a, State.reset.mem.bytes.read a = 0) ∧
  (∀ k, (State.reset.thread k).st = .unlaunched ∧ (State.reset.thread k).trec.intrap = false) ∧
  (∀ c, (State.reset.ctx c).created = false) ∧ (∀ n, (State.reset.qslot n).att = false) ∧
  (∀ n, (State.reset.pool n).att = false) ∧ (∀ n, (State.reset.wq n).att = false) ∧
  (∀ core n, (State.reset.seg core n).st = 0) ∧ (∀ p, State.reset.isHc p = false) ∧
  State.reset.windowWord 0x00 = 0 ∧ State.reset.windowWord 0x14 = 0 ∧ State.reset.windowWord 0x18 = 0

/-! ### Exceptions (18_system) -/

/-- Taking an exception outside a handler writes the record, with INTRAP set and SSTEP, STOPPED and NCAUSE as they were, ends
the region and sends the thread to its trap vector, eligible there or unindexed; a second one in the handler stops the
thread, with NCAUSE, and leaves the rest of the record. -/
def Obligations.TrapEntry : Prop :=
  (∀ (s : State) (k w : Nat) (pc : BitVec 16) (i : Trap), (s.thread k).trec.intrap = false → (s.thread k).st = .streaming →
    let t := (s.trap k pc w i).thread k
    t.trec.intrap = true ∧ t.trec.cause = BitVec.ofNat 8 i.cause ∧ t.trec.origin = BitVec.ofNat 12 i.origin ∧
    t.trec.resume = i.resume ∧ t.trec.epc = pc ∧ t.trec.widx = BitVec.ofNat 2 w ∧ t.trec.info0 = i.info0 ∧
    t.trec.info1 = i.info1 ∧ t.trec.info2 = i.info2 ∧ t.trec.lvalid = latchValid (s.thread k).latches ∧
    t.trec.b = savedLatches (s.thread k).latches s.fresh ∧ t.trec.stopped = (s.thread k).trec.stopped ∧
    t.trec.sstep = (s.thread k).trec.sstep ∧ t.trec.ncause = (s.thread k).trec.ncause ∧
    t.pc = (s.yard (yardOf k)).bind.trapvec ∧ t.wpos = 0 ∧ t.region = none ∧
    (t.st = .eligible ∨ t.st = .unindexed ∨ s.heldBySet k = true)) ∧
  (∀ (s : State) (k w : Nat) (pc : BitVec 16) (i : Trap), (s.thread k).trec.intrap = true →
    let t := (s.trap k pc w i).thread k
    t.st = .stopped ∧ t.pc = pc ∧ t.wpos = w ∧
    t.trec = { (s.thread k).trec with ncause := BitVec.ofNat 8 i.cause, stopped := true })

/-- A word that names an unstaged slot or an invalid latch traps with cause 2 in its lane and does nothing there, and a load at
a misaligned address traps with cause 8 and its address. -/
def Obligations.OperandTraps : Prop :=
  (∀ (s : State) (o : OpA) (k : Nat), s.Sole o.g k → (s.thread k).view.tags = [] →
    s.readCodes k o.lit [o.a, o.b] = .bad ∨ (s.thread k).dstOk (.vec 1 o.d) = false →
    exec (.iadd o) s = .next ((s.updLanes s.here.lanes fun j t => if j = k then t else t.idle (.vec 1 o.d) true).raise s.here
      (setKind (s.groupVersion s.here.lanes) o.s)
      [(k, { cause := 2, origin := 0, resume := false, info0 := wordOf (.iadd o), info1 := 0, info2 := 0 })])) ∧
  (∀ (s : State) (h : Hint) (o : OpM) (k : Nat) (ws : List Word), o.sz ≠ 3 → s.Sole o.g k → (s.thread k).view.tags = [] →
    s.Ready o.g (addrCodes o) o.lit (.vec (sizeBytes o.sz / 4) o.d) (fun _ => ws) →
    isGlobal (eaOf ws 1) = true → (eaOf ws 1).toNat % sizeBytes o.sz ≠ 0 →
    exec (.ld h o) s = .next (s.raise s.here (setKind (s.groupVersion s.here.lanes) o.s)
      [(k, { cause := 8, origin := 0, resume := false, info0 := eaOf ws 1, info1 := 0, info2 := 0 })]))

/-- A thread's trap record stands in the device control window of its core: a load reads its words, and a store changes its RW
fields alone, of that thread alone. -/
def Obligations.TrapRecordWindow : Prop :=
  ∀ (s : State) (c cl co slot lane i : Nat), cl < Config.clusters → co < 4 → slot < 128 → lane < 64 → i < 16 →
    let k := threadKey (yardKey (4 * cl + co) slot) lane
    let off := 0x500000 + 4096 * slot + 64 * lane + 4 * i
    let r := (s.thread k).trec
    s.cwRead c cl co off = .inl (r.word i) ∧
    (∀ v : Word, s.cwWrite c cl co off 4 (v.zeroExtend 64) = .inl (s.setThread k { s.thread k with trec := r.setWord i v })) ∧
    (∀ v : Word, (r.setWord i v).intrap = r.intrap ∧ (r.setWord i v).stopped = r.stopped ∧ (r.setWord i v).origin = r.origin ∧
      (r.setWord i v).cause = r.cause ∧ (r.setWord i v).ncause = r.ncause ∧ (r.setWord i v).info0 = r.info0 ∧
      (r.setWord i v).info1 = r.info1 ∧ (r.setWord i v).info2 = r.info2) ∧
    (∀ v : Word, 2 ≤ i → i < 6 → r.b.length = 4 → (r.setWord i v).word i = v)

/-! ### Frames -/

/-- What a word without side effects gives its group changes nothing but the destination, the latches and the flags of the
group's own threads: memory, every other thread and register, and every special register stay as they were. -/
def Obligations.ResultFrame : Prop :=
  (∀ (s : State) (g : BitVec 3) (dst : Dst) (shift : Bool) (res : Nat → List Word) (fl : Nat → BitVec 5),
    let t := s.gives g dst shift res fl
    t.mem = s.mem ∧ t.ctxs = s.ctxs ∧ t.eng = s.eng ∧ t.trust = s.trust ∧ t.status = s.status ∧ t.kick = s.kick ∧
    t.power = s.power ∧ t.out = s.out ∧ t.fab.main = s.fab.main ∧ t.fab.side = s.fab.side ∧ t.fab.yards = s.fab.yards ∧
    t.fab.parts = s.fab.parts ∧ t.fab.cores = s.fab.cores ∧ t.fab.rigs = s.fab.rigs ∧
    (∀ k, k ∉ s.here.lanes → t.thread k = s.thread k) ∧
    (∀ k, let x := s.thread k; let y := t.thread k
      y.pc = x.pc ∧ y.wpos = x.wpos ∧ y.st = x.st ∧ y.rm = x.rm ∧ y.ra = x.ra ∧ y.tags = x.tags ∧ y.trec = x.trec ∧
      y.region = x.region ∧ ((s.thread k).guard g = false → y.ff = x.ff ∧ y.preds = x.preds ∧ y.vs = x.vs ∧ y.us = x.us) ∧
      ((∀ d, dst ≠ .pred d) → y.preds = x.preds) ∧ ((∀ n d, dst ≠ .uni n d) → y.us = x.us) ∧
      ((∀ n d, dst ≠ .vec n d) → y.vs = x.vs) ∧
      (∀ d i, dst = .pred d → i ≠ d.toNat % 8 → y.preds.getLsbD i = x.preds.getLsbD i) ∧
      (∀ n d i, dst = .vec n d → (res k).length ≤ n → i < slotOfD d ∨ slotOfD d + n ≤ i → y.vs[i]? = x.vs[i]?) ∧
      (∀ n d i, dst = .uni n d → (res k).length ≤ n → i < slotOfD d ∨ slotOfD d + n ≤ i → y.us[i]? = x.us[i]?))) ∧
  (∀ (t s : State) (g : BitVec 3) (dst : Dst) (shift : Bool) (res : Nat → List Word) (fl : Nat → BitVec 5),
    let u := t.deliver s g dst shift res fl
    u = { t with fab := { t.fab with threads := u.fab.threads } } ∧ (∀ k, k ∉ s.here.lanes → u.thread k = t.thread k))

/-- A store to a word of on-chip storage changes that word alone, and memory keeps its canonical form. A word written at its home
slice, outside an expander's memory, is answered from there, and every other word as before. A load after a store by the same thread reads the value stored,
where no write of another core is recorded there. -/
def Obligations.StoresAndLoads : Prop :=
  (∀ (s : State) (a : Nat) (v : Word), s.mem.bytes.wf = true → spaceOf (BitVec.ofNat 64 a) ≠ 2 →
    let t := s.setChipWord a v
    t.mem.bytes.wf = true ∧ t.mem.bytes.word a = v ∧
    (∀ x, x < a ∨ a + 4 ≤ x → t.mem.bytes.read x = s.mem.bytes.read x) ∧
    t.fab = s.fab ∧ t.mem.l2 = s.mem.l2 ∧ t.mem.dcache = s.mem.dcache) ∧
  (∀ (s : State) (wa : Nat) (v : Word), wa < 2 ^ 56 → s.keepsWrites wa = true →
    let t := s.homeWrite wa v
    t.homeWord wa = v ∧ t.mem.bytes = s.mem.bytes ∧ t.fab = s.fab ∧
    (∀ x, x < 2 ^ 56 → x ≠ wa → t.homeWord x = s.homeWord x)) ∧
  (∀ (s : State) (k hint wa h : Nat) (nc : Bool) (v : Word), wa % 4 = 0 → s.mem.bytes.wf = true → s.caches wa = true →
    (∀ x ∈ Map.getD s.mem.writes wa [], x.rank = coreOf k + 1) → ((s.storeWord k hint wa nc 15 v).loadWord k h wa).2 = v)

/-! ### Dispatch and debugging, as the rules state them -/

/-- Dispatch refuses a bind record whose VALID rises on any of the conditions of R64, with ERR set, VALID cleared, nothing
initialised and a report; it accepts any other; and a write to a slot whose yard is resident sets ERR alone. -/
def Obligations.DispatchRefusal : Prop :=
  ∀ (s : State) (core slot : Nat) (w0 w1 w2 w3 : DWord), core < Config.cores → slot < 128 →
    let y := yardKey core slot
    let v := s.yard y
    let b := bindOf w0 w1 w2 w3
    let err := v.bind.err && !w3.getLsbD 61
    let bad := (s.core core).ctx ≠ some b.context.toNat ∨ b.world ≠ (s.ctx b.context.toNat).world ∨ b.version = 0 ∨
      b.lanes = 0 ∨ 64 < b.lanes.toNat ∨ (b.righ ≠ 0 ∧ (b.righ.extractLsb' 30 6).toNat ≤ b.ord.toNat) ∨
      w2.extractLsb' 48 16 ≠ 0 ∨ w2.extractLsb' 26 6 ≠ 0 ∨ w3.extractLsb' 56 5 ≠ 0 ∨ w3.extractLsb' 32 4 ≠ 0 ∨
      w3.extractLsb' 7 9 ≠ 0
    (v.resident = true → exec (.bindRecordWrite core slot w0 w1 w2 w3) s =
      .next (s.setYard y { v with bind := { v.bind with err := true } })) ∧
    (v.resident = false → v.bind.valid = false → w3.getLsbD 63 = true →
      (bad → exec (.bindRecordWrite core slot w0 w1 w2 w3) s = .next ((s.setYard y { v with
        bind := { b with valid := false, err := true }, waiting := false }).send (.report 3 [core, slot]))) ∧
      (¬ bad → exec (.bindRecordWrite core slot w0 w1 w2 w3) s = .next (s.setYard y { v with
        bind := { b with err := err }, waiting := true })))

/-- The debug block reaches threads of its context only: a target whose core does not serve the context sets ERR and does
nothing else, and so does a resume of a thread that is not stopped. -/
def Obligations.DebugReach : Prop :=
  (∀ (s : State) (c k : Nat), s.debugTarget c = some k → s.ctxOf k = c) ∧
  (∀ (s : State) (c : Nat), (s.core (s.ctx c).dbg.core.toNat).ctx ≠ some c →
    exec (.debugStop c) s = .next (s.debugErr c) ∧ exec (.debugResume c) s = .next (s.debugErr c) ∧
    exec (.debugStep c) s = .next (s.debugErr c)) ∧
  (∀ (s : State) (c k : Nat), s.debugTarget c = some k → (s.thread k).st ≠ .stopped →
    exec (.debugResume c) s = .next (s.debugErr c)) ∧
  (∀ (s : State) (c : Nat), s.debugErr c = s.setCtx c { s.ctx c with dbg := { (s.ctx c).dbg with err := true } })

end
end

