-- ==== Sys2Proof/Laws/Map.lean ====
section
/-! SUPPORT. Laws of the sparse maps and of memory: what a read gives after a write, and that memory operations keep the
canonical form. -/

namespace Sys2Proof.Machine

/-! ### Maps -/

theorem Map.find?_set_same {α : Type} (m : Map α) (k : Nat) (v : α) : Map.find? (Map.set m k v) k = some v := by
  induction m with
  | nil => simp [Map.set, Map.find?]
  | cons p r ih =>
    obtain ⟨j, w⟩ := p
    by_cases h : k < j
    · simp [Map.set, Map.find?, h]
    · by_cases h2 : k = j
      · simp [Map.set, Map.find?, h2]
      · simp [Map.set, Map.find?, h, h2, ih]

theorem Map.find?_set_other {α : Type} (m : Map α) (k j : Nat) (v : α) (h : j ≠ k) :
    Map.find? (Map.set m k v) j = Map.find? m j := by
  induction m with
  | nil => simp [Map.set, Map.find?, h]
  | cons p r ih =>
    obtain ⟨i, w⟩ := p
    by_cases h1 : k < i
    · simp [Map.set, Map.find?, h1, h]
    · by_cases h2 : k = i
      · subst h2; simp [Map.set, Map.find?, h]
      · by_cases h3 : j = i <;> simp [Map.set, Map.find?, h1, h2, h3, ih]

@[simp] theorem Map.getD_set_same {α : Type} (m : Map α) (k : Nat) (v d : α) : Map.getD (Map.set m k v) k d = v := by
  simp [Map.getD, Map.find?_set_same]

theorem Map.getD_set_other {α : Type} (m : Map α) (k j : Nat) (v d : α) (h : j ≠ k) :
    Map.getD (Map.set m k v) j d = Map.getD m j d := by
  simp [Map.getD, Map.find?_set_other, h]

theorem Map.getD_set {α : Type} (m : Map α) (k j : Nat) (v d : α) :
    Map.getD (Map.set m k v) j d = if j = k then v else Map.getD m j d := by
  by_cases h : j = k
  · subst h; simp
  · simp [h, Map.getD_set_other]

@[simp] theorem Map.find?_mapVals {α : Type} (f : Nat → α → α) (m : Map α) (k : Nat) :
    Map.find? (Map.mapVals f m) k = (Map.find? m k).map (f k) := by
  induction m with
  | nil => rfl
  | cons p r ih =>
    obtain ⟨j, w⟩ := p
    by_cases h : k = j
    · subst h; simp [Map.mapVals, Map.find?]
    · have := ih; simp [Map.mapVals] at this
      simp [Map.mapVals, Map.find?, h, this]

theorem Map.mapVals_id {α : Type} (f : Nat → α → α) (m : Map α) (h : ∀ k v, f k v = v) : Map.mapVals f m = m := by
  simp [Map.mapVals, h]

theorem Map.find?_filter {α : Type} (m : Map α) (f : Nat × α → Bool) (k : Nat) (h : ∀ v, f (k, v) = true) :
    Map.find? (m.filter f) k = Map.find? m k := by
  induction m with
  | nil => rfl
  | cons p r ih =>
    obtain ⟨j, w⟩ := p
    by_cases e : k = j
    · subst e; simp [h, Map.find?]
    · rw [List.filter_cons]; split <;> simp [Map.find?, e, ih]

theorem Map.find?_del_other {α : Type} (m : Map α) (k j : Nat) (h : j ≠ k) : Map.find? (Map.del m k) j = Map.find? m j :=
  Map.find?_filter _ _ _ (by intro v; simpa using h)

theorem Map.find?_del_same {α : Type} (m : Map α) (k : Nat) : Map.find? (Map.del m k) k = none := by
  induction m with
  | nil => rfl
  | cons p r ih =>
    obtain ⟨j, w⟩ := p
    simp only [Map.del, List.filter_cons] at ih ⊢
    by_cases e : k = j
    · subst e; simpa using ih
    · rw [if_pos (by simpa using fun h => e h.symm)]; simp only [Map.find?, if_neg e]; exact ih

/-! ### Memory -/

theorem Memory.wfFrom_weaken {lo hi : Nat} {m : Memory} (h : lo ≤ hi) (w : Memory.wfFrom hi m = true) :
    Memory.wfFrom lo m = true := by
  cases m with
  | nil => rfl
  | cons p r =>
    obtain ⟨a, b⟩ := p
    simp [Memory.wfFrom] at w ⊢
    exact ⟨⟨by omega, w.1.2⟩, w.2⟩

theorem Memory.wfFrom_write (m : Memory) (a : Nat) (b : Byte) (lo : Nat) (hl : lo ≤ a) (w : Memory.wfFrom lo m = true) :
    Memory.wfFrom lo (m.write a b) = true := by
  induction m generalizing lo with
  | nil =>
    by_cases hb : b = blankByte
    · simp [Memory.write, hb, Memory.wfFrom]
    · simp [Memory.write, hb, Memory.wfFrom, hl]
  | cons p r ih =>
    obtain ⟨k, c⟩ := p
    simp [Memory.wfFrom] at w
    obtain ⟨⟨h1, h2⟩, h3⟩ := w
    by_cases ha : a < k
    · by_cases hb : b = blankByte
      · simp [Memory.write, ha, hb, Memory.wfFrom, h1, h2, h3]
      · simp [Memory.write, ha, hb, Memory.wfFrom, hl, h2, h3] <;> omega
    · by_cases hk : a = k
      · subst hk
        by_cases hb : b = blankByte
        · simp [Memory.write, hb]; exact Memory.wfFrom_weaken (by omega) h3
        · simp [Memory.write, hb, Memory.wfFrom, h1, h3]
      · simp [Memory.write, ha, hk, Memory.wfFrom, h1, h2]
        exact ih (k + 1) (by omega) h3

/-- A write of a byte keeps the canonical form. -/
theorem Memory.wf_write (m : Memory) (a : Nat) (b : Byte) (w : m.wf = true) : (m.write a b).wf = true :=
  Memory.wfFrom_write m a b 0 (Nat.zero_le a) w

/-- A write of a word keeps the canonical form. -/
theorem Memory.wf_setWord (m : Memory) (a : Nat) (v : Word) (w : m.wf = true) : (m.setWord a v).wf = true := by
  simp only [Memory.setWord]
  exact Memory.wf_write _ _ _ (Memory.wf_write _ _ _ (Memory.wf_write _ _ _ (Memory.wf_write _ _ _ w)))

/-- A memory keeps the canonical form when entries are left out of it. -/
theorem Memory.wfFrom_filter (f : Host.Cell → Bool) (m : Memory) (lo : Nat) (w : Memory.wfFrom lo m = true) :
    Memory.wfFrom lo (m.filter f) = true := by
  induction m generalizing lo with
  | nil => rfl
  | cons p r ih =>
    obtain ⟨a, b⟩ := p
    simp [Memory.wfFrom] at w
    obtain ⟨⟨h1, h2⟩, h3⟩ := w
    have h4 := ih (a + 1) h3
    by_cases hf : f (a, b) = true
    · simp [List.filter, hf, Memory.wfFrom, h1, h2, h4]
    · simp [List.filter, hf]; exact Memory.wfFrom_weaken (by omega) h4

theorem Memory.wf_filter (f : Host.Cell → Bool) (m : Memory) (w : m.wf = true) :
    Memory.wf (m.filter f) = true := Memory.wfFrom_filter f m 0 w

/-- An address below everything that is listed reads blank. -/
theorem Memory.read_low {m : Memory} {lo a : Nat} (w : Memory.wfFrom lo m = true) (h : a < lo) :
    m.read a = blankByte := by
  cases m with
  | nil => rfl
  | cons p r =>
    obtain ⟨k, c⟩ := p
    simp [Memory.wfFrom] at w
    simp [Memory.read, show a < k by omega]

theorem Memory.read_writeFrom (m : Memory) (a x : Nat) (b : Byte) (lo : Nat) (w : Memory.wfFrom lo m = true) :
    (m.write a b).read x = if x = a then b else m.read x := by
  induction m generalizing lo with
  | nil =>
    by_cases hb : b = blankByte
    · by_cases hx : x = a <;> simp [Memory.write, hb, Memory.read, hx]
    · rcases Nat.lt_trichotomy x a with h | h | h
      · simp [Memory.write, hb, Memory.read, h, show x ≠ a by omega]
      · subst h; simp [Memory.write, hb, Memory.read]
      · simp [Memory.write, hb, Memory.read, show ¬ x < a by omega, show x ≠ a by omega]
  | cons p r ih =>
    obtain ⟨k, c⟩ := p
    have w0 := w
    simp [Memory.wfFrom] at w
    obtain ⟨⟨h1, h2⟩, h3⟩ := w
    by_cases ha : a < k
    · by_cases hb : b = blankByte
      · by_cases hx : x = a
        · subst hx; simp [Memory.write, ha, hb, Memory.read]
        · simp [Memory.write, ha, hb, hx]
      · rcases Nat.lt_trichotomy x a with h | h | h
        · simp [Memory.write, ha, hb, Memory.read, h, show x ≠ a by omega, show x < k by omega]
        · subst h; simp [Memory.write, ha, hb, Memory.read]
        · simp [Memory.write, ha, hb, Memory.read, show ¬ x < a by omega, show x ≠ a by omega]
    · by_cases hk : a = k
      · subst hk
        by_cases hb : b = blankByte
        · rcases Nat.lt_trichotomy x a with h | h | h
          · simp [Memory.write, hb, Memory.read, h, show x ≠ a by omega]
            exact Memory.read_low h3 (by omega)
          · subst h; simp [Memory.write, hb]; exact Memory.read_low h3 (by omega)
          · simp [Memory.write, hb, Memory.read, show ¬ x < a by omega, show x ≠ a by omega]
        · by_cases hx : x = a
          · subst hx; simp [Memory.write, hb, Memory.read]
          · simp [Memory.write, hb, Memory.read, hx]
      · rcases Nat.lt_trichotomy x k with h | h | h
        · simp [Memory.write, ha, hk, Memory.read, h, show x ≠ a by omega]
        · subst h; simp [Memory.write, ha, hk, Memory.read, show x ≠ a by omega]
        · simp [Memory.write, ha, hk, Memory.read, show ¬ x < k by omega, show x ≠ k by omega, ih (k + 1) h3]

/-- A byte read after a write of a byte: the written one at its address, every other as before. -/
theorem Memory.read_write (m : Memory) (a x : Nat) (b : Byte) (w : m.wf = true) :
    (m.write a b).read x = if x = a then b else m.read x := Memory.read_writeFrom m a x b 0 w

/-- A byte outside a written word reads as before. -/
theorem Memory.read_setWord_other (m : Memory) (a x : Nat) (v : Word) (w : m.wf = true) (h : x < a ∨ a + 4 ≤ x) :
    (m.setWord a v).read x = m.read x := by
  have w1 := Memory.wf_write m a (v.extractLsb' 0 8) w
  have w2 := Memory.wf_write _ (a + 1) (v.extractLsb' 8 8) w1
  have w3 := Memory.wf_write _ (a + 2) (v.extractLsb' 16 8) w2
  simp only [Memory.setWord]
  rw [Memory.read_write _ _ _ _ w3, Memory.read_write _ _ _ _ w2, Memory.read_write _ _ _ _ w1, Memory.read_write _ _ _ _ w]
  simp [show x ≠ a by omega, show x ≠ a + 1 by omega, show x ≠ a + 2 by omega, show x ≠ a + 3 by omega]

/-- A word reads as it was written. -/
theorem Memory.word_setWord (m : Memory) (a : Nat) (v : Word) (w : m.wf = true) : (m.setWord a v).word a = v := by
  have w1 := Memory.wf_write m a (v.extractLsb' 0 8) w
  have w2 := Memory.wf_write _ (a + 1) (v.extractLsb' 8 8) w1
  have w3 := Memory.wf_write _ (a + 2) (v.extractLsb' 16 8) w2
  simp only [Memory.word, Memory.setWord]
  simp only [Memory.read_write _ _ _ _ w3, Memory.read_write _ _ _ _ w2, Memory.read_write _ _ _ _ w1,
    Memory.read_write _ _ _ _ w]
  simp
  apply BitVec.eq_of_getLsbD_eq
  intro i hi
  rw [BitVec.getLsbD_append, BitVec.getLsbD_append, BitVec.getLsbD_append]
  simp only [BitVec.getLsbD_extractLsb']
  by_cases h1 : i < 8
  · simp [h1]
  · by_cases h2 : i - 8 < 8
    · simp [h1, h2, show 8 + (i - 8) = i by omega]
    · by_cases h3 : i - 8 - 8 < 8
      · simp [h1, h2, h3, show 16 + (i - 8 - 8) = i by omega]
      · simp [h1, h2, h3, show 24 + (i - 8 - 8 - 8) = i by omega, show i - 8 - 8 - 8 < 8 by omega]

/-- A word that does not overlap a written word reads as before. -/
theorem Memory.word_setWord_other (m : Memory) (a x : Nat) (v : Word) (w : m.wf = true) (h : x + 4 ≤ a ∨ a + 4 ≤ x) :
    (m.setWord a v).word x = m.word x := by
  simp only [Memory.word]
  rw [Memory.read_setWord_other _ _ _ _ w (by omega), Memory.read_setWord_other _ _ _ _ w (by omega),
    Memory.read_setWord_other _ _ _ _ w (by omega), Memory.read_setWord_other _ _ _ _ w (by omega)]

end Sys2Proof.Machine
end

