-- ==== Sys2Proof/Laws/State.lean ====
section
/-! SUPPORT. What each update of the state leaves of its fields, one lemma per field and update, so that no proof unfolds a
record update. -/

namespace Sys2Proof.Machine

theorem State.modThread_eq (s : State) (k : Nat) (f : Thread → Thread) : s.modThread k f = s.setThread k (f (s.thread k)) := rfl
theorem State.modYard_eq (s : State) (y : Nat) (f : Yard → Yard) : s.modYard y f = s.setYard y (f (s.yard y)) := rfl
theorem State.modPart_eq (s : State) (p : Nat) (f : Part → Part) : s.modPart p f = s.setPart p (f (s.part p)) := rfl
theorem State.modCore_eq (s : State) (c : Nat) (f : Core → Core) : s.modCore c f = s.setCore c (f (s.core c)) := rfl
theorem State.modRig_eq (s : State) (r : Nat) (f : Rig → Rig) : s.modRig r f = s.setRig r (f (s.rig r)) := rfl
theorem State.modCtx_eq (s : State) (c : Nat) (f : Context → Context) : s.modCtx c f = s.setCtx c (f (s.ctx c)) := rfl


/-! ### setThread -/

@[simp] theorem State.setThread_agenda (s : State) (k : Nat) (t : Thread) : (s.setThread k t).agenda = s.agenda := rfl
@[simp] theorem State.setThread_focus (s : State) (k : Nat) (t : Thread) : (s.setThread k t).focus = s.focus := rfl
@[simp] theorem State.setThread_fresh (s : State) (k : Nat) (t : Thread) : (s.setThread k t).fresh = s.fresh := rfl
@[simp] theorem State.setThread_fitX (s : State) (k : Nat) (t : Thread) : (s.setThread k t).fitX = s.fitX := rfl
@[simp] theorem State.setThread_now (s : State) (k : Nat) (t : Thread) : (s.setThread k t).now = s.now := rfl
@[simp] theorem State.setThread_ticks (s : State) (k : Nat) (t : Thread) : (s.setThread k t).ticks = s.ticks := rfl
@[simp] theorem State.setThread_mem (s : State) (k : Nat) (t : Thread) : (s.setThread k t).mem = s.mem := rfl
@[simp] theorem State.setThread_ctxs (s : State) (k : Nat) (t : Thread) : (s.setThread k t).ctxs = s.ctxs := rfl
@[simp] theorem State.setThread_eng (s : State) (k : Nat) (t : Thread) : (s.setThread k t).eng = s.eng := rfl
@[simp] theorem State.setThread_trust (s : State) (k : Nat) (t : Thread) : (s.setThread k t).trust = s.trust := rfl
@[simp] theorem State.setThread_status (s : State) (k : Nat) (t : Thread) : (s.setThread k t).status = s.status := rfl
@[simp] theorem State.setThread_kick (s : State) (k : Nat) (t : Thread) : (s.setThread k t).kick = s.kick := rfl
@[simp] theorem State.setThread_power (s : State) (k : Nat) (t : Thread) : (s.setThread k t).power = s.power := rfl
@[simp] theorem State.setThread_out (s : State) (k : Nat) (t : Thread) : (s.setThread k t).out = s.out := rfl
@[simp] theorem State.setThread_fab_threads (s : State) (k : Nat) (t : Thread) : (s.setThread k t).fab.threads = Map.set s.fab.threads k t := rfl
@[simp] theorem State.setThread_fab_main (s : State) (k : Nat) (t : Thread) : (s.setThread k t).fab.main = s.fab.main := rfl
@[simp] theorem State.setThread_fab_side (s : State) (k : Nat) (t : Thread) : (s.setThread k t).fab.side = s.fab.side := rfl
@[simp] theorem State.setThread_fab_yards (s : State) (k : Nat) (t : Thread) : (s.setThread k t).fab.yards = s.fab.yards := rfl
@[simp] theorem State.setThread_fab_parts (s : State) (k : Nat) (t : Thread) : (s.setThread k t).fab.parts = s.fab.parts := rfl
@[simp] theorem State.setThread_fab_cores (s : State) (k : Nat) (t : Thread) : (s.setThread k t).fab.cores = s.fab.cores := rfl
@[simp] theorem State.setThread_fab_rigs (s : State) (k : Nat) (t : Thread) : (s.setThread k t).fab.rigs = s.fab.rigs := rfl
@[simp] theorem State.setThread_fab_sets (s : State) (k : Nat) (t : Thread) : (s.setThread k t).fab.sets = s.fab.sets := rfl
@[simp] theorem State.setThread_fab_serial (s : State) (k : Nat) (t : Thread) : (s.setThread k t).fab.serial = s.fab.serial := rfl
@[simp] theorem State.yard_setThread (s : State) (k : Nat) (t : Thread) (i : Nat) : (s.setThread k t).yard i = s.yard i := rfl
@[simp] theorem State.part_setThread (s : State) (k : Nat) (t : Thread) (i : Nat) : (s.setThread k t).part i = s.part i := rfl
@[simp] theorem State.core_setThread (s : State) (k : Nat) (t : Thread) (i : Nat) : (s.setThread k t).core i = s.core i := rfl
@[simp] theorem State.rig_setThread (s : State) (k : Nat) (t : Thread) (i : Nat) : (s.setThread k t).rig i = s.rig i := rfl
@[simp] theorem State.ctx_setThread (s : State) (k : Nat) (t : Thread) (i : Nat) : (s.setThread k t).ctx i = s.ctx i := rfl
@[simp] theorem State.reg_setThread (s : State) (k : Nat) (t : Thread) (i j : Nat) : (s.setThread k t).reg i j = s.reg i j := rfl

/-! ### setYard -/

@[simp] theorem State.setYard_agenda (s : State) (y : Nat) (v : Yard) : (s.setYard y v).agenda = s.agenda := rfl
@[simp] theorem State.setYard_focus (s : State) (y : Nat) (v : Yard) : (s.setYard y v).focus = s.focus := rfl
@[simp] theorem State.setYard_fresh (s : State) (y : Nat) (v : Yard) : (s.setYard y v).fresh = s.fresh := rfl
@[simp] theorem State.setYard_fitX (s : State) (y : Nat) (v : Yard) : (s.setYard y v).fitX = s.fitX := rfl
@[simp] theorem State.setYard_now (s : State) (y : Nat) (v : Yard) : (s.setYard y v).now = s.now := rfl
@[simp] theorem State.setYard_ticks (s : State) (y : Nat) (v : Yard) : (s.setYard y v).ticks = s.ticks := rfl
@[simp] theorem State.setYard_mem (s : State) (y : Nat) (v : Yard) : (s.setYard y v).mem = s.mem := rfl
@[simp] theorem State.setYard_ctxs (s : State) (y : Nat) (v : Yard) : (s.setYard y v).ctxs = s.ctxs := rfl
@[simp] theorem State.setYard_eng (s : State) (y : Nat) (v : Yard) : (s.setYard y v).eng = s.eng := rfl
@[simp] theorem State.setYard_trust (s : State) (y : Nat) (v : Yard) : (s.setYard y v).trust = s.trust := rfl
@[simp] theorem State.setYard_status (s : State) (y : Nat) (v : Yard) : (s.setYard y v).status = s.status := rfl
@[simp] theorem State.setYard_kick (s : State) (y : Nat) (v : Yard) : (s.setYard y v).kick = s.kick := rfl
@[simp] theorem State.setYard_power (s : State) (y : Nat) (v : Yard) : (s.setYard y v).power = s.power := rfl
@[simp] theorem State.setYard_out (s : State) (y : Nat) (v : Yard) : (s.setYard y v).out = s.out := rfl
@[simp] theorem State.setYard_fab_threads (s : State) (y : Nat) (v : Yard) : (s.setYard y v).fab.threads = s.fab.threads := rfl
@[simp] theorem State.setYard_fab_main (s : State) (y : Nat) (v : Yard) : (s.setYard y v).fab.main = s.fab.main := rfl
@[simp] theorem State.setYard_fab_side (s : State) (y : Nat) (v : Yard) : (s.setYard y v).fab.side = s.fab.side := rfl
@[simp] theorem State.setYard_fab_yards (s : State) (y : Nat) (v : Yard) : (s.setYard y v).fab.yards = Map.set s.fab.yards y v := rfl
@[simp] theorem State.setYard_fab_parts (s : State) (y : Nat) (v : Yard) : (s.setYard y v).fab.parts = s.fab.parts := rfl
@[simp] theorem State.setYard_fab_cores (s : State) (y : Nat) (v : Yard) : (s.setYard y v).fab.cores = s.fab.cores := rfl
@[simp] theorem State.setYard_fab_rigs (s : State) (y : Nat) (v : Yard) : (s.setYard y v).fab.rigs = s.fab.rigs := rfl
@[simp] theorem State.setYard_fab_sets (s : State) (y : Nat) (v : Yard) : (s.setYard y v).fab.sets = s.fab.sets := rfl
@[simp] theorem State.setYard_fab_serial (s : State) (y : Nat) (v : Yard) : (s.setYard y v).fab.serial = s.fab.serial := rfl
@[simp] theorem State.thread_setYard (s : State) (y : Nat) (v : Yard) (i : Nat) : (s.setYard y v).thread i = s.thread i := rfl
@[simp] theorem State.part_setYard (s : State) (y : Nat) (v : Yard) (i : Nat) : (s.setYard y v).part i = s.part i := rfl
@[simp] theorem State.core_setYard (s : State) (y : Nat) (v : Yard) (i : Nat) : (s.setYard y v).core i = s.core i := rfl
@[simp] theorem State.rig_setYard (s : State) (y : Nat) (v : Yard) (i : Nat) : (s.setYard y v).rig i = s.rig i := rfl
@[simp] theorem State.ctx_setYard (s : State) (y : Nat) (v : Yard) (i : Nat) : (s.setYard y v).ctx i = s.ctx i := rfl
@[simp] theorem State.reg_setYard (s : State) (y : Nat) (v : Yard) (i j : Nat) : (s.setYard y v).reg i j = s.reg i j := rfl

/-! ### setPart -/

@[simp] theorem State.setPart_agenda (s : State) (p : Nat) (v : Part) : (s.setPart p v).agenda = s.agenda := rfl
@[simp] theorem State.setPart_focus (s : State) (p : Nat) (v : Part) : (s.setPart p v).focus = s.focus := rfl
@[simp] theorem State.setPart_fresh (s : State) (p : Nat) (v : Part) : (s.setPart p v).fresh = s.fresh := rfl
@[simp] theorem State.setPart_fitX (s : State) (p : Nat) (v : Part) : (s.setPart p v).fitX = s.fitX := rfl
@[simp] theorem State.setPart_now (s : State) (p : Nat) (v : Part) : (s.setPart p v).now = s.now := rfl
@[simp] theorem State.setPart_ticks (s : State) (p : Nat) (v : Part) : (s.setPart p v).ticks = s.ticks := rfl
@[simp] theorem State.setPart_mem (s : State) (p : Nat) (v : Part) : (s.setPart p v).mem = s.mem := rfl
@[simp] theorem State.setPart_ctxs (s : State) (p : Nat) (v : Part) : (s.setPart p v).ctxs = s.ctxs := rfl
@[simp] theorem State.setPart_eng (s : State) (p : Nat) (v : Part) : (s.setPart p v).eng = s.eng := rfl
@[simp] theorem State.setPart_trust (s : State) (p : Nat) (v : Part) : (s.setPart p v).trust = s.trust := rfl
@[simp] theorem State.setPart_status (s : State) (p : Nat) (v : Part) : (s.setPart p v).status = s.status := rfl
@[simp] theorem State.setPart_kick (s : State) (p : Nat) (v : Part) : (s.setPart p v).kick = s.kick := rfl
@[simp] theorem State.setPart_power (s : State) (p : Nat) (v : Part) : (s.setPart p v).power = s.power := rfl
@[simp] theorem State.setPart_out (s : State) (p : Nat) (v : Part) : (s.setPart p v).out = s.out := rfl
@[simp] theorem State.setPart_fab_threads (s : State) (p : Nat) (v : Part) : (s.setPart p v).fab.threads = s.fab.threads := rfl
@[simp] theorem State.setPart_fab_main (s : State) (p : Nat) (v : Part) : (s.setPart p v).fab.main = s.fab.main := rfl
@[simp] theorem State.setPart_fab_side (s : State) (p : Nat) (v : Part) : (s.setPart p v).fab.side = s.fab.side := rfl
@[simp] theorem State.setPart_fab_yards (s : State) (p : Nat) (v : Part) : (s.setPart p v).fab.yards = s.fab.yards := rfl
@[simp] theorem State.setPart_fab_parts (s : State) (p : Nat) (v : Part) : (s.setPart p v).fab.parts = Map.set s.fab.parts p v := rfl
@[simp] theorem State.setPart_fab_cores (s : State) (p : Nat) (v : Part) : (s.setPart p v).fab.cores = s.fab.cores := rfl
@[simp] theorem State.setPart_fab_rigs (s : State) (p : Nat) (v : Part) : (s.setPart p v).fab.rigs = s.fab.rigs := rfl
@[simp] theorem State.setPart_fab_sets (s : State) (p : Nat) (v : Part) : (s.setPart p v).fab.sets = s.fab.sets := rfl
@[simp] theorem State.setPart_fab_serial (s : State) (p : Nat) (v : Part) : (s.setPart p v).fab.serial = s.fab.serial := rfl
@[simp] theorem State.thread_setPart (s : State) (p : Nat) (v : Part) (i : Nat) : (s.setPart p v).thread i = s.thread i := rfl
@[simp] theorem State.yard_setPart (s : State) (p : Nat) (v : Part) (i : Nat) : (s.setPart p v).yard i = s.yard i := rfl
@[simp] theorem State.core_setPart (s : State) (p : Nat) (v : Part) (i : Nat) : (s.setPart p v).core i = s.core i := rfl
@[simp] theorem State.rig_setPart (s : State) (p : Nat) (v : Part) (i : Nat) : (s.setPart p v).rig i = s.rig i := rfl
@[simp] theorem State.ctx_setPart (s : State) (p : Nat) (v : Part) (i : Nat) : (s.setPart p v).ctx i = s.ctx i := rfl
@[simp] theorem State.reg_setPart (s : State) (p : Nat) (v : Part) (i j : Nat) : (s.setPart p v).reg i j = s.reg i j := rfl

/-! ### setCore -/

@[simp] theorem State.setCore_agenda (s : State) (c : Nat) (v : Core) : (s.setCore c v).agenda = s.agenda := rfl
@[simp] theorem State.setCore_focus (s : State) (c : Nat) (v : Core) : (s.setCore c v).focus = s.focus := rfl
@[simp] theorem State.setCore_fresh (s : State) (c : Nat) (v : Core) : (s.setCore c v).fresh = s.fresh := rfl
@[simp] theorem State.setCore_fitX (s : State) (c : Nat) (v : Core) : (s.setCore c v).fitX = s.fitX := rfl
@[simp] theorem State.setCore_now (s : State) (c : Nat) (v : Core) : (s.setCore c v).now = s.now := rfl
@[simp] theorem State.setCore_ticks (s : State) (c : Nat) (v : Core) : (s.setCore c v).ticks = s.ticks := rfl
@[simp] theorem State.setCore_mem (s : State) (c : Nat) (v : Core) : (s.setCore c v).mem = s.mem := rfl
@[simp] theorem State.setCore_ctxs (s : State) (c : Nat) (v : Core) : (s.setCore c v).ctxs = s.ctxs := rfl
@[simp] theorem State.setCore_eng (s : State) (c : Nat) (v : Core) : (s.setCore c v).eng = s.eng := rfl
@[simp] theorem State.setCore_trust (s : State) (c : Nat) (v : Core) : (s.setCore c v).trust = s.trust := rfl
@[simp] theorem State.setCore_status (s : State) (c : Nat) (v : Core) : (s.setCore c v).status = s.status := rfl
@[simp] theorem State.setCore_kick (s : State) (c : Nat) (v : Core) : (s.setCore c v).kick = s.kick := rfl
@[simp] theorem State.setCore_power (s : State) (c : Nat) (v : Core) : (s.setCore c v).power = s.power := rfl
@[simp] theorem State.setCore_out (s : State) (c : Nat) (v : Core) : (s.setCore c v).out = s.out := rfl
@[simp] theorem State.setCore_fab_threads (s : State) (c : Nat) (v : Core) : (s.setCore c v).fab.threads = s.fab.threads := rfl
@[simp] theorem State.setCore_fab_main (s : State) (c : Nat) (v : Core) : (s.setCore c v).fab.main = s.fab.main := rfl
@[simp] theorem State.setCore_fab_side (s : State) (c : Nat) (v : Core) : (s.setCore c v).fab.side = s.fab.side := rfl
@[simp] theorem State.setCore_fab_yards (s : State) (c : Nat) (v : Core) : (s.setCore c v).fab.yards = s.fab.yards := rfl
@[simp] theorem State.setCore_fab_parts (s : State) (c : Nat) (v : Core) : (s.setCore c v).fab.parts = s.fab.parts := rfl
@[simp] theorem State.setCore_fab_cores (s : State) (c : Nat) (v : Core) : (s.setCore c v).fab.cores = Map.set s.fab.cores c v := rfl
@[simp] theorem State.setCore_fab_rigs (s : State) (c : Nat) (v : Core) : (s.setCore c v).fab.rigs = s.fab.rigs := rfl
@[simp] theorem State.setCore_fab_sets (s : State) (c : Nat) (v : Core) : (s.setCore c v).fab.sets = s.fab.sets := rfl
@[simp] theorem State.setCore_fab_serial (s : State) (c : Nat) (v : Core) : (s.setCore c v).fab.serial = s.fab.serial := rfl
@[simp] theorem State.thread_setCore (s : State) (c : Nat) (v : Core) (i : Nat) : (s.setCore c v).thread i = s.thread i := rfl
@[simp] theorem State.yard_setCore (s : State) (c : Nat) (v : Core) (i : Nat) : (s.setCore c v).yard i = s.yard i := rfl
@[simp] theorem State.part_setCore (s : State) (c : Nat) (v : Core) (i : Nat) : (s.setCore c v).part i = s.part i := rfl
@[simp] theorem State.rig_setCore (s : State) (c : Nat) (v : Core) (i : Nat) : (s.setCore c v).rig i = s.rig i := rfl
@[simp] theorem State.ctx_setCore (s : State) (c : Nat) (v : Core) (i : Nat) : (s.setCore c v).ctx i = s.ctx i := rfl
@[simp] theorem State.reg_setCore (s : State) (c : Nat) (v : Core) (i j : Nat) : (s.setCore c v).reg i j = s.reg i j := rfl

/-! ### setRig -/

@[simp] theorem State.setRig_agenda (s : State) (r : Nat) (v : Rig) : (s.setRig r v).agenda = s.agenda := rfl
@[simp] theorem State.setRig_focus (s : State) (r : Nat) (v : Rig) : (s.setRig r v).focus = s.focus := rfl
@[simp] theorem State.setRig_fresh (s : State) (r : Nat) (v : Rig) : (s.setRig r v).fresh = s.fresh := rfl
@[simp] theorem State.setRig_fitX (s : State) (r : Nat) (v : Rig) : (s.setRig r v).fitX = s.fitX := rfl
@[simp] theorem State.setRig_now (s : State) (r : Nat) (v : Rig) : (s.setRig r v).now = s.now := rfl
@[simp] theorem State.setRig_ticks (s : State) (r : Nat) (v : Rig) : (s.setRig r v).ticks = s.ticks := rfl
@[simp] theorem State.setRig_mem (s : State) (r : Nat) (v : Rig) : (s.setRig r v).mem = s.mem := rfl
@[simp] theorem State.setRig_ctxs (s : State) (r : Nat) (v : Rig) : (s.setRig r v).ctxs = s.ctxs := rfl
@[simp] theorem State.setRig_eng (s : State) (r : Nat) (v : Rig) : (s.setRig r v).eng = s.eng := rfl
@[simp] theorem State.setRig_trust (s : State) (r : Nat) (v : Rig) : (s.setRig r v).trust = s.trust := rfl
@[simp] theorem State.setRig_status (s : State) (r : Nat) (v : Rig) : (s.setRig r v).status = s.status := rfl
@[simp] theorem State.setRig_kick (s : State) (r : Nat) (v : Rig) : (s.setRig r v).kick = s.kick := rfl
@[simp] theorem State.setRig_power (s : State) (r : Nat) (v : Rig) : (s.setRig r v).power = s.power := rfl
@[simp] theorem State.setRig_out (s : State) (r : Nat) (v : Rig) : (s.setRig r v).out = s.out := rfl
@[simp] theorem State.setRig_fab_threads (s : State) (r : Nat) (v : Rig) : (s.setRig r v).fab.threads = s.fab.threads := rfl
@[simp] theorem State.setRig_fab_main (s : State) (r : Nat) (v : Rig) : (s.setRig r v).fab.main = s.fab.main := rfl
@[simp] theorem State.setRig_fab_side (s : State) (r : Nat) (v : Rig) : (s.setRig r v).fab.side = s.fab.side := rfl
@[simp] theorem State.setRig_fab_yards (s : State) (r : Nat) (v : Rig) : (s.setRig r v).fab.yards = s.fab.yards := rfl
@[simp] theorem State.setRig_fab_parts (s : State) (r : Nat) (v : Rig) : (s.setRig r v).fab.parts = s.fab.parts := rfl
@[simp] theorem State.setRig_fab_cores (s : State) (r : Nat) (v : Rig) : (s.setRig r v).fab.cores = s.fab.cores := rfl
@[simp] theorem State.setRig_fab_rigs (s : State) (r : Nat) (v : Rig) : (s.setRig r v).fab.rigs = Map.set s.fab.rigs r v := rfl
@[simp] theorem State.setRig_fab_sets (s : State) (r : Nat) (v : Rig) : (s.setRig r v).fab.sets = s.fab.sets := rfl
@[simp] theorem State.setRig_fab_serial (s : State) (r : Nat) (v : Rig) : (s.setRig r v).fab.serial = s.fab.serial := rfl
@[simp] theorem State.thread_setRig (s : State) (r : Nat) (v : Rig) (i : Nat) : (s.setRig r v).thread i = s.thread i := rfl
@[simp] theorem State.yard_setRig (s : State) (r : Nat) (v : Rig) (i : Nat) : (s.setRig r v).yard i = s.yard i := rfl
@[simp] theorem State.part_setRig (s : State) (r : Nat) (v : Rig) (i : Nat) : (s.setRig r v).part i = s.part i := rfl
@[simp] theorem State.core_setRig (s : State) (r : Nat) (v : Rig) (i : Nat) : (s.setRig r v).core i = s.core i := rfl
@[simp] theorem State.ctx_setRig (s : State) (r : Nat) (v : Rig) (i : Nat) : (s.setRig r v).ctx i = s.ctx i := rfl
@[simp] theorem State.reg_setRig (s : State) (r : Nat) (v : Rig) (i j : Nat) : (s.setRig r v).reg i j = s.reg i j := rfl

/-! ### setReg -/

@[simp] theorem State.setReg_agenda (s : State) (k r : Nat) (v : Word) : (s.setReg k r v).agenda = s.agenda := rfl
@[simp] theorem State.setReg_focus (s : State) (k r : Nat) (v : Word) : (s.setReg k r v).focus = s.focus := rfl
@[simp] theorem State.setReg_fresh (s : State) (k r : Nat) (v : Word) : (s.setReg k r v).fresh = s.fresh := rfl
@[simp] theorem State.setReg_fitX (s : State) (k r : Nat) (v : Word) : (s.setReg k r v).fitX = s.fitX := rfl
@[simp] theorem State.setReg_now (s : State) (k r : Nat) (v : Word) : (s.setReg k r v).now = s.now := rfl
@[simp] theorem State.setReg_ticks (s : State) (k r : Nat) (v : Word) : (s.setReg k r v).ticks = s.ticks := rfl
@[simp] theorem State.setReg_mem (s : State) (k r : Nat) (v : Word) : (s.setReg k r v).mem = s.mem := rfl
@[simp] theorem State.setReg_ctxs (s : State) (k r : Nat) (v : Word) : (s.setReg k r v).ctxs = s.ctxs := rfl
@[simp] theorem State.setReg_eng (s : State) (k r : Nat) (v : Word) : (s.setReg k r v).eng = s.eng := rfl
@[simp] theorem State.setReg_trust (s : State) (k r : Nat) (v : Word) : (s.setReg k r v).trust = s.trust := rfl
@[simp] theorem State.setReg_status (s : State) (k r : Nat) (v : Word) : (s.setReg k r v).status = s.status := rfl
@[simp] theorem State.setReg_kick (s : State) (k r : Nat) (v : Word) : (s.setReg k r v).kick = s.kick := rfl
@[simp] theorem State.setReg_power (s : State) (k r : Nat) (v : Word) : (s.setReg k r v).power = s.power := rfl
@[simp] theorem State.setReg_out (s : State) (k r : Nat) (v : Word) : (s.setReg k r v).out = s.out := rfl
@[simp] theorem State.setReg_fab_threads (s : State) (k r : Nat) (v : Word) : (s.setReg k r v).fab.threads = s.fab.threads := rfl
@[simp] theorem State.setReg_fab_main (s : State) (k r : Nat) (v : Word) : (s.setReg k r v).fab.main = Map.set s.fab.main (k * 256 + r) v := rfl
@[simp] theorem State.setReg_fab_side (s : State) (k r : Nat) (v : Word) : (s.setReg k r v).fab.side = s.fab.side := rfl
@[simp] theorem State.setReg_fab_yards (s : State) (k r : Nat) (v : Word) : (s.setReg k r v).fab.yards = s.fab.yards := rfl
@[simp] theorem State.setReg_fab_parts (s : State) (k r : Nat) (v : Word) : (s.setReg k r v).fab.parts = s.fab.parts := rfl
@[simp] theorem State.setReg_fab_cores (s : State) (k r : Nat) (v : Word) : (s.setReg k r v).fab.cores = s.fab.cores := rfl
@[simp] theorem State.setReg_fab_rigs (s : State) (k r : Nat) (v : Word) : (s.setReg k r v).fab.rigs = s.fab.rigs := rfl
@[simp] theorem State.setReg_fab_sets (s : State) (k r : Nat) (v : Word) : (s.setReg k r v).fab.sets = s.fab.sets := rfl
@[simp] theorem State.setReg_fab_serial (s : State) (k r : Nat) (v : Word) : (s.setReg k r v).fab.serial = s.fab.serial := rfl
@[simp] theorem State.thread_setReg (s : State) (k r : Nat) (v : Word) (i : Nat) : (s.setReg k r v).thread i = s.thread i := rfl
@[simp] theorem State.yard_setReg (s : State) (k r : Nat) (v : Word) (i : Nat) : (s.setReg k r v).yard i = s.yard i := rfl
@[simp] theorem State.part_setReg (s : State) (k r : Nat) (v : Word) (i : Nat) : (s.setReg k r v).part i = s.part i := rfl
@[simp] theorem State.core_setReg (s : State) (k r : Nat) (v : Word) (i : Nat) : (s.setReg k r v).core i = s.core i := rfl
@[simp] theorem State.rig_setReg (s : State) (k r : Nat) (v : Word) (i : Nat) : (s.setReg k r v).rig i = s.rig i := rfl
@[simp] theorem State.ctx_setReg (s : State) (k r : Nat) (v : Word) (i : Nat) : (s.setReg k r v).ctx i = s.ctx i := rfl

/-! ### setSideb -/

@[simp] theorem State.setSideb_agenda (s : State) (y r o : Nat) (b : Byte) : (s.setSideb y r o b).agenda = s.agenda := rfl
@[simp] theorem State.setSideb_focus (s : State) (y r o : Nat) (b : Byte) : (s.setSideb y r o b).focus = s.focus := rfl
@[simp] theorem State.setSideb_fresh (s : State) (y r o : Nat) (b : Byte) : (s.setSideb y r o b).fresh = s.fresh := rfl
@[simp] theorem State.setSideb_fitX (s : State) (y r o : Nat) (b : Byte) : (s.setSideb y r o b).fitX = s.fitX := rfl
@[simp] theorem State.setSideb_now (s : State) (y r o : Nat) (b : Byte) : (s.setSideb y r o b).now = s.now := rfl
@[simp] theorem State.setSideb_ticks (s : State) (y r o : Nat) (b : Byte) : (s.setSideb y r o b).ticks = s.ticks := rfl
@[simp] theorem State.setSideb_mem (s : State) (y r o : Nat) (b : Byte) : (s.setSideb y r o b).mem = s.mem := rfl
@[simp] theorem State.setSideb_ctxs (s : State) (y r o : Nat) (b : Byte) : (s.setSideb y r o b).ctxs = s.ctxs := rfl
@[simp] theorem State.setSideb_eng (s : State) (y r o : Nat) (b : Byte) : (s.setSideb y r o b).eng = s.eng := rfl
@[simp] theorem State.setSideb_trust (s : State) (y r o : Nat) (b : Byte) : (s.setSideb y r o b).trust = s.trust := rfl
@[simp] theorem State.setSideb_status (s : State) (y r o : Nat) (b : Byte) : (s.setSideb y r o b).status = s.status := rfl
@[simp] theorem State.setSideb_kick (s : State) (y r o : Nat) (b : Byte) : (s.setSideb y r o b).kick = s.kick := rfl
@[simp] theorem State.setSideb_power (s : State) (y r o : Nat) (b : Byte) : (s.setSideb y r o b).power = s.power := rfl
@[simp] theorem State.setSideb_out (s : State) (y r o : Nat) (b : Byte) : (s.setSideb y r o b).out = s.out := rfl
@[simp] theorem State.setSideb_fab_threads (s : State) (y r o : Nat) (b : Byte) : (s.setSideb y r o b).fab.threads = s.fab.threads := rfl
@[simp] theorem State.setSideb_fab_main (s : State) (y r o : Nat) (b : Byte) : (s.setSideb y r o b).fab.main = s.fab.main := rfl
@[simp] theorem State.setSideb_fab_side (s : State) (y r o : Nat) (b : Byte) : (s.setSideb y r o b).fab.side = Map.set s.fab.side ((y * 256 + r) * 8 + o) b := rfl
@[simp] theorem State.setSideb_fab_yards (s : State) (y r o : Nat) (b : Byte) : (s.setSideb y r o b).fab.yards = s.fab.yards := rfl
@[simp] theorem State.setSideb_fab_parts (s : State) (y r o : Nat) (b : Byte) : (s.setSideb y r o b).fab.parts = s.fab.parts := rfl
@[simp] theorem State.setSideb_fab_cores (s : State) (y r o : Nat) (b : Byte) : (s.setSideb y r o b).fab.cores = s.fab.cores := rfl
@[simp] theorem State.setSideb_fab_rigs (s : State) (y r o : Nat) (b : Byte) : (s.setSideb y r o b).fab.rigs = s.fab.rigs := rfl
@[simp] theorem State.setSideb_fab_sets (s : State) (y r o : Nat) (b : Byte) : (s.setSideb y r o b).fab.sets = s.fab.sets := rfl
@[simp] theorem State.setSideb_fab_serial (s : State) (y r o : Nat) (b : Byte) : (s.setSideb y r o b).fab.serial = s.fab.serial := rfl
@[simp] theorem State.thread_setSideb (s : State) (y r o : Nat) (b : Byte) (i : Nat) : (s.setSideb y r o b).thread i = s.thread i := rfl
@[simp] theorem State.yard_setSideb (s : State) (y r o : Nat) (b : Byte) (i : Nat) : (s.setSideb y r o b).yard i = s.yard i := rfl
@[simp] theorem State.part_setSideb (s : State) (y r o : Nat) (b : Byte) (i : Nat) : (s.setSideb y r o b).part i = s.part i := rfl
@[simp] theorem State.core_setSideb (s : State) (y r o : Nat) (b : Byte) (i : Nat) : (s.setSideb y r o b).core i = s.core i := rfl
@[simp] theorem State.rig_setSideb (s : State) (y r o : Nat) (b : Byte) (i : Nat) : (s.setSideb y r o b).rig i = s.rig i := rfl
@[simp] theorem State.ctx_setSideb (s : State) (y r o : Nat) (b : Byte) (i : Nat) : (s.setSideb y r o b).ctx i = s.ctx i := rfl
@[simp] theorem State.reg_setSideb (s : State) (y r o : Nat) (b : Byte) (i j : Nat) : (s.setSideb y r o b).reg i j = s.reg i j := rfl

/-! ### updLanes -/

@[simp] theorem State.updLanes_agenda (s : State) (ks : List Nat) (f : Nat → Thread → Thread) : (s.updLanes ks f).agenda = s.agenda := rfl
@[simp] theorem State.updLanes_focus (s : State) (ks : List Nat) (f : Nat → Thread → Thread) : (s.updLanes ks f).focus = s.focus := rfl
@[simp] theorem State.updLanes_fresh (s : State) (ks : List Nat) (f : Nat → Thread → Thread) : (s.updLanes ks f).fresh = s.fresh := rfl
@[simp] theorem State.updLanes_fitX (s : State) (ks : List Nat) (f : Nat → Thread → Thread) : (s.updLanes ks f).fitX = s.fitX := rfl
@[simp] theorem State.updLanes_now (s : State) (ks : List Nat) (f : Nat → Thread → Thread) : (s.updLanes ks f).now = s.now := rfl
@[simp] theorem State.updLanes_ticks (s : State) (ks : List Nat) (f : Nat → Thread → Thread) : (s.updLanes ks f).ticks = s.ticks := rfl
@[simp] theorem State.updLanes_mem (s : State) (ks : List Nat) (f : Nat → Thread → Thread) : (s.updLanes ks f).mem = s.mem := rfl
@[simp] theorem State.updLanes_ctxs (s : State) (ks : List Nat) (f : Nat → Thread → Thread) : (s.updLanes ks f).ctxs = s.ctxs := rfl
@[simp] theorem State.updLanes_eng (s : State) (ks : List Nat) (f : Nat → Thread → Thread) : (s.updLanes ks f).eng = s.eng := rfl
@[simp] theorem State.updLanes_trust (s : State) (ks : List Nat) (f : Nat → Thread → Thread) : (s.updLanes ks f).trust = s.trust := rfl
@[simp] theorem State.updLanes_status (s : State) (ks : List Nat) (f : Nat → Thread → Thread) : (s.updLanes ks f).status = s.status := rfl
@[simp] theorem State.updLanes_kick (s : State) (ks : List Nat) (f : Nat → Thread → Thread) : (s.updLanes ks f).kick = s.kick := rfl
@[simp] theorem State.updLanes_power (s : State) (ks : List Nat) (f : Nat → Thread → Thread) : (s.updLanes ks f).power = s.power := rfl
@[simp] theorem State.updLanes_out (s : State) (ks : List Nat) (f : Nat → Thread → Thread) : (s.updLanes ks f).out = s.out := rfl
@[simp] theorem State.updLanes_fab_threads (s : State) (ks : List Nat) (f : Nat → Thread → Thread) : (s.updLanes ks f).fab.threads = Map.mapVals (fun k t => if ks.contains k then f k t else t) s.fab.threads := rfl
@[simp] theorem State.updLanes_fab_main (s : State) (ks : List Nat) (f : Nat → Thread → Thread) : (s.updLanes ks f).fab.main = s.fab.main := rfl
@[simp] theorem State.updLanes_fab_side (s : State) (ks : List Nat) (f : Nat → Thread → Thread) : (s.updLanes ks f).fab.side = s.fab.side := rfl
@[simp] theorem State.updLanes_fab_yards (s : State) (ks : List Nat) (f : Nat → Thread → Thread) : (s.updLanes ks f).fab.yards = s.fab.yards := rfl
@[simp] theorem State.updLanes_fab_parts (s : State) (ks : List Nat) (f : Nat → Thread → Thread) : (s.updLanes ks f).fab.parts = s.fab.parts := rfl
@[simp] theorem State.updLanes_fab_cores (s : State) (ks : List Nat) (f : Nat → Thread → Thread) : (s.updLanes ks f).fab.cores = s.fab.cores := rfl
@[simp] theorem State.updLanes_fab_rigs (s : State) (ks : List Nat) (f : Nat → Thread → Thread) : (s.updLanes ks f).fab.rigs = s.fab.rigs := rfl
@[simp] theorem State.updLanes_fab_sets (s : State) (ks : List Nat) (f : Nat → Thread → Thread) : (s.updLanes ks f).fab.sets = s.fab.sets := rfl
@[simp] theorem State.updLanes_fab_serial (s : State) (ks : List Nat) (f : Nat → Thread → Thread) : (s.updLanes ks f).fab.serial = s.fab.serial := rfl
@[simp] theorem State.yard_updLanes (s : State) (ks : List Nat) (f : Nat → Thread → Thread) (i : Nat) : (s.updLanes ks f).yard i = s.yard i := rfl
@[simp] theorem State.part_updLanes (s : State) (ks : List Nat) (f : Nat → Thread → Thread) (i : Nat) : (s.updLanes ks f).part i = s.part i := rfl
@[simp] theorem State.core_updLanes (s : State) (ks : List Nat) (f : Nat → Thread → Thread) (i : Nat) : (s.updLanes ks f).core i = s.core i := rfl
@[simp] theorem State.rig_updLanes (s : State) (ks : List Nat) (f : Nat → Thread → Thread) (i : Nat) : (s.updLanes ks f).rig i = s.rig i := rfl
@[simp] theorem State.ctx_updLanes (s : State) (ks : List Nat) (f : Nat → Thread → Thread) (i : Nat) : (s.updLanes ks f).ctx i = s.ctx i := rfl
@[simp] theorem State.reg_updLanes (s : State) (ks : List Nat) (f : Nat → Thread → Thread) (i j : Nat) : (s.updLanes ks f).reg i j = s.reg i j := rfl

/-! ### bumpSerial -/

@[simp] theorem State.bumpSerial_agenda (s : State) : (s.bumpSerial).agenda = s.agenda := rfl
@[simp] theorem State.bumpSerial_focus (s : State) : (s.bumpSerial).focus = s.focus := rfl
@[simp] theorem State.bumpSerial_fresh (s : State) : (s.bumpSerial).fresh = s.fresh := rfl
@[simp] theorem State.bumpSerial_fitX (s : State) : (s.bumpSerial).fitX = s.fitX := rfl
@[simp] theorem State.bumpSerial_now (s : State) : (s.bumpSerial).now = s.now := rfl
@[simp] theorem State.bumpSerial_ticks (s : State) : (s.bumpSerial).ticks = s.ticks := rfl
@[simp] theorem State.bumpSerial_mem (s : State) : (s.bumpSerial).mem = s.mem := rfl
@[simp] theorem State.bumpSerial_ctxs (s : State) : (s.bumpSerial).ctxs = s.ctxs := rfl
@[simp] theorem State.bumpSerial_eng (s : State) : (s.bumpSerial).eng = s.eng := rfl
@[simp] theorem State.bumpSerial_trust (s : State) : (s.bumpSerial).trust = s.trust := rfl
@[simp] theorem State.bumpSerial_status (s : State) : (s.bumpSerial).status = s.status := rfl
@[simp] theorem State.bumpSerial_kick (s : State) : (s.bumpSerial).kick = s.kick := rfl
@[simp] theorem State.bumpSerial_power (s : State) : (s.bumpSerial).power = s.power := rfl
@[simp] theorem State.bumpSerial_out (s : State) : (s.bumpSerial).out = s.out := rfl
@[simp] theorem State.bumpSerial_fab_threads (s : State) : (s.bumpSerial).fab.threads = s.fab.threads := rfl
@[simp] theorem State.bumpSerial_fab_main (s : State) : (s.bumpSerial).fab.main = s.fab.main := rfl
@[simp] theorem State.bumpSerial_fab_side (s : State) : (s.bumpSerial).fab.side = s.fab.side := rfl
@[simp] theorem State.bumpSerial_fab_yards (s : State) : (s.bumpSerial).fab.yards = s.fab.yards := rfl
@[simp] theorem State.bumpSerial_fab_parts (s : State) : (s.bumpSerial).fab.parts = s.fab.parts := rfl
@[simp] theorem State.bumpSerial_fab_cores (s : State) : (s.bumpSerial).fab.cores = s.fab.cores := rfl
@[simp] theorem State.bumpSerial_fab_rigs (s : State) : (s.bumpSerial).fab.rigs = s.fab.rigs := rfl
@[simp] theorem State.bumpSerial_fab_sets (s : State) : (s.bumpSerial).fab.sets = s.fab.sets := rfl
@[simp] theorem State.bumpSerial_fab_serial (s : State) : (s.bumpSerial).fab.serial = s.fab.serial + 1 := rfl
@[simp] theorem State.thread_bumpSerial (s : State) (i : Nat) : (s.bumpSerial).thread i = s.thread i := rfl
@[simp] theorem State.yard_bumpSerial (s : State) (i : Nat) : (s.bumpSerial).yard i = s.yard i := rfl
@[simp] theorem State.part_bumpSerial (s : State) (i : Nat) : (s.bumpSerial).part i = s.part i := rfl
@[simp] theorem State.core_bumpSerial (s : State) (i : Nat) : (s.bumpSerial).core i = s.core i := rfl
@[simp] theorem State.rig_bumpSerial (s : State) (i : Nat) : (s.bumpSerial).rig i = s.rig i := rfl
@[simp] theorem State.ctx_bumpSerial (s : State) (i : Nat) : (s.bumpSerial).ctx i = s.ctx i := rfl
@[simp] theorem State.reg_bumpSerial (s : State) (i j : Nat) : (s.bumpSerial).reg i j = s.reg i j := rfl

/-! ### setCtx -/

@[simp] theorem State.setCtx_agenda (s : State) (c : Nat) (v : Context) : (s.setCtx c v).agenda = s.agenda := rfl
@[simp] theorem State.setCtx_focus (s : State) (c : Nat) (v : Context) : (s.setCtx c v).focus = s.focus := rfl
@[simp] theorem State.setCtx_fresh (s : State) (c : Nat) (v : Context) : (s.setCtx c v).fresh = s.fresh := rfl
@[simp] theorem State.setCtx_fitX (s : State) (c : Nat) (v : Context) : (s.setCtx c v).fitX = s.fitX := rfl
@[simp] theorem State.setCtx_now (s : State) (c : Nat) (v : Context) : (s.setCtx c v).now = s.now := rfl
@[simp] theorem State.setCtx_ticks (s : State) (c : Nat) (v : Context) : (s.setCtx c v).ticks = s.ticks := rfl
@[simp] theorem State.setCtx_fab (s : State) (c : Nat) (v : Context) : (s.setCtx c v).fab = s.fab := rfl
@[simp] theorem State.setCtx_mem (s : State) (c : Nat) (v : Context) : (s.setCtx c v).mem = s.mem := rfl
@[simp] theorem State.setCtx_ctxs (s : State) (c : Nat) (v : Context) : (s.setCtx c v).ctxs = Map.set s.ctxs c v := rfl
@[simp] theorem State.setCtx_eng (s : State) (c : Nat) (v : Context) : (s.setCtx c v).eng = s.eng := rfl
@[simp] theorem State.setCtx_trust (s : State) (c : Nat) (v : Context) : (s.setCtx c v).trust = s.trust := rfl
@[simp] theorem State.setCtx_status (s : State) (c : Nat) (v : Context) : (s.setCtx c v).status = s.status := rfl
@[simp] theorem State.setCtx_kick (s : State) (c : Nat) (v : Context) : (s.setCtx c v).kick = s.kick := rfl
@[simp] theorem State.setCtx_power (s : State) (c : Nat) (v : Context) : (s.setCtx c v).power = s.power := rfl
@[simp] theorem State.setCtx_out (s : State) (c : Nat) (v : Context) : (s.setCtx c v).out = s.out := rfl
@[simp] theorem State.thread_setCtx (s : State) (c : Nat) (v : Context) (i : Nat) : (s.setCtx c v).thread i = s.thread i := rfl
@[simp] theorem State.yard_setCtx (s : State) (c : Nat) (v : Context) (i : Nat) : (s.setCtx c v).yard i = s.yard i := rfl
@[simp] theorem State.part_setCtx (s : State) (c : Nat) (v : Context) (i : Nat) : (s.setCtx c v).part i = s.part i := rfl
@[simp] theorem State.core_setCtx (s : State) (c : Nat) (v : Context) (i : Nat) : (s.setCtx c v).core i = s.core i := rfl
@[simp] theorem State.rig_setCtx (s : State) (c : Nat) (v : Context) (i : Nat) : (s.setCtx c v).rig i = s.rig i := rfl
@[simp] theorem State.reg_setCtx (s : State) (c : Nat) (v : Context) (i j : Nat) : (s.setCtx c v).reg i j = s.reg i j := rfl

/-! ### setMem -/

@[simp] theorem State.setMem_agenda (s : State) (m : Mem) : (s.setMem m).agenda = s.agenda := rfl
@[simp] theorem State.setMem_focus (s : State) (m : Mem) : (s.setMem m).focus = s.focus := rfl
@[simp] theorem State.setMem_fresh (s : State) (m : Mem) : (s.setMem m).fresh = s.fresh := rfl
@[simp] theorem State.setMem_fitX (s : State) (m : Mem) : (s.setMem m).fitX = s.fitX := rfl
@[simp] theorem State.setMem_now (s : State) (m : Mem) : (s.setMem m).now = s.now := rfl
@[simp] theorem State.setMem_ticks (s : State) (m : Mem) : (s.setMem m).ticks = s.ticks := rfl
@[simp] theorem State.setMem_fab (s : State) (m : Mem) : (s.setMem m).fab = s.fab := rfl
@[simp] theorem State.setMem_mem (s : State) (m : Mem) : (s.setMem m).mem = m := rfl
@[simp] theorem State.setMem_ctxs (s : State) (m : Mem) : (s.setMem m).ctxs = s.ctxs := rfl
@[simp] theorem State.setMem_eng (s : State) (m : Mem) : (s.setMem m).eng = s.eng := rfl
@[simp] theorem State.setMem_trust (s : State) (m : Mem) : (s.setMem m).trust = s.trust := rfl
@[simp] theorem State.setMem_status (s : State) (m : Mem) : (s.setMem m).status = s.status := rfl
@[simp] theorem State.setMem_kick (s : State) (m : Mem) : (s.setMem m).kick = s.kick := rfl
@[simp] theorem State.setMem_power (s : State) (m : Mem) : (s.setMem m).power = s.power := rfl
@[simp] theorem State.setMem_out (s : State) (m : Mem) : (s.setMem m).out = s.out := rfl
@[simp] theorem State.thread_setMem (s : State) (m : Mem) (i : Nat) : (s.setMem m).thread i = s.thread i := rfl
@[simp] theorem State.yard_setMem (s : State) (m : Mem) (i : Nat) : (s.setMem m).yard i = s.yard i := rfl
@[simp] theorem State.part_setMem (s : State) (m : Mem) (i : Nat) : (s.setMem m).part i = s.part i := rfl
@[simp] theorem State.core_setMem (s : State) (m : Mem) (i : Nat) : (s.setMem m).core i = s.core i := rfl
@[simp] theorem State.rig_setMem (s : State) (m : Mem) (i : Nat) : (s.setMem m).rig i = s.rig i := rfl
@[simp] theorem State.ctx_setMem (s : State) (m : Mem) (i : Nat) : (s.setMem m).ctx i = s.ctx i := rfl
@[simp] theorem State.reg_setMem (s : State) (m : Mem) (i j : Nat) : (s.setMem m).reg i j = s.reg i j := rfl

/-! ### setEng -/

@[simp] theorem State.setEng_agenda (s : State) (e : Engines) : (s.setEng e).agenda = s.agenda := rfl
@[simp] theorem State.setEng_focus (s : State) (e : Engines) : (s.setEng e).focus = s.focus := rfl
@[simp] theorem State.setEng_fresh (s : State) (e : Engines) : (s.setEng e).fresh = s.fresh := rfl
@[simp] theorem State.setEng_fitX (s : State) (e : Engines) : (s.setEng e).fitX = s.fitX := rfl
@[simp] theorem State.setEng_now (s : State) (e : Engines) : (s.setEng e).now = s.now := rfl
@[simp] theorem State.setEng_ticks (s : State) (e : Engines) : (s.setEng e).ticks = s.ticks := rfl
@[simp] theorem State.setEng_fab (s : State) (e : Engines) : (s.setEng e).fab = s.fab := rfl
@[simp] theorem State.setEng_mem (s : State) (e : Engines) : (s.setEng e).mem = s.mem := rfl
@[simp] theorem State.setEng_ctxs (s : State) (e : Engines) : (s.setEng e).ctxs = s.ctxs := rfl
@[simp] theorem State.setEng_eng (s : State) (e : Engines) : (s.setEng e).eng = e := rfl
@[simp] theorem State.setEng_trust (s : State) (e : Engines) : (s.setEng e).trust = s.trust := rfl
@[simp] theorem State.setEng_status (s : State) (e : Engines) : (s.setEng e).status = s.status := rfl
@[simp] theorem State.setEng_kick (s : State) (e : Engines) : (s.setEng e).kick = s.kick := rfl
@[simp] theorem State.setEng_power (s : State) (e : Engines) : (s.setEng e).power = s.power := rfl
@[simp] theorem State.setEng_out (s : State) (e : Engines) : (s.setEng e).out = s.out := rfl
@[simp] theorem State.thread_setEng (s : State) (e : Engines) (i : Nat) : (s.setEng e).thread i = s.thread i := rfl
@[simp] theorem State.yard_setEng (s : State) (e : Engines) (i : Nat) : (s.setEng e).yard i = s.yard i := rfl
@[simp] theorem State.part_setEng (s : State) (e : Engines) (i : Nat) : (s.setEng e).part i = s.part i := rfl
@[simp] theorem State.core_setEng (s : State) (e : Engines) (i : Nat) : (s.setEng e).core i = s.core i := rfl
@[simp] theorem State.rig_setEng (s : State) (e : Engines) (i : Nat) : (s.setEng e).rig i = s.rig i := rfl
@[simp] theorem State.ctx_setEng (s : State) (e : Engines) (i : Nat) : (s.setEng e).ctx i = s.ctx i := rfl
@[simp] theorem State.reg_setEng (s : State) (e : Engines) (i j : Nat) : (s.setEng e).reg i j = s.reg i j := rfl

/-! ### setTrust -/

@[simp] theorem State.setTrust_agenda (s : State) (t : TrustSt) : (s.setTrust t).agenda = s.agenda := rfl
@[simp] theorem State.setTrust_focus (s : State) (t : TrustSt) : (s.setTrust t).focus = s.focus := rfl
@[simp] theorem State.setTrust_fresh (s : State) (t : TrustSt) : (s.setTrust t).fresh = s.fresh := rfl
@[simp] theorem State.setTrust_fitX (s : State) (t : TrustSt) : (s.setTrust t).fitX = s.fitX := rfl
@[simp] theorem State.setTrust_now (s : State) (t : TrustSt) : (s.setTrust t).now = s.now := rfl
@[simp] theorem State.setTrust_ticks (s : State) (t : TrustSt) : (s.setTrust t).ticks = s.ticks := rfl
@[simp] theorem State.setTrust_fab (s : State) (t : TrustSt) : (s.setTrust t).fab = s.fab := rfl
@[simp] theorem State.setTrust_mem (s : State) (t : TrustSt) : (s.setTrust t).mem = s.mem := rfl
@[simp] theorem State.setTrust_ctxs (s : State) (t : TrustSt) : (s.setTrust t).ctxs = s.ctxs := rfl
@[simp] theorem State.setTrust_eng (s : State) (t : TrustSt) : (s.setTrust t).eng = s.eng := rfl
@[simp] theorem State.setTrust_trust (s : State) (t : TrustSt) : (s.setTrust t).trust = t := rfl
@[simp] theorem State.setTrust_status (s : State) (t : TrustSt) : (s.setTrust t).status = s.status := rfl
@[simp] theorem State.setTrust_kick (s : State) (t : TrustSt) : (s.setTrust t).kick = s.kick := rfl
@[simp] theorem State.setTrust_power (s : State) (t : TrustSt) : (s.setTrust t).power = s.power := rfl
@[simp] theorem State.setTrust_out (s : State) (t : TrustSt) : (s.setTrust t).out = s.out := rfl
@[simp] theorem State.thread_setTrust (s : State) (t : TrustSt) (i : Nat) : (s.setTrust t).thread i = s.thread i := rfl
@[simp] theorem State.yard_setTrust (s : State) (t : TrustSt) (i : Nat) : (s.setTrust t).yard i = s.yard i := rfl
@[simp] theorem State.part_setTrust (s : State) (t : TrustSt) (i : Nat) : (s.setTrust t).part i = s.part i := rfl
@[simp] theorem State.core_setTrust (s : State) (t : TrustSt) (i : Nat) : (s.setTrust t).core i = s.core i := rfl
@[simp] theorem State.rig_setTrust (s : State) (t : TrustSt) (i : Nat) : (s.setTrust t).rig i = s.rig i := rfl
@[simp] theorem State.ctx_setTrust (s : State) (t : TrustSt) (i : Nat) : (s.setTrust t).ctx i = s.ctx i := rfl
@[simp] theorem State.reg_setTrust (s : State) (t : TrustSt) (i j : Nat) : (s.setTrust t).reg i j = s.reg i j := rfl

/-! ### send -/

@[simp] theorem State.send_agenda (s : State) (m : Msg) : (s.send m).agenda = s.agenda := rfl
@[simp] theorem State.send_focus (s : State) (m : Msg) : (s.send m).focus = s.focus := rfl
@[simp] theorem State.send_fresh (s : State) (m : Msg) : (s.send m).fresh = s.fresh := rfl
@[simp] theorem State.send_fitX (s : State) (m : Msg) : (s.send m).fitX = s.fitX := rfl
@[simp] theorem State.send_now (s : State) (m : Msg) : (s.send m).now = s.now := rfl
@[simp] theorem State.send_ticks (s : State) (m : Msg) : (s.send m).ticks = s.ticks := rfl
@[simp] theorem State.send_fab (s : State) (m : Msg) : (s.send m).fab = s.fab := rfl
@[simp] theorem State.send_mem (s : State) (m : Msg) : (s.send m).mem = s.mem := rfl
@[simp] theorem State.send_ctxs (s : State) (m : Msg) : (s.send m).ctxs = s.ctxs := rfl
@[simp] theorem State.send_eng (s : State) (m : Msg) : (s.send m).eng = s.eng := rfl
@[simp] theorem State.send_trust (s : State) (m : Msg) : (s.send m).trust = s.trust := rfl
@[simp] theorem State.send_status (s : State) (m : Msg) : (s.send m).status = s.status := rfl
@[simp] theorem State.send_kick (s : State) (m : Msg) : (s.send m).kick = s.kick := rfl
@[simp] theorem State.send_power (s : State) (m : Msg) : (s.send m).power = s.power := rfl
@[simp] theorem State.send_out (s : State) (m : Msg) : (s.send m).out = m :: s.out := rfl
@[simp] theorem State.thread_send (s : State) (m : Msg) (i : Nat) : (s.send m).thread i = s.thread i := rfl
@[simp] theorem State.yard_send (s : State) (m : Msg) (i : Nat) : (s.send m).yard i = s.yard i := rfl
@[simp] theorem State.part_send (s : State) (m : Msg) (i : Nat) : (s.send m).part i = s.part i := rfl
@[simp] theorem State.core_send (s : State) (m : Msg) (i : Nat) : (s.send m).core i = s.core i := rfl
@[simp] theorem State.rig_send (s : State) (m : Msg) (i : Nat) : (s.send m).rig i = s.rig i := rfl
@[simp] theorem State.ctx_send (s : State) (m : Msg) (i : Nat) : (s.send m).ctx i = s.ctx i := rfl
@[simp] theorem State.reg_send (s : State) (m : Msg) (i j : Nat) : (s.send m).reg i j = s.reg i j := rfl

/-! ### Reading what was written -/

theorem State.thread_setThread (s : State) (k j : Nat) (t : Thread) : (s.setThread k t).thread j = if j = k then t else s.thread j := by
  simp [State.thread, Map.getD_set]
theorem State.yard_setYard (s : State) (k j : Nat) (v : Yard) : (s.setYard k v).yard j = if j = k then v else s.yard j := by
  simp [State.yard, Map.getD_set]
theorem State.part_setPart (s : State) (k j : Nat) (v : Part) : (s.setPart k v).part j = if j = k then v else s.part j := by
  simp [State.part, Map.getD_set]
theorem State.core_setCore (s : State) (k j : Nat) (v : Core) : (s.setCore k v).core j = if j = k then v else s.core j := by
  simp [State.core, Map.getD_set]
theorem State.rig_setRig (s : State) (k j : Nat) (v : Rig) : (s.setRig k v).rig j = if j = k then v else s.rig j := by
  simp [State.rig, Map.getD_set]
theorem State.ctx_setCtx (s : State) (k j : Nat) (v : Context) : (s.setCtx k v).ctx j = if j = k then v else s.ctx j := by
  simp [State.ctx, Map.getD_set]
@[simp] theorem State.thread_setThread_same (s : State) (k : Nat) (t : Thread) : (s.setThread k t).thread k = t := by
  simp [State.thread_setThread]
@[simp] theorem State.yard_setYard_same (s : State) (k : Nat) (v : Yard) : (s.setYard k v).yard k = v := by
  simp [State.yard_setYard]
@[simp] theorem State.part_setPart_same (s : State) (k : Nat) (v : Part) : (s.setPart k v).part k = v := by
  simp [State.part_setPart]
@[simp] theorem State.core_setCore_same (s : State) (k : Nat) (v : Core) : (s.setCore k v).core k = v := by
  simp [State.core_setCore]
@[simp] theorem State.rig_setRig_same (s : State) (k : Nat) (v : Rig) : (s.setRig k v).rig k = v := by
  simp [State.rig_setRig]
@[simp] theorem State.ctx_setCtx_same (s : State) (k : Nat) (v : Context) : (s.setCtx k v).ctx k = v := by
  simp [State.ctx_setCtx]
@[simp] theorem State.setMem_self (s : State) : s.setMem s.mem = s := rfl

end Sys2Proof.Machine
end

