-- ==== Sys2Proof/Laws/Words.lean ====
section
/-! SUPPORT. What the shared operations of words do: one lemma for each, which proofs about a word cite. -/

namespace Sys2Proof.Machine

/-! ### Threads of a group -/

theorem State.updLanes_same (s : State) (ks : List Nat) (f : Nat → Thread → Thread) (h : ∀ k t, f k t = t) :
    s.updLanes ks f = s := by
  simp [State.updLanes, Map.mapVals, h]

theorem State.updLanes_congr (s : State) (ks : List Nat) (f f' : Nat → Thread → Thread) (h : ∀ k ∈ ks, ∀ t, f k t = f' k t) :
    s.updLanes ks f = s.updLanes ks f' := by
  simp only [State.updLanes, Map.mapVals]
  congr 3
  funext p
  by_cases hk : p.1 ∈ ks
  · simp [hk, h]
  · simp [hk]

/-- A thread after all of a group's threads have been changed at once. -/
theorem State.thread_updLanes (s : State) (ks : List Nat) (f : Nat → Thread → Thread) (k : Nat)
    (h : (Map.find? s.fab.threads k).isSome ∨ k ∉ ks) :
    (s.updLanes ks f).thread k = if k ∈ ks then f k (s.thread k) else s.thread k := by
  simp only [State.thread, Map.getD, State.updLanes_fab_threads, Map.find?_mapVals]
  cases hm : Map.find? s.fab.threads k with
  | none => rcases h with h | h <;> simp_all
  | some t => by_cases hk : k ∈ ks <;> simp [hk]

/-- A thread of the group stands in the table of threads. -/
theorem State.listed_of_here {s : State} {k : Nat} (h : k ∈ s.here.lanes) : (Map.find? s.fab.threads k).isSome := by
  unfold State.here at h
  split at h
  · simp at h
  · simp only [List.mem_filter, Bool.and_eq_true, beq_iff_eq] at h
    have h1 := h.2.1
    simp only [State.thread, Map.getD] at h1
    cases hm : Map.find? s.fab.threads k with
    | none => rw [hm] at h1; simp [Thread.init] at h1
    | some t => simp

theorem State.active_sub {s : State} {g : BitVec 3} {k : Nat} (h : k ∈ s.active s.here g) : k ∈ s.here.lanes := by
  simp only [State.active, List.mem_filter] at h; exact h.1

theorem State.mem_active {s : State} {g : BitVec 3} {k : Nat} :
    k ∈ s.active s.here g ↔ k ∈ s.here.lanes ∧ (s.thread k).guard g = true := by
  simp [State.active]

/-! ### Reading operands -/

theorem ReadAll.cons_ok {r : Read} {a : ReadAll} {ws : List Word} (h : ReadAll.cons r a = .ok ws) :
    ∃ w rest, r = .ok w ∧ a = .ok rest ∧ ws = w :: rest := by
  cases r <;> cases a <;> simp_all [ReadAll.cons]

theorem State.readCodes_ok_mem {s : State} {k : Nat} {lit : Word} {codes : List (BitVec 5)} {ws : List Word}
    (h : s.readCodes k lit codes = .ok ws) : ∀ c ∈ codes, ∃ w, s.readCode k lit c = .ok w := by
  induction codes generalizing ws with
  | nil => simp
  | cons c cs ih =>
    obtain ⟨w, rest, h1, h2, -⟩ := ReadAll.cons_ok h
    intro x hx
    rcases List.mem_cons.mp hx with rfl | hx
    · exact ⟨w, h1⟩
    · exact ih h2 x hx

/-- An operand that reads with a value is in no register with a pending tag: nothing is joined. -/
theorem State.joinCode_of_ok {s : State} {k : Nat} {lit : Word} {c : BitVec 5} {w : Word} (h : s.readCode k lit c = .ok w)
    (hc : c.toNat < 16) (r : Nat) (hr : (s.thread k).slotReg c.toNat = some r) : s.joinReg k r = s := by
  simp only [State.readCode, hc, ↓reduceIte, Thread.readSlot] at h
  simp only [Thread.slotReg] at hr
  split at h
  · simp at h
  · rename_i v hv
    rw [hv] at hr
    by_cases hn : v.reg == noReg
    · simp [hn] at h
    · simp only [hn, Bool.false_eq_true, ↓reduceIte, Option.some.injEq] at hr
      simp only [hn, Bool.false_eq_true, ↓reduceIte] at h
      subst hr
      split at h
      · simp at h
      · rename_i h3
        simp [State.joinReg, h3]

theorem foldl_same {α β : Type} (f : α → β → α) (l : List β) (a : α) (h : ∀ x ∈ l, f a x = a) : l.foldl f a = a := by
  induction l with
  | nil => rfl
  | cons x r ih =>
    simp only [List.foldl_cons]
    rw [h x (by simp)]
    exact ih fun y hy => h y (by simp [hy])

theorem State.joinCodes_of_ok {s : State} {k : Nat} {lit : Word} {codes : List (BitVec 5)} {ws : List Word}
    (h : s.readCodes k lit codes = .ok ws) : s.joinCodes k codes = s := by
  apply foldl_same
  intro c hc
  obtain ⟨w, hw⟩ := State.readCodes_ok_mem h c hc
  unfold State.joinCode
  split
  · rename_i h16
    split
    · rfl
    · rename_i r hr
      exact State.joinCode_of_ok hw h16 r hr
  · rfl

theorem State.joinAll_of_ok {s : State} {lit : Word} {codes : List (BitVec 5)} {ks : List Nat} {rd : Nat → List Word}
    (h : ∀ k ∈ ks, s.readCodes k lit codes = .ok (rd k)) : ks.foldl (fun s k => s.joinCodes k codes) s = s :=
  foldl_same _ _ _ fun k hk => State.joinCodes_of_ok (h k hk)

/-- Lanes whose operands and destination are ready all read their values. -/
theorem State.laneIn_ok {s : State} {i : Instr} {codes : List (BitVec 5)} {lit : Word} {dst : Dst} {k : Nat} {ws : List Word}
    (h : s.readCodes k lit codes = .ok ws) (hd : (s.thread k).dstOk dst = true) : s.laneIn i codes lit dst k = .inl ws := by
  simp [State.laneIn, h, hd]

theorem readyLanes_map (ks : List Nat) (rd : Nat → List Word) :
    readyLanes (ks.map fun k => (k, (.inl (rd k) : List Word ⊕ LaneOut))) = ks.map fun k => (k, rd k) := by
  induction ks with
  | nil => rfl
  | cons k r ih => simp only [readyLanes, List.map_cons, List.filterMap_cons] at ih ⊢; rw [ih]

theorem stoppedLanes_map (ks : List Nat) (rd : Nat → List Word) :
    stoppedLanes (ks.map fun k => (k, (.inl (rd k) : List Word ⊕ LaneOut))) = [] := by
  induction ks with
  | nil => rfl
  | cons k r ih => simp only [stoppedLanes, List.map_cons, List.filterMap_cons] at ih ⊢; rw [ih]

/-- A word whose operands are ready is what its function makes of the values read, brought to the group. -/
theorem State.groupWord_ready {s : State} {i : Instr} {sc : BitVec 2} {g : BitVec 3} {codes : List (BitVec 5)} {lit : Word}
    {dst : Dst} {shift : Bool} {f : State → List (Nat × List Word) → State × List (Nat × LaneOut)} {rd : Nat → List Word}
    (hr : s.Reads g codes lit rd) (hd : ∀ k ∈ s.active s.here g, (s.thread k).dstOk dst = true) :
    s.groupWord i sc g codes lit dst shift f =
      (let r := f s ((s.active s.here g).map fun k => (k, rd k))
       if r.2.any (fun p => p.2 == .stall) then s.stalled s.here r.1
       else r.1.finish s.here (setKind (s.groupVersion s.here.lanes) sc) dst shift r.2) := by
  have hj := State.joinAll_of_ok (codes := codes) (lit := lit) (s := s) (rd := rd) hr
  have hl : (s.active s.here g).map (fun k => (k, s.laneIn i codes lit dst k)) =
      (s.active s.here g).map fun k => (k, (.inl (rd k) : List Word ⊕ LaneOut)) :=
    List.map_congr_left fun k hk => by rw [State.laneIn_ok (hr k hk) (hd k hk)]
  simp only [State.groupWord, hj, hl, readyLanes_map, stoppedLanes_map, List.nil_append]

/-! ### Bringing results to the group -/

/-- A lane that is done and takes no tag. -/
def Plain (o : LaneOut) : Prop := ∃ r : LaneRes, o = .done r ∧ r.tag = none

theorem State.dropTag_none {s : State} {k r : Nat} (h : ∀ p ∈ (s.thread k).tags, p.1 ≠ r) : s.dropTag k r = s := by
  have : (s.thread k).tags.find? (fun p => p.1 == r) = none := by
    rw [List.find?_eq_none]; intro p hp; simpa using h p hp
  simp [State.dropTag, this]

theorem State.raiseAt_nil (s : State) (kind : SetKind) : s.raiseAt kind [] = s := by
  cases kind <;> simp [State.raiseAt, firsts]

/-- Results that raise no trap, park no thread and meet no tag reach the threads of the group and nothing else. -/
theorem State.finish_plain {s : State} {h : Here} {kind : SetKind} {dst : Dst} {shift : Bool} {outs : List (Nat × LaneOut)}
    (hp : ∀ p ∈ outs, Plain p.2)
    (ht : ∀ p ∈ outs, ∀ r ∈ ((s.updLanes h.lanes fun k t => t.applyOut k dst shift outs (outOf outs k)).thread p.1).dstRegs dst,
      ∀ q ∈ ((s.updLanes h.lanes fun k t => t.applyOut k dst shift outs (outOf outs k)).thread p.1).tags, q.1 ≠ r) :
    s.finish h kind dst shift outs = s.updLanes h.lanes fun k t => t.applyOut k dst shift outs (outOf outs k) := by
  simp only [State.finish]
  generalize (s.updLanes h.lanes fun k t => t.applyOut k dst shift outs (outOf outs k)) = s1 at ht ⊢
  have e1 : outs.foldl (State.tagOut dst) s1 = s1 := by
    apply foldl_same
    intro p hpm
    obtain ⟨r, hr, htag⟩ := hp p hpm
    have e0 : ((s1.thread p.1).dstRegs dst).foldl (fun s x => s.dropTag p.1 x) s1 = s1 :=
      foldl_same _ _ _ fun x hx => State.dropTag_none (ht p hpm x hx)
    simp only [State.tagOut, hr, e0]
    split
    · rfl
    · simp [State.addTag, htag]
  have e2 : outs.foldl (State.parkOut h.w) s1 = s1 := by
    apply foldl_same
    intro p hpm
    obtain ⟨r, hr, -⟩ := hp p hpm
    simp [State.parkOut, hr]
  have e3 : trapsOf outs = [] := by
    simp only [trapsOf, List.filterMap_eq_nil_iff]
    intro p hpm
    obtain ⟨r, hr, -⟩ := hp p hpm
    simp [hr]
  rw [e1, e2, e3]
  simp [State.raise, State.raiseAt_nil]

/-! ### Words that are done in every active lane -/

/-- A lane that is done with results and flags. -/
def doneFl (vals : List Word) (fl : BitVec 5) : LaneOut := .done { vals := vals, ff := fl, sb := none, tag := none }

theorem doneWith_eq (vals : List Word) : doneWith vals = doneFl vals 0 := rfl
theorem doneFlags_eq (r : Word × FFlags) : doneFlags r = doneFl [r.1] r.2 := rfl

theorem outOf_map (ks : List Nat) (F : Nat → LaneOut) (k : Nat) :
    outOf (ks.map fun k => (k, F k)) k = if k ∈ ks then F k else .off := by
  simp only [outOf, List.find?_map, Function.comp_def]
  by_cases h : k ∈ ks
  · have : ks.find? (fun x => x == k) = some k := by
      rw [List.find?_eq_some_iff_append]
      obtain ⟨a, b, e, hn⟩ := List.append_of_mem h |>.elim fun a ⟨b, e⟩ => List.eq_append_cons_of_mem h
      exact ⟨by simp, a, b, e, fun x hx => by simp; rintro rfl; exact hn hx⟩
    simp [this, h]
  · have : ks.find? (fun x => x == k) = none := by
      rw [List.find?_eq_none]; intro x hx; simp; rintro rfl; exact h hx
    simp [this, h]

theorem octetByte_map (ks : List Nat) (v : Nat → List Word) (fl : Nat → BitVec 5) (k : Nat) :
    octetByte (ks.map fun k => (k, doneFl (v k) (fl k))) k = none := by
  simp only [octetByte, List.findSome?_map]
  rw [List.findSome?_eq_none_iff]
  intro x hx
  simp [doneFl]

theorem yardResult_map (ks : List Nat) (v : Nat → List Word) (fl : Nat → BitVec 5) (y : Nat) :
    yardResult (ks.map fun k => (k, doneFl (v k) (fl k))) y = (ks.find? fun k => yardOf k == y).map v := by
  induction ks with
  | nil => rfl
  | cons k r ih =>
    simp only [yardResult, List.map_cons, List.findSome?_cons, doneFl, List.find?_cons] at ih ⊢
    by_cases h : yardOf k == y
    · simp [h]
    · simp only [h, Bool.false_eq_true, ↓reduceIte]; exact ih

theorem Thread.putSb_none (t : Thread) (dst : Dst) : t.putSb dst none = t := by
  cases dst <;> rfl

/-- The registers that a word writes stay those that the region names. -/
theorem writeSlots_regs (vs : List VSlot) (i : Nat) (ws : List Word) :
    (writeSlots vs i ws).map (fun v => v.reg) = vs.map fun v => v.reg := by
  induction ws generalizing vs i with
  | nil => rfl
  | cons w r ih =>
    rw [writeSlots, ih, writeSlot]
    apply List.ext_getElem <;> simp
    intro n h1
    by_cases h : i = n <;> simp [h]

theorem Thread.applyOut_done (t : Thread) (k : Nat) (dst : Dst) (shift : Bool) (ks : List Nat) (v : Nat → List Word)
    (fl : Nat → BitVec 5) (hu : ∀ n d, dst ≠ .uni n d) (w : List Word) (x : BitVec 5) :
    t.applyOut k dst shift (ks.map fun k => (k, doneFl (v k) (fl k))) (doneFl w x) =
      { t.put dst shift w with ff := t.ff ||| x } := by
  cases dst with
  | uni n d => exact absurd rfl (hu n d)
  | none => simp only [Thread.applyOut, doneFl, Thread.putSb]
  | pred d => simp only [Thread.applyOut, doneFl, Thread.putSb]
  | vec n d =>
    have := octetByte_map ks v fl k
    simp only [doneFl] at this
    simp only [Thread.applyOut, doneFl, this, Thread.putSb_none]

theorem Thread.applyOut_off (t : Thread) (k : Nat) (dst : Dst) (shift : Bool) (ks : List Nat) (v : Nat → List Word)
    (fl : Nat → BitVec 5) (hu : ∀ n d, dst ≠ .uni n d) :
    t.applyOut k dst shift (ks.map fun k => (k, doneFl (v k) (fl k))) .off = t.idle dst shift := by
  cases dst with
  | uni n d => exact absurd rfl (hu n d)
  | none => simp only [Thread.applyOut, Thread.putSb]
  | pred d => simp only [Thread.applyOut, Thread.putSb]
  | vec n d => simp only [Thread.applyOut, octetByte_map, Thread.putSb_none]

theorem Thread.put_tags (t : Thread) (dst : Dst) (shift : Bool) (w : List Word) : (t.put dst shift w).tags = t.tags := by
  cases dst <;> simp only [Thread.put] <;> split <;> rfl

theorem Thread.put_regs (t : Thread) (dst : Dst) (shift : Bool) (w : List Word) :
    (t.put dst shift w).vs.map (fun v => v.reg) = t.vs.map fun v => v.reg := by
  cases dst <;> simp only [Thread.put] <;> try (split <;> simp [writeSlots_regs])

theorem Thread.dstRegs_of_regs {t u : Thread} {dst : Dst} (h : t.vs.map (fun v => v.reg) = u.vs.map fun v => v.reg) :
    t.dstRegs dst = u.dstRegs dst := by
  cases dst <;> simp only [Thread.dstRegs]
  rw [List.map_take, List.map_drop, h, ← List.map_drop, ← List.map_take]

/-- What a word's function leaves of the threads that its end relies on. -/
def State.Kept (t s : State) (k : Nat) : Prop :=
  (Map.find? t.fab.threads k).isSome ∧ (t.thread k).tags = (s.thread k).tags ∧
    (t.thread k).vs.map (fun v => v.reg) = (s.thread k).vs.map fun v => v.reg

theorem State.kept_of_threads {t s : State} (h : t.fab.threads = s.fab.threads) {k : Nat} (hk : k ∈ s.here.lanes) : t.Kept s k := by
  refine ⟨h ▸ State.listed_of_here hk, ?_, ?_⟩ <;> simp [State.thread, h]

/-- It leaves as much as the state that it comes from. -/
theorem State.Kept.trans {s t u : State} {k : Nat} (h : u.Kept t k) (h' : t.Kept s k) : u.Kept s k :=
  ⟨h.1, h.2.1.trans h'.2.1, h.2.2.trans h'.2.2⟩

/-- A state with the same threads. -/
theorem State.kept_all {t s : State} (h : t.fab.threads = s.fab.threads) {g : BitVec 3} : ∀ k ∈ s.active s.here g, t.Kept s k :=
  fun _ hk => State.kept_of_threads h (State.active_sub hk)

/-- An acquire point leaves both, and the threads that wait. -/
theorem State.acquireAll_kept {s u : State} {ks : List Nat} {k : Nat} (h : u.Kept s k) : (u.acquireAll ks).Kept s k := by
  have e : (u.acquireAll ks).thread k = if k ∈ ks then { u.thread k with acq := u.mem.written } else u.thread k :=
    State.thread_updLanes _ _ _ _ (.inl h.1)
  refine State.Kept.trans ⟨?_, ?_, ?_⟩ h
  · simp only [State.acquireAll, State.updLanes, Map.find?_mapVals, Option.isSome_map]; exact h.1
  all_goals rw [e]; split <;> rfl

/-- A word that is done in every active lane delivers its results to the group. -/
theorem State.groupWord_gives {s t : State} {i : Instr} {sc : BitVec 2} {g : BitVec 3} {codes : List (BitVec 5)} {lit : Word}
    {dst : Dst} {shift : Bool} {f : State → List (Nat × List Word) → State × List (Nat × LaneOut)} {rd : Nat → List Word}
    (h : s.Ready g codes lit dst rd) (hu : ∀ n d, dst ≠ .uni n d) (res : Nat → List Word) (fl : Nat → BitVec 5)
    (hf : f s ((s.active s.here g).map fun k => (k, rd k)) = (t, (s.active s.here g).map fun k => (k, doneFl (res k) (fl k))))
    (ht : ∀ k ∈ s.active s.here g, t.Kept s k) :
    s.groupWord i sc g codes lit dst shift f = t.deliver s g dst shift res fl := by
  rw [State.groupWord_ready h.1 (fun k hk => (h.2 k hk).1)]
  simp only [hf]
  have hs : ((s.active s.here g).map fun k => (k, doneFl (res k) (fl k))).any (fun p => p.2 == .stall) = false := by
    simp [doneFl]
  rw [hs]
  simp only [Bool.false_eq_true, ↓reduceIte]
  have hu1 : (t.updLanes s.here.lanes fun k x =>
      x.applyOut k dst shift ((s.active s.here g).map fun k => (k, doneFl (res k) (fl k)))
        (outOf ((s.active s.here g).map fun k => (k, doneFl (res k) (fl k))) k)) = t.deliver s g dst shift res fl := by
    unfold State.deliver
    apply State.updLanes_congr
    intro k hk x
    rw [outOf_map]
    by_cases hg : (s.thread k).guard g = true
    · simp only [State.mem_active, hk, hg, and_self, ↓reduceIte]
      exact Thread.applyOut_done _ _ _ _ _ _ _ hu _ _
    · simp only [State.mem_active, hk, hg, Bool.false_eq_true, and_false, ↓reduceIte]
      exact Thread.applyOut_off _ _ _ _ _ _ _ hu
  rw [State.finish_plain, hu1]
  · intro p hp
    simp only [List.mem_map] at hp
    obtain ⟨k, -, rfl⟩ := hp
    exact ⟨_, rfl, rfl⟩
  · rw [hu1]
    intro p hp
    simp only [List.mem_map] at hp
    obtain ⟨k, hk, rfl⟩ := hp
    have hh := State.active_sub hk
    have hg := (State.mem_active.mp hk).2
    have e : (t.deliver s g dst shift res fl).thread k =
        { (t.thread k).put dst shift (res k) with ff := (t.thread k).ff ||| fl k } := by
      unfold State.deliver
      rw [State.thread_updLanes _ _ _ _ (.inl (ht k hk).1)]
      simp [hh, hg]
    intro r hr q hq
    rw [e] at hr hq
    simp only at hq
    rw [Thread.put_tags, (ht k hk).2.1] at hq
    refine (h.2 k hk).2 r ?_ q hq
    have e2 := Thread.dstRegs_of_regs (dst := dst) (u := s.thread k)
      (t := { (t.thread k).put dst shift (res k) with ff := (t.thread k).ff ||| fl k })
      ((Thread.put_regs _ _ _ _).trans (ht k hk).2.2)
    rw [← e2]; exact hr

/-- A word in which every lane acts on its own, without side effects. -/
theorem State.laneWord_gives {s : State} {i : Instr} {sc : BitVec 2} {g : BitVec 3} {codes : List (BitVec 5)} {lit : Word}
    {dst : Dst} {shift : Bool} {f : State → Nat → List Word → LaneOut} {rd : Nat → List Word}
    (h : s.Ready g codes lit dst rd) (hu : ∀ n d, dst ≠ .uni n d) (res : Nat → List Word) (fl : Nat → BitVec 5)
    (hf : ∀ k ∈ s.active s.here g, f s k (rd k) = doneFl (res k) (fl k)) :
    s.laneWord i sc g codes lit dst shift f = s.gives g dst shift res fl := by
  unfold State.laneWord State.gives
  apply State.groupWord_gives h hu res fl _ (State.kept_all rfl)
  simp only [List.map_map, Function.comp_def]
  congr 1
  exact List.map_congr_left fun k hk => by rw [hf k hk]

/-! ### Words in general -/

theorem modify_regs (vs : List VSlot) (i : Nat) (f : VSlot → VSlot) (hf : ∀ v, (f v).reg = v.reg) :
    (vs.modify i f).map (fun v => v.reg) = vs.map fun v => v.reg := by
  apply List.ext_getElem <;> simp
  intro n h1
  by_cases h : i = n <;> simp [h, hf]

theorem foldl_modify_regs (l : List Nat) (d : Nat) (b : Byte) (vs : List VSlot) :
    (l.foldl (fun vs i => vs.modify (d + i) fun v => { v with sb := b, sbw := true }) vs).map (fun v => v.reg) =
      vs.map fun v => v.reg := by
  induction l generalizing vs with
  | nil => rfl
  | cons x r ih => rw [List.foldl_cons, ih, modify_regs]; intro v; rfl

theorem Thread.putSb_tags (t : Thread) (dst : Dst) (b : Option Byte) : (t.putSb dst b).tags = t.tags := by
  unfold Thread.putSb; split
  · split <;> rfl
  · rfl

theorem Thread.putSb_regs (t : Thread) (dst : Dst) (b : Option Byte) :
    (t.putSb dst b).vs.map (fun v => v.reg) = t.vs.map fun v => v.reg := by
  unfold Thread.putSb; split
  · split
    · rfl
    · exact foldl_modify_regs _ _ _ _
  · rfl

theorem Thread.idle_tags (t : Thread) (dst : Dst) (shift : Bool) : (t.idle dst shift).tags = t.tags := by
  unfold Thread.idle; split <;> rfl

theorem Thread.idle_vs (t : Thread) (dst : Dst) (shift : Bool) : (t.idle dst shift).vs = t.vs := by
  unfold Thread.idle; split <;> rfl

theorem Thread.applyOut_tags (t : Thread) (k : Nat) (dst : Dst) (shift : Bool) (outs : List (Nat × LaneOut)) (o : LaneOut) :
    (t.applyOut k dst shift outs o).tags = t.tags := by
  unfold Thread.applyOut; split
  · simp only [Thread.putSb_tags, Thread.put_tags]
  · split
    · split
      · rw [Thread.put_tags]
      · rw [Thread.idle_tags]
    · rw [Thread.putSb_tags, Thread.idle_tags]
  · rfl

theorem Thread.applyOut_regs (t : Thread) (k : Nat) (dst : Dst) (shift : Bool) (outs : List (Nat × LaneOut)) (o : LaneOut) :
    (t.applyOut k dst shift outs o).vs.map (fun v => v.reg) = t.vs.map fun v => v.reg := by
  unfold Thread.applyOut; split
  · simp only [Thread.putSb_regs, Thread.put_regs]
  · split
    · split
      · rw [Thread.put_regs]
      · rw [Thread.idle_vs]
    · rw [Thread.putSb_regs, Thread.idle_vs]
  · rfl

/-- The end of a word all of whose lanes are done. -/
theorem State.finish_outs {s t : State} {g : BitVec 3} {kind : SetKind} {dst : Dst} {shift : Bool} {outs : List (Nat × LaneOut)}
    (hp : ∀ p ∈ outs, Plain p.2 ∧ p.1 ∈ s.active s.here g) (hk : ∀ k ∈ s.active s.here g, t.Kept s k) (hw : s.Writes g dst) :
    t.finish s.here kind dst shift outs = t.deliverOuts s dst shift outs := by
  have e (k : Nat) (hm : k ∈ s.active s.here g) : ((t.deliverOuts s dst shift outs).thread k).tags = (s.thread k).tags ∧
      ((t.deliverOuts s dst shift outs).thread k).dstRegs dst = (s.thread k).dstRegs dst := by
    unfold State.deliverOuts
    rw [State.thread_updLanes _ _ _ _ (.inl (hk k hm).1)]
    simp only [State.active_sub hm, ↓reduceIte, Thread.applyOut_tags]
    exact ⟨(hk k hm).2.1, Thread.dstRegs_of_regs (by rw [Thread.applyOut_regs]; exact (hk k hm).2.2)⟩
  rw [State.finish_plain fun p h => (hp p h).1]
  · rfl
  · intro p h r hr q hq
    obtain ⟨e1, e2⟩ := e p.1 (hp p h).2
    unfold State.deliverOuts at e1 e2
    rw [e1] at hq; rw [e2] at hr
    exact (hw p.1 (hp p h).2).2 r hr q hq

/-- A word all of whose lanes are done: its results reach the group. -/
theorem State.groupWord_outs {s t : State} {i : Instr} {sc : BitVec 2} {g : BitVec 3} {codes : List (BitVec 5)} {lit : Word}
    {dst : Dst} {shift : Bool} {f : State → List (Nat × List Word) → State × List (Nat × LaneOut)} {rd : Nat → List Word}
    {outs : List (Nat × LaneOut)}
    (h : s.Ready g codes lit dst rd) (hf : f s ((s.active s.here g).map fun k => (k, rd k)) = (t, outs))
    (hp : ∀ p ∈ outs, Plain p.2 ∧ p.1 ∈ s.active s.here g) (hk : ∀ k ∈ s.active s.here g, t.Kept s k) :
    s.groupWord i sc g codes lit dst shift f = t.deliverOuts s dst shift outs := by
  rw [State.groupWord_ready h.1 (fun k hk => (h.2 k hk).1)]
  simp only [hf]
  have hs : outs.any (fun p => p.2 == .stall) = false := by
    rw [List.any_eq_false]
    intro p hpm
    obtain ⟨⟨r, hr, -⟩, -⟩ := hp p hpm
    simp [hr]
  rw [hs]
  exact State.finish_outs hp hk h.2

/-- A word that traps in every active lane. -/
theorem State.groupWord_traps {s t : State} {i : Instr} {sc : BitVec 2} {g : BitVec 3} {codes : List (BitVec 5)} {lit : Word}
    {dst : Dst} {shift : Bool} {f : State → List (Nat × List Word) → State × List (Nat × LaneOut)} {rd : Nat → List Word}
    (tr : Nat → Trap) (h : s.Ready g codes lit dst rd)
    (hf : f s ((s.active s.here g).map fun k => (k, rd k)) = (t, (s.active s.here g).map fun k => (k, .trap (tr k))))
    (hd : dst = .none) (hsh : shift = false) :
    s.groupWord i sc g codes lit dst shift f =
      t.raise s.here (setKind (s.groupVersion s.here.lanes) sc) ((s.active s.here g).map fun k => (k, tr k)) := by
  subst hd hsh
  rw [State.groupWord_ready h.1 (fun k hk => (h.2 k hk).1)]
  simp only [hf]
  have hs : ((s.active s.here g).map fun k => (k, LaneOut.trap (tr k))).any (fun p => p.2 == .stall) = false := by simp
  rw [hs]
  simp only [Bool.false_eq_true, ↓reduceIte, State.finish]
  have e0 : (t.updLanes s.here.lanes fun k x => x.applyOut k .none false ((s.active s.here g).map fun k => (k, .trap (tr k)))
      (outOf ((s.active s.here g).map fun k => (k, .trap (tr k))) k)) = t := by
    apply State.updLanes_same
    intro k x
    rw [outOf_map _ (fun k => .trap (tr k))]
    by_cases hk : k ∈ s.active s.here g
    · simp [hk, Thread.applyOut]
    · simp [hk, Thread.applyOut, Thread.idle, Thread.putSb]
  rw [e0]
  congr 1
  · rw [foldl_same (State.parkOut s.here.w), foldl_same (State.tagOut .none)]
    · intro x hx; simp only [List.mem_map] at hx; obtain ⟨k, -, rfl⟩ := hx; rfl
    · intro x hx; simp only [List.mem_map] at hx; obtain ⟨k, -, rfl⟩ := hx; rfl
  · simp only [trapsOf, List.filterMap_map, Function.comp_def]
    induction s.active s.here g with
    | nil => rfl
    | cons k r ih => simp [ih]

/-! ### Uniform destinations -/

theorem Thread.applyOut_uni (t : Thread) (k : Nat) (n : Nat) (d : BitVec 5) (shift : Bool) (ks : List Nat) (v : Nat → List Word) :
    t.applyOut k (.uni n d) shift (ks.map fun k => (k, doneFl (v k) 0))
        (outOf (ks.map fun k => (k, doneFl (v k) 0)) k) =
      match (ks.find? fun j => yardOf j == yardOf k).map v with
      | some vals => if k ∈ ks ∨ t.dstOk (.uni n d) = true then t.put (.uni n d) shift vals else t.idle (.uni n d) shift
      | none => t.idle (.uni n d) shift := by
  rw [outOf_map ks (fun k => doneFl (v k) 0) k]
  by_cases hk : k ∈ ks
  · obtain ⟨j, hj⟩ : ∃ j, ks.find? (fun j => yardOf j == yardOf k) = some j := by
      rw [← Option.isSome_iff_exists, List.find?_isSome]; exact ⟨k, hk, by simp⟩
    simp only [hk, ↓reduceIte, Thread.applyOut, doneFl]
    have := yardResult_map ks v (fun _ => 0) (yardOf k)
    simp only [doneFl] at this
    rw [this, hj]
    simp [Thread.putSb]
    unfold Thread.put
    simp only
    split <;> rfl
  · have := yardResult_map ks v (fun _ => 0) (yardOf k)
    simp only [hk, ↓reduceIte, Thread.applyOut, this, false_or]
    cases hm : ks.find? (fun j => yardOf j == yardOf k) with
    | none => simp [Thread.putSb]
    | some j => simp

/-- A word with a uniform destination that is done in every active lane. -/
theorem State.groupWord_givesUni {s t : State} {i : Instr} {sc : BitVec 2} {g : BitVec 3} {codes : List (BitVec 5)} {lit : Word}
    {n : Nat} {d : BitVec 5} {shift : Bool} {f : State → List (Nat × List Word) → State × List (Nat × LaneOut)}
    {rd : Nat → List Word} (h : s.Ready g codes lit (.uni n d) rd) (res : Nat → List Word)
    (hf : f s ((s.active s.here g).map fun k => (k, rd k)) = (t, (s.active s.here g).map fun k => (k, doneFl (res k) 0)))
    (hk : ∀ k ∈ s.active s.here g, t.Kept s k) :
    s.groupWord i sc g codes lit (.uni n d) shift f = t.deliverUni s g (.uni n d) shift res := by
  rw [State.groupWord_outs h hf _ hk]
  · unfold State.deliverOuts State.deliverUni
    apply State.updLanes_congr
    intro k hk x
    rw [Thread.applyOut_uni]
    unfold State.yardPick
    have : (k ∈ s.active s.here g) = ((s.thread k).guard g = true) := by simp [State.mem_active, hk]
    simp only [this, Bool.or_eq_true] <;> (cases (s.active s.here g).find? (fun j => yardOf j == yardOf k) <;> rfl)
  · intro p hp
    simp only [List.mem_map] at hp
    obtain ⟨k, hk, rfl⟩ := hp
    exact ⟨⟨_, rfl, rfl⟩, hk⟩

theorem uniformly_of_none {β : Type} [DecidableEq β] {f : List Word → β} {ins : List (Nat × List Word)} {s : State}
    {ok : State × List (Nat × LaneOut)} (h : firstMismatch f ins = none) : uniformly f ins s ok = ok := by
  simp [uniformly, h]

/-- Operands that agree in every lane have no first mismatch. -/
theorem firstMismatch_map {β : Type} [DecidableEq β] (f : List Word → β) (ks : List Nat) (rd : Nat → List Word) (b : β)
    (h : ∀ k ∈ ks, f (rd k) = b) : firstMismatch f (ks.map fun k => (k, rd k)) = none := by
  cases ks with
  | nil => rfl
  | cons k r =>
    simp only [List.map_cons, firstMismatch, Option.map_eq_none_iff, List.find?_eq_none]
    intro p hp
    simp only [List.mem_map] at hp
    obtain ⟨j, hj, rfl⟩ := hp
    have h1 := h j (by simp [hj]); have h2 := h k (by simp)
    simp [h1, h2]

/-! ### Integer words -/

theorem State.vecA_gives {s : State} {i : Instr} {o : OpA} {a b : Nat → Word} (f : Nat → Word → Word → Word) (h : s.Ready o.g [o.a, o.b] o.lit (.vec 1 o.d) (fun k => [a k, b k])) :
    s.vecA i o f = s.gives o.g (.vec 1 o.d) true (one fun k => f k (a k) (b k)) noFlags :=
  State.laneWord_gives h (by simp) _ _ (fun k _ => rfl)

theorem State.cmpA_gives {s : State} {i : Instr} {o : OpA} {a b : Nat → Word} (f : Word → Word → Bool) (h : s.Ready o.g [o.a, o.b] o.lit (.pred o.d) (fun k => [a k, b k])) :
    s.cmpA i o f = s.gives o.g (.pred o.d) false (one fun k => BitVec.ofNat 32 (b2n (f (a k) (b k)))) noFlags :=
  State.laneWord_gives h (by simp) _ _ (fun k _ => rfl)

theorem State.vecT_gives {s : State} {i : Instr} {o : OpT} {a b c : Nat → Word} (f : Word → Word → Word → Word) (h : s.Ready o.g [o.a, o.b, o.e] o.lit (.vec 1 o.d) (fun k => [a k, b k, c k])) :
    s.vecT i o f = s.gives o.g (.vec 1 o.d) true (one fun k => f (a k) (b k) (c k)) noFlags :=
  State.laneWord_gives h (by simp) _ _ (fun k _ => rfl)

theorem completesA_of {i : OpA → Instr} {f : Word → Word → Word} (h : ∀ o s, exec (i o) s = .next (s.vecA (i o) o fun _ a b => f a b)) {f' : Word → Word → Word} (hf : ∀ a b, f a b = f' a b) :
    CompletesA i f' := by
  intro s o a b hr
  have : f = f' := by funext a b; exact hf a b
  subst this
  rw [h, State.vecA_gives _ hr]

theorem b2n_eq (b : Bool) : BitVec.ofNat 32 (b2n b) = if b then 1 else 0 := by cases b <;> rfl

theorem completesP_of {i : OpA → Instr} {f : Word → Word → Bool} (h : ∀ o s, exec (i o) s = .next (s.cmpA (i o) o f)) {f' : Word → Word → Bool} (hf : ∀ a b, f a b = f' a b) :
    CompletesP i f' := by
  intro s o a b hr
  have : f = f' := by funext a b; exact hf a b
  subst this
  rw [h, State.cmpA_gives _ hr]; simp only [b2n_eq]

theorem completesPP_of {i : OpA → Instr} {f : Bool → Bool → Bool} (h : ∀ o s, exec (i o) s = .next (s.predA (i o) o f)) {f' : Bool → Bool → Bool} (hf : ∀ a b, f a b = f' a b) :
    CompletesPP i f' := by
  intro s o hr
  have : f = f' := by funext a b; exact hf a b
  subst this
  rw [h]; congr 1
  unfold State.predA
  rw [State.laneWord_gives hr (by simp) _ _ (fun k _ => rfl)]
  simp only [b2n_eq]; rfl

theorem completesT_of {i : OpT → Instr} {f : Word → Word → Word → Word} (h : ∀ o s, exec (i o) s = .next (s.vecT (i o) o f)) {f' : Word → Word → Word → Word} (hf : ∀ a b c, f a b c = f' a b c) :
    CompletesT i f' := by
  intro s o a b c hr
  have : f = f' := by funext a b c; exact hf a b c
  subst this
  rw [h, State.vecT_gives _ hr]


/-! ### Floating-point words -/

theorem State.fpA_gives {s : State} {i : Instr} {o : OpA} {a b : Nat → Word} (f : RMode → Word → Word → Word × FFlags)
    (h : s.Ready o.g [o.a, o.b] o.lit (.vec 1 o.d) (fun k => [a k, b k])) :
    s.fpA i o f = s.gives o.g (.vec 1 o.d) true (one fun k => (f (s.thread k).rmode (a k) (b k)).1)
      fun k => (f (s.thread k).rmode (a k) (b k)).2 :=
  State.laneWord_gives h (by simp) _ _ (fun k _ => rfl)

theorem State.fpT_gives {s : State} {i : Instr} {o : OpT} {a b c : Nat → Word} (f : RMode → Word → Word → Word → Word × FFlags)
    (h : s.Ready o.g [o.a, o.b, o.e] o.lit (.vec 1 o.d) (fun k => [a k, b k, c k])) :
    s.fpT i o f = s.gives o.g (.vec 1 o.d) true (one fun k => (f (s.thread k).rmode (a k) (b k) (c k)).1)
      fun k => (f (s.thread k).rmode (a k) (b k) (c k)).2 :=
  State.laneWord_gives h (by simp) _ _ (fun k _ => rfl)

theorem State.fpCmp_gives {s : State} {i : Instr} {o : OpA} {a b : Nat → Word} (q : Bool) (f : Word → Word → Bool)
    (h : s.Ready o.g [o.a, o.b] o.lit (.pred o.d) (fun k => [a k, b k])) :
    s.fpCmp i o q f = s.gives o.g (.pred o.d) false (one fun k => if f (a k) (b k) then 1 else 0)
      fun k => cmpFlags q (a k) (b k) := by
  simp only [← b2n_eq]
  exact State.laneWord_gives h (by simp) _ _ (fun k _ => rfl)

theorem completesF_of {i : OpA → Instr} {f : RMode → Word → Word → Word × FFlags}
    (h : ∀ o s, exec (i o) s = .next (s.fpA (i o) o f)) : CompletesF i f := by
  intro s o a b hr
  rw [h, State.fpA_gives _ hr]

theorem completesFT_of {i : OpT → Instr} {f : RMode → Word → Word → Word → Word × FFlags}
    (h : ∀ o s, exec (i o) s = .next (s.fpT (i o) o f)) : CompletesFT i f := by
  intro s o a b c hr
  rw [h, State.fpT_gives _ hr]

theorem completesFP_of {i : OpA → Instr} {q : Bool} {f : Word → Word → Bool}
    (h : ∀ o s, exec (i o) s = .next (s.fpCmp (i o) o q f)) : CompletesFP i f (cmpFlags q) := by
  intro s o a b hr
  rw [h, State.fpCmp_gives _ _ hr]

/-! ### Words without a destination -/

/-- An outcome that a word without a destination gives a lane that is done. -/
theorem Thread.applyOut_none (x : Thread) (k : Nat) (outs : List (Nat × LaneOut)) (o : LaneOut)
    (h : o = .off ∨ ∃ vals, o = doneWith vals) : x.applyOut k .none false outs o = x := by
  rcases h with rfl | ⟨vals, rfl⟩
  · simp [Thread.applyOut, Thread.idle, Thread.putSb]
  · simp [Thread.applyOut, doneWith, Thread.put, Thread.putSb]

/-- A word without a destination all of whose lanes are done leaves the state that its function has made. -/
theorem State.finish_none (s : State) (h : Here) (kind : SetKind) (outs : List (Nat × LaneOut))
    (hp : ∀ p ∈ outs, ∃ vals, p.2 = doneWith vals) : s.finish h kind .none false outs = s := by
  have hd (k : Nat) (t : Thread) : t.applyOut k .none false outs (outOf outs k) = t := by
    apply Thread.applyOut_none
    unfold outOf
    split
    · exact .inl rfl
    · rename_i p hf; exact .inr (hp p (List.mem_of_find?_eq_some hf))
  have e := State.updLanes_same s h.lanes (fun k t => t.applyOut k .none false outs (outOf outs k)) hd
  rw [State.finish_plain, e]
  · intro p hm
    obtain ⟨vals, hv⟩ := hp p hm
    exact ⟨_, hv, rfl⟩
  · intro p _ r hr; simp [Thread.dstRegs] at hr

theorem State.groupWord_none {s t : State} {i : Instr} {sc : BitVec 2} {g : BitVec 3} {codes : List (BitVec 5)} {lit : Word}
    {f : State → List (Nat × List Word) → State × List (Nat × LaneOut)} {rd : Nat → List Word} {outs : List (Nat × LaneOut)}
    (h : s.Reads g codes lit rd) (hf : f s ((s.active s.here g).map fun k => (k, rd k)) = (t, outs))
    (hp : ∀ p ∈ outs, ∃ vals, p.2 = doneWith vals) : s.groupWord i sc g codes lit .none false f = t := by
  rw [State.groupWord_ready h (fun k hk => rfl)]
  simp only [hf]
  have hs : outs.any (fun p => p.2 == .stall) = false := by
    rw [List.any_eq_false]
    intro p hpm
    obtain ⟨vals, hv⟩ := hp p hpm
    simp [hv, doneWith]
  rw [hs]
  exact State.finish_none _ _ _ _ hp

theorem done_of_allDone {l : List (Nat × List Word)} {vals : List Word} : ∀ p ∈ allDone l vals, ∃ v, p.2 = doneWith v := by
  intro p hp; simp only [allDone, List.mem_map] at hp; obtain ⟨q, -, rfl⟩ := hp; exact ⟨_, rfl⟩

/-- The end of a memory word whose lanes are done. -/
theorem State.memDone_done {s : State} {outs : List (Nat × LaneOut)} (hp : ∀ p ∈ outs, ∃ r, p.2 = .done r) :
    State.memDone (s, outs) = (s, outs) := by
  have h1 : outs.any (fun p => p.2 == .stall) = false := by
    rw [List.any_eq_false]; intro p hpm; obtain ⟨r, hr⟩ := hp p hpm; simp [hr]
  have h2 : s.reportPoison outs = s := by
    unfold State.reportPoison
    split
    · rfl
    · rename_i h
      obtain ⟨p, hpm, he⟩ := List.exists_of_findSome?_eq_some h
      obtain ⟨r, hr⟩ := hp p hpm
      simp [hr] at he
  have h3 : s.reportParks outs = (s, outs) := by
    unfold State.reportParks
    have : (outs.filterMap fun p => (parkOf p.2).map fun x => (p.1, x)) = [] := by
      rw [List.filterMap_eq_nil_iff]; intro p hpm; obtain ⟨r, hr⟩ := hp p hpm; simp [hr, parkOf]
    simp [this]
  simp [State.memDone, h1, h2, h3]

/-! ### Words that hand out a handle -/

/-- A word whose sole active lane is done and takes the tag of a future. -/
theorem State.groupWord_tagged {s t : State} {i : Instr} {sc : BitVec 2} {g : BitVec 3} {codes : List (BitVec 5)} {lit : Word}
    {d : BitVec 5} {shift : Bool} {f : State → List (Nat × List Word) → State × List (Nat × LaneOut)} {rd : Nat → List Word}
    {k slot : Nat} {v : Word} (h : s.Ready g codes lit (.vec 1 d) rd) (hs : s.Sole g k)
    (hf : f s [(k, rd k)] = (t, [(k, .done { vals := [v], ff := 0, sb := none, tag := some slot })])) (hk : t.Kept s k) :
    s.groupWord i sc g codes lit (.vec 1 d) shift f = (t.deliver s g (.vec 1 d) shift (one fun _ => v) noFlags).tagged k slot d := by
  have hm : k ∈ s.active s.here g := by rw [hs]; simp
  rw [State.groupWord_ready h.1 (fun k hk => (h.2 k hk).1)]
  have hmap : (s.active s.here g).map (fun k => (k, rd k)) = [(k, rd k)] := by rw [hs]; rfl
  simp only [hmap, hf]
  have e1 : (t.updLanes s.here.lanes fun j x => x.applyOut j (.vec 1 d) shift
      [(k, LaneOut.done { vals := [v], ff := 0, sb := none, tag := some slot })]
      (outOf [(k, LaneOut.done { vals := [v], ff := 0, sb := none, tag := some slot })] j)) =
      t.deliver s g (.vec 1 d) shift (one fun _ => v) noFlags := by
    unfold State.deliver
    apply State.updLanes_congr
    intro j hj x
    by_cases hg : (s.thread j).guard g = true
    · have : j ∈ s.active s.here g := State.mem_active.mpr ⟨hj, hg⟩
      rw [hs] at this
      simp only [List.mem_singleton] at this
      subst this
      simp [outOf, hg, Thread.applyOut, octetByte, Thread.putSb_none, one, noFlags]
    · have : k ≠ j := fun e => hg (e ▸ (State.mem_active.mp hm).2)
      simp [outOf, hg, this, Thread.applyOut, octetByte, Thread.putSb_none]
  simp only [List.any_cons, List.any_nil, Bool.or_false]
  rw [if_neg (by simp)]
  simp only [State.finish, e1]
  have hth : (t.deliver s g (.vec 1 d) shift (one fun _ => v) noFlags).thread k =
      { (t.thread k).put (.vec 1 d) shift [v] with ff := (t.thread k).ff ||| 0 } := by
    unfold State.deliver
    rw [State.thread_updLanes _ _ _ _ (.inl hk.1)]
    simp [State.active_sub hm, (State.mem_active.mp hm).2, one, noFlags]
  generalize t.deliver s g (.vec 1 d) shift (one fun _ => v) noFlags = u at hth ⊢
  have hregs : (u.thread k).vs.map (fun v => v.reg) = (s.thread k).vs.map fun v => v.reg := by
    rw [hth]; simp only [Thread.put_regs]; exact hk.2.2
  have htags : (u.thread k).tags = (s.thread k).tags := by
    rw [hth]; simp only [Thread.put_tags]; exact hk.2.1
  have hdst : (u.thread k).dstRegs (.vec 1 d) = (s.thread k).dstRegs (.vec 1 d) := Thread.dstRegs_of_regs hregs
  have hdrop : ((u.thread k).dstRegs (.vec 1 d)).foldl (fun s x => s.dropTag k x) u = u := by
    apply foldl_same
    intro r hr
    apply State.dropTag_none
    rw [htags]; rw [hdst] at hr
    exact (h.2 k hm).2 r hr
  simp only [List.foldl_cons, List.foldl_nil, State.parkOut, trapsOf, List.filterMap_cons, List.filterMap_nil, State.raise,
    List.map_nil, State.raiseAt_nil, State.tagOut, hdrop]
  unfold State.tagged
  by_cases hw : noWrite d = true
  · simp [hw, Thread.dstRegs]
  · simp only [hw, Bool.false_eq_true, ↓reduceIte, Thread.dstRegs]
    cases (u.thread k).vs.drop (slotOfD d) with
    | nil => simp
    | cons a r => simp [State.addTag]

/-! ### Words that act once for a yard -/

theorem firsts_const {f : Nat → Nat} {y : Nat} (l : List Nat) (h : ∀ k ∈ l, f k = y) : firsts f [y] l = [] := by
  induction l with
  | nil => rfl
  | cons k r ih =>
    have := h k (by simp)
    rw [firsts, this]; simp only [List.contains_cons, BEq.rfl, Bool.true_or, ↓reduceIte]
    exact ih fun j hj => h j (by simp [hj])

theorem insertKey_self (y : Nat) : insertKey y [y] = [y] := by simp [insertKey]

theorem yardsAmong_const {y : Nat} {ks : List Nat} (hn : ks ≠ []) (h : ∀ k ∈ ks, yardOf k = y) : yardsAmong ks = [y] := by
  have go : ∀ l : List Nat, (∀ k ∈ l, yardOf k = y) → (l.map yardOf).foldl (fun l y => insertKey y l) [y] = [y] := by
    intro l
    induction l with
    | nil => intro _; rfl
    | cons k r ih =>
      intro h
      rw [List.map_cons, List.foldl_cons, h k (by simp), insertKey_self]
      exact ih fun j hj => h j (by simp [hj])
  cases ks with
  | nil => exact absurd rfl hn
  | cons k r =>
    unfold yardsAmong
    rw [List.map_cons, List.foldl_cons, h k (by simp)]
    exact go r fun j hj => h j (by simp [hj])

theorem State.eachYard_one {β : Type} [DecidableEq β] {s : State} {ks : List Nat} {rd : Nat → List Word} {y : Nat}
    (key : List Word → β) (f : State → Nat → List (Nat × List Word) → State × List (Nat × LaneOut)) (hn : ks ≠ [])
    (hy : ∀ k ∈ ks, yardOf k = y) (b : β) (hk : ∀ k ∈ ks, key (rd k) = b) :
    s.eachYard (ks.map fun k => (k, rd k)) key f = f s y (ks.map fun k => (k, rd k)) := by
  cases ks with
  | nil => exact absurd rfl hn
  | cons k r =>
    have e1 : yardsAmong (((k :: r).map fun k => (k, rd k)).map fun p => p.1) = [y] := by
      simp only [List.map_map, Function.comp_def, List.map_id']
      exact yardsAmong_const hn hy
    have e2 : ((k :: r).map fun k => (k, rd k)).filter (fun p => yardOf p.1 == y) = (k :: r).map fun k => (k, rd k) := by
      rw [List.filter_eq_self]
      intro p hp
      simp only [List.mem_map] at hp
      obtain ⟨j, hj, rfl⟩ := hp
      simp [hy j hj]
    unfold State.eachYard
    rw [e1]
    simp only [List.foldl_cons, List.foldl_nil, e2, List.nil_append]
    rw [uniformly_of_none (firstMismatch_map key (k :: r) rd b hk)]

theorem lead_map {ks : List Nat} {rd : Nat → List Word} {ws : List Word} (hn : ks ≠ []) (h : ∀ k ∈ ks, rd k = ws) :
    lead (ks.map fun k => (k, rd k)) = ws := by
  cases ks with
  | nil => exact absurd rfl hn
  | cons k r => simp [lead, h k (by simp)]

theorem State.eachYard_nil {β : Type} [DecidableEq β] {s : State} (key : List Word → β)
    (f : State → Nat → List (Nat × List Word) → State × List (Nat × LaneOut)) : s.eachYard [] key f = (s, []) := rfl

/-! ### Words whose lanes act one after another -/

/-- Lanes each of which is done, in a state that keeps what makes it so. -/
theorem State.eachLane_fold {s : State} {ks : List Nat} {rd : Nat → List Word} {f : State → Nat → List Word → State × LaneOut}
    (I : State → Prop) (next : State → Nat → State) (o : Nat → LaneOut) (hs : I s)
    (hf : ∀ t, I t → ∀ k ∈ ks, f t k (rd k) = (next t k, o k) ∧ I (next t k)) :
    s.eachLane (ks.map fun k => (k, rd k)) f = (ks.foldl next s, ks.map fun k => (k, o k)) := by
  have go (ks : List Nat) (pre : List (Nat × LaneOut)) : ∀ s, I s →
      (∀ t, I t → ∀ k ∈ ks, f t k (rd k) = (next t k, o k) ∧ I (next t k)) →
      (ks.map fun k => (k, rd k)).foldl (fun acc p =>
        let (s1, o) := f acc.1 p.1 p.2
        (s1, acc.2 ++ [(p.1, o)])) (s, pre) = (ks.foldl next s, pre ++ ks.map fun k => (k, o k)) := by
    induction ks generalizing pre with
    | nil => intro s _ _; simp
    | cons k r ih =>
      intro s hi hf
      have h1 := hf s hi k (by simp)
      simp only [List.map_cons, List.foldl_cons, h1.1]
      rw [ih _ _ h1.2 fun t ht j hj => hf t ht j (by simp [hj])]
      simp
  exact go ks [] s hs hf

/-- Lanes that act in turn, each done. -/
theorem State.eachLane_turns {s t : State} {ks : List Nat} {rd : Nat → List Word} {f : State → Nat → List Word → State × LaneOut}
    {R : State → Nat → State → Prop} (o : Nat → LaneOut) (ht : Turns R ks s t)
    (hf : ∀ u v, ∀ k ∈ ks, R u k v → f u k (rd k) = (v, o k)) :
    s.eachLane (ks.map fun k => (k, rd k)) f = (t, ks.map fun k => (k, o k)) := by
  have go (ks : List Nat) (pre : List (Nat × LaneOut)) : ∀ s, Turns R ks s t →
      (∀ u v, ∀ k ∈ ks, R u k v → f u k (rd k) = (v, o k)) →
      (ks.map fun k => (k, rd k)).foldl (fun acc p =>
        let (s1, o) := f acc.1 p.1 p.2
        (s1, acc.2 ++ [(p.1, o)])) (s, pre) = (t, pre ++ ks.map fun k => (k, o k)) := by
    induction ks generalizing pre with
    | nil => rintro s rfl _; simp
    | cons k r ih =>
      rintro s ⟨u, hr, hn⟩ hf
      simp only [List.map_cons, List.foldl_cons, hf s u k (by simp) hr]
      rw [ih _ _ hn fun u v j hj => hf u v j (by simp [hj])]
      simp
  exact go ks [] s ht hf

/-- Lanes that leave the machine as it is. -/
theorem State.eachLane_still {s : State} {ks : List Nat} {rd : Nat → List Word} {f : State → Nat → List Word → State × LaneOut}
    (o : Nat → LaneOut) (hf : ∀ k ∈ ks, f s k (rd k) = (s, o k)) :
    s.eachLane (ks.map fun k => (k, rd k)) f = (s, ks.map fun k => (k, o k)) := by
  rw [State.eachLane_fold (fun t => t = s) (fun t _ => t) o rfl]
  · rw [foldl_same _ _ _ fun _ _ => rfl]
  · rintro t rfl k hk; exact ⟨hf k hk, rfl⟩

/-! ### Transfers -/

theorem filterMap_same {α β : Type} {f g : α → Option β} {l : List α} (h : ∀ x ∈ l, f x = g x) :
    l.filterMap f = l.filterMap g := by
  induction l with
  | nil => rfl
  | cons x r ih =>
    rw [List.filterMap_cons, List.filterMap_cons, h x (by simp), ih fun y hy => h y (by simp [hy])]

theorem goesOf_map (ks : List Nat) (goes : Nat → Option (BitVec 16)) :
    goesOf (ks.filterMap fun k => (goes k).map fun t => (k, (.inl t : BitVec 16 ⊕ Trap))) =
      ks.filterMap fun k => (goes k).map fun t => (k, t) := by
  unfold goesOf
  rw [List.filterMap_filterMap]
  exact filterMap_same fun k _ => by cases goes k <;> rfl

theorem haltsOf_map (ks : List Nat) (goes : Nat → Option (BitVec 16)) :
    haltsOf (ks.filterMap fun k => (goes k).map fun t => (k, (.inl t : BitVec 16 ⊕ Trap))) = [] := by
  unfold haltsOf
  rw [List.filterMap_filterMap, List.filterMap_eq_nil_iff]
  intro k _
  cases goes k <;> rfl

/-- A transfer word none of whose lanes traps. -/
theorem State.transferWord_goes {s : State} {i : Instr} {sc : BitVec 2} {g : BitVec 3} {codes : List (BitVec 5)} {lit : Word}
    {link : Bool} {f : State → Nat → List Word → Option (BitVec 16 ⊕ Trap)} {rd : Nat → List Word}
    (goes : Nat → Option (BitVec 16)) (h : s.Reads g codes lit rd)
    (hf : ∀ k ∈ s.active s.here g, f s k (rd k) = (goes k).map .inl) :
    s.transferWord i sc g codes lit link f =
      (if link then s.linked (s.goers g goes) else s).takeTransfers s.here (s.goers g goes) := by
  have hj := State.joinAll_of_ok (codes := codes) (lit := lit) (s := s) (rd := rd) h
  have hl : (s.active s.here g).map (fun k => (k, s.laneIn i codes lit .none k)) =
      (s.active s.here g).map fun k => (k, (.inl (rd k) : List Word ⊕ LaneOut)) :=
    List.map_congr_left fun k hk => by rw [State.laneIn_ok (h k hk) rfl]
  simp only [State.transferWord, hj, hl, readyLanes_map, stoppedLanes_map, List.nil_append]
  have ho : ((s.active s.here g).map fun k => (k, rd k)).filterMap (fun p => (f s p.1 p.2).map fun r => (p.1, r)) =
      (s.active s.here g).filterMap fun k => (goes k).map fun t => (k, (.inl t : BitVec 16 ⊕ Trap)) := by
    rw [List.filterMap_map]
    exact filterMap_same fun k hk => by simp only [Function.comp_def, hf k hk]; cases goes k <;> rfl
  rw [ho, goesOf_map, haltsOf_map, State.finish_none _ _ _ _ (by simp)]
  rfl

/-! ### Words on ranges, and operands that some lanes read -/

/-- A word on a range that is done in every active lane delivers its results, and its records in their yards go. -/
theorem State.longWord_gives {s t : State} {i : Instr} {sc : BitVec 2} {g : BitVec 3} {codes : List (BitVec 5)} {lit : Word}
    {dst : Dst} {f : State → List (Nat × List Word) → State × List (Nat × LaneOut)} {rd : Nat → List Word}
    (h : s.Ready g codes lit dst rd) (hu : ∀ n d, dst ≠ .uni n d) (res : Nat → List Word)
    (hf : f s ((s.active s.here g).map fun k => (k, rd k)) = (t, (s.active s.here g).map fun k => (k, doneWith (res k))))
    (ht : ∀ k ∈ s.active s.here g, t.Kept s k) :
    s.longWord i sc g codes lit dst f =
      (t.forgetLong ((s.active s.here g).map yardOf) s.here.pc s.here.w).deliver s g dst false res noFlags := by
  have hk : ∀ k ∈ s.active s.here g, (t.forgetLong ((s.active s.here g).map yardOf) s.here.pc s.here.w).Kept s k := by
    intro k hk
    unfold State.forgetLong
    split
    · exact ht k hk
    · exact ht k hk
  rw [← State.groupWord_gives (i := i) (sc := sc) (f := fun _ l => (t.forgetLong ((s.active s.here g).map yardOf) s.here.pc s.here.w,
    l.map fun p => (p.1, doneWith (res p.1)))) h hu res noFlags (by simp [doneWith_eq, noFlags, Function.comp_def]) hk]
  have hj := State.joinAll_of_ok (codes := codes) (lit := lit) (s := s) (rd := rd) h.1
  have hl : (s.active s.here g).map (fun k => (k, s.laneIn i codes lit dst k)) =
      (s.active s.here g).map fun k => (k, (.inl (rd k) : List Word ⊕ LaneOut)) :=
    List.map_congr_left fun k hk => by rw [State.laneIn_ok (h.1 k hk) (h.2 k hk).1]
  simp only [State.groupWord, State.longWord, hj, hl, readyLanes_map, stoppedLanes_map, List.nil_append, hf]
  simp [doneWith, LaneOut.again, Function.comp_def, List.filter_eq_self.mpr]

/-- While one of its lanes stalls, what a word on a range has done stands. -/
theorem State.longWord_stalls {s t : State} {i : Instr} {sc : BitVec 2} {g : BitVec 3} {codes : List (BitVec 5)} {lit : Word}
    {dst : Dst} {f : State → List (Nat × List Word) → State × List (Nat × LaneOut)} {rd : Nat → List Word} {outs : List (Nat × LaneOut)}
    (h : s.Ready g codes lit dst rd) (hf : f s ((s.active s.here g).map fun k => (k, rd k)) = (t, outs))
    (ho : outs.any (fun p => p.2 == .stall) = true) : s.longWord i sc g codes lit dst f = t.markStall s.here := by
  have hj := State.joinAll_of_ok (codes := codes) (lit := lit) (s := s) (rd := rd) h.1
  have hl : (s.active s.here g).map (fun k => (k, s.laneIn i codes lit dst k)) =
      (s.active s.here g).map fun k => (k, (.inl (rd k) : List Word ⊕ LaneOut)) :=
    List.map_congr_left fun k hk => by rw [State.laneIn_ok (h.1 k hk) (h.2 k hk).1]
  simp only [State.longWord, hj, hl, readyLanes_map, hf, ho, ↓reduceIte]

/-- Operands that no lane reads. -/
theorem State.moreIn_nil (s : State) (i : Instr) (codes : List (BitVec 5)) (lit : Word) : s.moreIn i codes lit [] = (s, [], []) := rfl

theorem addVals_map (ks : List Nat) (rd rd' : Nat → List Word) :
    addVals (ks.map fun k => (k, rd' k)) (ks.map fun k => (k, rd k)) = ks.map fun k => (k, rd k ++ rd' k) := by
  have e (k : Nat) (l : List Nat) (hk : k ∈ l) : (l.map fun j => (j, rd j)).find? (fun q => q.1 == k) = some (k, rd k) := by
    induction l with
    | nil => cases hk
    | cons j r ih =>
      rw [List.map_cons, List.find?_cons]
      by_cases hj : j = k
      · simp [hj]
      · have : (j == k) = false := by simpa using hj
        simp only [this]
        exact ih ((List.mem_cons.mp hk).resolve_left fun h => hj h.symm)
  simp only [addVals, List.filterMap_map]
  rw [filterMap_same (g := fun k => some (k, rd k ++ rd' k)) fun k hk => by rw [Function.comp_apply, e k ks hk]; rfl]
  simp

/-- Operands that all of the lanes read come ahead of their other values. -/
theorem State.moreIn_ready {s : State} {i : Instr} {codes : List (BitVec 5)} {lit : Word} {ks : List Nat} {rd rd' : Nat → List Word}
    (h : ∀ k ∈ ks, s.readCodes k lit codes = .ok (rd k)) :
    s.moreIn i codes lit (ks.map fun k => (k, rd' k)) = (s, (ks.map fun k => (k, rd k ++ rd' k)), []) := by
  have hj : (ks.map fun k => (k, rd' k)).foldl (fun s p => s.joinCodes p.1 codes) s = s := by
    rw [List.foldl_map]
    exact State.joinAll_of_ok h
  have hl : (ks.map fun k => (k, rd' k)).map (fun p => (p.1, s.laneIn i codes lit .none p.1)) =
      ks.map fun k => (k, (.inl (rd k) : List Word ⊕ LaneOut)) := by
    rw [List.map_map]
    exact List.map_congr_left fun k hk => by simp [State.laneIn_ok (h k hk) (show (s.thread k).dstOk .none = true from rfl)]
  simp only [State.moreIn, hj, hl, readyLanes_map, stoppedLanes_map, addVals_map]

/-! ### Words that hand out handles -/

/-- A word that is done in every active lane, with a handle's tag in some, brings its results and the tags to the group. -/
theorem State.groupWord_tags {s t : State} {i : Instr} {sc : BitVec 2} {g : BitVec 3} {codes : List (BitVec 5)} {lit : Word}
    {dst : Dst} {shift : Bool} {f : State → List (Nat × List Word) → State × List (Nat × LaneOut)} {rd : Nat → List Word}
    (h : s.Ready g codes lit dst rd) (hu : ∀ n d, dst ≠ .uni n d) (res : Nat → List Word) (tag : Nat → Option Nat)
    (hf : f s ((s.active s.here g).map fun k => (k, rd k)) =
      (t, (s.active s.here g).map fun k => (k, .done { vals := res k, ff := 0, sb := none, tag := tag k }))) :
    s.groupWord i sc g codes lit dst shift f = t.deliverTags s g dst shift res tag := by
  rw [State.groupWord_ready h.1 (fun k hk => (h.2 k hk).1)]
  simp only [hf]
  rw [if_neg (by simp)]
  have e1 : (t.updLanes s.here.lanes fun k x =>
      x.applyOut k dst shift ((s.active s.here g).map fun k => (k, LaneOut.done { vals := res k, ff := 0, sb := none, tag := tag k }))
        (outOf ((s.active s.here g).map fun k => (k, LaneOut.done { vals := res k, ff := 0, sb := none, tag := tag k })) k)) =
      t.deliver s g dst shift res noFlags := by
    unfold State.deliver
    apply State.updLanes_congr
    intro k hk x
    rw [outOf_map]
    have eb : octetByte ((s.active s.here g).map fun k => (k, LaneOut.done { vals := res k, ff := 0, sb := none, tag := tag k })) k = none := by
      simp only [octetByte, List.findSome?_map, List.findSome?_eq_none_iff]
      intro j _; simp
    by_cases hg : (s.thread k).guard g = true
    · simp only [State.mem_active, hk, hg, and_self, ↓reduceIte]
      cases dst <;> simp_all [Thread.applyOut, Thread.putSb_none, noFlags]
    · simp only [State.mem_active, hk, hg, Bool.false_eq_true, and_false, ↓reduceIte]
      cases dst <;> simp_all [Thread.applyOut, Thread.putSb_none]
  simp only [State.finish, e1]
  have e2 (u : State) (l : List Nat) : (l.map fun k => (k, LaneOut.done { vals := res k, ff := 0, sb := none, tag := tag k })).foldl
      (State.parkOut s.here.w) u = u := by
    apply foldl_same
    intro p hp; simp only [List.mem_map] at hp; obtain ⟨k, -, rfl⟩ := hp; rfl
  have e3 : trapsOf ((s.active s.here g).map fun k => (k, LaneOut.done { vals := res k, ff := 0, sb := none, tag := tag k })) = [] := by
    simp only [trapsOf, List.filterMap_eq_nil_iff]
    intro p hp; simp only [List.mem_map] at hp; obtain ⟨k, -, rfl⟩ := hp; rfl
  rw [e2, e3]
  simp [State.raise, State.raiseAt_nil, State.deliverTags]

end Sys2Proof.Machine
end

