-- ==== Sys2Proof/Laws/Exchange.lean ====
section
/-! SUPPORT. What an exchange word does, whatever its operation: one lemma for every domain. -/

namespace Sys2Proof.Machine

/-! ### Outcomes given by lane -/

theorem outOf_of {outs : List (Nat × LaneOut)} {F : Nat → LaneOut} (h : ∀ p ∈ outs, p.2 = F p.1) (k : Nat) :
    outOf outs k = if k ∈ outs.map Prod.fst then F k else .off := by
  induction outs with
  | nil => simp [outOf]
  | cons p r ih =>
    by_cases hp : p.1 = k
    · have := h p (by simp); subst hp; simp [outOf, this]
    · have h2 := ih fun q hq => h q (by simp [hq])
      unfold outOf at h2 ⊢
      rw [List.find?_cons_of_neg (by simp [hp]), h2]
      have e : (k ∈ List.map Prod.fst (p :: r)) ↔ k ∈ List.map Prod.fst r := by
        rw [List.map_cons, List.mem_cons]
        exact ⟨fun hx => hx.resolve_left fun hy => hp hy.symm, .inr⟩
      simp only [e]

theorem octetByte_of {outs : List (Nat × LaneOut)} {v : Nat → List Word} {fl : Nat → BitVec 5}
    (h : ∀ p ∈ outs, p.2 = doneFl (v p.1) (fl p.1)) (k : Nat) : octetByte outs k = none := by
  unfold octetByte
  rw [List.findSome?_eq_none_iff]
  intro p hp
  simp [h p hp, doneFl]

/-- A word whose outcomes, in whatever order, are those of its active lanes. -/
theorem State.groupWord_lanes {s t : State} {i : Instr} {sc : BitVec 2} {g : BitVec 3} {codes : List (BitVec 5)} {lit : Word}
    {dst : Dst} {shift : Bool} {f : State → List (Nat × List Word) → State × List (Nat × LaneOut)} {rd : Nat → List Word}
    {outs : List (Nat × LaneOut)} (h : s.Ready g codes lit dst rd) (hu : ∀ n d, dst ≠ .uni n d)
    (res : Nat → List Word) (fl : Nat → BitVec 5)
    (hf : f s ((s.active s.here g).map fun k => (k, rd k)) = (t, outs))
    (ho : ∀ p ∈ outs, p.2 = doneFl (res p.1) (fl p.1)) (hm : ∀ k, k ∈ outs.map Prod.fst ↔ k ∈ s.active s.here g)
    (hk : ∀ k ∈ s.active s.here g, t.Kept s k) :
    s.groupWord i sc g codes lit dst shift f = t.deliver s g dst shift res fl := by
  rw [State.groupWord_outs h hf (fun p hp => ⟨⟨_, ho p hp, rfl⟩, (hm p.1).mp (List.mem_map_of_mem hp)⟩) hk]
  unfold State.deliverOuts State.deliver
  apply State.updLanes_congr
  intro k hk x
  rw [outOf_of (F := fun k => doneFl (res k) (fl k)) ho k]
  simp only [hm]
  have hob := octetByte_of ho k
  by_cases hg : (s.thread k).guard g = true
  · simp only [State.mem_active, hk, hg, and_self, ↓reduceIte]
    cases dst with
    | uni n d => exact absurd rfl (hu n d)
    | none => simp [Thread.applyOut, doneFl, Thread.putSb]
    | pred d => simp [Thread.applyOut, doneFl, Thread.putSb]
    | vec n d => simp only [Thread.applyOut, doneFl, hob, Thread.putSb_none]
  · simp only [State.mem_active, hk, hg, Bool.false_eq_true, and_false, ↓reduceIte]
    cases dst with
    | uni n d => exact absurd rfl (hu n d)
    | none => simp [Thread.applyOut, Thread.putSb]
    | pred d => simp [Thread.applyOut, Thread.putSb]
    | vec n d => simp only [Thread.applyOut, hob, Thread.putSb_none]

/-! ### Firsts and readers -/

theorem firsts_sub {f : Nat → Nat} {l seen : List Nat} : ∀ k ∈ firsts f seen l, k ∈ l := by
  induction l generalizing seen with
  | nil => simp [firsts]
  | cons x r ih =>
    intro k hk
    rw [firsts] at hk
    split at hk
    · exact List.mem_cons_of_mem _ (ih k hk)
    · rcases List.mem_cons.mp hk with rfl | hk
      · simp
      · exact List.mem_cons_of_mem _ (ih k hk)

theorem firsts_cover {f : Nat → Nat} {l seen : List Nat} :
    ∀ k ∈ l, f k ∈ seen ∨ ∃ j ∈ firsts f seen l, f j = f k := by
  induction l generalizing seen with
  | nil => simp
  | cons x r ih =>
    intro k hk
    rw [firsts]
    rcases List.mem_cons.mp hk with rfl | hk
    · by_cases hs : seen.contains (f k)
      · exact .inl (by simpa using hs)
      · exact .inr ⟨k, by rw [if_neg hs]; simp, rfl⟩
    · split
      · exact ih k hk
      · rcases ih (seen := f x :: seen) k hk with h | ⟨j, hj, e⟩
        · rcases List.mem_cons.mp h with h | h
          · exact .inr ⟨x, by simp, h.symm⟩
          · exact .inl h
        · exact .inr ⟨j, List.mem_cons_of_mem _ hj, e⟩

theorem mem_insertReader (x y : Reader) (l : List Reader) : y ∈ insertReader x l ↔ y = x ∨ y ∈ l := by
  induction l with
  | nil => simp [insertReader]
  | cons z r ih =>
    rw [insertReader]
    split
    · simp
    · simp only [List.mem_cons, ih]
      constructor
      · rintro (h | h | h) <;> simp [h]
      · rintro (h | h | h) <;> simp [h]

theorem mem_sortReaders (y : Reader) (l : List Reader) : y ∈ sortReaders l ↔ y ∈ l := by
  unfold sortReaders
  induction l with
  | nil => simp
  | cons x r ih => simp only [List.foldr_cons, mem_insertReader, ih, List.mem_cons]

/-- The readers of lanes whose data slots are staged, or whose word reads none. -/
theorem State.readers_ok {s : State} {i : Instr} {d : Dom} {data : Bool} {a : BitVec 5} {ks : List Nat} {rd : Nat → List Word}
    {reg : Nat → Nat} (h : ∀ k ∈ ks, if data then (s.peek k).slotReg a.toNat = some (reg k) else reg k = 0) :
    s.readers i d data a (ks.map fun k => (k, rd k)) =
      (ks.map fun k => s.readerOf d a (reg k) (val (rd k) 0) k, []) := by
  induction ks with
  | nil => rfl
  | cons k r ih =>
    have h1 := h k (by simp)
    have h2 := ih fun j hj => h j (by simp [hj])
    simp only [State.readers, Prod.mk.injEq] at h2 ⊢
    cases data with
    | false =>
      simp only [Bool.false_eq_true, ↓reduceIte] at h1 h2 ⊢
      simp only [List.map_cons, List.filterMap_cons]
      rw [h2.1, h2.2, h1]
      exact ⟨rfl, rfl⟩
    | true =>
      simp only [↓reduceIte] at h1 h2 ⊢
      simp only [List.map_cons, List.filterMap_cons, h1]
      rw [h2.1, h2.2]
      exact ⟨rfl, rfl⟩

/-- An exchange word whose operation is done in every lane of each domain. -/
theorem State.exchange_gives {s : State} {i : Instr} {o : OpA} {codes : List (BitVec 5)} {dst : Dst} {data : Bool} {op : DomOp}
    {shift : Bool} {dom : Nat → Dom} {reg : Nat → Nat} {b : Nat → Word} {rd : Nat → List Word}
    (hd : s.Domains o shift dom) (hr : s.Ready o.g codes o.lit dst rd) (hb : ∀ k, val (rd k) 0 = b k)
    (hu : ∀ n d, dst ≠ .uni n d)
    (hs : ∀ k ∈ s.active s.here o.g, if data then (s.peek k).slotReg o.a.toNat = some (reg k) else reg k = 0)
    (res : Nat → List Word) (fl : Nat → BitVec 5)
    (hop : ∀ k ∈ s.active s.here o.g, op s (dom k) (s.domReaders o dom reg b k) =
      (s.domReaders o dom reg b k).map fun r => (r.k, doneFl (res r.k) (fl r.k))) :
    s.exchange i o codes dst data op = s.gives o.g dst shift res fl := by
  have hdom (ks : List Nat) (k0 : Nat) (h0 : k0 ∈ s.active s.here o.g) (hks : ks = (s.active s.here o.g).filter fun j => dom j = dom k0)
      (hall : ∀ j ∈ ks, dom j = dom k0) :
      s.runDom i data o.a op (dom k0) (ks.map fun k => (k, rd k)) =
        (s.domReaders o dom reg b k0).map fun r => (r.k, doneFl (res r.k) (fl r.k)) := by
    have hsub : ∀ k ∈ ks, k ∈ s.active s.here o.g := by
      intro k hk; rw [hks] at hk; exact (List.mem_filter.mp hk).1
    have e : ks.map (fun k => s.readerOf (dom k0) o.a (reg k) (val (rd k) 0) k) =
        ks.map fun j => s.readerOf (dom j) o.a (reg j) (b j) j :=
      List.map_congr_left fun j hj => by rw [hall j hj, hb]
    simp only [State.runDom, State.readers_ok (reg := reg) fun k hk => hs k (hsub k hk), List.nil_append]
    rw [e, hks]
    exact hop k0 h0
  have hkeys (k0 : Nat) (j : Nat) : j ∈ ((s.domReaders o dom reg b k0).map fun r => (r.k, doneFl (res r.k) (fl r.k))).map Prod.fst ↔
      j ∈ s.active s.here o.g ∧ dom j = dom k0 := by
    simp only [State.domReaders, List.mem_map, mem_sortReaders, List.mem_filter, decide_eq_true_eq]
    constructor
    · rintro ⟨p, ⟨r, ⟨x, hx, rfl⟩, rfl⟩, rfl⟩; exact hx
    · intro h; exact ⟨_, ⟨_, ⟨j, h, rfl⟩, rfl⟩, rfl⟩
  unfold State.exchange State.gives
  rcases hd with ⟨hn, hsh, hdm⟩ | ⟨hn, hsh, r, hg, hdm⟩
  · have hcase : ∀ k ∈ s.active s.here o.g, ∀ j ∈ s.active s.here o.g, (dom j = dom k ↔ yardOf j = yardOf k) := by
      intro k hk j hj; rw [hdm k hk, hdm j hj]; simp
    have hfil (k0 : Nat) (h0 : k0 ∈ s.active s.here o.g) :
        ((s.active s.here o.g).map fun k => (k, rd k)).filter (fun p => yardOf p.1 == yardOf k0) =
          ((s.active s.here o.g).filter fun j => dom j = dom k0).map fun k => (k, rd k) := by
      rw [List.filter_map]
      congr 1
      apply List.filter_congr
      intro j hj
      rw [decide_eq_decide.mpr (hcase k0 h0 j hj)]; rfl
    have hsplit : (match setKind (s.groupVersion s.here.lanes) o.s with
        | .rig => s.rigExchange i o codes dst data op
        | _ => s.groupWord i o.s o.g codes o.lit dst true fun s ins =>
          (s, byYard ins fun y l => s.runDom i data o.a op { n := 64, yard := y, rig := none } l)) =
        s.groupWord i o.s o.g codes o.lit dst true fun s ins =>
          (s, byYard ins fun y l => s.runDom i data o.a op { n := 64, yard := y, rig := none } l) := by
      cases hc : setKind (s.groupVersion s.here.lanes) o.s with
      | rig => exact absurd hc hn
      | lane => rfl
      | yard => rfl
    rw [hsh]
    refine hsplit.trans ?_
    refine State.groupWord_lanes hr hu res fl (t := s)
      (outs := (firsts yardOf [] (s.active s.here o.g)).flatMap fun k0 =>
        (s.domReaders o dom reg b k0).map fun r => (r.k, doneFl (res r.k) (fl r.k))) ?_ ?_ ?_
      fun k hk => State.kept_of_threads rfl (State.active_sub hk)
    · refine Prod.ext rfl ?_
      simp only [byYard, List.map_map, Function.comp_def, List.map_id']
      have go (l : List Nat) (hl : ∀ k ∈ l, k ∈ s.active s.here o.g) :
          (l.flatMap fun k => s.runDom i data o.a op { n := 64, yard := yardOf k, rig := none }
            (((s.active s.here o.g).map fun k => (k, rd k)).filter fun p => yardOf p.1 == yardOf k)) =
          l.flatMap fun k0 => (s.domReaders o dom reg b k0).map fun r => (r.k, doneFl (res r.k) (fl r.k)) := by
        induction l with
        | nil => rfl
        | cons x r ih =>
          have hx := hl x (by simp)
          simp only [List.flatMap_cons]
          rw [ih fun k hk => hl k (by simp [hk]), hfil x hx, ← hdm x hx,
            hdom _ x hx rfl fun j hj => by simpa using (List.mem_filter.mp hj).2]
      exact go _ fun k hk => firsts_sub k hk
    · intro p hp
      simp only [List.mem_flatMap, List.mem_map] at hp
      obtain ⟨k0, -, x, -, rfl⟩ := hp
      rfl
    · intro k
      rw [List.map_flatMap]
      simp only [List.mem_flatMap, hkeys]
      constructor
      · rintro ⟨k0, -, h, -⟩; exact h
      · intro h
        rcases firsts_cover (f := yardOf) (seen := []) k h with h' | ⟨j, hj, e⟩
        · simp at h'
        · exact ⟨j, hj, h, (hcase j (firsts_sub j hj) k h).mpr e.symm⟩
  · have hsplit : (match setKind (s.groupVersion s.here.lanes) o.s with
        | .rig => s.rigExchange i o codes dst data op
        | _ => s.groupWord i o.s o.g codes o.lit dst true fun s ins =>
          (s, byYard ins fun y l => s.runDom i data o.a op { n := 64, yard := y, rig := none } l)) =
        s.rigExchange i o codes dst data op := by rw [hn]
    rw [hsh]
    refine hsplit.trans ?_
    unfold State.rigExchange
    by_cases hact : s.active s.here o.g = []
    · refine State.groupWord_lanes hr hu res fl (t := s) (outs := []) ?_ (by simp) (by simp [hact])
        fun k hk => State.kept_of_threads rfl (State.active_sub hk)
      simp [hact, firsts]
    · obtain ⟨k0, rest, hk0⟩ : ∃ k0 rest, s.active s.here o.g = k0 :: rest := by
        cases h : s.active s.here o.g with
        | nil => exact absurd h hact
        | cons a l => exact ⟨a, l, rfl⟩
      have hall : ∀ j ∈ s.active s.here o.g, dom j = dom k0 := by
        intro j hj; rw [hdm j hj, hdm k0 (by rw [hk0]; simp)]
      have hdm0 : dom k0 = { n := 64 * (s.rig r).count, yard := yardOf k0, rig := some r } := by
        rw [hdm k0 (by rw [hk0]; simp), hk0]; rfl
      have hmem0 : k0 ∈ s.active s.here o.g := by rw [hk0]; simp
      refine State.groupWord_lanes hr hu res fl (t := s)
        (outs := (s.domReaders o dom reg b k0).map fun r => (r.k, doneFl (res r.k) (fl r.k))) ?_ ?_ ?_
        fun k hk => State.kept_of_threads rfl (State.active_sub hk)
      · have hgiven : ∀ p ∈ (s.active s.here o.g).map (fun k => (k, rd k)), (s.thread p.1).given = none := by
          intro p hp; simp only [List.mem_map] at hp; obtain ⟨k, hk, rfl⟩ := hp; exact (hg k hk).1
        have e1 : ((s.active s.here o.g).map fun k => (k, rd k)).filter (fun p => (s.thread p.1).given.isSome) = [] := by
          rw [List.filter_eq_nil_iff]; intro p hp; simp [hgiven p hp]
        have e2 : ((s.active s.here o.g).map fun k => (k, rd k)).filter (fun p => (s.thread p.1).given.isNone) =
            (s.active s.here o.g).map fun k => (k, rd k) := by
          rw [List.filter_eq_self]; intro p hp; simp [hgiven p hp]
        have hrig : ∀ k ∈ s.active s.here o.g, s.rigNo k = r := by
          intro k hk; obtain ⟨-, ⟨ord, hord⟩, -⟩ := hg k hk; simp [State.rigNo, hord]
        simp only [e1, e2, List.map_nil, List.nil_append, List.foldl_nil, List.map_map, Function.comp_def, List.map_id']
        have e3 : firsts s.rigNo [] (s.active s.here o.g) = [k0] := by
          rw [hk0, firsts]
          simp only [List.contains_nil, Bool.false_eq_true, ↓reduceIte]
          rw [hrig k0 hmem0, firsts_const (y := r)]
          intro k hk; exact hrig k (by rw [hk0]; simp [hk])
        rw [e3]
        have e6 : (s.releasedMates (s.rigNo k0) (s.thread k0).released s.here.lanes).filter (fun j => (s.thread j).guard o.g) = [] := by
          rw [hrig k0 hmem0, (hg k0 hmem0).2.2]; rfl
        simp only [List.flatMap_cons, List.flatMap_nil, List.append_nil, e6, List.foldl_nil, List.filterMap_nil]
        have e4 : ((s.active s.here o.g).map fun k => (k, rd k)).filter (fun p => s.rigNo p.1 == s.rigNo k0) =
            (s.active s.here o.g).map fun k => (k, rd k) := by
          rw [List.filter_eq_self]; intro p hp
          simp only [List.mem_map] at hp; obtain ⟨k, hk, rfl⟩ := hp
          rw [hrig k0 hmem0]; simpa using hrig k hk
        rw [e4, hrig k0 hmem0]
        have e5 := hdom (s.active s.here o.g) k0 hmem0
          (by rw [List.filter_eq_self.mpr]; intro j hj; simpa using hall j hj) hall
        rw [hdm0] at e5
        rw [e5]
        have hin : ∀ p ∈ (s.domReaders o dom reg b k0).map (fun r => (r.k, doneFl (res r.k) (fl r.k))), s.here.lanes.contains p.1 = true := by
          intro p hp
          have := (hkeys k0 p.1).mp (List.mem_map_of_mem hp)
          simpa using State.active_sub this.1
        rw [foldl_same _ _ _ fun p hp => by rw [hin p hp]; rfl, List.filter_eq_self.mpr hin]
      · intro p hp
        simp only [List.mem_map] at hp
        obtain ⟨x, -, rfl⟩ := hp
        rfl
      · intro k
        rw [hkeys]
        exact ⟨fun h => h.1, fun h => ⟨h, hall k h⟩⟩

end Sys2Proof.Machine
end

