-- ==== Sys2Proof/Laws/Memory.lean ====
section
/-! SUPPORT. What the operations of memory leave alone: the fabric (threads, yards, partitions, cores, rigs) stands as it was, one
lemma for each operation; and a word of L2 reads the same through an eviction. -/

namespace Sys2Proof.Machine

theorem foldl_fab {α : Type} (f : State → α → State) (h : ∀ s x, (f s x).fab = s.fab) (l : List α) (s : State) :
    (l.foldl f s).fab = s.fab := by
  induction l generalizing s with
  | nil => rfl
  | cons x r ih => rw [List.foldl_cons, ih, h]

/-! ### Home slices and lines -/

@[simp] theorem State.setChannel_fab (s : State) (pc : Nat) (r : Refresh) : (s.setChannel pc r).fab = s.fab := rfl
@[simp] theorem State.channelRead_fab (s : State) (line : Nat) : (s.channelRead line).fab = s.fab := by
  simp only [State.channelRead]; split <;> rfl
@[simp] theorem State.channelWrite_fab (s : State) (line : Nat) : (s.channelWrite line).fab = s.fab := by
  simp only [State.channelWrite]; split <;> rfl

@[simp] theorem State.setHome_fab (s : State) (wa : Nat) (v : Word) : (s.setHome wa v).fab = s.fab := by
  unfold State.setHome; split <;> rfl
@[simp] theorem State.dropCopies_fab (s : State) (wa : Nat) : (s.dropCopies wa).fab = s.fab := rfl
@[simp] theorem State.unpoison_fab (s : State) (wa : Nat) : (s.unpoison wa).fab = s.fab := rfl
@[simp] theorem State.homeWrite_fab (s : State) (wa : Nat) (v : Word) : (s.homeWrite wa v).fab = s.fab := by
  simp [State.homeWrite]
@[simp] theorem State.record_fab (s : State) (wa rank since : Nat) (mask : BitVec 4) (v : Word) :
    (s.record wa rank since mask v).1.fab = s.fab := by simp [State.record]
@[simp] theorem State.homeStore_fab (s : State) (wa rank since : Nat) (mask : BitVec 4) (v : Word) :
    (s.homeStore wa rank since mask v).fab = s.fab := by
  simp only [State.homeStore]; repeat' split
  all_goals simp
@[simp] theorem State.homeAtomic_fab (s : State) (wa rank : Nat) (v : Word) : (s.homeAtomic wa rank v).fab = s.fab := by
  simp [State.homeAtomic]

@[simp] theorem State.dropLine_fab (s : State) (line : Nat) (core : Option Nat) : (s.dropLine line core).fab = s.fab := rfl
@[simp] theorem State.recallLine_fab (s : State) (line : Nat) : (s.recallLine line).fab = s.fab := rfl
@[simp] theorem State.startSweep_fab (s : State) (w : Nat) : (s.startSweep w).fab = s.fab := rfl
@[simp] theorem State.countLine_fab (s : State) (line : Nat) : (s.countLine line).fab = s.fab := rfl
@[simp] theorem State.countWrite_fab (s : State) (line : Nat) : (s.countWrite line).fab = s.fab := by
  simp only [State.countWrite]; repeat' split
  all_goals simp
@[simp] theorem State.writeDirty_fab (s : State) (wa : Nat) : (s.writeDirty wa).fab = s.fab := by
  unfold State.writeDirty; split <;> rfl
@[simp] theorem State.writeLine_fab (s : State) (line : Nat) : (s.writeLine line).fab = s.fab := by
  simp only [State.writeLine]
  rw [foldl_fab _ (fun s i => State.writeDirty_fab s _)]
  split <;> simp
@[simp] theorem State.dropSlice_fab (s : State) (line : Nat) : (s.dropSlice line).fab = s.fab := rfl
@[simp] theorem State.evictLine_fab (s : State) (line : Nat) : (s.evictLine line).fab = s.fab := by simp [State.evictLine]
@[simp] theorem State.touchSlice_fab (s : State) (wa : Nat) (first alloc : Bool) : (s.touchSlice wa first alloc).fab = s.fab := by
  simp only [State.touchSlice]; repeat' split
  all_goals simp
@[simp] theorem State.register_fab (s : State) (p : Pend) (drop : Bool) (late : List Nat) : (s.register p drop late).fab = s.fab := by
  simp only [State.register]; repeat' split
  all_goals simp
@[simp] theorem State.flushCore_fab (s : State) (core : Nat) : (s.flushCore core).fab = s.fab := by
  simp only [State.flushCore, State.setMem_fab]
  exact foldl_fab _ (fun s p => State.register_fab s p true []) _ _
@[simp] theorem State.evictData_fab (s : State) (core line : Nat) : (s.evictData core line).fab = s.fab := by
  simp only [State.evictData, State.dropLine_fab, State.setMem_fab]
  exact foldl_fab _ (fun s p => State.register_fab s p true []) _ _
@[simp] theorem State.touchData_fab (s : State) (core wa : Nat) (first : Bool) : (s.touchData core wa first).fab = s.fab := by
  simp only [State.touchData, State.setMem_fab]; repeat' split
  all_goals simp

/-! ### The directory -/

@[simp] theorem State.dirReplace_fab (s : State) (e : DirEntry) (l : List DirEntry) : (s.dirReplace e l).fab = s.fab := rfl
@[simp] theorem State.backInvalidate_fab (s : State) (hs : List Nat) (line : Nat) (inv : Bool) :
    (s.backInvalidate hs line inv).fab = s.fab := by
  unfold State.backInvalidate
  rw [foldl_fab]
  intro s x; rfl
theorem State.evictEntry_fab {s t : State} (h : s.evictEntry = some t) : t.fab = s.fab := by
  unfold State.evictEntry at h
  simp only at h
  split at h
  · cases h
  · split at h
    · simp only [Option.some.injEq] at h; rw [← h]; rfl
    · simp only [Option.some.injEq] at h; rw [← h, State.dirReplace_fab]
      exact foldl_fab _ (fun s l => State.backInvalidate_fab s _ _ _) _ _
@[simp] theorem State.dirRoom_fab (s : State) (k n : Nat) : (s.dirRoom k n).1.fab = s.fab := by
  induction n generalizing s with
  | zero => rfl
  | succ n ih =>
    unfold State.dirRoom
    split
    · rfl
    · split
      · rfl
      · split
        · rfl
        · rename_i h; rw [ih, State.evictEntry_fab h]
@[simp] theorem State.queueAsk_fab (s : State) (a : Ask) : (s.queueAsk a).fab = s.fab := rfl
@[simp] theorem State.dropAsk_fab (s : State) (a : Ask) : (s.dropAsk a).fab = s.fab := by unfold State.dropAsk; split <;> rfl
@[simp] theorem State.dirServe_fab (s : State) (e : DirEntry) (pa : Nat) (write : Bool) : (s.dirServe e pa write).1.fab = s.fab := by
  simp only [State.dirServe]; repeat' split
  all_goals simp
@[simp] theorem State.dirAccess_fab (s : State) (pa : Nat) (write nc : Bool) : (s.dirAccess pa write nc).1.fab = s.fab := by
  simp only [State.dirAccess]; repeat' split
  all_goals simp

/-! ### Loads and stores of words -/

@[simp] theorem State.drainPend_fab (s : State) (f : Pend → Bool) : (s.drainPend f).1.fab = s.fab := by
  unfold State.drainPend
  have go (l : List Pend) (a : State × Bool) : (l.foldl (fun acc p =>
      let (s1, ready) := acc.1.dirAccess p.word true p.nc
      if ready then (s1.register p true, acc.2) else (s1, false)) a).1.fab = a.1.fab := by
    induction l generalizing a with
    | nil => rfl
    | cons p r ih =>
      rw [List.foldl_cons, ih]
      simp only
      split <;> simp
  exact go _ _
@[simp] theorem State.drain_fab (s : State) (k : Nat) : (s.drain k).1.fab = s.fab := State.drainPend_fab _ _
@[simp] theorem State.drainAll_fab (s : State) (l : List Nat) : (s.drainAll l).1.fab = s.fab := State.drainPend_fab _ _
@[simp] theorem State.meetPend_fab (s : State) (k wa : Nat) : (s.meetPend k wa).fab = s.fab := by
  unfold State.meetPend; split <;> simp
@[simp] theorem State.fillWord_fab (s : State) (core wa : Nat) : (s.fillWord core wa).fab = s.fab := rfl
@[simp] theorem State.loadWord_fab (s : State) (k hint wa : Nat) : (s.loadWord k hint wa).1.fab = s.fab := by
  simp only [State.loadWord]; repeat' split
  all_goals simp
@[simp] theorem State.loadRun_fab (s : State) (k hint : Nat) (was : List Nat) : (s.loadRun k hint was).1.fab = s.fab := by
  induction was generalizing s with
  | nil => rfl
  | cons wa r ih => simp only [State.loadRun]; rw [ih, State.loadWord_fab]
@[simp] theorem State.storeWord_fab (s : State) (k hint wa : Nat) (nc : Bool) (mask : BitVec 4) (v : Word) :
    (s.storeWord k hint wa nc mask v).fab = s.fab := by
  simp only [State.storeWord]; repeat' split
  all_goals simp
@[simp] theorem State.storeRun_fab (s : State) (k hint pa : Nat) (nc : Bool) (ws : List Word) :
    (s.storeRun k hint pa nc ws).fab = s.fab := by
  unfold State.storeRun
  exact foldl_fab _ (fun s x => State.storeWord_fab _ _ _ _ _ _ _) _ _
@[simp] theorem State.fetchLine_fab (s : State) (core line : Nat) (nc : Bool) : (s.fetchLine core line nc).1.fab = s.fab := by
  simp only [State.fetchLine]; repeat' split
  · rfl
  · simp
  · rw [foldl_fab]
    · simp
    · intro s x; repeat' split
      all_goals simp
@[simp] theorem State.fetch_fab (s : State) (core line : Nat) (nc : Bool) : (s.fetch core line nc).fab = s.fab := by
  simp only [State.fetch]; split <;> simp

/-! ### Translation -/

theorem State.potFill_fab {s t : State} {w : BitVec 6} {mode lo hi : Nat} (h : s.potFill w mode lo hi = .inl t) : t.fab = s.fab := by
  simp only [State.potFill] at h
  split at h
  · cases h
  · split at h
    · cases h
    · simp only [Sum.inl.injEq] at h; rw [← h]; rfl

theorem State.tableCheck_fab {s t : State} {x : Context} {ppn : Nat} (h : s.tableCheck x ppn = .inl t) : t.fab = s.fab := by
  unfold State.tableCheck at h
  split at h
  · simp only [Sum.inl.injEq] at h; rw [← h]
  · split at h
    · cases h
    · exact State.potFill_fab h

theorem State.leafCheck_fab {s t : State} {x : Context} {e : TlbEntry} (h : s.leafCheck x e = .inl t) : t.fab = s.fab := by
  simp only [State.leafCheck] at h
  split at h
  · split at h
    · simp only [Sum.inl.injEq] at h; rw [← h]
    · exact State.potFill_fab h
  · split at h
    · cases h
    · exact State.potFill_fab h

@[simp] theorem State.walkFrom_fab (s : State) (c : Nat) (x : Context) (vpage kind ppn n : Nat) :
    (s.walkFrom c x vpage kind ppn n).1.fab = s.fab := by
  induction n generalizing s ppn with
  | zero => rfl
  | succ n ih =>
    unfold State.walkFrom
    split
    · rfl
    · rename_i s1 h1
      have e := State.tableCheck_fab h1
      have e2 := fun pa => (State.dirAccess_fab s1 pa false false).trans e
      simp only
      split
      · exact e2 _
      · split
        · exact e2 _
        · split
          · exact e2 _
          · split
            · split
              · exact e2 _
              · rw [ih]; exact e2 _
            · split
              · exact e2 _
              · split
                · exact e2 _
                · rename_i h2; rw [State.leafCheck_fab h2]; exact e2 _

@[simp] theorem State.tlbFill_fab (s : State) (place : Nat) (e : TlbEntry) : (s.tlbFill place e).fab = s.fab := rfl
@[simp] theorem State.prefetchAt_fab (s : State) (c : Nat) (e : TlbEntry) (core : Nat) (a : DWord) :
    (s.prefetchAt c e core a).fab = s.fab := by unfold State.prefetchAt; split <;> simp
@[simp] theorem State.joinWalk_fab (s : State) (w : Walk) : (s.joinWalk w).fab = s.fab := rfl

@[simp] theorem State.walkNow_fab (s : State) (cl : Nat) (core : Option Nat) (c vpage kind : Nat) :
    (s.walkNow cl core c vpage kind).1.fab = s.fab := by
  simp only [State.walkNow]
  split
  · rfl
  · split
    · rename_i h
      have := congrArg (fun r => r.1.fab) h
      simp only [State.walkFrom_fab] at this
      rw [foldl_fab _ (fun s p => State.prefetchAt_fab s _ _ _ _), foldl_fab _ (fun s i => State.tlbFill_fab s i _),
        State.tlbFill_fab, ← this]
      rfl
    · rename_i h
      have := congrArg (fun r => r.1.fab) h
      simp only [State.walkFrom_fab] at this
      simp only [State.joinWalk_fab, State.setMem_fab, ← this]
    · rw [State.walkFrom_fab]; rfl

@[simp] theorem State.translate_fab (s : State) (core c vpage kind : Nat) : (s.translate core c vpage kind).1.fab = s.fab := by
  simp only [State.translate]
  split
  · rfl
  · split
    · rfl
    · exact State.walkNow_fab _ _ _ _ _ _

@[simp] theorem State.reach_fab (s : State) (via : Option Nat) (c : Nat) (a : DWord) (kind : Nat) :
    (s.reach via c a kind).1.fab = s.fab := by
  have e : (match via with
      | some core => s.translate core c (vpageOf a) kind
      | none => s.walkFrom c (s.ctx c) (vpageOf a) kind (s.ctx c).ppn.toNat 5).1.fab = s.fab := by
    cases via with
    | none => exact State.walkFrom_fab _ _ _ _ _ _ _
    | some core => exact State.translate_fab _ _ _ _ _
  simp only [State.reach]
  split
  · rename_i h
    have h2 := congrArg (fun r => r.1.fab) h
    simp only at h2
    split <;> exact h2.symm.trans e
  · rename_i h; exact (congrArg (fun r => r.1.fab) h).symm.trans e
  · rename_i h; exact (congrArg (fun r => r.1.fab) h).symm.trans e
  · rename_i h; exact (congrArg (fun r => r.1.fab) h).symm.trans e

/-! ### What an eviction keeps -/

/-- The home slice of `wa` answers `v`, from L2 or from memory in canonical form; `n` is the line whose dirty words may move. -/
abbrev HoldsWord (m : Mem) (wa n : Nat) (v : Word) : Prop :=
  m.bytes.wf = true ∧ (Map.find? m.l2 wa = some v ∨ (Map.find? m.l2 wa = none ∧ m.bytes.word wa = v ∧ n % 4 = wa % 4))

theorem HoldsWord.homeWord {s : State} {wa n : Nat} {v : Word} (h : HoldsWord s.mem wa n v) : s.homeWord wa = v := by
  obtain ⟨-, h | ⟨h1, h2, -⟩⟩ := h <;> simp [State.homeWord, *]

theorem State.writeDirty_holds (s : State) (line i wa : Nat) (v : Word) (h : HoldsWord s.mem wa line v) :
    HoldsWord (s.writeDirty (line + 4 * i)).mem wa line v := by
  unfold State.writeDirty
  split
  · exact h
  · rename_i w hw
    obtain ⟨hwf, ht⟩ := h
    refine ⟨Memory.wf_setWord _ _ _ hwf, ?_⟩
    by_cases e : wa = line + 4 * i
    · subst e
      rcases ht with h1 | h1
      · right; simp only [hw, Option.some.injEq] at h1
        exact ⟨Map.find?_del_same _ _, by rw [← h1]; exact Memory.word_setWord _ _ _ hwf, by omega⟩
      · simp [hw] at h1
    · rcases ht with h1 | ⟨h1, h2, h3⟩
      · left; exact (Map.find?_del_other _ _ _ e).trans h1
      · right; exact ⟨(Map.find?_del_other _ _ _ e).trans h1, (Memory.word_setWord_other _ _ _ _ hwf (by omega)).trans h2, h3⟩

theorem State.writeDirties_holds (l : List Nat) (s : State) (line wa : Nat) (v : Word) (h : HoldsWord s.mem wa line v) :
    HoldsWord (l.foldl (fun s i => s.writeDirty (line + 4 * i)) s).mem wa line v := by
  induction l generalizing s with
  | nil => exact h
  | cons i l ih => exact ih _ (State.writeDirty_holds _ _ _ _ _ h)

theorem Mem.countUp_holds (m : Mem) (level i n wa k : Nat) (v : Word) (h : HoldsWord m wa k v) :
    HoldsWord (m.countUp level i n) wa k v := by
  induction n generalizing m level i with
  | zero => exact h
  | succ n ih => exact ih _ _ _ h

theorem State.countWrite_holds (s : State) (line wa k : Nat) (v : Word) (h : HoldsWord s.mem wa k v) :
    HoldsWord (s.countWrite line).mem wa k v := by
  simp only [State.countWrite]
  repeat' split
  · exact h
  · exact Mem.countUp_holds _ _ _ _ _ _ _ h
  · exact Mem.countUp_holds _ _ _ _ _ _ _ h
  · exact h

theorem State.writeLine_holds (s : State) (line wa : Nat) (v : Word) (h : HoldsWord s.mem wa line v) :
    HoldsWord (s.writeLine line).mem wa line v := by
  simp only [State.writeLine]
  refine State.writeDirties_holds _ _ _ _ _ ?_
  split
  · unfold State.channelWrite
    simp only
    split
    · exact State.countWrite_holds _ _ _ _ _ h
    · exact State.countWrite_holds _ _ _ _ _ h
  · exact h

theorem State.dropSlice_holds (s : State) (line wa k : Nat) (v : Word) (h : HoldsWord s.mem wa k v) :
    HoldsWord (s.dropSlice line).mem wa k v := h
theorem State.recallLine_holds (s : State) (line wa k : Nat) (v : Word) (h : HoldsWord s.mem wa k v) :
    HoldsWord (s.recallLine line).mem wa k v := h

theorem State.evictLine_holds (s : State) (line wa : Nat) (v : Word) (h : HoldsWord s.mem wa line v) :
    HoldsWord (s.evictLine line).mem wa line v :=
  State.dropSlice_holds _ _ _ _ _ (State.writeLine_holds _ _ _ _ (State.recallLine_holds _ _ _ _ _ h))

/-- An access that finds no room evicts a line; a word held in L2 reads as before. -/
theorem State.touchSlice_homeWord (s : State) (x wa : Nat) (first alloc : Bool) (v : Word) (hw : s.mem.bytes.wf = true)
    (h : Map.find? s.mem.l2 wa = some v) : (s.touchSlice x first alloc).homeWord wa = v := by
  have hk : ∀ k, HoldsWord s.mem wa k v := fun k => ⟨hw, .inl h⟩
  have hr : ∀ l k, HoldsWord (s.channelRead l).mem wa k v := by
    intro l k; unfold State.channelRead; simp only; split <;> exact hk k
  have go : ∀ (t : State) (k : Nat) (m : Map (List Nat)), HoldsWord t.mem wa k v → (t.setMem { t.mem with slices := m }).homeWord wa = v :=
    fun t k m h => HoldsWord.homeWord (n := k) (s := t.setMem { t.mem with slices := m }) h
  simp only [State.touchSlice]
  have h1 : ∀ k, HoldsWord (if (Map.getD s.mem.slices (sliceOf (lineAddr x)) []).contains (lineAddr x) = true then s
      else s.channelRead (lineAddr x)).mem wa k v := by
    intro k; split
    · exact hk k
    · exact hr _ k
  split
  · exact (hk 0).homeWord
  · split
    · exact (h1 0).homeWord
    · split
      · exact go _ 0 _ (h1 0)
      · split
        · exact go _ 0 _ (h1 0)
        · rename_i v2 _ _ _; exact go _ v2 _ (State.evictLine_holds _ _ _ _ (h1 v2))

end Sys2Proof.Machine
end

