-- ==== Sys2Proof/Laws/Access.lean ====
section
/-! SUPPORT. What the shared operations of memory words, line words, yard words and futures do where their conditions hold. -/

namespace Sys2Proof.Machine

/-- Clearing no lines changes nothing. -/
theorem State.clearLines_nil (s : State) : s.clearLines [] = s := by
  have e : (fun p : Nat => !(p % 4 == 1 && (List.range 16).all fun i => ([] : List Nat).contains (p - 1 + 4 * i))) = fun _ => true := by
    funext p; simp
    exact .inr ⟨0, by omega⟩
  simp only [State.clearLines, e]
  rw [show s.mem.poison.filter (fun _ => true) = s.mem.poison from List.filter_eq_self.mpr (by simp)]; rfl

/-- A ready on-chip access is placed. -/
theorem State.locate_chip {s : State} {k : Nat} {a : DWord} {size kind : Nat} (h : s.ChipReady k a size kind) :
   s.locate k a size kind = (s, .at (.chip a.toNat)) := by
  have h1 : (s.core (targetCore a)).ctx != some (s.ctxOf k) ↔ False := by simp [h.context]
  have h6 : (spaceOf a == 6) = false := by simpa using h.memory
  simp only [State.locate, h.onChip, h.form, h.aligned, State.chipPlace, h6, h1, h.free, h.idle]
  simp

/-- What a ready on-chip place reads as. -/
theorem State.read_chip {s : State} {k hint : Nat} {a : DWord} {size kind : Nat} (h : s.ChipReady k a size kind) (n : Nat) (hn : n ≤ size / 4) :
   s.readPlace k hint a n (.chip a.toNat) = (s, .inl (s.chipWords a n)) := by
  simp only [State.readPlace]
  rw [if_neg]
  · simp only [State.chipWords, List.map_map]; rfl
  · simp only [Bool.not_eq_true, List.any_eq_false, List.mem_map, List.mem_range]
    rintro x ⟨i, hi, rfl⟩; simpa using h.clean i (by omega)

/-- A load of a lane from on-chip storage. -/
theorem State.loadLane_chip {s : State} {k hint : Nat} {a : DWord} {size : Nat} (h : s.ChipReady k a size 0) :
   s.loadLane k hint size a = (s, doneWith (s.chipWords a (size / 4))) := by
  simp only [State.loadLane, State.locate_chip h, State.read_chip h _ (Nat.le_refl _)]

/-- A store of a lane to on-chip storage. -/
theorem State.storeLane_chip {s : State} {k hint : Nat} {a : DWord} {size : Nat} {vs : List Word} (h : s.ChipReady k a size 1) :
   s.storeLane k hint size a vs = (s.chipRun a.toNat vs, doneWith []) := by
  simp only [State.storeLane, State.locate_chip h, State.writePlace]

/-- Only size code 3 is a granule. -/
theorem sizeBytes_ne {sz : BitVec 2} (h : sz ≠ 3) : (sizeBytes sz == 64) = false := by
  revert h; revert sz; decide

/-- A ready global access is placed at its physical address. -/
theorem State.locate_global {s t : State} {k : Nat} {a : DWord} {size kind pa : Nat} {nc : Bool} (h : s.GlobalReady k a size kind pa nc t) :
   s.locate k a size kind = (t, .at (.mem pa nc)) := by
  simp only [State.locate, h.global, h.aligned, h.reached]; simp

/-- Translation leaves the registers and threads. -/
theorem State.global_fab {s t : State} {k : Nat} {a : DWord} {size kind pa : Nat} {nc : Bool} (h : s.GlobalReady k a size kind pa nc t) : t.fab = s.fab := by
  have := State.reach_fab s (some (coreOf k)) (s.ctxOf k) a kind
  rw [h.reached] at this; exact this

/-- A lane stays as it was where the registers and threads do. -/
theorem State.kept_fab {s t : State} (h : t.fab = s.fab) {g k} (hk : k ∈ s.active s.here g) : t.Kept s k :=
  State.kept_of_threads (by rw [h]) (State.active_sub hk)

/-- One finished lane stays finished. -/
theorem State.memDone_one {s : State} {k : Nat} {d : LaneRes} : State.memDone (s, [(k, LaneOut.done d)]) = (s, [(k, LaneOut.done d)]) :=
  State.memDone_done (by simp)

/-- A fold that acts at one octet alone. -/
theorem fold_pick (c : Nat) (F : State × List (Nat × LaneOut) → Nat → State × List (Nat × LaneOut)) (A : State → State) (B : State → List (Nat × LaneOut))
    (h0 : ∀ o t acc, F (t, acc) o = if c = o then (A t, acc ++ B t) else (t, acc)) (l : List Nat) (t : State) (acc : List (Nat × LaneOut)) (hnd : l.Nodup) :
    l.foldl F (t, acc) = if c ∈ l then (A t, acc ++ B t) else (t, acc) := by
  induction l generalizing t acc with
  | nil => simp
  | cons x r ih =>
    obtain ⟨hx, hr⟩ := List.nodup_cons.mp hnd
    rw [List.foldl_cons, h0]
    by_cases h : c = x
    · rw [if_pos h, ih _ _ hr, if_neg (by rw [h]; exact hx), if_pos (by simp [h])]
    · rw [if_neg h, ih _ _ hr]; simp [h]

/-- One active lane is one octet. -/
theorem State.octet_one (s : State) (k n : Nat) (ws : List Word) (f : State → Nat → List Word → State × LaneOut) :
    s.eachOctet [(k, ws)] n f = ((f s k ws).1, [(k, (f s k ws).2)]) := by
  have h0 (o : Nat) (t : State) (acc : List (Nat × LaneOut)) : (fun (acc : State × List (Nat × LaneOut)) (o : Nat) =>
    let l := [(k, ws)].filter fun p => laneOf p.1 / 8 == o
    match octetMismatch (l.map fun p => p.1) with
    | some k => (acc.1, acc.2 ++ allTrap l (mismatch (laneOf k)))
    | none =>
      let r := uniformly (fun ws => eaOf ws n) l acc.1 (acc.1.eachLane l f)
      (r.1, acc.2 ++ r.2)) (t, acc) o = if laneOf k / 8 = o then ((f t k ws).1, acc ++ [(k, (f t k ws).2)]) else (t, acc) := by
    by_cases h : laneOf k / 8 = o <;> simp [h, octetMismatch, uniformly, firstMismatch, State.eachLane]
  have hl : laneOf k / 8 < 8 := by
    have : laneOf k < 64 := Nat.mod_lt _ (by omega)
    omega
  unfold State.eachOctet
  rw [fold_pick (laneOf k / 8) _ (fun t => (f t k ws).1) (fun t => [(k, (f t k ws).2)]) h0 _ _ _ (List.nodup_range)]
  simp [hl]

/-- An atomic of a lane on on-chip storage. -/
theorem State.atomAt_chip {s : State} {k n : Nat} {a : DWord} (h : s.ChipReady k a (4 * n) 2) (f : List Word → List Word) :
    s.atomAt k a n f = (s.chipRun a.toNat (f (s.chipWords a n)), .inl (s.chipWords a n)) := by
  simp only [State.atomAt, State.locate_chip h, State.atomPlace]
  rw [if_neg]
  · simp only [State.chipWords, List.map_map]; rfl
  · simp only [Bool.not_eq_true, List.any_eq_false, List.mem_map, List.mem_range]
    rintro x ⟨i, hi, rfl⟩; simpa using h.clean i (by omega)

/-- A write of the scratchpad leaves registers and threads. -/
theorem State.setChipWord_fab {s : State} {a : Nat} {w : Word} (h : spaceOf (BitVec.ofNat 64 a) = 1) : (s.setChipWord a w).fab = s.fab := by
  simp only [State.setChipWord, h]; rfl

/-- So do the writes of one access. -/
theorem State.chipRun_fab {s : State} {k n : Nat} {a : DWord} {ws : List Word} (h : s.ChipReady k a (4 * n) 2) (hn : n = 1 ∨ n = 2) (hw : ws.length = n) : (s.chipRun a.toNat ws).fab = s.fab := by
  have hf := h.form
  simp only [State.chipForm, Bool.and_eq_true] at hf
  have h1 : spaceOf a = 1 := by
    have h2 := hf.1.2
    unfold spaceAccepts at h2
    split at h2 <;> simp_all
  have hal := h.aligned
  have hlt := a.isLt
  have hsp (i : Nat) (hi : i < n) : spaceOf (BitVec.ofNat 64 (a.toNat + 4 * i)) = 1 := by
    simp only [spaceOf, bitsOf, BitVec.toNat_ofNat] at h1 ⊢
    rcases hn with rfl | rfl <;> omega
  unfold State.chipRun
  rcases hn with rfl | rfl
  · match ws, hw with
    | [x], _ => simp only [List.zipIdx_cons, List.zipIdx_nil, List.foldl_cons, List.foldl_nil]; exact State.setChipWord_fab (hsp 0 (by omega))
  · match ws, hw with
    | [x, y], _ =>
      simp only [List.zipIdx_cons, List.zipIdx_nil, List.foldl_cons, List.foldl_nil]
      rw [State.setChipWord_fab (hsp 1 (by omega)), State.setChipWord_fab (hsp 0 (by omega))]

/-- An atomic writes as many words as it reads. -/
theorem atomFun_length {p : AtomOp} {n : Nat} {d old : List Word} (hn : n = 1 ∨ n = 2) : (atomFun p n d old).length = n := by
  rcases hn with rfl | rfl <;> rfl

/-- Finished lanes stay finished. -/
theorem State.memDone_all {s : State} {ks : List Nat} {v : List Word} : State.memDone (s, ks.map fun k => (k, doneWith v)) = (s, ks.map fun k => (k, doneWith v)) :=
  State.memDone_done (by intro p hp; simp only [List.mem_map] at hp; obtain ⟨k, -, rfl⟩ := hp; exact ⟨_, rfl⟩)

/-- Every lane is done with the same values. -/
theorem allDone_map (ks : List Nat) (rd : Nat → List Word) (v : List Word) : allDone (ks.map fun k => (k, rd k)) v = ks.map fun k => (k, doneWith v) := by
  simp [allDone]

/-- A word that acts once for its yard and gives each lane a value. -/
theorem State.yard_gives {s t : State} {i : Instr} {sc : BitVec 2} {g : BitVec 3} {codes : List (BitVec 5)} {lit : Word}
    {dst : Dst} {y : Nat} {ws v : List Word} {β : Type} [DecidableEq β] (key : List Word → β)
    (f : State → Nat → List (Nat × List Word) → State × List (Nat × LaneOut))
    (hy : s.InYard g y) (hr : s.Ready g codes lit dst (fun _ => ws)) (hu : ∀ n d, dst ≠ .uni n d)
    (hf : ∀ k0 r, s.active s.here g = k0 :: r → f s y ((k0, ws) :: r.map fun k => (k, ws)) = (t, allDone ((k0, ws) :: r.map fun k => (k, ws)) v))
    (ht : ∀ k ∈ s.active s.here g, t.Kept s k) :
    (s.groupWord i sc g codes lit dst false fun s ins => State.memDone (s.eachYard ins key f)) = t.deliver s g dst false (fun _ => v) noFlags := by
  refine State.groupWord_gives hr hu (fun _ => v) noFlags ?_ ht
  rw [State.eachYard_one (rd := fun _ => ws) key f hy.1 hy.2 (key ws) (fun _ _ => rfl)]
  cases hact : s.active s.here g with
  | nil => exact absurd hact hy.1
  | cons k0 r =>
    simp only [List.map_cons]
    rw [hf k0 r hact]
    have : allDone ((k0, ws) :: r.map fun k => (k, ws)) v = (k0 :: r).map fun k => (k, doneWith v) := by simp [allDone]
    rw [this, State.memDone_all]; rfl

/-- The same without a destination. -/
theorem State.yard_none {s t : State} {i : Instr} {sc : BitVec 2} {g : BitVec 3} {codes : List (BitVec 5)} {lit : Word}
    {y : Nat} {ws : List Word} {β : Type} [DecidableEq β] (key : List Word → β)
    (f : State → Nat → List (Nat × List Word) → State × List (Nat × LaneOut))
    (hy : s.InYard g y) (hr : s.Reads g codes lit (fun _ => ws))
    (hf : ∀ k0 r, s.active s.here g = k0 :: r → f s y ((k0, ws) :: r.map fun k => (k, ws)) = (t, allDone ((k0, ws) :: r.map fun k => (k, ws)) [])) :
    (s.groupWord i sc g codes lit .none false fun s ins => s.eachYard ins key f) = t := by
  refine State.groupWord_none hr (outs := (s.active s.here g).map fun k => (k, doneWith [])) ?_ (by intro p hp; simp only [List.mem_map] at hp; obtain ⟨k, -, rfl⟩ := hp; exact ⟨_, rfl⟩)
  rw [State.eachYard_one (rd := fun _ => ws) key f hy.1 hy.2 (key ws) (fun _ _ => rfl)]
  cases hact : s.active s.here g with
  | nil => exact absurd hact hy.1
  | cons k0 r =>
    simp only [List.map_cons]
    rw [hf k0 r hact]
    simp [allDone]

/-- The translation of a run of pages. -/
theorem State.pagesOf_fab (s : State) (k : Nat) (a : DWord) (kind n : Nat) : (s.pagesOf k a kind n).1.fab = s.fab := by
  induction n generalizing s a with
  | zero => rfl
  | succ n ih =>
    simp only [State.pagesOf]
    have h := State.reach_fab s (some (coreOf k)) (s.ctxOf k) a kind
    split
    · rename_i h1; rw [h1] at h
      have h2 := ih
      split
      · rename_i s1 pa nc _ s2 r h3; have := ih s1 (a + 4096); rw [h3] at this; exact this.trans h
      · rename_i s1 pa nc _ s2 r h3; have := ih s1 (a + 4096); rw [h3] at this; exact this.trans h
    · rename_i h1; rw [h1] at h; exact h
    · rename_i h1; rw [h1] at h; exact h
    · rename_i h1; rw [h1] at h; exact h

/-- A line word at a ready address. -/
theorem State.lineLane_eq {s v : State} {k line : Nat} {all : Bool} {a : DWord} {f : State → Nat → State} (h : s.LineReady k a all line v) :
    s.lineLane k a all f = (f v line, doneWith []) := by
  obtain ⟨hg, t, pa, nc, hr, h1, h2, rfl⟩ := h
  simp only [State.lineLane, hg, hr, h1, h2]; rfl

/-- A line word at ready addresses. -/
theorem State.line_word {s t : State} {i : Instr} {o : OpM} {rd : Nat → List Word} {all : Bool} {f : State → Nat → State}
    (hr : s.Reads o.g (addrCodes o) o.lit rd)
    (h : Turns (fun u k v => ∃ w line, u.LineReady k (eaOf (rd k) 1) all line w ∧ v = f w line) (s.active s.here o.g) s t) :
    s.lineWord i o all f = t := by
  refine State.groupWord_none hr (outs := (s.active s.here o.g).map fun k => (k, doneWith [])) ?_ (by simp [doneWith])
  rw [State.eachLane_turns (fun _ => doneWith []) h, State.memDone_all]
  rintro u v k - ⟨w, line, hw, rfl⟩
  exact State.lineLane_eq hw

/-- Nothing is found where the filter keeps no entry of the key. -/
theorem Map.find?_filter_none {β : Type} (m : Map β) (f : Nat × β → Bool) (k : Nat) (h : ∀ p, p.1 = k → f p = false) : Map.find? (m.filter f) k = none := by
  induction m with
  | nil => rfl
  | cons p r ih =>
    obtain ⟨j, v⟩ := p
    rw [List.filter_cons]
    split
    · rename_i hp
      simp only [Map.find?]
      split
      · rename_i hj; rw [h (j, v) hj.symm] at hp; cases hp
      · exact ih
    · exact ih

/-- Discarding a line leaves registers and threads. -/
theorem State.discardLine_fab (s : State) (line : Nat) : (s.discardLine line).fab = s.fab := rfl

/-- One active lane is its yard's uniform operand. -/
theorem State.yard_sole {β : Type} [DecidableEq β] {s : State} {k : Nat} {ws : List Word} (key : List Word → β)
    (f : State → Nat → List (Nat × List Word) → State × List (Nat × LaneOut)) : s.eachYard [(k, ws)] key f = f s (yardOf k) [(k, ws)] :=
  State.eachYard_one (ks := [k]) (rd := fun _ => ws) (y := yardOf k) key f (by simp) (by simp) (key ws) (by simp)

/-- A segment fetch that finds a free future. -/
theorem State.newFetch_ok {s t : State} {k n count slot : Nat} {a : DWord} {d : BitVec 5} {ws : List Word} (h10 : t.freeSlot (coreOf k) = .inl slot)
    (h11 : s.drainAll [k] = (t, true)) (hf : (t.eng.copies.find? fun x => x.seg == some (coreOf k, n)) = none) (h13 : t.inflight (clusterOf (coreOf k)) < 64) :
    let core := coreOf k
    let u := t.newFuture core slot 1 (if noWrite d then 0 else 1) none
    let g := u.seg core n
    let v := u.setSeg core n { g with st := 1, packets := count, landno := g.landno + 1, status := 0, src := a, slot := some slot }
    let x : Copy := { copyOf [] v.serialNo (clusterOf core) (v.ctxOf k) core (v.thread k).acq (some (core, slot)) with
      src := a, rowlen := 12 * count, nrows := 1, seg := some (core, n) }
    let w := (v.setEng { v.eng with copies := v.eng.copies ++ [x] }).bumpSerial
    s.newFetch k n count a d [(k, ws)] = (w, handed [(k, ws)] [] 1 slot) := by
  intro core u g v x w
  unfold State.newFetch
  simp only [h10, List.map_cons, List.map_nil, h11, hf]
  simp only [Bool.not_true, Bool.false_or, decide_eq_true_eq]
  rw [if_neg (Nat.not_le.mpr h13)]
  rfl

/-- A word that gives each lane a future. -/
theorem State.groupWord_tagOut {s t : State} {i : Instr} {sc : BitVec 2} {g : BitVec 3} {codes : List (BitVec 5)} {lit : Word}
    {n : Nat} {d : BitVec 5} {shift : Bool} {f : State → List (Nat × List Word) → State × List (Nat × LaneOut)} {rd : Nat → List Word}
    {k slot : Nat} {vs : List Word} (h : s.Ready g codes lit (.vec n d) rd) (hs : s.Sole g k)
    (hf : f s [(k, rd k)] = (t, [(k, .done { vals := vs, ff := 0, sb := none, tag := some slot })])) :
    s.groupWord i sc g codes lit (.vec n d) shift f = State.tagOut (.vec n d) (t.deliver s g (.vec n d) shift (fun _ => vs) noFlags)
      (k, .done { vals := vs, ff := 0, sb := none, tag := some slot }) := by
  have hm : k ∈ s.active s.here g := by rw [hs]; simp
  rw [State.groupWord_ready h.1 (fun k hk => (h.2 k hk).1)]
  have hmap : (s.active s.here g).map (fun k => (k, rd k)) = [(k, rd k)] := by rw [hs]; rfl
  simp only [hmap, hf]
  have e1 : (t.updLanes s.here.lanes fun j x => x.applyOut j (.vec n d) shift
      [(k, LaneOut.done { vals := vs, ff := 0, sb := none, tag := some slot })]
      (outOf [(k, LaneOut.done { vals := vs, ff := 0, sb := none, tag := some slot })] j)) =
      t.deliver s g (.vec n d) shift (fun _ => vs) noFlags := by
    unfold State.deliver
    apply State.updLanes_congr
    intro j hj x
    by_cases hg : (s.thread j).guard g = true
    · have : j ∈ s.active s.here g := State.mem_active.mpr ⟨hj, hg⟩
      rw [hs] at this
      simp only [List.mem_singleton] at this
      subst this
      simp [outOf, hg, Thread.applyOut, octetByte, Thread.putSb_none, noFlags]
    · have : k ≠ j := fun e => hg (e ▸ (State.mem_active.mp hm).2)
      simp [outOf, hg, this, Thread.applyOut, octetByte, Thread.putSb_none]
  simp only [List.any_cons, List.any_nil, Bool.or_false]
  rw [if_neg (by simp)]
  simp only [State.finish, e1]
  simp only [List.foldl_cons, List.foldl_nil, State.parkOut, trapsOf, List.filterMap_cons, List.filterMap_nil, State.raise,
    List.map_nil, State.raiseAt_nil]

/-- One lane done with its values stays done. -/
theorem State.memDone_dw {s : State} {k : Nat} {d : List Word} : State.memDone (s, [(k, doneWith d)]) = (s, [(k, doneWith d)]) :=
  State.memDone_done (by simp [doneWith])

/-- The pool of a context. -/
theorem State.poolFor_some {s : State} {n c : Nat} (h1 : (s.pool n).att = true) (h2 : (s.pool n).ctx.toNat = c) : s.poolFor n c = some (s.pool n) := by
  simp [State.poolFor, h1, h2]

/-- A block word of one lane. -/
theorem State.kv_word {s t : State} {i : Instr} {o : OpA} {op : KvOp} {k : Nat} {a b w : Word} (hs : s.Sole o.g k) (hr : s.Ready o.g [o.a, o.b] o.lit (.vec 1 o.d) (fun _ => [a, b]))
    (hb : bitsOf b.toNat 31 6 = 0) (hb2 : op ≠ .alloc → bitsOf b.toNat 5 4 = 0) (h1 : (s.pool (b.toNat % 16)).att = true) (h2 : (s.pool (b.toNat % 16)).ctx.toNat = s.yardCtx (yardOf k))
    (h : s.kvLane k op (b.toNat % 16) (bitsOf b.toNat 5 4) a.toNat = (t, doneWith [w])) (ht : ∀ k ∈ s.active s.here o.g, t.Kept s k) :
    s.kvWord i o op = t.deliver s o.g (.vec 1 o.d) false (one fun _ => w) noFlags := by
  unfold State.kvWord
  refine State.groupWord_gives hr (by simp) (one fun _ => w) noFlags ?_ ht
  rw [hs]; simp only [List.map_cons, List.map_nil]
  rw [State.yard_sole]
  have e : lead [(k, [a, b])] = [a, b] := rfl
  simp only [e, val, List.getD_cons_succ, List.getD_cons_zero]
  rw [if_neg]
  · simp only [State.eachLane, List.foldl_cons, List.foldl_nil, List.nil_append, State.kvWhole, List.getD_cons_zero, h]
    exact State.memDone_dw
  · simp only [Bool.or_eq_true, not_or, bne_iff_ne, ne_eq, Decidable.not_not, Bool.and_eq_true, not_and]
    refine ⟨⟨hb, hb2⟩, ?_⟩
    rw [State.poolFor_some h1 h2]; simp

/-- A trust command that runs. -/
theorem State.trustRun_of {s : State} {w code : Nat} (f : State → TrustRun → State) (h : s.trust.cmd.run = none) (hw : w < 64) :
    s.trustRun code w f = f (s.trustBegin w code) (TrustRun.mk code w s.trust.cmd.arg0 s.trust.cmd.arg1 s.trust.cmd.arg2) := by
  simp [State.trustRun, h, State.trustBegin, State.setCmd, State.setTrust, Nat.mod_eq_of_lt hw]

/-! ### Agents outside the device -/

/-- Outside PS3 a request of an agent outside is noted and served; in PS3 it is noted alone. -/
theorem State.served_awake {s : State} (f : State → State) (h : s.power.pstate ≠ 3) : s.served f = f s.noteRequest :=
  if_neg (by simpa using h)
theorem State.served_asleep {s : State} (f : State → State) (h : s.power.pstate = 3) : s.served f = s.noteRequest :=
  if_pos (by simpa using h)

/-- A holder whose request is mapped is one of the sixteen. -/
theorem State.holderAddr_lt {s : State} {h hpa pa : Nat} (e : s.holderAddr h hpa = some pa) : h < 16 := by
  unfold State.holderAddr at e
  by_cases c : h < 16
  · exact c
  · simp [c] at e

/-- The steps of capping are a millisecond apart. -/
theorem State.capDue_iff (s : State) :
    s.capDue = true ↔ ∀ t, s.power.lastStep = some t → t + 100000 ≤ s.ticks.toNat := by
  unfold State.capDue
  cases s.power.lastStep <;> simp

/-- A tick of a channel is due outside PS3, 244 ns after the last one. -/
theorem State.tickDue_iff (s : State) (r : Refresh) :
    s.tickDue r = true ↔ s.power.pstate ≠ 3 ∧ ∀ t, r.lastTick = some t → t + tickTime ≤ s.ns := by
  unfold State.tickDue
  cases r.lastTick <;> simp

end Sys2Proof.Machine
end

