-- ==== Sys2Proof/Laws/PerInstr.lean ====
section
/-! SUPPORT. The header of an encoded word (Table 2-1): chain bit, scope and major, instruction by instruction. -/

namespace Sys2Proof.Laws

/-- The header fields of a word whose remaining 23 bits are `r`. -/
theorem header (c : BitVec 1) (s : BitVec 2) (m : BitVec 6) (r : BitVec 23) :
    majorOf (c ++ s ++ m ++ r) = m ∧ scopeOf (c ++ s ++ m ++ r) = s ∧ chainOf (c ++ s ++ m ++ r) = c := by
  refine ⟨?_, ?_, ?_⟩ <;> simp only [majorOf, scopeOf, chainOf, fieldAt] <;> apply BitVec.eq_of_getLsbD_eq <;> intro i hi <;>
    simp only [BitVec.getLsbD_extractLsb', BitVec.getLsbD_append, hi, decide_true, Bool.true_and]
  · simp [show ¬ (23 + i < 23) by omega, hi]
  · simp [show ¬ (29 + i < 23) by omega, show ¬ (29 + i - 23 < 6) by omega, show 29 + i - 23 - 6 = i by omega, hi]
  · simp [show ¬ (31 + i < 23) by omega, show ¬ (31 + i - 23 < 6) by omega, show ¬ (31 + i - 23 - 6 < 2) by omega,
      show 31 + i - 23 - 6 - 2 = i by omega]

/-- What a word's header says of a form. -/
def Form.HeaderOk (f : Form) : Prop :=
  majorOf (f.words.headD 0) = BitVec.ofNat 6 f.major ∧ (scopeOf (f.words.headD 0)).toNat = f.scope ∧
    ((chainOf (f.words.headD 0)).toNat == 1) = f.chained

/-- Every form but the device event's has its header. -/
theorem Form.header_ok (f : Form) (h : f.isEvent = false) : Form.HeaderOk f := by
  cases f with
  | a maj fn o =>
    have e := header o.c o.s (BitVec.ofNat 6 maj) (o.d ++ o.a ++ o.b ++ o.g ++ BitVec.ofNat 5 fn)
    simp only [HeaderOk, Form.words, wordA, List.headD_cons, Form.major, Form.scope, Form.chained]
    simp only [BitVec.append_assoc, BitVec.cast_eq] at e ⊢
    simp only [e.1, e.2.1, e.2.2, and_self]
  | t maj o =>
    have e := header o.c o.s (BitVec.ofNat 6 maj) (o.d ++ o.a ++ o.b ++ o.e ++ o.g)
    simp only [HeaderOk, Form.words, wordT, List.headD_cons, Form.major, Form.scope, Form.chained]
    simp only [BitVec.append_assoc, BitVec.cast_eq] at e ⊢
    simp only [e.1, e.2.1, e.2.2, and_self]
  | i maj o =>
    have e := header o.c o.s (BitVec.ofNat 6 maj) (o.d ++ o.a ++ o.imm)
    simp only [HeaderOk, Form.words, wordI, List.headD_cons, Form.major, Form.scope, Form.chained]
    simp only [BitVec.append_assoc, BitVec.cast_eq] at e ⊢
    simp only [e.1, e.2.1, e.2.2, and_self]
  | b maj o =>
    have e := header o.c o.s (BitVec.ofNat 6 maj) (o.g ++ o.n ++ o.off)
    simp only [HeaderOk, Form.words, wordB, List.headD_cons, Form.major, Form.scope, Form.chained]
    simp only [BitVec.append_assoc, BitVec.cast_eq] at e ⊢
    simp only [e.1, e.2.1, e.2.2, and_self]
  | m maj fn o =>
    have e := header o.c o.s (BitVec.ofNat 6 maj) (o.d ++ o.a ++ o.x ++ o.g ++ o.sz ++ BitVec.ofNat 3 fn)
    simp only [HeaderOk, Form.words, wordM, List.headD_cons, Form.major, Form.scope, Form.chained]
    simp only [BitVec.append_assoc, BitVec.cast_eq] at e ⊢
    simp only [e.1, e.2.1, e.2.2, and_self]
  | stage o =>
    have e := header 0#1 o.s 0x08#6 (o.nv ++ o.nu ++ o.vbase0 ++ o.vlen0 ++ o.rsv0)
    simp only [HeaderOk, Form.words, StageOp.words, List.headD_cons, Form.major, Form.scope, Form.chained]
    simp only [BitVec.append_assoc, BitVec.cast_eq] at e ⊢
    simp only [e.1, e.2.1, e.2.2]
    refine ⟨?_, ?_, ?_⟩ <;> first | rfl | trivial
  | bway o =>
    have e := header 0#1 o.s 0x03#6 (o.np ++ o.neg ++ o.g0 ++ o.t0)
    simp only [HeaderOk, Form.words, BwayOp.words, List.headD_cons, Form.major, Form.scope, Form.chained]
    simp only [BitVec.append_assoc, BitVec.cast_eq] at e ⊢
    simp only [e.1, e.2.1, e.2.2]
    refine ⟨?_, ?_, ?_⟩ <;> first | rfl | trivial
  | mma o =>
    have e := header 0#1 o.s 0x33#6 (o.hd ++ o.fw ++ o.bank ++ o.rsv0 ++ o.nblkm1)
    simp only [HeaderOk, Form.words, MmaOp.words, List.headD_cons, Form.major, Form.scope, Form.chained]
    simp only [BitVec.append_assoc, BitVec.cast_eq] at e ⊢
    simp only [e.1, e.2.1, e.2.2]
    refine ⟨?_, ?_, ?_⟩ <;> first | rfl | trivial
  | kvx o =>
    have e := header 0#1 o.s 0x35#6 (o.d ++ o.seq ++ o.pos ++ o.pm ++ o.pin ++ o.pool)
    simp only [HeaderOk, Form.words, KvxOp.words, List.headD_cons, Form.major, Form.scope, Form.chained]
    simp only [BitVec.append_assoc, BitVec.cast_eq] at e ⊢
    simp only [e.1, e.2.1, e.2.2]
    refine ⟨?_, ?_, ?_⟩ <;> first | rfl | trivial
  | event => cases h

/-- The first word of an encoded instruction carries its major, its scope and its chain bit. -/
def Encode.Statement (i : Instr) : Prop := i.form.isEvent = false → Form.HeaderOk i.form

theorem Encode.nop (o : OpA) : Encode.Statement (.nop o) := fun h => Form.header_ok _ h
theorem Encode.yield (o : OpA) : Encode.Statement (.yield o) := fun h => Form.header_ok _ h
theorem Encode.exit (o : OpA) : Encode.Statement (.exit o) := fun h => Form.header_ok _ h
theorem Encode.jmp (o : OpA) : Encode.Statement (.jmp o) := fun h => Form.header_ok _ h
theorem Encode.calli (o : OpA) : Encode.Statement (.calli o) := fun h => Form.header_ok _ h
theorem Encode.ret (o : OpA) : Encode.Statement (.ret o) := fun h => Form.header_ok _ h
theorem Encode.bra (o : OpB) : Encode.Statement (.bra o) := fun h => Form.header_ok _ h
theorem Encode.call (o : OpB) : Encode.Statement (.call o) := fun h => Form.header_ok _ h
theorem Encode.bway (o : BwayOp) : Encode.Statement (.bway o) := fun h => Form.header_ok _ h
theorem Encode.jmpf (o : OpA) : Encode.Statement (.jmpf o) := fun h => Form.header_ok _ h
theorem Encode.segfetch (o : OpA) : Encode.Statement (.segfetch o) := fun h => Form.header_ok _ h
theorem Encode.segstat (o : OpA) : Encode.Statement (.segstat o) := fun h => Form.header_ok _ h
theorem Encode.rigdef (o : OpA) : Encode.Statement (.rigdef o) := fun h => Form.header_ok _ h
theorem Encode.join (o : OpA) : Encode.Statement (.join o) := fun h => Form.header_ok _ h
theorem Encode.leave (o : OpA) : Encode.Statement (.leave o) := fun h => Form.header_ok _ h
theorem Encode.sign (o : OpA) : Encode.Statement (.sign o) := fun h => Form.header_ok _ h
theorem Encode.fwait (o : OpA) : Encode.Statement (.fwait o) := fun h => Form.header_ok _ h
theorem Encode.ftest (o : OpA) : Encode.Statement (.ftest o) := fun h => Form.header_ok _ h
theorem Encode.fcancel (o : OpA) : Encode.Statement (.fcancel o) := fun h => Form.header_ok _ h
theorem Encode.fpass (o : OpA) : Encode.Statement (.fpass o) := fun h => Form.header_ok _ h
theorem Encode.stage (o : StageOp) : Encode.Statement (.stage o) := fun h => Form.header_ok _ h
theorem Encode.mov (o : OpA) : Encode.Statement (.mov o) := fun h => Form.header_ok _ h
theorem Encode.movs (o : OpA) : Encode.Statement (.movs o) := fun h => Form.header_ok _ h
theorem Encode.rdsr (o : OpA) : Encode.Statement (.rdsr o) := fun h => Form.header_ok _ h
theorem Encode.wrsr (o : OpA) : Encode.Statement (.wrsr o) := fun h => Form.header_ok _ h
theorem Encode.sel (o : OpT) : Encode.Statement (.sel o) := fun h => Form.header_ok _ h
theorem Encode.hoist (o : OpA) : Encode.Statement (.hoist o) := fun h => Form.header_ok _ h
theorem Encode.reef (o : OpA) : Encode.Statement (.reef o) := fun h => Form.header_ok _ h
theorem Encode.gmov (o : OpA) : Encode.Statement (.gmov o) := fun h => Form.header_ok _ h
theorem Encode.spillv (o : OpM) : Encode.Statement (.spillv o) := fun h => Form.header_ok _ h
theorem Encode.fillv (o : OpM) : Encode.Statement (.fillv o) := fun h => Form.header_ok _ h
theorem Encode.iadd (o : OpA) : Encode.Statement (.iadd o) := fun h => Form.header_ok _ h
theorem Encode.isub (o : OpA) : Encode.Statement (.isub o) := fun h => Form.header_ok _ h
theorem Encode.addc (o : OpA) : Encode.Statement (.addc o) := fun h => Form.header_ok _ h
theorem Encode.subb (o : OpA) : Encode.Statement (.subb o) := fun h => Form.header_ok _ h
theorem Encode.iminS32 (o : OpA) : Encode.Statement (.iminS32 o) := fun h => Form.header_ok _ h
theorem Encode.iminN32 (o : OpA) : Encode.Statement (.iminN32 o) := fun h => Form.header_ok _ h
theorem Encode.imaxS32 (o : OpA) : Encode.Statement (.imaxS32 o) := fun h => Form.header_ok _ h
theorem Encode.imaxN32 (o : OpA) : Encode.Statement (.imaxN32 o) := fun h => Form.header_ok _ h
theorem Encode.iabs (o : OpA) : Encode.Statement (.iabs o) := fun h => Form.header_ok _ h
theorem Encode.and (o : OpA) : Encode.Statement (.and o) := fun h => Form.header_ok _ h
theorem Encode.or (o : OpA) : Encode.Statement (.or o) := fun h => Form.header_ok _ h
theorem Encode.xor (o : OpA) : Encode.Statement (.xor o) := fun h => Form.header_ok _ h
theorem Encode.andn (o : OpA) : Encode.Statement (.andn o) := fun h => Form.header_ok _ h
theorem Encode.popc (o : OpA) : Encode.Statement (.popc o) := fun h => Form.header_ok _ h
theorem Encode.clz (o : OpA) : Encode.Statement (.clz o) := fun h => Form.header_ok _ h
theorem Encode.brev (o : OpA) : Encode.Statement (.brev o) := fun h => Form.header_ok _ h
theorem Encode.add64 (o : OpA) : Encode.Statement (.add64 o) := fun h => Form.header_ok _ h
theorem Encode.ptag (o : OpA) : Encode.Statement (.ptag o) := fun h => Form.header_ok _ h
theorem Encode.shl (o : OpA) : Encode.Statement (.shl o) := fun h => Form.header_ok _ h
theorem Encode.shr (o : OpA) : Encode.Statement (.shr o) := fun h => Form.header_ok _ h
theorem Encode.sar (o : OpA) : Encode.Statement (.sar o) := fun h => Form.header_ok _ h
theorem Encode.rot (o : OpA) : Encode.Statement (.rot o) := fun h => Form.header_ok _ h
theorem Encode.bfxN32 (o : OpA) : Encode.Statement (.bfxN32 o) := fun h => Form.header_ok _ h
theorem Encode.bfxS32 (o : OpA) : Encode.Statement (.bfxS32 o) := fun h => Form.header_ok _ h
theorem Encode.imul (o : OpA) : Encode.Statement (.imul o) := fun h => Form.header_ok _ h
theorem Encode.imulhS32 (o : OpA) : Encode.Statement (.imulhS32 o) := fun h => Form.header_ok _ h
theorem Encode.imulhN32 (o : OpA) : Encode.Statement (.imulhN32 o) := fun h => Form.header_ok _ h
theorem Encode.idivS32 (o : OpA) : Encode.Statement (.idivS32 o) := fun h => Form.header_ok _ h
theorem Encode.idivN32 (o : OpA) : Encode.Statement (.idivN32 o) := fun h => Form.header_ok _ h
theorem Encode.iremS32 (o : OpA) : Encode.Statement (.iremS32 o) := fun h => Form.header_ok _ h
theorem Encode.iremN32 (o : OpA) : Encode.Statement (.iremN32 o) := fun h => Form.header_ok _ h
theorem Encode.icmpEq (o : OpA) : Encode.Statement (.icmpEq o) := fun h => Form.header_ok _ h
theorem Encode.icmpNe (o : OpA) : Encode.Statement (.icmpNe o) := fun h => Form.header_ok _ h
theorem Encode.icmpLtS32 (o : OpA) : Encode.Statement (.icmpLtS32 o) := fun h => Form.header_ok _ h
theorem Encode.icmpLeS32 (o : OpA) : Encode.Statement (.icmpLeS32 o) := fun h => Form.header_ok _ h
theorem Encode.icmpGtS32 (o : OpA) : Encode.Statement (.icmpGtS32 o) := fun h => Form.header_ok _ h
theorem Encode.icmpGeS32 (o : OpA) : Encode.Statement (.icmpGeS32 o) := fun h => Form.header_ok _ h
theorem Encode.icmpLtN32 (o : OpA) : Encode.Statement (.icmpLtN32 o) := fun h => Form.header_ok _ h
theorem Encode.icmpLeN32 (o : OpA) : Encode.Statement (.icmpLeN32 o) := fun h => Form.header_ok _ h
theorem Encode.icmpGtN32 (o : OpA) : Encode.Statement (.icmpGtN32 o) := fun h => Form.header_ok _ h
theorem Encode.icmpGeN32 (o : OpA) : Encode.Statement (.icmpGeN32 o) := fun h => Form.header_ok _ h
theorem Encode.pand (o : OpA) : Encode.Statement (.pand o) := fun h => Form.header_ok _ h
theorem Encode.por (o : OpA) : Encode.Statement (.por o) := fun h => Form.header_ok _ h
theorem Encode.pxor (o : OpA) : Encode.Statement (.pxor o) := fun h => Form.header_ok _ h
theorem Encode.pnot (o : OpA) : Encode.Statement (.pnot o) := fun h => Form.header_ok _ h
theorem Encode.imad (o : OpT) : Encode.Statement (.imad o) := fun h => Form.header_ok _ h
theorem Encode.bfi (o : OpT) : Encode.Statement (.bfi o) := fun h => Form.header_ok _ h
theorem Encode.addi (o : OpI) : Encode.Statement (.addi o) := fun h => Form.header_ok _ h
theorem Encode.lea (o : OpI) : Encode.Statement (.lea o) := fun h => Form.header_ok _ h
theorem Encode.fadd (ty : FType) (o : OpA) : Encode.Statement (.fadd ty o) := fun h => Form.header_ok _ h
theorem Encode.fsub (ty : FType) (o : OpA) : Encode.Statement (.fsub ty o) := fun h => Form.header_ok _ h
theorem Encode.fmul (ty : FType) (o : OpA) : Encode.Statement (.fmul ty o) := fun h => Form.header_ok _ h
theorem Encode.fmin (ty : FType) (o : OpA) : Encode.Statement (.fmin ty o) := fun h => Form.header_ok _ h
theorem Encode.fmax (ty : FType) (o : OpA) : Encode.Statement (.fmax ty o) := fun h => Form.header_ok _ h
theorem Encode.fscale (ty : FType) (o : OpA) : Encode.Statement (.fscale ty o) := fun h => Form.header_ok _ h
theorem Encode.fmaF32 (o : OpT) : Encode.Statement (.fmaF32 o) := fun h => Form.header_ok _ h
theorem Encode.fmaF32Neg (o : OpT) : Encode.Statement (.fmaF32Neg o) := fun h => Form.header_ok _ h
theorem Encode.fmaBf16 (o : OpT) : Encode.Statement (.fmaBf16 o) := fun h => Form.header_ok _ h
theorem Encode.fabs (o : OpA) : Encode.Statement (.fabs o) := fun h => Form.header_ok _ h
theorem Encode.frcp (o : OpA) : Encode.Statement (.frcp o) := fun h => Form.header_ok _ h
theorem Encode.frsq (o : OpA) : Encode.Statement (.frsq o) := fun h => Form.header_ok _ h
theorem Encode.fsqrt (o : OpA) : Encode.Statement (.fsqrt o) := fun h => Form.header_ok _ h
theorem Encode.fexp2 (o : OpA) : Encode.Statement (.fexp2 o) := fun h => Form.header_ok _ h
theorem Encode.flog2 (o : OpA) : Encode.Statement (.flog2 o) := fun h => Form.header_ok _ h
theorem Encode.ftanh (o : OpA) : Encode.Statement (.ftanh o) := fun h => Form.header_ok _ h
theorem Encode.fsin (o : OpA) : Encode.Statement (.fsin o) := fun h => Form.header_ok _ h
theorem Encode.fcos (o : OpA) : Encode.Statement (.fcos o) := fun h => Form.header_ok _ h
theorem Encode.frnd (o : OpA) : Encode.Statement (.frnd o) := fun h => Form.header_ok _ h
theorem Encode.fclass (o : OpA) : Encode.Statement (.fclass o) := fun h => Form.header_ok _ h
theorem Encode.fdot2 (o : OpA) : Encode.Statement (.fdot2 o) := fun h => Form.header_ok _ h
theorem Encode.mxpack (o : OpA) : Encode.Statement (.mxpack o) := fun h => Form.header_ok _ h
theorem Encode.mxunpk (o : OpA) : Encode.Statement (.mxunpk o) := fun h => Form.header_ok _ h
theorem Encode.fcmpEq (o : OpA) : Encode.Statement (.fcmpEq o) := fun h => Form.header_ok _ h
theorem Encode.fcmpNe (o : OpA) : Encode.Statement (.fcmpNe o) := fun h => Form.header_ok _ h
theorem Encode.fcmpLt (o : OpA) : Encode.Statement (.fcmpLt o) := fun h => Form.header_ok _ h
theorem Encode.fcmpLe (o : OpA) : Encode.Statement (.fcmpLe o) := fun h => Form.header_ok _ h
theorem Encode.fcmpGt (o : OpA) : Encode.Statement (.fcmpGt o) := fun h => Form.header_ok _ h
theorem Encode.fcmpGe (o : OpA) : Encode.Statement (.fcmpGe o) := fun h => Form.header_ok _ h
theorem Encode.fcmpUn (o : OpA) : Encode.Statement (.fcmpUn o) := fun h => Form.header_ok _ h
theorem Encode.fcvtBf16F32 (o : OpA) : Encode.Statement (.fcvtBf16F32 o) := fun h => Form.header_ok _ h
theorem Encode.fcvtF16F32 (o : OpA) : Encode.Statement (.fcvtF16F32 o) := fun h => Form.header_ok _ h
theorem Encode.fcvtF32Bf16 (o : OpA) : Encode.Statement (.fcvtF32Bf16 o) := fun h => Form.header_ok _ h
theorem Encode.fcvtF32F16 (o : OpA) : Encode.Statement (.fcvtF32F16 o) := fun h => Form.header_ok _ h
theorem Encode.fcvtS32F32 (o : OpA) : Encode.Statement (.fcvtS32F32 o) := fun h => Form.header_ok _ h
theorem Encode.fcvtF32S32 (o : OpA) : Encode.Statement (.fcvtF32S32 o) := fun h => Form.header_ok _ h
theorem Encode.fcvtN32F32 (o : OpA) : Encode.Statement (.fcvtN32F32 o) := fun h => Form.header_ok _ h
theorem Encode.fcvtF32N32 (o : OpA) : Encode.Statement (.fcvtF32N32 o) := fun h => Form.header_ok _ h
theorem Encode.shflAt (o : OpA) : Encode.Statement (.shflAt o) := fun h => Form.header_ok _ h
theorem Encode.shflRot (o : OpA) : Encode.Statement (.shflRot o) := fun h => Form.header_ok _ h
theorem Encode.shflSlide (o : OpA) : Encode.Statement (.shflSlide o) := fun h => Form.header_ok _ h
theorem Encode.shflFlip (o : OpA) : Encode.Statement (.shflFlip o) := fun h => Form.header_ok _ h
theorem Encode.bcast (o : OpA) : Encode.Statement (.bcast o) := fun h => Form.header_ok _ h
theorem Encode.voteEvery (o : OpA) : Encode.Statement (.voteEvery o) := fun h => Form.header_ok _ h
theorem Encode.voteSome (o : OpA) : Encode.Statement (.voteSome o) := fun h => Form.header_ok _ h
theorem Encode.voteSame (o : OpA) : Encode.Statement (.voteSame o) := fun h => Form.header_ok _ h
theorem Encode.voteOdd (o : OpA) : Encode.Statement (.voteOdd o) := fun h => Form.header_ok _ h
theorem Encode.ballot (o : OpA) : Encode.Statement (.ballot o) := fun h => Form.header_ok _ h
theorem Encode.matchLanes (o : OpA) : Encode.Statement (.matchLanes o) := fun h => Form.header_ok _ h
theorem Encode.reduce (p : RedOp) (o : OpA) : Encode.Statement (.reduce p o) := fun h => Form.header_ok _ h
theorem Encode.scanInc (p : RedOp) (o : OpA) : Encode.Statement (.scanInc p o) := fun h => Form.header_ok _ h
theorem Encode.scanExc (p : RedOp) (o : OpA) : Encode.Statement (.scanExc p o) := fun h => Form.header_ok _ h
theorem Encode.ld (h : Hint) (o : OpM) : Encode.Statement (.ld h o) := fun h => Form.header_ok _ h
theorem Encode.st (h : Hint) (o : OpM) : Encode.Statement (.st h o) := fun h => Form.header_ok _ h
theorem Encode.ldx (h : Hint) (o : OpM) : Encode.Statement (.ldx h o) := fun h => Form.header_ok _ h
theorem Encode.stx (h : Hint) (o : OpM) : Encode.Statement (.stx h o) := fun h => Form.header_ok _ h
theorem Encode.ldu (h : Hint) (o : OpM) : Encode.Statement (.ldu h o) := fun h => Form.header_ok _ h
theorem Encode.stu (h : Hint) (o : OpM) : Encode.Statement (.stu h o) := fun h => Form.header_ok _ h
theorem Encode.atom (p : AtomOp) (o : OpM) : Encode.Statement (.atom p o) := fun h => Form.header_ok _ h
theorem Encode.atomOrdered (p : AtomOp) (o : OpM) : Encode.Statement (.atomOrdered p o) := fun h => Form.header_ok _ h
theorem Encode.acq (o : OpM) : Encode.Statement (.acq o) := fun h => Form.header_ok _ h
theorem Encode.rel (o : OpM) : Encode.Statement (.rel o) := fun h => Form.header_ok _ h
theorem Encode.fence (o : OpM) : Encode.Statement (.fence o) := fun h => Form.header_ok _ h
theorem Encode.pref (o : OpM) : Encode.Statement (.pref o) := fun h => Form.header_ok _ h
theorem Encode.park (o : OpM) : Encode.Statement (.park o) := fun h => Form.header_ok _ h
theorem Encode.cflush (o : OpM) : Encode.Statement (.cflush o) := fun h => Form.header_ok _ h
theorem Encode.cinv (o : OpM) : Encode.Statement (.cinv o) := fun h => Form.header_ok _ h
theorem Encode.cwb (o : OpM) : Encode.Statement (.cwb o) := fun h => Form.header_ok _ h
theorem Encode.handoff (o : OpM) : Encode.Statement (.handoff o) := fun h => Form.header_ok _ h
theorem Encode.rmode (o : OpA) : Encode.Statement (.rmode o) := fun h => Form.header_ok _ h
theorem Encode.ncwin (o : OpA) : Encode.Statement (.ncwin o) := fun h => Form.header_ok _ h
theorem Encode.tlbinv (o : OpA) : Encode.Statement (.tlbinv o) := fun h => Form.header_ok _ h
theorem Encode.tlbprobe (o : OpA) : Encode.Statement (.tlbprobe o) := fun h => Form.header_ok _ h
theorem Encode.replay (o : OpA) : Encode.Statement (.replay o) := fun h => Form.header_ok _ h
theorem Encode.potset (o : OpA) : Encode.Statement (.potset o) := fun h => Form.header_ok _ h
theorem Encode.copy (o : OpM) : Encode.Statement (.copy o) := fun h => Form.header_ok _ h
theorem Encode.qput (o : OpM) : Encode.Statement (.qput o) := fun h => Form.header_ok _ h
theorem Encode.qclaim (o : OpM) : Encode.Statement (.qclaim o) := fun h => Form.header_ok _ h
theorem Encode.taskdef (o : OpA) : Encode.Statement (.taskdef o) := fun h => Form.header_ok _ h
theorem Encode.taskdep (o : OpA) : Encode.Statement (.taskdep o) := fun h => Form.header_ok _ h
theorem Encode.tasksig (o : OpA) : Encode.Statement (.tasksig o) := fun h => Form.header_ok _ h
theorem Encode.swzadr (o : OpA) : Encode.Statement (.swzadr o) := fun h => Form.header_ok _ h
theorem Encode.mseta (o : OpA) : Encode.Statement (.mseta o) := fun h => Form.header_ok _ h
theorem Encode.msetb (o : OpA) : Encode.Statement (.msetb o) := fun h => Form.header_ok _ h
theorem Encode.mzero (o : OpA) : Encode.Statement (.mzero o) := fun h => Form.header_ok _ h
theorem Encode.mrd (o : OpA) : Encode.Statement (.mrd o) := fun h => Form.header_ok _ h
theorem Encode.mwr (o : OpA) : Encode.Statement (.mwr o) := fun h => Form.header_ok _ h
theorem Encode.mspan (o : OpA) : Encode.Statement (.mspan o) := fun h => Form.header_ok _ h
theorem Encode.mseq (o : OpA) : Encode.Statement (.mseq o) := fun h => Form.header_ok _ h
theorem Encode.mma (o : MmaOp) : Encode.Statement (.mma o) := fun h => Form.header_ok _ h
theorem Encode.mldb (o : OpM) : Encode.Statement (.mldb o) := fun h => Form.header_ok _ h
theorem Encode.kvx (o : KvxOp) : Encode.Statement (.kvx o) := fun h => Form.header_ok _ h
theorem Encode.kvalloc (o : OpA) : Encode.Statement (.kvalloc o) := fun h => Form.header_ok _ h
theorem Encode.kvfree (o : OpA) : Encode.Statement (.kvfree o) := fun h => Form.header_ok _ h
theorem Encode.kvpin (o : OpA) : Encode.Statement (.kvpin o) := fun h => Form.header_ok _ h
theorem Encode.kvunpin (o : OpA) : Encode.Statement (.kvunpin o) := fun h => Form.header_ok _ h
theorem Encode.wqpull (o : OpM) : Encode.Statement (.wqpull o) := fun h => Form.header_ok _ h
theorem Encode.wqpush (o : OpM) : Encode.Statement (.wqpush o) := fun h => Form.header_ok _ h
theorem Encode.lastarr (o : OpM) : Encode.Statement (.lastarr o) := fun h => Form.header_ok _ h
theorem Encode.sysc (o : OpA) : Encode.Statement (.sysc o) := fun h => Form.header_ok _ h
theorem Encode.fencec (o : OpA) : Encode.Statement (.fencec o) := fun h => Form.header_ok _ h
theorem Encode.trap (o : OpA) : Encode.Statement (.trap o) := fun h => Form.header_ok _ h
theorem Encode.tret (o : OpA) : Encode.Statement (.tret o) := fun h => Form.header_ok _ h
theorem Encode.brk (o : OpA) : Encode.Statement (.brk o) := fun h => Form.header_ok _ h
theorem Encode.halt (o : OpA) : Encode.Statement (.halt o) := fun h => Form.header_ok _ h
theorem Encode.select (core : Nat) (part : Nat) : Encode.Statement (.select core part) := fun h => Form.header_ok _ h
theorem Encode.rescan (core : Nat) (part : Nat) : Encode.Statement (.rescan core part) := fun h => Form.header_ok _ h
theorem Encode.rendezvousComplete (t : Nat) : Encode.Statement (.rendezvousComplete t) := fun h => Form.header_ok _ h
theorem Encode.rendezvousTimeout (t : Nat) : Encode.Statement (.rendezvousTimeout t) := fun h => Form.header_ok _ h
theorem Encode.cleatRelease (core : Nat) (cleat : Nat) : Encode.Statement (.cleatRelease core cleat) := fun h => Form.header_ok _ h
theorem Encode.cleatTimeout (core : Nat) (cleat : Nat) : Encode.Statement (.cleatTimeout core cleat) := fun h => Form.header_ok _ h
theorem Encode.bindRecordWrite (core : Nat) (slot : Nat) (w0 : DWord) (w1 : DWord) (w2 : DWord) (w3 : DWord) : Encode.Statement (.bindRecordWrite core slot w0 w1 w2 w3) := fun h => Form.header_ok _ h
theorem Encode.yardInit (core : Nat) : Encode.Statement (.yardInit core) := fun h => Form.header_ok _ h
theorem Encode.poolDeadlock (core : Nat) (part : Nat) : Encode.Statement (.poolDeadlock core part) := fun h => Form.header_ok _ h
theorem Encode.launch (n : Nat) (places : List (Nat × Nat)) : Encode.Statement (.launch n places) := fun h => Form.header_ok _ h
theorem Encode.queueConsume (slot : Nat) : Encode.Statement (.queueConsume slot) := fun h => Form.header_ok _ h
theorem Encode.nearDataPacket (n : Nat) (places : List (Nat × Nat)) : Encode.Statement (.nearDataPacket n places) := fun h => Form.header_ok _ h
theorem Encode.queueAttach (slot : Nat) (v : DWord) : Encode.Statement (.queueAttach slot v) := fun h => Form.header_ok _ h
theorem Encode.queueDetach (slot : Nat) : Encode.Statement (.queueDetach slot) := fun h => Form.header_ok _ h
theorem Encode.copyComplete (n : Nat) (lines : Nat) : Encode.Statement (.copyComplete n lines) := fun h => Form.header_ok _ h
theorem Encode.segmentLanded (core : Nat) (seg : Nat) : Encode.Statement (.segmentLanded core seg) := fun h => Form.header_ok _ h
theorem Encode.engineCancel (core : Nat) (slot : Nat) : Encode.Statement (.engineCancel core slot) := fun h => Form.header_ok _ h
theorem Encode.matrixQueueEnter (core : Nat) : Encode.Statement (.matrixQueueEnter core) := fun h => Form.header_ok _ h
theorem Encode.matrixOpStart (core : Nat) : Encode.Statement (.matrixOpStart core) := fun h => Form.header_ok _ h
theorem Encode.matrixOpComplete (core : Nat) : Encode.Statement (.matrixOpComplete core) := fun h => Form.header_ok _ h
theorem Encode.storeRegistrationAck (n : Nat) (late : List Nat) (drop : Bool) : Encode.Statement (.storeRegistrationAck n late drop) := fun h => Form.header_ok _ h
theorem Encode.walkComplete (n : Nat) : Encode.Statement (.walkComplete n) := fun h => Form.header_ok _ h
theorem Encode.fbreplay (cluster : Nat) (ctx : Nat) : Encode.Statement (.fbreplay cluster ctx) := fun h => Form.header_ok _ h
theorem Encode.fbdeliver (cluster : Nat) (entry : Nat) : Encode.Statement (.fbdeliver cluster entry) := fun h => Form.header_ok _ h
theorem Encode.interruptFileWrite (ident : Word) : Encode.Statement (.interruptFileWrite ident) := fun h => Form.header_ok _ h
theorem Encode.shootdownSeqWrite (v : Word) : Encode.Statement (.shootdownSeqWrite v) := fun h => Form.header_ok _ h
theorem Encode.shootdownComplete : Encode.Statement (.shootdownComplete) := fun h => Form.header_ok _ h
theorem Encode.holderRead (h : Nat) (pa : Nat) : Encode.Statement (.holderRead h pa) := fun h => Form.header_ok _ h
theorem Encode.holderOwnershipRequest (h : Nat) (pa : Nat) : Encode.Statement (.holderOwnershipRequest h pa) := fun h => Form.header_ok _ h
theorem Encode.holderWriteback (h : Nat) (pa : Nat) (data : List Word) : Encode.Statement (.holderWriteback h pa data) := fun h => Form.header_ok _ h
theorem Encode.bisnpResponse (h : Nat) (pa : Nat) (data : List Word) : Encode.Statement (.bisnpResponse h pa data) := fun h => Form.header_ok _ h
theorem Encode.directoryMerge (pa : Nat) (level : Nat) : Encode.Statement (.directoryMerge pa level) := fun h => Form.header_ok _ h
theorem Encode.handoverGo (v : Word) : Encode.Statement (.handoverGo v) := fun h => Form.header_ok _ h
theorem Encode.handoverComplete (lines : Nat) : Encode.Statement (.handoverComplete lines) := fun h => Form.header_ok _ h
theorem Encode.refreshTick (pc : Nat) : Encode.Statement (.refreshTick pc) := fun h => Form.header_ok _ h
theorem Encode.refreshForced (pc : Nat) : Encode.Statement (.refreshForced pc) := fun h => Form.header_ok _ h
theorem Encode.memoryRead (pa : Nat) (ecc : Nat) (queued : Bool) : Encode.Statement (.memoryRead pa ecc queued) := fun h => Form.header_ok _ h
theorem Encode.linkDown (port : Nat) : Encode.Statement (.linkDown port) := fun h => Form.header_ok _ h
theorem Encode.linkTrain (port : Nat) (ids : List (Nat × Nat)) : Encode.Statement (.linkTrain port ids) := fun h => Form.header_ok _ h
theorem Encode.portViral (port : Nat) : Encode.Statement (.portViral port) := fun h => Form.header_ok _ h
theorem Encode.expanderLost (port : Nat) (base : Nat) (len : Nat) : Encode.Statement (.expanderLost port base len) := fun h => Form.header_ok _ h
theorem Encode.sramSoftError (addr : Nat) (uncorrectable : Bool) (uid : Nat) (index : Nat) : Encode.Statement (.sramSoftError addr uncorrectable uid index) := fun h => Form.header_ok _ h
theorem Encode.salvage (port : Nat) (work : Nat × List Nat) : Encode.Statement (.salvage port work) := fun h => Form.header_ok _ h
theorem Encode.discard (port : Nat) : Encode.Statement (.discard port) := fun h => Form.header_ok _ h
theorem Encode.clearviral (port : Nat) : Encode.Statement (.clearviral port) := fun h => Form.header_ok _ h
theorem Encode.kickPreempt (ctx : Nat) : Encode.Statement (.kickPreempt ctx) := fun h => Form.header_ok _ h
theorem Encode.kickRestore (ctx : Nat) : Encode.Statement (.kickRestore ctx) := fun h => Form.header_ok _ h
theorem Encode.kickReplay (ctx : Nat) (clusters : BitVec 14) : Encode.Statement (.kickReplay ctx clusters) := fun h => Form.header_ok _ h
theorem Encode.preemptRequest (ctx : Nat) : Encode.Statement (.preemptRequest ctx) := fun h => Form.header_ok _ h
theorem Encode.coreHalt (core : Nat) : Encode.Statement (.coreHalt core) := fun h => Form.header_ok _ h
theorem Encode.contextSave (ctx : Nat) : Encode.Statement (.contextSave ctx) := fun h => Form.header_ok _ h
theorem Encode.contextRestore (ctx : Nat) (onto : List Nat) (intact : Bool) : Encode.Statement (.contextRestore ctx onto intact) := fun h => Form.header_ok _ h
theorem Encode.quotaFold : Encode.Statement (.quotaFold) := fun h => Form.header_ok _ h
theorem Encode.debugStop (ctx : Nat) : Encode.Statement (.debugStop ctx) := fun h => Form.header_ok _ h
theorem Encode.debugResume (ctx : Nat) : Encode.Statement (.debugResume ctx) := fun h => Form.header_ok _ h
theorem Encode.debugStep (ctx : Nat) : Encode.Statement (.debugStep ctx) := fun h => Form.header_ok _ h
theorem Encode.stopwWrite (ctx : Nat) (v : DWord) : Encode.Statement (.stopwWrite ctx v) := fun h => Form.header_ok _ h
theorem Encode.syscallEcho (core : Nat) (n : Nat) : Encode.Statement (.syscallEcho core n) := fun h => Form.header_ok _ h
theorem Encode.syscallTime (core : Nat) (n : Nat) : Encode.Statement (.syscallTime core n) := fun h => Form.header_ok _ h
theorem Encode.syscallHostmsg (core : Nat) (n : Nat) : Encode.Statement (.syscallHostmsg core n) := fun h => Form.header_ok _ h
theorem Encode.syscallUnknown (core : Nat) (n : Nat) : Encode.Statement (.syscallUnknown core n) := fun h => Form.header_ok _ h
theorem Encode.poolAttach (slot : Nat) (ctx : Nat) (v : DWord) : Encode.Statement (.poolAttach slot ctx v) := fun h => Form.header_ok _ h
theorem Encode.poolDetach (slot : Nat) (ctx : Nat) : Encode.Statement (.poolDetach slot ctx) := fun h => Form.header_ok _ h
theorem Encode.compactionStep (cls : Nat) : Encode.Statement (.compactionStep cls) := fun h => Form.header_ok _ h
theorem Encode.movePublish (cls : Nat) : Encode.Statement (.movePublish cls) := fun h => Form.header_ok _ h
theorem Encode.wqAttach (q : Nat) (ctx : Nat) (v : DWord) : Encode.Statement (.wqAttach q ctx v) := fun h => Form.header_ok _ h
theorem Encode.wqDetach (q : Nat) (ctx : Nat) : Encode.Statement (.wqDetach q ctx) := fun h => Form.header_ok _ h
theorem Encode.wqClose (q : Nat) (ctx : Nat) : Encode.Statement (.wqClose q ctx) := fun h => Form.header_ok _ h
theorem Encode.wqpullComplete (q : Nat) : Encode.Statement (.wqpullComplete q) := fun h => Form.header_ok _ h
theorem Encode.create (w : Nat) : Encode.Statement (.create w) := fun h => Form.header_ok _ h
theorem Encode.destroy (w : Nat) : Encode.Statement (.destroy w) := fun h => Form.header_ok _ h
theorem Encode.assign (w : Nat) : Encode.Statement (.assign w) := fun h => Form.header_ok _ h
theorem Encode.quota (w : Nat) : Encode.Statement (.quota w) := fun h => Form.header_ok _ h
theorem Encode.rotate (w : Nat) : Encode.Statement (.rotate w) := fun h => Form.header_ok _ h
theorem Encode.keySweepComplete (sweep : Nat × Nat) : Encode.Statement (.keySweepComplete sweep) := fun h => Form.header_ok _ h
theorem Encode.register (w : Nat) : Encode.Statement (.register w) := fun h => Form.header_ok _ h
theorem Encode.cert (w : Nat) : Encode.Statement (.cert w) := fun h => Form.header_ok _ h
theorem Encode.checkpoint (w : Nat) : Encode.Statement (.checkpoint w) := fun h => Form.header_ok _ h
theorem Encode.log (w : Nat) : Encode.Statement (.log w) := fun h => Form.header_ok _ h
theorem Encode.ndallow (w : Nat) : Encode.Statement (.ndallow w) := fun h => Form.header_ok _ h
theorem Encode.ndopen (w : Nat) (session : Nat) (accepted : Bool) (peer : BitVec 384) : Encode.Statement (.ndopen w session accepted peer) := fun h => Form.header_ok _ h
theorem Encode.reclaim (w : Nat) : Encode.Statement (.reclaim w) := fun h => Form.header_ok _ h
theorem Encode.trustUnknownCommand (code : Nat) : Encode.Statement (.trustUnknownCommand code) := fun h => Form.header_ok _ h
theorem Encode.usagePeriodic (w : Nat) : Encode.Statement (.usagePeriodic w) := fun h => Form.header_ok _ h
theorem Encode.nearDataTagGo (ctx : Nat) (v : Word) : Encode.Statement (.nearDataTagGo ctx v) := fun h => Form.header_ok _ h
theorem Encode.nearDataTagDone (ctx : Nat) : Encode.Statement (.nearDataTagDone ctx) := fun h => Form.header_ok _ h
theorem Encode.getVersion (tr : Nat) : Encode.Statement (.getVersion tr) := fun h => Form.header_ok _ h
theorem Encode.getCapabilities (tr : Nat) (wellFormed : Bool) : Encode.Statement (.getCapabilities tr wellFormed) := fun h => Form.header_ok _ h
theorem Encode.negotiateAlgorithms (tr : Nat) (wellFormed : Bool) : Encode.Statement (.negotiateAlgorithms tr wellFormed) := fun h => Form.header_ok _ h
theorem Encode.getDigests (tr : Nat) (wellFormed : Bool) : Encode.Statement (.getDigests tr wellFormed) := fun h => Form.header_ok _ h
theorem Encode.getCertificate (tr : Nat) (wellFormed : Bool) (slot : Nat) (offset : Nat) (length : Nat) : Encode.Statement (.getCertificate tr wellFormed slot offset length) := fun h => Form.header_ok _ h
theorem Encode.challenge (tr : Nat) (wellFormed : Bool) (slot : Nat) (nonce : BitVec 256) : Encode.Statement (.challenge tr wellFormed slot nonce) := fun h => Form.header_ok _ h
theorem Encode.getMeasurements (tr : Nat) (wellFormed : Bool) (index : Nat) : Encode.Statement (.getMeasurements tr wellFormed index) := fun h => Form.header_ok _ h
theorem Encode.keyExchange (tr : Nat) (wellFormed : Bool) (session : Nat) (ndWorld : Option Nat) (peer : BitVec 384) : Encode.Statement (.keyExchange tr wellFormed session ndWorld peer) := fun h => Form.header_ok _ h
theorem Encode.finish (tr : Nat) (wellFormed : Bool) (verified : Bool) : Encode.Statement (.finish tr wellFormed verified) := fun h => Form.header_ok _ h
theorem Encode.spdmUnexpectedRequest (tr : Nat) : Encode.Statement (.spdmUnexpectedRequest tr) := fun h => Form.header_ok _ h
theorem Encode.dcExtentOffer (base : Nat) (pages : Nat) (tag : BitVec 128) : Encode.Statement (.dcExtentOffer base pages tag) := fun h => Form.header_ok _ h
theorem Encode.dcExtentRelease (base : Nat) (pages : Nat) : Encode.Statement (.dcExtentRelease base pages) := fun h => Form.header_ok _ h
theorem Encode.coldStart (failAt : Nat) (puf : PufReading) (dbgen : Bool) (sysPages : List Nat) : Encode.Statement (.coldStart failAt puf dbgen sysPages) := fun h => Form.header_ok _ h
theorem Encode.warmStart (failAt : Nat) : Encode.Statement (.warmStart failAt) := fun h => Form.header_ok _ h
theorem Encode.i3cEntdaa (addr : BitVec 7) : Encode.Statement (.i3cEntdaa addr) := fun h => Form.header_ok _ h
theorem Encode.opChangeComplete (cluster : Nat) : Encode.Statement (.opChangeComplete cluster) := fun h => Form.header_ok _ h
theorem Encode.powerCapStep : Encode.Statement (.powerCapStep) := fun h => Form.header_ok _ h
theorem Encode.capClear : Encode.Statement (.capClear) := fun h => Form.header_ok _ h
theorem Encode.ltolWrite (v : Word) : Encode.Statement (.ltolWrite v) := fun h => Form.header_ok _ h
theorem Encode.clusterGate (cluster : Nat) : Encode.Statement (.clusterGate cluster) := fun h => Form.header_ok _ h
theorem Encode.ps2Entry : Encode.Statement (.ps2Entry) := fun h => Form.header_ok _ h
theorem Encode.ps3Entry : Encode.Statement (.ps3Entry) := fun h => Form.header_ok _ h
theorem Encode.powerWake : Encode.Statement (.powerWake) := fun h => Form.header_ok _ h
theorem Encode.powerExitDone : Encode.Statement (.powerExitDone) := fun h => Form.header_ok _ h
theorem Encode.registerWrite (off : Nat) (size : Nat) (v : DWord) : Encode.Statement (.registerWrite off size v) := fun h => Form.header_ok _ h
theorem Encode.snoop (pa : Nat) (inv : Bool) : Encode.Statement (.snoop pa inv) := fun h => Form.header_ok _ h
theorem Encode.contextCreated (ctx : Nat) (root0 : DWord) (root1 : DWord) (cores : List Nat) (grants : BitVec 2) : Encode.Statement (.contextCreated ctx root0 root1 cores grants) := fun h => Form.header_ok _ h
theorem Encode.contextEnded (ctx : Nat) : Encode.Statement (.contextEnded ctx) := fun h => Form.header_ok _ h
theorem Encode.hdmDecoderWrite (port : Nat) (base : Nat) (size : Nat) (ways : Nat) (gran : Nat) : Encode.Statement (.hdmDecoderWrite port base size ways gran) := fun h => Form.header_ok _ h
theorem Encode.sensorReading (temp : BitVec 16) (power : BitVec 16) : Encode.Statement (.sensorReading temp power) := fun h => Form.header_ok _ h
theorem Encode.pwrgdFall : Encode.Statement (.pwrgdFall) := fun h => Form.header_ok _ h

end Sys2Proof.Laws
end

