-- ==== Sys2Proof/Laws/Step.lean ====
section
/-! SUPPORT. Threads after one of them has been changed, the issue of a word, and what the end of a step settles. -/

namespace Sys2Proof.Machine

/-! ### One thread changed -/

theorem State.thread_modThread (s : State) (k j : Nat) (f : Thread → Thread) :
    (s.modThread k f).thread j = if j = k then f (s.thread k) else s.thread j := by
  simp only [State.modThread, State.thread_setThread]

@[simp] theorem State.thread_modPart (s : State) (p j : Nat) (f : Part → Part) : (s.modPart p f).thread j = s.thread j := rfl
@[simp] theorem State.thread_leaveGroup (s : State) (k j : Nat) : (s.leaveGroup k).thread j = s.thread j := rfl
@[simp] theorem State.thread_unplace (s : State) (k j : Nat) : (s.unplace k).thread j = s.thread j := rfl

/-- A thread placed at its program counter has its state alone changed, and the time at which it found no free entry. -/
theorem State.arrive_self (s : State) (k : Nat) : (s.arrive k).thread k =
    { s.thread k with st := ((s.arrive k).thread k).st, missed := ((s.arrive k).thread k).missed } := by
  unfold State.arrive
  simp only
  split
  · simp [State.thread, State.setThread]
  · split <;> simp [State.thread, State.setThread]

/-- Placing a thread leaves the others. -/
theorem State.arrive_other (s : State) (k j : Nat) (h : j ≠ k) : (s.arrive k).thread j = s.thread j := by
  unfold State.arrive
  simp only
  split
  · simp [State.thread, State.setThread, State.setPart, Map.getD_set, h]
  · split <;> simp [State.thread, State.setThread, State.setPart, Map.getD_set, h]

/-! ### Issue -/

/-- Where the focused group stands at a word, that word issues, in the state made ready for it. -/
theorem State.issue_atWord {u : State} {g : Group} {dec : List SlotWord} {x : SlotWord} {rest : List SlotWord}
    (h : u.AtWord g dec x rest) : u.issue = .word x rest.length (u.readied g dec rest.length) := by
  have hg := h.group
  obtain ⟨st, hs1, hs2⟩ : ∃ st, (u.part u.fpart).stream = some st ∧ st.groups[st.cur]? = some g := by
    simp only [State.group, State.fpart] at hg ⊢
    revert hg
    cases hq : (u.part (partKey u.focus.1 u.focus.2)).stream <;> simp_all
  have hgl : g.lanes.isEmpty = false := by
    obtain ⟨k, hk, _⟩ := h.here
    cases hgl : g.lanes <;> simp_all
  have hall : (st.groups.all fun g => g.lanes.isEmpty) = false := by
    rw [List.all_eq_false]
    exact ⟨g, List.mem_of_getElem? hs2, by simp [hgl]⟩
  have hc : (u.core u.focus.1).ctx.isNone = false := by
    have := h.serves
    cases hh : (u.core u.focus.1).ctx <;> simp_all
  obtain ⟨f1, f2, f3⟩ := h.fresh
  have hlv : (g.lanes.filter u.leavesAtSwitch) = [] := by
    rw [List.filter_eq_nil_iff]
    intro k hk
    simp [h.stays k hk]
  have hst' : (g.lanes.all fun k => decide (g.w < (u.thread k).wpos)) = false := by
    rw [List.all_eq_false]
    obtain ⟨k, hk, hk2⟩ := h.here
    exact ⟨k, hk, by simpa using hk2⟩
  have hlate : ((g.lanes.filter fun k => decide ((u.thread k).wpos ≤ g.w)).filter fun k => (u.thread k).dueNow) = [] := by
    rw [List.filter_eq_nil_iff]
    intro k hk
    simp only [List.mem_filter, decide_eq_true_eq] at hk
    simp [h.notDue k hk.1 hk.2]
  have hw : (if (widest (u.groupVersion g.lanes) (x :: rest) != .lane) = true then
      ((g.lanes.filter fun k => decide ((u.thread k).wpos ≤ g.w)).filter fun k => (u.thread k).released.isNone) else []) = [] := by
    rcases h.metUp with h | h
    · simp [h]
    · split
      · rw [List.filter_eq_nil_iff]
        intro k hk
        simp only [List.mem_filter, decide_eq_true_eq] at hk
        simp [Option.isSome_iff_ne_none.mp (h k hk.1 hk.2)]
      · rfl
  have e1 := h.core
  have e2 := h.part
  simp only [State.issue]
  simp only [show decide (Config.cores ≤ u.focus.1) = false by simpa using e1,
    show decide (Config.partitions ≤ u.focus.2) = false by simpa using e2, hc, hs1, hall, hs2, Bool.or_false]
  simp only [State.issueGroup, hgl, h.going, hlv, hst', h.unmerged st hs1, f1, h.fetched, State.groupWords, ite_self]
  simp only [List.isEmpty_nil, if_true, Bool.false_eq_true, if_false, Bool.and_false, h.decoded,
    Bool.not_true]
  simp only [State.issueWord, f2, h.chain, hlate, f3]
  simp only [decide_true, Bool.true_and, List.isEmpty_nil, hw, if_true, Bool.not_true, Bool.and_false, if_false,
    Bool.false_eq_true, State.readied, List.length_cons, Nat.add_sub_cancel, Bool.and_true]

/-! ### The end of a step -/

theorem mem_insertBy {α : Type} (le : α → α → Bool) (x y : α) (l : List α) : y ∈ insertBy le x l ↔ y = x ∨ y ∈ l := by
  induction l with
  | nil => simp [insertBy]
  | cons z r ih =>
    simp only [insertBy]
    split
    · simp
    · simp only [List.mem_cons, ih]; exact or_left_comm

/-- Sorting keeps the members. -/
theorem mem_sortBy {α : Type} (le : α → α → Bool) (y : α) (l : List α) : y ∈ sortBy le l ↔ y ∈ l := by
  induction l with
  | nil => simp [sortBy]
  | cons x r ih => rw [List.mem_cons, ← ih]; exact mem_insertBy le x y _

/-- The members of an aged queue: each is the address of an entry that can be chosen. -/
theorem State.agedNow_ready {s : State} {q : Part} {a : BitVec 16} (h : a ∈ s.agedNow q) :
    (q.entries.any fun e => e.addr == a && s.entryReady e) = true := by
  simp only [State.agedNow, List.mem_append, List.mem_filter, mem_sortBy, List.mem_map] at h
  rcases h with h | ⟨e, ⟨he, hr⟩, rfl⟩
  · exact h.2
  · rw [List.any_eq_true]
    simp only [Bool.and_eq_true] at hr
    exact ⟨e, he, by simp [hr.1.2]⟩

/-- Every aged entry that can be chosen is a member. -/
theorem State.agedNow_all {s : State} {q : Part} {e : Entry} (he : e ∈ q.entries) (ha : e.age = Config.ageLimit)
    (hr : s.entryReady e = true) : e.addr ∈ s.agedNow q := by
  simp only [State.agedNow, List.mem_append, mem_sortBy, List.mem_map, List.mem_filter]
  by_cases ho : (q.aged.filter fun a => q.entries.any fun e => e.addr == a && s.entryReady e).contains e.addr = true
  · left; simpa only [List.mem_filter] using List.contains_iff_mem.mp ho
  · right; exact ⟨e, ⟨he, by rw [Bool.not_eq_true] at ho; simp only [ha, hr, ho]; rfl⟩, rfl⟩

/-- Settling an aged queue twice is settling it once. -/
theorem State.agedNow_settled (s : State) (q : Part) : s.agedNow { q with aged := s.agedNow q } = s.agedNow q := by
  have h1 : (s.agedNow q).filter (fun a => q.entries.any fun e => e.addr == a && s.entryReady e) = s.agedNow q :=
    List.filter_eq_self.mpr fun a h => State.agedNow_ready h
  have h2 : (q.entries.filter fun e => e.age == Config.ageLimit && s.entryReady e && !(s.agedNow q).contains e.addr) = [] := by
    rw [List.filter_eq_nil_iff]
    intro e he
    by_cases ha : e.age = Config.ageLimit
    · cases hr : s.entryReady e
      · simp
      · simp [State.agedNow_all he ha hr]
    · simp [ha]
  have e (x : List (BitVec 16)) (h1 : x.filter (fun a => q.entries.any fun e => e.addr == a && s.entryReady e) = x)
      (h2 : (q.entries.filter fun e => e.age == Config.ageLimit && s.entryReady e && !x.contains e.addr) = []) :
      s.agedNow { q with aged := x } = x := by
    simp only [State.agedNow, h1, h2, List.map_nil, sortBy, List.foldr_nil, List.append_nil]
  exact e _ h1 h2

end Sys2Proof.Machine
end

