-- ==== Sys2Proof/Tests/Slice0.lean ====
section
/-! SUPPORT. Small tests with results from the spec, and for each statement a state and operands that meet its hypotheses. -/

namespace Sys2Proof.Tests

open Sys2Proof Sys2Proof.Machine

set_option Elab.async false

/-! ### States -/

/-- The leaf of a page that may be read and written, and the pointer to a table. -/
def leafPte (ppn : Nat) : Word := BitVec.ofNat 32 (ppn * 2 ^ 10 + 0xD7)
def tablePte (ppn : Nat) : Word := BitVec.ofNat 32 (ppn * 2 ^ 10 + 1)

/-- One thread of context 0 about to issue a packet of NOP words, with slots `vs` of v0 up and `us` of s0 up staged. The table
of the context, in page 0x10, names itself at 0 and the pages 0x20 to 0x27 at 5 to 12: virtual page 5 is device page 0x20. -/
def lab (vs us : List Word) : State :=
  let s := State.reset.loadPacket [nopWord, nopWord, nopWord]
  let table := (List.range 8).foldl (fun m i => Memory.setWord m (0x10028 + 8 * i) (leafPte (0x20 + i)))
    (Memory.setWord s.mem.bytes 0x10000 (tablePte 0x10))
  let s1 := s.setMem { s.mem with bytes := table, pot := (List.range 8).map fun i =>
    (0x20 + i, { Pot.init with world := 1, bound := true }) }
  let s2 := s1.modCtx 0 fun c => { c with ppn := 0x10, statGrant := true, sysGrant := true }
  s2.modThread 0 fun t => { t with
    region := some (List.range vs.length, List.range us.length)
    vs := vs.zipIdx.map fun x => { reg := x.2, val := x.1, wr := false, sb := 0, sbw := false }
    us := us.zipIdx.map fun x => { reg := x.2, val := x.1, wr := false } }

/-- The same with `n` threads of the yard in the group, all alike. -/
def labs (n : Nat) (vs us : List Word) : State :=
  let s := lab vs us
  let s1 := (List.range n).foldl (fun u k => u.setThread k (s.thread 0)) s
  (s1.modYard 0 fun y => { y with bind := { y.bind with lanes := BitVec.ofNat 7 n } }).modGroup 0 fun g => { g with lanes := List.range n }

/-- Operands with every thread active and no literal. -/
def oA (d a b : BitVec 5) (lit : Word := 0) (s : BitVec 2 := 0) : OpA := { c := 0, s := s, d := d, a := a, b := b, g := 7, lit := lit }
def oM (d a x : BitVec 5) (sz : BitVec 2 := 0) (lit : Word := 0) : OpM :=
  { c := 0, s := 0, d := d, a := a, x := x, g := 7, sz := sz, lit := lit }
def oT (d a b e : BitVec 5) : OpT := { c := 0, s := 0, d := d, a := a, b := b, e := e, g := 7, lit := 0 }
def oI (d a : BitVec 5) (imm : BitVec 13) : OpI := { c := 0, s := 0, d := d, a := a, imm := imm }

/-- A test of the state that an outcome leaves. -/
def after (o : Host.Outcome State Fault Refusal) (f : State → Bool) : Bool :=
  match o with
  | .next s => f s
  | _ => false

/-- The value in a slot of thread 0 after an instruction. -/
def slotAfter (i : Instr) (s : State) (n : Nat) : Option Word :=
  match exec i s with
  | .next t => ((t.thread 0).vs[n]?).map fun v => v.val
  | _ => none

/-- The cause of the trap that thread 0 has taken after an instruction. -/
def causeAfter (i : Instr) (s : State) : Option Nat :=
  match exec i s with
  | .next t => if (t.thread 0).trec.intrap then some (t.thread 0).trec.cause.toNat else none
  | _ => none

/-! ### The hypotheses of the statements about words -/

/-- The translation of the test states: virtual page 5 is device page 0x20. -/
theorem test_lab_translates :
    ((lab [] []).reach (some 0) 0 0x5010 1).2 = .at 0x20010 false := by decide +kernel

theorem witness_IntegerWords : (lab [5, 7, 0] []).Ready 7 [0, 1] 0 (.vec 1 2) (fun _ => [5, 7]) := by decide +kernel

theorem witness_WideIntegersAndCompares :
    let s := lab [5, 7, 9, 0, 0, 0x100, 0x13400000] []
    s.Ready 7 [0, 1, 2] 0 (.vec 1 3) (fun _ => [5, 7, 9]) ∧ s.Ready 7 [0] 0 (.vec 1 3) (fun _ => [5]) ∧
    s.Ready 7 [0, 1, 2] 0 (.vec 2 4) (fun _ => [5, 7, 9]) ∧
    (s.Ready 7 [0, 31] 0x401 (.vec 2 4) (fun _ => [5, 0x401]) ∧ tagCause 0x401 = none) ∧
    (s.Ready 7 [5, 6] 0 (.vec 2 4) (fun _ => [0x100, 0x13400000]) ∧
      leaPointer (dw 0x100 0x13400000) 0x0F00 = some 0x1340000000001000) ∧
    s.Ready 7 [0, 1] 0 (.pred 3) (fun _ => [5, 7]) ∧ s.Ready 7 [] 0 (.pred 3) (fun _ => []) := by decide +kernel

theorem witness_FloatArithmetic :
    (lab [0x3F800000, 0x40000000, 0, 0] []).Ready 7 [0, 1] 0 (.vec 1 2) (fun _ => [0x3F800000, 0x40000000]) ∧
    (lab [0x3F800000, 0x40000000, 0, 0] []).Ready 7 [0, 1, 2] 0 (.vec 1 3) (fun _ => [0x3F800000, 0x40000000, 0]) := by decide +kernel

theorem witness_FloatFunctionsAndConversions :
    (lab [0x3F800000, 0x40000000, 0] []).Ready 7 [0, 1] 0 (.vec 1 2) (fun _ => [0x3F800000, 0x40000000]) ∧
    (lab [0x3F800000, 0x40000000, 0] []).Ready 7 [0, 1] 0 (.pred 7) (fun _ => [0x3F800000, 0x40000000]) := by decide +kernel

theorem witness_Granules :
    let s := labs 8 [1, 2, 3, 4, 0, 0, 0, 0] []
    (s.Ready 7 [0, 1, 2, 3, 31] 2 (.vec 1 4) (fun _ => [1, 2, 3, 4, 2]) ∧ formatOk 2 = true ∧ s.OctetsAgree 7 ∧ s.ModesAgree 7) ∧
    s.Ready 7 [0, 31] 2 (.vec 4 4) (fun _ => [1, 2]) ∧ (0 : BitVec 5).toNat < 16 := by decide +kernel

theorem witness_RoundingIsExactOnValues :
    ((0x3F800000 < 2 * Fmt.fp32.signBit) ∧ (Fmt.fp32.value 0x3F800000).isNan = false) ∧
    ((0xFC00 < 2 * Fmt.fp16.signBit) ∧ (Fmt.fp16.value 0xFC00).isNan = false) ∧
    ((0x8001 < 2 * Fmt.bf16.signBit) ∧ (Fmt.bf16.value 0x8001).isNan = false) := by decide +kernel

theorem witness_MovesAndStage :
    let s := labs 2 [1, 2, 0, 0] [9]
    (16 ≤ (20 : BitVec 5).toNat ∧ s.Ready 7 [20, 28] 0 (.vec 1 2) (fun _ => [9, 0])) ∧
    (s.Ready 7 [0] 0 (.vec 1 2) (one fun _ => 1) ∧ s.OctetsAgree 7) ∧ s.Ready 7 [0] 0 (.uni 1 0) (one fun _ => 1) ∧
    s.Ready 7 [0, 1] 0 (.vec 1 2) (fun _ => [1, 2]) ∧
    (let u := lab [1] []
     u.here.lanes = [0] ∧ (u.thread 0).guard 7 = true ∧ u.stageOk (yardOf 0) [3, 4] [0, 1] = true ∧
     u.regRanges 0 ([3, 4] ++ (u.thread 0).dirtyRegs) = [] ∧ ∀ r ∈ [3, 4], u.mem.poison.contains (regKey 0 r) = false) := by
  decide +kernel

theorem witness_SpecialRegisters :
    let s := labs 2 [1, 0x0E, 0, 0, 0x0A, 4] []
    (s.Ready 7 [0] 0 (.vec 1 2) (fun _ => [1]) ∧ ∀ k ∈ s.active s.here 7, s.readSpecial k 1 = some 0) ∧
    s.Ready 7 [1] 0 (.vec 1 2) (fun _ => [0x0E]) ∧
    (s.Reads 7 [0, 5] 0 (fun _ => [1, 4]) ∧ (4 : Word).toNat % 8 < 5) ∧
    (s.Reads 7 [4, 5] 0 (fun _ => [0x0A, 4]) ∧ s.InYard 7 0 ∧ s.active s.here 7 = [0, 1]) := by decide +kernel

/-- A rig 0 of the yard of the test states, and chunks in its pool. -/
def rigged (s : State) : State :=
  (s.setRig 0 { Rig.init with st := some .sealed, count := 1, members := [(0, 0)], stripes := [(0, 0)], context := 0, given := 1 }).modYard 0 fun y =>
    { y with rig := some (0, 0), stripe := some 0 }

theorem witness_PoolRegistersAndSpills :
    let s := lab [3, 0, 1] []
    let r := rigged (lab [0x105, 7] [0, 0])
    (r.Ready 7 [0, 1] 0 (.uni 1 0) (fun _ => [0x105, 7]) ∧ r.InYard 7 0 ∧ 0x105 / 2 ^ 9 = 0 ∧ 0x105 / 2 ^ 6 % 4 = 0 ∧
      (r.uhome 0 (192 + 0x105 % 64)).isSome) ∧
    (s.Reads 7 [0] 0 (fun _ => [3]) ∧ s.InYard 7 0 ∧ s.yardScoped 1 = true ∧ 3 + (s.residentYards (yardPart 0)).length ≤ 24 ∧
      (s.yard 0).chunks < 3 ∧ (s.part (yardPart 0)).hoistq = [] ∧ 3 - (s.yard 0).chunks ≤ s.poolFree (yardPart 0)) ∧
    (s.Reads 7 [1] 0 (fun _ => [0]) ∧ 0 ≤ (s.yard 0).chunks) := by decide +kernel

/-- The yard may spill to the page that virtual page 5 names. -/
def spilling : State :=
  (lab [0x5000, 0, 7, 1] []).modYard 0 fun y => { y with splbase := 0x5000, spllim := 0x6000 }

def spillJob (fill : Bool) : Job :=
  { pc := spilling.here.pc, w := spilling.here.w, yard := 0, fill := fill, lanes := [0], addr := 0x5000, desc := 1, gran := false }

theorem witness_PoolRegistersAndSpills_bursts :
    let s := spilling
    let b := (spillJob false).lanes.foldl (fun s k => s.writeBack k) s
    s.Reads 7 (addrCodes (oM 3 0 28) ++ [3]) 0 (fun _ => [0x5000, 0, 0, 1]) ∧ s.InYard 7 0 ∧ s.active s.here 7 = [0] ∧
    (s.yard 0).burst = none ∧ eaOf [0x5000, 0, 0, 1] 1 = 0x5000 ∧ val [0x5000, 0, 0, 1] 3 = 1 ∧
    s.spillTrap (.spillv (oM 3 0 28)) (spillJob false) = none ∧ s.spillTags (spillJob false) = [] ∧
    (∀ k ∈ yardLanes 0, ∀ i < (spillJob false).count, b.mem.poison.contains (regKey k ((spillJob false).first + i)) = false) ∧
    (b.runBurst (spillJob false) 0 0 (spillJob false).total).2 = .done ∧
    s.spillTrap (.fillv (oM 3 0 28)) (spillJob true) = none ∧
    (s.runBurst (spillJob true) 0 0 (spillJob true).total).2 = .done := by decide +kernel

theorem witness_TransfersAndBranches :
    let s := lab [1, 0x0002, 3] []
    (s.here.pc + 1).toNat % 8192 ≤ Config.lastPacket ∧
    (s.Reads 7 [0] 0 (one fun _ => 1) ∧ (1 : Word).toNat ≤ Config.lastPacket) ∧
    (s.Reads 7 [31] 5460 (one fun _ => 5460) ∧ (5460 : Word).toNat < 2 ^ 16 ∧ (5460 : Word).toNat % 8192 ≤ Config.lastPacket ∧
      s.segReady s.here.core ((5460 : Word).setWidth 16) = true) ∧
    (∀ k ∈ s.active s.here 7, (s.thread k).view.ra.toNat % 8192 ≤ Config.lastPacket ∧
      s.segReady s.here.core (s.thread k).view.ra = true) ∧
    (((s.here.pc.toNat % 8192 : Nat) : Int) + (5460 : BitVec 19).toInt = (5460 : Nat) ∧ 5460 ≤ Config.lastPacket) := by decide +kernel

/-- A BWAY of one pair whose target is the last packet of the segment. -/
theorem witness_TransfersAndBranches_bway :
    let o : BwayOp := { s := 0, np := 1, neg := 0, g0 := 7, t0 := 5460, g1 := 0, t1 := 0, g2 := 0, t2 := 0, g3 := 0, t3 := 0, rsv2 := 0 }
    ∀ p ∈ o.pairs.take o.np.toNat, (BitVec.ofNat 13 p.2.2).toNat ≤ Config.lastPacket := by decide +kernel

theorem witness_ExitsRigsAndSegments :
    let s := lab [0, 1, 0x30, 0] [0, 0]
    (s.here.left = 0 ∧ (s.modGroup 0 fun g => { g with left := 1 }).here.left ≠ 0) ∧
    (s.Ready 7 [31] 7 (.vec 1 3) (one fun _ => 7) ∧ (7 : Word).toNat < 8) ∧
    (s.Ready 7 [2] 0 (.uni 2 0) (fun _ => [0x30]) ∧ s.InYard 7 0 ∧ s.yardScoped 1 = true ∧ 0x30 ≤ 48 ∧
      s.freeRig (clusterOf (yardCore 0)) = some 0) := by decide +kernel

/-- The yard of the test state holds the handle of the declared rig 0 in v0 and v1. -/
def declared : State :=
  let s := (lab [0, 0, 0] [0]).setRig 0 { Rig.init with st := some .declared, reuse := 1, count := 2, context := 0 }
  let h := s.rigHandle 0
  s.modThread 0 fun t => { t with vs := [
    { reg := 0, val := DWord.lo h, wr := false, sb := 0, sbw := false }, { reg := 1, val := DWord.hi h, wr := false, sb := 0, sbw := false }] }

theorem witness_ExitsRigsAndSegments_rigs :
    let s := declared
    let j := s.addMember 0 0 0
    let h := s.rigHandle 0
    (s.Ready 7 [0, 1] 0 (.uni 1 0) (fun _ => [DWord.lo h, DWord.hi h]) ∧ s.InYard 7 0 ∧ s.yardScoped 1 = true ∧
      s.handleRig 0 (dw (DWord.lo h) (DWord.hi h)) = some 0 ∧ (s.yard 0).rig = none ∧ (s.yard 0).stripe = none ∧
      (s.rig 0).st ≠ some .sealed ∧ (s.allocCleat 0 (yardCore 0)).isSome = true) ∧
    (j.Reads 7 [0, 1] 0 (fun _ => [DWord.lo h, DWord.hi h]) ∧ j.InYard 7 0 ∧ j.handleRig 0 (dw (DWord.lo h) (DWord.hi h)) = some 0 ∧
      (j.yard 0).rig = some (0, 0) ∧ ∀ k ∈ j.liveLanes 0, (j.thread k).st = .streaming) := by decide +kernel

/-- The rig of the yard has a cleat on its core. -/
def cleated (vs us : List Word) : State :=
  ((rigged (lab vs us)).modRig 0 fun r => { r with cleat := [(0, 0)] }).modCleat (0, 0) fun c => { c with rig := some 0 }

theorem witness_CleatWords :
    let s := cleated [1, 2, 3, 0] [4, 5, 6, 7, 8, 9, 10, 11]
    (s.here.lanes = [0] ∧ (s.yard (yardOf 0)).rig = some (0, 0) ∧ Map.find? (s.rig 0).cleat (yardCore (yardOf 0) % 4) = some 0 ∧
      (∀ d ∈ s.rigCleats 0, (s.cleat d).opened = false) ∧ (s.thread 0).tags = [] ∧ (s.thread 0).guard 7 = true) ∧
    s.Reads 7 (codesFrom 20 4 ++ codesFrom 24 4) 0 (fun _ => [4, 5, 6, 7, 8, 9, 10, 11]) ∧ s.Reads 7 [31] 1 (fun _ => [1]) ∧
    s.Ready 7 (addrCodes (oM 3 0 28)) 0 (.vec 1 3) (fun _ => [1, 2, 0]) ∧ s.Ready 7 [20] 0 (.vec 1 3) (fun _ => [4]) := by
  decide +kernel

/-- A future 0 whose handle v0 holds, pending or resolved. -/
def awaiting (res : Option (Nat × Nat)) : State :=
  ((lab [0x0C000000, 0] []).newFuture 0 0 2 1 res).modThread 0 fun t => { t with tags := [(0, 0)] }

theorem witness_Futures :
    let s := awaiting none
    let r := awaiting (some (1, 9))
    let t := [0].foldl (fun u k => u.joinCodes k [0, 28]) r
    let h := (t.thread 0).vs.map fun v => v.val
    (r.Sole 7 0 ∧ r.pending 0 0 = false ∧ t.Ready 7 [0, 28] 0 (.vec 1 1) (fun _ => [val h 0, 0]) ∧ val h 0 ≠ 0x0C000000) ∧
    (s.Sole 7 0 ∧ s.Writes 7 (.pred 1) ∧ s.readRaw 0 0 0 = .ok 0x0C000000 ∧ (s.thread 0).tagOf 0 = some 0 ∧
      s.pending (coreOf 0) 0 = true ∧ s.Writes 7 (.vec 1 1)) ∧
    (let d := lab [1, 2] []
     d.readRaw 0 0 1 = .ok 2 ∧ (d.thread 0).tagOf 1 = none ∧ d.Ready 7 [0, 28] 0 (.vec 1 1) (fun _ => [1, 0])) := by decide +kernel

/-- The domain of one yard. -/
def yardDom : Nat → Dom := fun k => { n := 64, yard := yardOf k, rig := none }

theorem witness_Shuffles :
    let s := labs 3 [1, 2, 0, 0] []
    (setKind (s.groupVersion s.here.lanes) 0 ≠ .rig ∧ ∀ k ∈ s.active s.here 7, yardDom k = { n := 64, yard := yardOf k, rig := none }) ∧
    s.DataAgree (oA 2 0 1) yardDom (fun _ => 0) ∧ s.Ready 7 [1] 0 (.vec 1 2) (one fun _ => 2) ∧
    (∀ j ∈ s.active s.here 7, ∀ k ∈ s.active s.here 7, yardDom j = yardDom k → (fun _ : Nat => (2 : Word)) j = (fun _ => 2) k) := by
  decide +kernel

/-- At RIG scope, for a rig of one yard whose threads all stand in the group. -/
theorem witness_Shuffles_rig :
    let s := rigged (labs 2 [1, 2, 0, 0] [])
    setKind (s.groupVersion s.here.lanes) 2 = .rig ∧ (∀ k ∈ s.active s.here 7, (s.thread k).given = none ∧
      (s.yard (yardOf k)).rig = some (0, 0) ∧ s.releasedMates 0 (s.thread k).released s.here.lanes = []) := by decide +kernel

theorem witness_VotesAndReductions :
    let s := labs 3 [1, 2, 0, 0] []
    s.Writes 7 (.pred 2) ∧ s.Ready 7 [28] 0 (.vec 2 2) (one fun _ => 0) ∧ s.DataAgree (oA 2 0 28) yardDom (fun _ => 0) ∧
    s.Writes 7 (.vec 2 2) ∧ s.Writes 7 (.vec 1 2) ∧ s.here.lanes.Nodup ∧
    (redIsFp .addF32 = true ∧ ∀ j ∈ s.active s.here 7, ∀ k ∈ s.active s.here 7, (s.peek j).rm = (s.peek k).rm) := by decide +kernel

/-! ### The hypotheses of the statements about memory, engine and system words -/

/-- The conditions of an access to on-chip storage, together. -/
theorem chipReady_of {s : State} {k : Nat} {a : DWord} {size kind : Nat}
    (h : isGlobal a = false ∧ s.chipForm a size kind = true ∧ a.toNat % size = 0 ∧ spaceOf a ≠ 6 ∧
      (s.core (targetCore a)).ctx = some (s.ctxOf k) ∧
      s.overlap (targetCore a) (spaceOf a) (offsetOf a) (offsetOf a + size) = none ∧
      s.matrixBusy (targetCore a) (spaceOf a) (offsetOf a) = false ∧
      ∀ i < size / 4, s.mem.poison.contains (a.toNat + 4 * i) = false) : s.ChipReady k a size kind :=
  ⟨h.1, h.2.1, h.2.2.1, h.2.2.2.1, h.2.2.2.2.1, h.2.2.2.2.2.1, h.2.2.2.2.2.2.1, h.2.2.2.2.2.2.2⟩

/-- Thread 0 points to its scratchpad with v0 and v1, and to page 0x20 with v4 and v5. -/
def pointing : State := lab [0x100, 0x10000000, 7, 8, 0x5040, 0, 9, 10, 11, 12] [0x100, 0x10000000]

/-- The last doubleword of the scratchpad. -/
theorem witness_OnChipAccesses :
    pointing.Ready 7 (addrCodes (oM 2 0 31 1)) 0xFFEF8 (.vec 2 2) (fun _ => [0x100, 0x10000000, 0xFFEF8]) ∧
    pointing.ChipReady 0 (eaOf [0x100, 0x10000000, 0xFFEF8] 1) 8 0 ∧
    (pointing.Ready 7 (addrCodes (oM 2 0 31 0)) 3 (.vec 1 2) (fun _ => [0x100, 0x10000000, 3]) ∧
      pointing.ChipReady 0 (eaOf [0x100, 0x10000000, 3] 4) 4 0) ∧
    (pointing.InYard 7 0 ∧ pointing.Ready 7 (addrCodes (oM 0 20 28 0)) 0 (.uni 1 0) (fun _ => [0x100, 0x10000000, 0]) ∧
      (pointing.active pointing.here 7).headD 0 = 0 ∧ pointing.ChipReady 0 (eaOf [0x100, 0x10000000, 0] 1) 4 0) ∧
    (pointing.Sole 7 0 ∧ pointing.Reads 7 (addrCodes (oM 2 0 28 1) ++ codesFrom 2 2) 0 (fun _ => [0x100, 0x10000000, 0, 7, 8]) ∧
      pointing.ChipReady 0 (eaOf [0x100, 0x10000000, 0] 1) 8 1) ∧
    pointing.Reads 7 (addrCodes (oM 0 20 28 0) ++ codesFrom (20 + 0) 1) 0 (fun _ => [0x100, 0x10000000, 0, 0x100]) :=
  ⟨by decide +kernel, chipReady_of (by decide +kernel), ⟨by decide +kernel, chipReady_of (by decide +kernel)⟩,
   ⟨by decide +kernel, by decide +kernel, by decide +kernel, chipReady_of (by decide +kernel)⟩,
   ⟨by decide +kernel, by decide +kernel, chipReady_of (by decide +kernel)⟩, by decide +kernel⟩

/-- A default load of a line that no cache holds, and a store whose line is not poisoned; no line of the state is. -/
theorem witness_GlobalLoadsAndStores :
    let s := pointing
    let t := (s.reach (some 0) 0 0x5040 0).1
    let u := (s.reach (some 0) 0 0x5040 1).1
    (s.Sole 7 0 ∧ s.Ready 7 (addrCodes (oM 2 4 28)) 0 (.vec 1 2) (fun _ => [0x5040, 0, 0]) ∧ isGlobal 0x5040 = true ∧
      (s.reach (some 0) 0 0x5040 0).2 = .at 0x20040 false ∧ t.atHome 0 0 0x20040 = true ∧ (t.dirAccess 0x20040 false false).2 = true ∧
      (t.dirAccess 0x20040 false false).1.poisoned 0x20040 = false) ∧
    (s.Reads 7 (addrCodes (oM 2 4 28) ++ codesFrom 2 1) 0 (fun _ => [0x5040, 0, 0, 7]) ∧ s.mem.poison = [] ∧
      (s.reach (some 0) 0 0x5040 1).2 = .at 0x20040 false ∧ u.poisonedLine 0x20040 = false ∧
      (u.dirAccess 0x20040 true false).2 = true ∧ (u.dirAccess 0x20040 true false).1.poisonedLine 0x20040 = false) := by
  decide +kernel

theorem witness_GranuleAccesses :
    pointing.Ready 7 (addrCodes (oM 2 0 28 3)) 0 (.vec 1 2) (fun _ => [0x100, 0x10000000, 0]) ∧
    pointing.ChipReady 0 (eaOf [0x100, 0x10000000, 0] 1) 64 0 ∧
    pointing.Reads 7 (addrCodes (oM 2 0 28 3) ++ [2]) 0 (fun _ => [0x100, 0x10000000, 0, 7]) ∧
    pointing.ChipReady 0 (eaOf [0x100, 0x10000000, 0] 64) 64 1 :=
  ⟨by decide +kernel, chipReady_of (by decide +kernel), by decide +kernel, chipReady_of (by decide +kernel)⟩

/-- A compare and exchange of one word, and an addition of two that is a release. -/
theorem witness_Atomics :
    pointing.Ready 7 (addrCodes (oM 2 0 28 0) ++ codesFrom 2 (atomWords .cas 1)) 0 (.vec 1 2) (fun _ => [0x100, 0x10000000, 0, 7, 8]) ∧
    pointing.ChipReady 0 (eaOf [0x100, 0x10000000, 0] 1) 4 2 ∧
    (pointing.Ready 7 (addrCodes (oM 2 0 28 3) ++ codesFrom 2 (atomWords .add 2)) 0 (.vec 2 2) (fun _ => [0x100, 0x10000000, 0, 7, 8]) ∧
      pointing.drain 0 = (pointing, true)) ∧ pointing.ChipReady 0 (eaOf [0x100, 0x10000000, 0] 1) 8 2 :=
  ⟨by decide +kernel, chipReady_of (by decide +kernel), by decide +kernel, chipReady_of (by decide +kernel)⟩

theorem witness_OrderingAndPrefetch :
    let s := pointing
    s.active s.here 7 ≠ [] ∧ (s.drainAll (s.active s.here 7)).2 = true ∧ s.Sole 7 0 ∧
    s.Reads 7 (addrCodes (oM 16 4 28)) 0 (fun _ => [0x5040, 0, 0]) ∧ isGlobal (eaOf [0x5040, 0, 0] 1) = true := by decide +kernel

/-- A link to a host is up. -/
def linked (s : State) : State := s.setPort 0 { s.port 0 with linkup := true }

theorem witness_CoherenceWords :
    let s := pointing
    let t := (s.reach (some 0) 0 0x5040 0).1
    s.Sole 7 0 ∧ s.Reads 7 (addrCodes (oM 16 4 28)) 0 (fun _ => [0x5040, 0, 0]) ∧ isGlobal (eaOf [0x5040, 0, 0] 1) = true ∧
    (s.reach (some 0) 0 0x5040 0).2 = .at 0x20040 false ∧ ∀ all ∈ [true, false],
      let p := t.drainPend fun p => (p.thread == 0 || (all && p.core == 0)) && lineAddr p.word == lineAddr 0x20040
      p.2 = true ∧ p.1.inMove 0x20040 = false := by decide +kernel

/-- A hand-over of 128 bytes begins, with no link up and with one; and one has ended. -/
theorem witness_CoherenceWords_handoff :
    let s := pointing
    let t := (s.drainAll [0]).1
    let p := t.pagesOf 0 0x5040 0 1
    let e := s.setLong { yard := 0, pc := s.here.pc, w := s.here.w, done := 0, status := some 2 }
    (s.InYard 7 0 ∧ s.Ready 7 (addrCodes (oM 2 4 31)) 128 (.vec 1 2) (fun _ => [0x5040, 0, 128]) ∧ val2 [0x5040, 0, 128] 0 = 0x5040 ∧
      isGlobal 0x5040 = true ∧ (0x5040 : DWord).toNat % 64 = 0 ∧ s.long 0 s.here.pc s.here.w = none ∧
      (s.drainAll (s.active s.here 7)).2 = true ∧ t.mem.ho.busy = false ∧
      (0x5040 % 4096 + 128 + 4095) / 4096 = 1 ∧ p.2 = .inl [(0x20040, false)] ∧ p.1.hostLinkUp = false) ∧
    (let u := linked s
     (u.drainAll (u.active u.here 7)).2 = true ∧ ((u.drainAll [0]).1.pagesOf 0 0x5040 0 1).2 = .inl [(0x20040, false)] ∧
     ((u.drainAll [0]).1.pagesOf 0 0x5040 0 1).1.hostLinkUp = true) ∧
    (e.InYard 7 0 ∧ e.Ready 7 (addrCodes (oM 2 4 31)) 128 (.vec 1 2) (fun _ => [0x5040, 0, 128]) ∧
      (e.long 0 e.here.pc e.here.w).elim false (fun x => x.status == some 2) = true) := by decide +kernel

/-- A TLB entry maps the first 2 MiB to device memory as they stand. -/
def mapped (s : State) : State :=
  let e : TlbEntry := { leafOf 0 (s.ctx 0) 0 2 0xD7 with place := 0 }
  s.setMem { s.mem with tlb := [e] }

/-- TLB entries map 16 pages from page 32 on to device pages in falling order. -/
def scattered (s : State) : State :=
  s.setMem { s.mem with
    tlb := (List.range 16).map fun i => leafOf 0 (s.ctx 0) (32 + i) 0 ((47 - i) * 2 ^ 10 + 0xD7) }

/-- A region that its pages form, and one that they do not. -/
theorem witness_CoherenceWords_region :
    let s := mapped (lab [0x20000, 0, 0x101, 0] [])
    let p := s.regionAt 0 0 0x20000
    (s.InYard 7 0 ∧ s.Ready 7 (codesFrom 0 2 ++ [2]) 0 (.vec 1 3) (fun _ => [0x20000, 0, 0x101]) ∧ bitsOf 0x101 7 1 = 0 ∧
      bitsOf 0x101 31 8 = 1 ∧ isGlobal 0x20000 = true ∧ s.long 0 s.here.pc s.here.w = none ∧ p.2 = .inl (some 2) ∧
      (p.1.setRegion 0 2 true).2 = true ∧ (p.1.core 0).preempt = false) ∧
    ((scattered (lab [0x20000, 0, 0x101, 0] [])).regionAt 0 0 0x20000).2 = .inl none := by decide +kernel

theorem witness_TranslationWords :
    let s := lab [0x20000, 0, 0xFF1F, 0x0A, 0, 1] []
    s.InYard 7 0 ∧
    (s.Reads 7 [2] 0 (fun _ => [0xFF1F]) ∧ s.Reads 7 (codesFrom 0 2) 0 (fun _ => [0x20000, 0]) ∧ bitsOf 0xFF1F 7 5 = 0 ∧
      bitOf 0xFF1F 4 = true ∧ bitsOf 0xFF1F 31 8 ≠ 0 ∧ isGlobal (dw 0x20000 0) = true ∧ (dw 0x20000 0).toNat % 65536 = 0) ∧
    (s.Reads 7 [3] 0 (fun _ => [0x0A]) ∧ bitsOf 0x0A 7 5 = 0 ∧ bitOf 0x0A 4 = false) ∧
    s.Reads 7 [4] 0 (fun _ => [0]) ∧ s.Reads 7 [5] 0 (fun _ => [1]) ∧ (s.drainAll (s.active s.here 7)).2 = true := by decide +kernel

/-- What a probe can meet: a page that is mapped, one that is not there, and one outside device memory's ownership. -/
theorem witness_TranslationWords_probe :
    let s := lab [0x5040, 0, 1, 0x4000, 0, 0] []
    (s.Sole 7 0 ∧ s.Ready 7 (codesFrom 0 2 ++ [2]) 0 (.vec 1 5) (fun _ => [0x5040, 0, 1]) ∧
      (match (s.translate 0 0 5 1).2 with | .ok e hit => e.ppn == 0x20 && !hit | _ => false) = true) ∧
    (s.Ready 7 (codesFrom 3 2 ++ [2]) 0 (.vec 1 5) (fun _ => [0x4000, 0, 1]) ∧ (s.translate 0 0 4 1).2 = .refuse 0 none) ∧
    (match ((s.setPot 0x20 Pot.init).translate 0 0 5 1).2 with | .cause n e => n == 0x0B && e.isSome | _ => false) = true := by
  decide +kernel

theorem witness_TranslationWords_ownership :
    let s := lab [0x5000, 0, 1, 0, 0] []
    let t := (s.reach (some 0) 0 0x5000 1).1
    let u := (t.drainAll [0]).1
    (s.InYard 7 0 ∧ s.Ready 7 (codesFrom 0 2 ++ [2]) 0 (.vec 1 4) (fun _ => [0x5000, 0, 1]) ∧
      s.Ready 7 (codesFrom 0 2 ++ [3]) 0 (.vec 1 4) (fun _ => [0x5000, 0, 0]) ∧
      (s.reach (some 0) 0 0x5000 1).2 = .at 0x20000 false ∧ (t.drainAll (s.active s.here 7)).2 = true ∧
      (t.potAt 0x20).sys = false ∧ u.isDev 0x20000 = true ∧ (u.pageReady 0x20 false).2 = true) ∧
    (let s := (lab [0x5000, 0, 1, 0, 0] []).setPot 0x20 { Pot.init with world := 1, bound := true, sys := true }
     (((s.reach (some 0) 0 0x5000 1).1).potAt 0x20).sys = true) := by decide +kernel

/-- Page 0x20 holds the words of a packet. -/
def packeted (words : List (Nat × Word)) (vs us : List Word) : State :=
  let s := lab vs us
  s.setMem { s.mem with bytes := words.foldl (fun m p => Memory.setWord m (0x20000 + p.1) p.2) s.mem.bytes }

/-- What a COPY of the packet in page 0x20 meets: its packet is read, and the copy is refused with a status or starts. -/
def copyMeets (s : State) (st : Option Nat) : Bool :=
  let p := (s.drain 0).1.packetWords 0 0x5000
  match p.2 with
  | .inr _ => false
  | .inl ws =>
    let v := p.1.newFuture 0 0 2 1 none
    let x := copyOf ws p.1.serialNo 0 0 0 (p.1.thread 0).acq (some (0, 0))
    decide (s.Sole 7 0) && decide (s.Ready 7 (addrCodes (oM 2 0 28)) 0 (.vec 1 2) (fun _ => [0x5000, 0, 0])) &&
      (s.locate 0 0x5000 64 0).2 == .at (.mem 0x20000 false) && (s.drain 0).2 && p.1.freeSlot 0 == .inl 0 &&
      v.copyRefused x ws == st && v.rangesFree x && decide (v.inflight 0 < 64)

/-- A copy of one row of 64 bytes from 0x6000 to 0x7000; and a packet of another kind. -/
theorem witness_CopiesAndSegmentFetches :
    copyMeets (packeted [(4, 1), (16, 0x6000), (24, 0x7000), (32, 64), (36, 1)] [0x5000, 0, 0] []) none = true ∧
    copyMeets (packeted [(4, 0), (16, 0x6000), (24, 0x7000), (32, 64), (36, 1)] [0x5000, 0, 0] []) (some 9) = true := by decide +kernel

/-- Segment 7 is to take its largest overlay. -/
theorem witness_CopiesAndSegmentFetches_segments :
    let b := 5461 * 2 ^ 16 + 7
    let s := lab [0x5000, 0, BitVec.ofNat 32 b, 0] []
    s.Sole 7 0 ∧ s.Ready 7 (codesFrom 0 2 ++ [2]) 0 (.vec 1 3) (fun _ => [0x5000, 0, BitVec.ofNat 32 b]) ∧ bitsOf b 2 0 = 7 ∧
    bitsOf b 28 16 = 5461 ∧ bitsOf b 15 3 = 0 ∧ bitsOf b 31 29 = 0 ∧ (s.seg 0 7).slot = none ∧ (s.seg 0 7).st ≠ 2 ∧
    (s.drainAll [0]).2 = true ∧ (s.drainAll [0]).1.freeSlot 0 = .inl 0 ∧
    (∀ x ∈ (s.drainAll [0]).1.eng.copies, x.seg ≠ some (0, 7)) ∧ (s.drainAll [0]).1.inflight 0 < 64 := by decide +kernel

/-- A queue in page 0x20 with WIDX 3, RIDX 3 and a ring of 2 slots at 0x6000. -/
theorem witness_QueueWords :
    let s := packeted [(0, 3), (4, 3), (8, 0x6000), (16, 1)] [0x5000, 0, 0, 0] []
    let t := (s.locate 0 0x5000 8 2).1
    s.Sole 7 0 ∧ s.Ready 7 (addrCodes (oM 2 0 28 1)) 0 (.vec 2 2) (fun _ => [0x5000, 0, 0]) ∧
    (s.locate 0 0x5000 8 2).2 = .at (.mem 0x20000 false) ∧ (∀ i ∈ [8, 12, 16], t.poisoned (lineAddr 0x20000 + i) = false) ∧
    (t.atomPlace 0 0x5000 2 (.mem 0x20000 false) (fun old => [val old 0 + 1, val old 1])).2 = .inl [3, 3] := by decide +kernel

theorem witness_QueueWords_put :
    let s0 := packeted [(0, 3), (4, 3), (8, 0x6000), (16, 1)] [0x5000, 0, 0, 1, 0, 0] []
    let s := (List.range 4).foldl (fun u k => u.setThread k (s0.thread 0)) s0
    let s := s.modGroup 0 fun g => { g with lanes := [0, 1, 2, 3] }
    let c := s.claim 0 0x5000
    s.active s.here 7 = [0, 1, 2, 3] ∧ s.Reads 7 (addrCodes (oM 2 0 28 2) ++ codesFrom 2 4) 0 (fun _ => [0x5000, 0, 0, 0, 1, 0, 0]) ∧
    (∀ k ∈ [0, 1, 2, 3], (s.thread k).keptIndex s.here.pc s.here.w = none) ∧
    (match c.2 with
      | .inl c' => c'.got && decide ((c.1.putPacket 0 c' (quartetPacket ([0, 1, 2, 3].map fun k => (k, [0x5000, 0, 0, 0, 1, 0, 0]))
          (c.1.thread 0).rm)).2 = none)
      | .inr _ => false) = true := by decide +kernel

/-- A launch packet, and one that is not. -/
theorem witness_TaskWords :
    let s := packeted [(4, 2), (32, 1), (36, 1)] [0x5000, 0, 65535, 0, 0, 0] []
    let t := (s.drainAll [0]).1
    let p := t.packetWords 0 0x5000
    s.Sole 7 0 ∧ s.Ready 7 (codesFrom 0 2 ++ [2]) 0 (.vec 2 4) (fun _ => [0x5000, 0, 65535]) ∧ s.freeTask = some 0 ∧
    (s.drainAll [0]).2 = true ∧ p.1.freeSlot 0 = .inl 0 ∧
    (match p.2 with | .inl ws => launchOk ws && kindOf ws == 2 | .inr _ => false) = true := by decide +kernel

/-- Task 0 of the context waits with a count of 3. -/
def tasked (n : Nat) : State :=
  let s := (lab [0, BitVec.ofNat 32 n, 0] []).setTask 0 { (lab [] []).task 0 with st := some .waiting, gen := 1, count := 3, ctx := 0 }
  let id := taskId 0 (s.task 0)
  s.modThread 0 fun t => { t with vs := t.vs.modify 0 fun v => { v with val := id } }

theorem witness_TaskWords_counts :
    let id := taskId 0 ((tasked 2).task 0)
    ((tasked 2).Sole 7 0 ∧ (tasked 2).Ready 7 [0, 1] 0 (.vec 1 2) (fun _ => [id, 2]) ∧ (tasked 2).taskOf 0 id = some 0 ∧
      ((tasked 2).task 0).st = some .waiting ∧ (2 : Word).toNat < ((tasked 2).task 0).count) ∧
    ((tasked 2).drain 0 = (tasked 2, true)) ∧ ((tasked 3).Reads 7 [0, 1] 0 (fun _ => [id, 3]) ∧ (tasked 3).drain 0 = (tasked 3, true) ∧
      ((tasked 3).task 0).count ≤ (3 : Word).toNat) ∧
    (let s := (tasked 2).setTask 0 { (tasked 2).task 0 with st := some .ready }
     s.taskOf 0 id = some 0 ∧ (s.task 0).st ≠ some .waiting) ∧
    ((lab [32, 0, 0] []).Ready 7 [0, 31] 0x0504 (.vec 1 2) (fun _ => [32, 0x0504]) ∧ swzOk 0x0504 = true) := by decide +kernel

theorem witness_SystemCalls :
    let s := lab [0x5000, 0, 1, 0] []
    s.Sole 7 0 ∧ s.Ready 7 (codesFrom 0 2 ++ [2]) 0 (.vec 1 3) (fun _ => [0x5000, 0, 1]) ∧ isGlobal 0x5000 = true ∧
    (s.ctx (s.ctxOf 0)).sysGrant = true ∧ (s.drain 0).2 = true ∧ (s.drain 0).1.freeSlot 0 = .inl 0 ∧
    ((s.drain 0).1.core 0).ringSlot = some 0 := by decide +kernel

/-- FENCEC at each scope; at RIG scope by the first issue group of a rendezvous, and by a later one. -/
theorem witness_SystemCalls_fences :
    let s := lab [] []
    let r := s.modThread 0 fun t => { t with released := some 9 }
    let v := s.groupVersion s.here.lanes
    setKind v 0 = .lane ∧ setKind v 1 = .yard ∧ setKind v 2 = .rig ∧ s.InYard 7 0 ∧
    (r.InYard 7 0 ∧ (r.thread ((r.active r.here 7).headD 0)).released = some 9 ∧ r.fab.fenced.contains 9 = false ∧
      ({ r with fab := { r.fab with fenced := [9] } } : State).fab.fenced.contains 9 = true) := by decide +kernel

theorem witness_TrapWords :
    let s := labs 2 [5] []
    let h := (lab [] []).modThread 0 fun t => { t with trec := { t.trec with intrap := true, epc := 0, widx := 0 } }
    (s.Reads 7 [0] 0 (fun _ => [5]) ∧ (s.ctx (s.ctxOf 0)).dbg.attach = false) ∧
    ((lab [7] []).Sole 7 0 ∧ (lab [7] []).Reads 7 [31] 7 (fun _ => [7])) ∧
    (h.Sole 7 0 ∧ (h.thread 0).trec.intrap = true ∧ h.retCheck (coreOf 0) (h.thread 0).trec = none ∧ h.here.left = 0 ∧
      (h.modGroup 0 fun g => { g with left := 1 }).here.left ≠ 0) := by decide +kernel

theorem witness_AccumulatorsAndSpans :
    let s := labs 2 [0xFFFF, 3, 0] []
    (∀ k ∈ s.active s.here 7, (0xFFFF : Word).toNat < 2 ^ 16 ∧ s.matrixBusy (coreOf k) 3 (4 * 0xFFFF) = false) ∧
    s.Ready 7 [0] 0 (.vec 1 2) (fun _ => [0xFFFF]) ∧ s.Reads 7 [0, 1] 0 (fun _ => [0xFFFF, 3]) ∧
    (∀ k ∈ s.active s.here 7, s.mem.poison.contains (chipKey 3 (coreOf k) (4 * 0xFFFF)) = false) := by decide +kernel

/-- A write of an accumulator word leaves registers and threads, in every lane. -/
theorem witness_AccumulatorsAndSpans_write (t : State) (k : Nat) (h : k < 2 ^ 13) :
    (State.setChipWord t (chipKey 3 (coreOf k) (4 * 0xFFFF)) 3).fab = t.fab := by
  have : coreOf k = 0 := by unfold coreOf; omega
  rw [this]
  rfl

theorem witness_AccumulatorsAndSpans_spans :
    let s := cleated [0, 0, 0] []
    let q := fun n : Word => (lab [n, 0] []).Ready 7 [0] 0 (.vec 1 1) (fun _ => [n])
    s.InYard 7 0 ∧ s.Ready 7 [0, 1] 0 (.vec 1 2) (fun _ => [0, 0]) ∧ s.cleatOf 0 = some 0 ∧ bitsOf 0 31 26 = 0 ∧ fwOk 0 = true ∧
    (fmtA 0 = 6 → bitsOf 0 15 8 < 128) ∧ (s.core (yardCore 0)).mreleased = [] ∧ q 0 ∧ q 1 ∧ q 2 ∧ q 3 := by decide +kernel

/-! ### Blocks, work queues -/

/-- Operands of MSPAN in v0 and v1, with the binding set of cleat 0 holding an A tile at scratchpad offset 64. -/
def spanning (d fw : Word) : State :=
  (cleated [d, fw, 0] []).modCleat (0, 0) fun c => { c with binds := [64, 0x10000000, 64] ++ List.replicate 13 0 }

/-- A tile that is refused; INT8 codes; and a tile that is walked. -/
theorem witness_AccumulatorsAndSpans_answers :
    let meets := fun (s : State) (fw : Word) =>
      s.InYard 7 0 ∧ s.Ready 7 [0, 1] 0 (.vec 1 2) (fun _ => [0, fw]) ∧ s.cleatOf 0 = some 0 ∧ fwOk fw = true ∧ fmtA fw ≠ 6 ∧
      (s.core (yardCore 0)).mreleased = []
    let x := fun (s : State) (fw : Word) => mmaArgs (s.cleat (0, 0)).binds fw 0 0 1 1
    (meets (cleated [0, 0, 0] []) 0 ∧ (x (cleated [0, 0, 0] []) 0).tile.refused 0 0 1 ≠ none) ∧
    (meets (spanning 0 0x2D) 0x2D ∧ (x (spanning 0 0x2D) 0x2D).tile.refused 5 0 1 = none ∧ (x (spanning 0 0x2D) 0x2D).fa = 5) ∧
    (let s := spanning 0 0
     meets s 0 ∧ (x s 0).tile.refused 0 0 1 = none ∧ (x s 0).fa ≠ 5 ∧ s.matrixBusy 0 4 0 = false ∧
     (∀ e ∈ (x s 0).reads 0, s.overlap 0 e.2.1 e.2.2.1 e.2.2.2 = none) ∧ s.badExtent ((x s 0).reads 0) = false) := by
  decide +kernel

/-- Pool 3 of the context: eight descriptors at 0x5000, sequences at 0x5100, the bitmap at 0x5400 and one slab at 0x6000.
`ws` lists words of page 0x20. -/
def pooled (ws : List (Nat × Word)) (vs : List Word) : State :=
  (packeted ws vs []).setPool 3 { Pool.init with
    att := true, btab := 0x5000, stab := 0x5100, map := 0x5400, nblk := 8, logbp := 2, nseq := 1, slabs := [(0x6000, 1), (0, 0)] }

/-- The outcome of reading descriptor 2 of pool 3, and of writing it. -/
def descEvent (s : State) (d : DWord) (new : Option DWord) : Bool :=
  let l := s.locate 0 0x5010 8 2
  match l.2 with
  | .at (.mem 0x20010 false) =>
    match s.atomPlace 0 0x5010 2 (.mem 0x20010 false) (fun old => old) with
    | (u, .inl old) =>
      val2 old 0 == d && decide (u.fab.threads = s.fab.threads) &&
      match new with
      | none => true
      | some n => match u.atomPlace 0 0x5010 2 (.mem 0x20010 false) (fun _ => words2 n) with
        | (v, .inl _) => decide (v.fab.threads = s.fab.threads)
        | _ => false
    | _ => false
  | _ => false

def poolMeets (s : State) (b : Word) : Bool :=
  decide (s.Sole 7 0) && decide (s.Ready 7 [0, 1] 0 (.vec 1 2) (fun _ => [2, b])) && (s.pool 3).att &&
    decide ((s.pool 3).ctx.toNat = s.yardCtx (yardOf 0)) && decide (2 < (s.pool 3).nblk) && (s.pool 3).descAddr 2 == 0x5010

theorem witness_BlockPinsAndAllocation_pins :
    let free := pooled [] [2, 3, 0]
    let held := pooled [(0x10, 0x6201)] [2, 3, 0]
    (poolMeets free 3 ∧ descEvent free 0 none) ∧
    (poolMeets held 3 ∧ descEvent held 0x6201 (some 0x6202) ∧ descPresent 0x6201 = true ∧ descMoving 0x6201 = false ∧
      descPin 0x6201 ≠ 255 ∧ descPin 0x6201 ≠ 0 ∧ (held.drain 0) = (held, true)) := by decide +kernel

/-- KVALLOC with every page of the slab taken, and with the first page free; KVFREE of an unpinned block. -/
theorem witness_BlockPinsAndAllocation_pages :
    let full := pooled ((List.range 16).map fun i => (0x400 + 4 * i, 0xFFFFFFFF)) [2, 3, 0]
    let part := pooled [(0x400, 1)] [2, 3, 0]
    let held := pooled [(0x10, 0x6200), (0x400, 1)] [2, 3, 0]
    let p := part.pool 3
    let found (s : State) (r : Option PageId) : Bool :=
      match s.atomPlace 0 0x5010 2 (.mem 0x20010 false) (fun old => old) with
      | (u, .inl _) => match u.findFree 0 p 0 0 1 with
        | (v, .inl x) => decide (x = r) && decide (v.fab.threads = s.fab.threads)
        | _ => false
      | _ => false
    let marked (s : State) (a : DWord) (f : Word → Word) : Bool :=
      match s.atomAt 0 a 1 (fun old => [f (val old 0)]) with
      | (w, .inl _) => match w.atomPlace 0 0x5010 2 (.mem 0x20010 false) (fun _ => words2 0) with
        | (x, .inl _) => decide (x.fab.threads = s.fab.threads)
        | _ => false
      | _ => false
    (poolMeets full 3 ∧ descEvent full 0 none ∧ found full none) ∧
    (poolMeets part 3 ∧ descEvent part 0 none ∧ found part (some { cls := 0, slab := 0, page := 1 }) ∧
      marked part (p.bitOf { cls := 0, slab := 0, page := 1 }).1 (fun w => putBit w 1 true)) ∧
    (poolMeets held 3 ∧ descEvent held 0x6200 (some 0) ∧ descPin 0x6200 = 0 ∧ p.hasPage (p.pageAt 0 0x6000) = true ∧
      marked held (p.bitOf (p.pageAt 0 0x6000)).1 (fun w => putBit w 0 false)) := by decide +kernel

/-- Sequence 0 has 8 positions and its blocks 2 and 5; sequence 1 does not exist. -/
theorem witness_BlockTranslation :
    let s := pooled [(0x10, 0x6200), (0x100, 0x5200), (0x108, 8), (0x200, 2), (0x204, 5)] [0, 1, 3, 0, 0, 0]
    let p := s.pool 3
    s.Sole 7 0 ∧ s.Ready 7 [0, 2] 0 (.vec 2 4) (fun _ => [0, 3]) ∧ s.Ready 7 [1, 2] 0 (.vec 2 4) (fun _ => [1, 3]) ∧
    (s.thread 0).dstOk (.vec 1 3) = true ∧ (s.thread 0).tags = [] ∧ p.att = true ∧ p.ctx.toNat = s.ctxOf 0 ∧
    (s.kvSpot 0 p 1 3).2 = .oor ∧ (s.kvSpot 0 p 1 3).1.fab = s.fab ∧ (s.kvSpot 0 p 0 3).2 = .at 2 12288 ∧
    isGlobal (p.descAddr 2) = true ∧
    (let r := (s.kvSpot 0 p 0 3).1.locate 0 (p.descAddr 2) 8 0
     r.2 = .at (.mem 0x20010 false) ∧
     (match r.1.atomPlace 0 (p.descAddr 2) 2 (.mem 0x20010 false) (fun old => old) with
      | (v, .inl _) => decide (v.fab = s.fab)
      | _ => false) = true) := by decide +kernel

/-- Queue 5 of the context has a ring of two slots at 0x5100. -/
def wqueued (ws : List (Nat × Word)) (vs : List Word) : State :=
  (packeted ws vs []).setWq 5 { Wq.init with ring := 0x5100, att := true, logd := 1 }

theorem witness_WorkQueues :
    let s := wqueued [(0, 7)] [0x5000, 0, 5, 0]
    let t := (s.drainAll [0]).1
    let u := t.locate 0 0x5000 32 0
    let p : Place := .mem 0x20000 false
    let x := u.1.readPlace 0 0 0x5000 8 p
    s.Sole 7 0 ∧ s.Reads 7 (addrCodes (oM 2 0 2)) 0 (fun _ => [0x5000, 0, 5]) ∧ s.wqCheck (.wqpush (oM 2 0 2)) 0 0x5000 5 = .inl 5 ∧
    (s.drainAll [0]).2 = true ∧ u.2 = .at p ∧ (x.1.wq 5).closed = false ∧ (x.1.wq 5).count < 2 ^ (x.1.wq 5).logd.toNat ∧
    (match x.2 with | .inl ws => val ws 0 != 0 | _ => false) = true ∧
    (let w := x.1.locate 0 ((x.1.wq 5).slotAddr 0) 32 1
     (match w.2 with
     | .at r => match w.1.atomPlace 0 ((x.1.wq 5).slotAddr 0) 8 r (fun _ => [7, 0, 0, 0, 0, 0, 0, 0]) with
       | (_, .inl _) => true
       | _ => false
     | _ => false) = true) ∧
    (s.Ready 7 (addrCodes (oM 3 0 2)) 0 (.vec 1 3) (fun _ => [0x5000, 0, 5]) ∧ s.wqCheck (.wqpull (oM 3 0 2)) 0 0x5000 5 = .inl 5 ∧
      s.freeSlot 0 = .inl 0 ∧
      (let y := t.newFuture 0 0 7 1 none
       let z : Pull := { core := 0, ctx := 0, dst := 0x5000, slot := some 0, item := none, parked := none }
       ((y.setWq 5 { y.wq 5 with pulls := (y.wq 5).pulls ++ [z] }).wqAssign 5).fab.threads = s.fab.threads)) := by
  decide +kernel

theorem witness_WorkQueues_lastarr :
    let s := wqueued [(0, 1)] [0x5000, 0, 0]
    s.Sole 7 0 ∧ s.Ready 7 (addrCodes (oM 1 0 28)) 0 (.pred 1) (fun _ => [0x5000, 0, 0]) ∧
    (s.locate 0 0x5000 4 2).2 = .at (.mem 0x20000 false) ∧ s.drain 0 = (s, true) ∧ eaOf [0x5000, 0, 0] 1 = 0x5000 ∧
    (match s.atomAt 0 0x5000 1 (fun old => [if val old 0 == 0 then 0 else val old 0 - 1]) with
      | (u, .inl old) => val old 0 == 1 && decide (u.fab.threads = s.fab.threads)
      | _ => false) = true := by decide +kernel

/-! ### Events of scheduling -/

/-- Core 0 with nothing streaming, and an eligible entry at 6 before one at 9 of age `a`. -/
def selecting (a : Nat) : State :=
  let s := (lab [] []).setThread 1 { (lab [] []).thread 0 with st := .eligible, pc := 9 }
  (s.modThread 0 fun t => { t with st := .eligible, pc := 6 }).setPart 0 { Part.init with
    entries := [{ addr := 6, wait := [0], age := 0 }, { addr := 9, wait := [1], age := a }] }

theorem witness_SelectionAndDispatch :
    let q := (selecting 0).part 0
    (q.stream = none ∧ (selecting 0).coreRuns 0 = true ∧ (∀ e ∈ q.entries, (selecting 0).entryReady e = true) ∧
      (q.entries.map fun f => f.addr).Nodup ∧ (selecting 0).agedNow q = []) ∧
    ((selecting 16).part 0).stream = none ∧ (selecting 16).agedNow ((selecting 16).part 0) = [9] ∧
    (let s := (lab [] []).setPart 0 { Part.init with unindexed := [3] }
     let t := s.modPart 0 fun q => { q with entries := [{ addr := (s.thread 3).pc, wait := [9], age := 0 }] }
     s.coreRuns 0 = true ∧ (s.part (partKey 0 0)).unindexed = [3] ∧ (s.part 0).entries.length < Config.frontier ∧
     (∀ e ∈ (s.part 0).entries, e.addr ≠ (s.thread 3).pc) ∧ t.coreRuns 0 = true ∧ (t.part 0).unindexed = [3] ∧
     ∃ e ∈ (t.part 0).entries, e.addr = (t.thread 3).pc) ∧
    (let s := (lab [] []).modYard 5 fun v => { v with waiting := true }
     s.nextInit 0 = some 5 ∧ s.pointStable 0 = true ∧ s.poolFree (yardPart 5) ≠ 0 ∧
     (s.part (yardPart 5)).hoistq = [] ∧ s.coreRuns 0 = true) := by decide +kernel

/-- A record for slot 9, of one lane and world 1; the same with a reserved bit; and one of another world. -/
theorem witness_SelectionAndDispatch_bind :
    let s := lab [] []
    let w3 : DWord := 0x8000140000000001
    let bad : DWord := 0x8000140000000081
    let other : DWord := 0x8000240000000001
    let u := s.modYard 9 fun v => { v with bind := { v.bind with valid := true }, waiting := true }
    ((u.yard 9).resident = false ∧ (u.yard 9).bind.valid = true ∧ (u.yard 9).waiting = true ∧
      u.bindRefused 0 (bindOf 0 0 0 w3) = false) ∧
    (s.yard 9).resident = false ∧ (s.yard 9).bind.valid = false ∧ w3.getLsbD 63 = true ∧ bad.getLsbD 63 = true ∧
    other.getLsbD 63 = true ∧ bindReserved 0 w3 = false ∧ s.bindRefused 0 (bindOf 0 0 0 w3) = false ∧ bindReserved 0 bad = true ∧
    bindReserved 0 other = false ∧ s.bindRefused 0 (bindOf 0 0 0 other) = true := by decide +kernel

/-- Both threads of the yard stand at a rendezvous since cycle 1. -/
def meeting : State :=
  [0, 1].foldl (fun s k => s.modThread k fun t => { t with st := .rendezvous 1 }) { labs 2 [] [] with now := Config.timeout + 1 }

theorem witness_WaitsEnd :
    (meeting.thread 0).atRendezvous = true ∧ meeting.complete 0 = true ∧ (meeting.drainAll (meeting.waitersWith 0)).2 = true ∧
    (meeting.thread 0).waitSince.isSome = true ∧ (meeting.ctx (meeting.ctxOf 0)).resident = true ∧ Config.timeout ≤ meeting.now - meeting.waitStart (meeting.waitersWith 0) := by
  decide +kernel

/-- Thread 0 has signed the phase of cleat 0, which needs one signature or two. -/
def signing (expect : Nat) : State :=
  let s := cleated [] []
  let g : Sign := { thread := 0, active := true, pc := 0, w := 0, word := 0, vals := [], fw := 0, rm := 0, dst := none }
  let s1 := s.modCleat (0, 0) fun c => { c with opened := true, expect := expect, signs := [g], first := 0 }
  { s1.modThread 0 (fun t => { t with st := .signed }) with now := Config.timeout }

theorem witness_WaitsEnd_cleats :
    ((signing 1).cleat (0, 0)).rig = some 0 ∧ (signing 1).phaseDone 0 = true ∧ (signing 1).phaseOp 0 = .sign ∧
    ((signing 1).drainAll [0]).2 = true ∧ ((signing 2).cleat (0, 0)).opened = true ∧ (signing 2).coreIn 0 = true ∧ (signing 2).phaseDone 0 = false ∧ ((signing 2).cleat (0, 0)).rig = some 0 ∧
    Config.timeout ≤ (signing 2).now - ((signing 2).cleat (0, 0)).first := by decide +kernel

theorem witness_WaitsEnd_pools :
    let r : HoistReq := { yard := 0, k := 2, members := [0] }
    let s := (lab [] []).modPart 0 fun q => { q with hoistq := [r] }
    (s.part (partKey 0 0)).hoistq.getLast? = some r ∧ s.deadlocked 0 = true := by decide +kernel

/-! ### Launches and queues -/

/-- The header of a kernel of one packet, with the sum over its first words. -/
def kernelWords (check : Option Word) : List Word :=
  let ws : List Word := [0x4E594459, 3, 0x00010001, 32, 0, 0, 1] ++ List.replicate 7 0
  ws ++ [check.getD (crc32 (ws.flatMap bytesOf)), 0]

/-- A launch of one yard of one lane, of the kernel at 0x5000. -/
def launchPacket : List Word := [0, 2, 0, 0, 0x5000, 0, 0, 0, 1, 1] ++ List.replicate 6 0

def launching (check : Option Word) (lim : DWord) : State :=
  let s := packeted ((kernelWords check).zipIdx.map fun x => (4 * x.2, x.1)) [] []
  let s1 := s.setEng { s.eng with launches :=
    [{ num := 7, kind := 2, ctx := 0, packet := launchPacket, compl := Compl.none, task := none, placed := false, yards := [],
       retired := 0, total := 0 }] }
  let s2 := s1.modYard 0 fun v => { v with bind := Bind.init, resident := false }
  s2.setTrust { s2.trust with worlds := Map.set s2.trust.worlds 1 { s2.world 1 with limit := List.replicate 4 lim, used := [5, 5, 5, 5] } }

/-- What the loader finds: whether its kernel stands, and whether a place for its yard in slot `slot` of core 0 does. -/
def loads (s : State) (slot : Nat) : Option Bool :=
  match s.launchOf 7 2 with
  | none => none
  | some l =>
    match s.kernelRead l none 0 64 with
    | (u, .ok head) =>
      match kernelOf (val2 l.packet 4) head with
      | none => some false
      | some k =>
        if tooShort l none k then some false else
        match u.kernelRead l none 64 (12 * k.packets) with
        | (v, .ok code) => if (v.place l k code [(0, slot)]).isSome then some true else none
        | _ => none
    | _ => none

/-- A kernel whose header stands in the last line of the lower half of global memory, which would run past its end. -/
def cutShort : State :=
  let a : DWord := 0xFFFFFFFFFFFFC0
  let s := launching none 0x100
  s.setMem { s.mem with
    bytes := ((kernelWords none).zipIdx.foldl (fun m x => Memory.setWord m (0x20FC0 + 4 * x.2) x.1) s.mem.bytes)
    tlb := [{ leafOf 0 (s.ctx 0) (vpageOf a) 0 (0x20 * 2 ^ 10 + 0xD7) with place := 64 }] }

theorem witness_LaunchAndQueueEvents_short :
    let a : DWord := 0xFFFFFFFFFFFFC0
    let l : Launch := { num := 7, kind := 2, ctx := 0, compl := Compl.none, task := none, placed := false, yards := [], retired := 0,
                        total := 0, packet := [0, 2, 0, 0, DWord.lo a, DWord.hi a, 0, 0, 1, 1] ++ List.replicate 6 0 }
    let s := cutShort.setEng { cutShort.eng with launches := [l] }
    s.launchOf 7 2 = some l ∧ s.overQuota 0 = false ∧
    (match (s.kernelRead l none 0 64).2 with
      | .ok head => (kernelOf a head).elim false (tooShort l none)
      | _ => false) = true := by decide +kernel

theorem witness_LaunchAndQueueEvents_launches :
    let good := launching none 0x100
    good.overQuota 0 = false ∧ loads good 3 = some true ∧ loads good 128 = none ∧ loads (launching (some 0) 0x100) 3 = some false ∧
    (launching none 5).overQuota 0 = true ∧ ((launching none 5).launchOf 7 2).isSome = true := by decide +kernel

/-- A near-data launch of image 2 in session 9, with its counter at 1 and a tag of words `tag`. -/
def ndLaunch (session : Word) (tag : List Word) : Launch :=
  { num := 7, kind := 4, ctx := 0, packet := [0, 4, 0, 0, 2, session, 0, 0, 1, 1, 1, 0] ++ tag, compl := Compl.none, task := none,
    placed := false, yards := [], retired := 0, total := 0 }

def ndImage : Image := { num := 2, digest := 0, bytes := (kernelWords none ++ List.replicate 16 0).flatMap bytesOf, order := 0 }

/-- World 1 holds image 2, and session 9 of world 1 has accepted nothing. -/
def ndLab (session : Word) (tag : List Word) : State :=
  let s := launching none 0x100
  let s1 := s.setEng { s.eng with launches := [ndLaunch session tag] }
  s1.setTrust { s1.trust with
    nd := [{ num := 9, world := 1, key := 0, next := 1, last := 0 }],
    worlds := Map.set s1.trust.worlds 1 { s1.world 1 with images := [ndImage] } }

/-- A session that is not there. -/
theorem witness_LaunchAndQueueEvents_refused :
    ((ndLab 8 [0, 0, 0, 0]).launchOf 7 4).map (ndLab 8 [0, 0, 0, 0]).ndCheck = some (.inr 12) := by decide +kernel

/-- A tag's four words. -/
def tagWords (t : BitVec 128) : List Word := (List.range 4).map fun i => t.extractLsb' (32 * i) 32

theorem packetTag_tagWords (ws : List Word) (t : BitVec 128) (h : ws.length = 12) : packetTag (ws ++ tagWords t) = t := by
  have e : ∀ i, i < 4 → val (ws ++ tagWords t) (12 + i) = t.extractLsb' (32 * i) 32 := by
    intro i hi
    simp [val, List.getD_eq_getElem?_getD, List.getElem?_append_right, h, tagWords, hi]
  have e0 := e 0 (by omega); have e1 := e 1 (by omega); have e2 := e 2 (by omega); have e3 := e 3 (by omega)
  unfold packetTag
  simp only [Nat.add_zero, Nat.reduceAdd] at e0 e1 e2 e3
  rw [e0, e1, e2, e3]
  ext i hi
  simp only [BitVec.getElem_append, BitVec.getElem_extractLsb']
  split
  · simp [BitVec.getLsbD_eq_getElem hi]
  · split
    · rw [show 32 * 1 + (i - 32) = i by omega, BitVec.getLsbD_eq_getElem hi]
    · split
      · rw [show 32 * 2 + (i - 32 - 32) = i by omega, BitVec.getLsbD_eq_getElem hi]
      · rw [show 32 * 3 + (i - 32 - 32 - 32) = i by omega, BitVec.getLsbD_eq_getElem hi]

/-- A packet whose tag, counter and image are right. -/
theorem witness_LaunchAndQueueEvents_near :
    let tag := tagWords (ndTag 0 [4, 0, 0, 2, 9, 0, 0, 1, 1, 1, 0])
    let s := ndLab 9 tag
    ∃ l x i, s.launchOf 7 4 = some l ∧ s.ndCheck l = .inl (x, i) ∧ s.launchOn l (some i) (imageKey x.world i.num) [(0, 3)] ≠ s := by
  intro tag s
  refine ⟨ndLaunch 9 tag, { num := 9, world := 1, key := 0, next := 1, last := 0 },
    ndImage, rfl, ?_, fun h => ?_⟩
  · have e : packetTag (ndLaunch 9 tag).packet = ndTag 0 (((ndLaunch 9 tag).packet.drop 1).take 11) :=
      packetTag_tagWords [0, 4, 0, 0, 2, 9, 0, 0, 1, 1, 1, 0] _ rfl
    unfold State.ndCheck
    have f : (s.trust.nd.find? fun x => x.num == bitsOf (val (ndLaunch 9 tag).packet 5).toNat 15 0) =
      some { num := 9, world := 1, key := 0, next := 1, last := 0 } := by decide +kernel
    simp only [f, e, bne_self_eq_false, Bool.false_or]
    decide +kernel
  · have b : ((s.launchOn (ndLaunch 9 tag) (some ndImage)
        (imageKey 1 2) [(0, 3)]).yard 3).bind.valid = true := by decide +kernel
    rw [show imageKey 1 2 = imageKey (Session.mk 9 1 0 1 0).world ndImage.num from rfl, h] at b
    exact absurd b (by decide +kernel)

/-- A queue of context 0 in slot 4 for consumer `kind`: WIDX `widx`, RIDX 3, two slots at 0x5040, slot 1 holding `ws`. -/
def queued (kind : Nat) (widx : Word) (ws : List (Nat × Word)) : State :=
  (packeted ([(0, widx), (4, 3)] ++ ws.map fun x => (0x80 + x.1, x.2)) [] []).setQslot 4 { QSlot.init with
    hdr := 0x5000, att := true, ckind := BitVec.ofNat 4 kind, ring := 0x5040, logd := 1 }

/-- What QUEUE_CONSUME finds in its turn: the ring empty, the slot not yet written, or its packet, once RIDX can be written. -/
def consumes (s : State) : Option (Option (List Word)) :=
  let q := s.qslot 4
  if !s.queueOpen 4 || s.queueBefore 4 || s.queueCluster q != 0 then none
  else match s.engineRead 0 0 q.hdr 8 with
  | (t, .ok idx) =>
    if wordAt idx 0 == wordAt idx 4 then some none
    else match t.engineRead 0 0 (q.ring + BitVec.ofNat 64 (64 * ((wordAt idx 4).toNat % 2 ^ q.logd))) 64 with
    | (u, .ok bs) =>
      if wordAt bs 0 != wordAt idx 4 then some (some [])
      else if u.qslot 4 != q || u.queueCluster q != 0 then none
      else match u.engineWrite 0 0 u.manager (q.hdr + 4) (bytesOf (wordAt idx 4 + 1)) with
      | (_, .ok []) => some (some (toWords bs))
      | _ => none
    | _ => none
  | _ => none

def consumed (s : State) (f : List Word → Bool) : Bool :=
  match consumes s with
  | some (some ws) => f ws
  | _ => false

theorem witness_LaunchAndQueueEvents_queues :
    consumes (queued 1 3 []) = some none ∧ consumes (queued 1 4 []) = some (some []) ∧
    consumed (queued 1 4 [(0, 3)]) (fun ws => headerOk ws && kindOf ws == 0) = true ∧
    consumed (queued 1 4 [(0, 3), (4, 2)]) (fun ws => !accepts 1 (kindOf ws)) = true ∧
    consumed (queued 2 4 [(0, 3), (4, 2), (32, 1), (36, 1)])
      (fun ws => headerOk ws && kindOf ws == 2 && launchOk ws) = true := by decide +kernel

/-! ### Engines and matrix -/

/-- Copy `num` of core 0 with a future entry or a segment. -/
def copyLike (num : Nat) (fut seg : Option (Nat × Nat)) : Copy :=
  { num := num, cluster := 0, ctx := 0, core := 0, src := 0x6000, dst := 0x7000, rowlen := 64, nrows := 1, spitch := 0, dpitch := 0,
    rm := 0, swzsrc := false, swz := 0, sat := false, mxfmt := 0, conv := 0, compl := Compl.none, fut := fut, seg := seg, row := 0,
    buf := none, pos := 0, flags := 0, aux := 0, parked := none, since := 0 }

/-- Future 2 of core 0 has been cancelled, and copies 5 and 6 run, the second for segment 3. -/
def engaged (fut : Option (Nat × Nat)) : State :=
  let s := (lab [] []).modCore 0 fun c => { c with futs := [(2, { kind := 1, res := none, refs := 1, cancel := true })] }
  s.setEng { s.eng with copies := [copyLike 5 fut none, copyLike 6 none (some (0, 3))] }

def mzeroOp (slot : Option Nat) : MatOp :=
  { op := .mzero, cleat := 0, binds := List.replicate 16 0, fw := 0, rm := 0, vals := [1], slot := slot, ctx := 0, pass := 0,
    block := 0, span0 := 0, opened := false, cells := [], parked := none,
    signers := [{ thread := 0, active := true, pc := 0, w := 0, word := 0, vals := [1], fw := 0, rm := 0, dst := none }] }

theorem witness_EngineAndMatrixEvents :
    (let s := engaged (some (0, 2))
     s.eng.copies = [] ++ copyLike 5 (some (0, 2)) none :: [copyLike 6 none (some (0, 3))] ∧
     s.eng.copies = [copyLike 5 (some (0, 2)) none] ++ copyLike 6 none (some (0, 3)) :: [] ∧
     (Map.find? (s.core 0).futs 2).map (fun f => (f.cancel, f.res)) = some (true, none)) ∧
    (∀ x ∈ (engaged none).eng.copies, x.fut ≠ some (0, 2)) ∧
    (let s := (engaged none).modCore 0 fun c => { c with mrun := some (mzeroOp (some 2)) }
     (s.core 0).mrun = some (mzeroOp (some 2)) ∧ (mzeroOp (some 2)).slot = some 2) ∧
    (let s := (engaged none).modCore 0 fun c => { c with mqueue := [mzeroOp (some 2)] }
     (s.core 0).mrun = none ∧ mzeroOp (some 2) ∈ (s.core 0).mqueue) ∧
    (let s := (queued 1 3 []) ; (s.qslot 4).att = true ∧ (1 : DWord).getLsbD 0 = true) ∧
    (let o := mzeroOp none
     let p : MatOp := { o with op := .mldb 3 }
     o.wantsFuture = false ∧ p.wantsFuture = true ∧ (lab [] []).freeSlot 0 = .inl 0 ∧ o.parked = none ∧ o.block = 0 ∧
     ({ o with block := 1 } : MatOp).finished = true) := by decide +kernel

/-! ### Events of memory and links -/

/-- An entry of the directory for the 64 KiB region 2, held by `holders`. -/
def region2 (holders : BitVec 16) (excl : Bool) (await : List (Nat × Nat)) : DirEntry :=
  { base := 0x20000, level := 0, holders := holders, excl := excl, last := 0, await := await, req := none, evict := false }

/-- A store of thread 0 to the word at 0x20000 is pending, and a fault and `walks` walks stand. -/
def homing (hc : Bool) (walks : Nat) : State :=
  let s := lab [] []
  let fb : FaultBuf := { FaultBuf.init with entries := [(2, { vpage := 4, kind := 0, reason := 0, ctx := 0, firstcore := 0, count := 1 })] }
  (s.setMem { s.mem with
    pend := [{ core := 0, thread := 0, word := 0x20000, nc := false, mask := 15, val := 9, since := 0 }]
    hc := if hc then [2] else []
    dir := if hc then [region2 2 false []] else []
    walks := (List.range walks).map fun i => { cluster := 0, ctx := 0, vpage := 5 + i, kind := 0, cores := [0], prefs := [] } }).setFb 0 fb

theorem witness_HomeSliceEvents :
    ((homing false 1).mem.pend[0]?).isSome = true ∧ ((homing false 1).dirAccess 0x20000 true false) = (homing false 1, true) ∧
    ((homing true 1).dirAccess 0x20000 true false).2 = false ∧ ((homing false 33).mem.walks[32]?).isSome = true ∧
    (homing false 33).slotFor 0 0 5 = true ∧ (homing false 33).slotFor 0 0 37 = false ∧
    (((homing false 1).ctx 0).resident = true ∧ ∃ i ∈ ((homing false 1).ctx 0).cores, clusterOf i = 0) ∧
    ((homing false 1).ctx 1).resident = false ∧ (Map.find? ((homing false 1).fb 0).entries 2).isSome = true ∧
    (homing false 1).mem.sd.running = false := by decide +kernel

/-- A shootdown with identity 3 has its sequence, runs, and acknowledges at `a`. -/
def shooting (a : DWord) (running : Bool) : State :=
  let s := { lab [] [] with status := { (lab [] []).status with sdid := 3 } }
  s.setSd { s.mem.sd with running := running, seq := 7, ackaddr := a }

theorem witness_HomeSliceEvents_shootdowns :
    (shooting 0 false).status.sdid ≠ 0 ∧ (3 : Word) = (shooting 0 false).status.sdid.zeroExtend 32 ∧
    (shooting 0 false).mem.sd.ackseq ≠ (shooting 0 false).mem.sd.seq ∧ (lab [] []).status.sdid = 0 ∧
    (shooting 0 true).mem.sd.running = true ∧ (shooting 0x1000 true).mem.sd.running = true ∧ (shooting 0x1000 true).mem.sd.ackaddr ≠ 0 ∧
    (let s := shooting 0 true
     ((s.tlbDrop s.mem.sd.names).drainPend fun p => (s.tlbDrop s.mem.sd.names).worldOf ((s.tlbDrop s.mem.sd.names).ctxOf p.thread) == 1).2 = true) := by
  decide +kernel

/-- Holders 1 and 4 are behind port 0, whose decoder maps host physical addresses from 2^40 on, interleaved over two ports. -/
def attached : State :=
  let s := lab [] []
  s.setPort 0 { s.port 0 with linkup := true, ids := [(1, 5), (4, 6)], hdm := some (2 ^ 40, 2 ^ 40, 2, 256) }

/-- The host physical address of device address 0x20040, whose block of 256 bytes is number 0x200 of port 0. -/
def hpa : Nat := 2 ^ 40 + 0x400 * 256 + 0x40

/-- Region 2 is host-coherent, and holders 1 and, where `more`, 4 hold it. -/
def shared (more excl : Bool) (await : List (Nat × Nat)) : State :=
  let s := attached
  s.setMem { s.mem with hc := [2], dir := [region2 (if more then 0x12 else 2) excl await] }

/-- What holder 1 asks for. -/
def asking (s : State) (own : Bool) : Ask := { holder := some 1, line := 0x20040, own := own, made := s.now }

/-- A request whose turn it is finds the region's entry. -/
def found (s : State) (excl : Bool) (others : List Nat) (await : List (Nat × Nat)) : Bool :=
  let u := s.noteRequest.touchDir 0x20040
  s.holderAddr 1 hpa == some 0x20040 && s.power.pstate != 3 && s.isDev 0x20040 && !u.inMove 0x20040 && u.isHc 0x20040 && !u.behind (asking s false) && !u.behind (asking s true) &&
    match u.dirFind 0x20040 with
    | some e => e.await == await && e.excl == excl && (holderList e.holders).filter (· != 1) == others
    | none => false

theorem witness_DirectoryEvents_requests :
    let s := attached
    let u := s.noteRequest.touchDir 0x20040
    (s.holderAddr 2 hpa = none ∧ s.holderAddr 1 (2 ^ 41) = none ∧ s.power.pstate ≠ 3 ∧
      (let t := s.setPower { s.power with pstate := 3 }
       t.holderAddr 1 hpa = some 0x20040 ∧ t.power.pstate = 3)) ∧
    (s.holderAddr 1 hpa = some 0x20040 ∧ s.isDev 0x20040 = true ∧ u.inMove 0x20040 = false ∧ u.isHc 0x20040 = false) ∧
    (s.setMem { s.mem with moving := [(2, 9)] }).inMove 0x20040 = true ∧
    (let t := shared true true []
     (t.setMem { t.mem with asks := [{ asking t true with holder := some 4 }] }).behind (asking t true) = true) ∧
    found (shared false false []) false [] [] = true ∧ found (shared true false []) false [4] [] = true ∧
    found (shared true true []) true [4] [] = true ∧ found (shared true true [(4, 0x20040)]) true [4] [(4, 0x20040)] = true := by
  decide +kernel

theorem witness_DirectoryEvents :
    (((shared true true [(4, 0x20040)]).dirFind 0x20040).map fun e => e.await) = some [(4, lineAddr 0x20040)] ∧
    (((shared true true [(4, 0x20040), (1, 0x20040)]).dirFind 0x20040).map fun e => e.await.filter (· != (4, 0x20040))) =
      some [(1, 0x20040)] ∧
    (let s := lab [] []
     let half := fun b => ({ region2 2 false [] with base := b, level := 1 } : DirEntry)
     let t := { s.setMem { s.mem with dir := [half 0x20000, half 0x28000] } with now := Config.timeout }
     (t.mem.dir.find? fun e => e.base == 0x20000 && e.level == 1) = some (half 0x20000) ∧
     (t.mem.dir.find? fun e => e.base == 0x28000 && e.level == 1) = some (half 0x28000) ∧ t.quiet (half 0x20000) = true ∧
     t.quiet (half 0x28000) = true ∧ (half 0x20000).holders ≠ 0) ∧
    ((lab [] []).fitX = false ∧ (lab [] []).isDev (2 ^ 45) = false) := by decide +kernel

/-- The handover registers name lines at 0x20000, of which one is to go, and one port is up or none is. -/
def handing (len : Word) (busy up : Bool) : State :=
  let s := lab [] []
  let t := s.setMem { s.mem with ho := { s.mem.ho with base := 0x20000, len := len, busy := busy, total := 1, pages := [0x20000] } }
  if up then linked t else t

theorem witness_DirectoryEvents_handover :
    (1 ≤ (128 : Word).toNat / 64 ∧ (128 : Word).toNat / 64 ≤ 2 ^ 18 ∧ (handing 128 false true).mem.ho.len = 128 ∧
      (handing 128 false true).mem.ho.busy = false) ∧ (handing 0 false true).mem.ho.len.toNat / 64 = 0 ∧
    (let u := handing 64 true true
     let h := u.mem.ho
     h.busy = true ∧ h.progress < h.total ∧ List.range' h.progress (h.total - h.progress) = [0] ∧ u.hostLinkUp = true ∧
     u.handoverStops = false ∧ u.inMove (h.lineAt 0) = false ∧ (u.handoverLine (h.lineAt 0) h.toDev).mem.ho = h) ∧
    ((handing 128 true false).mem.ho.busy = true ∧ (handing 128 true false).hostLinkUp = false) := by decide +kernel

/-- Channel 3 owes `owed` refreshes to bank 0, at which a read stands queued or not. -/
def banked (busy : Bool) (owed : Nat) : State :=
  (lab [] []).setChannel 3 { Refresh.init with queued := if busy then [(0, 0)] else [], owed := [(0, owed)] }

theorem witness_LinkAndChannelEvents :
    let meets := fun (s : State) (b : Bool) (o : Nat) =>
      s.hasChannel 3 = true ∧ s.power.pstate ≠ 3 ∧ (s.channel 3).lastTick = none ∧ (s.channel 3).pendingForced = none ∧
      (∃ x < 16, Map.getD (s.channel 3).busyUntil x 0 ≤ s.ns) ∧
      (s.channel 3).busyAt (s.channel 3).nextBank s.ns = b ∧ (s.channel 3).owedOf (s.channel 3).nextBank = o
    meets (banked false 2) false 2 ∧ meets (banked true 2) true 2 ∧ meets (banked true 8) true 8 ∧
    (let s := (lab [] []).setChannel 3 { Refresh.init with lastTick := some 5 }
     (s.channel 3).lastTick = some 5 ∧ s.ns < 5 + 244) ∧
    (let s := (lab [] []).setChannel 3 { Refresh.init with busyUntil := (List.range 16).map fun b => (b, 300) }
     ∀ x < 16, s.ns < Map.getD (s.channel 3).busyUntil x 0) ∧
    (let s := (lab [] []).setChannel 3 { Refresh.init with pendingForced := some 9 }
     (s.channel 3).pendingForced = some 9 ∧ (s.channel 3).column ≤ s.ns) ∧
    (lab [] []).isDev 0x20040 = true ∧
    ((linked (lab [] [])).port 0).linkup = true ∧ ((lab [] []).port 0).linkup = false ∧ ((lab [] []).port 0).viral = false ∧
    ((linked (lab [] [])).port 0).cmd = none ∧ ((lab [] []).port 0).cmd = none ∧
    (let s := lab [] []
     ((s.setPort 0 { s.port 0 with cmd := some 2, left := [2 ^ 50] }).port 0).cmd = some 2) ∧
    (lab [] []).fitX = false ∧ 12 / 4 * 4 ∉ (lab [] []).mem.poison := by decide +kernel

/-! ### Events of contexts, debugging, calls and pools -/

/-- Context 0 is resident on core 0 or not, and its world is past a quota or not. -/
def placed (resident quota : Bool) : State :=
  let s := (lab [] []).modCtx 0 fun c => { c with resident := resident }
  s.setTrust { s.trust with worlds := Map.set s.trust.worlds 1 { s.world 1 with
    limit := List.replicate 4 (if quota then 5 else 9), used := [5, 5, 5, 5] } }

theorem witness_PreemptionEvents :
    ({ lab [] [] with kick := { (lab [] []).kick with run := some (0, 1) } } : State).kick.run.isSome = true ∧
    (lab [] []).kick.run = none ∧ ((lab [] []).ctx 1).created = false ∧ ((placed false false).ctx 0).created = true ∧
    ((placed false false).ctx 0).resident = false ∧ ((placed true false).ctx 0).resident = true ∧
    ((placed true false).ctx 0).saving = false ∧ (placed false true).overQuota 0 = true ∧ (placed false false).overQuota 0 = false := by
  decide +kernel

/-- Core 0 is asked to halt, at a switch point or within a run. -/
def halting (runs halted : Bool) : State :=
  let s := ((lab [] []).modGroup 0 fun g => { g with runs := runs }).modCore 0 fun c => { c with preempt := true, halted := halted }
  s.modCtx 0 fun c => { c with saving := true }

/-- Context 0 stands in its save area, without its core. -/
def savedState : State :=
  (lab [] []).modCtx 0 (fun c => { c with resident := false }) |>.modCore 0 fun c => { c with ctx := none }

/-- What reading the overlay of a landed segment, whose source is `a`, gives when the context is to come back. -/
def landedAt (a : DWord) : Option (List Landing) :=
  let s := savedState.modCore 0 fun c => { c with segs := [(3, { savedState.seg 0 3 with st := 2, packets := 1, src := a })] }
  let t := s.renumber (restoreOnto 0 (s.ctx 0).cores [0])
  (t.overlays 0 (t.landed [0])).2

theorem witness_PreemptionEvents_saves :
    ((halting false false).core 0).preempt = true ∧ ((halting false false).core 0).halted = false ∧
    (halting false false).atSwitch 0 = true ∧ (halting false false).longRuns 0 = false ∧ (halting true false).atSwitch 0 = false ∧
    (((halting false true).ctx 0).resident = true ∧ ((halting false true).ctx 0).saving = true ∧
      (∀ i ∈ ((halting false true).ctx 0).cores, ((halting false true).core i).halted = true) ∧
      (halting false true).holdingCopies [0] = [] ∧ (halting false true).pullsWrite 0 = false) ∧
    (∃ i ∈ ((halting false false).ctx 0).cores, ((halting false false).core i).halted = false) ∧
    ((savedState.ctx 0).created = true ∧ (savedState.ctx 0).resident = false ∧ savedState.overQuota 0 = false ∧
      savedState.kick.run ≠ some (0, 2) ∧ savedState.fits 0 (restoreOnto 0 (savedState.ctx 0).cores [0]) [0] = true ∧
      (landedAt 0x5000).isSome = true ∧ landedAt 0x3000 = none) ∧
    (lab [] []).now < (lab [] []).trust.lastFold + 1024 ∧
    (let s := { lab [] [] with now := 1024 }
     s.trust.lastFold + 1024 ≤ s.now) := by decide +kernel

/-- The debug block of context 0 names thread 0, which is in state `st`. -/
def debugged (st : TState) : State := (lab [] []).modThread 0 fun t => { t with st := st }

theorem witness_DebugAndCallEvents :
    (lab [] []).debugTarget 1 = none ∧ (debugged .streaming).debugTarget 0 = some 0 ∧ (debugged .eligible).debugTarget 0 = some 0 ∧
    (debugged .stopped).debugTarget 0 = some 0 ∧ ((debugged .stopped).thread 0).st = .stopped ∧
    ((debugged .eligible).thread 0).st ≠ .stopped ∧ (7 : DWord).extractLsb' 1 2 = 3 ∧ (2 : DWord).extractLsb' 1 2 ≠ 3 := by
  decide +kernel

/-- Call number `c` with its block at 0x5000 stands in the ring of core 0. -/
def calling (c : Word) : State :=
  let x : Call :=
    { num := 3, after := [], seq := 0, call := c, args := 0x5000, world := 1, ctx := 0, thread := 0, epoch := 0, slot := 0, parked := none }
  (lab [] []).modCore 0 fun y => { y with ring := [(0, x)] }

/-- Whether the block of a call can be read, and written with `bs` of the state after. -/
def blockServed (s : State) (bs : State → List Byte) : Bool :=
  match s.callDue 0 0 with
  | none => false
  | some c => match s.engineRead 0 c.ctx c.args 64 with
    | (t, .ok _) => match (t.engineWrite 0 c.ctx t.manager c.args (bs t)).2 with
      | .ok [] => true
      | _ => false
    | _ => false

theorem witness_DebugAndCallEvents_calls :
    blockServed (calling 0) (fun _ => []) = true ∧ blockServed (calling 1) (fun t => (words2 t.ticks).flatMap bytesOf) = true ∧
    blockServed (calling 2) (fun t => bytesOf (BitVec.ofNat 32 (b2n t.queueFull))) = true ∧
    ((calling 3).callDue 0 0).map (fun c => c.call) = some 3 := by decide +kernel

theorem witness_PoolAndWorkQueueEvents :
    let p := pooled [] []
    ((p.pool 3).att = true ∧ (p.pool 3).ctx.toNat ≠ 1 ∧ (p.pool 3).ctx.toNat = 0 ∧ (p.pool 3).cmpt = false) ∧
    (let headed := fun ws => (packeted ws [] []).setPool 4 { Pool.init with hdr := 0x5000 }
     let good := headed [(0, 0x6000), (8, 0x6000), (16, 0x6000)]
     let t := (good.managerReady 0 0x5000).1
     (good.pool 4).att = false ∧ (good.managerReady 0 0x5000).2 = true ∧ t.pool 4 = good.pool 4 ∧ ((t.managerWords 0 0x5000 16).bind poolHeader).isSome = true ∧
     ((headed [(0, 4)]).managerWords 0 0x5000 16).map poolHeader = some none) ∧
    (let w := wqueued [] []
     let full := w.setWq 5 { w.wq 5 with count := 1 }
     (w.wq 5).att = true ∧ (w.wq 5).ctx.toNat = 0 ∧ (w.wq 5).count = 0 ∧ (w.wq 5).waiters = 0 ∧ (full.wq 5).count ≠ 0 ∧
     (w.wq 6).att = false ∧ (0x401 : DWord).getLsbD 0 = true ∧ (0x401 : DWord).getLsbD 30 = false ∧
     ((0x401 : DWord).extractLsb' 8 5).toNat = 4) := by decide +kernel

/-- Pool 3 compacts: block 0 lies in the second page of its slab, and the first is free or taken. -/
def compacting (taken : Word) : State :=
  let s := pooled [(0, 0x7200), (0x400, taken)] []
  s.setPool 3 { s.pool 3 with cmpt := true }

/-- The same with the move of block 0 begun. -/
def moving : State :=
  let s := compacting 3
  s.setEng { s.eng with moves := [(0, { pool := 3, lbn := 0, cls := 0, old := 0x7000, dst := 0x6000 })] }

/-- A step that finds nothing to move, and one that begins a move. -/
theorem witness_PoolAndWorkQueueEvents_moves :
    let p := (compacting 2).pool 3
    let x : PageId := { cls := 0, slab := 0, page := 0 }
    let due := fun s : State => s.nextPool 0 = some 3 ∧ Map.find? s.eng.moves 0 = none ∧ s.managerReady 0 (p.descAddr 0) = (s, true)
    due (compacting 2) ∧ due (compacting 3) ∧
    (compacting 3).moveFor 3 0 0 = none ∧ (compacting 2).moveFor 3 0 0 = some (0x7200, x) ∧
    (compacting 2).linesReady 0 [(p.descAddr 0, true), ((p.bitOf x).1, true)] = (compacting 2, true) ∧
    (((compacting 2).managerDesc p 0 (0x7200 ||| 0x100)).bind fun y => y.managerMark p x true).isSome = true := by decide +kernel

/-- `moving` with poisoned words at 0x22000 or above, and with other contents of the home slices. -/
def grown (x : List Nat) (l : Map Word) (w : Map (List Write)) (n : Nat) : State :=
  moving.setMem { moving.mem with poison := x, l2 := l, writes := w, written := n }

/-- No word below 0x21000 has been written, and none below 0x22000 is poisoned. -/
def Apart (x : List Nat) (l : Map Word) : Prop := (∀ k ∈ x, 0x22000 ≤ k) ∧ ∀ k < 0x21000, Map.find? l k = none

theorem grown_homeWord {x l} (w n) (h : Apart x l) (k : Nat) (hk : k < 0x21000) :
    (grown x l w n).homeWord k = moving.mem.bytes.word k := by
  show (Map.find? l k).getD _ = _
  rw [h.2 k hk]; rfl

theorem grown_poisoned {x l} (w n) (h : Apart x l) (k : Nat) (hk : k < 0x21F00) : (grown x l w n).poisoned k = false := by
  have f (j : Nat) (hj : j < 0x22000) : x.contains j = false := by
    rw [List.contains_eq_mem, decide_eq_false_iff_not]
    exact fun m => by have := h.1 j m; omega
  show (x.contains k || x.contains (lineAddr k + 1)) = false
  rw [f k (by omega), f _ (by unfold lineAddr; omega)]; rfl

theorem grown_dir (x l w n) (pa : Nat) (wr nc : Bool) : (grown x l w n).dirAccess pa wr nc = (grown x l w n, true) := by
  have i1 : (grown x l w n).inMove pa = false := rfl
  have i2 : (grown x l w n).isHc pa = false := by
    unfold State.isHc
    simp [show (grown x l w n).mem.hc = [] from rfl]
  have i3 (a : Ask) : (grown x l w n).dropAsk a = grown x l w n := rfl
  unfold State.dirAccess
  simp [i1, i2, i3]

/-- The leaf of page 5, 6 or 7. -/
def leafAt (v : Nat) : TlbEntry := leafOf 0 (moving.ctx 0) v 0 ((0x1B + v) * 1024 + 0xD7)

theorem grown_leaf (x l w n) (v : Nat) (hv : v ∈ [5, 6, 7]) :
    (grown x l w n).leafCheck (moving.ctx 0) (leafAt v) = .inl (grown x l w n) := by
  have w1 : (moving.ctx 0).world = 1 := by decide +kernel
  have q (lo hi : Nat) (h : ∀ p ∈ moving.mem.pot, p.2.bound = true) : Map.mapVals (fun pp (e : Pot) =>
      if decide (lo ≤ pp) && decide (pp < hi) && !e.bound then { e with mode := BitVec.ofNat 2 0, bound := true } else e) moving.mem.pot =
        moving.mem.pot := by
    unfold Map.mapVals
    conv => rhs; rw [← List.map_id moving.mem.pot]
    exact List.map_congr_left fun p m => by simp [h p m]
  have d : (grown x l w n).devBytes / 4096 = moving.devBytes / 4096 := rfl
  have m : (grown x l w n).mem.pot = moving.mem.pot := rfl
  have c : ∀ v ∈ [5, 6, 7], (leafAt v).ppn = 0x1B + v ∧ (leafAt v).size = 0 ∧ ¬ moving.devBytes / 4096 ≤ 0x1B + v ∧
      min (0x1B + v + 1) (moving.devBytes / 4096) = 0x1B + v + 1 ∧
      potScan 1 0 (0x1B + v + 1) (0x1B + v) (moving.mem.pot.filter fun p => decide (0x1B + v ≤ p.1) && decide (p.1 < 0x1B + v + 1)) =
        none := by decide +kernel
  obtain ⟨hp, hs, c1, c2, c3⟩ := c v hv
  unfold State.leafCheck State.potFill
  rw [hp, hs]
  simp only [sizePages, d, m, w1, c1, c2, c3, q _ _ (by decide +kernel)]
  rfl

/-- One level of a walk of the table in page 0x10, which reads its entry `i`. -/
theorem grown_level {x l} (w n) (h : Apart x l) (v k lv i : Nat) (hv : v / 2 ^ (9 * lv) % 512 = i) (hi : i < 8) (pte : Nat)
    (hp : (dw (moving.mem.bytes.word (0x10000 + 8 * i)) (moving.mem.bytes.word (0x10000 + 8 * i + 4))).toNat = pte) :
    (grown x l w n).walkFrom 0 (moving.ctx 0) v k 0x10 (lv + 1) =
      if !bitOf pte 0 || (bitOf pte 2 && !bitOf pte 1) then (grown x l w n, .refuse 0 none)
      else if !bitOf pte 1 && !bitOf pte 3 then
        if bitsOf pte 63 54 != 0 then (grown x l w n, .refuse 3 none)
        else State.walkFrom (grown x l w n) 0 (moving.ctx 0) v k (bitsOf pte 53 10) lv
      else match leafRefusal (moving.ctx 0) k lv pte with
        | some reason => (grown x l w n, .refuse reason (some (leafOf 0 (moving.ctx 0) v lv pte)))
        | none => match (grown x l w n).leafCheck (moving.ctx 0) (leafOf 0 (moving.ctx 0) v lv pte) with
          | .inr c => (grown x l w n, .cause c (some (leafOf 0 (moving.ctx 0) v lv pte)))
          | .inl s => (s, .ok (leafOf 0 (moving.ctx 0) v lv pte) false) := by
  subst hv hp
  have a : (grown x l w n).tableCheck (moving.ctx 0) 0x10 = .inl (grown x l w n) := rfl
  have e : ∀ i < 8, moving.exitCause (0x10 * 4096 + 8 * i) = none := by decide +kernel
  have e1 : (grown x l w n).exitCause (0x10 * 4096 + 8 * (v / 2 ^ (9 * lv) % 512)) = none := e _ hi
  rw [State.walkFrom]
  simp only [a, grown_dir, grown_homeWord w n h _ (show 0x10 * 4096 + 8 * (v / 2 ^ (9 * lv) % 512) < 0x21000 by omega),
    grown_homeWord w n h _ (show 0x10 * 4096 + 8 * (v / 2 ^ (9 * lv) % 512) + 4 < 0x21000 by omega),
    grown_poisoned w n h _ (show 0x10 * 4096 + 8 * (v / 2 ^ (9 * lv) % 512) < 0x21F00 by omega),
    grown_poisoned w n h _ (show 0x10 * 4096 + 8 * (v / 2 ^ (9 * lv) % 512) + 4 < 0x21F00 by omega), e1]
  rfl

theorem grown_walk {x l} (w n) (h : Apart x l) (v k : Nat) (hv : v ∈ [5, 6, 7]) (hk : k ∈ [0, 1]) :
    (grown x l w n).walkFrom 0 (moving.ctx 0) v k 0x10 5 = (grown x l w n, .ok (leafAt v) false) := by
  have table (lv : Nat) (hv : v / 2 ^ (9 * lv) % 512 = 0) :
      (grown x l w n).walkFrom 0 (moving.ctx 0) v k 0x10 (lv + 1) = (grown x l w n).walkFrom 0 (moving.ctx 0) v k 0x10 lv :=
    (grown_level w n h v k lv 0 hv (by decide) 0x4001 (by decide +kernel)).trans rfl
  have r : ∀ v ∈ [5, 6, 7], ∀ k ∈ [0, 1], leafRefusal (moving.ctx 0) k 0 ((0x1B + v) * 1024 + 0xD7) = none ∧
      (dw (moving.mem.bytes.word (0x10000 + 8 * v)) (moving.mem.bytes.word (0x10000 + 8 * v + 4))).toNat = (0x1B + v) * 1024 + 0xD7 ∧
      v < 8 ∧ (∀ lv < 5, 0 < lv → v / 2 ^ (9 * lv) % 512 = 0) ∧ v / 2 ^ (9 * 0) % 512 = v ∧
      bitsOf ((0x1B + v) * 1024 + 0xD7) 3 0 = 7 := by decide +kernel
  obtain ⟨r1, r2, r3, r4, r5, r6⟩ := r v hv k hk
  rw [table 4 (r4 4 (by decide) (by decide)), table 3 (r4 3 (by decide) (by decide)), table 2 (r4 2 (by decide) (by decide)),
    table 1 (r4 1 (by decide) (by decide)), grown_level w n h v k 0 v r5 r3 _ r2]
  have g := grown_leaf x l w n v hv
  unfold leafAt at g
  simp only [r1, g]
  simp only [List.mem_cons, List.not_mem_nil, or_false] at hv
  rcases hv with rfl | rfl | rfl <;> rfl

/-- Where line `i` of page 5, 6 or 7 lies. -/
theorem grown_reach {x l} (w n) (h : Apart x l) (v k i : Nat) (hv : v ∈ [5, 6, 7]) (hk : k ∈ [0, 1]) (hi : i < 64) :
    let a : DWord := BitVec.ofNat 64 (v * 4096 + 64 * i)
    isGlobal a = true ∧ (grown x l w n).reach none 0 a k = (grown x l w n, .at ((0x1B + v) * 4096 + 64 * i) false) := by
  intro a
  have c : ∀ v ∈ [5, 6, 7], ∀ i < 64, let a : DWord := BitVec.ofNat 64 (v * 4096 + 64 * i)
      isGlobal a = true ∧ vpageOf a = v ∧ (leafAt v).phys a = (0x1B + v) * 4096 + 64 * i ∧
      moving.exitCause ((0x1B + v) * 4096 + 64 * i) = none ∧ moving.inWindow 0 a = false := by decide +kernel
  obtain ⟨c1, c2, c3, c4, c5⟩ := c v hv i hi
  have p : ((grown x l w n).ctx 0).ppn.toNat = 0x10 := show (moving.ctx 0).ppn.toNat = 0x10 by decide +kernel
  have q : (grown x l w n).walkFrom 0 ((grown x l w n).ctx 0) v k 0x10 5 = _ := grown_walk w n h v k hv hk
  have e : (grown x l w n).exitCause ((0x1B + v) * 4096 + 64 * i) = none := c4
  have y : (grown x l w n).inWindow 0 a = false := c5
  refine ⟨c1, ?_⟩
  unfold State.reach
  simp only [show vpageOf a = v from c2, p, q, show (leafAt v).phys a = _ from c3, e, y]

/-- No word of a line is poisoned: none is, or the line lies in page 5. -/
theorem grown_clear {x l} (w n) (h : Apart x l) (v i j : Nat) (hi : i < 64) (hj : j < 16) (hx : x = [] ∨ v = 5) :
    (grown x l w n).poisoned ((0x1B + v) * 4096 + 64 * i + 4 * j) = false := by
  rcases hx with rfl | rfl
  · rfl
  · exact grown_poisoned w n h _ (by omega)

theorem grown_words {x l} (w n) (h : Apart x l) (v i m : Nat) (hv : v ∈ [5, 6, 7]) (hi : i < 64) (hm : m ≤ 16)
    (hx : x = [] ∨ v = 5) : (grown x l w n).managerWords 0 (BitVec.ofNat 64 (v * 4096 + 64 * i)) m =
      some ((List.range m).map fun j => (grown x l w n).homeWord ((0x1B + v) * 4096 + 64 * i + 4 * j)) := by
  obtain ⟨g, r⟩ := grown_reach w n h v 0 i hv (by decide) hi
  unfold State.managerWords
  rw [g, r]
  simp only [Bool.not_true, Bool.false_eq_true, if_false]
  rw [if_neg]
  simp only [List.any_eq_true, List.mem_range, not_exists, not_and]
  intro j hj
  rw [grown_clear w n h v i j hi (by omega) hx]
  decide

theorem grown_keeps (x l w n) (wa : Nat) (ha : wa < 0x23000) : (grown x l w n).keepsWrites wa = true := by
  have d : (grown x l w n).devBytes = moving.devBytes := rfl
  have b : 0x23000 ≤ moving.devBytes := by decide +kernel
  have i : (grown x l w n).isDev wa = true := by unfold State.isDev; rw [d]; exact decide_eq_true (by omega)
  unfold State.keepsWrites State.caches State.inExpander
  simp [i]

/-- What the home slice records of a write that it keeps. -/
theorem record_kept (s : State) (wa rank since : Nat) (mask : BitVec 4) (v : Word) (h : s.keepsWrites wa = true) :
    s.record wa rank since mask v =
      (let before := ((Map.getD s.mem.writes wa []).map fun x => x.left rank since mask).filter fun x => x.mask != 0
       let new : Write := { rank := rank, num := s.mem.written + 1, mask := mask, val := v }
       let s1 := s.setMem { s.mem with l2 := Map.set s.mem.l2 wa (lastWord (s.homeWord wa) (new :: before)) }
       (s1.setMem { s1.mem with writes := Map.set s1.mem.writes wa (new :: before), written := s1.mem.written + 1 },
        (mask &&& ~~~(before.foldl (fun m x => if rank < x.rank then m ||| x.mask else m) 0)) != 0)) := by
  unfold State.record State.setHome
  simp only [h, if_true]

theorem grown_store {x l} (w n) (h : Apart x l) (wa rank since : Nat) (mask : BitVec 4) (v : Word)
    (ha : 0x21000 ≤ wa ∧ wa < 0x23000) (hx : x = []) :
    ∃ l' w' n', Apart x l' ∧ (grown x l w n).homeStore wa rank since mask v = grown x l' w' n' := by
  subst hx
  obtain ⟨y, w', b, r⟩ : ∃ y w' b, (grown [] l w n).record wa rank since mask v = (grown [] (Map.set l wa y) w' (n + 1), b) :=
    ⟨_, _, _, record_kept _ wa rank since mask v (grown_keeps [] l w n wa ha.2)⟩
  refine ⟨Map.set l wa y, w', n + 1, ⟨h.1, fun k hk => ?_⟩, ?_⟩
  · rw [Map.find?_set_other _ _ _ _ (by omega), h.2 k hk]
  · unfold State.homeStore
    rw [r]
    cases b <;> cases mask == 15 <;> rfl

theorem grown_stores (a : Nat) (bs : List Byte) (r : List Nat) {l} (w n) (h : Apart [] l)
    (ha : ∀ wa ∈ r, 0x21000 ≤ wa ∧ wa < 0x23000) :
    ∃ l' w' n', Apart [] l' ∧ r.foldl (fun s wa => s.homeMerge s.manager wa a bs) (grown [] l w n) = grown [] l' w' n' := by
  induction r generalizing l w n with
  | nil => exact ⟨l, w, n, h, rfl⟩
  | cons x r ih =>
    obtain ⟨l', w', n', h', e⟩ := grown_store w n h x (grown [] l w n).manager.rank (grown [] l w n).manager.since
      (runMask x a bs.length) (mergeWord 0 x a bs) (ha x (by simp)) rfl
    have : (grown [] l w n).homeMerge (grown [] l w n).manager x a bs = grown [] l' w' n' := e
    rw [List.foldl_cons, this]
    exact ih w' n' h' fun y hy => ha y (by simp [hy])

/-- Bytes written to a line of page 6. -/
theorem grown_write {l} (w n) (h : Apart [] l) (i : Nat) (hi : i < 64) (bs : List Byte) (hb : bs.length ≤ 64) :
    ∃ l' w' n', Apart [] l' ∧ (grown [] l w n).managerWrite 0 (BitVec.ofNat 64 (6 * 4096 + 64 * i)) bs = some (grown [] l' w' n') := by
  obtain ⟨g, r⟩ := grown_reach w n h 6 1 i (by decide) (by decide) hi
  obtain ⟨l', w', n', h', e⟩ := grown_stores ((0x1B + 6) * 4096 + 64 * i) bs (wordsAt ((0x1B + 6) * 4096 + 64 * i) bs.length) w n h (by
    intro wa hw
    unfold wordsAt at hw
    rw [List.mem_map] at hw
    obtain ⟨j, hj, rfl⟩ := hw
    rw [List.mem_range] at hj
    omega)
  refine ⟨l', w', n', h', ?_⟩
  unfold State.managerWrite
  rw [g, r, ← e]
  simp only [Bool.not_true, Bool.false_eq_true, if_false]
  rw [if_neg]
  simp only [List.any_eq_true, not_exists, not_and]
  intro k _
  rw [show (grown [] l w n).poisoned k = false from rfl]
  decide

theorem line_addr (v i : Nat) : BitVec.ofNat 64 (v * 4096) + BitVec.ofNat 64 (64 * i) = BitVec.ofNat 64 (v * 4096 + 64 * i) :=
  (BitVec.ofNat_add _ _).symm

/-- Each word has four bytes. -/
theorem bytes_length (l : List Word) : (l.flatMap bytesOf).length = 4 * l.length := by
  induction l with
  | nil => rfl
  | cons x l ih =>
    rw [List.flatMap_cons, List.length_append, ih, List.length_cons]
    show 4 + _ = _
    omega

/-- The lines of page 7 are copied to page 6. -/
theorem grown_lines {l} (w n) (h : Apart [] l) (k i : Nat) (hi : i + k ≤ 64) :
    ∃ l' w' n', Apart [] l' ∧ (grown [] l w n).moveLines 0 (BitVec.ofNat 64 (7 * 4096)) (BitVec.ofNat 64 (6 * 4096)) i k =
      some (grown [] l' w' n') := by
  induction k generalizing i l w n with
  | zero => exact ⟨l, w, n, h, rfl⟩
  | succ k ih =>
    obtain ⟨l', w', n', h', e⟩ := grown_write w n h i (by omega)
      (((List.range 16).map fun j => (grown [] l w n).homeWord ((0x1B + 7) * 4096 + 64 * i + 4 * j)).flatMap bytesOf) (by
        exact Nat.le_of_eq (by rw [bytes_length, List.length_map, List.length_range]))
    obtain ⟨a, b, c, g, t⟩ := ih w' n' h' (i + 1) (by omega)
    refine ⟨a, b, c, g, ?_⟩
    rw [State.moveLines, line_addr, line_addr, grown_words w n h 7 i 16 (by decide) (by omega) (by decide) (.inl rfl)]
    simp only [e]
    exact t

/-- The lines that a move touches are ready. -/
theorem grown_ready {x l} (w n) (h : Apart x l) (r : List (DWord × Bool))
    (hr : ∀ p ∈ r, ∃ v ∈ [5, 6, 7], ∃ i < 64, p.1 = BitVec.ofNat 64 (v * 4096 + 64 * i)) :
    (grown x l w n).linesReady 0 r = (grown x l w n, true) := by
  unfold State.linesReady
  induction r with
  | nil => rfl
  | cons p r ih =>
    obtain ⟨v, hv, i, hi, e⟩ := hr p (by simp)
    obtain ⟨_, q⟩ := grown_reach w n h v (b2n p.2) i hv (by cases p.2 <;> decide) hi
    rw [List.foldl_cons]
    simp only [e, q, grown_dir, Bool.and_true]
    exact ih fun y hy => hr y (by simp [hy])

/-- The descriptor of block 0 of pool 3 is settled. -/
theorem grown_settle {x l} (w n) (h : Apart x l) (m : Move) (hm : m.lbn = 0) (d : DWord) :
    ((grown x l w n).settleDesc (moving.pool 3) m d).isSome = true := by
  have a : (moving.pool 3).descAddr 0 = BitVec.ofNat 64 (5 * 4096 + 64 * 0) ∧ (moving.pool 3).ctx.toNat = 0 := by decide +kernel
  obtain ⟨g, r0⟩ := grown_reach w n h 5 0 0 (by decide) (by decide) (by decide)
  obtain ⟨_, r1⟩ := grown_reach w n h 5 1 0 (by decide) (by decide) (by decide)
  have np (k : Nat) (hk : k < 0x21F00) := grown_poisoned w n h k hk
  unfold State.settleDesc State.managerDesc State.managerWords State.managerWrite
  rw [hm, a.1, a.2, g, r0, r1]
  simp only [Bool.not_true, Bool.false_eq_true, if_false]
  rw [if_neg, Option.bind_some, if_neg]
  · rfl
  · simp only [List.any_eq_true, not_exists, not_and]
    intro k hk
    unfold wordsAt at hk
    rw [List.mem_map] at hk
    obtain ⟨j, hj, rfl⟩ := hk
    rw [List.mem_range] at hj
    rw [np _ (by simp [words2, bytesOf] at hj; omega)]
    decide
  · simp only [List.any_eq_true, List.mem_range, not_exists, not_and]
    intro j hj
    rw [np _ (by omega)]
    decide

/-- A page that is copied and published; and one whose old lines are poisoned. -/
theorem witness_PoolAndWorkQueueEvents_publishes :
    let m : Move := { pool := 3, lbn := 0, cls := 0, old := 0x7000, dst := 0x6000 }
    Map.find? moving.eng.moves 0 = some m ∧ moving.moveReady m = (moving, true) ∧
    (∃ u v, moving.moveLines 0 m.old m.dst 0 (64 * (m.cls + 1)) = some u ∧ u.settleDesc (moving.pool 3) m m.dst = some v) ∧
    (let u := moving.setMem { moving.mem with poison := [0x22001] }
     u.moveReady m = (u, true) ∧ u.moveLines 0 m.old m.dst 0 (64 * (m.cls + 1)) = none ∧
     ∃ v, u.settleDesc (moving.pool 3) m m.old = some v) := by
  intro m
  have lines : ∀ p ∈ (pageLines m.old m.cls).map (·, false) ++ (pageLines m.dst m.cls).map (·, true) ++
      [((moving.pool 3).descAddr m.lbn, true), (((moving.pool 3).bitOf ((moving.pool 3).pageAt m.cls m.old)).1, true),
        (((moving.pool 3).bitOf ((moving.pool 3).pageAt m.cls m.dst)).1, true)],
      ∃ v ∈ [5, 6, 7], ∃ i < 64, p.1 = BitVec.ofNat 64 (v * 4096 + 64 * i) := by
    have page (v : Nat) (hv : v ∈ [5, 6, 7]) (b : Bool) : ∀ p ∈ (pageLines (BitVec.ofNat 64 (v * 4096)) 0).map (·, b),
        ∃ v ∈ [5, 6, 7], ∃ i < 64, p.1 = BitVec.ofNat 64 (v * 4096 + 64 * i) := by
      intro p hp
      simp only [pageLines, List.map_map, List.mem_map, List.mem_range, Function.comp] at hp
      obtain ⟨i, hi, rfl⟩ := hp
      exact ⟨v, hv, i, hi, line_addr v i⟩
    intro p hp
    rw [List.mem_append, List.mem_append] at hp
    obtain (hp | hp) | hp := hp
    · exact page 7 (by decide) false p hp
    · exact page 6 (by decide) true p hp
    · have r : (moving.pool 3).descAddr m.lbn = BitVec.ofNat 64 (5 * 4096 + 64 * 0) ∧
          ((moving.pool 3).bitOf ((moving.pool 3).pageAt m.cls m.old)).1 = BitVec.ofNat 64 (5 * 4096 + 64 * 16) ∧
          ((moving.pool 3).bitOf ((moving.pool 3).pageAt m.cls m.dst)).1 = BitVec.ofNat 64 (5 * 4096 + 64 * 16) := by
        decide +kernel
      simp only [List.mem_cons, List.not_mem_nil, or_false] at hp
      rcases hp with rfl | rfl | rfl
      · exact ⟨5, by decide, 0, by decide, r.1⟩
      · exact ⟨5, by decide, 16, by decide, r.2.1⟩
      · exact ⟨5, by decide, 16, by decide, r.2.2⟩
  have a0 : Apart [] moving.mem.l2 := ⟨by decide, fun _ _ => rfl⟩
  have a1 : Apart [0x22001] moving.mem.l2 := ⟨by decide, fun _ _ => rfl⟩
  obtain ⟨l, w, n, h, e⟩ := grown_lines moving.mem.writes moving.mem.written a0 64 0 (by decide)
  obtain ⟨v, hv⟩ := Option.isSome_iff_exists.mp (grown_settle w n h m rfl m.dst)
  obtain ⟨v1, hv1⟩ := Option.isSome_iff_exists.mp (grown_settle moving.mem.writes moving.mem.written a1 m rfl m.old)
  refine ⟨by decide +kernel, grown_ready moving.mem.writes moving.mem.written a0 _ lines, ⟨_, v, e, hv⟩,
    grown_ready moving.mem.writes moving.mem.written a1 _ lines, by decide +kernel, v1, hv1⟩

theorem witness_PoolAndWorkQueueEvents_pulls :
    let x : Pull := { core := 0, ctx := 0, dst := 0x5000, slot := none, item := some [7, 0, 0, 0, 0, 0, 0, 0], parked := none }
    let s := (wqueued [] []).setWq 5 { (wqueued [] []).wq 5 with pulls := [x] }
    (((s.wqAssign 5).wq 5).pulls.find? fun x => x.item.isSome && x.parked.isNone) = some x ∧
    ((s.wqAssign 5).engineWrite 0 0 { rank := 1, since := (s.wqAssign 5).mem.written } 0x5000 ([7, 0, 0, 0, 0, 0, 0, 0].flatMap bytesOf)).2 = .ok [] := by decide +kernel

/-! ### Trust, the responder and power -/

/-- A machine whose trust core has an identity or none, with arguments in its command registers, world 5 in state `st`. -/
def trusting (present : Bool) (st : WorldState) (a0 a1 a2 : DWord) : State :=
  let s := lab [] []
  s.setTrust { s.trust with
    cmd := { s.trust.cmd with arg0 := a0, arg1 := a1, arg2 := a2 }, ident := { s.trust.ident with present := present },
    worlds := Map.set s.trust.worlds 5 { World.init with st := st, limit := [9, 9, 9, 9] } }

/-- The same with a sweep of world 5 running, or of worlds 20 to 23. -/
def sweeping (own : Bool) : State :=
  let s := trusting true .live 0 0 0
  let x := { World.init with st := .live, sp := some 0 }
  s.setTrust { s.trust with worlds := (if own then [5] else [20, 21, 22, 23]).foldl (fun m w => Map.set m w x) s.trust.worlds }

theorem witness_TrustWorldCommands :
    (lab [] []).trust.cmd.run = none ∧ (lab [] []).trust.ident.present = false ∧ (trusting true .free 0 0 0).trust.ident.present = true ∧
    ((trusting true .free 0 0 0).world 5).st = .free ∧ ((trusting true .live 0 0 0).world 5).st ≠ .free ∧
    (trusting true .live 0 0 0).contextsOf 5 = [] ∧
    (let s := (trusting true .live 0 0 0).modCtx 0 fun c => { c with world := 5 }
     s.contextsOf 5 ≠ []) ∧
    (let s := trusting true .live 0 0 0
     let v := (s.trustBegin 5 2).setWorld 5 { s.world 5 with st := .closing }
     (v.releasePages (v.pagesOfWorld 5)).2 = true) ∧
    ((trusting true .live 1 0 0).trust.cmd.arg0.toNat % 4096 ≠ 0 ∧ (trusting true .free 0 0 0).trust.cmd.arg0.toNat % 4096 = 0) ∧
    (let s := trusting true .live 0x40000 1 0
     let t := s.trustBegin 5 3
     s.trust.cmd.arg1 = 1 ∧ (t.potAt 0x40).sys = false ∧ (t.potAt 0x40).world = 0 ∧ t.isDev (0x40 * 4096) = true ∧
     ((s.world 5).used.getD 3 0).toNat + 1 ≤ ((s.world 5).limit.getD 3 0).toNat ∧ (t.pagesReady [0x40]).2 = true) ∧
    (sweeping true).sweeps = 1 ∧ ((sweeping true).world 5).sp = some 0 ∧ 0 + 64 * 1 < (sweeping true).devBytes ∧ ((sweeping false).world 5).sp = none ∧
    4 ≤ (sweeping false).sweeps ∧ ((trusting true .live 0 0 0).world 5).sp = none ∧ (trusting true .live 0 0 0).sweeps < 4 := by
  decide +kernel

/-- A signature is known or it is not: its check is a value that the model leaves open. -/
theorem witness_TrustRecordCommands_signature (args : List Nat) : Config.cryptoOk 1 args = true ∨ Config.cryptoOk 1 args = false := by
  cases Config.cryptoOk 1 args <;> simp

/-- World 5 is LIVE on an expander; slot 1 of the chains is locked or free; session 9 of world 1 is open. -/
def recording (fitX locked : Bool) : State :=
  let s := { trusting true .live 1 64 64 with fitX := fitX }
  s.setTrust { s.trust with
    conns := if locked then [(0, { Conn.init with lock := some 1 })] else [], nd := [{ num := 9, world := 1, key := 0, next := 1, last := 0 }] }

theorem witness_TrustRecordCommands :
    (let s := recording true false
     s.trust.cmd.run = none ∧ s.trust.ident.present = true ∧ s.trust.cmd.arg1.toNat = 64 ∧ s.trust.cmd.arg2.toNat = 64 ∧
     (s.world 5).st = .live ∧ s.trust.cmd.arg0.toNat = 1 ∧ s.slotLocked 1 = false ∧ (recording true true).slotLocked 1 = true) ∧
    ((recording true false).fitX = true ∧ (recording false false).fitX = false ∧ (trusting false .live 0 0 0).trust.ident.present = false) ∧
    (bitsOf (trusting true .live 0 0 0).trust.cmd.arg1.toNat 4 0 < 4 ∧ bitsOf (trusting true .live 0 4 0).trust.cmd.arg1.toNat 4 0 = 4) ∧
    ((trusting true .live 1 5 0).trust.cmd.arg0.toNat < 2 ∧ (trusting true .live 1 5 0).trust.cmd.arg1.toNat < 64) ∧
    (let s := { lab [] [] with ticks := 1000000 }
     (s.world 1).lastPeriodic + 1000000 ≤ s.ticks.toNat ∧ ∃ c ∈ s.contextsOf 1, (s.ctx c).resident = true) ∧
    ((0x80000009 : Word).getLsbD 31 = true ∧ ((lab [] []).ctx 0).tag.busy = false) ∧
    (let tag := fun (n : BitVec 16) => (recording true false).modCtx 0 fun x => { x with tag := { x.tag with under := n, busy := true } }
     ((tag 9).ctx 0).tag.busy = true ∧ (tag 8).tagSession 0 = none ∧ ((tag 9).tagSession 0).isSome = true) := by decide +kernel

/-- Connection 0 in a state, with a handshake pending or `n` sessions open, and a chain in slot 2. -/
def speaking (st : SpdmState) (pending : Option (Nat × Option Nat)) (n : Nat) : State :=
  let s := trusting true .live 0 0 0
  s.setTrust { s.trust with
    ident := { s.trust.ident with chains := [(2, (100, 0))] },
    conns := [(0, { Conn.init with st := st, pending := pending, sessions := List.range n })] }

/-- A block of an expander's memory is offered to world 5, which has a quota for it, or a page stands given to it. -/
def offering (given : Bool) : State :=
  let s := { trusting true .live 0 0 0 with fitX := true }
  s.setTrust { s.trust with
    worlds := Map.set s.trust.worlds 5 { s.world 5 with limit := [9, 9, 9, 0x10000] }
    extents := if given then [(0x40000, 1, 5)] else [] }

/-- Where no region is host-coherent, no page has a holder to wait for. -/
theorem witness_ResponderAndDynamicCapacity_ready (l : List Nat) : (offering false).pagesReady l = (offering false, true) := by
  have line (pa : Nat) : (offering false).dirAccess pa true false = (offering false, true) := by
    have i1 : (offering false).inMove pa = false := rfl
    have i2 : (offering false).isHc pa = false := by
      unfold State.isHc
      simp [show (offering false).mem.hc = [] from rfl]
    have i3 (a : Ask) : (offering false).dropAsk a = offering false := rfl
    unfold State.dirAccess
    simp [i1, i2, i3]
  have lines (pp : Nat) (r : List Nat) : r.foldl (fun acc i =>
      let (s1, ok) := acc.1.dirAccess (pp * 4096 + 64 * i) true false
      (s1, acc.2 && ok)) (offering false, true) = (offering false, true) := by
    induction r with
    | nil => rfl
    | cons i r ih => simpa [line] using ih
  unfold State.pagesReady
  induction l with
  | nil => rfl
  | cons pp l ih =>
    rw [List.foldl_cons]
    simpa [State.pageReady, lines] using ih

theorem witness_ResponderAndDynamicCapacity :
    ((speaking .versioned none 0).conn 0).st = .versioned ∧ ((speaking .caps none 0).conn 0).st = .caps ∧
    ((speaking .ready none 0).conn 0).st = .ready ∧ (speaking .ready none 0).trust.ident.present = true ∧
    (lab [] []).trust.ident.present = false ∧ (Map.find? (speaking .ready none 0).trust.ident.chains 2) = some (100, 0) ∧
    (let t := fun n => (speaking .ready none n).setConn 0 { (speaking .ready none n).conn 0 with pending := none, lock := none }
     16 ≤ (t 16).openCount ∧ (t 0).openCount < 16) ∧
    (((speaking .ready none 0).conn 0).chal = none ∧
      (let s := speaking .ready none 0
       ((s.setConn 0 { s.conn 0 with chal := some (2, 7) }).conn 0).chal = some (2, 7))) ∧
    (((speaking .ready none 0).conn 0).pending = none ∧ ((speaking .ready (some (3, none)) 0).conn 0).pending = some (3, none)) ∧
    ((lab [] []).extentOk 5 0x40000 1 = false ∧ (lab [] []).extentOk 5 0x10000000 0x10000 = false ∧
      (offering false).extentOk 5 0x10000000 0x10000 = true) ∧
    (64 ≤ (64 : BitVec 128).toNat ∧ (0x40000, 1, 5) ∈ (offering true).trust.extents ∧
      ((offering true).releasePages ((List.range 1).map (0x40000 / 4096 + ·))).2 = true) := by decide +kernel

/-- A machine with its power registers changed, a temperature in eighths of a degree, and ticks. -/
def powered (f : Power → Power) (temp : BitVec 16 := 0) (ticks : DWord := 0) : State :=
  let s := State.reset
  { s.setPower (f s.power) with status := { s.status with temp := temp }, ticks := ticks }

theorem witness_PowerEvents :
    (powered id).pointStable 0 = true ∧ (powered fun p => { p with capped := [(0, 3)] }).pointStable 0 = false ∧
    (powered id).excess = false ∧ (powered id 841).excess = true ∧ (powered id 841).power.lastStep = none ∧
    (powered fun p => { p with lastStep := some 5 }).ticks.toNat < 5 + 100000 ∧
    (let s := powered (fun p => { p with cap := true, coolSince := some 5 }) 0 1000005
     s.power.coolSince = some 5 ∧ s.power.cap = true ∧ s.excess = false ∧ 5 + 1000000 ≤ s.ticks.toNat) ∧
    (let s := powered (fun p => { p with cap := true, coolSince := some 5 }) 0 1000004
     s.ticks.toNat < 5 + 1000000) ∧
    (powered fun p => { p with exiting := some 0 }).power.exiting.isSome = true ∧ (powered id).power.exiting = none ∧
    ((1999 : Word).toNat < exitLatency (powered fun p => { p with pstate := 2 }).power.pstate.toNat) ∧
    (exitLatency (powered id).power.pstate.toNat ≤ (2000 : Word).toNat ∧ 2000 ≤ (2000 : Word).toNat ∧ (1999 : Word).toNat < 2000) ∧
    (let s := powered fun p => { p with ltol := 2000 }
     s.power.gated.toNat.testBit 0 = false ∧ s.clusterIdle 0 = true ∧ 2000 ≤ s.power.ltol.toNat) ∧
    (let s := powered (fun p => { p with gated := BitVec.allOnes 14, ltol := 20000 }) 0 5000
     s.power.pstate = 0 ∧ s.quietDevice = true ∧ s.power.gatedSince + 5000 ≤ s.ticks.toNat ∧ 20000 ≤ s.power.ltol.toNat) ∧
    (let s := powered (fun p => { p with pstate := 2, ltol := 150000 }) 0 10000
     s.power.pstate = 2 ∧ s.power.quietSince + 10000 ≤ s.ticks.toNat ∧ 150000 ≤ s.power.ltol.toNat) := by decide +kernel

theorem witness_StartsAndContexts :
    ({ State.reset with status := { State.reset.status with pwrgd := false } } : State).status.pwrgd = false ∧
    (let s := { State.reset with status := { State.reset.status with state := 1 } }
     s.status.pwrgd = true ∧ s.status.state ≠ 0) ∧ State.reset.power.pstate = 0 ∧
    (State.reset.ctx 3).created = false ∧ rootRefused 0 0 = true ∧ rootRefused 0xA000000000000010 1 = false ∧
    (State.reset.world 1).st = .live ∧ State.reset.coresFree [2, 3] = true ∧ ((lab [] []).ctx 0).created = true ∧
    ((lab [] []).finishMoves 0).2 = true ∧ ((lab [] []).ctx 9).created = false := by decide +kernel

/-! ### Encodings, steps and exceptions -/

/-- Every form of word has instructions that meet the hypotheses of the round trip. -/
theorem witness_DecodeEncode :
    let meets := fun (v : Nat) (i : Instr) => i.form.isEvent = false ∧ i.wf v = true ∧ i.form.scope < 3 ∧ absentIn v ((encode i).headD 0) = false
    meets 3 (.iadd (oA 2 0 1)) ∧ meets 3 (.iadd (oA 2 31 1 7)) ∧ meets 3 (.imad (oT 3 0 1 2)) ∧ meets 3 (.ld .dflt (oM 2 20 31 1 8)) ∧
    meets 3 (.addi (oI 2 16 100)) ∧ meets 3 (.bra { c := 0, s := 0, g := 2, n := 1, off := 0x7FFFD }) ∧
    meets 3 (.kvx { s := 0, d := 4, seq := 1, pos := 2, pm := 3, pin := 1, pool := 5, od := 6, rsv1 := 0, rsv2 := 0 }) ∧
    meets 1 (.iadd (oA 2 0 1)) := by decide +kernel

theorem witness_SourceCodes :
    (¬ ((8 : BitVec 5).toNat < 8 ∧ (0 : BitVec 5).toNat < 8)) ∧ (¬ ((0 : BitVec 5).toNat < 8 ∧ (0 : BitVec 5).toNat = 28)) ∧
    (¬ (28 : BitVec 5).toNat < 8) ∧ (0 : BitVec 5).toNat < 8 ∧ (28 : BitVec 5).toNat = 28 ∧ (Instr.iadd (oA 2 30 1)).form = .a 0x10 0 (oA 2 30 1) ∧
    (match decodeInstr 3 0 nopWord nopWord with
      | some i => !i.wf 3 && !i.form.chained
      | none => false) = true := by decide +kernel

/-- The state of `lab` with a turn on the agenda. -/
def turning (t : Turn) : State := { lab [] [] with agenda := [t, .issue 0 0] }

/-- The state in which the word of a turn issues. -/
def turned : State := ({ turning (.issue 0 0) with agenda := [.issue 0 0], focus := (0, 0) } : State).passCycle

/-- The three NOP words of the test states, as they decode. -/
def nops : List SlotWord :=
  match decodePacket 3 [nopWord, nopWord, nopWord] with
  | .words l => l
  | .bad _ _ => []

def nopSlot (n : Nat) : SlotWord := { idx := n, instr := .nop { oA 16 28 28 with c := 0 }, chained := false }

def firstGroup : Group := { lanes := [0], pc := 0, w := 0, words := [], run := 0, left := 0, sw := false, runs := false, stall := false }

theorem witness_StepRunsTheWord_atWord : turned.AtWord firstGroup nops (nopSlot 0) [] where
  core := by decide +kernel
  part := by decide +kernel
  serves := by decide +kernel
  going := by decide +kernel
  group := by decide +kernel
  here := by decide +kernel
  stays := by decide +kernel
  unmerged := by
    intro st h
    have e : (turned.part turned.fpart).stream = some { addr := 0, groups := [firstGroup], cur := 0 } := by decide +kernel
    rw [e] at h
    cases h
    decide +kernel
  fresh := by decide +kernel
  fetched := by decide +kernel
  decoded := by decide +kernel
  chain := by decide +kernel
  notDue := by decide +kernel
  metUp := by decide +kernel

/-- A group inside a chain of two words. -/
def chaining : State := (lab [] []).modGroup 0 fun g => { g with words := [nopWord, nopWord, nopWord], left := 1, runs := true, w := 1 }

theorem witness_StepRunsTheWord :
    (turning (.issue 0 0)).midChain = false ∧ (turning (.issue 0 0)).agenda = .issue 0 0 :: [.issue 0 0] ∧
    (chaining.midChain = true ∧ (match chaining.issue with | .word _ _ _ => true | _ => false) = true ∧ chaining.group.isSome = true) ∧
    ((turning (.event (.select 0 0))).midChain = false ∧
      (turning (.event (.select 0 0))).agenda = .event (.select 0 0) :: [.issue 0 0] ∧
      (Instr.select 0 0).form.isEvent = true) := by decide +kernel

/-- The machine after reset, with an event to come. -/
theorem witness_StepKeepsSettled :
    let s := { State.reset with agenda := [.event (.select 0 0)] }
    s.Settled ∧ after (step s) (fun _ => true) = true := by
  refine ⟨⟨fun p q h => ?_, fun cl _ h => ?_, fun l h => ?_⟩, by decide +kernel⟩
  · exact absurd h (by simp [State.reset, Fabric.init, Map.find?])
  · exact absurd h (by simp [State.reset, Power.init])
  · exact absurd h (by simp [State.reset, Engines.init])

theorem witness_TrapEntry :
    (((lab [] []).thread 0).trec.intrap = false ∧ ((lab [] []).thread 0).st = .streaming) ∧
    (((lab [] []).modThread 0 fun t => { t with trec := { t.trec with intrap := true } }).thread 0).trec.intrap = true := by
  decide +kernel

theorem witness_OperandTraps :
    let s := lab [0x5001, 0, 0] []
    s.Sole 7 0 ∧ (s.thread 0).view.tags = [] ∧ s.readCodes 0 0 [9, 1] = .bad ∧ (s.thread 0).dstOk (.vec 1 9) = false ∧
    (0 : BitVec 2) ≠ 3 ∧ s.Ready 7 (addrCodes (oM 2 0 28)) 0 (.vec 1 2) (fun _ => [0x5001, 0, 0]) ∧
    isGlobal (eaOf [0x5001, 0, 0] 1) = true ∧ (eaOf [0x5001, 0, 0] 1).toNat % sizeBytes 0 ≠ 0 := by decide +kernel

theorem witness_TrapRecordWindow :
    (13 : Nat) < Config.clusters ∧ ((lab [] []).thread (threadKey (yardKey (4 * 13 + 3) 127) 63)).trec.b.length = 4 := by decide +kernel

theorem witness_ResultFrame :
    let s := labs 2 [1, 2, 3] []
    2 ∉ s.here.lanes ∧ 0 ∈ s.here.lanes ∧ (s.thread 0).guard 7 = true ∧ (s.thread 0).guard 0 = false ∧ ([5] : List Word).length ≤ 1 := by
  decide +kernel

theorem witness_StoresAndLoads :
    let s := lab [] []
    let t := s.setMem { s.mem with writes := [(0x20000, [{ rank := coreOf 0 + 1, num := 1, mask := 15, val := 7 }])] }
    t.mem.bytes.wf = true ∧ spaceOf (BitVec.ofNat 64 (chipKey 1 0 64)) ≠ 2 ∧ 0x20000 < 2 ^ 56 ∧ t.caches 0x20000 = true ∧ t.keepsWrites 0x20000 = true ∧
    0x20000 % 4 = 0 ∧ Map.getD t.mem.writes 0x20000 [] ≠ [] ∧ ∀ x ∈ Map.getD t.mem.writes 0x20000 [], x.rank = coreOf 0 + 1 := by
  decide +kernel

theorem witness_DispatchRefusal :
    let s := lab [] []
    (s.yard 0).resident = true ∧ (s.yard 9).resident = false ∧ (s.yard 9).bind.valid = false ∧ (0x8000140000000001 : DWord).getLsbD 63 = true ∧
    ((s.core 0).ctx = some (bindOf 0 0 0 0x8000140000000001).context.toNat ∧
      (bindOf 0 0 0 0x8000140000000001).world = (s.ctx 0).world) ∧ (bindOf 0 0 0 0x8000140000000000).lanes = 0 := by decide +kernel

theorem witness_DebugReach :
    (debugged .eligible).debugTarget 0 = some 0 ∧ ((debugged .eligible).thread 0).st ≠ .stopped ∧
    ((lab [] []).core ((lab [] []).ctx 1).dbg.core.toNat).ctx ≠ some 1 := by decide +kernel

/-! ### Decoding: words written out from the encoding chapters (02, 04 to 09, 11 to 14, 16, 18) -/

theorem test_decode_control :
    decodeWords 3 [0x00439CE0] = some (.nop { c := 0, s := 0, d := 16, a := 28, b := 28, g := 7, lit := 0 }) ∧
    decodeWords 3 [0x00439CE2] = some (.exit { c := 0, s := 0, d := 16, a := 28, b := 28, g := 7, lit := 0 }) ∧
    decodeWords 3 [0x00AFFFFD] = some (.bra { c := 0, s := 0, g := 2, n := 1, off := 0x7FFFD }) ∧
    decodeWords 3 [0x22105FE1, 0x20001] = some (.segfetch { c := 0, s := 1, d := 4, a := 2, b := 31, g := 7, lit := 131073 }) ∧
    decodeWords 3 [0x03109CE0] = some (.fwait { c := 0, s := 0, d := 4, a := 4, b := 28, g := 7, lit := 0 }) := by
  decide +kernel

theorem test_decode_registers :
    decodeWords 3 [0x04140080, 0, 0x20000] = some (.stage {
      s := 0, nv := 1, nu := 1, vbase0 := 0, vlen0 := 2, rsv0 := 0, vbase1 := 0, vlen1 := 0,
      vbase2 := 0, vlen2 := 0, vbase3 := 0, vlen3 := 0, ubase0 := 0, ulen0 := 1, ubase1 := 0, ulen1 := 0, rsv2 := 0 }) ∧
    decodeWords 3 [0x06045CF8] = some (.spillv { c := 0, s := 0, d := 1, a := 2, x := 28, g := 7, sz := 3, lit := 0 }) := by
  decide +kernel

theorem test_decode_integer :
    decodeWords 3 [0x08841FE8, 3] = some (.imul { c := 0, s := 0, d := 1, a := 0, b := 31, g := 7, lit := 3 }) ∧
    decodeWords 3 [0x0A8A0064] = some (.addi { c := 0, s := 0, d := 2, a := 16, imm := 100 }) := by
  decide +kernel

theorem test_decode_float :
    decodeWords 3 [0x0E0870F8] = some (.fcvtBf16F32 { c := 0, s := 0, d := 2, a := 3, b := 16, g := 7, lit := 0 }) := by
  decide +kernel

theorem test_decode_exchange :
    decodeWords 3 [0x10083FE3, 0x10] = some (.shflFlip { c := 0, s := 0, d := 2, a := 1, b := 31, g := 7, lit := 16 }) ∧
    decodeWords 3 [0x10905CE4] = some (.ballot { c := 0, s := 0, d := 4, a := 2, b := 28, g := 7, lit := 0 }) := by
  decide +kernel

theorem test_decode_memory :
    decodeWords 3 [0x120A9FE8, 8] = some (.ld .dflt { c := 0, s := 0, d := 2, a := 20, x := 31, g := 7, sz := 1, lit := 8 }) ∧
    decodeWords 3 [0x120A81E4] = some (.st .dflt { c := 0, s := 0, d := 2, a := 20, x := 1, g := 7, sz := 0, lit := 0 }) ∧
    decodeWords 3 [0x14069FE8, 0x80] = some (.atomOrdered .add { c := 0, s := 0, d := 1, a := 20, x := 31, g := 7, sz := 1, lit := 128 }) ∧
    decodeWords 3 [0x14C39CE2] = some (.fence { c := 0, s := 0, d := 16, a := 28, x := 28, g := 7, sz := 0, lit := 0 }) := by
  decide +kernel

theorem test_decode_coherence :
    decodeWords 3 [0x15429FE2, 0x40] = some (.cwb { c := 0, s := 0, d := 16, a := 20, x := 31, g := 7, sz := 0, lit := 64 }) ∧
    decodeWords 3 [0x150A9FEB, 0x1000] = some (.handoff { c := 0, s := 0, d := 2, a := 20, x := 31, g := 7, sz := 1, lit := 4096 }) := by
  decide +kernel

theorem test_decode_translation :
    decodeWords 3 [0x16105FE1, 1] = some (.tlbprobe { c := 0, s := 0, d := 4, a := 2, b := 31, g := 7, lit := 1 }) := by
  decide +kernel

theorem test_decode_async :
    decodeWords 3 [0x18069FE0, 0x40] = some (.copy { c := 0, s := 0, d := 1, a := 20, x := 31, g := 7, sz := 0, lit := 64 }) ∧
    decodeWords 3 [0x18C05FE2, 1] = some (.tasksig { c := 0, s := 0, d := 16, a := 2, b := 31, g := 7, lit := 1 }) := by
  decide +kernel

theorem test_decode_matrix :
    decodeWords 3 [0x194298E0] = some (.mseta { c := 0, s := 0, d := 16, a := 20, b := 24, g := 7, lit := 0 }) ∧
    decodeWords 3 [0x1A169FE0, 0x40] = some (.mldb { c := 0, s := 0, d := 5, a := 20, x := 31, g := 7, sz := 0, lit := 64 }) := by
  decide +kernel

theorem test_decode_keyvalue :
    decodeWords 3 [0x1A902275, 0x30000000, 0] = some (.kvx {
      s := 0, d := 4, seq := 1, pos := 2, pm := 3, pin := 1, pool := 5, od := 6, rsv1 := 0, rsv2 := 0 }) ∧
    decodeWords 3 [0x1B0C34E2] = some (.kvpin { c := 0, s := 0, d := 3, a := 1, b := 20, g := 7, lit := 0 }) := by
  decide +kernel

theorem test_decode_system :
    decodeWords 3 [0x1C105FE0, 1] = some (.sysc { c := 0, s := 0, d := 4, a := 2, b := 31, g := 7, lit := 1 }) ∧
    decodeWords 3 [0x3C439CE1] = some (.fencec { c := 0, s := 1, d := 16, a := 28, b := 28, g := 7, lit := 0 }) ∧
    decodeWords 3 [0x1CC3FCE3, 7] = some (.halt { c := 0, s := 0, d := 16, a := 31, b := 28, g := 7, lit := 7 }) := by
  decide +kernel

/-- Words that no instruction has (Table 2-6). -/
theorem test_decode_refused :
    decodePacket 3 [0, nopWord, nopWord] = .bad 0 0x02 ∧
    decodePacket 3 [0x03800000, nopWord, nopWord] = .bad 0 0x01 ∧
    decodePacket 3 [nopWord, 0x04000000, nopWord] = .bad 1 0x01 := by decide +kernel

/-! ### Ill-formed terms: one for each check of WellFormed -/

/-- Sources: code 30 in version 1, an odd pair and the zero pair, a slot that is not a vector slot, predicate 8, quads that are
not aligned, a constant where a staged slot is asked for, a literal in KVX, and an unused field that is not 28. -/
theorem test_wf_sources :
    (Instr.iadd (oA 2 30 1)).wf 1 = false ∧ (Instr.iadd (oA 2 30 1)).wf 2 = true ∧
    (Instr.add64 (oA 2 1 0)).wf 3 = false ∧ (Instr.add64 (oA 2 28 0)).wf 3 = false ∧ (Instr.shflAt (oA 2 20 0)).wf 3 = false ∧
    (Instr.pnot (oA 2 8 28)).wf 3 = false ∧ (Instr.mxpack (oA 2 2 0)).wf 3 = false ∧ (Instr.mseta (oA 16 21 24)).wf 3 = false ∧
    SrcKind.staged.ok 3 28 = false ∧ SrcKind.noLit.ok 3 31 = false ∧ (Instr.iabs (oA 2 0 0)).wf 3 = false := by decide +kernel

/-- Destinations: one where there is none, and for each kind a code that it refuses. -/
theorem test_wf_destinations :
    (Instr.exit (oA 0 28 28)).wf 3 = false ∧ (Instr.sysc (oA 16 0 0)).wf 3 = false ∧ (Instr.add64 (oA 1 0 0)).wf 3 = false ∧
    (Instr.taskdef (oA 16 0 0)).wf 3 = false ∧ (Instr.mxunpk (oA 2 0 0)).wf 3 = false ∧ (Instr.movs (oA 8 0 28)).wf 3 = false ∧
    (Instr.rigdef (oA 1 0 28)).wf 3 = false ∧ (Instr.icmpEq (oA 8 0 0)).wf 3 = false ∧
    (Instr.st .dflt (oM 16 0 28)).wf 3 = false ∧ (Instr.st .dflt (oM 1 0 28 1)).wf 3 = false ∧
    (Instr.st .dflt (oM 2 0 28 2)).wf 3 = false ∧ (Instr.stu .dflt (oM 8 0 28)).wf 3 = false ∧
    (Instr.stu .dflt (oM 1 0 28 1)).wf 3 = false ∧ (Instr.stu .dflt (oM 2 0 28 2)).wf 3 = false ∧
    (Instr.ldu .dflt (oM 2 0 28 2)).wf 3 = false := by decide +kernel

/-- A literal that no field asks for; RIG scope with D[4]; a literal in format I; a negated guard 7; sizes that a word lacks. -/
theorem test_wf_words :
    (Instr.iadd (oA 2 0 1 5)).wf 3 = false ∧ (Instr.voteEvery (oA 2 0 28)).wf 3 = true ∧
    (Instr.shflAt (oA 18 0 0 0 2)).wf 3 = false ∧ (Instr.shflAt (oA 18 0 0 0 1)).wf 3 = true ∧
    (Instr.matchLanes (oA 2 0 28 0 2)).wf 3 = false ∧ (Instr.addi (oI 2 31 0)).wf 3 = false ∧
    (Instr.bra { c := 0, s := 0, g := 7, n := 1, off := 0 }).wf 3 = false ∧ (Instr.ldu .dflt (oM 0 0 28 3)).wf 3 = false ∧
    (Instr.atom .add (oM 1 0 28 1)).wf 3 = false ∧ (Instr.qput (oM 0 0 28 1)).wf 3 = false := by decide +kernel

/-- STAGE: a reserved field, a run that is not counted, a run past its file, the same register twice, g registers in version
1, and more than 16 slots. -/
theorem test_wf_stage :
    let base : StageOp :=
      { s := 0, nv := 1, nu := 0, vbase0 := 0, vlen0 := 2, rsv0 := 0, vbase1 := 0, vlen1 := 0,
        vbase2 := 0, vlen2 := 0, vbase3 := 0, vlen3 := 0, ubase0 := 0, ulen0 := 0, ubase1 := 0, ulen1 := 0, rsv2 := 0 }
    let g : StageOp := { base with nu := 1, ubase0 := 192 }
    (Instr.stage base).wf 3 = true ∧ (Instr.stage { base with rsv0 := 1 }).wf 3 = false ∧
    (Instr.stage { base with vbase1 := 9 }).wf 3 = false ∧ (Instr.stage { base with vbase0 := 254 }).wf 3 = false ∧
    (Instr.stage { base with nv := 2, vbase1 := 2 }).wf 3 = false ∧ (Instr.stage g).wf 1 = false ∧ (Instr.stage g).wf 3 = true ∧
    (Instr.stage { base with nv := 2, vlen0 := 15, vbase1 := 100 }).wf 3 = false ∧ (Instr.stage { base with nv := 5 }).wf 3 = false := by
  decide +kernel

/-- BWAY, MMA and KVX: counts, reserved fields, a negated guard 7, and a descriptor and an offset in one pair. -/
theorem test_wf_long_words :
    let b : BwayOp := { s := 0, np := 1, neg := 0, g0 := 7, t0 := 5, g1 := 0, t1 := 0, g2 := 0, t2 := 0, g3 := 0, t3 := 0, rsv2 := 0 }
    let k : KvxOp := { s := 0, d := 4, seq := 1, pos := 2, pm := 3, pin := 1, pool := 5, od := 6, rsv1 := 0, rsv2 := 0 }
    (Instr.bway b).wf 3 = true ∧ (Instr.bway { b with np := 0 }).wf 3 = false ∧ (Instr.bway { b with np := 5 }).wf 3 = false ∧
    (Instr.bway { b with neg := 1 }).wf 3 = false ∧ (Instr.bway { b with t1 := 4 }).wf 3 = false ∧
    (Instr.bway { b with rsv2 := 1 }).wf 3 = false ∧ (Instr.kvx k).wf 3 = true ∧ (Instr.kvx { k with od := 5 }).wf 3 = false ∧
    (Instr.kvx { k with rsv2 := 1 }).wf 3 = false ∧ (Instr.kvx { k with seq := 31 }).wf 3 = false := by decide +kernel

theorem test_wf_mma :
    let m : MmaOp :=
      { s := 0, hd := 16, fw := 20, bank := 0, rsv0 := 0, nblkm1 := 0, bblk0 := 0, ablk0 := 0, colsm1 := 0, rsv1 := 0, rsv2 := 0 }
    (Instr.mma m).wf 3 = true ∧ (Instr.mma { m with fw := 28 }).wf 3 = false ∧ (Instr.mma { m with rsv0 := 1 }).wf 3 = false ∧
    (Instr.mma { m with rsv1 := 1 }).wf 3 = false ∧ (Instr.mma { m with rsv2 := 1 }).wf 3 = false := by decide +kernel

/-! ### Results that the spec works out -/

/-- 06_integer 6.7: 0xFFFF_FFF0 + 0x20 carries; the pointer to core 3.1; the steps of −512 and 3,840; and ADD64 across cores. -/
theorem test_pointer_step :
    let s := lab [0x100, 0x13400000, 0xFFFFFFF0, 0x20, 0, 0] []
    slotAfter (.addc (oA 4 2 3)) s 4 = some 1 ∧ slotAfter (.iadd (oA 4 2 3)) s 4 = some 0x10 ∧
    slotAfter (.ptag (oA 4 0 31 0x131)) s 5 = some 0x13400000 ∧
    causeAfter (.lea (oI 0 0 0x1E00)) s = some 0x09 ∧ slotAfter (.lea (oI 4 0 0x0F00)) s 4 = some 0x1000 ∧
    slotAfter (.add64 (oA 4 0 31 0xFFFFFE00)) s 5 = some 0x133FFFFF ∧
    slotAfter (.add64 (oA 4 0 31 0xFFFFFE00)) s 4 = some 0xFFFFFF00 := by decide +kernel

/-- 06_integer: a field that would pass bit 31 is cut there (POS 28 and LEN 8 read bits 31:28). -/
theorem test_bit_field_cut :
    slotAfter (.bfxS32 (oA 1 0 31 0x81C)) (lab [0xA0000000, 0] []) 1 = some 0xFFFFFFFA ∧
    slotAfter (.bfxN32 (oA 1 0 31 0x81C)) (lab [0xA0000000, 0] []) 1 = some 0xA := by decide +kernel

/-- 07_float, after Table 7-10: two ties, under RNE, RNA and RZ. -/
theorem test_narrowing_ties :
    let s := lab [0x3F808000, 0x3F818000, 0] []
    let under := fun (rm : BitVec 3) => slotAfter (.fcvtBf16F32 (oA 2 0 1)) (s.modThread 0 fun t => { t with rm := rm }) 2
    under 0 = some 0x3F823F80 ∧ under 4 = some 0x3F823F81 ∧ under 1 = some 0x3F813F80 := by decide +kernel

/-- Table 7-11: −0.3 under RNE and RD. -/
theorem test_natural_of_negative :
    let s := lab [0xBE99999A, 7] []
    let flags := fun (rm : BitVec 3) =>
      after (exec (.fcvtN32F32 (oA 1 0 28)) (s.modThread 0 fun t => { t with rm := rm }))
    flags 0 (fun t => (t.thread 0).ff == 1) = true ∧ flags 2 (fun t => (t.thread 0).ff == 16) = true := by decide +kernel

/-- 13_async R310: offset 32 with the descriptor of the worked copy; and with BITS 0 the offset itself. -/
theorem test_swizzled_offset :
    slotAfter (.swzadr (oA 1 0 31 0x0504)) (lab [32, 0] []) 1 = some 48 ∧
    slotAfter (.swzadr (oA 1 0 31 0x0500)) (lab [32, 0] []) 1 = some 32 := by decide +kernel

/-- 06_integer, the shifts: by 32 the value is 0, and an arithmetic one by 40 fills with the sign. -/
theorem test_wide_shift :
    slotAfter (.shl (oA 1 0 31 32)) (lab [5, 7] []) 1 = some 0 ∧ slotAfter (.sar (oA 1 0 31 40)) (lab [0x80000000, 7] []) 1 = some 0xFFFFFFFF := by
  decide +kernel

/-- 14_matrix Table 14-2: three spans of one block under RNE, and under RU. -/
theorem test_three_spans :
    let block := fun (scale : Nat) => (imagesOf 0 (List.replicate 32 0x38) scale).map fun m => m.pick true
    let blk : Nat → BlockOps := fun n => ([block (if n == 1 then 151 else 127)], [block 127])
    let cell : SpanCell := { i := 0, j := 0, live := true, e := 0, w := 0, sum := (0, 0, 0) }
    let span := fun n => spanFrom blk n true [cell] (3 - n)
    let close := fun (rm : RMode) (acc : Word) (n : Nat) => ((span n).2.map fun c => closeCell rm acc c).headD (0, 0)
    (span 0).1 = 1 ∧ (span 1).1 = 2 ∧ (span 2).1 = 3 ∧ (close .rne 0 0).1 = 0x42000000 ∧ (close .rne 0x42000000 1) = (0x4E000000, 1) ∧
    (close .rne 0x4E000000 2).1 = 0x4E000000 ∧ (close .ru (close .ru 0x42000000 1).1 2).1 = 0x4E000002 := by decide +kernel

/-- 14_matrix Table 14-3: one span of two blocks, −1,020 × 2⁻², onto 0.5. -/
theorem test_scaled_span :
    let fp4 := fun (a b : Nat) (scale : Nat) => (imagesOf 4 ([a, b] ++ List.replicate 30 0) scale).map fun m => m.pick true
    let blk : Nat → BlockOps := fun n => if n == 0 then ([fp4 7 9 127], [fp4 7 7 127]) else ([fp4 15 0 130], [fp4 7 0 127])
    let cell : SpanCell := { i := 0, j := 0, live := true, e := 0, w := 0, sum := (0, 0, 0) }
    let r := spanFrom blk 0 true [cell] 2
    r.1 = 2 ∧ (r.2.map fun c => (readSum c.sum, c.e)) = [(-1020, -2)] ∧
    (r.2.map fun c => closeCell .rne 0x3F000000 c) = [(0xC37E8000, 0)] ∧ crt 3 4 5 = -1020 := by decide +kernel

/-- 01_machine R2 and 03_threads: from reset, an instruction placed where the step fetches runs as the first one. -/
theorem test_first_instruction :
    after (step (State.reset.withFetchWord 32 0x00439CE2)) (fun s => (s.thread 0).st == .exited) = true ∧
    after (step (State.reset.withFetchWord 64 (3 * 2 ^ 32 + 0x08841FE8))) (fun s => (s.thread 0).trec.cause == 2) = true := by
  decide +kernel

/-- 09_memory Table 9-2: a load of a misaligned word, of nothing, and of a page that is mapped. -/
theorem test_loads :
    causeAfter (.ld .dflt (oM 2 0 28)) (lab [0x5002, 0, 0] []) = some 0x08 ∧
    slotAfter (.ld .dflt (oM 2 0 28)) (packeted [(0, 77)] [0x5000, 0, 0] []) 2 = some 77 ∧
    after (exec (.ld .dflt (oM 2 0 28)) (lab [0x4000, 0, 0] [])) (fun s => (s.thread 0).st != .streaming) = true := by decide +kernel

end Sys2Proof.Tests
end

section
/-! Predicate source codes, code 30 of version 1, and what a packet does whose first word fails check 7 (02_encoding R41,
R43, R44). -/

namespace Sys2Proof

/-! ### What a source field accepts -/

theorem SrcKind.pred_ok_iff {v : Nat} {c : BitVec 5} : SrcKind.pred.ok v c = true ↔ c.toNat < 8 := by
  simp [SrcKind.ok]

theorem SrcKind.unused_ok_iff {v : Nat} {c : BitVec 5} : SrcKind.unused.ok v c = true ↔ c.toNat = 28 := by
  simp [SrcKind.ok]

/-- R43: whatever a field names, in version 1 it does not accept code 30. -/
theorem SrcKind.ok_one_30 (k : SrcKind) : k.ok 1 30 = false := by cases k <;> rfl

theorem SrcKind.ne_30_of_ok_one {k : SrcKind} {c : BitVec 5} (h : k.ok 1 c = true) : c ≠ 30 := by
  rintro rfl
  exact Bool.false_ne_true (k.ok_one_30.symm.trans h)

/-! ### The check of each format, field by field -/

theorem wfA_iff {v : Nat} {d : DstKind} {a b : SrcKind} {o : OpA} :
    wfA v d a b o = true ↔
      d.ok o.d = true ∧ a.ok v o.a = true ∧ b.ok v o.b = true ∧ litOk [o.a, o.b] o.lit = true := by
  simp [wfA, and_assoc]

theorem wfT_iff {v : Nat} {d : DstKind} {a b e : SrcKind} {o : OpT} :
    wfT v d a b e o = true ↔
      d.ok o.d = true ∧ a.ok v o.a = true ∧ b.ok v o.b = true ∧ e.ok v o.e = true ∧
        litOk [o.a, o.b, o.e] o.lit = true := by
  simp [wfT, and_assoc]

theorem wfI_iff {v : Nat} {d : DstKind} {a : SrcKind} {o : OpI} :
    wfI v d a o = true ↔ d.ok o.d = true ∧ a.ok v o.a = true ∧ isLit o.a = false := by
  simp [wfI, and_assoc]

theorem wfM_iff {v : Nat} {sizes : List Nat} {d : DstKind} {a x : SrcKind} {o : OpM} :
    wfM v sizes d a x o = true ↔
      sizes.contains o.sz.toNat = true ∧ d.ok o.d = true ∧ a.ok v o.a = true ∧ x.ok v o.x = true ∧
        litOk [o.a, o.x] o.lit = true := by
  simp only [wfM, Bool.and_eq_true, and_assoc]

theorem wfA_of_wfX {v : Nat} {d : DstKind} {a b : SrcKind} {o : OpA} (h : wfX v d a b o = true) :
    wfA v d a b o = true := (Bool.and_eq_true_iff.mp h).1

theorem wfX_eq_false_of_wfA {v : Nat} {d : DstKind} {a b : SrcKind} {o : OpA} (h : wfA v d a b o = false) :
    wfX v d a b o = false := by
  simp [wfX, h]

/-- R194 refuses nothing where the destination code has D[4] = 0. -/
theorem wfX_of_wfA {v : Nat} {d : DstKind} {a b : SrcKind} {o : OpA} (hd : o.d.toNat < 16)
    (h : wfA v d a b o = true) : wfX v d a b o = true := by
  simp [wfX, h, hd]

/-! ### The check of an instruction is the check of its format -/

/-- An accepted word of format A passes the format's check; the exchange words have a condition more. -/
theorem Instr.exists_wfA_of_wf {v : Nat} {i : Instr} {maj fn : Nat} {o : OpA} (hf : i.form = .a maj fn o)
    (h : i.wf v = true) : ∃ d a b, wfA v d a b o = true := by
  cases i with
  | shflAt | shflRot | shflSlide | shflFlip | bcast | voteEvery | voteSome | voteSame | voteOdd | ballot | reduce
  | scanInc | scanExc => cases hf; exact ⟨_, _, _, wfA_of_wfX h⟩
  | matchLanes => cases hf; exact ⟨_, _, _, wfA_of_wfX (Bool.and_eq_true_iff.mp h).1⟩
  | _ => cases hf <;> exact ⟨_, _, _, h⟩

theorem Instr.exists_wfT_of_wf {v : Nat} {i : Instr} {maj : Nat} {o : OpT} (hf : i.form = .t maj o)
    (h : i.wf v = true) : ∃ d a b e, wfT v d a b e o = true := by
  cases i <;> cases hf <;> exact ⟨_, _, _, _, h⟩

theorem Instr.exists_wfM_of_wf {v : Nat} {i : Instr} {maj fn : Nat} {o : OpM} (hf : i.form = .m maj fn o)
    (h : i.wf v = true) : ∃ sizes d a x, wfM v sizes d a x o = true := by
  cases i <;> cases hf <;> exact ⟨_, _, _, _, h⟩

theorem Instr.exists_wfI_of_wf {v : Nat} {i : Instr} {maj : Nat} {o : OpI} (hf : i.form = .i maj o)
    (h : i.wf v = true) : ∃ d a, wfI v d a o = true := by
  cases i <;> cases hf <;> exact ⟨_, _, h⟩

/-! ### Code 30 of version 1, format by format (R43) -/

theorem Instr.ne_30_of_wf_formA {i : Instr} {maj fn : Nat} {o : OpA} (hf : i.form = .a maj fn o)
    (h : i.wf 1 = true) : o.a ≠ 30 ∧ o.b ≠ 30 := by
  obtain ⟨d, a, b, hw⟩ := Instr.exists_wfA_of_wf hf h
  obtain ⟨-, ha, hb, -⟩ := wfA_iff.mp hw
  exact ⟨SrcKind.ne_30_of_ok_one ha, SrcKind.ne_30_of_ok_one hb⟩

theorem Instr.ne_30_of_wf_formT {i : Instr} {maj : Nat} {o : OpT} (hf : i.form = .t maj o)
    (h : i.wf 1 = true) : o.a ≠ 30 ∧ o.b ≠ 30 ∧ o.e ≠ 30 := by
  obtain ⟨d, a, b, e, hw⟩ := Instr.exists_wfT_of_wf hf h
  obtain ⟨-, ha, hb, he, -⟩ := wfT_iff.mp hw
  exact ⟨SrcKind.ne_30_of_ok_one ha, SrcKind.ne_30_of_ok_one hb, SrcKind.ne_30_of_ok_one he⟩

theorem Instr.ne_30_of_wf_formM {i : Instr} {maj fn : Nat} {o : OpM} (hf : i.form = .m maj fn o)
    (h : i.wf 1 = true) : o.a ≠ 30 ∧ o.x ≠ 30 := by
  obtain ⟨sizes, d, a, x, hw⟩ := Instr.exists_wfM_of_wf hf h
  obtain ⟨-, -, ha, hx, -⟩ := wfM_iff.mp hw
  exact ⟨SrcKind.ne_30_of_ok_one ha, SrcKind.ne_30_of_ok_one hx⟩

theorem Instr.ne_30_of_wf_formI {i : Instr} {maj : Nat} {o : OpI} (hf : i.form = .i maj o)
    (h : i.wf 1 = true) : o.a ≠ 30 := by
  obtain ⟨d, a, hw⟩ := Instr.exists_wfI_of_wf hf h
  obtain ⟨-, ha, -⟩ := wfI_iff.mp hw
  exact SrcKind.ne_30_of_ok_one ha

/-- R43, for an instruction of any format: if a source field holds code 30, version 1 refuses it. -/
theorem Instr.wf_one_eq_false_of_30 {i : Instr}
    (h : (∃ o maj fn, i.form = .a maj fn o ∧ (o.a = 30 ∨ o.b = 30)) ∨
      (∃ o maj, i.form = .t maj o ∧ (o.a = 30 ∨ o.b = 30 ∨ o.e = 30)) ∨
      (∃ o maj fn, i.form = .m maj fn o ∧ (o.a = 30 ∨ o.x = 30)) ∨ (∃ o maj, i.form = .i maj o ∧ o.a = 30)) :
    i.wf 1 = false := by
  rw [Bool.eq_false_iff]
  intro hw
  obtain ⟨o, maj, fn, hf, h⟩ | ⟨o, maj, hf, h⟩ | ⟨o, maj, fn, hf, h⟩ | ⟨o, maj, hf, h⟩ := h
  · exact not_or.mpr (Instr.ne_30_of_wf_formA hf hw) h
  · obtain ⟨ha, hbe⟩ := Instr.ne_30_of_wf_formT hf hw
    exact not_or.mpr ⟨ha, not_or.mpr hbe⟩ h
  · exact not_or.mpr (Instr.ne_30_of_wf_formM hf hw) h
  · exact Instr.ne_30_of_wf_formI hf hw h

/-! ### A packet whose first word fails check 7 (R44) -/

theorem decodePacket_eq_bad_of_not_wf {v : Nat} {i : Instr} {w w1 w2 : Word} (hd : decodeInstr v w w1 w2 = some i)
    (hw : i.wf v = false) (hc : i.form.chained = false) : decodePacket v [w, w1, w2] = .bad 0 0x02 := by
  simp [decodePacket, decodeFrom, hd, hw, hc]

/-! ### Predicate sources (R41) -/

/-- The words that combine two predicates. -/
theorem wfA_pred_pred_eq_false {v : Nat} {d : DstKind} {o : OpA} (h : ¬ (o.a.toNat < 8 ∧ o.b.toNat < 8)) :
    wfA v d .pred .pred o = false := by
  rw [Bool.eq_false_iff]
  intro hw
  obtain ⟨-, ha, hb, -⟩ := wfA_iff.mp hw
  exact h ⟨SrcKind.pred_ok_iff.mp ha, SrcKind.pred_ok_iff.mp hb⟩

/-- The words of one predicate, whose B field is unused. -/
theorem wfA_pred_unused_eq_false {v : Nat} {d : DstKind} {o : OpA} (h : ¬ (o.a.toNat < 8 ∧ o.b.toNat = 28)) :
    wfA v d .pred .unused o = false := by
  rw [Bool.eq_false_iff]
  intro hw
  obtain ⟨-, ha, hb, -⟩ := wfA_iff.mp hw
  exact h ⟨SrcKind.pred_ok_iff.mp ha, SrcKind.unused_ok_iff.mp hb⟩

/-- A predicate word with no literal whose fields name predicates. -/
theorem wfA_pred_eq_true {v : Nat} {b : SrcKind} {o : OpA} (ha : o.a.toNat < 8) (hd : o.d.toNat < 8)
    (hl : o.lit = 0) (hb : b.ok v o.b = true) : wfA v .pred .pred b o = true :=
  wfA_iff.mpr ⟨by simpa [DstKind.ok] using hd, SrcKind.pred_ok_iff.mpr ha, hb, by simp [litOk, hl]⟩

/-- The B field of BALLOT depends on the scope; its A field does not. -/
theorem Instr.ballot_wf_eq_false {v : Nat} {o : OpA} (h : ¬ o.a.toNat < 8) : (Instr.ballot o).wf v = false := by
  rw [Bool.eq_false_iff]
  intro hw
  obtain ⟨-, ha, -⟩ := wfA_iff.mp (wfA_of_wfX hw)
  exact h (SrcKind.pred_ok_iff.mp ha)

/-- The C3 field of SEL. -/
theorem Instr.sel_wf_eq_false {v : Nat} {o : OpT} (h : ¬ o.e.toNat < 8) : (Instr.sel o).wf v = false := by
  rw [Bool.eq_false_iff]
  intro hw
  obtain ⟨-, -, -, he, -⟩ := wfT_iff.mp hw
  exact h (SrcKind.pred_ok_iff.mp he)

/-- Settles O49: the field-by-field checks give R41 and R43, and the first word's check 7 decides its packet (R44). -/
theorem sourceCodes : Obligations.SourceCodes := by
  refine ⟨fun v o h => ?_, fun v o h => ?_, fun v o ha hd hl => ⟨fun hb => ?_, fun hb => ?_⟩,
    fun v o => Instr.ballot_wf_eq_false, fun v o => Instr.sel_wf_eq_false, fun i => Instr.wf_one_eq_false_of_30,
    fun v i w w1 w2 => decodePacket_eq_bad_of_not_wf⟩
  · have hw := wfA_pred_pred_eq_false (v := v) (d := .pred) h
    exact ⟨hw, hw, hw⟩
  · have hw := wfA_pred_unused_eq_false (v := v) (d := .pred) h
    have hx := wfX_eq_false_of_wfA hw
    exact ⟨hw, hx, hx, hx, hx⟩
  · have hw := wfA_pred_eq_true (v := v) ha hd hl (SrcKind.pred_ok_iff.mpr hb)
    exact ⟨hw, hw, hw⟩
  · have hw := wfA_pred_eq_true (v := v) ha hd hl (SrcKind.unused_ok_iff.mpr hb)
    have hx := wfX_of_wfA (by omega) hw
    exact ⟨hw, hx, hx, hx, hx⟩

end Sys2Proof
end

section
/-! Dispatch of a bind record (03_threads R64): what a write does to a slot whose yard is resident, and when a record whose
VALID rises is refused. -/

namespace Sys2Proof.Machine

/-! ### What the check of a record asks -/

/-- A field of a word, as the model's numbers and as a bit vector. -/
theorem bitsOf_toNat {w : Nat} (x : BitVec w) (hi lo : Nat) :
    bitsOf x.toNat hi lo = (x.extractLsb' lo (hi + 1 - lo)).toNat := by
  simp [bitsOf, BitVec.extractLsb'_toNat, Nat.shiftRight_eq_div_pow]

theorem bitsOf_toNat_ne_zero_iff {w : Nat} (x : BitVec w) (hi lo : Nat) :
    bitsOf x.toNat hi lo ≠ 0 ↔ x.extractLsb' lo (hi + 1 - lo) ≠ 0 := by
  rw [bitsOf_toNat, ne_eq, ne_eq, ← BitVec.toNat_inj, BitVec.ofNat_eq_ofNat, BitVec.toNat_ofNat, Nat.zero_mod]

/-- The reserved fields of Table 3-2. -/
theorem bindReserved_eq_true_iff (w2 w3 : DWord) :
    bindReserved w2 w3 = true ↔
      w2.extractLsb' 48 16 ≠ 0 ∨ w2.extractLsb' 26 6 ≠ 0 ∨ w3.extractLsb' 56 5 ≠ 0 ∨ w3.extractLsb' 32 4 ≠ 0 ∨
        w3.extractLsb' 7 9 ≠ 0 := by
  simp only [bindReserved, Bool.or_eq_true, bne_iff_ne, bitsOf_toNat_ne_zero_iff, or_assoc]

theorem State.bindRefused_eq_true_iff (s : State) (core : Nat) (b : Bind) :
    s.bindRefused core b = true ↔
      (s.core core).ctx ≠ some b.context.toNat ∨ b.world ≠ (s.ctx b.context.toNat).world ∨ b.version = 0 ∨
        b.lanes = 0 ∨ 64 < b.lanes.toNat ∨ (b.righ ≠ 0 ∧ (b.righ.extractLsb' 30 6).toNat ≤ b.ord.toNat) := by
  simp only [State.bindRefused, righCount, bitsOf_toNat, Bool.or_eq_true, Bool.and_eq_true, bne_iff_ne, beq_iff_eq,
    decide_eq_true_eq, or_assoc]

/-! ### A write, case by case -/

theorem State.exec_bindRecordWrite (s : State) {core slot : Nat} (w0 w1 w2 w3 : DWord) (hc : core < Config.cores)
    (hs : slot < 128) : exec (.bindRecordWrite core slot w0 w1 w2 w3) s = .next (s.writeBind core slot w0 w1 w2 w3) :=
  congrArg Host.Outcome.next (if_pos (by simp [hc, hs]))

theorem State.writeBind_resident (s : State) (core slot : Nat) (w0 w1 w2 w3 : DWord)
    (hr : (s.yard (yardKey core slot)).resident = true) :
    s.writeBind core slot w0 w1 w2 w3 = s.setYard (yardKey core slot) { s.yard (yardKey core slot) with
      bind := { (s.yard (yardKey core slot)).bind with err := true } } := by
  simp only [State.writeBind, hr, if_true]

/-- A write with VALID set to a slot with no resident yard is checked; ERR, which the write clears with a 1 (Table 3-2), is no
part of what the check asks, so the last step is `rfl`. -/
theorem State.writeBind_checked (s : State) (core slot : Nat) (w0 w1 w2 w3 : DWord)
    (hr : (s.yard (yardKey core slot)).resident = false) (hv : w3.getLsbD 63 = true) :
    s.writeBind core slot w0 w1 w2 w3 =
      if bindReserved w2 w3 = true ∨ s.bindRefused core (bindOf w0 w1 w2 w3) = true then
        (s.setYard (yardKey core slot) { s.yard (yardKey core slot) with
          bind := { bindOf w0 w1 w2 w3 with valid := false, err := true }, waiting := false }).send (.report 3 [core, slot])
      else s.setYard (yardKey core slot) { s.yard (yardKey core slot) with
        bind := { bindOf w0 w1 w2 w3 with err := (s.yard (yardKey core slot)).bind.err && !w3.getLsbD 61 },
        waiting := !(s.yard (yardKey core slot)).bind.valid || (s.yard (yardKey core slot)).waiting } := by
  have hb : (bindOf w0 w1 w2 w3).valid = true := hv
  simp only [State.writeBind, hr, hb, Bool.or_eq_true, Bool.not_true, Bool.false_eq_true, if_false]
  rfl

end Sys2Proof.Machine

namespace Sys2Proof
open Sys2Proof.Machine

/-- Settles O59: a write is `State.writeBind`, whose check is the list of R64. -/
theorem dispatchRefusal : Obligations.DispatchRefusal := by
  intro s core slot w0 w1 w2 w3 hc hs y v b err bad
  have hbad : (bindReserved w2 w3 = true ∨ s.bindRefused core b = true) ↔ bad := by
    rw [or_comm, State.bindRefused_eq_true_iff, bindReserved_eq_true_iff]
    simp only [bad, or_assoc]
  rw [State.exec_bindRecordWrite s w0 w1 w2 w3 hc hs]
  refine ⟨fun hr => congrArg _ (State.writeBind_resident s core slot w0 w1 w2 w3 hr), fun hr hv hvalid => ?_⟩
  rw [State.writeBind_checked s core slot w0 w1 w2 w3 hr hvalid]
  refine ⟨fun h => congrArg _ (if_pos (hbad.mpr h)), fun h => congrArg _ ?_⟩
  rw [if_neg (mt hbad.mp h)]
  have hwait : (!v.bind.valid || v.waiting) = true := by simp [hv]
  rw [hwait]

end Sys2Proof
end

section
/-! The debug block: what thread it names, when that thread is its target, and what its commands do without a target or with
one that is not stopped (18_system R384). -/

namespace Sys2Proof.Machine

theorem yardOf_threadKey (y : Nat) {lane : Nat} (h : lane < 64) : yardOf (threadKey y lane) = y := by
  unfold yardOf threadKey
  omega

/-! ### The thread that a debug block names -/

/-- The yard that the fields CORE and YSLOT of a debug block name (Table 18-5). -/
def Debug.yard (d : Debug) : Nat := yardKey d.core.toNat d.yslot.toNat

/-- The thread that the fields CORE, YSLOT and LANE of a debug block name, whether or not the block reaches it. -/
def Debug.thread (d : Debug) : Nat := threadKey d.yard d.lane.toNat

theorem Debug.yardOf_thread (d : Debug) : yardOf d.thread = d.yard := yardOf_threadKey d.yard d.lane.isLt

theorem State.debugTarget_eq_ite (s : State) (c : Nat) :
    s.debugTarget c =
      let d := (s.ctx c).dbg
      if (s.core d.core.toNat).ctx == some c && (s.yard d.yard).resident && s.yardCtx d.yard == c &&
        (s.thread d.thread).st != .unlaunched && (s.thread d.thread).st != .exited then some d.thread else none := rfl

/-- A block's target is the thread it names, and exactly where the core and the yard are the context's and the thread is
launched and has not exited. -/
theorem State.debugTarget_eq_some_iff (s : State) (c k : Nat) :
    s.debugTarget c = some k ↔
      k = (s.ctx c).dbg.thread ∧ (s.core (s.ctx c).dbg.core.toNat).ctx = some c ∧
        (s.yard (s.ctx c).dbg.yard).resident = true ∧ s.yardCtx (s.ctx c).dbg.yard = c ∧
        (s.thread k).st ≠ .unlaunched ∧ (s.thread k).st ≠ .exited := by
  simp only [State.debugTarget_eq_ite, Option.ite_none_right_eq_some, Bool.and_eq_true, beq_iff_eq, bne_iff_ne, and_assoc,
    Option.some.injEq]
  constructor
  · rintro ⟨hcore, hres, hyard, hun, hex, rfl⟩
    exact ⟨rfl, hcore, hres, hyard, hun, hex⟩
  · rintro ⟨rfl, hcore, hres, hyard, hun, hex⟩
    exact ⟨hcore, hres, hyard, hun, hex, rfl⟩

theorem State.ctxOf_of_debugTarget {s : State} {c k : Nat} (h : s.debugTarget c = some k) : s.ctxOf k = c := by
  obtain ⟨rfl, -, -, hyard, -⟩ := (s.debugTarget_eq_some_iff c k).mp h
  rw [State.ctxOf, Debug.yardOf_thread, hyard]

theorem State.debugTarget_eq_none_of_core {s : State} {c : Nat} (h : (s.core (s.ctx c).dbg.core.toNat).ctx ≠ some c) :
    s.debugTarget c = none := by
  rw [Option.eq_none_iff_forall_ne_some]
  intro k hk
  obtain ⟨-, hcore, -⟩ := (s.debugTarget_eq_some_iff c k).mp hk
  exact h hcore

/-! ### Commands that only set ERR -/

theorem exec_debugStop (c : Nat) (s : State) : exec (.debugStop c) s = execDebugStop c s := rfl
theorem exec_debugResume (c : Nat) (s : State) : exec (.debugResume c) s = execDebugResume c s := rfl
theorem exec_debugStep (c : Nat) (s : State) : exec (.debugStep c) s = execDebugStep c s := rfl

theorem exec_debugStop_of_no_target {s : State} {c : Nat} (h : s.debugTarget c = none) :
    exec (.debugStop c) s = .next (s.debugErr c) := by
  rw [exec_debugStop, execDebugStop, h]

theorem exec_debugResume_of_no_target {s : State} {c : Nat} (h : s.debugTarget c = none) :
    exec (.debugResume c) s = .next (s.debugErr c) := by
  rw [exec_debugResume, execDebugResume, h]

theorem exec_debugStep_of_no_target {s : State} {c : Nat} (h : s.debugTarget c = none) :
    exec (.debugStep c) s = .next (s.debugErr c) := by
  rw [exec_debugStep, execDebugStep, h]

theorem exec_debugResume_of_not_stopped {s : State} {c k : Nat} (h : s.debugTarget c = some k)
    (hst : (s.thread k).st ≠ .stopped) : exec (.debugResume c) s = .next (s.debugErr c) := by
  simp only [exec_debugResume, execDebugResume, h, beq_iff_eq, if_neg hst]

/-- ERR of the one block is all that an error changes. -/
theorem State.debugErr_eq (s : State) (c : Nat) :
    s.debugErr c = s.setCtx c { s.ctx c with dbg := { (s.ctx c).dbg with err := true } } := s.modCtx_eq c _

end Sys2Proof.Machine

namespace Sys2Proof
open Sys2Proof.Machine

/-- Settles O60: a target stands in a yard of the context, and a block whose core serves another context has no target. -/
theorem debugReach : Obligations.DebugReach := by
  refine ⟨fun s c k => State.ctxOf_of_debugTarget, fun s c hcore => ?_, fun s c k => exec_debugResume_of_not_stopped,
    State.debugErr_eq⟩
  have hnone : s.debugTarget c = none := State.debugTarget_eq_none_of_core hcore
  exact ⟨exec_debugStop_of_no_target hnone, exec_debugResume_of_no_target hnone, exec_debugStep_of_no_target hnone⟩

end Sys2Proof
end

section
/-! Decoding the words of an encoded instruction (02_encoding R27 to R47): the fields of a form's words give its operands back,
and the opcode map gives the instruction that has the form. -/

namespace Sys2Proof

/-! ### The fields of a form's words -/

/-- The form that the decoder's readers find in three words, where the format, the major and the function are known. -/
def Form.reread (f : Form) (w w1 w2 : Word) : Form :=
  match f with
  | .a maj fn _ => .a maj fn (opA w w1)
  | .t maj _ => .t maj (opT w w1)
  | .i maj _ => .i maj (opI w)
  | .b maj _ => .b maj (opB w)
  | .m maj fn _ => .m maj fn (opM w w1)
  | .stage _ => .stage (opStage w w1 w2)
  | .bway _ => .bway (opBway w w1 w2)
  | .mma _ => .mma (opMma w w1 w2)
  | .kvx _ => .kvx (opKvx w w1 w2)
  | .event => .event

/-- The function field of a word is that of a form, where its format has one. -/
def Form.FunctionIn (f : Form) (w : Word) : Prop :=
  match f with
  | .a _ fn _ => fnA w = BitVec.ofNat 5 fn
  | .m _ fn _ => fnM w = BitVec.ofNat 3 fn
  | _ => True

/-- A form holds a literal only where one of its source fields asks for it. -/
def Form.LitOk (f : Form) : Prop :=
  match f with
  | .a _ _ o => litOk [o.a, o.b] o.lit = true
  | .t _ o => litOk [o.a, o.b, o.e] o.lit = true
  | .m _ _ o => litOk [o.a, o.x] o.lit = true
  | _ => True

theorem Form.function_words (f : Form) : f.FunctionIn (f.words.headD 0) := by
  cases f <;>
    simp (disch := omega) only [Form.FunctionIn, Form.words, List.headD_cons, fnA, fnM, fieldAt, wordA, wordM,
      BitVec.extractLsb'_append_eq_of_add_le, BitVec.extractLsb'_eq_self]

/-- The literal that a word's sources ask for stands after it; where they ask for none, the word holds none. -/
theorem literal_of_litOk {codes : List (BitVec 5)} {lit : Word} {c : Bool} (h : litOk codes lit = true) (rest : List Word)
    (hc : codes.any isLit = c) : (if c = true then (litWords codes lit ++ rest).headD 0 else 0) = lit := by
  subst hc
  by_cases hc : codes.any isLit = true
  · simp only [litWords, hc, if_true, List.cons_append, List.headD_cons]
  · have hz : lit = 0 := by simpa only [litOk, hc, Bool.false_or, beq_iff_eq] using h
    rw [if_neg hc, hz]

/-- Reading a form's words gives the form back, whatever follows them. -/
theorem Form.reread_words (f : Form) (rest : List Word) (h : f.LitOk) :
    f.reread (f.words.headD 0) ((f.words.drop 1 ++ rest).headD 0) (((f.words.drop 1 ++ rest).drop 1).headD 0) = f := by
  cases f <;>
    simp (disch := omega) only [LitOk, reread, Form.words, StageOp.words, BwayOp.words, MmaOp.words, KvxOp.words,
      List.headD_cons, List.drop_succ_cons, List.drop_zero, List.cons_append, opA, opT, opI, opB, opM, opStage, opBway, opMma,
      opKvx, wordA, wordT, wordI, wordB, wordM, fieldAt, BitVec.extractLsb'_append_eq_of_add_le,
      BitVec.extractLsb'_append_eq_of_le, Nat.reduceSub, BitVec.extractLsb'_eq_self] at h ⊢
  case a | t | m => rw [literal_of_litOk h rest (by simp [Bool.or_assoc])]

/-! ### The literal of a well-formed word -/

theorem litOk_of_wfA {v : Nat} {d : DstKind} {a b : SrcKind} {o : OpA} (h : wfA v d a b o = true) :
    litOk [o.a, o.b] o.lit = true := by
  simp only [wfA, Bool.and_eq_true] at h
  exact h.2

theorem litOk_of_wfX {v : Nat} {d : DstKind} {a b : SrcKind} {o : OpA} (h : wfX v d a b o = true) :
    litOk [o.a, o.b] o.lit = true := by
  simp only [wfX, Bool.and_eq_true] at h
  exact litOk_of_wfA h.1

theorem litOk_of_wfT {v : Nat} {d : DstKind} {a b e : SrcKind} {o : OpT} (h : wfT v d a b e o = true) :
    litOk [o.a, o.b, o.e] o.lit = true := by
  simp only [wfT, Bool.and_eq_true] at h
  exact h.2

theorem litOk_of_wfM {v : Nat} {sizes : List Nat} {d : DstKind} {a x : SrcKind} {o : OpM} (h : wfM v sizes d a x o = true) :
    litOk [o.a, o.x] o.lit = true := by
  simp only [wfM, Bool.and_eq_true] at h
  exact h.2

/-- A well-formed word holds a literal only where one of its sources asks for it (R42). -/
theorem Instr.litOk_of_wf {v : Nat} {i : Instr} (he : i.form.isEvent = false) (h : i.wf v = true) : i.form.LitOk := by
  cases i with
  | bra | call | bway | stage | addi | lea | mma | kvx => trivial
  | sel | imad | bfi | fmaF32 | fmaF32Neg | fmaBf16 => exact litOk_of_wfT h
  | spillv | fillv | ld | st | ldx | stx | ldu | stu | atom | atomOrdered | acq | rel | fence | pref | park | cflush | cinv
  | cwb | handoff | copy | qput | qclaim | mldb | wqpull | wqpush | lastarr => exact litOk_of_wfM h
  | shflAt | shflRot | shflSlide | shflFlip | bcast | voteEvery | voteSome | voteSame | voteOdd | ballot | reduce | scanInc
  | scanExc => exact litOk_of_wfX h
  | matchLanes => exact litOk_of_wfX (Bool.and_eq_true_iff.mp h).1
  | _ =>
    -- a device event has no word, and every other word is of format A
    cases he <;> exact litOk_of_wfA h

/-! ### The opcode map -/

/-- The opcode map gives the instruction whose form a word has (Table 2-9). -/
theorem decodeV3_of_form {i : Instr} {w w1 w2 : Word} (he : i.form.isEvent = false)
    (hm : majorOf w = BitVec.ofNat 6 i.form.major) (hf : i.form.FunctionIn w) (hr : i.form.reread w w1 w2 = i.form) :
    decodeV3 w w1 w2 = some i := by
  unfold decodeV3
  rw [hm]
  cases i with
  | bra | call | bway | stage | sel | imad | bfi | addi | lea | fmaF32 | fmaF32Neg | fmaBf16 | mma | kvx =>
    cases hr
    rfl
  | fadd ty | fsub ty | fmul ty | fmin ty | fmax ty | fscale ty =>
    cases hr
    rw [show fnA w = _ from hf]
    cases ty <;> rfl
  | reduce p | scanInc p | scanExc p =>
    cases hr
    rw [show fnA w = _ from hf]
    cases p <;> rfl
  | atom p | atomOrdered p | ld p | st p | ldx p | stx p | ldu p | stu p =>
    cases hr
    rw [show fnM w = _ from hf]
    cases p <;> rfl
  | spillv | fillv | acq | rel | fence | pref | park | cflush | cinv | cwb | handoff | copy | qput | qclaim | mldb | wqpull
  | wqpush | lastarr =>
    cases hr
    rw [show fnM w = _ from hf]
    rfl
  | _ =>
    -- a device event has no word, and every other word is of format A
    cases he <;>
    · cases hr
      rw [show fnA w = _ from hf]
      rfl

theorem Form.words_eq_cons {f : Form} (h : f.isEvent = false) : f.words = f.words.headD 0 :: f.words.drop 1 := by
  cases f <;> cases h <;> rfl

/-- Only the wide packets have a wide major (R35). -/
theorem Instr.isWideMajor_major (i : Instr) : isWideMajor (BitVec.ofNat 6 i.form.major).toNat = i.form.isWide := by
  cases i <;> rfl

/-- The chain bit of the first word of a wide packet is 0. -/
theorem Form.not_chained_of_isWide {f : Form} (h : f.isWide = true) : f.chained = false := by
  cases f <;> cases h <;> rfl

/-- Settles O47: the header, the function and the operands that an encoding holds are those of its instruction. -/
theorem decodeEncode : Obligations.DecodeEncode := by
  intro v i rest he hw hs ha
  obtain ⟨hmaj, hscope, hchain⟩ := Laws.Form.header_ok i.form he
  have hwide : (isWideMajor (majorOf (i.form.words.headD 0)).toNat && (chainOf (i.form.words.headD 0)).toNat == 1) = false := by
    rw [hmaj, hchain, i.isWideMajor_major, Bool.and_eq_false_imp]
    exact Form.not_chained_of_isWide
  have hscope3 : ((scopeOf (i.form.words.headD 0)).toNat == 3) = false := by
    rw [hscope, beq_eq_false_iff_ne]
    exact Nat.ne_of_lt hs
  unfold encode at ha ⊢
  rw [Form.words_eq_cons he, List.cons_append, decodeWords, decodeInstr, ha, hscope3, hwide]
  exact decodeV3_of_form he hmaj (Form.function_words _) (Form.reread_words _ rest (Instr.litOk_of_wf he hw))

end Sys2Proof
end

section
/-! What the operations of memory leave alone outside the memory and the keys, one lemma for each. -/

namespace Sys2Proof.Machine

/-- A state without what an access of memory can touch: the memory, the trust core's sweeps and the draws of their keys, and
the messages sent. -/
def State.outside (s : State) : State :=
  { s with mem := State.reset.mem, trust := State.reset.trust, fresh := 0, out := [] }

theorem State.eng_of_outside {s t : State} (h : t.outside = s.outside) : t.eng = s.eng := congrArg (fun u => u.eng) h

theorem foldl_unchanged {α β : Type} (φ : State → β) (f : State → α → State) (h : ∀ s x, φ (f s x) = φ s) (l : List α)
    (s : State) : φ (l.foldl f s) = φ s := by
  induction l generalizing s with
  | nil => rfl
  | cons x r ih => rw [List.foldl_cons, ih, h]

@[simp] theorem State.setMem_outside (s : State) (m : Mem) : (s.setMem m).outside = s.outside := rfl

/-! ### Home slices and lines -/
@[simp] theorem State.setChannel_outside (s : State) (pc : Nat) (r : Refresh) : (s.setChannel pc r).outside = s.outside := rfl
@[simp] theorem State.channelRead_outside (s : State) (line : Nat) : (s.channelRead line).outside = s.outside := by
  simp only [State.channelRead]; split <;> rfl
@[simp] theorem State.channelWrite_outside (s : State) (line : Nat) : (s.channelWrite line).outside = s.outside := by
  simp only [State.channelWrite]; split <;> rfl
@[simp] theorem State.setHome_outside (s : State) (wa : Nat) (v : Word) : (s.setHome wa v).outside = s.outside := by
  unfold State.setHome; split <;> rfl
@[simp] theorem State.dropCopies_outside (s : State) (wa : Nat) : (s.dropCopies wa).outside = s.outside := rfl
@[simp] theorem State.unpoison_outside (s : State) (wa : Nat) : (s.unpoison wa).outside = s.outside := rfl
@[simp] theorem State.record_outside (s : State) (wa rank since : Nat) (mask : BitVec 4) (v : Word) :
    (s.record wa rank since mask v).1.outside = s.outside := by simp [State.record]
@[simp] theorem State.homeStore_outside (s : State) (wa rank since : Nat) (mask : BitVec 4) (v : Word) :
    (s.homeStore wa rank since mask v).outside = s.outside := by
  simp only [State.homeStore]; repeat' split
  all_goals simp
@[simp] theorem State.dropLine_outside (s : State) (line : Nat) (core : Option Nat) :
    (s.dropLine line core).outside = s.outside := rfl
@[simp] theorem State.recallLine_outside (s : State) (line : Nat) : (s.recallLine line).outside = s.outside := rfl
@[simp] theorem State.startSweep_outside (s : State) (w : Nat) : (s.startSweep w).outside = s.outside := rfl
@[simp] theorem State.countLine_outside (s : State) (line : Nat) : (s.countLine line).outside = s.outside := rfl
@[simp] theorem State.countWrite_outside (s : State) (line : Nat) : (s.countWrite line).outside = s.outside := by
  simp only [State.countWrite]; repeat' split
  all_goals simp
@[simp] theorem State.writeDirty_outside (s : State) (wa : Nat) : (s.writeDirty wa).outside = s.outside := by
  unfold State.writeDirty; split <;> rfl
@[simp] theorem State.writeLine_outside (s : State) (line : Nat) : (s.writeLine line).outside = s.outside := by
  simp only [State.writeLine]
  rw [foldl_unchanged State.outside _ (fun s i => State.writeDirty_outside s _)]
  split <;> simp
@[simp] theorem State.dropSlice_outside (s : State) (line : Nat) : (s.dropSlice line).outside = s.outside := rfl
@[simp] theorem State.evictLine_outside (s : State) (line : Nat) :
    (s.evictLine line).outside = s.outside := by simp [State.evictLine]
@[simp] theorem State.touchSlice_outside (s : State) (wa : Nat) (first alloc : Bool) :
    (s.touchSlice wa first alloc).outside = s.outside := by
  simp only [State.touchSlice]; repeat' split
  all_goals simp
@[simp] theorem State.register_outside (s : State) (p : Pend) (drop : Bool) (late : List Nat) :
    (s.register p drop late).outside = s.outside := by
  simp only [State.register]; repeat' split
  all_goals simp
@[simp] theorem State.evictData_outside (s : State) (core line : Nat) : (s.evictData core line).outside = s.outside := by
  simp only [State.evictData, State.dropLine_outside, State.setMem_outside]
  exact foldl_unchanged State.outside _ (fun s p => State.register_outside s p true []) _ _
@[simp] theorem State.touchData_outside (s : State) (core wa : Nat) (first : Bool) :
    (s.touchData core wa first).outside = s.outside := by
  simp only [State.touchData, State.setMem_outside]; repeat' split
  all_goals simp

/-! ### The directory -/
@[simp] theorem State.dirReplace_outside (s : State) (e : DirEntry) (l : List DirEntry) :
    (s.dirReplace e l).outside = s.outside := rfl
@[simp] theorem State.backInvalidate_outside (s : State) (hs : List Nat) (line : Nat) (inv : Bool) :
    (s.backInvalidate hs line inv).outside = s.outside := by
  unfold State.backInvalidate
  rw [foldl_unchanged State.outside]
  intro s x; rfl
theorem State.evictEntry_outside {s t : State} (h : s.evictEntry = some t) : t.outside = s.outside := by
  unfold State.evictEntry at h
  simp only at h
  split at h
  · cases h
  · split at h
    · simp only [Option.some.injEq] at h; rw [← h]; rfl
    · simp only [Option.some.injEq] at h; rw [← h, State.dirReplace_outside]
      exact foldl_unchanged State.outside _ (fun s l => State.backInvalidate_outside s _ _ _) _ _
@[simp] theorem State.dirRoom_outside (s : State) (k n : Nat) : (s.dirRoom k n).1.outside = s.outside := by
  induction n generalizing s with
  | zero => rfl
  | succ n ih =>
    unfold State.dirRoom
    split
    · rfl
    · split
      · rfl
      · split
        · rfl
        · rename_i h; rw [ih, State.evictEntry_outside h]
@[simp] theorem State.queueAsk_outside (s : State) (a : Ask) : (s.queueAsk a).outside = s.outside := rfl
@[simp] theorem State.dropAsk_outside (s : State) (a : Ask) :
    (s.dropAsk a).outside = s.outside := by
  unfold State.dropAsk
  split <;> rfl
@[simp] theorem State.dirServe_outside (s : State) (e : DirEntry) (pa : Nat) (write : Bool) :
    (s.dirServe e pa write).1.outside = s.outside := by
  simp only [State.dirServe]; repeat' split
  all_goals simp
@[simp] theorem State.dirAccess_outside (s : State) (pa : Nat) (write nc : Bool) :
    (s.dirAccess pa write nc).1.outside = s.outside := by
  simp only [State.dirAccess]; repeat' split
  all_goals simp

/-! ### Loads and stores of words -/
@[simp] theorem State.fillWord_outside (s : State) (core wa : Nat) : (s.fillWord core wa).outside = s.outside := rfl
@[simp] theorem State.fetchLine_outside (s : State) (core line : Nat) (nc : Bool) :
    (s.fetchLine core line nc).1.outside = s.outside := by
  simp only [State.fetchLine]; repeat' split
  · rfl
  · simp
  · rw [foldl_unchanged State.outside]
    · simp
    · intro s x; repeat' split
      all_goals simp
@[simp] theorem State.fetch_outside (s : State) (core line : Nat) (nc : Bool) : (s.fetch core line nc).outside = s.outside := by
  simp only [State.fetch]; split <;> simp

/-! ### Translation -/
theorem State.potFill_outside {s t : State} {w : BitVec 6} {mode lo hi : Nat} (h : s.potFill w mode lo hi = .inl t) :
    t.outside = s.outside := by
  simp only [State.potFill] at h
  split at h
  · cases h
  · split at h
    · cases h
    · simp only [Sum.inl.injEq] at h; rw [← h]; rfl
theorem State.tableCheck_outside {s t : State} {x : Context} {ppn : Nat} (h : s.tableCheck x ppn = .inl t) :
    t.outside = s.outside := by
  unfold State.tableCheck at h
  split at h
  · simp only [Sum.inl.injEq] at h; rw [← h]
  · split at h
    · cases h
    · exact State.potFill_outside h
theorem State.leafCheck_outside {s t : State} {x : Context} {e : TlbEntry} (h : s.leafCheck x e = .inl t) :
    t.outside = s.outside := by
  simp only [State.leafCheck] at h
  split at h
  · split at h
    · simp only [Sum.inl.injEq] at h; rw [← h]
    · exact State.potFill_outside h
  · split at h
    · cases h
    · exact State.potFill_outside h
@[simp] theorem State.walkFrom_outside (s : State) (c : Nat) (x : Context) (vpage kind ppn n : Nat) :
    (s.walkFrom c x vpage kind ppn n).1.outside = s.outside := by
  induction n generalizing s ppn with
  | zero => rfl
  | succ n ih =>
    unfold State.walkFrom
    split
    · rfl
    · rename_i s1 h1
      have e := State.tableCheck_outside h1
      have e2 := fun pa => (State.dirAccess_outside s1 pa false false).trans e
      simp only
      split
      · exact e2 _
      · split
        · exact e2 _
        · split
          · exact e2 _
          · split
            · split
              · exact e2 _
              · rw [ih]; exact e2 _
            · split
              · exact e2 _
              · split
                · exact e2 _
                · rename_i h2; rw [State.leafCheck_outside h2]; exact e2 _
@[simp] theorem State.tlbFill_outside (s : State) (place : Nat) (e : TlbEntry) : (s.tlbFill place e).outside = s.outside := rfl
@[simp] theorem State.prefetchAt_outside (s : State) (c : Nat) (e : TlbEntry) (core : Nat) (a : DWord) :
    (s.prefetchAt c e core a).outside = s.outside := by unfold State.prefetchAt; split <;> simp
@[simp] theorem State.joinWalk_outside (s : State) (w : Walk) : (s.joinWalk w).outside = s.outside := rfl
@[simp] theorem State.walkNow_outside (s : State) (cl : Nat) (core : Option Nat) (c vpage kind : Nat) :
    (s.walkNow cl core c vpage kind).1.outside = s.outside := by
  simp only [State.walkNow]
  split
  · rfl
  · split
    · rename_i h
      have := congrArg (fun r => r.1.outside) h
      simp only [State.walkFrom_outside] at this
      rw [foldl_unchanged State.outside _ (fun s p => State.prefetchAt_outside s _ _ _ _),
        foldl_unchanged State.outside _ (fun s i => State.tlbFill_outside s i _),
        State.tlbFill_outside, ← this]
      rfl
    · rename_i h
      have := congrArg (fun r => r.1.outside) h
      simp only [State.walkFrom_outside] at this
      simp only [State.joinWalk_outside, State.setMem_outside, ← this]
    · rw [State.walkFrom_outside]; rfl
@[simp] theorem State.homeMerge_outside (s : State) (by_ : Writer) (wa a : Nat) (bs : List Byte) :
    (s.homeMerge by_ wa a bs).outside = s.outside := by simp [State.homeMerge]

/-! ### Accesses of an engine -/

@[simp] theorem State.engineXlat_outside (s : State) (cl c vpage kind : Nat) :
    (s.engineXlat cl c vpage kind).1.outside = s.outside := by
  unfold State.engineXlat
  split
  · rfl
  · exact State.walkNow_outside _ _ _ _ _ _

@[simp] theorem State.engineReach_outside (s : State) (cl c : Nat) (a : DWord) (kind : Nat) :
    (s.engineReach cl c a kind).1.outside = s.outside := by
  have h := s.engineXlat_outside cl c (vpageOf a) kind
  unfold State.engineReach
  split
  · rename_i e
    rw [e] at h
    split <;> exact h
  all_goals rename_i e; rw [e] at h; exact h

end Sys2Proof.Machine
end

section
/-! What the operations of the engines do to the list of launches: completion actions add only launches that are not placed
yet, and a launch that ends is gone (13_async R291, R300, R303). -/

namespace Sys2Proof.Machine

/-! ### Operations that leave the engines, or their launches, as they stand -/

@[simp] theorem State.arrive_eng (s : State) (k : Nat) : (s.arrive k).eng = s.eng := by
  simp only [State.arrive]; repeat' split
  all_goals rfl

@[simp] theorem State.ready_eng (s : State) (k : Nat) : (s.ready k).eng = s.eng := by
  simp only [State.ready]; split
  · rfl
  · exact State.arrive_eng _ _

@[simp] theorem State.joinHeld_eng (s : State) (k r slot : Nat) : (s.joinHeld k r slot).eng = s.eng := by
  unfold State.joinHeld; repeat' split
  all_goals rfl

@[simp] theorem State.decRef_launches (s : State) (core slot : Nat) : (s.decRef core slot).eng.launches = s.eng.launches := by
  unfold State.decRef; repeat' split
  all_goals rfl

@[simp] theorem State.dropTag_launches (s : State) (k r : Nat) : (s.dropTag k r).eng.launches = s.eng.launches := by
  unfold State.dropTag; split
  · rfl
  · simp [State.modThread]

@[simp] theorem State.setChipWord_launches (s : State) (key : Nat) (v : Word) :
    (s.setChipWord key v).eng.launches = s.eng.launches := by
  simp only [State.setChipWord]; repeat' split
  · exact State.dropTag_launches _ _ _
  · rw [foldl_unchanged fun s => s.eng.launches]
    · rfl
    · exact fun _ _ => rfl
  · rfl

@[simp] theorem State.chipMerge_launches (s : State) (w a : Nat) (bs : List Byte) :
    (s.chipMerge w a bs).eng.launches = s.eng.launches := by
  simp only [State.chipMerge]; split <;> simp

@[simp] theorem State.recordFault_eng (s : State) (cl first c vpage kind reason n : Nat) :
    (s.recordFault cl first c vpage kind reason n).eng = s.eng := by
  simp only [State.recordFault]; repeat' split
  all_goals rfl

@[simp] theorem State.freeFuture_launches (s : State) (core slot : Nat) :
    (s.freeFuture core slot).eng.launches = s.eng.launches := rfl

/-- The threads that a resolved future makes ready leave the engines. -/
theorem State.readies_eng (l : List (Nat × Thread)) (s : State) : (l.foldl (fun s p => s.ready p.1) s).eng = s.eng := by
  induction l generalizing s with
  | nil => rfl
  | cons p l ih => rw [List.foldl_cons, ih, State.ready_eng]

@[simp] theorem State.resolve_launches (s : State) (core slot state status : Nat) :
    (s.resolve core slot state status).eng.launches = s.eng.launches := by
  simp only [State.resolve]; split
  · rfl
  · split
    · rw [State.freeFuture_launches, State.readies_eng]; rfl
    · rw [State.readies_eng]; rfl

@[simp] theorem State.resolveOpt_launches (s : State) (fut : Option (Nat × Nat)) (state status : Nat) :
    (s.resolveOpt fut state status).eng.launches = s.eng.launches := by
  cases fut <;> simp [State.resolveOpt]

theorem State.engineWrite_launches (s : State) (cl c : Nat) (by_ : Writer) (a : DWord) (bs : List Byte) :
    (s.engineWrite cl c by_ a bs).1.eng.launches = s.eng.launches := by
  have hreach := s.engineReach_outside cl c a 5
  unfold State.engineWrite
  split
  · have heng {t : State} (h : t.outside = s.outside) : t.eng.launches = s.eng.launches := by
      rw [State.eng_of_outside h]
    split
    case h_4 s1 pa nc e =>
      rw [e] at hreach
      have hdir := (State.dirAccess_outside s1 pa true nc).trans hreach
      simp only
      split
      · exact heng hdir
      · split
        · exact heng hdir
        · refine heng ?_
          rw [foldl_unchanged State.outside _ (fun s wa => State.homeMerge_outside s _ _ _ _), State.touchSlice_outside]
          split
          · exact hdir
          · exact hdir
    all_goals
      rename_i e
      rw [e] at hreach
      exact heng hreach
  · split
    · rfl
    · exact foldl_unchanged (fun s => s.eng.launches) _ (fun s w => State.chipMerge_launches s _ _ _) _ _

/-! ### Launches that are not placed yet join the list -/

/-- Every launch of `t` is one of `s`, or is not placed yet. -/
def State.LaunchesFrom (t s : State) : Prop := ∀ l ∈ t.eng.launches, l ∈ s.eng.launches ∨ l.placed = false

theorem State.LaunchesFrom.of_eq {t s : State} (h : t.eng.launches = s.eng.launches) : t.LaunchesFrom s :=
  fun _ hl => .inl (h ▸ hl)

theorem State.LaunchesFrom.trans {s t u : State} (h : u.LaunchesFrom t) (h' : t.LaunchesFrom s) : u.LaunchesFrom s := by
  intro l hl
  rcases h l hl with ht | hp
  · exact h' l ht
  · exact .inr hp

theorem State.handOff_launchesFrom (s : State) (n : Nat) : (s.handOff n).LaunchesFrom s := by
  intro l hl
  rcases List.mem_append.mp hl with hs | hnew
  · exact .inl hs
  · exact .inr (by rw [List.mem_singleton.mp hnew])

theorem State.decTask_launchesFrom (s : State) (n d : Nat) : (s.decTask n d).LaunchesFrom s := by
  simp only [State.decTask]
  split
  · exact .of_eq rfl
  · split
    · exact State.handOff_launchesFrom _ _
    · exact .of_eq rfl

theorem State.endRest_launchesFrom (s : State) (e : Ended) : (s.endRest e).LaunchesFrom s := by
  simp only [State.endRest]
  refine (State.LaunchesFrom.of_eq (State.resolveOpt_launches _ _ _ _)).trans ?_
  have htask : State.LaunchesFrom (if e.compl.csig then
      (match s.taskOf e.ctx e.compl.sigtid with
        | none => s
        | some n => s.decTask n 1)
    else s) s := by
    split
    · split
      · exact .of_eq rfl
      · exact State.decTask_launchesFrom _ _ _
    · exact .of_eq rfl
  split
  · exact htask
  · exact (State.LaunchesFrom.of_eq rfl).trans htask

/-- Completion actions hand over the launches that a decrement made ready, and no others (R291, R303). -/
theorem State.finishEnd_launchesFrom (s : State) (e : Ended) : (s.finishEnd e).LaunchesFrom s := by
  have hdrop (t : State) : ((t.engineStat e.cluster fun x => { x with loststat := x.loststat + 1 }).endRest e).LaunchesFrom t :=
    (State.endRest_launchesFrom _ _).trans (.of_eq rfl)
  simp only [State.finishEnd]
  split
  · exact State.endRest_launchesFrom _ _
  · split
    · exact hdrop s
    · have hwrite := s.engineWrite_launches e.cluster e.ctx { rank := e.rank, since := e.since } e.compl.caddr
        (bytesOf (Machine.statusWord e))
      split
      all_goals
        rename_i h
        rw [h] at hwrite
      · exact (State.endRest_launchesFrom _ _).trans (.of_eq hwrite)
      · exact (hdrop _).trans (.of_eq hwrite)
      · exact .of_eq hwrite
      · exact .of_eq (by simpa [State.engineFault] using hwrite)

/-! ### Launches that end -/

/-- A launch that ends is gone, with every other of its number. -/
theorem State.launchEnd_launches {s : State} {l x : Launch} {state status : Nat}
    (hx : x ∈ (s.launchEnd l state status).eng.launches) : (x ∈ s.eng.launches ∧ x.num ≠ l.num) ∨ x.placed = false := by
  have hended (t : State) (ht : t.LaunchesFrom (s.setEng { s.eng with launches := s.eng.launches.filter fun x => x.num != l.num }))
      (hx : x ∈ t.eng.launches) : (x ∈ s.eng.launches ∧ x.num ≠ l.num) ∨ x.placed = false := by
    rcases ht x hx with h | h
    · simp only [State.setEng_eng, List.mem_filter, bne_iff_ne] at h
      exact .inl h
    · exact .inr h
  simp only [State.launchEnd] at hx
  split at hx
  · exact hended _ (State.finishEnd_launchesFrom _ _) hx
  · refine hended _ ?_ hx
    exact (State.finishEnd_launchesFrom _ _).trans ((State.LaunchesFrom.of_eq rfl).trans (State.finishEnd_launchesFrom _ _))

theorem State.launchEnds_launches (ls : List Launch) {s : State} {x : Launch}
    (hx : x ∈ (ls.foldl (fun s l => s.launchEnd l 0 0) s).eng.launches) :
    (x ∈ s.eng.launches ∧ ∀ l ∈ ls, x.num ≠ l.num) ∨ x.placed = false := by
  induction ls generalizing s with
  | nil => exact .inl ⟨hx, by simp⟩
  | cons l ls ih =>
    rcases ih hx with ⟨hs, hls⟩ | h
    · rcases State.launchEnd_launches hs with ⟨h, hl⟩ | h
      · exact .inl ⟨h, by simpa [hl] using hls⟩
      · exact .inr h
    · exact .inr h

/-- After the launches whose last yard has retired have completed, no placed launch is left with all its yards retired
(R300). -/
theorem State.reapLaunches_pending (s : State) :
    ∀ l ∈ s.reapLaunches.eng.launches, l.placed = true → l.retired < l.total := by
  intro l hl hp
  rcases State.launchEnds_launches _ hl with ⟨hs, hnum⟩ | h
  · refine Nat.lt_of_not_le fun hle => hnum l (List.mem_filter.mpr ⟨hs, ?_⟩) rfl
    rw [hp, decide_eq_true hle, Bool.and_self]
  · rw [h] at hp; cases hp

end Sys2Proof.Machine
end

section
/-! What every step settles: aged queues, gated clusters and launches (03_threads R74, 20_boundary R429, 13_async R300). -/

namespace Sys2Proof.Machine

/-! ### Masks of clusters -/

/-- The sum of distinct powers of two has exactly their bits. -/
theorem testBit_sum_two_pow (f : Nat → Bool) (n i : Nat) :
    ((((List.range n).filter f).map fun c => 2 ^ c).sum).testBit i = (decide (i < n) && f i) ∧
      (((List.range n).filter f).map fun c => 2 ^ c).sum < 2 ^ n := by
  induction n with
  | zero => simp
  | succ n ih =>
    obtain ⟨hbit, hlt⟩ := ih
    generalize hx : (((List.range n).filter f).map fun c => 2 ^ c).sum = x at hbit hlt
    have hnext : (((List.range (n + 1)).filter f).map fun c => 2 ^ c).sum = if f n then 2 ^ n + x else x := by
      rw [List.range_succ, List.filter_append, List.map_append, List.sum_append, hx]
      cases hf : f n <;> simp [hf, Nat.add_comm]
    rw [hnext]
    cases hf : f n with
    | false =>
      refine ⟨?_, by simp only [Bool.false_eq_true, if_false]; omega⟩
      simp only [Bool.false_eq_true, if_false, hbit]
      rcases Nat.lt_trichotomy i n with h | rfl | h
      · simp [h, Nat.lt_succ_of_lt h]
      · simp [hf]
      · simp [show ¬ i < n by omega, show ¬ i < n + 1 by omega]
    | true =>
      refine ⟨?_, by simp only [if_true]; omega⟩
      simp only [if_true]
      rcases Nat.lt_trichotomy i n with h | rfl | h
      · rw [Nat.testBit_two_pow_add_gt h, hbit]; simp [h, Nat.lt_succ_of_lt h]
      · rw [Nat.testBit_two_pow_add_eq, Nat.testBit_lt_two_pow hlt]; simp [hf]
      · rw [Nat.testBit_lt_two_pow]
        · simp [show ¬ i < n + 1 by omega]
        · calc 2 ^ n + x < 2 ^ (n + 1) := by omega
            _ ≤ 2 ^ i := Nat.pow_le_pow_right (by omega) h

/-! ### Aged queues -/

theorem State.agedNow_congr {s t : State} (h : t.fab.threads = s.fab.threads) (q : Part) : t.agedNow q = s.agedNow q := by
  have : t.entryReady = s.entryReady := by
    funext e
    simp only [State.entryReady, State.thread, h]
  simp only [State.agedNow, this]

theorem State.settleAged_threads (s : State) : s.settleAged.fab.threads = s.fab.threads := rfl
theorem State.settleAged_eng (s : State) : s.settleAged.eng = s.eng := rfl

theorem State.settleAged_aged (s : State) (p : Nat) (q : Part) (h : Map.find? s.settleAged.fab.parts p = some q) :
    q.aged = s.agedNow q := by
  simp only [State.settleAged, Map.find?_mapVals, Option.map_eq_some_iff] at h
  obtain ⟨q0, -, rfl⟩ := h
  exact (s.agedNow_settled q0).symm

/-! ### Gated clusters -/

theorem State.ungate_fab (s : State) : s.ungate.fab = s.fab := by
  unfold State.ungate; split <;> rfl
theorem State.ungate_eng (s : State) : s.ungate.eng = s.eng := by
  unfold State.ungate; split <;> rfl
theorem State.rouse_fab (s : State) : s.rouse.fab = s.fab := by
  simp only [State.rouse]; split <;> rfl
theorem State.rouse_eng (s : State) : s.rouse.eng = s.eng := by
  simp only [State.rouse]; split <;> rfl
theorem State.rouse_gated (s : State) : s.rouse.power.gated = s.power.gated := by
  simp only [State.rouse]; split <;> rfl

theorem State.clusterIdle_congr {s t : State} (hf : t.fab = s.fab) (he : t.eng = s.eng) (cl : Nat) :
    t.clusterIdle cl = s.clusterIdle cl := by
  simp only [State.clusterIdle, State.inflight, hf, he]

/-- A cluster that stays in PS1 is idle. -/
theorem State.ungate_idle {s : State} {cl : Nat}
    (h : s.ungate.power.gated.toNat.testBit cl = true) : s.clusterIdle cl = true := by
  unfold State.ungate at h
  split at h
  case isTrue hz => rw [beq_iff_eq.mp hz] at h; simp at h
  case isFalse =>
    obtain ⟨hbit, hlt⟩ := testBit_sum_two_pow (fun cl => s.power.gated.toNat.testBit cl && s.clusterIdle cl) Config.clusters cl
    simp only [State.setPower] at h
    rw [BitVec.toNat_ofNat, Nat.mod_eq_of_lt (show _ < 2 ^ 14 from hlt), hbit] at h
    simp only [Bool.and_eq_true] at h
    exact h.2.2

/-! ### The end of a step -/

/-- Whatever a step has done, its end settles the machine. -/
theorem State.wrapUp_settled (s : State) : s.wrapUp.Settled := by
  unfold State.wrapUp
  have hpending := s.settleThreads.settleRequests.reapLaunches_pending
  generalize s.settleThreads.settleRequests.reapLaunches = r at hpending ⊢
  have hfab : r.settleAged.ungate.rouse.fab = r.settleAged.fab := by rw [State.rouse_fab, State.ungate_fab]
  have heng : r.settleAged.ungate.rouse.eng = r.settleAged.eng := by rw [State.rouse_eng, State.ungate_eng]
  refine ⟨fun p q hq => ?_, fun cl _ hg => ?_, fun l hl => ?_⟩
  · rw [hfab] at hq
    rw [State.settleAged_aged _ p q hq]
    exact (State.agedNow_congr (by rw [hfab, State.settleAged_threads]) q).symm
  · rw [State.rouse_gated] at hg
    rw [State.clusterIdle_congr hfab heng]
    exact State.ungate_idle hg
  · rw [heng, State.settleAged_eng] at hl
    exact hpending l hl

/-- An outcome whose next state, if there is one, is what the end of a step has left. -/
def WrappedUp (o : Outcome) : Prop := ∀ t, o = .next t → ∃ u : State, t = u.wrapUp

theorem wrappedUp_next (u : State) : WrappedUp (.next u.wrapUp) :=
  fun _ h => ⟨u, (Host.Outcome.next.inj h).symm⟩
theorem wrappedUp_fault (r : Fault) : WrappedUp (.fault r) := by
  intro t h
  simp only [reduceCtorEq] at h
theorem wrappedUp_refused (r : Refusal) : WrappedUp (.refused r) := by
  intro t h
  simp only [reduceCtorEq] at h

theorem wrappedUp_outcomeMap (f : State → State) (o : Outcome) : WrappedUp (outcomeMap (fun t => (f t).wrapUp) o) := by
  cases o with
  | next u => exact wrappedUp_next (f u)
  | fault r => exact wrappedUp_fault r
  | refused r => exact wrappedUp_refused r

theorem Issue.ite_ne_word {c : Prop} [Decidable c] {a b : Issue} {x : SlotWord} {n : Nat} {t : State} (ha : a ≠ .word x n t)
    (hb : b ≠ .word x n t) : (if c then a else b) ≠ .word x n t := by
  split
  · exact ha
  · exact hb

/-- A word issues only where the focused partition has a current group. -/
theorem State.issue_ne_word {s : State} (hg : s.group = none) (x : SlotWord) (n : Nat) (t : State) :
    s.issue ≠ .word x n t := by
  unfold State.group at hg
  unfold State.issue State.fpart
  cases hs : (s.part (partKey s.focus.1 s.focus.2)).stream with
  | none => simp only [hs]; exact Issue.ite_ne_word nofun (Issue.ite_ne_word nofun nofun)
  | some st =>
    rw [hs] at hg
    simp only [hs, hg]
    exact Issue.ite_ne_word nofun (Issue.ite_ne_word nofun nofun)

theorem State.perform_wrappedUp {s was : State} (x : SlotWord) (n : Nat) (h : was.group ≠ none) :
    WrappedUp (s.perform was x n) := by
  unfold State.perform
  split
  · rename_i hg; exact absurd hg h
  · exact wrappedUp_outcomeMap _ _

theorem State.runIssue_wrappedUp (s : State) : WrappedUp s.runIssue := by
  unfold State.runIssue
  split
  · rename_i x n s1 h
    exact State.perform_wrappedUp x n fun hg => State.issue_ne_word hg x n s1 h
  · exact wrappedUp_next _
  · exact wrappedUp_next _

theorem State.happen_wrappedUp (s : State) (f : State → Outcome) : WrappedUp (s.happen f) := wrappedUp_outcomeMap id _

theorem State.yieldTurn_wrappedUp (s : State) : WrappedUp s.yieldTurn := by
  unfold State.yieldTurn
  split
  · exact State.happen_wrappedUp _ _
  · exact State.runIssue_wrappedUp _

theorem State.auto_wrappedUp (s : State) : WrappedUp s.auto := by
  unfold State.auto
  split
  · exact State.runIssue_wrappedUp _
  · split
    · split
      · exact State.yieldTurn_wrappedUp _
      · exact State.runIssue_wrappedUp _
    · exact State.yieldTurn_wrappedUp _

theorem step_wrappedUp (s : State) : WrappedUp (step s) := by
  unfold step
  split
  · exact State.runIssue_wrappedUp _
  · split
    · split
      · exact State.happen_wrappedUp _ _
      · exact wrappedUp_fault _
    · exact State.runIssue_wrappedUp _
    · exact State.auto_wrappedUp _

end Sys2Proof.Machine

namespace Sys2Proof
open Sys2Proof.Machine

/-- Settles O52: every step ends by settling the machine. -/
theorem stepKeepsSettled : Obligations.StepKeepsSettled := by
  intro s t _ h
  obtain ⟨u, ht⟩ := step_wrappedUp s t h
  rw [ht]
  exact u.wrapUp_settled

end Sys2Proof
end

section
/-! Rounding of values that a format holds (07_float R163, R168): the code is recovered from its sign, exponent and mantissa, and
nothing is left to round. -/

namespace Sys2Proof.Machine

/-! ### The formats of words and halves -/

/-- The formats whose values FP words hold (Table 7-1). -/
def Fmt.Wide (f : Fmt) : Prop := f = .fp32 ∨ f = .fp16 ∨ f = .bf16

/-- The sign, exponent and mantissa fields of a code of a format. -/
def Fmt.negOf (f : Fmt) (c : Nat) : Bool := bitOf c (f.mant + f.expo)
def Fmt.expOf (f : Fmt) (c : Nat) : Nat := bitsOf c (f.mant + f.expo - 1) f.mant
def Fmt.mantOf (f : Fmt) (c : Nat) : Nat := c % 2 ^ f.mant

theorem Fmt.signed_wide {f : Fmt} (hf : f.Wide) (neg : Bool) (mag : Nat) :
    f.signed neg mag = if neg then f.signBit + mag else mag := by
  rcases hf with rfl | rfl | rfl <;> rfl

theorem Fmt.infResult_wide {f : Fmt} (hf : f.Wide) (neg sat : Bool) : f.infResult neg sat = (f.signed neg f.infCode, 0) := by
  rcases hf with rfl | rfl | rfl <;> rfl

theorem Fmt.maxCode_wide {f : Fmt} (hf : f.Wide) : f.maxCode + 1 = f.infCode := by
  rcases hf with rfl | rfl | rfl <;> rfl

theorem Fmt.ne_int8_of_wide {f : Fmt} (hf : f.Wide) : (f == .int8) = false := by
  rcases hf with rfl | rfl | rfl <;> rfl

/-- The value of a code by its fields (R163). -/
theorem Fmt.value_wide {f : Fmt} (hf : f.Wide) (c : Nat) :
    f.value c =
      if f.expOf c = 2 ^ f.expo - 1 then
        (if f.mantOf c = 0 then .inf (f.negOf c) else .nan (!bitOf (f.mantOf c) (f.mant - 1)))
      else if f.expOf c = 0 then
        (if f.mantOf c = 0 then .zero (f.negOf c) else .fin (f.negOf c) (f.mantOf c) (f.emin - f.mant))
      else .fin (f.negOf c) (2 ^ f.mant + f.mantOf c) (f.emin + (f.expOf c : Int) - 1 - f.mant) := by
  rcases hf with rfl | rfl | rfl <;> simp [Fmt.value, Fmt.expOf, Fmt.mantOf, Fmt.negOf] <;> rfl

theorem Fmt.mantOf_lt (f : Fmt) (c : Nat) : f.mantOf c < 2 ^ f.mant := Nat.mod_lt _ (Nat.two_pow_pos _)

theorem Fmt.expOf_lt {f : Fmt} (hf : f.Wide) (c : Nat) : f.expOf c < 2 ^ f.expo := by
  rcases hf with rfl | rfl | rfl <;> exact Nat.mod_lt _ (Nat.two_pow_pos _)

/-- A code is its sign with its exponent above its mantissa. -/
theorem Fmt.signed_fields {f : Fmt} (hf : f.Wide) {c : Nat} (hc : c < 2 * f.signBit) :
    f.signed (f.negOf c) (f.expOf c * 2 ^ f.mant + f.mantOf c) = c := by
  rw [Fmt.signed_wide hf]
  rcases hf with rfl | rfl | rfl <;>
    simp only [Fmt.signBit, Fmt.negOf, Fmt.expOf, Fmt.mantOf, Fmt.mant, Fmt.expo, bitOf, bitsOf, decide_eq_true_eq,
      Nat.testBit_eq_decide_div_mod_eq] at hc ⊢ <;>
    split <;> omega

/-! ### Rounding what needs none -/

theorem RMode.round_exact (rm : RMode) (neg : Bool) (n : Nat) : rm.round neg n .lt false = n := by
  cases rm <;> simp [RMode.round]

theorem splitAt_self (m : Nat) (e : Int) : splitAt m e e = (m, .lt, false) := by simp [splitAt]

/-- A finite value whose exponent is the last place of a format's code, at most the largest, has that code. -/
theorem roundTo_of_exact {f : Fmt} (hf : f.Wide) {m : Nat} {e ex : Int} (rm : RMode) (neg sat : Bool)
    (hex : max (e + m.log2) f.emin = ex) (he : ex - f.mant = e)
    (hmax : (ex - f.emin).toNat * 2 ^ f.mant + m ≤ f.maxCode) :
    roundTo f (.fin neg m e) rm sat = (f.signed neg ((ex - f.emin).toNat * 2 ^ f.mant + m), 0) := by
  simp only [roundTo, Fmt.ne_int8_of_wide hf, hex, he, splitAt_self, RMode.round_exact, Bool.false_eq_true, if_false,
    Bool.and_false, if_neg (Nat.not_lt.mpr hmax)]
  rfl

theorem log2_add_of_lt {n a : Nat} (h : a < 2 ^ n) : (2 ^ n + a).log2 = n :=
  (Nat.log2_eq_iff (by have := Nat.two_pow_pos n; omega)).mpr ⟨by omega, by rw [Nat.pow_succ]; omega⟩

theorem roundTo_of_subnormal {f : Fmt} (hf : f.Wide) {m : Nat} (rm : RMode) (neg sat : Bool) (h0 : m ≠ 0)
    (hm : m < 2 ^ f.mant) (hmax : m ≤ f.maxCode) :
    roundTo f (.fin neg m (f.emin - f.mant)) rm sat = (f.signed neg m, 0) := by
  have hlog : m.log2 < f.mant := (Nat.log2_lt h0).mpr hm
  have h := roundTo_of_exact hf (m := m) (e := f.emin - f.mant) (ex := f.emin) rm neg sat (by omega) rfl (by simpa using hmax)
  simpa using h

theorem roundTo_of_normal {f : Fmt} (hf : f.Wide) {ex a : Nat} (rm : RMode) (neg sat : Bool) (h0 : ex ≠ 0)
    (ha : a < 2 ^ f.mant) (hmax : ex * 2 ^ f.mant + a ≤ f.maxCode) :
    roundTo f (.fin neg (2 ^ f.mant + a) (f.emin + (ex : Int) - 1 - f.mant)) rm sat = (f.signed neg (ex * 2 ^ f.mant + a), 0) := by
  obtain ⟨k, rfl⟩ := Nat.exists_eq_succ_of_ne_zero h0
  have hmag : k * 2 ^ f.mant + (2 ^ f.mant + a) = k.succ * 2 ^ f.mant + a := by rw [Nat.succ_mul, Nat.add_assoc]
  have hk : (f.emin + k - f.emin).toNat = k := by omega
  have h := roundTo_of_exact hf (m := 2 ^ f.mant + a) (e := f.emin + (k.succ : Int) - 1 - f.mant) (ex := f.emin + k) rm neg sat
    (by rw [log2_add_of_lt ha]; omega) (by omega) (by rw [hk, hmag]; exact hmax)
  rw [h, hk, hmag]

/-- A finite code is at most the largest. -/
theorem Fmt.fields_le_maxCode {f : Fmt} (hf : f.Wide) {c : Nat} (htop : f.expOf c ≠ 2 ^ f.expo - 1) :
    f.expOf c * 2 ^ f.mant + f.mantOf c ≤ f.maxCode := by
  have hex := Fmt.expOf_lt hf c
  have hma := f.mantOf_lt c
  have hlt : (f.expOf c + 1) * 2 ^ f.mant ≤ f.infCode := Nat.mul_le_mul_right _ (by omega)
  rw [Nat.succ_mul] at hlt
  have := Fmt.maxCode_wide hf
  omega

end Sys2Proof.Machine

namespace Sys2Proof
open Sys2Proof.Machine

/-- Settles O6: infinities and zeros have their codes, and a finite value's last place is that of its code. -/
theorem roundingIsExactOnValues : Obligations.RoundingIsExactOnValues := by
  intro f c rm sat hf hc hn
  have hcode := Fmt.signed_fields hf hc
  rw [Fmt.value_wide hf] at hn ⊢
  by_cases htop : f.expOf c = 2 ^ f.expo - 1
  · by_cases hma : f.mantOf c = 0
    · rw [hma, htop, Nat.add_zero] at hcode
      rw [if_pos htop, if_pos hma, roundTo, Fmt.infResult_wide hf, Fmt.infCode, hcode]
    · rw [if_pos htop, if_neg hma] at hn
      cases hn
  · have hmax := Fmt.fields_le_maxCode hf htop
    rw [if_neg htop]
    by_cases hex : f.expOf c = 0
    · rw [hex, Nat.zero_mul, Nat.zero_add] at hcode hmax
      rw [if_pos hex]
      by_cases hma : f.mantOf c = 0
      · rw [hma] at hcode
        rw [if_pos hma, roundTo, Fmt.ne_int8_of_wide hf, hcode]
        rfl
      · rw [if_neg hma, roundTo_of_subnormal hf rm _ sat hma (f.mantOf_lt c) hmax, hcode]
    · rw [if_neg hex, roundTo_of_normal hf rm _ sat hex (f.mantOf_lt c) hmax, hcode]

end Sys2Proof
end

section
/-! What a word without side effects leaves unchanged (05_registers R131, R137). -/

namespace Sys2Proof.Machine

/-! ### What writing a destination leaves -/

theorem writeSlots_getElem?_outside (ws : List Word) (vs : List VSlot) (i j : Nat) (h : j < i ∨ i + ws.length ≤ j) :
    (writeSlots vs i ws)[j]? = vs[j]? := by
  induction ws generalizing vs i with
  | nil => rfl
  | cons w ws ih =>
    rw [List.length_cons] at h
    rw [writeSlots, ih _ _ (by omega), writeSlot, List.getElem?_modify_ne _ _ (by omega)]

theorem writeUslots_getElem?_outside (ws : List Word) (us : List USlot) (i j : Nat) (h : j < i ∨ i + ws.length ≤ j) :
    (writeUslots us i ws)[j]? = us[j]? := by
  induction ws generalizing us i with
  | nil => rfl
  | cons w ws ih =>
    rw [List.length_cons] at h
    rw [writeUslots, ih _ _ (by omega), List.getElem?_modify_ne _ _ (by omega)]

theorem setPred_getLsbD_other (p : BitVec 8) (d : BitVec 5) (b : Bool) {i : Nat} (h : i ≠ d.toNat % 8) :
    (setPred p d b).getLsbD i = p.getLsbD i := by
  have hm : (((1 <<< (d.toNat % 8) : Nat)) : BitVec 8).getLsbD i = false := by
    rw [BitVec.natCast_eq_ofNat, BitVec.getLsbD_ofNat, Nat.one_shiftLeft, Nat.testBit_two_pow_of_ne h.symm, Bool.and_false]
  simp only [setPred]
  cases b with
  | true => simp only [if_true, BitVec.getLsbD_or, hm, Bool.or_false]
  | false =>
    simp only [Bool.false_eq_true, if_false, BitVec.getLsbD_and, BitVec.getLsbD_not, hm, Bool.not_false, Bool.and_true]
    by_cases hi : i < 8
    · simp [hi]
    · simp [hi, BitVec.getLsbD_of_ge p i (by omega)]

/-- A word's results leave all of a thread but its destination, latches and flags. -/
theorem Thread.put_frame (x : Thread) (dst : Dst) (shift : Bool) (vals : List Word) (ff : BitVec 5) :
    let y := { x.put dst shift vals with ff := ff }
    y.pc = x.pc ∧ y.wpos = x.wpos ∧ y.st = x.st ∧ y.rm = x.rm ∧ y.ra = x.ra ∧ y.tags = x.tags ∧ y.trec = x.trec ∧
      y.region = x.region ∧ ((∀ d, dst ≠ .pred d) → y.preds = x.preds) ∧ ((∀ n d, dst ≠ .uni n d) → y.us = x.us) ∧
      ((∀ n d, dst ≠ .vec n d) → y.vs = x.vs) := by
  cases dst <;> simp only [Thread.put] <;> (try split) <;> simp
  
/-- They leave the slots outside the destination. -/
theorem Thread.put_slots (x : Thread) (dst : Dst) (shift : Bool) (vals : List Word) (ff : BitVec 5) :
    let y := { x.put dst shift vals with ff := ff }
    (∀ d i, dst = .pred d → i ≠ d.toNat % 8 → y.preds.getLsbD i = x.preds.getLsbD i) ∧
      (∀ n d i, dst = .vec n d → vals.length ≤ n → i < slotOfD d ∨ slotOfD d + n ≤ i → y.vs[i]? = x.vs[i]?) ∧
      (∀ n d i, dst = .uni n d → vals.length ≤ n → i < slotOfD d ∨ slotOfD d + n ≤ i → y.us[i]? = x.us[i]?) := by
  refine ⟨fun d i hd hi => ?_, fun n d i hd hn hi => ?_, fun n d i hd hn hi => ?_⟩ <;> subst hd <;> simp only [Thread.put]
  · exact setPred_getLsbD_other _ _ _ hi
  · split
    · rfl
    · exact writeSlots_getElem?_outside _ _ _ _ (by omega)
  · split
    · rfl
    · exact writeUslots_getElem?_outside _ _ _ _ (by omega)

theorem Thread.idle_eq (x : Thread) (dst : Dst) (shift : Bool) : ∃ lat, x.idle dst shift = { x with lat := lat } := by
  unfold Thread.idle
  split
  · exact ⟨_, rfl⟩
  · exact ⟨x.lat, rfl⟩

/-! ### What delivering results leaves -/

theorem State.thread_deliver_other (t s : State) (g : BitVec 3) (dst : Dst) (shift : Bool) (res : Nat → List Word)
    (fl : Nat → BitVec 5) {k : Nat} (hk : k ∉ s.here.lanes) : (t.deliver s g dst shift res fl).thread k = t.thread k := by
  rw [State.deliver, State.thread_updLanes _ _ _ _ (.inr hk), if_neg hk]

/-- A thread after a word without side effects: as it was, with the results where the guard holds, or idle. -/
theorem State.thread_gives (s : State) (g : BitVec 3) (dst : Dst) (shift : Bool) (res : Nat → List Word)
    (fl : Nat → BitVec 5) (k : Nat) :
    (s.gives g dst shift res fl).thread k = s.thread k ∨
      (s.thread k).guard g = true ∧
        (s.gives g dst shift res fl).thread k = { (s.thread k).put dst shift (res k) with ff := (s.thread k).ff ||| fl k } ∨
      (s.thread k).guard g = false ∧ (s.gives g dst shift res fl).thread k = (s.thread k).idle dst shift := by
  by_cases hk : k ∈ s.here.lanes
  · right
    rw [State.gives, State.deliver, State.thread_updLanes _ _ _ _ (.inl (State.listed_of_here hk)), if_pos hk]
    cases hg : (s.thread k).guard g with
    | true => exact .inl ⟨rfl, if_pos rfl⟩
    | false => exact .inr ⟨rfl, if_neg Bool.false_ne_true⟩
  · exact .inl (State.thread_deliver_other s s g dst shift res fl hk)

end Sys2Proof.Machine

namespace Sys2Proof
open Sys2Proof.Machine

/-- Settles O57: only the threads of the group change, and of each its destination, latches and flags alone. -/
theorem resultFrame : Obligations.ResultFrame := by
  refine ⟨fun s g dst shift res fl => ⟨rfl, rfl, rfl, rfl, rfl, rfl, rfl, rfl, rfl, rfl, rfl, rfl, rfl, rfl,
      fun k hk => State.thread_deliver_other s s g dst shift res fl hk, fun k => ?_⟩,
    fun t s g dst shift res fl => ⟨rfl, fun k hk => State.thread_deliver_other t s g dst shift res fl hk⟩⟩
  rcases s.thread_gives g dst shift res fl k with h | ⟨hg, h⟩ | ⟨-, h⟩
  · rw [h]
    simp
  · obtain ⟨hpc, hwpos, hst, hrm, hra, htags, htrec, hregion, hpreds, hus, hvs⟩ :=
      (s.thread k).put_frame dst shift (res k) ((s.thread k).ff ||| fl k)
    obtain ⟨hpred, hvec, huni⟩ := (s.thread k).put_slots dst shift (res k) ((s.thread k).ff ||| fl k)
    rw [h]
    exact ⟨hpc, hwpos, hst, hrm, hra, htags, htrec, hregion, fun hn => Bool.noConfusion (hg.symm.trans hn),
      hpreds, hus, hvs, hpred, hvec, huni⟩
  · obtain ⟨lat, hidle⟩ := (s.thread k).idle_eq dst shift
    rw [h, hidle]
    simp

end Sys2Proof
end

section
/-! The integer words (06_integer): each operation's function of its operands as the spec writes it. -/

namespace Sys2Proof.Machine

/-! ### Arithmetic -/

theorem sub_eq_ofInt (a b : Word) : a - b = BitVec.ofInt 32 ((a.toNat : Int) - b.toNat) := by
  apply BitVec.eq_of_toInt_eq
  rw [BitVec.toInt_sub, BitVec.toInt_ofInt, BitVec.toInt_eq_toNat_bmod a, BitVec.toInt_eq_toNat_bmod b,
    Int.bmod_sub_bmod, Int.sub_bmod_bmod]

theorem carryOf_eq (a b : Word) : carryOf a b = if 2 ^ 32 ≤ a.toNat + b.toNat then 1 else 0 := by
  simp [carryOf, b2n_eq]

theorem borrowOf_eq (a b : Word) : borrowOf a b = if a.toNat < b.toNat then 1 else 0 := by
  simp [borrowOf, b2n_eq]

theorem minS_eq (a b : Word) : minS a b = if a.toInt ≤ b.toInt then a else b := by
  simp only [minS, ← Int.not_lt, ite_not]

theorem maxS_eq (a b : Word) : maxS a b = if b.toInt ≤ a.toInt then a else b := by
  simp only [maxS, ← Int.not_lt, ite_not]

theorem minN_eq (a b : Word) : (if b < a then b else a) = if a.toNat ≤ b.toNat then a else b := by
  simp only [BitVec.lt_def, ← Nat.not_lt, ite_not]

theorem maxN_eq (a b : Word) : (if a < b then b else a) = if b.toNat ≤ a.toNat then a else b := by
  simp only [BitVec.lt_def, ← Nat.not_lt, ite_not]

/-- A word whose sign bit is set is as much below zero as its negation is above. -/
theorem abs_eq (a : Word) : (if a.msb then -a else a) = BitVec.ofNat 32 a.toInt.natAbs := by
  have ha := a.isLt
  split
  · rename_i hm
    have : 2 ^ 31 ≤ a.toNat := by simpa [BitVec.msb_eq_decide] using hm
    apply BitVec.eq_of_toNat_eq
    rw [BitVec.toNat_neg, BitVec.toNat_ofNat, BitVec.toInt_eq_toNat_cond, if_neg (by omega)]
    congr 1
    omega
  · rename_i hm
    have : a.toNat < 2 ^ 31 := by simpa [BitVec.msb_eq_decide] using hm
    rw [BitVec.toInt_eq_toNat_cond, if_pos (by omega), Int.natAbs_natCast, BitVec.ofNat_toNat, BitVec.setWidth_eq]

theorem divS_eq (a b : Word) : divS a b = if b = 0 then 0xFFFFFFFF else BitVec.ofInt 32 (a.toInt.tdiv b.toInt) := by
  simp only [divS, beq_iff_eq]; rfl

theorem divN_eq (a b : Word) : divN a b = if b = 0 then 0xFFFFFFFF else BitVec.ofNat 32 (a.toNat / b.toNat) := by
  simp only [divN, beq_iff_eq]; rfl

theorem remS_eq (a b : Word) : remS a b = if b = 0 then a else BitVec.ofInt 32 (a.toInt.tmod b.toInt) := by
  simp [remS, Int.tmod_def]

theorem remN_eq (a b : Word) : remN a b = if b = 0 then a else BitVec.ofNat 32 (a.toNat % b.toNat) := by
  simp [remN]

/-! ### Bits and shifts -/

theorem ones_eq (a : Word) : ones a = ((List.range 32).filter fun i => a.getLsbD i).length := by
  simp only [ones, ← List.countP_eq_length_filter, BitVec.getLsbD]
  generalize List.range 32 = l
  induction l with
  | nil => rfl
  | cons i l ih =>
    rw [List.map_cons, List.sum_cons, ih, List.countP_cons, Nat.add_comm]
    rfl

theorem shlW_eq (a b : Word) : shlW a b = BitVec.ofNat 32 (a.toNat * 2 ^ b.toNat) := by
  unfold shlW
  apply BitVec.eq_of_toNat_eq
  split
  · have hd : 2 ^ 32 ∣ a.toNat * 2 ^ b.toNat := Nat.dvd_mul_left_of_dvd (Nat.pow_dvd_pow 2 ‹_›) _
    rw [BitVec.toNat_ofNat, Nat.mod_eq_zero_of_dvd hd]; rfl
  · simp [Nat.shiftLeft_eq]

theorem shrW_eq (a b : Word) : shrW a b = BitVec.ofNat 32 (a.toNat / 2 ^ b.toNat) := by
  unfold shrW
  apply BitVec.eq_of_toNat_eq
  split
  · have hlt : a.toNat < 2 ^ b.toNat := Nat.lt_of_lt_of_le a.isLt (Nat.pow_le_pow_right (by decide) ‹_›)
    simp [Nat.div_eq_of_lt hlt]
  · simp [Nat.shiftRight_eq_div_pow, Nat.mod_eq_of_lt (Nat.lt_of_le_of_lt (Nat.div_le_self _ _) a.isLt)]

/-- Past bit 31 an arithmetic shift has nothing left but the sign. -/
theorem sshiftRight_min (a : Word) (n : Nat) : a.sshiftRight (min n 31) = a.sshiftRight n := by
  rcases Nat.le_total n 31 with h | h
  · rw [Nat.min_eq_left h]
  · rw [Nat.min_eq_right h]
    ext i hi
    rw [BitVec.getElem_sshiftRight, BitVec.getElem_sshiftRight]
    have : a.msb = a.getLsbD 31 := BitVec.msb_eq_getLsbD_last a
    rcases Nat.eq_zero_or_pos i with rfl | h0
    · rcases Nat.eq_or_lt_of_le h with rfl | h1
      · rfl
      · simp [this, show ¬ n < 32 by omega]
    · simp [show ¬ 31 + i < 32 by omega, show ¬ n + i < 32 by omega]

theorem sarW_eq (a b : Word) : sarW a b = BitVec.ofInt 32 (a.toInt / 2 ^ b.toNat) := by
  have hm : Nat.min b.toNat 31 = min b.toNat 31 := rfl
  rw [sarW, hm, sshiftRight_min, BitVec.sshiftRight, Int.shiftRight_eq_div_pow]
  simp

/-! ### Bit fields -/

theorem fieldCtl_eq (c : Word) :
    fieldCtl c = (c.toNat % 32, min (c.toNat / 2 ^ 8 % 64) (32 - c.toNat % 32)) := by
  have hp : bitsOf c.toNat 4 0 = c.toNat % 32 := by simp [bitsOf]
  have hl : bitsOf c.toNat 13 8 = c.toNat / 2 ^ 8 % 64 := rfl
  simp only [fieldCtl, hp, hl, Nat.min_def]

/-- The top bit of a field of `n` bits says whether it lies in the upper half of its range. -/
theorem testBit_top {f n : Nat} (hf : f < 2 ^ n) (hn : n ≠ 0) : f.testBit (n - 1) = decide (2 ^ (n - 1) ≤ f) := by
  obtain ⟨m, rfl⟩ := Nat.exists_eq_succ_of_ne_zero hn
  rw [Nat.succ_eq_add_one, Nat.add_sub_cancel, Nat.testBit_eq_decide_div_mod_eq]
  have : f / 2 ^ m < 2 := Nat.div_lt_of_lt_mul (by rw [← Nat.pow_succ]; exact hf)
  have hiff : f / 2 ^ m % 2 = 1 ↔ 2 ^ m ≤ f := by
    rw [Nat.mod_eq_of_lt this, ← Nat.one_le_div_iff (Nat.two_pow_pos m)]
    omega
  simp [hiff]

theorem bfxS_eq (a c : Word) :
    bfxS a c =
      let pos := c.toNat % 32
      let len := min (c.toNat / 2 ^ 8 % 64) (32 - pos)
      let f := a.toNat / 2 ^ pos % 2 ^ len
      BitVec.ofInt 32 (if len ≠ 0 ∧ 2 ^ (len - 1) ≤ f then (f : Int) - 2 ^ len else f) := by
  simp only [bfxS, bfxN, fieldCtl_eq]
  generalize c.toNat % 32 = pos
  generalize hlen : min (c.toNat / 2 ^ 8 % 64) (32 - pos) = len
  have hl : len ≤ 32 := by omega
  have hf : a.toNat / 2 ^ pos % 2 ^ len < 2 ^ len := Nat.mod_lt _ (Nat.two_pow_pos _)
  have hw : (BitVec.ofNat 32 (a.toNat / 2 ^ pos % 2 ^ len)).toNat = a.toNat / 2 ^ pos % 2 ^ len := by
    rw [BitVec.toNat_ofNat, Nat.mod_eq_of_lt (Nat.lt_of_lt_of_le hf (Nat.pow_le_pow_right (by decide) hl))]
  rw [hw]
  generalize a.toNat / 2 ^ pos % 2 ^ len = f at hf
  by_cases h0 : len = 0
  · subst h0
    simp [show f = 0 by omega]
  · rw [testBit_top hf h0]
    by_cases h1 : 2 ^ (len - 1) ≤ f <;> simp [h0, h1]

/-! ### Pairs -/

/-- The codes of a pair. -/
theorem codesFrom_two (a : BitVec 5) : codesFrom a 2 = [a, a + 1] := by
  simp [codesFrom, List.range_succ]

/-! ### Compares -/

theorem beq_eq_toNat (a b : Word) : (a == b) = (a.toNat == b.toNat) := by
  rw [Bool.eq_iff_iff, beq_iff_eq, beq_iff_eq, BitVec.toNat_inj]

end Sys2Proof.Machine

namespace Sys2Proof
open Sys2Proof.Machine

/-- Settles O1: each word's function of the model is the one that 06_integer writes. -/
theorem integerWords : Obligations.IntegerWords := by
  refine ⟨⟨?_, ?_, ?_, ?_, ?_, ?_, ?_, ?_, ?_, ?_, ?_, ?_, ?_, ?_, ?_, ?_⟩,
    ?_, ?_, ?_, ?_, ?_, ?_, ?_, ?_, ?_, ?_, ?_, ?_, ?_⟩
  · exact completesA_of (fun _ _ => rfl) fun _ _ => BitVec.add_def ..
  · exact completesA_of (fun _ _ => rfl) sub_eq_ofInt
  · exact completesA_of (fun _ _ => rfl) carryOf_eq
  · exact completesA_of (fun _ _ => rfl) borrowOf_eq
  · exact completesA_of (fun _ _ => rfl) minS_eq
  · exact completesA_of (fun _ _ => rfl) minN_eq
  · exact completesA_of (fun _ _ => rfl) maxS_eq
  · exact completesA_of (fun _ _ => rfl) maxN_eq
  · exact completesA_of (fun _ _ => rfl) fun a _ => abs_eq a
  · exact completesA_of (fun _ _ => rfl) fun _ _ => BitVec.mul_def ..
  · exact completesA_of (fun _ _ => rfl) fun _ _ => rfl
  · exact completesA_of (fun _ _ => rfl) fun _ _ => rfl
  · exact completesA_of (fun _ _ => rfl) divS_eq
  · exact completesA_of (fun _ _ => rfl) divN_eq
  · exact completesA_of (fun _ _ => rfl) remS_eq
  · exact completesA_of (fun _ _ => rfl) remN_eq
  · exact completesA_of (fun _ _ => rfl) fun _ _ => rfl
  · exact completesA_of (fun _ _ => rfl) fun _ _ => rfl
  · exact completesA_of (fun _ _ => rfl) fun _ _ => rfl
  · exact completesA_of (fun _ _ => rfl) fun _ _ => rfl
  · exact completesA_of (fun _ _ => rfl) fun a _ => congrArg _ (ones_eq a)
  · exact completesA_of (fun _ _ => rfl) fun _ _ => rfl
  · exact completesA_of (fun _ _ => rfl) fun _ _ => rfl
  · exact completesA_of (fun _ _ => rfl) shlW_eq
  · exact completesA_of (fun _ _ => rfl) shrW_eq
  · exact completesA_of (fun _ _ => rfl) sarW_eq
  · exact completesA_of (fun _ _ => rfl) fun _ _ => rfl
  · exact completesA_of (fun _ _ => rfl) fun a c => by simp only [bfxN, fieldCtl_eq]
  · exact completesA_of (fun _ _ => rfl) bfxS_eq

/-- Settles O2: the words of three operands, of an immediate and of pairs, and the compares, each by its function. -/
theorem wideIntegersAndCompares : Obligations.WideIntegersAndCompares := by
  refine ⟨⟨?_, ?_, ?_, ?_, ?_, ?_⟩, ?_, ?_, ?_, ?_, ?_, ?_, ?_, ?_, ?_, ?_, ?_, ?_, ?_, ?_⟩
  · exact completesT_of (fun _ _ => rfl) fun a b c => by
      rw [BitVec.ofNat_add, BitVec.ofNat_mul]; simp only [BitVec.ofNat_toNat, BitVec.setWidth_eq]
  · exact completesT_of (fun _ _ => rfl) fun a b c => by simp only [bfiW, fieldCtl_eq]
  · intro s o a h
    exact congrArg _ (State.laneWord_gives h (by simp) (one fun k => a k + o.imm.signExtend 32) noFlags fun _ _ => rfl)
  · intro s o lo hi b h
    show Host.Outcome.next (State.laneWord _ _ _ _ (codesFrom o.a 2 ++ [o.b]) _ _ _ _) = _
    rw [codesFrom_two]
    exact congrArg _ (State.laneWord_gives h (by simp) (fun k => words2 (dw (lo k) (hi k) + (b k).signExtend 64)) noFlags
      fun _ _ => rfl)
  · intro s o a g h ht
    refine congrArg _ (State.laneWord_gives h (by simp) (fun k => words2 (tagPointer (coreOf k) (a k) (g k))) noFlags
      fun k hk => ?_)
    have : tagCause (val [a k, g k] 1) = none := ht k hk
    simp only [this]
    rfl
  · intro s o lo hi q h hq
    show Host.Outcome.next (State.laneWord _ _ _ _ (codesFrom o.a 2) _ _ _ _) = _
    rw [codesFrom_two]
    refine congrArg _ (State.laneWord_gives h (by simp) (fun k => words2 (q k)) noFlags fun k hk => ?_)
    have : leaPointer (val2 [lo k, hi k] 0) o.imm = some (q k) := hq k hk
    simp only [this]
    rfl
  · exact completesP_of (fun _ _ => rfl) beq_eq_toNat
  · exact completesP_of (fun _ _ => rfl) fun a b => congrArg not (beq_eq_toNat a b)
  · exact completesP_of (fun _ _ => rfl) fun _ _ => rfl
  · exact completesP_of (fun _ _ => rfl) fun _ _ => rfl
  · exact completesP_of (fun _ _ => rfl) fun _ _ => rfl
  · exact completesP_of (fun _ _ => rfl) fun _ _ => rfl
  · exact completesP_of (fun _ _ => rfl) fun _ _ => rfl
  · exact completesP_of (fun _ _ => rfl) fun _ _ => rfl
  · exact completesP_of (fun _ _ => rfl) fun _ _ => rfl
  · exact completesP_of (fun _ _ => rfl) fun _ _ => rfl
  · exact completesPP_of (fun _ _ => rfl) fun _ _ => rfl
  · exact completesPP_of (fun _ _ => rfl) fun _ _ => rfl
  · exact completesPP_of (fun _ _ => rfl) fun _ _ => rfl
  · exact completesPP_of (fun _ _ => rfl) fun _ _ => rfl

end Sys2Proof
end

section
/-! The floating-point words (07_float), and the words that act octet by octet. -/

namespace Sys2Proof.Machine

/-! ### Octets (R138) -/

/-- The lanes of a list, octet position by octet position. -/
def octetwise (ks : List Nat) : List Nat := (List.range 8).flatMap fun c => ks.filter fun k => laneOf k / 8 == c

theorem mem_octetwise {ks : List Nat} {k : Nat} : k ∈ octetwise ks ↔ k ∈ ks := by
  have : laneOf k / 8 < 8 := by unfold laneOf; omega
  simp [octetwise, this]

theorem octetMismatch_of_agree {ks : List Nat} (h : ∀ j ∈ ks, ∀ k ∈ ks, yardOf j = yardOf k) : octetMismatch ks = none := by
  cases ks with
  | nil => rfl
  | cons k r =>
    simp only [octetMismatch, List.find?_eq_none, bne_iff_ne, ne_eq, Classical.not_not]
    exact fun j hj => h j (by simp [hj]) k (by simp)

/-- Lanes whose octets lie in one yard each act octet by octet. -/
theorem byOctet_map {α : Type} {ks : List Nat} {rd : Nat → α} {f : List (Nat × α) → List (Nat × LaneOut)} (hf : f [] = [])
    (h : ∀ j ∈ ks, ∀ k ∈ ks, laneOf j / 8 = laneOf k / 8 → yardOf j = yardOf k) :
    byOctet (ks.map fun k => (k, rd k)) f =
      (List.range 8).flatMap fun c => f ((ks.filter fun k => laneOf k / 8 == c).map fun k => (k, rd k)) := by
  unfold byOctet
  congr 1
  funext c
  have hm : octetMismatch (ks.filter fun k => laneOf k / 8 == c) = none := by
    apply octetMismatch_of_agree
    simp only [List.mem_filter, beq_iff_eq, and_imp]
    exact fun j hj hjc k hk hkc => h j hj k hk (hjc.trans hkc.symm)
  simp only [List.filter_map, Function.comp_def, List.map_map, List.map_id', List.isEmpty_map]
  generalize ks.filter (fun k => laneOf k / 8 == c) = l at hm
  cases l with
  | nil => exact hf.symm
  | cons k r => simp only [hm, List.isEmpty_cons, Bool.false_eq_true, ↓reduceIte]

/-- The same where the octets' results do not depend on each other: the lanes answer in the order of their octets. -/
theorem byOctet_map_lanes {α : Type} {ks : List Nat} {rd : Nat → α} {F : Nat × α → LaneOut}
    (h : ∀ j ∈ ks, ∀ k ∈ ks, laneOf j / 8 = laneOf k / 8 → yardOf j = yardOf k) :
    byOctet (ks.map fun k => (k, rd k)) (fun l => l.map fun p => (p.1, F p)) =
      (octetwise ks).map fun k => (k, F (k, rd k)) := by
  rw [byOctet_map rfl h, octetwise, List.map_flatMap]
  simp only [List.map_map, Function.comp_def]

/-- Lanes that are done, in whatever order they answer. -/
theorem State.deliverOuts_map {t s : State} {g : BitVec 3} {dst : Dst} (hu : ∀ n d, dst ≠ .uni n d) {shift : Bool}
    {ks : List Nat} (h : ∀ k, k ∈ ks ↔ k ∈ s.active s.here g) (res : Nat → List Word) (fl : Nat → BitVec 5) :
    t.deliverOuts s dst shift (ks.map fun k => (k, doneFl (res k) (fl k))) = t.deliver s g dst shift res fl := by
  unfold State.deliverOuts State.deliver
  apply State.updLanes_congr
  intro k hk x
  rw [outOf_map]
  by_cases hg : (s.thread k).guard g = true
  · rw [if_pos ((h k).mpr (State.mem_active.mpr ⟨hk, hg⟩)), if_pos hg]
    exact Thread.applyOut_done _ _ _ _ _ _ _ hu _ _
  · rw [if_neg (fun hm => hg (State.mem_active.mp ((h k).mp hm)).2), if_neg hg]
    exact Thread.applyOut_off _ _ _ _ _ _ _ hu

/-! ### MXPACK of an octet -/

/-- Every lane of an octet with one RM is done. -/
theorem packOctet_done {s : State} {f : Fmt} {sat : Bool} {l : List (Nat × List Word)}
    (h : ∀ p ∈ l, ∀ q ∈ l, (s.thread p.1).rm = (s.thread q.1).rm) :
    ∃ F : Nat × List Word → LaneRes, (∀ p, (F p).tag = none) ∧ packOctet s f sat l = l.map fun p => (p.1, .done (F p)) := by
  cases l with
  | nil => exact ⟨fun _ => ⟨[], 0, none, none⟩, fun _ => rfl, rfl⟩
  | cons p r =>
    have hn : r.find? (fun q => (s.thread q.1).rm != (s.thread p.1).rm) = none := by
      simp only [List.find?_eq_none, bne_iff_ne, ne_eq, Classical.not_not]
      exact fun q hq => h q (by simp [hq]) p (by simp)
    simp only [packOctet, hn]
    split
    · exact ⟨_, fun _ => rfl, rfl⟩
    · exact ⟨_, fun _ => rfl, rfl⟩

theorem elementFmt_bits (w : Word) : elementFmt (bitsOf w.toNat 2 0) = elementFmt (w.toNat % 8) := by
  simp [bitsOf]

theorem codesFrom_four (a : BitVec 5) : codesFrom a 4 = [a, a + 1, a + 2, a + 3] := by
  simp [codesFrom, List.range_succ]

/-- A word whose lanes name one legal format acts on it (R185). -/
theorem uniformly_format {key : List Word → Word} {ks : List Nat} {rd : Nat → List Word} {w : Word} {s : State} {tr : Trap}
    (ok : Word → List (Nat × List Word) → List (Nat × LaneOut)) (h0 : ∀ w, ok w [] = [])
    (hw : ∀ k ∈ ks, key (rd k) = w) (hf : formatOk w = true) :
    uniformly key (ks.map fun k => (k, rd k)) s
      (let w := key (lead (ks.map fun k => (k, rd k)))
       if !formatOk w then (s, (ks.map fun k => (k, rd k)).map fun p => (p.1, .trap tr))
       else (s, ok w (ks.map fun k => (k, rd k)))) = (s, ok w (ks.map fun k => (k, rd k))) := by
  rw [uniformly_of_none (firstMismatch_map key ks rd w hw)]
  cases ks with
  | nil => simp [h0]
  | cons k r =>
    have : key (lead ((k :: r).map fun k => (k, rd k))) = w := hw k (by simp)
    simp only [this, hf, Bool.not_true, Bool.false_eq_true, ↓reduceIte]

theorem packOctet_nil (s : State) (f : Fmt) (sat : Bool) : packOctet s f sat [] = [] := rfl

end Sys2Proof.Machine

namespace Sys2Proof
open Sys2Proof.Machine

/-- Settles O3: each arithmetic word rounds once, by its function. -/
theorem floatArithmetic : Obligations.FloatArithmetic := by
  refine ⟨fun ty => ?_, fun ty => ?_, fun ty => ?_, fun ty => ?_, fun ty => ?_, fun ty => ?_, ?_, ?_, ?_, ?_, ?_⟩
  · exact completesF_of fun _ _ => rfl
  · exact completesF_of fun _ _ => rfl
  · exact completesF_of fun _ _ => rfl
  · exact completesF_of fun _ _ => rfl
  · exact completesF_of fun _ _ => rfl
  · exact completesF_of fun _ _ => rfl
  · exact completesFT_of fun _ _ => rfl
  · exact completesFT_of fun _ _ => rfl
  · exact completesFT_of fun _ _ => rfl
  · exact completesF_of fun _ _ => rfl
  · have hi (w : Word) : w.toNat / 65536 % 65536 = w.toNat / 65536 := Nat.mod_eq_of_lt (by omega)
    simp only [hi]
    exact completesF_of fun _ _ => rfl

/-- Settles O4: functions, compares and conversions. -/
theorem floatFunctionsAndConversions : Obligations.FloatFunctionsAndConversions := by
  refine ⟨⟨?_, ?_, ?_, ?_, ?_, ?_, ?_, ?_, ?_, ?_⟩, ⟨?_, ?_, ?_, ?_, ?_, ?_, ?_, ?_, ?_, ?_, ?_, ?_, ?_, ?_, ?_⟩⟩
  · exact completesF_of fun _ _ => rfl
  · exact completesF_of fun _ _ => rfl
  · exact completesF_of fun _ _ => rfl
  · exact completesF_of fun _ _ => rfl
  · exact completesF_of fun _ _ => rfl
  · exact completesF_of fun _ _ => rfl
  · exact completesF_of fun _ _ => rfl
  · exact completesF_of fun _ _ => rfl
  · exact completesF_of fun _ _ => rfl
  · exact completesF_of fun _ _ => rfl
  · exact completesFP_of fun _ _ => rfl
  · exact completesFP_of fun _ _ => rfl
  · exact completesFP_of fun _ _ => rfl
  · exact completesFP_of fun _ _ => rfl
  · exact completesFP_of fun _ _ => rfl
  · exact completesFP_of fun _ _ => rfl
  · exact completesFP_of fun _ _ => rfl
  · exact completesF_of fun _ _ => rfl
  · exact completesF_of fun _ _ => rfl
  · exact completesF_of fun _ _ => rfl
  · exact completesF_of fun _ _ => rfl
  · exact completesF_of fun _ _ => rfl
  · exact completesF_of fun _ _ => rfl
  · exact completesF_of fun _ _ => rfl
  · exact completesF_of fun _ _ => rfl

/-- Settles O5: octet by octet, MXPACK with the octet's shared scale and MXUNPK with the sideband byte of the source. -/
theorem granules : Obligations.Granules := by
  refine ⟨?_, ?_⟩
  · intro s o rd w h hw hf ho hm
    show Host.Outcome.next (State.groupWord _ _ _ _ (codesFrom o.a 4 ++ [o.b]) _ _ _ _) = _
    rw [codesFrom_four]
    refine congrArg _ (State.groupWord_outs h (outs := (List.range 8).flatMap fun c =>
      packOctet s (elementFmt (w.toNat % 8)) (w.getLsbD 3) ((s.octetOf o.g c).map fun k => (k, rd k))) ?_ ?_ (State.kept_all rfl))
    · refine (uniformly_format (key := fun ws => val ws 4) (fun w ins =>
        byOctet ins (packOctet s (elementFmt (bitsOf w.toNat 2 0)) (bitOf w.toNat 3))) (fun _ => rfl) hw hf).trans ?_
      simp only [byOctet_map (packOctet_nil _ _ _) ho, elementFmt_bits]
      rfl
    · intro p hp
      obtain ⟨c, -, hp⟩ := List.mem_flatMap.mp hp
      have hsub : ∀ k ∈ s.octetOf o.g c, k ∈ s.active s.here o.g ∧ laneOf k / 8 = c := by simp [State.octetOf]
      obtain ⟨F, hF, e⟩ := packOctet_done (s := s) (f := elementFmt (w.toNat % 8)) (sat := w.getLsbD 3)
        (l := (s.octetOf o.g c).map fun k => (k, rd k)) (by
          simp only [List.mem_map, forall_exists_index, and_imp]
          rintro _ j hj rfl _ k hk rfl
          exact hm j (hsub j hj).1 k (hsub k hk).1 ((hsub j hj).2.trans (hsub k hk).2.symm))
      simp only [e, List.map_map, List.mem_map] at hp
      obtain ⟨k, hk, rfl⟩ := hp
      exact ⟨⟨_, rfl, hF _⟩, (hsub k hk).1⟩
  · intro s o a w h hf ho ha
    refine congrArg _ ((State.groupWord_outs h (outs := (octetwise (s.active s.here o.g)).map fun k =>
      (k, doneFl ((List.range 4).map fun j => (s.unpacked o.a w k (a k) j).1)
        (((List.range 4).map fun j => (s.unpacked o.a w k (a k) j).2).foldl (fun x y => x ||| y) 0))) ?_ ?_
      (State.kept_all rfl)).trans (State.deliverOuts_map (by simp) (fun _ => mem_octetwise) _ _))
    · refine (uniformly_format (key := fun ws => val ws 1) (w := w)
        (fun w ins => byOctet ins fun l => l.map fun p : Nat × List Word =>
        let t := s.thread p.1
        let scale := match t.view.vs[o.a.toNat]? with
          | none => 0
          | some v => v.sb.toNat
        let rs := (List.range 4).map fun j =>
          unpackElement (elementFmt (bitsOf w.toNat 2 0)) t.rmode scale ((val p.2 0).toNat / 256 ^ j % 256)
        (p.1, .done { vals := rs.map fun r => r.1, ff := rs.foldl (fun acc r => acc ||| r.2) 0, sb := none, tag := none }))
        (fun _ => rfl) (fun _ _ => rfl) hf).trans ?_
      dsimp only
      rw [byOctet_map_lanes ho]
      simp only [elementFmt_bits]
      congr 2
      funext k
      simp only [State.unpacked, doneFl, List.map_map, Function.comp_def]
      cases (s.thread k).view.vs[o.a.toNat]? <;> rfl
    · intro p hp
      obtain ⟨k, hk, rfl⟩ := List.mem_map.mp hp
      exact ⟨⟨_, rfl, rfl⟩, mem_octetwise.mp hk⟩

end Sys2Proof
end

section
/-! Moves, special registers, the partition pool and spills (05_registers). -/

namespace Sys2Proof.Machine

/-! ### Lanes that are done -/

theorem done_lane (k : Nat) : ∀ p ∈ [(k, doneWith [])], ∃ vals, p.2 = doneWith vals := fun p hp =>
  ⟨[], by rw [List.mem_singleton.mp hp]⟩

theorem done_lanes (ks : List Nat) : ∀ p ∈ ks.map fun k => (k, doneWith []), ∃ vals, p.2 = doneWith vals := fun p hp => by
  obtain ⟨k, -, rfl⟩ := List.mem_map.mp hp
  exact ⟨[], rfl⟩

theorem filter_always {α : Type} (l : List α) : l.filter (fun _ => true) = l :=
  List.filter_eq_self.mpr fun _ _ => rfl

theorem filterMap_never {α β : Type} (l : List α) : l.filterMap (fun _ => (none : Option β)) = [] :=
  List.filterMap_eq_nil_iff.mpr fun _ _ => rfl

/-! ### STAGE -/

/-- Registers that no range covers are in no copy and not faulted. -/
theorem State.stageTrap_none {s : State} {k : Nat} {vr more : List Nat} (h : s.regRanges k (vr ++ more) = [])
    (hp : ∀ r ∈ vr, s.mem.poison.contains (regKey k r) = false) : s.stageTrap k vr = none := by
  have hr : s.regRanges k vr = [] := by
    simp only [State.regRanges, List.flatMap_append, List.append_eq_nil_iff] at h
    exact h.1
  have ha : (vr.any fun r => s.mem.poison.contains (regKey k r)) = false := by
    rw [List.any_eq_false]
    exact fun r hm => by simp only [hp r hm, Bool.false_eq_true, not_false_eq_true]
  simp only [State.stageTrap, hr, List.find?_nil, ha, Bool.false_eq_true, ↓reduceIte]

theorem octetTrap_single (k : Nat) : octetTrap [k] k = none := by
  simp [octetTrap, octetMismatch]

/-- A thread that stages a region that it may, alone in its group. -/
theorem State.eachLane_single {s : State} {k : Nat} {ws : List Word} (f : State → Nat → List Word → State × LaneOut) :
    s.eachLane [(k, ws)] f = ((f s k ws).1, [(k, (f s k ws).2)]) := rfl

/-- A word without operands or destination is ready. -/
theorem State.reads_nil (s : State) (g : BitVec 3) : s.Reads g [] 0 fun _ => [] := fun _ _ => rfl

/-! ### Special registers -/

/-- A register below the cycle counter's high half reads nothing that a read of the counter changes. -/
theorem State.rdsrLane_of {s : State} {i : Instr} {k n : Nat} {v : Word} (hn : n ≠ 0x0E) (h : s.readSpecial k n = some v) :
    s.rdsrLane i k n = (s, doneWith [v]) := by
  simp [State.rdsrLane, h, hn]

theorem State.rdsrLane_cyc {s : State} {i : Instr} {k : Nat} {c : DWord} (h : (s.core (coreOf k)).cyc = c) :
    s.rdsrLane i k 0x0E = (s.modThread k fun x => { x with cychi := c.extractLsb' 32 32 }, doneWith [c.extractLsb' 0 32]) := by
  subst h; rfl

theorem State.core_modThread (s : State) (k c : Nat) (f : Thread → Thread) : (s.modThread k f).core c = s.core c := rfl

/-- A thread-level register takes the low bits of the value, where the value is one that it takes. -/
theorem Thread.writeSpecial_of {t : Thread} {n : Nat} {v : Word} :
    n ≤ 3 → (n = 1 → v.toNat % 8 < 5) → t.writeSpecial n v = some (match n with
      | 0 => { t with ra := v.extractLsb' 0 16 }
      | 1 => { t with rm := v.extractLsb' 0 3 }
      | 2 => { t with ff := v.extractLsb' 0 5 }
      | _ => { t with preds := v.extractLsb' 0 8 }) := by
  intro hn h1
  match n, hn with
  | 0, _ => rfl
  | 1, _ => simp [Thread.writeSpecial, h1 rfl]
  | 2, _ => rfl
  | 3, _ => rfl

/-- Changes of one thread after another keep every other state's part, the threads that are listed and their tags and slots. -/
theorem State.kept_foldl_modThread {s : State} {g : Nat → Thread → Thread} (hg : ∀ k x, (g k x).tags = x.tags ∧ (g k x).vs = x.vs)
    (ks : List Nat) {t : State} {j : Nat} (h : t.Kept s j) : (ks.foldl (fun t k => t.modThread k (g k)) t).Kept s j := by
  induction ks generalizing t with
  | nil => exact h
  | cons k r ih =>
    apply ih
    refine State.Kept.trans ⟨?_, ?_, ?_⟩ h
    · show (Map.find? (Map.set t.fab.threads k _) j).isSome = true
      by_cases e : j = k
      · rw [e, Map.find?_set_same]; rfl
      · rw [Map.find?_set_other _ _ _ _ e]; exact h.1
    all_goals
      rw [State.thread_modThread]
      split
      · subst j; simp [hg]
      · rfl

end Sys2Proof.Machine

namespace Sys2Proof
open Sys2Proof.Machine

/-- Settles O7: a copy, a pick, and a region established in a group of one thread. -/
theorem movesAndStage : Obligations.MovesAndStage := by
  refine ⟨⟨?_, ?_, ?_, ?_⟩, ?_⟩
  · intro s o a b ha h
    refine congrArg _ ((if_neg (by omega)).trans (State.vecA_gives _ h))
  · intro s o a ha h ho
    refine congrArg _ ((if_pos ha).trans (State.groupWord_outs h ?_ ?_ (State.kept_all rfl)))
    · refine congrArg (Prod.mk s) ((byOctet_map rfl ho).trans ?_)
      simp only [List.map_map]
      rfl
    · simp only [List.mem_flatMap, List.mem_map, State.octetOf, List.mem_filter]
      rintro p ⟨c, -, k, ⟨hk, -⟩, rfl⟩
      exact ⟨⟨_, rfl, rfl⟩, hk⟩
  · intro s o a h
    exact congrArg _ (State.groupWord_givesUni h (one a) (congrArg _ List.map_map) (State.kept_all rfl))
  · intro s o a b h
    exact congrArg _ (State.laneWord_gives h (by simp) (one fun k => if s.pval k o.e then a k else b k) noFlags fun _ _ => rfl)
  · intro s o k hl hg hok hrr hp
    have hact : s.active s.here 7 = [k] := by
      rw [State.active, hl]; exact List.filter_cons_of_pos hg
    refine congrArg _ (State.groupWord_none (rd := fun _ => []) (outs := [(k, doneWith [])]) (s.reads_nil 7) ?_ (done_lane k))
    have hlive : s.regsLive k (o.vregs ++ (s.thread k).dirtyRegs) = false := by simp [State.regsLive, hrr]
    simp only [hact, List.map_cons, List.map_nil, List.any_cons, List.any_nil, hlive, Bool.and_false, Bool.or_false,
      Bool.false_eq_true, ↓reduceIte, State.eachLane_single, octetTrap_single, hok, Bool.not_true, State.stageTrap_none hrr hp,
      State.memDone_dw]
    rfl

/-- Settles O8: the active lanes read or write in turn, or once for the yard. -/
theorem specialRegisters : Obligations.SpecialRegisters := by
  refine ⟨?_, ?_, ?_, ?_⟩
  · intro s o n v h hn hv
    refine congrArg _ (State.groupWord_gives h (by simp) (one v) noFlags ?_ (State.kept_all rfl))
    refine (uniformly_of_none (firstMismatch_map _ _ _ n fun _ _ => rfl)).trans (State.eachLane_still _ fun k hk => ?_)
    exact State.rdsrLane_of (n := n.toNat) (fun e => hn (BitVec.eq_of_toNat_eq e)) (hv k hk)
  · intro s o h
    refine congrArg _ (State.groupWord_gives h (by simp) (one fun k => (s.core (coreOf k)).cyc.extractLsb' 0 32) noFlags ?_
      fun k hk => State.kept_foldl_modThread (by simp) _ (State.kept_all rfl k hk))
    refine (uniformly_of_none (firstMismatch_map _ _ _ 0x0E fun _ _ => rfl)).trans ?_
    exact State.eachLane_fold (fun t => ∀ c, t.core c = s.core c) _ _ (fun _ => rfl) fun t ht k hk =>
      ⟨State.rdsrLane_cyc (congrArg _ (ht _)), ht⟩
  · intro s o n v h hn h1
    refine congrArg _ (State.groupWord_none (outs := (s.active s.here o.g).map fun k => (k, doneWith [])) h ?_ (done_lanes _))
    refine (uniformly_of_none (firstMismatch_map _ _ _ n fun _ _ => rfl)).trans ?_
    rcases hact : s.active s.here o.g with _ | ⟨k0, ks⟩
    · rfl
    rw [← hact]
    have hl : val (lead ((s.active s.here o.g).map fun k => (k, [n, v k]))) 0 = n := by rw [hact]; rfl
    have hlow : (decide (0x0A ≤ n.toNat) && decide (n.toNat ≤ 0x0D)) = false := by
      rw [decide_eq_false (by omega), Bool.false_and]
    simp only [hl, hlow, Bool.false_eq_true, ↓reduceIte]
    refine State.eachLane_fold (fun _ => True) _ _ trivial fun t _ k hk => ⟨?_, trivial⟩
    have hw := Thread.writeSpecial_of (t := t.thread k) (v := v k) hn fun e => h1 (BitVec.eq_of_toNat_eq e) k hk
    simp only [State.wrsrLane]
    rw [show val [n, v k] 1 = v k from rfl, hw]
    rfl
  · intro s o n v y k0 ks h hlo hhi hy hact
    refine congrArg _ (State.groupWord_none (outs := (s.active s.here o.g).map fun k => (k, doneWith [])) h ?_ (done_lanes _))
    refine (uniformly_of_none (firstMismatch_map _ _ _ n fun _ _ => rfl)).trans ?_
    have hl : val (lead ((s.active s.here o.g).map fun k => (k, [n, v k]))) 0 = n := by rw [hact]; rfl
    have hv : val (lead ((s.active s.here o.g).map fun k => (k, [n, v k]))) 1 = v k0 := by rw [hact]; rfl
    have hyard : (decide (0x0A ≤ n.toNat) && decide (n.toNat ≤ 0x0D)) = true := by
      rw [decide_eq_true hlo, decide_eq_true hhi, Bool.and_self]
    simp only [hl, hyard, ↓reduceIte]
    rw [State.eachYard_one _ _ hy.1 hy.2 0 fun _ _ => rfl, hv, allDone_map]

end Sys2Proof
end

section
/-! The partition pool's words and whole spill bursts (05_registers 5.3, 5.7). -/

namespace Sys2Proof.Machine

/-! ### Bursts -/

/-- Lanes of one yard are never split by it. -/
theorem octetTrap_yard {ks : List Nat} {y k : Nat} (h : ∀ j ∈ ks, yardOf j = y) : octetTrap ks k = none := by
  have : octetMismatch (ks.filter fun j => laneOf j / 8 == laneOf k / 8) = none := by
    apply octetMismatch_of_agree
    simp only [List.mem_filter]
    exact fun i hi j hj => (h i hi.1).trans (h j hj.1).symm
  simp [octetTrap, this]

/-- A burst whose range carries no tag and no poison, and whose every line moves, completes in each of its lanes. -/
theorem State.spillFrom_done {s t : State} {j : Job} (ht : j.fill = false → s.spillTags j = [])
    (hp : j.fill = false → ∀ k ∈ yardLanes j.yard, ∀ i < j.count,
      (j.lanes.foldl (fun s k => s.writeBack k) s).mem.poison.contains (regKey k (j.first + i)) = false)
    (hr : (if j.fill then s else j.lanes.foldl (fun s k => s.writeBack k) s).runBurst j (j.lanes.headD 0) 0 j.total = (t, .done)) :
    s.spillFrom j j.lanes 0 =
      (if j.fill then j.lanes.foldl (fun s k => s.reloadSlots k j) t else t, j.lanes.map fun k => (k, doneWith [])) := by
  have htag : (if j.fill = true then [] else s.spillTags j) = [] := by
    cases hf : j.fill
    · exact ht hf
    · rfl
  have hbad : (!j.fill && (yardLanes j.yard).any fun k => (List.range j.count).any fun i =>
      (if j.fill then s else j.lanes.foldl (fun s k => s.writeBack k) s).mem.poison.contains (regKey k (j.first + i))) = false := by
    cases hf : j.fill
    · simp only [Bool.not_false, Bool.true_and, Bool.false_eq_true, ↓reduceIte, List.any_eq_false, Bool.not_eq_true, List.mem_range]
      exact hp hf
    · rfl
  simp only [State.spillFrom, htag, List.find?_nil, List.foldl_nil, hbad, Bool.false_eq_true, ↓reduceIte, State.burst,
    Nat.sub_zero, hr]

/-- A spill word of the lanes of one yard that has no unfinished burst is one burst. -/
theorem State.spill_gives {s t : State} {i : Instr} {o : OpM} {fill : Bool} {ws : List Word} {y : Nat} {j : Job}
    (h : s.Reads o.g (addrCodes o ++ [o.d]) o.lit fun _ => ws) (hy : s.InYard o.g y) (hb : (s.yard y).burst = none)
    (hj : j = { pc := s.here.pc, w := s.here.w, yard := y, fill := fill, lanes := s.active s.here o.g, addr := eaOf ws 1,
                desc := val ws 3, gran := o.sz.toNat == 3 })
    (ht : s.spillTrap i j = none)
    (hd : s.spillFrom j j.lanes 0 = (t, j.lanes.map fun k => (k, doneWith []))) : s.spill i o fill = t := by
  obtain ⟨hne, hyard⟩ := hy
  unfold State.spill
  refine State.groupWord_none (outs := (s.active s.here o.g).map fun k => (k, doneWith [])) h ?_ (done_lanes _)
  have hsplit (k : Nat) : octetTrap (s.active s.here o.g) k = none := octetTrap_yard hyard
  have hres : ∀ k ∈ s.active s.here o.g, s.resuming s.here k = false := fun k hk => by
    simp only [State.resuming, hyard k hk, hb]
  have hlead : lead ((s.active s.here o.g).map fun k => (k, ws)) = ws := lead_map hne fun _ _ => rfl
  have hjob := hj.symm
  have hlanes : j.lanes = s.active s.here o.g := by rw [hj]
  have hnew : ((s.active s.here o.g).map fun k => (k, ws)).filter (fun p => !s.resuming s.here p.1) =
      (s.active s.here o.g).map fun k => (k, ws) := by
    rw [List.filter_eq_self]
    simp only [List.mem_map]
    rintro _ ⟨k, hk, rfl⟩
    simp [hres k hk]
  have hback : ((s.active s.here o.g).map fun k => (k, ws)).filter (fun p => s.resuming s.here p.1) = [] := by
    rw [List.filter_eq_nil_iff]
    simp only [List.mem_map]
    rintro _ ⟨k, hk, rfl⟩
    simp [hres k hk]
  simp only [List.map_map, Function.comp_def, List.map_id', hsplit, ite_self, Option.isNone_none, filter_always, Option.map_none,
    filterMap_never, hnew, hback, State.eachYard_nil, List.nil_append]
  rw [State.eachYard_one _ _ hne hyard ws fun _ _ => rfl]
  rw [hlanes] at hd
  simp only [hlead, List.map_map, Function.comp_def, List.map_id', hjob, ht, hd, State.memDone_all]

/-! ### Words whose lanes read the same -/

/-- Lanes of one yard that read the same values act once. -/
theorem State.eachYard_const {β : Type} [DecidableEq β] {s : State} {ks : List Nat} {y : Nat} (ws : List Word)
    (key : List Word → β) (f : State → Nat → List (Nat × List Word) → State × List (Nat × LaneOut)) (hn : ks ≠ [])
    (hy : ∀ k ∈ ks, yardOf k = y) : s.eachYard (ks.map fun k => (k, ws)) key f = f s y (ks.map fun k => (k, ws)) :=
  State.eachYard_one (rd := fun _ => ws) key f hn hy (key ws) fun _ _ => rfl

theorem lead_const {ks : List Nat} (ws : List Word) (hn : ks ≠ []) : lead (ks.map fun k => (k, ws)) = ws :=
  lead_map hn fun _ _ => rfl

end Sys2Proof.Machine

namespace Sys2Proof
open Sys2Proof.Machine

/-- Settles O9: words declared uniform act once for the yard, and a burst is one job. -/
theorem poolRegistersAndSpills : Obligations.PoolRegistersAndSpills := by
  refine ⟨⟨?_, ?_, ?_⟩, ?_, ?_⟩
  · intro s o a b y h hy h9 h6 hu
    refine congrArg _ (State.groupWord_givesUni h (fun _ => [s.ureg y (192 + a.toNat % 64)]) ?_ ?_)
    · refine (State.eachYard_const _ _ _ hy.1 hy.2).trans ?_
      have h31 : bitsOf a.toNat 31 9 = 0 := by simp only [bitsOf]; omega
      have h76 : bitsOf a.toNat 7 6 = 0 := h6
      have h50 : bitsOf a.toNat 5 0 = a.toNat % 64 := by simp [bitsOf]
      have hsome : (s.uhome y (192 + a.toNat % 64)).isNone = false := by simpa using hu
      have ha : val [a, b] 0 = a := rfl
      have hb : val [a, b] 1 = b := rfl
      simp only [lead_const _ hy.1, ha, hb, h31, h76, h50, hsome, bne_self_eq_false, Bool.or_false, Bool.false_eq_true,
        ↓reduceIte, allDone_map, bitOf]
      rfl
    · intro k hk
      refine State.kept_of_threads ?_ (State.active_sub hk)
      split
      · simp only [State.setUreg]
        split <;> rfl
      · rfl
  · intro s o n y h hy hsc h7 h24
    have hn : val [n] 0 = n := rfl
    have hfit : (decide (7 < n.toNat) || decide (24 < n.toNat + (s.residentYards (yardPart y)).length)) = false := by
      rw [decide_eq_false (by omega), decide_eq_false (by omega), Bool.or_self]
    refine ⟨fun hle => ?_, fun hlt hq hf => ?_⟩
    · refine congrArg _ (State.groupWord_none (outs := (s.active s.here o.g).map fun k => (k, doneWith [])) h ?_ (done_lanes _))
      simp only [hsc, Bool.not_true, Bool.false_eq_true, ↓reduceIte]
      rw [State.eachYard_const _ _ _ hy.1 hy.2]
      simp only [lead_const _ hy.1, hn, hfit, hle, allDone_map, Bool.false_eq_true, ↓reduceIte]
    · refine congrArg _ (State.groupWord_none (outs := (s.active s.here o.g).map fun k => (k, doneWith [])) h ?_ (done_lanes _))
      simp only [hsc, Bool.not_true, Bool.false_eq_true, ↓reduceIte]
      rw [State.eachYard_const _ _ _ hy.1 hy.2]
      have hpool : ((s.part (yardPart y)).hoistq.isEmpty && decide (n.toNat - (s.yard y).chunks ≤ s.poolFree (yardPart y))) =
        true := by
        rw [hq, decide_eq_true hf]; rfl
      simp only [lead_const _ hy.1, hn, hfit, Nat.not_le.mpr hlt, hpool, allDone_map, State.grantChunks, Bool.false_eq_true,
        ↓reduceIte]
  · intro s o n y h hy hsc h7
    have hn : val [n] 0 = n := rfl
    refine congrArg _ (State.groupWord_none (outs := (s.active s.here o.g).map fun k => (k, doneWith [])) h ?_ (done_lanes _))
    simp only [hsc, Bool.not_true, Bool.false_eq_true, ↓reduceIte]
    rw [State.eachYard_const _ _ _ hy.1 hy.2]
    simp only [lead_const _ hy.1, hn, Nat.not_lt.mpr h7, allDone_map, ↓reduceIte]
    split <;> rfl
  · intro s t o ws y k0 ks j h hy hact hb hj ht htag hp hr
    have hl : j.lanes = k0 :: ks := by rw [hj]
    refine congrArg _ (State.spill_gives h hy hb (hact ▸ hj) ht ?_)
    have hf : j.fill = false := by rw [hj]
    have hyd : j.yard = y := by rw [hj]
    refine (State.spillFrom_done (t := t) (fun _ => htag) (fun _ => hyd ▸ hp) ?_).trans ?_
    · rw [hf]; simpa [hl] using hr
    · rw [hf]; rfl
  · intro s t o ws y k0 ks j h hy hact hb hj ht hr
    have hl : j.lanes = k0 :: ks := by rw [hj]
    have hf : j.fill = true := by rw [hj]
    refine congrArg _ (State.spill_gives h hy hb (hact ▸ hj) ht ?_)
    refine (State.spillFrom_done (t := t) (fun e => ?_) (fun e => ?_) ?_).trans ?_
    · simp [hf] at e
    · simp [hf] at e
    · rw [hf, hl]; exact hr
    · rw [hf]; rfl

end Sys2Proof
end

section
/-! Transfers of control (04_control 4.2 to 4.4). -/

namespace Sys2Proof.Machine

/-! ### Targets -/

theorem transferTo_of {t : BitVec 16} (h : t.toNat % 8192 ≤ Config.lastPacket) : transferTo t = .inl t :=
  if_neg (Nat.not_lt.mpr h)

/-- A packet index of the segment that a program counter names. -/
theorem segment_append (pc : BitVec 16) (i : BitVec 13) :
    pc.extractLsb' 13 3 ++ i = BitVec.ofNat 16 (pc.toNat / 8192 * 8192 + i.toNat) := by
  have hp := pc.isLt
  have hi := i.isLt
  apply BitVec.eq_of_toNat_eq
  rw [BitVec.toNat_append, Nat.shiftLeft_eq, Nat.mul_comm, ← Nat.two_pow_add_eq_or_of_lt hi, BitVec.extractLsb'_toNat,
    BitVec.toNat_ofNat, Nat.shiftRight_eq_div_pow]
  omega

/-- The index of a target within its segment. -/
theorem segment_index {pc : BitVec 16} {i : Nat} (hi : i < 8192) :
    (BitVec.ofNat 16 (pc.toNat / 8192 * 8192 + i)).toNat % 8192 = i := by
  have hp := pc.isLt
  rw [BitVec.toNat_ofNat]
  omega

theorem transferTo_segment {pc : BitVec 16} {i : BitVec 13} (h : i.toNat ≤ Config.lastPacket) :
    transferTo (pc.extractLsb' 13 3 ++ i) = .inl (BitVec.ofNat 16 (pc.toNat / 8192 * 8192 + i.toNat)) := by
  rw [segment_append]
  exact transferTo_of (by rw [segment_index i.isLt]; exact h)

/-- A full program counter is taken where it names a packet of a landed segment. -/
theorem State.farTarget_of {s : State} {core : Nat} {v : Word} (h : v.toNat % 8192 ≤ Config.lastPacket)
    (hr : s.segReady core (v.setWidth 16) = true) : s.farTarget core v = .inl (v.setWidth 16) := by
  have hv : v.extractLsb' 0 16 = v.setWidth 16 := (BitVec.setWidth_eq_extractLsb' (by decide)).symm
  have hm : (v.setWidth 16).toNat % 8192 = v.toNat % 8192 := by rw [BitVec.toNat_setWidth]; omega
  simp only [State.farTarget, hv, hm, Nat.not_lt.mpr h, hr, Bool.not_true, Bool.false_eq_true, ↓reduceIte]

theorem branchTarget_of {pc : BitVec 16} {off : BitVec 19} {i : Nat} (h : ((pc.toNat % 8192 : Nat) : Int) + off.toInt = i)
    (hi : i ≤ Config.lastPacket) : branchTarget pc off = .inl (BitVec.ofNat 16 (pc.toNat / 8192 * 8192 + i)) := by
  have hlow : (decide ((i : Int) < 0) || decide ((Config.lastPacket : Int) < i)) = false := by
    rw [decide_eq_false (by omega), decide_eq_false (by omega), Bool.or_self]
  simp only [branchTarget, h, hlow, Bool.false_eq_true, ↓reduceIte, Int.toNat_natCast]

end Sys2Proof.Machine

namespace Sys2Proof
open Sys2Proof.Machine

/-- Settles O10: each transfer takes the threads that go to the targets that have passed their checks. -/
theorem transfersAndBranches : Obligations.TransfersAndBranches := by
  have hlast : Config.lastPacket < 8192 := by decide
  have far {s : State} {v : Word} (bad : Trap) (h : v.toNat < 2 ^ 16) (hl : v.toNat % 8192 ≤ Config.lastPacket)
      (hr : s.segReady s.here.core (v.setWidth 16) = true) :
      some (if bitsOf v.toNat 31 16 != 0 then .inr bad else s.farTarget s.here.core v) =
        (some (v.setWidth 16)).map (.inl : BitVec 16 → BitVec 16 ⊕ Trap) := by
    have h0 : bitsOf v.toNat 31 16 = 0 := by simp only [bitsOf]; omega
    rw [h0, State.farTarget_of hl hr]
    rfl
  refine ⟨⟨fun _ _ => rfl, ?_, ?_, ?_, ?_, ?_⟩, ?_, ?_⟩
  · intro s o h
    exact congrArg _ (State.transferWord_goes (rd := fun _ => []) _ (s.reads_nil o.g) fun _ _ => by rw [transferTo_of h]; rfl)
  · intro s o v h hv
    refine congrArg _ (State.transferWord_goes _ h fun k hk => ?_)
    have hk := hv k hk
    have h0 : bitsOf (v k).toNat 31 13 = 0 := by simp only [bitsOf]; omega
    have hlow : ((v k).extractLsb' 0 13).toNat = (v k).toNat := by rw [BitVec.extractLsb'_toNat]; simp; omega
    show some (if bitsOf (v k).toNat 31 13 != 0 then _ else
      transferTo (s.here.pc.extractLsb' 13 3 ++ (v k).extractLsb' 0 13)) = _
    rw [h0, transferTo_segment (i := (v k).extractLsb' 0 13) (by rw [hlow]; exact hk), hlow]
    rfl
  · intro s o v h hv
    exact congrArg _ (State.transferWord_goes _ h fun k hk => far _ (hv k hk).1 (hv k hk).2.1 (hv k hk).2.2)
  · intro s o v h hv
    exact congrArg _ (State.transferWord_goes _ h fun k hk => far _ (hv k hk).1 (hv k hk).2.1 (hv k hk).2.2)
  · intro s o hv
    refine congrArg _ (State.transferWord_goes (rd := fun _ => []) _ (s.reads_nil o.g) fun k hk => ?_)
    obtain ⟨hl, hr⟩ := hv k hk
    have hw : ((s.thread k).view.ra.zeroExtend 32).setWidth 16 = (s.thread k).view.ra := by simp
    have hn : ((s.thread k).view.ra.zeroExtend 32).toNat = (s.thread k).view.ra.toNat := by simp; omega
    show some (s.farTarget _ ((s.thread k).view.ra.zeroExtend 32)) = _
    rw [State.farTarget_of (by rw [hn]; exact hl) (by rw [hw]; exact hr), hw]
    rfl
  · intro s o i hi hl
    have go (b : Bool) : (if b = true then some (branchTarget s.here.pc o.off) else none) =
        (if b = true then some (BitVec.ofNat 16 (s.here.pc.toNat / 8192 * 8192 + i)) else none).map
          (.inl : BitVec 16 → BitVec 16 ⊕ Trap) := by
      cases b
      · rfl
      · rw [branchTarget_of hi hl]; rfl
    exact ⟨congrArg _ (State.transferWord_goes (rd := fun _ => []) _ (s.reads_nil 7) fun k _ => go _),
      congrArg _ (State.transferWord_goes (rd := fun _ => []) _ (s.reads_nil 7) fun k _ => go _)⟩
  · intro s o hp
    refine congrArg _ (State.transferWord_goes (rd := fun _ => []) _ (s.reads_nil 7) fun k _ => ?_)
    rw [Option.map_map]
    refine Option.map_congr fun p hf => ?_
    rw [transferTo_segment (hp p (List.mem_of_find?_eq_some hf)), BitVec.toNat_ofNat]
    rfl

end Sys2Proof
end

section
/-! Ends of threads, segments' status, and rigs (04_control 4.5, 4.7; 03_threads 3.3). -/

namespace Sys2Proof.Machine

theorem State.allocCleat_threads {s t : State} {r core : Nat} (h : s.allocCleat r core = some t) :
    t.fab.threads = s.fab.threads := by
  obtain ⟨c, -, hc⟩ := Option.map_eq_some_iff.mp h
  rw [← hc]
  rfl

theorem State.addMember_threads (s : State) (r y ord : Nat) : (s.addMember r y ord).fab.threads = s.fab.threads := by
  simp only [State.addMember, State.incExpect]
  split <;> rfl

/-- A thread that waits for no rig does not hold its yard's leave back. -/
theorem waits_false {s : State} {ks : List Nat}
    (h : ∀ k ∈ ks, (s.thread k).st ≠ .signed ∧ ∀ n, (s.thread k).st ≠ .rendezvous n) :
    (ks.any fun k => match (s.thread k).st with
      | .signed => true
      | .rendezvous _ => s.scopeAt k == .rig
      | _ => false) = false := by
  rw [List.any_eq_false]
  intro k hk
  obtain ⟨hs, hr⟩ := h k hk
  split
  · exact absurd ‹_› hs
  · exact absurd ‹_› (hr _)
  · simp

end Sys2Proof.Machine

namespace Sys2Proof
open Sys2Proof.Machine

/-- Settles O11: the words of a yard on its rig act once, at its lowest active lane's handle. -/
theorem exitsRigsAndSegments : Obligations.ExitsRigsAndSegments := by
  refine ⟨fun s o => ⟨fun h => ?_, fun h => ?_⟩, ?_, ?_, ?_, ?_⟩
  · show Host.Outcome.next (List.foldl (fun s k => if _ = 0 then _ else _) _ _) = _
    simp only [h, ↓reduceIte]
  · show Host.Outcome.next (List.foldl (fun s k => if _ = 0 then _ else _) _ _) = _
    simp only [h, ↓reduceIte]
  · intro s o v h hv
    refine congrArg _ (State.laneWord_gives h (by simp) (one fun k => segWord (s.seg (coreOf k) (v k).toNat)) noFlags
      fun k hk => ?_)
    have hk := hv k hk
    have h0 : bitsOf (v k).toNat 31 3 = 0 := by simp only [bitsOf]; omega
    show (if bitsOf (v k).toNat 31 3 != 0 then _ else _) = _
    rw [h0]
    rfl
  · intro s o n y r h hy hsc h1 h48 hr
    have hn : val [n] 0 = n := rfl
    have hrange : ¬ (n.toNat = 0 ∨ 48 < n.toNat) := by omega
    intro t
    refine congrArg _ (State.groupWord_givesUni (t := t) h (fun _ => words2 (t.rigHandle r)) ?_ (State.kept_all rfl))
    simp only [hsc, Bool.not_true, Bool.false_eq_true, ↓reduceIte]
    rw [State.eachYard_const _ _ _ hy.1 hy.2]
    simp only [lead_const _ hy.1, hn, Bool.or_eq_true, decide_eq_true_eq, hrange, hr, allDone_map, ↓reduceIte]
    rfl
  · intro s t o lo hi y r h hy hsc hr hrig hstr hseal ht
    have hv : val2 [lo, hi] 0 = dw lo hi := rfl
    have hnew : (if (Map.find? (s.rig r).cleat (yardCore y % 4)).isSome = true then some s else s.allocCleat r (yardCore y)) =
      some t := by
      by_cases hc : (Map.find? (s.rig r).cleat (yardCore y % 4)).isSome = true
      · rw [if_pos hc] at ht ⊢
        rw [ht]
      · rw [if_neg hc] at ht ⊢
        exact ht
    have hkeep : t.fab.threads = s.fab.threads := by
      split at ht
      · rw [ht]
      · exact State.allocCleat_threads ht
    show Host.Outcome.next (State.groupWord _ _ _ _ (codesFrom o.a 2) _ _ _ _) = _
    rw [codesFrom_two]
    refine congrArg _ (State.groupWord_givesUni (t := t.addMember r y (s.rig r).given) h
      (fun _ => [BitVec.ofNat 32 (s.rig r).given]) ?_
      (State.kept_all ((State.addMember_threads _ _ _ _).trans hkeep)))
    simp only [hsc, Bool.not_true, Bool.false_eq_true, ↓reduceIte]
    rw [State.eachYard_const _ _ _ hy.1 hy.2]
    have hsl : ((s.rig r).st == some RigState.sealed) = false := beq_eq_false_iff_ne.mpr hseal
    simp only [lead_const _ hy.1, hv, hr, hrig, hstr, hsl, hnew, allDone_map, Option.isSome_none, Bool.or_self,
      Bool.false_eq_true, ↓reduceIte]
    rfl
  · intro s o lo hi y r ord h hy hsc hr hrig hw
    have hv : val2 [lo, hi] 0 = dw lo hi := rfl
    show Host.Outcome.next (State.groupWord _ _ _ _ (codesFrom o.a 2) _ _ _ _) = _
    rw [codesFrom_two]
    refine congrArg _ (State.groupWord_none (outs := (s.active s.here o.g).map fun k => (k, doneWith [])) h ?_ (done_lanes _))
    simp only [hsc, Bool.not_true, Bool.false_eq_true, ↓reduceIte]
    rw [State.eachYard_const _ _ _ hy.1 hy.2]
    simp only [lead_const _ hy.1, hv, hr, hrig, allDone_map, Option.map_some, bne_self_eq_false, Bool.false_or]
    exact if_neg (Bool.eq_false_iff.mp (waits_false hw))

end Sys2Proof
end

section
/-! Signing a cleat (03_threads 3.8, 04_control 4.7, 14_matrix 14.6). -/

namespace Sys2Proof.Machine

/-- What one thread of a rig does at a word that signs: it opens its core's cleat there with the word's operation, or signs it, and
waits. -/
def State.signedAt (s : State) (c : Nat) (op : SignOp) (x : Sign) : State :=
  (s.modCleat (coreOf x.thread, c) fun cl =>
    if cl.opened then { cl with signs := cl.signs ++ [x] }
    else { cl with opened := true, fault := false, addr := s.here.pc, addrw := s.here.w, op := op, first := s.now,
                   signs := [x] }).park x.thread s.here.w .signed false

/-- The register that takes the result of a matrix word. -/
def Thread.signReg (t : Thread) : Dst → Option Nat
  | .vec _ d => if noWrite d then none else t.slotReg (slotOfD d)
  | _ => none

/-- One thread whose rig has no cleat open elsewhere signs the cleat of its core. -/
theorem State.signAll_one {s : State} {i : Instr} {sc : BitVec 2} {op : SignOp} {x : Sign} {r ord c : Nat}
    (hrig : (s.yard (yardOf x.thread)).rig = some (r, ord))
    (hc : Map.find? (s.rig r).cleat (yardCore (yardOf x.thread) % 4) = some c)
    (ho : ∀ d ∈ s.rigCleats r, (s.cleat d).opened = true → (s.cleat d).addr = s.here.pc ∧ (s.cleat d).addrw = s.here.w) :
    s.signAll i sc s.here op [x] = s.signedAt c op x := by
  have helse : ((s.rigCleats r).any fun d =>
      (s.cleat d).opened && !((s.cleat d).addr == s.here.pc && (s.cleat d).addrw == s.here.w)) = false := by
    rw [List.any_eq_false]
    intro d hd
    cases hop : (s.cleat d).opened
    · simp
    · obtain ⟨ha, hw⟩ := ho d hd hop
      simp [ha, hw]
  have hcl : s.cleatOf (yardOf x.thread) = some c := by simp only [State.cleatOf, hrig, hc]
  simp only [State.signAll, List.filter_cons, List.filter_nil, hrig, Option.map_some, Option.isNone_some, Option.isSome_some,
    Bool.false_eq_true, ↓reduceIte, List.map_cons, List.map_nil, firsts, List.contains_nil, List.foldl_cons, List.foldl_nil,
    BEq.rfl, Option.getD_some, State.signRig, helse, hcl, State.raise, State.raiseAt_nil]
  rfl

/-- A matrix word signs for the one thread of its group, which has read its operands. -/
theorem State.matrixSign_one {s : State} {i : Instr} {sc : BitVec 2} {g : BitVec 3} {codes : List (BitVec 5)} {lit : Word}
    {dst : Dst} {op : SignOp} {fw : List Word → Word} {rd : Nat → List Word} {k r ord c : Nat} (hl : s.here.lanes = [k])
    (hg : (s.thread k).guard g = true) (h : s.Reads g codes lit rd) (hd : (s.thread k).dstOk dst = true)
    (hrig : (s.yard (yardOf k)).rig = some (r, ord))
    (hc : Map.find? (s.rig r).cleat (yardCore (yardOf k) % 4) = some c)
    (ho : ∀ d ∈ s.rigCleats r, (s.cleat d).opened = true → (s.cleat d).addr = s.here.pc ∧ (s.cleat d).addrw = s.here.w) :
    s.matrixSign i sc g codes lit dst op fw = s.signedAt c op
      { thread := k, active := true, pc := s.here.pc, w := s.here.w, word := wordOf i, vals := rd k, fw := fw (rd k),
        rm := (s.thread k).rm, dst := (s.thread k).signReg dst } := by
  have hact : s.active s.here g = [k] := by rw [State.active, hl]; exact List.filter_cons_of_pos hg
  have hj := State.joinAll_of_ok (codes := codes) (lit := lit) (s := s) (rd := rd) h
  rw [hact] at hj
  have hin : s.laneIn i codes lit dst k = .inl (rd k) := State.laneIn_ok (h k (by rw [hact]; simp)) hd
  simp only [State.matrixSign, hact, hj, List.map_cons, List.map_nil, hin, hl, List.filterMap_cons, List.filterMap_nil,
    List.find?_cons, BEq.rfl,
    stoppedLanes, ↓reduceIte]
  rw [State.finish_none _ _ _ _ (by simp), State.signAll_one hrig hc ho]
  cases dst <;> rfl

end Sys2Proof.Machine

namespace Sys2Proof
open Sys2Proof.Machine

/-- Settles O12: each word that signs is `matrixSign` or `signAll` of the group's one thread. -/
theorem cleatWords : Obligations.CleatWords := by
  refine ⟨?_, ?_⟩
  · intro s o k r ord c hl hrig hc ho
    show Host.Outcome.next (s.signAll _ _ _ _ (s.here.lanes.map _)) = _
    rw [hl, List.map_cons, List.map_nil, State.signAll_one hrig hc ho]
    rfl
  · intro s k r ord c rd hl hrig hc ho ht signed reg
    refine ⟨fun o hg => ⟨fun h => ⟨?_, ?_⟩, fun h => ?_⟩, fun o hg h => ?_, fun o hg h => ?_⟩
    · exact congrArg _ (State.matrixSign_one hl hg h rfl hrig hc ho)
    · exact congrArg _ (State.matrixSign_one hl hg h rfl hrig hc ho)
    · exact congrArg _ (State.matrixSign_one hl hg h rfl hrig hc ho)
    · exact congrArg _ (State.matrixSign_one hl hg h.1 (h.2 k (State.mem_active.mpr ⟨by simp [hl], hg⟩)).1 hrig hc ho)
    · exact congrArg _ (State.matrixSign_one hl hg h.1 (h.2 k (State.mem_active.mpr ⟨by simp [hl], hg⟩)).1 hrig hc ho)

end Sys2Proof
end

section
/-! Futures (04_control 4.6). -/

namespace Sys2Proof.Machine

/-! ### What joining a handle leaves of the issue -/

/-- `t` issues the same word in the same lanes as `s`: the focus, the streams and the yards are the same, and each thread's state,
position and predicates. -/
structure State.IssuesAs (t s : State) : Prop where
  focus : t.focus = s.focus
  parts : t.fab.parts = s.fab.parts
  yards : t.fab.yards = s.fab.yards
  threads : ∀ k, (t.thread k).st = (s.thread k).st ∧ (t.thread k).wpos = (s.thread k).wpos ∧
    (t.thread k).view.preds = (s.thread k).view.preds

theorem State.IssuesAs.refl (s : State) : s.IssuesAs s := ⟨rfl, rfl, rfl, fun _ => ⟨rfl, rfl, rfl⟩⟩

theorem State.IssuesAs.trans {u t s : State} (h : u.IssuesAs t) (h' : t.IssuesAs s) : u.IssuesAs s :=
  ⟨h.focus.trans h'.focus, h.parts.trans h'.parts, h.yards.trans h'.yards, fun k =>
    ⟨(h.threads k).1.trans (h'.threads k).1, (h.threads k).2.1.trans (h'.threads k).2.1,
      (h.threads k).2.2.trans (h'.threads k).2.2⟩⟩

/-- A state with the same threads, streams and yards. -/
theorem State.IssuesAs.of_eq {t s : State} (hf : t.focus = s.focus) (hp : t.fab.parts = s.fab.parts)
    (hy : t.fab.yards = s.fab.yards) (ht : t.fab.threads = s.fab.threads) : t.IssuesAs s :=
  ⟨hf, hp, hy, fun k => by simp only [State.thread, ht, and_self]⟩

theorem State.IssuesAs.modThread {t s : State} (h : t.IssuesAs s) (k : Nat) (f : Thread → Thread)
    (hf : (f (t.thread k)).st = (t.thread k).st ∧ (f (t.thread k)).wpos = (t.thread k).wpos ∧
      (f (t.thread k)).view.preds = (t.thread k).view.preds) : (t.modThread k f).IssuesAs s := by
  refine State.IssuesAs.trans (t := t) ⟨rfl, rfl, rfl, fun j => ?_⟩ h
  rw [State.thread_modThread]
  split
  · subst j; exact hf
  · exact ⟨rfl, rfl, rfl⟩

theorem State.IssuesAs.acquireAll {t s : State} (h : t.IssuesAs s) (ks : List Nat) : (t.acquireAll ks).IssuesAs s := by
  refine State.IssuesAs.trans (t := t) ⟨rfl, rfl, rfl, fun j => ?_⟩ h
  simp only [State.acquireAll, State.thread, Map.getD, State.updLanes_fab_threads, Map.find?_mapVals]
  cases Map.find? t.fab.threads j with
  | none => exact ⟨rfl, rfl, rfl⟩
  | some x =>
    simp only [Option.map_some]
    split <;> exact ⟨rfl, rfl, rfl⟩

theorem State.IssuesAs.decRef {t s : State} (h : t.IssuesAs s) (core slot : Nat) : (t.decRef core slot).IssuesAs s := by
  refine State.IssuesAs.trans ?_ h
  simp only [State.decRef, State.freeFuture]
  split
  · exact .refl t
  · split <;> exact .of_eq rfl rfl rfl rfl

theorem State.IssuesAs.joinHeld {t s : State} (h : t.IssuesAs s) (k r slot : Nat) : (t.joinHeld k r slot).IssuesAs s := by
  unfold State.joinHeld
  split
  · rename_i x f hx hf
    split
    · split
      · refine (h.modThread k _ ⟨rfl, rfl, ?_⟩).acquireAll _
        simp only [Thread.view, hx, View.joined]
      · exact h
    · exact h
  · exact h

theorem Thread.view_preds_congr {t u : Thread} (hh : t.held = u.held) (hp : t.preds = u.preds) : t.view.preds = u.view.preds := by
  unfold Thread.view
  rw [hh]
  split
  · rfl
  · exact hp

theorem State.IssuesAs.dropTag {t s : State} (h : t.IssuesAs s) (k r : Nat) : (t.dropTag k r).IssuesAs s := by
  unfold State.dropTag
  split
  · exact h
  · exact ((h.joinHeld k r _).modThread k _ ⟨rfl, rfl, Thread.view_preds_congr rfl rfl⟩).decRef _ _

theorem State.IssuesAs.putReg {t s : State} (h : t.IssuesAs s) (k r : Nat) (v : Word) : (t.putReg k r v).IssuesAs s :=
  State.IssuesAs.trans (t := t) (.of_eq rfl rfl rfl rfl) h

theorem State.IssuesAs.joinReg {t s : State} (h : t.IssuesAs s) (k r : Nat) : (t.joinReg k r).IssuesAs s := by
  unfold State.joinReg
  split
  · exact h
  · split
    · exact h
    · split
      · exact h
      · dsimp only
        split
        · exact ((((h.joinHeld k r _).putReg k r _).modThread k _ ⟨rfl, rfl, Thread.view_preds_congr rfl rfl⟩).dropTag k
            r).acquireAll _
        · exact h.joinHeld k r _

theorem State.IssuesAs.joinCodes {t s : State} (h : t.IssuesAs s) (k : Nat) (codes : List (BitVec 5)) :
    (t.joinCodes k codes).IssuesAs s := by
  unfold State.joinCodes
  induction codes generalizing t with
  | nil => exact h
  | cons c cs ih =>
    refine ih ?_
    unfold State.joinCode
    split
    · split
      · exact h
      · exact h.joinReg k _
    · exact h

theorem State.IssuesAs.joinAll {t s : State} (h : t.IssuesAs s) (ks : List Nat) (codes : List (BitVec 5)) :
    (ks.foldl (fun u k => u.joinCodes k codes) t).IssuesAs s := by
  induction ks generalizing t with
  | nil => exact h
  | cons k r ih => exact ih (h.joinCodes k codes)

theorem State.IssuesAs.here {t s : State} (h : t.IssuesAs s) : t.here = s.here := by
  have hg : t.group = s.group := by simp only [State.group, State.part, h.focus, h.parts]
  simp only [State.here, hg, h.focus, h.threads]

theorem State.IssuesAs.active {t s : State} (h : t.IssuesAs s) (x : Here) (g : BitVec 3) : t.active x g = s.active x g := by
  simp only [State.active, Thread.guard, h.threads]

theorem State.IssuesAs.groupVersion {t s : State} (h : t.IssuesAs s) (ks : List Nat) : t.groupVersion ks = s.groupVersion ks := by
  cases ks with
  | nil => rfl
  | cons k r => simp only [State.groupVersion, State.version, State.yard, h.yards]

/-- A word joins the handles that its operands name, and then acts as a word that has none to join. -/
theorem State.laneWord_joined {s t : State} {i : Instr} {sc : BitVec 2} {g : BitVec 3} {codes : List (BitVec 5)} {lit : Word}
    {dst : Dst} {shift : Bool} {f : State → Nat → List Word → LaneOut} {rd : Nat → List Word}
    (ht : t = (s.active s.here g).foldl (fun u k => u.joinCodes k codes) s) (h : t.Reads g codes lit rd)
    (hf : ∀ k ws, f t k ws ≠ .stall) :
    s.laneWord i sc g codes lit dst shift f = t.laneWord i sc g codes lit dst shift f := by
  have hi : t.IssuesAs s := by rw [ht]; exact (State.IssuesAs.refl s).joinAll _ _
  have hj := State.joinAll_of_ok (codes := codes) (lit := lit) (s := t) (rd := rd) h
  have hns (l : List (Nat × List Word)) : ((l.map fun p => (p.1, f t p.1 p.2)).any fun p => p.2 == .stall) = false := by
    rw [List.any_eq_false]
    intro p hp
    obtain ⟨q, -, rfl⟩ := List.mem_map.mp hp
    simp [hf]
  rw [hi.here, hi.active] at hj
  unfold State.laneWord State.groupWord
  simp only [hi.here, hi.active, hj, ← ht, hns, hi.groupVersion, Bool.false_eq_true, ↓reduceIte]

end Sys2Proof.Machine

namespace Sys2Proof
open Sys2Proof.Machine

/-- Settles O13: a wait reads what joining has left; a test, a cancellation and a copy read the handle as it stands. -/
theorem futures : Obligations.Futures := by
  refine ⟨?_, ?_, ?_, ?_⟩
  · intro s t o a b ht h
    exact congrArg _ ((State.laneWord_joined ht h.1 (fun _ _ => by simp [doneWith])).trans (State.vecA_gives (fun _ a _ => a) h))
  · intro s o hw hr pending joined
    refine congrArg _ (State.groupWord_gives (rd := fun _ => []) ⟨s.reads_nil o.g, hw⟩ (by simp)
      (one fun k => if pending k then 0 else 1) noFlags ?_ ?_)
    · rw [List.foldl_filter]
      refine State.eachLane_fold (fun _ => True) _ _ trivial fun t _ k hk => ⟨?_, trivial⟩
      obtain ⟨v, hv⟩ := hr k hk
      rw [hv]
      dsimp only [pending, one]
      obtain htag | ⟨slot, htag⟩ := Option.eq_none_or_eq_some ((s.thread k).tagOf o.a)
      · simp [htag, doneWith_eq, noFlags]
      · cases hp : s.pending (coreOf k) slot <;> simp [htag, hp, doneWith_eq, noFlags]
    · intro k hk
      have go (ks : List Nat) (u : State) (hu : u.Kept s k) : (ks.foldl State.acquire u).Kept s k := by
        induction ks generalizing u with
        | nil => exact hu
        | cons j r ih => exact ih _ (State.acquireAll_kept hu)
      exact go _ s (State.kept_all rfl k hk)
  · intro s o hr
    refine congrArg _ (State.groupWord_none (rd := fun _ => []) (outs := (s.active s.here o.g).map fun k => (k, doneWith []))
      (s.reads_nil o.g) ?_ (done_lanes _))
    refine State.eachLane_fold (fun _ => True) _ _ trivial fun t _ k hk => ⟨?_, trivial⟩
    obtain ⟨v, hv⟩ := hr k hk
    rw [hv]
    cases (s.thread k).tagOf o.a <;> rfl
  · intro s o v hw hr tag
    refine congrArg _ (State.groupWord_tags (rd := fun _ => []) ⟨s.reads_nil o.g, hw⟩ (by simp) (one v) tag ?_)
    refine State.eachLane_fold (fun _ => True) _ _ trivial fun t _ k hk => ⟨?_, trivial⟩
    rw [hr k hk]
    dsimp only [tag]
    rcases (if noWrite o.d = true then none else (s.thread k).tagOf o.a) with _ | slot <;> rfl

end Sys2Proof
end

section
/-! Exchange words (08_exchange): what each operation gives the lanes of a domain. -/

namespace Sys2Proof.Machine

/-! ### The readers of a domain -/

theorem State.mem_domReaders {s : State} {o : OpA} {dom : Nat → Dom} {reg : Nat → Nat} {b : Nat → Word} {k : Nat} {x : Reader} :
    x ∈ s.domReaders o dom reg b k ↔
      ∃ j ∈ s.active s.here o.g, dom j = dom k ∧ s.readerOf (dom j) o.a (reg j) (b j) j = x := by
  simp only [State.domReaders, mem_sortReaders, List.mem_map, List.mem_filter, decide_eq_true_eq, and_assoc]

/-- Lanes of one domain see the same readers. -/
theorem State.domReaders_congr {s : State} {o : OpA} {dom : Nat → Dom} {reg : Nat → Nat} {b : Nat → Word} {j k : Nat}
    (h : dom j = dom k) : s.domReaders o dom reg b j = s.domReaders o dom reg b k := by
  simp only [State.domReaders, h]

/-- What holds of every lane of a domain, holds of its readers. -/
theorem State.domReaders_forall {s : State} {o : OpA} {dom : Nat → Dom} {reg : Nat → Nat} {b : Nat → Word} {k : Nat}
    {P : Reader → Prop} (h : ∀ j, dom j = dom k → P (s.readerOf (dom j) o.a (reg j) (b j) j)) :
    ∀ x ∈ s.domReaders o dom reg b k, P x := by
  intro x hx
  obtain ⟨j, -, hj, rfl⟩ := State.mem_domReaders.mp hx
  exact h j hj

/-- A word whose lanes agree acts. -/
theorem domUniform_of {β : Type} [DecidableEq β] {f : Reader → β} {next : DomOp} {s : State} {d : Dom} {rs : List Reader}
    (h0 : next s d [] = []) (h : ∀ x ∈ rs, ∀ y ∈ rs, f x = f y) : domUniform f next s d rs = next s d rs := by
  cases rs with
  | nil => exact h0.symm
  | cons r rest =>
    have hn : (rest.find? fun x => f x ≠ f r) = none := by
      rw [List.find?_eq_none]
      intro x hx
      simp [h x (by simp [hx]) r (by simp)]
    simp only [domUniform, hn]

theorem State.domUniform_readers {β : Type} [DecidableEq β] {s : State} {o : OpA} {dom : Nat → Dom} {reg : Nat → Nat}
    {b : Nat → Word} {k : Nat} {f : Reader → β} {next : DomOp} {d : Dom} (h0 : next s d [] = [])
    (h : ∀ i ∈ s.active s.here o.g, ∀ j ∈ s.active s.here o.g, dom i = dom j →
      f (s.readerOf (dom i) o.a (reg i) (b i) i) = f (s.readerOf (dom j) o.a (reg j) (b j) j)) :
    domUniform f next s d (s.domReaders o dom reg b k) = next s d (s.domReaders o dom reg b k) := by
  refine domUniform_of h0 fun x hx y hy => ?_
  obtain ⟨i, hi, ei, rfl⟩ := State.mem_domReaders.mp hx
  obtain ⟨j, hj, ej, rfl⟩ := State.mem_domReaders.mp hy
  exact h i hi j hj (ei.trans ej.symm)

/-! ### Shuffles -/

/-- The value that a shuffle gives a lane. -/
def State.shuffled (s : State) (idx : Nat → Nat → Word → Option Nat) (d : Dom) (r : Nat) (b : Word) (k : Nat) : Word :=
  ((idx d.n (s.domIdx d k) b).map fun j => s.srcval d j r).getD 0

theorem State.shflOp_readers {s : State} {o : OpA} {dom : Nat → Dom} {reg : Nat → Nat} {b : Nat → Word} {k : Nat}
    (idx : Nat → Nat → Word → Option Nat) :
    shflOp idx s (dom k) (s.domReaders o dom reg b k) =
      (s.domReaders o dom reg b k).map fun r => (r.k, doneFl [s.shuffled idx (dom r.k) (reg r.k) (b r.k) r.k] 0) := by
  refine List.map_congr_left (State.domReaders_forall fun j hj => ?_)
  simp only [← hj, State.readerOf, State.shuffled, doneWith_eq]
  cases idx (dom j).n (s.domIdx (dom j) j) (b j) <;> rfl

/-- A shuffle of a register that each domain agrees on. -/
theorem State.shfl_gives {s : State} {i : Instr} {o : OpA} {shift : Bool} {dom : Nat → Dom} {reg : Nat → Nat} {b : Nat → Word}
    (idx : Nat → Nat → Word → Option Nat) (hd : s.Domains o shift dom) (ha : s.DataAgree o dom reg)
    (h : s.Ready o.g [o.b] o.lit (.vec 1 o.d) (one b)) {β : Type} [DecidableEq β] (f : Reader → β)
    (hf : ∀ i ∈ s.active s.here o.g, ∀ j ∈ s.active s.here o.g, dom i = dom j →
      f (s.readerOf (dom i) o.a (reg i) (b i) i) = f (s.readerOf (dom j) o.a (reg j) (b j) j)) :
    s.exchange i o [o.b] (.vec 1 o.d) true (domUniform f (shflOp idx)) =
      s.gives o.g (.vec 1 o.d) shift (one fun k => s.shuffled idx (dom k) (reg k) (b k) k) noFlags := by
  refine State.exchange_gives (data := true) (reg := reg) (b := b) hd h (fun _ => rfl) (by simp) ha.1 _ _ fun k _ => ?_
  rw [State.domUniform_readers rfl hf, State.shflOp_readers]
  rfl

/-! ### Readers by thread -/

theorem insertReader_perm (x : Reader) (l : List Reader) : (insertReader x l).Perm (x :: l) := by
  induction l with
  | nil => exact .refl _
  | cons y r ih =>
    rw [insertReader]
    split
    · exact .refl _
    · exact (ih.cons y).trans (.swap x y r)

theorem sortReaders_perm (l : List Reader) : (sortReaders l).Perm l := by
  induction l with
  | nil => exact .refl _
  | cons x r ih => exact (insertReader_perm x _).trans (ih.cons x)

/-- Threads of a group that stand in it once read once. -/
theorem State.domReaders_nodup {s : State} {o : OpA} {dom : Nat → Dom} {reg : Nat → Nat} {b : Nat → Word} {k : Nat}
    (h : s.here.lanes.Nodup) : ((s.domReaders o dom reg b k).map Reader.k).Nodup := by
  rw [State.domReaders, ((sortReaders_perm _).map Reader.k).nodup_iff, List.map_map]
  have : (Reader.k ∘ fun j => s.readerOf (dom j) o.a (reg j) (b j) j) = id := rfl
  rw [this, List.map_id]
  exact (h.filter _).filter _

/-- The entry of a list whose keys differ. -/
theorem find?_key {α : Type} {l : List α} {key : α → Nat} (h : (l.map key).Nodup) {x : α} (hx : x ∈ l) :
    l.find? (fun y => key y == key x) = some x := by
  induction l with
  | nil => simp at hx
  | cons y r ih =>
    rw [List.map_cons, List.nodup_cons] at h
    rcases List.mem_cons.mp hx with rfl | hx
    · simp
    · have hne : key y ≠ key x := fun e => h.1 (e ▸ List.mem_map_of_mem hx)
      rw [List.find?_cons_of_neg (by simpa using hne)]
      exact ih h.2 hx

/-- What a lane-by-lane list of steps gives each reader, found by its thread. -/
theorem zip_by_key {β : Type} {rs : List Reader} {st : List β} (hl : rs.length = st.length) (h : (rs.map Reader.k).Nodup)
    (v : β → Word) (fl : FFlags) :
    (rs.zip st).map (fun x => (x.1.k, doneFl [v x.2] fl)) =
      rs.map fun r => (r.k, doneFl [(((rs.zip st).find? fun x => x.1.k == r.k).map fun x => v x.2).getD 0] fl) := by
  have hfst : (rs.zip st).map Prod.fst = rs := List.map_fst_zip (by omega)
  have hn : ((rs.zip st).map fun x => x.1.k).Nodup := by
    have : (rs.zip st).map (fun x => x.1.k) = ((rs.zip st).map Prod.fst).map Reader.k := by rw [List.map_map]; rfl
    rw [this, hfst]
    exact h
  have hrs (f : Reader → Nat × LaneOut) : rs.map f = (rs.zip st).map fun x => f x.1 :=
    (congrArg (List.map f) hfst).symm.trans List.map_map
  rw [hrs]
  apply List.map_congr_left
  intro x hx
  simp only [find?_key hn hx, Option.map_some, Option.getD_some]

theorem reduceOp_eq (p : RedOp) (s : State) (d : Dom) (rs : List Reader) :
    reduceOp p s d rs = rs.map fun r => (r.k, doneFl [(treeFold p (sharedRm rs) 12 (leaves s d rs)).1.getD 0]
      (treeFold p (sharedRm rs) 12 (leaves s d rs)).2) := by
  unfold reduceOp
  generalize treeFold p (sharedRm rs) 12 (leaves s d rs) = x
  rfl

theorem scanGo_length (p : RedOp) (rm : RMode) (acc : Option Word) (l : List Word) : (scanGo p rm acc l).length = l.length := by
  induction l generalizing acc with
  | nil => rfl
  | cons x r ih => cases acc <;> simp only [scanGo, List.length_cons, ih]

/-- A reduction or scan of a register, and with .f32 an RM, that each domain agrees on. -/
theorem State.combining_gives {s : State} {i : Instr} {o : OpA} {p : RedOp} {op : DomOp} {shift : Bool} {dom : Nat → Dom}
    {reg : Nat → Nat} (hd : s.Domains o shift dom) (ha : s.DataAgree o dom reg) (hw : s.Writes o.g (.vec 1 o.d))
    (hrm : redIsFp p = true → ∀ j ∈ s.active s.here o.g, ∀ k ∈ s.active s.here o.g, dom j = dom k → (s.peek j).rm = (s.peek k).rm)
    (res : Nat → List Word) (fl : Nat → BitVec 5) (h0 : ∀ d, op s d [] = [])
    (hop : ∀ k ∈ s.active s.here o.g, op s (dom k) (s.domReaders o dom reg (fun _ => 0) k) =
      (s.domReaders o dom reg (fun _ => 0) k).map fun r => (r.k, doneFl (res r.k) (fl r.k))) :
    s.combining i o p op = s.gives o.g (.vec 1 o.d) shift res fl := by
  unfold State.combining
  refine State.exchange_gives (data := true) (reg := reg) (b := fun _ => 0) (rd := fun _ => []) hd ⟨fun _ _ => rfl, hw⟩
    (fun _ => rfl) (by simp) ha.1 res fl fun k hk => ?_
  rw [← hop k hk]
  split
  · rename_i hp
    exact State.domUniform_readers (h0 _) fun i hi j hj e => Prod.ext (ha.2 i hi j hj e) (hrm hp i hi j hj e)
  · exact State.domUniform_readers (h0 _) ha.2

/-! ### Votes -/

/-- A vote gives every lane of a domain the predicate of the domain's predicates. -/
theorem State.vote_gives {s : State} {i : Instr} {o : OpA} {shift : Bool} {dom : Nat → Dom} (f : List Bool → Bool)
    (hd : s.Domains o shift dom) (hw : s.Writes o.g (.pred o.d)) :
    s.vote i o f = s.gives o.g (.pred o.d) shift
      (one fun k => if f ((s.domReaders o dom (fun _ => 0) (fun _ => 0) k).map Reader.p) then 1 else 0) noFlags := by
  refine State.exchange_gives (reg := fun _ => 0) (b := fun _ => 0) (rd := fun _ => []) hd ⟨fun _ _ => rfl, hw⟩ (fun _ => rfl)
    (by simp) (fun _ _ => by simp) _ _ fun k _ => ?_
  refine List.map_congr_left (State.domReaders_forall fun j hj => ?_)
  simp only [State.readerOf, one, State.domReaders_congr hj, b2n_eq]
  rfl

end Sys2Proof.Machine

namespace Sys2Proof
open Sys2Proof.Machine

/-- Settles O14: each shuffle is an index function over the lane's domain. -/
theorem shuffles : Obligations.Shuffles := by
  intro s o shift dom reg b hd ha h src
  have hr : ∀ i ∈ s.active s.here o.g, ∀ j ∈ s.active s.here o.g, dom i = dom j →
      Reader.r (s.readerOf (dom i) o.a (reg i) (b i) i) = Reader.r (s.readerOf (dom j) o.a (reg j) (b j) j) := ha.2
  have hat (k : Nat) : s.shuffled shflAtIdx (dom k) (reg k) (b k) k = if (dom k).n ≤ (b k).toNat then 0 else src k (b k).toNat := by
    simp only [State.shuffled, shflAtIdx]
    split <;> rfl
  refine ⟨?_, ?_, ?_, ?_, fun hb => ?_⟩
  · refine congrArg _ ((State.shfl_gives shflAtIdx hd ha h Reader.r hr).trans ?_)
    simp only [hat]
  · exact congrArg _ (State.shfl_gives shflRotIdx hd ha h Reader.r hr)
  · exact congrArg _ (State.shfl_gives shflSlideIdx hd ha h Reader.r hr)
  · exact congrArg _ (State.shfl_gives shflFlipIdx hd ha h Reader.r hr)
  · refine congrArg _ ((State.shfl_gives shflAtIdx hd ha h (fun r => (r.r, r.b)) fun i hi j hj e =>
      Prod.ext (ha.2 i hi j hj e) (hb i hi j hj e)).trans ?_)
    simp only [hat]

/-- Settles O15: each word is its operation over the readers of the lane's domain. -/
theorem votesAndReductions : Obligations.VotesAndReductions := by
  refine ⟨⟨?_, ?_⟩, ?_⟩
  · intro s o shift dom hd hw rs
    have hall (l : List Reader) : (l.map Reader.p).all id = l.all Reader.p := by rw [List.all_map]; rfl
    have hany (l : List Reader) : (l.map Reader.p).any id = l.any Reader.p := by rw [List.any_map]; rfl
    have hodd (l : List Reader) : ((l.map Reader.p).filter id).length = l.countP Reader.p := by
      rw [← List.countP_eq_length_filter, List.countP_map]; rfl
    refine ⟨congrArg _ ((State.vote_gives _ hd hw).trans ?_), congrArg _ ((State.vote_gives _ hd hw).trans ?_),
      congrArg _ ((State.vote_gives _ hd hw).trans ?_), congrArg _ ((State.vote_gives _ hd hw).trans ?_)⟩
    · simp only [hall, rs]
    · simp only [hany, rs]
    · simp only [hall, hany, rs]
    · simp only [hodd, beq_iff_eq, rs]
  · intro s o shift dom b hd h
    refine congrArg _ (State.exchange_gives (data := false) (reg := fun _ => 0) hd h (fun _ => rfl) (by simp)
      (fun _ _ => by simp) _ _
      fun k _ => ?_)
    refine List.map_congr_left (State.domReaders_forall fun j hj => ?_)
    simp only [State.readerOf, State.domReaders_congr hj, hj]
    rfl
  · intro s o shift dom reg hd ha rs vals
    refine ⟨fun hw => ?_, fun hw p hrm => ⟨?_, fun hn => ?_, fun hn => ?_⟩⟩
    · refine congrArg _ (State.exchange_gives (data := true) (reg := reg) (b := fun _ => 0) (rd := fun _ => []) hd
        ⟨fun _ _ => rfl, hw⟩ (fun _ => rfl) (by simp) ha.1 _ _ fun k _ => ?_)
      rw [State.domUniform_readers rfl ha.2]
      refine List.map_congr_left (State.domReaders_forall fun j hj => ?_)
      simp only [State.readerOf, State.domReaders_congr hj, hj, rs, List.filter_map, List.length_map, Function.comp_def]
      generalize List.filter _ _ = l
      cases l <;> rfl
    · refine congrArg _ (State.combining_gives hd ha hw hrm _ _ (fun _ => reduceOp_eq ..) fun k _ => (reduceOp_eq ..).trans ?_)
      refine List.map_congr_left (State.domReaders_forall fun j hj => ?_)
      simp only [State.readerOf, State.domReaders_congr hj, hj, rs, one]
    · refine congrArg _ (State.combining_gives hd ha hw hrm _ _ (fun _ => rfl) fun k _ => ?_)
      refine (zip_by_key (by rw [scanGo_length, List.length_map]) (State.domReaders_nodup hn)
        (fun x : Option Word × Word × FFlags => x.2.1) _).trans ?_
      refine List.map_congr_left (State.domReaders_forall fun j hj => ?_)
      simp only [State.readerOf, State.domReaders_congr hj, hj, rs, vals, one]
      rfl
    · refine congrArg _ (State.combining_gives hd ha hw hrm _ _ (fun _ => rfl) fun k _ => ?_)
      refine (zip_by_key (by rw [scanGo_length, List.length_map]) (State.domReaders_nodup hn)
        (fun x : Option Word × Word × FFlags =>
        x.1.getD (redIdentity p)) _).trans ?_
      refine List.map_congr_left (State.domReaders_forall fun j hj => ?_)
      simp only [State.readerOf, State.domReaders_congr hj, hj, rs, vals, one]
      rfl

end Sys2Proof
end

section
/-! Loads, stores, granules and atomics of on-chip storage (09_memory 9.2 to 9.5). -/

namespace Sys2Proof.Machine

/-! ### On-chip accesses -/

/-- Loads whose lanes' addresses are ready on chip. -/
theorem State.loads_chip {s : State} {i : Instr} {h : Hint} {o : OpM} {n : Nat} {rd : Nat → List Word} (hz : o.sz ≠ 3)
    (hr : s.Ready o.g (addrCodes o) o.lit (.vec (sizeBytes o.sz / 4) o.d) rd)
    (hc : ∀ k ∈ s.active s.here o.g, s.ChipReady k (eaOf (rd k) n) (sizeBytes o.sz) 0) :
    s.loads i h o n = s.gives o.g (.vec (sizeBytes o.sz / 4) o.d) false
      (fun k => s.chipWords (eaOf (rd k) n) (sizeBytes o.sz / 4)) noFlags := by
  simp only [State.loads, sizeBytes_ne hz, Bool.false_eq_true, ↓reduceIte]
  refine State.groupWord_gives hr (by simp) _ _ ?_ (State.kept_all rfl)
  rw [State.eachLane_still _ fun k hk => State.loadLane_chip (hc k hk), State.memDone_done (by simp [doneWith])]
  rfl

/-- A store covers no words of global memory. -/
theorem State.storeWords_chip {s : State} {k n size : Nat} {ws : List Word} (hc : s.ChipReady k (eaOf ws n) size 1) :
    s.storeWords [(k, ws)] n size = [] := by
  simp only [State.storeWords, List.flatMap_cons, List.flatMap_nil, State.locate_chip hc, Place.covers, List.append_nil]

/-- A store of one lane whose address is ready on chip. -/
theorem State.stores_chip {s : State} {i : Instr} {h : Hint} {o : OpM} {n k : Nat} {rd : Nat → List Word} (hz : o.sz ≠ 3)
    (hs : s.Sole o.g k) (hr : s.Reads o.g (addrCodes o ++ codesFrom o.d (sizeBytes o.sz / 4)) o.lit rd)
    (hc : s.ChipReady k (eaOf (rd k) n) (sizeBytes o.sz) 1) :
    s.stores i h o n = s.chipRun (eaOf (rd k) n).toNat ((rd k).drop 3) := by
  simp only [State.stores, sizeBytes_ne hz, Bool.false_eq_true, ↓reduceIte]
  refine State.groupWord_none (outs := [(k, doneWith [])]) hr ?_ (done_lane k)
  rw [hs]
  simp only [List.map_cons, List.map_nil, State.storeWords_chip hc, State.clearLines_nil, ite_self, State.eachLane_single,
    State.storeLane_chip hc, State.memDone_dw]

/-- An access made once for a yard. -/
theorem State.yardAccess_const {s t : State} {ks : List Nat} {ws v : List Word} {y : Nat}
    {f : State → Nat → List Word → State × LaneOut} (hn : ks ≠ []) (hy : ∀ k ∈ ks, yardOf k = y)
    (hf : f s (ks.headD 0) ws = (t, doneWith v)) :
    s.yardAccess (ks.map fun k => (k, ws)) f = (t, ks.map fun k => (k, doneWith v)) := by
  rw [State.yardAccess, State.eachYard_const _ _ _ hn hy]
  cases ks with
  | nil => exact absurd rfl hn
  | cons k r =>
    have hf : f s k ws = (t, doneWith v) := hf
    simp only [List.map_cons, hf, List.map_map, Function.comp_def]
    exact State.memDone_all (ks := k :: r)

end Sys2Proof.Machine

namespace Sys2Proof
open Sys2Proof.Machine

/-- Settles O16: loads read and stores write the words at their lanes' own addresses. -/
theorem onChipAccesses : Obligations.OnChipAccesses := by
  refine ⟨⟨?_, ?_⟩, ?_, ?_⟩
  · intro s h o rd hz hr
    exact ⟨fun hc => congrArg _ (State.loads_chip hz hr hc), fun hc => congrArg _ (State.loads_chip hz hr hc)⟩
  · intro s h o ws y hy hr hc
    exact congrArg _ (State.groupWord_givesUni hr (fun _ => s.chipWords (eaOf ws 1) (sizeBytes o.sz / 4))
      (State.yardAccess_const hy.1 hy.2 (State.loadLane_chip hc)) (State.kept_all rfl))
  · intro s h o k rd hz hs hr
    exact ⟨fun hc => congrArg _ (State.stores_chip hz hs hr hc), fun hc => congrArg _ (State.stores_chip hz hs hr hc)⟩
  · intro s h o ws y hy hr hc
    exact congrArg _ (State.groupWord_none (outs := (s.active s.here o.g).map fun k => (k, doneWith [])) hr
      (State.yardAccess_const hy.1 hy.2 (State.storeLane_chip hc)) (done_lanes _))

end Sys2Proof
end

section
/-! Global accesses, granules, atomics, ordering points, PREF and PARK (09_memory). -/

namespace Sys2Proof.Machine

/-! ### Global accesses of one lane -/

/-- What a load of a lane from global memory gives, once the directory lets it proceed. -/
theorem State.loadLane_global {s t u : State} {k hint size pa : Nat} {a : DWord} {nc : Bool} (h : s.GlobalReady k a size 0 pa nc t)
    (hd : if (wordsFrom pa (size / 4)).any (t.atHome (coreOf k) hint) then t.dirAccess pa false nc = (u, true) else u = t)
    (hp : ∀ wa ∈ wordsFrom pa (size / 4), u.poisoned wa = false) :
    s.loadLane k hint size a =
      ((u.loadRun k hint (wordsFrom pa (size / 4))).1, doneWith (u.loadRun k hint (wordsFrom pa (size / 4))).2) := by
  have hdir : (if (wordsFrom pa (size / 4)).any (t.atHome (coreOf k) hint) = true then t.dirAccess pa false nc else (t, true)) =
      (u, true) := by
    by_cases hc : (wordsFrom pa (size / 4)).any (t.atHome (coreOf k) hint) = true
    · rw [if_pos hc] at hd ⊢
      exact hd
    · rw [if_neg hc] at hd ⊢
      rw [hd]
  have hpo : (wordsFrom pa (size / 4)).any u.poisoned = false := by
    rw [List.any_eq_false]
    exact fun wa hwa => by rw [hp wa hwa]; exact Bool.false_ne_true
  have hw : (List.range (size / 4)).map (fun i => pa + 4 * i) = wordsFrom pa (size / 4) := rfl
  simp only [State.loadLane, State.locate_global h, State.readPlace, hw, hdir, hpo, Bool.not_true, Bool.false_eq_true, ↓reduceIte]

/-- What a store of a lane to global memory gives, where its line is not poisoned. -/
theorem State.storeLane_global {s t u : State} {k hint size pa : Nat} {a : DWord} {nc : Bool} {ws : List Word}
    (h : s.GlobalReady k a size 1 pa nc t) (hd : if 2 ≤ hint then t.dirAccess pa true nc = (u, true) else u = t)
    (hp : u.poisonedLine pa = false) : s.storeLane k hint size a ws = (u.storeRun k hint pa nc ws, doneWith []) := by
  have hdir : (if 2 ≤ hint then t.dirAccess pa true nc else (t, true)) = (u, true) := by
    by_cases hc : 2 ≤ hint
    · rw [if_pos hc] at hd ⊢
      exact hd
    · rw [if_neg hc] at hd ⊢
      rw [hd]
  simp only [State.storeLane, State.locate_global h, State.writePlace, hdir, hp, Bool.not_true, Bool.false_eq_true, ↓reduceIte]

/-- The words of global memory that a store covers. -/
theorem State.storeWords_global {s t : State} {k n size pa : Nat} {nc : Bool} {ws : List Word}
    (h : s.GlobalReady k (eaOf ws n) size 1 pa nc t) : s.storeWords [(k, ws)] n size = wordsFrom pa (size / 4) := by
  simp only [State.storeWords, List.flatMap_cons, List.flatMap_nil, State.locate_global h, Place.covers, List.append_nil]
  rfl

/-! ### Granules -/

/-- A word of on-chip storage that is not poisoned reads. -/
theorem State.read_chip_word {s : State} {k hint key : Nat} {a : DWord} (h : s.mem.poison.contains key = false) :
    s.readPlace k hint a 1 (.chip key) = (s, .inl [s.chipWord key]) := by
  simp only [State.readPlace, List.range_one, List.map_cons, List.map_nil, Nat.mul_zero, Nat.add_zero, List.any_cons, List.any_nil,
    h, Bool.or_self, Bool.false_eq_true, ↓reduceIte]

/-- A granule load of one lane: its word of the cell and the byte after the words. -/
theorem State.loadCell_chip {s : State} {k hint : Nat} {a : DWord} (h : s.ChipReady k a 64 0) :
    s.loadCell k hint a = (s, .done
      { vals := [s.chipWord (a.toNat + 4 * (laneOf k % 8))], ff := 0, sb := some ((s.chipWord (a.toNat + 32)).setWidth 8),
        tag := none }) := by
  have h1 := h.clean (laneOf k % 8) (by omega)
  have h2 := h.clean 8 (by omega)
  have hb (w : Word) : (val [w] 0).extractLsb' 0 8 = w.setWidth 8 := (BitVec.setWidth_eq_extractLsb' (by decide)).symm
  simp only [State.loadCell, State.locate_chip h, Place.add, State.read_chip_word h1, State.read_chip_word h2, hb]

/-- A granule load of one lane on chip. -/
theorem State.loads_cell {s : State} {i : Instr} {h : Hint} {o : OpM} {k n : Nat} {rd : Nat → List Word} (hz : o.sz = 3)
    (hs : s.Sole o.g k) (hr : s.Ready o.g (addrCodes o) o.lit (.vec 1 o.d) rd) (hc : s.ChipReady k (eaOf (rd k) n) 64 0) :
    s.loads i h o n = s.deliverOuts s (.vec 1 o.d) false [(k, .done
      { vals := [s.chipWord ((eaOf (rd k) n).toNat + 4 * (laneOf k % 8))], ff := 0,
        sb := some ((s.chipWord ((eaOf (rd k) n).toNat + 32)).setWidth 8), tag := none })] := by
  have h64 : sizeBytes o.sz = 64 := by rw [hz]; rfl
  simp only [State.loads, h64, BEq.rfl, ↓reduceIte]
  refine State.groupWord_outs hr ?_ (by simp [Plain, hs]) (State.kept_all rfl)
  rw [hs]
  simp only [List.map_cons, List.map_nil, State.octet_one, State.loadCell_chip hc, State.memDone_one]

/-- A granule store of one lane on chip: its word of the cell, and the scale byte. -/
theorem State.stores_cell {s : State} {i : Instr} {h : Hint} {o : OpM} {k n : Nat} {rd : Nat → List Word} (hz : o.sz = 3)
    (hs : s.Sole o.g k) (hr : s.Reads o.g (addrCodes o ++ [o.d]) o.lit rd) (hc : s.ChipReady k (eaOf (rd k) n) 64 1) :
    s.stores i h o n = (s.chipRun ((eaOf (rd k) n).toNat + 4 * (laneOf k % 8)) [val (rd k) 3]).chipMerge
      ((eaOf (rd k) n).toNat + 32) ((eaOf (rd k) n).toNat + 32)
      [((s.thread k).view.vs[o.d.toNat]?).elim 0 fun v => v.sb] := by
  have h64 : sizeBytes o.sz = 64 := by rw [hz]; rfl
  simp only [State.stores, h64, BEq.rfl, ↓reduceIte]
  refine State.groupWord_none (outs := [(k, doneWith [])]) hr ?_ (done_lane k)
  rw [hs]
  simp only [List.map_cons, List.map_nil, State.octet_one, State.storeCell, State.locate_chip hc, Place.add, State.writePlace,
    State.storeByte, State.memDone_dw]

/-! ### Atomics of one lane -/

/-- An atomic of one lane whose address is ready on chip, once its release point is behind it. -/
theorem State.atoms_chip {s t : State} {i : Instr} {p : AtomOp} {o : OpM} {k n : Nat} {acq rel : Bool} {rd : Nat → List Word}
    (hs : s.Sole o.g k) (hr : s.Ready o.g (addrCodes o ++ codesFrom o.d (atomWords p n)) o.lit (.vec n o.d) rd)
    (hn : n = 1 ∨ n = 2) (hc : s.ChipReady k (eaOf (rd k) 1) (4 * n) 2)
    (ht : if rel then s.drain k = (t, true) else t = s) (hct : t.ChipReady k (eaOf (rd k) 1) (4 * n) 2) :
    s.atoms i p o n acq rel =
      (if acq then (t.chipRun (eaOf (rd k) 1).toNat (atomFun p n ((rd k).drop 3) (t.chipWords (eaOf (rd k) 1) n))).acquire k
       else t.chipRun (eaOf (rd k) 1).toNat (atomFun p n ((rd k).drop 3) (t.chipWords (eaOf (rd k) 1) n))).deliver s o.g
        (.vec n o.d) false (fun _ => t.chipWords (eaOf (rd k) 1) n) noFlags := by
  have hdrain : (if rel = true then s.drain k else (s, true)) = (t, true) := by
    cases rel
    · rw [ht]; rfl
    · exact ht
  have hfab : t.fab = s.fab := by
    cases rel
    · rw [ht]
    · have := State.drain_fab s k
      rwa [ht] at this
  have hkept : ∀ j ∈ s.active s.here o.g,
      (t.chipRun (eaOf (rd k) 1).toNat (atomFun p n ((rd k).drop 3) (t.chipWords (eaOf (rd k) 1) n))).Kept s j := fun j hj =>
    State.kept_fab ((State.chipRun_fab hct hn (atomFun_length hn)).trans hfab) hj
  refine State.groupWord_gives hr (by simp) _ _ ?_ fun j hj => ?_
  · rw [hs]
    simp only [List.map_cons, List.map_nil, State.eachLane_single, State.atomLane, State.locate_chip hc, hdrain, Bool.not_true,
      Bool.false_eq_true, ↓reduceIte, State.atomAt_chip hct, State.memDone_dw]
    rfl
  · split
    · exact State.acquireAll_kept (hkept j hj)
    · exact hkept j hj

/-! ### Ordering points and PARK -/

/-- The acquire point of some threads, with their cores named by the threads. -/
theorem State.acquireAll_eq (s : State) (ks : List Nat) :
    s.acquireAll ks = ({ s with mem := { s.mem with dcache := s.mem.dcache.filter fun p =>
      !((ks.any fun k => coreOf k == p.1 / 2 ^ 56) && p.2.st == WState.valid) } }).updLanes ks fun _ x =>
        { x with acq := s.mem.written } := by
  have h (n : Nat) : (ks.map coreOf).eraseDups.contains n = ks.any fun k => coreOf k == n := by
    rw [Bool.eq_iff_iff, List.contains_iff_mem, List.mem_eraseDups, List.mem_map, List.any_eq_true]
    simp only [beq_iff_eq]
  simp only [State.acquireAll, h]

/-- An ordering point of the active threads, once their stores are registered. -/
theorem State.order_of {s t : State} {i : Instr} {o : OpM} {rel acq : Bool}
    (h : if rel then s.drainAll (s.active s.here o.g) = (t, true) else t = s) :
    s.order i o rel acq = if acq then t.acquireAll (s.active s.here o.g) else t := by
  have hd : (if rel = true then s.drainAll (s.active s.here o.g) else (s, true)) = (t, true) := by
    cases rel
    · rw [h]; rfl
    · exact h
  refine State.groupWord_none (rd := fun _ => []) (outs := (s.active s.here o.g).map fun k => (k, doneWith [])) (fun _ _ => rfl) ?_
    (done_lanes _)
  simp only [List.map_map, Function.comp_def, List.map_id', hd, Bool.not_true, Bool.false_eq_true, ↓reduceIte, allDone_map]

/-- A word at which its one active lane waits. -/
theorem State.groupWord_park {s t : State} {i : Instr} {sc : BitVec 2} {g : BitVec 3} {codes : List (BitVec 5)} {lit : Word}
    {f : State → List (Nat × List Word) → State × List (Nat × LaneOut)} {rd : Nat → List Word} {k : Nat} {st : TState}
    (h : s.Reads g codes lit rd) (hf : f s ((s.active s.here g).map fun k => (k, rd k)) = (t, [(k, .park st)])) :
    s.groupWord i sc g codes lit .none false f = t.park k s.here.w st true := by
  have happly (j : Nat) (x : Thread) :
      x.applyOut j .none false [(k, LaneOut.park st)] (outOf [(k, LaneOut.park st)] j) = x := by
    by_cases hj : k = j
    · simp [outOf, hj, Thread.applyOut]
    · simp [outOf, hj, Thread.applyOut, Thread.idle, Thread.putSb]
  rw [State.groupWord_ready h (fun _ _ => rfl)]
  simp only [hf, List.any_cons, List.any_nil, Bool.or_false]
  rw [if_neg (by simp)]
  simp only [State.finish, State.updLanes_same _ _ _ happly, List.foldl_cons, List.foldl_nil, State.tagOut, State.parkOut,
    trapsOf, List.filterMap_cons, List.filterMap_nil, State.raise, List.map_nil, State.raiseAt_nil]

/-- A lane that waits for its page is reported by one fault event. -/
theorem State.memDone_park {s : State} {k v kind r : Nat} :
    State.memDone (s, [(k, .park (.blocked (.page v kind r false)))]) =
      (s.recordFault (clusterOf (coreOf k)) (coreOf k % 4) (s.ctxOf k) v kind r 1,
        [(k, .park (.blocked (.page v kind r (s.drops (clusterOf (coreOf k)) (s.ctxOf k) v))))]) := by
  simp [State.memDone, State.reportPoison, State.reportParks, parkOf, markPark]

end Sys2Proof.Machine

namespace Sys2Proof
open Sys2Proof.Machine

/-- Settles O17: one lane's load and store at a translated address. -/
theorem globalLoadsAndStores : Obligations.GlobalLoadsAndStores := by
  refine ⟨?_, ?_⟩
  · intro s t u h o k pa nc rd hz hs hr hg hd hp r
    have hfab : u.fab = s.fab := by
      refine Eq.trans ?_ (State.global_fab hg)
      split at hd
      · have := State.dirAccess_fab t pa false nc
        rwa [hd] at this
      · rw [hd]
    show Host.Outcome.next (State.loads _ _ _ _ _) = _
    simp only [State.loads, sizeBytes_ne hz, Bool.false_eq_true, ↓reduceIte]
    refine congrArg _ (State.groupWord_gives hr (by simp) (fun _ => r.2) noFlags ?_ fun j hj =>
      State.kept_fab ((State.loadRun_fab ..).trans hfab) hj)
    rw [hs]
    simp only [List.map_cons, List.map_nil, State.eachLane_single, State.loadLane_global hg hd hp, State.memDone_dw]
    rfl
  · intro s t t' u h o k pa nc rd hz hs hr c hg hgc hd hp
    show Host.Outcome.next (State.stores _ _ _ _ _) = _
    simp only [State.stores, sizeBytes_ne hz, Bool.false_eq_true, ↓reduceIte]
    refine congrArg _ (State.groupWord_none (outs := [(k, doneWith [])]) hr ?_ (done_lane k))
    rw [hs]
    have hclear : (if s.mem.poison.isEmpty = true then s else s.clearLines (wordsFrom pa (sizeBytes o.sz / 4))) = c := by
      simp only [List.isEmpty_iff, c]
    simp only [List.map_cons, List.map_nil, State.storeWords_global hg, hclear, State.eachLane_single,
      State.storeLane_global hgc hd hp, State.memDone_dw]

/-- Settles O18: a lane's word of the cell and the byte after the words. -/
theorem granuleAccesses : Obligations.GranuleAccesses := by
  refine ⟨?_, ?_⟩
  · rintro s h o k rd i n hz hs hr (⟨rfl, rfl⟩ | ⟨rfl, rfl⟩) hc a
    · exact congrArg _ (State.loads_cell hz hs hr hc)
    · have h64 : sizeBytes o.sz = 64 := by rw [hz]; rfl
      show Host.Outcome.next (s.loads _ h o (sizeBytes o.sz)) = _
      rw [h64]
      exact congrArg _ (State.loads_cell hz hs hr hc)
  · rintro s h o k rd i n hz hs hr (⟨rfl, rfl⟩ | ⟨rfl, rfl⟩) hc a t sb
    · exact congrArg _ (State.stores_cell hz hs hr hc)
    · have h64 : sizeBytes o.sz = 64 := by rw [hz]; rfl
      show Host.Outcome.next (s.stores _ h o (sizeBytes o.sz)) = _
      rw [h64]
      exact congrArg _ (State.stores_cell hz hs hr hc)

/-- Settles O19: the old words are answered, the new ones left, and the ordering point stands on its side. -/
theorem atomics : Obligations.Atomics := by
  refine ⟨?_, ?_⟩
  · intro s p o k rd hs n hr hc old
    have hn : (if (o.sz.toNat == 0) = true then 1 else 2) = n := by
      simp only [n, beq_iff_eq, ← BitVec.toNat_inj]
      rfl
    show Host.Outcome.next (s.atoms _ p o (if (o.sz.toNat == 0) = true then 1 else 2) false false) = _
    rw [hn]
    exact congrArg _ (State.atoms_chip (acq := false) (rel := false) hs hr (by simp only [n]; split <;> simp) hc rfl hc)
  · intro s t p o k rd hs n hr hc ht hct old u
    refine congrArg _ ((State.atoms_chip hs hr (by simp only [n]; split <;> simp) hc ht hct).trans ?_)
    cases o.sz.getLsbD 0 <;> rfl

/-- Settles O20: acquire and release points, prefetches lane by lane, and a lane parked with one event. -/
theorem orderingAndPrefetch : Obligations.OrderingAndPrefetch := by
  refine ⟨?_, ?_, ?_⟩
  · intro s t o hn acquired
    refine ⟨?_, fun ht => ⟨?_, ?_⟩⟩
    · exact congrArg _ ((State.order_of (rel := false) (acq := true) rfl).trans (State.acquireAll_eq ..))
    · exact congrArg _ (State.order_of (rel := true) (acq := false) ht)
    · exact congrArg _ ((State.order_of (rel := true) (acq := true) ht).trans (State.acquireAll_eq ..))
  · intro s o rd hr
    refine congrArg _ (State.groupWord_none (outs := (s.active s.here o.g).map fun k => (k, doneWith [])) hr ?_ (done_lanes _))
    exact State.eachLane_fold (fun _ => True) _ _ trivial fun t _ k _ => ⟨rfl, trivial⟩
  · intro s o k rd hr hs hg v cl
    refine congrArg _ (State.groupWord_park hr ?_)
    rw [hs]
    simp only [List.map_cons, List.map_nil, State.eachLane_single, hg, ↓reduceIte, State.memDone_park]
    rfl

end Sys2Proof
end

section
/-! Line words, handovers and region modes (11_coherence 11.2, 11.4, 11.6). -/

namespace Sys2Proof.Machine

/-! ### A discarded line -/

/-- After a line is discarded nothing on the device holds a word of it: memory answers. -/
theorem State.discardLine_word (u : State) {line wa : Nat} (hl : lineAddr wa = line) (hw : wa < 2 ^ 56) :
    (u.discardLine line).homeWord wa = u.mem.bytes.word wa ∧ (∀ core, (u.discardLine line).cached core wa = none) ∧
      (∀ p ∈ (u.discardLine line).mem.pend, p.word ≠ wa) ∧ (u.discardLine line).mem.bytes = u.mem.bytes := by
  refine ⟨?_, fun core => ?_, fun p hp => ?_, rfl⟩
  · have : Map.find? (u.discardLine line).mem.l2 wa = none :=
      Map.find?_filter_none u.mem.l2 _ wa fun p hp => by simp [hp, hl]
    rw [State.homeWord, this]
    rfl
  · refine Map.find?_filter_none u.mem.dcache _ _ fun p hp => ?_
    have hm : p.1 % 2 ^ 56 / 64 * 64 = line := by
      rw [hp, dkey, Nat.mul_comm core, Nat.mul_add_mod, Nat.mod_eq_of_lt hw]
      exact hl
    show (!(p.1 % 2 ^ 56 / 64 * 64 == line && true)) = false
    rw [hm, BEq.rfl]
    rfl
  · obtain ⟨-, hp⟩ := List.mem_filter.mp (show p ∈ u.mem.pend.filter _ from hp)
    rintro rfl
    simp [hl] at hp

/-! ### Words on a range -/

/-- The lanes of one yard end their word for that yard. -/
theorem State.forgetLong_yard {s : State} {ks : List Nat} {y : Nat} (hn : ks ≠ []) (hy : ∀ k ∈ ks, yardOf k = y) (pc : BitVec 16)
    (w : Nat) : s.forgetLong (ks.map yardOf) pc w = s.forgetLong [y] pc w := by
  have h (n : Nat) : (ks.map yardOf).contains n = [y].contains n := by
    rw [Bool.eq_iff_iff, List.contains_iff_mem, List.contains_iff_mem, List.mem_map, List.mem_singleton]
    constructor
    · rintro ⟨k, hk, rfl⟩
      exact hy k hk
    · rintro rfl
      obtain ⟨k, hk⟩ := List.exists_mem_of_ne_nil ks hn
      exact ⟨k, hk, hy k hk⟩
  simp only [State.forgetLong, h]

/-- A word on a range that its yard ends with one answer. -/
theorem State.longWord_yard {s t : State} {i : Instr} {sc : BitVec 2} {g : BitVec 3} {codes : List (BitVec 5)} {lit : Word}
    {n : Nat} {d : BitVec 5} {ws : List Word} {y : Nat} {w : Word}
    {f : State → Nat → List (Nat × List Word) → State × List (Nat × LaneOut)} (hy : s.InYard g y)
    (hr : s.Ready g codes lit (.vec n d) fun _ => ws)
    (hf : f s y ((s.active s.here g).map fun k => (k, ws)) = (t, allDone ((s.active s.here g).map fun k => (k, ws)) [w]))
    (ht : ∀ k ∈ s.active s.here g, t.Kept s k) :
    (s.longWord i sc g codes lit (.vec n d) fun s ins => State.memDone (s.eachYard ins (fun ws => ws) f)) =
      (t.forgetLong [y] s.here.pc s.here.w).deliver s g (.vec n d) false (one fun _ => w) noFlags := by
  rw [← State.forgetLong_yard hy.1 hy.2]
  refine State.longWord_gives hr (by simp) (one fun _ => w) ?_ ht
  rw [State.eachYard_const _ _ _ hy.1 hy.2, hf, allDone_map, State.memDone_all]
  rfl

/-! ### HANDOFF -/

/-- Ending a handover's word leaves the registers and threads. -/
theorem State.handoverEnd_fab (s : State) (done : Nat) (e : HoEnd) : (s.handoverEnd done e).fab = s.fab := by
  simp only [State.handoverEnd]
  split <;> rfl

theorem State.handoffDone_eq (s : State) (ks : List Nat) (ws : List Word) (dev : Bool) (w : Word) :
    s.handoffDone (ks.map fun k => (k, ws)) dev w =
      (if dev then s.acquireAll ks else s, allDone (ks.map fun k => (k, ws)) [w]) := by
  simp only [State.handoffDone, List.map_map, Function.comp_def, List.map_id']

/-- A state with the same registers and threads keeps what a word's end relies on, after an acquire point too. -/
theorem State.kept_acquire {s t : State} {g : BitVec 3} {dev : Bool} {ks : List Nat} (h : t.fab = s.fab) :
    ∀ k ∈ s.active s.here g, (if dev then t.acquireAll ks else t).Kept s k := by
  intro k hk
  split
  · exact State.acquireAll_kept (State.kept_fab h hk)
  · exact State.kept_fab h hk

/-- The operands of a HANDOFF pass its checks. -/
structure HandoffOk (ws : List Word) : Prop where
  global : isGlobal (val2 ws 0) = true
  aligned : (val2 ws 0).toNat % 64 = 0
  nonempty : 0 < (val ws 2).toNat
  lines : (val ws 2).toNat % 64 = 0
  most : (val ws 2).toNat ≤ 2 ^ 24

/-- Past its checks a HANDOFF looks for its yard's word in progress. -/
theorem State.handoff_checked {s : State} {i : Instr} {h : Here} {y : Nat} {ks : List Nat} {ws : List Word} {dev : Bool}
    (hn : ks ≠ []) (hc : HandoffOk ws) :
    s.handoff i h y (ks.map fun k => (k, ws)) dev =
      match (s.long y h.pc h.w).map fun x => x.status with
      | some (some w) => s.handoffDone (ks.map fun k => (k, ws)) dev w
      | some none => (s, ks.map fun k => (k, .stall))
      | none =>
        let (s1, ok) := s.drainAll ks
        if !ok then (s1, ks.map fun k => (k, .stall))
        else match s1.handoffStart h y (ks.headD 0) (val2 ws 0) (val ws 2).toNat dev with
        | (s2, some o) => (s2, ks.map fun k => (k, o))
        | (s2, none) => s2.handoffDone (ks.map fun k => (k, ws)) dev (coStatus 2 2 0) := by
  have hlen : ((val ws 2).toNat == 0 || (val ws 2).toNat % 64 != 0 || decide (2 ^ 24 < (val ws 2).toNat)) = false := by
    have := hc.nonempty
    rw [hc.lines, decide_eq_false (by have := hc.most; omega), beq_eq_false_iff_ne.mpr (by omega)]
    rfl
  simp only [State.handoff, lead_const _ hn, hc.global, hc.aligned, hlen, bne_self_eq_false, Bool.not_true, Bool.false_eq_true,
    ↓reduceIte, List.map_map, Function.comp_def, List.map_id']
  rfl

/-- What a HANDOFF that starts its handover leaves (R243, R244). -/
def State.begun (u : State) (h : Here) (y : Nat) (ws : List Word) (dev : Bool) (pages : List (Nat × Bool)) : State :=
  let v := u.setLong { yard := y, pc := h.pc, w := h.w, done := 0, status := none }
  v.setMem { v.mem with ho := { v.mem.ho with
    busy := true, progress := 0, toDev := dev, by_ := some y, total := (val ws 2).toNat / 64,
    pages := pages.map fun p => p.1 / 4096 * 4096, off := (val2 ws 0).toNat % 65536 } }

/-- A HANDOFF that may start its handover starts it, or with no host link up ends it. -/
theorem State.handoffStart_of {t u : State} {h : Here} {y k : Nat} {ws : List Word} {dev : Bool} {pages : List (Nat × Bool)}
    (hb : t.mem.ho.busy = false)
    (hp : t.pagesOf k (val2 ws 0) 0 (((val2 ws 0).toNat % 4096 + (val ws 2).toNat + 4095) / 4096) = (u, .inl pages)) :
    t.handoffStart h y k (val2 ws 0) (val ws 2).toNat dev =
      if u.hostLinkUp then (u.begun h y ws dev pages, some .stall) else ((u.begun h y ws dev pages).handoverEnd 0 .link, none) := by
  simp only [State.handoffStart, hb, hp, Bool.false_eq_true, ↓reduceIte]
  rfl

/-- A memory word that has stalled leaves nothing more. -/
theorem State.memDone_stalled {t : State} {outs : List (Nat × LaneOut)} (h : outs.any (fun p => p.2 == .stall) = true) :
    State.memDone (t, outs) = (t, outs) := if_pos h

section
variable {s t u : State} {i : Instr} {h : Here} {y : Nat} {ks : List Nat} {ws : List Word} {dev : Bool} {pages : List (Nat × Bool)}

/-- A HANDOFF whose handover has ended gives its status word. -/
theorem State.handoff_ended {x : Long} {w : Word} (hn : ks ≠ []) (hc : HandoffOk ws) (hx : s.long y h.pc h.w = some x)
    (hw : x.status = some w) : s.handoff i h y (ks.map fun k => (k, ws)) dev =
      (if dev then s.acquireAll ks else s, allDone (ks.map fun k => (k, ws)) [w]) := by
  rw [State.handoff_checked hn hc]
  simp only [hx, Option.map_some, hw, State.handoffDone_eq]

/-- A HANDOFF that starts its handover waits. -/
theorem State.handoff_starts (hn : ks ≠ []) (hc : HandoffOk ws) (hx : s.long y h.pc h.w = none) (hd : s.drainAll ks = (t, true))
    (hb : t.mem.ho.busy = false)
    (hp : t.pagesOf (ks.headD 0) (val2 ws 0) 0 (((val2 ws 0).toNat % 4096 + (val ws 2).toNat + 4095) / 4096) = (u, .inl pages))
    (hup : u.hostLinkUp = true) :
    s.handoff i h y (ks.map fun k => (k, ws)) dev = (u.begun h y ws dev pages, ks.map fun k => (k, .stall)) := by
  rw [State.handoff_checked hn hc, hx, hd]
  simp only [Option.map_none, Bool.not_true, Bool.false_eq_true, ↓reduceIte, State.handoffStart_of hb hp, hup]

/-- With no host link up a HANDOFF ends at once. -/
theorem State.handoff_unlinked (hn : ks ≠ []) (hc : HandoffOk ws) (hx : s.long y h.pc h.w = none) (hd : s.drainAll ks = (t, true))
    (hb : t.mem.ho.busy = false)
    (hp : t.pagesOf (ks.headD 0) (val2 ws 0) 0 (((val2 ws 0).toNat % 4096 + (val ws 2).toNat + 4095) / 4096) = (u, .inl pages))
    (hdown : u.hostLinkUp = false) :
    s.handoff i h y (ks.map fun k => (k, ws)) dev =
      (if dev then ((u.begun h y ws dev pages).handoverEnd 0 .link).acquireAll ks
        else (u.begun h y ws dev pages).handoverEnd 0 .link,
        allDone (ks.map fun k => (k, ws)) [coStatus 2 2 0]) := by
  rw [State.handoff_checked hn hc, hx, hd]
  simp only [Option.map_none, Bool.not_true, Bool.false_eq_true, ↓reduceIte, State.handoffStart_of hb hp, hdown,
    State.handoffDone_eq]

end

/-! ### RMODE -/

@[simp] theorem State.drainRegion_fab (s : State) (region : Nat) : (s.drainRegion region).1.fab = s.fab := by
  unfold State.drainRegion
  have go (l : List Pend) : ∀ acc : State × Bool, (l.foldl (fun acc p =>
      match (if p.nc || !acc.1.isHc p.word then none else acc.1.dirFind p.word) with
      | none => (acc.1.register p true, acc.2)
      | some e =>
        let (s1, go) := acc.1.dirServe e p.word true
        if go then (s1.register p true, acc.2) else (s1, false)) acc).1.fab = acc.1.fab := by
    induction l with
    | nil => exact fun _ => rfl
    | cons p r ih =>
      intro acc
      rw [List.foldl_cons, ih]
      split
      · simp
      · have h := State.dirServe_fab acc.1 ‹_› p.word true
        dsimp only
        split <;> simp
  exact go _ _

theorem State.backInvalidateAll_fab (s : State) (hs lines : List Nat) :
    (lines.foldl (fun s l => s.backInvalidate hs l true) s).fab = s.fab :=
  foldl_fab _ (fun s l => State.backInvalidate_fab s hs l true) _ s

@[simp] theorem State.dirPurge_fab (s : State) (region : Nat) : (s.dirPurge region).1.fab = s.fab := by
  simp only [State.dirPurge]
  split
  · rfl
  · split
    · rfl
    · refine foldl_fab _ (fun s e => ?_) _ s
      rw [State.dirReplace_fab]
      exact State.backInvalidateAll_fab s _ _

theorem State.evictAll_fab (s : State) (lines : List Nat) : (lines.foldl (fun s l => s.evictLine l) s).fab = s.fab :=
  foldl_fab _ (fun s l => State.evictLine_fab s l) _ s

theorem State.purged_fab {s : State} {region : Nat} {r : State × Bool}
    (hr : (let (s3, ok) := s.dirPurge region
      (if ok then (s3.setMem { s3.mem with hc := s3.mem.hc.filter (· != region) }).endMove region else s3, ok)) = r) :
    r.1.fab = s.fab := by
  have h := State.dirPurge_fab s region
  rcases hp : s.dirPurge region with ⟨s3, ok⟩
  rw [hp] at h hr
  rw [← hr]
  cases ok
  · exact h
  · exact h

/-- Putting a region into a mode leaves the registers and threads. -/
theorem State.setRegion_fab {s : State} {y region : Nat} {hc : Bool} {r : State × Bool} (hr : s.setRegion y region hc = r) :
    r.1.fab = s.fab := by
  have hset (u : State) (m : Mem) : ((u.setMem m).endMove region).fab = u.fab := rfl
  unfold State.setRegion at hr
  generalize (List.range 1024).map (fun i => region * 65536 + 64 * i) = lines at hr
  split at hr
  · rw [← hr]
  · split at hr
    · rw [← hr]
    · split at hr
      rename_i s1 drained hd
      have hs1 : s1.fab = s.fab := by
        have h := State.drainRegion_fab (s.markMove region y) region
        rw [hd] at h
        exact h
      split at hr
      · rw [← hr]
        exact hs1
      · split at hr
        · rw [← hr]
          exact (hset _ _).trans ((State.evictAll_fab _ _).trans hs1)
        · exact (State.purged_fab hr).trans ((State.evictAll_fab _ _).trans hs1)

theorem State.regionAt_fab (s : State) (y k : Nat) (a : DWord) : (s.regionAt y k a).1.fab = s.fab := by
  unfold State.regionAt
  split
  · rfl
  · have h := State.pagesOf_fab s k a 0 16
    split <;> rename_i e <;> rw [e] at h <;> exact h

/-- One region of an RMODE's range put into its mode (R256, R257). -/
abbrev State.RegionSet (h : Here) (y k n : Nat) (a : DWord) (hc : Bool) (u : State) (i : Nat) (v : State) : Prop :=
  ∃ p q region, u.regionAt y k (a + BitVec.ofNat 64 (65536 * i)) = (p, .inl (some region)) ∧ p.setRegion y region hc = (q, true) ∧
    v = q.setLong { yard := y, pc := h.pc, w := h.w, done := i + 1, status := none } ∧
    (i + 1 < n → (v.core (coreOf k)).preempt = false)

theorem State.RegionSet.fab {h : Here} {y k n i : Nat} {a : DWord} {hc : Bool} {u v : State}
    (hr : State.RegionSet h y k n a hc u i v) : v.fab = u.fab := by
  obtain ⟨p, q, region, hp, hq, rfl, -⟩ := hr
  have h1 := State.regionAt_fab u y k (a + BitVec.ofNat 64 (65536 * i))
  have h2 := State.setRegion_fab hq
  rw [hp] at h1
  exact h2.trans h1

/-- An RMODE goes on from the regions that are put into its mode in turn. -/
theorem State.rmodeFrom_turns {h : Here} {y k n m : Nat} {a : DWord} {hc : Bool} {s t : State} {done : Nat} (hm : done + m ≤ n)
    (ht : Turns (State.RegionSet h y k n a hc) (List.range' done m) s t) :
    s.rmodeFrom h y k a hc done (n - done) = t.rmodeFrom h y k a hc (done + m) (n - (done + m)) ∧ t.fab = s.fab := by
  induction m generalizing s done with
  | zero =>
    have ht : t = s := ht
    rw [ht]
    exact ⟨rfl, rfl⟩
  | succ m ih =>
    rw [List.range'_succ] at ht
    obtain ⟨u, hu, hr⟩ := ht
    obtain ⟨ih1, ih2⟩ := ih (by omega) hr
    refine ⟨?_, ih2.trans hu.fab⟩
    obtain ⟨p, q, region, hp, hq, hv, hpre⟩ := hu
    have hn : n - done = (n - (done + 1)) + 1 := by omega
    rw [hn, State.rmodeFrom, hp]
    have hstop : (n - (done + 1) != 0 && ((q.setLong { yard := y, pc := h.pc, w := h.w, done := done + 1, status := none }).core
        (coreOf k)).preempt) = false := by
      by_cases h0 : n - (done + 1) = 0
      · simp [h0]
      · rw [← hv, hpre (by omega), Bool.and_false]
    simp only [hq, hstop, Bool.false_eq_true, ↓reduceIte]
    rw [← hv, ih1, Nat.add_assoc, Nat.add_comm 1 m]

/-- An RMODE whose operands pass its checks answers what its regions give. -/
theorem State.rmode_of {s u : State} {i : Instr} {h : Here} {y : Nat} {ks : List Nat} {ws : List Word} {w : Word} (hn : ks ≠ [])
    (hb : bitsOf (val ws 2).toNat 7 1 = 0) (h0 : bitsOf (val ws 2).toNat 31 8 ≠ 0) (hg : isGlobal (val2 ws 0) = true)
    (ha : (val2 ws 0).toNat % 65536 = 0)
    (hr : s.rmodeFrom h y (ks.headD 0) (val2 ws 0) (bitOf (val ws 2).toNat 0) (((s.long y h.pc h.w).map Long.done).getD 0)
      (bitsOf (val ws 2).toNat 31 8 - ((s.long y h.pc h.w).map Long.done).getD 0) = (u, .inl w)) :
    s.rmode i h y (ks.map fun k => (k, ws)) = (u, allDone (ks.map fun k => (k, ws)) [w]) := by
  have hchk : (bitsOf (val ws 2).toNat 7 1 != 0 || bitsOf (val ws 2).toNat 31 8 == 0) = false := by
    rw [hb, beq_eq_false_iff_ne.mpr h0]
    rfl
  have hr' := hr
  simp only [State.rmode, lead_const _ hn, hchk, hg, ha, bne_self_eq_false, Bool.not_true, Bool.false_eq_true, ↓reduceIte,
    List.map_map, Function.comp_def, List.map_id']
  rw [hr']

end Sys2Proof.Machine

namespace Sys2Proof
open Sys2Proof.Machine

/-- Settles O21: lines one lane at a time, and the words on a range as their yard's record stands. -/
theorem coherenceWords : Obligations.CoherenceWords := by
  refine ⟨⟨?_, fun u line wa hl hw => u.discardLine_word hl hw⟩, ?_, ?_⟩
  · intro s t o rd hr act
    exact ⟨fun h => congrArg _ (State.line_word hr h), fun h => congrArg _ (State.line_word hr h),
      fun h => congrArg _ (State.line_word hr h)⟩
  · intro s o y ws hy hr a len ks answer hg ha h0 hl hmax
    have hc : HandoffOk ws := ⟨hg, ha, h0, hl, hmax⟩
    refine ⟨fun x w hx hst => congrArg Host.Outcome.next (State.longWord_yard hy hr (State.handoff_ended hy.1 hc hx hst)
      (State.kept_acquire rfl)), ?_⟩
    intro t u pages hx hdr hb hp v begun
    have hfab : u.fab = s.fab := by
      have h1 := State.drainAll_fab s ks
      have h2 := State.pagesOf_fab t (ks.headD 0) a 0 ((a.toNat % 4096 + len + 4095) / 4096)
      rw [hdr] at h1
      rw [hp] at h2
      exact h2.trans h1
    have hbegun : u.begun s.here y ws (o.sz.getLsbD 0) pages = begun := rfl
    refine ⟨fun hup => ?_, fun hdown => ?_⟩
    · have hstall : (ks.map fun k => (k, LaneOut.stall)).any (fun p => p.2 == .stall) = true := by
        obtain ⟨k, hk⟩ := List.exists_mem_of_ne_nil ks hy.1
        exact List.any_eq_true.mpr ⟨_, List.mem_map_of_mem hk, rfl⟩
      refine congrArg Host.Outcome.next (State.longWord_stalls hr (t := begun) ?_ hstall)
      rw [State.eachYard_const _ _ _ hy.1 hy.2, State.handoff_starts hy.1 hc hx hdr hb hp hup, hbegun]
      exact State.memDone_stalled hstall
    · have hdone := State.handoff_unlinked (i := .handoff o) (dev := o.sz.getLsbD 0) hy.1 hc hx hdr hb hp hdown
      have hw : coStatus 2 2 0 = 0x82000000 := by decide
      rw [hbegun, hw] at hdone
      have hfabEnd : (begun.handoverEnd 0 .link).fab = s.fab := (State.handoverEnd_fab _ _ _).trans hfab
      exact congrArg Host.Outcome.next (State.longWord_yard hy hr hdone (State.kept_acquire hfabEnd))
  · intro s t o y m ws hy hr a b n k done answer hb hn hg ha hm ht
    obtain ⟨hgo, hfab⟩ := State.rmodeFrom_turns hm ht
    have hrun {u : State} {w : Word} (h : s.rmodeFrom s.here y k a (bitOf b 0) done (n - done) = (u, .inl w)) :
        s.rmode (.rmode o) s.here y ((s.active s.here o.g).map fun k => (k, ws)) =
          (u, allDone ((s.active s.here o.g).map fun k => (k, ws)) [w]) :=
      State.rmode_of hy.1 hb hn hg ha h
    have hend {u : State} {w : Word} (h : s.rmodeFrom s.here y k a (bitOf b 0) done (n - done) = (u, .inl w)) (hu : u.fab = s.fab) :
        exec (.rmode o) s = .next (answer u w) :=
      congrArg Host.Outcome.next (State.longWord_yard (i := .rmode o) (f := fun s y l => s.rmode (.rmode o) s.here y l)
        (w := w) hy hr
        (hrun h) fun k hk => State.kept_fab hu hk)
    refine ⟨fun hall => ?_, fun p hlt hp => ?_⟩
    · rw [hall, Nat.sub_self] at hgo
      have hw : coStatus 0 0 n = BitVec.ofNat 32 n := by simp [coStatus]
      exact hend (hgo.trans (by rw [State.rmodeFrom, hw])) hfab
    · obtain ⟨j, hj⟩ : ∃ j, n - (done + m) = j + 1 := ⟨n - (done + m) - 1, by omega⟩
      have hp1 : p.fab = s.fab := by
        have h := State.regionAt_fab t y k (a + BitVec.ofNat 64 (65536 * (done + m)))
        rw [hp] at h
        exact h.trans hfab
      rw [hj] at hgo
      exact hend (hgo.trans (by rw [State.rmodeFrom, hp]; rfl)) hp1

end Sys2Proof
end

section
/-! Decoded words, and what a step runs. -/

namespace Sys2Proof.Machine

/-! ### Every instruction goes on -/

/-- Every instruction has a next state: no arm of the dispatch stops. -/
theorem exec_goes (i : Instr) (s : State) : ∃ t, exec i s = .next t := by
  cases i <;> exact ⟨_, rfl⟩

theorem outcomeMap_goes {o : Outcome} (f : State → State) (h : ∃ t, o = .next t) : ∃ t, outcomeMap f o = .next t := by
  obtain ⟨t, rfl⟩ := h
  exact ⟨f t, rfl⟩

theorem State.perform_goes (s was : State) (x : SlotWord) (n : Nat) : ∃ t, s.perform was x n = .next t := by
  unfold State.perform
  split
  · exact ⟨s, rfl⟩
  · exact outcomeMap_goes _ (exec_goes x.instr s)

theorem State.runIssue_goes (s : State) : ∃ t, s.runIssue = .next t := by
  unfold State.runIssue
  split
  · exact State.perform_goes _ _ _ _
  · exact ⟨_, rfl⟩
  · exact ⟨_, rfl⟩

/-- An event that is enabled has a next state. -/
theorem State.enabled_goes {s : State} {f : State → Outcome} (h : s.enabled f = true) : ∃ t, f s = .next t := by
  unfold State.enabled at h
  split at h
  · exact ⟨_, ‹_›⟩
  · exact absurd h Bool.false_ne_true

theorem State.nextEvent_enabled {s : State} {f : State → Outcome} (h : s.nextEvent = some f) : s.enabled f = true :=
  List.find?_some (p := s.enabled) h

theorem State.yieldTurn_goes (s : State) : ∃ t, s.yieldTurn = .next t := by
  unfold State.yieldTurn
  split
  · rename_i f h
    exact outcomeMap_goes _ (State.enabled_goes (State.nextEvent_enabled h))
  · exact State.runIssue_goes _

theorem State.auto_goes (s : State) : ∃ t, s.auto = .next t := by
  unfold State.auto
  split
  · exact s.runIssue_goes
  · split
    · split
      · exact s.yieldTurn_goes
      · exact s.runIssue_goes
    · exact s.yieldTurn_goes

/-! ### A word that issues -/

/-- A word that issues is run in the state made ready for it. -/
theorem State.runIssue_word {u t : State} {x : SlotWord} {n : Nat} {g : Group} (hi : u.issue = .word x n t)
    (hg : u.group = some g) :
    u.runIssue = outcomeMap (fun v => (v.afterWord x (u.groupDecoded g) n g t.here.lanes t.stepping).wrapUp) (exec x.instr t) := by
  unfold State.runIssue
  rw [hi]
  show t.perform u x n = _
  unfold State.perform
  rw [hg]
  rfl

end Sys2Proof.Machine

namespace Sys2Proof
open Sys2Proof.Machine

/-- Settles O48: the decoder evaluates on each word. -/
theorem decodedWords : Obligations.DecodedWords := by
  refine ⟨rfl, rfl, rfl, rfl, rfl, rfl, rfl, rfl, rfl, rfl, rfl, rfl, rfl, rfl, rfl, rfl, rfl, rfl, rfl, rfl, rfl, rfl, rfl, rfl,
    rfl, rfl, rfl, rfl, rfl, rfl, rfl⟩

/-- Settles O50: the word that issues is the one that the packet holds, and an event of the agenda happens. -/
theorem stepRunsTheWord : Obligations.StepRunsTheWord := by
  refine ⟨?_, ?_, ?_⟩
  · intro s u core part r g dec x rest hm ha hu h
    have hs : step s = u.runIssue := by
      simp only [step, hm, ha, Bool.false_eq_true, ↓reduceIte, hu]
    have hf : u.groupWords u.focus.1 g = u.packetAt u.focus.1 g.pc := by
      simp only [State.groupWords, h.fresh.1, List.isEmpty_nil, ↓reduceIte]
    have hd : u.groupDecoded g = dec := by
      simp only [State.groupDecoded, hf, h.decoded]
    have hw := State.runIssue_word (State.issue_atWord h) h.group
    rw [hd] at hw
    exact hs.trans hw
  · intro s t x n g hm hi hg
    exact (if_pos hm : step s = s.runIssue).trans (State.runIssue_word hi hg)
  · intro s i r hm ha hi
    simp only [step, hm, ha, hi, Bool.false_eq_true, ↓reduceIte, State.happen]

/-- Settles O51: no arm stops, and a step stops only at a word that the agenda names as an event. -/
theorem everyInstructionGoesOn : Obligations.EveryInstructionGoesOn := by
  refine ⟨exec_goes, fun s => ?_⟩
  cases hm : s.midChain with
  | true =>
    have hs : step s = s.runIssue := if_pos hm
    exact .inl (hs.symm ▸ s.runIssue_goes)
  | false =>
    have hs : step s = _ := if_neg (Bool.eq_false_iff.mp hm)
    rw [hs]
    split
    · split
      · exact .inl (outcomeMap_goes _ (exec_goes _ _))
      · exact .inr ⟨rfl, rfl, _, _, ‹_›, Bool.eq_false_iff.mpr ‹_›⟩
    · exact .inl (State.runIssue_goes _)
    · exact .inl (State.auto_goes _)

end Sys2Proof
end

section
/-! The machine after reset, exceptions, and the trap record's window (18_system 18.2, 18.3, 20_boundary 20.6). -/

namespace Sys2Proof.Machine

/-! ### Taking an exception -/

/-- Two states whose threads and set faults are the same. -/
def State.SameThreads (t s : State) : Prop := t.fab.threads = s.fab.threads ∧ t.fab.sets = s.fab.sets

theorem State.SameThreads.refl (s : State) : s.SameThreads s := ⟨rfl, rfl⟩

theorem State.SameThreads.trans {t u s : State} (h : t.SameThreads u) (h' : u.SameThreads s) : t.SameThreads s :=
  ⟨h.1.trans h'.1, h.2.trans h'.2⟩

theorem State.SameThreads.thread {t s : State} (h : t.SameThreads s) (k : Nat) : t.thread k = s.thread k := by
  rw [State.thread, h.1, State.thread]

theorem State.SameThreads.heldBySet {t s : State} (h : t.SameThreads s) (k : Nat) : t.heldBySet k = s.heldBySet k := by
  rw [State.heldBySet, h.2, State.heldBySet]

theorem State.sameThreads_foldl {α : Type} {f : State → α → State} (hf : ∀ s x, (f s x).SameThreads s) (l : List α) (s : State) :
    (l.foldl f s).SameThreads s := by
  induction l generalizing s with
  | nil => exact .refl s
  | cons x r ih => exact (ih (f s x)).trans (hf s x)

theorem State.setUreg_sameThreads (s : State) (y n : Nat) (v : Word) : (s.setUreg y n v).SameThreads s := by
  unfold State.setUreg
  split
  · exact .refl s
  · exact ⟨rfl, rfl⟩

theorem State.slotBack_sameThreads (s : State) (k : Nat) (v : VSlot) : (s.slotBack k v).SameThreads s := by
  unfold State.slotBack
  split
  · dsimp only
    split
    · exact ⟨rfl, rfl⟩
    · unfold State.performOwed
      cases v.wr <;> cases v.sbw <;> exact ⟨rfl, rfl⟩
  · exact .refl s

/-- The registers that a write-back writes are no part of a thread. -/
theorem State.writtenBack_sameThreads (s : State) (k : Nat) :
    ((s.thread k).us.foldl (fun s v => if v.wr then s.setUreg (yardOf k) v.reg v.val else s)
      ((s.thread k).vs.foldl (fun s v => s.slotBack k v) s)).SameThreads s := by
  refine (State.sameThreads_foldl (fun s v => ?_) _ _).trans (State.sameThreads_foldl (fun s v => s.slotBack_sameThreads k v) _ s)
  split
  · exact s.setUreg_sameThreads _ _ _
  · exact .refl s

/-- What a write-back leaves of its thread: its staged slots as read. -/
theorem State.thread_writeBack (s : State) (k : Nat) : (s.writeBack k).thread k =
    { s.thread k with vs := ((s.writeBack k).thread k).vs, us := ((s.writeBack k).thread k).us } := by
  simp only [State.writeBack, State.thread_modThread, ↓reduceIte, (s.writtenBack_sameThreads k).thread]

theorem State.sets_writeBack (s : State) (k : Nat) : (s.writeBack k).fab.sets = s.fab.sets :=
  (s.writtenBack_sameThreads k).2

/-- A thread whose region has ended. -/
theorem State.thread_endRegion (s : State) (k : Nat) : (s.endRegion k).thread k =
    { s.thread k with region := none, vs := [], us := [], lat := noLatches, held := none, kept := none } := by
  rw [State.endRegion, State.dropRegion, State.thread_modThread, if_pos rfl, State.thread_writeBack]

/-- A thread whose region has been suspended. -/
theorem State.thread_suspendRegion (s : State) (k : Nat) :
    (s.suspendRegion k).thread k = { s.thread k with vs := [], us := [] } := by
  rw [State.suspendRegion, State.thread_modThread, if_pos rfl, State.thread_writeBack]

/-- An eligible thread that is placed stays so, unless no entry is free or a set fault holds it. -/
theorem State.arrive_eligible {s : State} {k : Nat} (h : (s.thread k).st = .eligible) :
    ((s.arrive k).thread k).st = .eligible ∨ ((s.arrive k).thread k).st = .unindexed ∨ s.heldBySet k = true := by
  cases hh : s.heldBySet k with
  | true => exact .inr (.inr rfl)
  | false =>
    unfold State.arrive
    simp only [h, hh]
    split
    · simp
    · split <;> simp

/-- A stopped thread that is placed stays so. -/
theorem State.arrive_stopped {s : State} {k : Nat} (h : (s.thread k).st = .stopped) : ((s.arrive k).thread k).st = .stopped := by
  unfold State.arrive
  simp only [h]
  split
  · simp
  · split <;> simp

theorem State.hostWords_fab (s : State) (a : Nat) (ws : List Word) : (s.hostWords a ws).fab = s.fab :=
  foldl_unchanged State.fab (fun s (x : Word × Nat) => s.hostWord (a + 4 * x.2) x.1) (fun _ _ => rfl) _ s

/-- Forming an error record leaves the registers and threads. -/
theorem State.postRecord_fab (s : State) (typ port : Nat) (ctx : Option Nat) (addr : DWord) (detail : List Word) :
    (s.postRecord typ port ctx addr detail).fab = s.fab := by
  simp only [State.postRecord, apply_ite State.fab, State.send_fab, State.hostWords_fab, ite_self]

/-- A thread that takes an exception outside a handler, its record written and its region ended, at its trap vector. -/
def State.atVector (s : State) (k w : Nat) (pc : BitVec 16) (i : Trap) : State :=
  let s1 := { s with fresh := s.fresh + 4 }
  let s2 := s1.modThread k fun t =>
    { t with trec := { t.trec.fill pc w i t.latches s.fresh with intrap := true }, saved := t.region }
  (((s2.endRegion k).leaveGroup k).unplace k).modThread k fun t =>
    { t with
      pc := (s.yard (yardOf k)).bind.trapvec, wpos := 0, st := if t.st == .stopped then .stopped else .eligible,
      leaving := .no, released := none, alone := false, waited := none,
      step := if t.step == .armed then .due else t.step }

/-- A thread in its handler that takes another exception, stopped where it stands. -/
def State.atStop (s : State) (k w : Nat) (pc : BitVec 16) (i : Trap) : State :=
  (((s.suspendRegion k).leaveGroup k).unplace k).modThread k fun t =>
    { t with
      trec := { t.trec with ncause := BitVec.ofNat 8 i.cause, stopped := true }, st := .stopped, pc := pc,
      wpos := w, lat := noLatches, held := none, leaving := .no, released := none, given := none,
      stopGroup := some s.serialNo }

theorem State.trap_outside {s : State} {k : Nat} (h : (s.thread k).trec.intrap = false) (pc : BitVec 16) (w : Nat) (i : Trap) :
    s.trap k pc w i = (s.atVector k w pc i).arrive k :=
  if_neg (Bool.eq_false_iff.mp h)

theorem State.trap_inside {s : State} {k : Nat} (h : (s.thread k).trec.intrap = true) (pc : BitVec 16) (w : Nat) (i : Trap) :
    (s.trap k pc w i).thread k = ((s.atStop k w pc i).arrive k).thread k := by
  have ht : s.trap k pc w i = (((s.atStop k w pc i).arrive k).bumpSerial).postRecord 8 0 (some (s.ctxOf k)) 0 (threadDetail k ++
      [BitVec.ofNat 32 (s.thread k).trec.cause.toNat, BitVec.ofNat 32 i.cause]) := if_pos h
  rw [ht, State.thread, State.postRecord_fab]
  rfl

theorem State.thread_atVector (s : State) (k w : Nat) (pc : BitVec 16) (i : Trap) : (s.atVector k w pc i).thread k =
    { s.thread k with
      trec := { (s.thread k).trec.fill pc w i (s.thread k).latches s.fresh with intrap := true },
      saved := (s.thread k).region, region := none, vs := [], us := [], lat := noLatches, held := none, kept := none,
      pc := (s.yard (yardOf k)).bind.trapvec, wpos := 0,
      st := if (s.thread k).st == .stopped then .stopped else .eligible,
      leaving := .no, released := none, alone := false, waited := none,
      step := if (s.thread k).step == .armed then .due else (s.thread k).step } := by
  simp only [State.atVector, State.thread_modThread, ↓reduceIte, State.thread_unplace, State.thread_leaveGroup,
    State.thread_endRegion]
  rfl

theorem State.sets_atVector (s : State) (k w : Nat) (pc : BitVec 16) (i : Trap) : (s.atVector k w pc i).fab.sets = s.fab.sets := by
  have hmod (u : State) (f : Thread → Thread) : (u.modThread k f).fab.sets = u.fab.sets := rfl
  have hend (u : State) : (u.endRegion k).fab.sets = u.fab.sets := State.sets_writeBack u k
  have hgroup (u : State) : ((u.leaveGroup k).unplace k).fab.sets = u.fab.sets := rfl
  simp only [State.atVector, hmod, hgroup, hend]

theorem State.heldBySet_atVector (s : State) (k w : Nat) (pc : BitVec 16) (i : Trap) (j : Nat) :
    (s.atVector k w pc i).heldBySet j = s.heldBySet j := by
  rw [State.heldBySet, State.sets_atVector, State.heldBySet]

theorem State.thread_atStop (s : State) (k w : Nat) (pc : BitVec 16) (i : Trap) : (s.atStop k w pc i).thread k =
    { s.thread k with
      vs := [], us := [], trec := { (s.thread k).trec with ncause := BitVec.ofNat 8 i.cause, stopped := true }, st := .stopped,
      pc := pc, wpos := w, lat := noLatches, held := none, leaving := .no, released := none, given := none,
      stopGroup := some s.serialNo } := by
  simp only [State.atStop, State.thread_modThread, ↓reduceIte, State.thread_unplace, State.thread_leaveGroup,
    State.thread_suspendRegion]

end Sys2Proof.Machine

namespace Sys2Proof
open Sys2Proof.Machine

/-- Settles O53: the reset state lists nothing. -/
theorem resetState : Obligations.ResetState := by
  refine ⟨⟨?_, ?_, ?_⟩, rfl, fun _ => rfl, fun _ => ⟨rfl, rfl⟩, fun _ => rfl, fun _ => rfl, fun _ => rfl, fun _ => rfl,
    fun _ _ => rfl, fun _ => ?_, by decide, by decide, by decide⟩
  · intro p q h
    exact absurd h (by simp [State.reset, Fabric.init, Map.find?])
  · intro cl _ h
    exact absurd h (by simp [State.reset, Power.init])
  · intro l h
    exact absurd h (by simp [State.reset, Engines.init])
  · simp [State.isHc, State.reset, Mem.init]

/-- Settles O54: the record is written before the region ends and the thread is placed, and neither changes it. -/
theorem trapEntry : Obligations.TrapEntry := by
  refine ⟨fun s k w pc i hin hst => ?_, fun s k w pc i hin => ?_⟩
  · rw [State.trap_outside hin]
    have hs : ((s.atVector k w pc i).thread k).st = .eligible := by
      rw [State.thread_atVector, hst]
      rfl
    have hplaced := State.arrive_eligible hs
    rw [State.heldBySet_atVector] at hplaced
    rw [State.arrive_self, State.thread_atVector]
    exact ⟨rfl, rfl, rfl, rfl, rfl, rfl, rfl, rfl, rfl, rfl, rfl, rfl, rfl, rfl, rfl, rfl, rfl, hplaced⟩
  · have hs : ((s.atStop k w pc i).thread k).st = .stopped := by rw [State.thread_atStop]
    have hplaced := State.arrive_stopped hs
    rw [State.trap_inside hin, State.arrive_self, State.thread_atStop]
    exact ⟨hplaced, rfl, rfl, rfl⟩

end Sys2Proof
end

section
/-! Operands that trap, and the trap record's window (18_system 18.1, 18.2). -/

namespace Sys2Proof.Machine

/-! ### A lane that traps -/

/-- With no pending tag to read through, no operand is joined. -/
theorem State.joinCodes_untagged {s : State} {k : Nat} (h : (s.thread k).view.tags = []) (codes : List (BitVec 5)) :
    s.joinCodes k codes = s := by
  refine foldl_same _ _ _ fun c _ => ?_
  have hj (r : Nat) : s.joinReg k r = s := by simp [State.joinReg, h]
  unfold State.joinCode
  split
  · split
    · rfl
    · exact hj _
  · rfl

/-- The end of a word whose one active lane traps: the others' latches shift. -/
theorem State.finish_trap (t : State) (h : Here) (kind : SetKind) (dst : Dst) (shift : Bool) (k : Nat) (i : Trap) :
    t.finish h kind dst shift [(k, .trap i)] =
      (t.updLanes h.lanes fun j x => if j = k then x else x.idle dst shift).raise h kind [(k, i)] := by
  have happly : (fun (j : Nat) (x : Thread) => x.applyOut j dst shift [(k, LaneOut.trap i)] (outOf [(k, LaneOut.trap i)] j)) =
      fun j x => if j = k then x else x.idle dst shift := by
    funext j x
    by_cases hj : j = k
    · simp [outOf, hj, Thread.applyOut]
    · cases dst <;> simp [outOf, hj, Ne.symm hj, Thread.applyOut, yardResult, octetByte, Thread.putSb]
  simp only [State.finish, happly, List.foldl_cons, List.foldl_nil, State.tagOut, State.parkOut, trapsOf, List.filterMap_cons,
    List.filterMap_nil]

/-- A word whose one active lane cannot read an operand, or has no destination staged, traps there and does nothing. -/
theorem State.laneWord_unreadable {s : State} {i : Instr} {sc : BitVec 2} {g : BitVec 3} {codes : List (BitVec 5)} {lit : Word}
    {dst : Dst} {shift : Bool} {f : State → Nat → List Word → LaneOut} {k : Nat} (hk : s.Sole g k)
    (ht : (s.thread k).view.tags = []) (hbad : s.readCodes k lit codes = .bad ∨ (s.thread k).dstOk dst = false) :
    s.laneWord i sc g codes lit dst shift f =
      (s.updLanes s.here.lanes fun j t => if j = k then t else t.idle dst shift).raise s.here
        (setKind (s.groupVersion s.here.lanes) sc) [(k, badOperand i)] := by
  have hin : s.laneIn i codes lit dst k = .inr (.trap (badOperand i)) := by
    unfold State.laneIn
    obtain h | h := hbad
    · rw [h]
    · cases s.readCodes k lit codes <;> simp [h]
  have hact : s.active s.here g = [k] := hk
  simp only [State.laneWord, State.groupWord, hact, List.foldl_cons, List.foldl_nil, State.joinCodes_untagged ht, List.map_cons,
    List.map_nil, hin, readyLanes, stoppedLanes, List.filterMap_cons, List.filterMap_nil, List.any_nil, Bool.false_eq_true,
    ↓reduceIte, List.append_nil, State.finish_trap]

/-- A word whose one active lane reads its operands and traps. -/
theorem State.groupWord_trap {s t : State} {i : Instr} {sc : BitVec 2} {g : BitVec 3} {codes : List (BitVec 5)} {lit : Word}
    {dst : Dst} {f : State → List (Nat × List Word) → State × List (Nat × LaneOut)} {rd : Nat → List Word} {k : Nat} {tr : Trap}
    (h : s.Ready g codes lit dst rd)
    (hf : f s ((s.active s.here g).map fun k => (k, rd k)) = (t, [(k, .trap tr)])) :
    s.groupWord i sc g codes lit dst false f = t.raise s.here (setKind (s.groupVersion s.here.lanes) sc) [(k, tr)] := by
  have hsame : (t.updLanes s.here.lanes fun j x => if j = k then x else x.idle dst false) = t :=
    State.updLanes_same _ _ _ fun j x => by simp [Thread.idle]
  rw [State.groupWord_ready h.1 fun k hk => (h.2 k hk).1]
  simp only [hf, List.any_cons, List.any_nil, Bool.or_false]
  rw [if_neg (by simp), State.finish_trap, hsame]

/-- A misaligned global address fails its first check. -/
theorem State.locate_misaligned {s : State} {k : Nat} {a : DWord} {size : Nat} (kind : Nat) (hg : isGlobal a = true)
    (h : a.toNat % size ≠ 0) : s.locate k a size kind = (s, .fail (accessTrap 0x08 a 0)) := by
  rw [State.locate, if_pos hg, if_pos (by simpa using h)]

/-- A trap other than of poison is all that a memory word leaves. -/
theorem State.memDone_trap {s : State} {k : Nat} {i : Trap} (h : i.cause ≠ 0x0D) :
    State.memDone (s, [(k, .trap i)]) = (s, [(k, .trap i)]) := by
  simp [State.memDone, State.reportPoison, State.reportParks, parkOf, h]

/-! ### The trap record's window -/

/-- Where a record's word stands in the window of its core. -/
theorem recordOffset {slot lane i : Nat} (hs : slot < 128) (hl : lane < 64) (hi : i < 16) :
    let off := 0x500000 + 4096 * slot + 64 * lane + 4 * i
    0x500000 ≤ off ∧ off < 0x580000 ∧ (off - 0x500000) / 4096 = slot ∧ off % 4096 / 64 = lane ∧ off / 4 % 16 = i := by
  dsimp only
  omega

/-- Of a record a store changes the RW fields alone. -/
theorem TrapRec.setWord_kept (r : TrapRec) (i : Nat) (v : Word) :
    (r.setWord i v).intrap = r.intrap ∧ (r.setWord i v).stopped = r.stopped ∧ (r.setWord i v).origin = r.origin ∧
      (r.setWord i v).cause = r.cause ∧ (r.setWord i v).ncause = r.ncause ∧ (r.setWord i v).info0 = r.info0 ∧
      (r.setWord i v).info1 = r.info1 ∧ (r.setWord i v).info2 = r.info2 := by
  unfold TrapRec.setWord
  split <;> exact ⟨rfl, rfl, rfl, rfl, rfl, rfl, rfl, rfl⟩

/-- A saved latch reads back what was stored. -/
theorem TrapRec.word_setWord {r : TrapRec} {i : Nat} (v : Word) (h2 : 2 ≤ i) (h6 : i < 6) (hb : r.b.length = 4) :
    (r.setWord i v).word i = v := by
  obtain rfl | rfl | rfl | rfl : i = 2 ∨ i = 3 ∨ i = 4 ∨ i = 5 := by omega
  all_goals simp [TrapRec.setWord, TrapRec.word, val, hb]

end Sys2Proof.Machine

namespace Sys2Proof
open Sys2Proof.Machine

/-- Settles O55: the lane leaves the word while it reads its operands, or at the first check of its address. -/
theorem operandTraps : Obligations.OperandTraps := by
  refine ⟨fun s o k hk ht hbad => congrArg _ (State.laneWord_unreadable hk ht hbad), ?_⟩
  intro s h o k ws hsz hk _ hr hg hmis
  have hact : s.active s.here o.g = [k] := hk
  have hsize : (sizeBytes o.sz == 64) = false := by
    have : o.sz = 0 ∨ o.sz = 1 ∨ o.sz = 2 ∨ o.sz = 3 := by
      have := o.sz.isLt
      bv_omega
    obtain h | h | h | h := this
    · rw [h]; rfl
    · rw [h]; rfl
    · rw [h]; rfl
    · exact absurd h hsz
  refine congrArg _ ((if_neg (Bool.eq_false_iff.mp hsize)).trans (State.groupWord_trap (t := s) (rd := fun _ => ws) hr ?_))
  rw [hact]
  show State.memDone (s.eachLane [(k, ws)] _) = _
  rw [State.eachLane_single, State.loadLane, State.locate_misaligned 0 hg hmis]
  exact State.memDone_trap (show (0x08 : Nat) ≠ 0x0D by decide)

/-- Settles O56: the record is a window of its thread's own. -/
theorem trapRecordWindow : Obligations.TrapRecordWindow := by
  intro s c cl co slot lane i hcl hco hs hl hi
  obtain ⟨hlo, hhi, hslot, hlane, hw⟩ := recordOffset hs hl hi
  have hin : (decide (0x500000 ≤ 0x500000 + 4096 * slot + 64 * lane + 4 * i) &&
      decide (0x500000 + 4096 * slot + 64 * lane + 4 * i < 0x580000)) = true := by
    rw [decide_eq_true hlo, decide_eq_true hhi]
    rfl
  refine ⟨?_, fun v => ?_, fun v => (TrapRec.setWord_kept _ i v), fun v h2 h6 hb => TrapRec.word_setWord v h2 h6 hb⟩
  · simp only [State.cwRead]
    rw [if_pos hin, hslot, hlane, hw, Nat.mul_comm cl 4]
  · simp only [State.cwWrite]
    rw [if_pos hin, hslot, hlane, hw, Nat.mul_comm cl 4]
    have hv : DWord.lo (v.zeroExtend 64) = v := by
      rw [DWord.lo]
      exact BitVec.eq_of_getLsbD_eq fun j hj => by simp [hj]; omega
    rw [hv]
    rfl

end Sys2Proof
end

section
/-! Windows, invalidation, replay, probes and page ownership (11_coherence 11.4, 12_translation 12.2 to 12.6). -/

namespace Sys2Proof.Machine

/-! ### Words of one yard -/

/-- What every turn keeps, all of them keep. -/
theorem Turns.keeps {α : Type} (φ : State → α) {R : State → Nat → State → Prop} (hR : ∀ u k v, R u k v → φ v = φ u) {ks : List Nat}
    {s t : State} (h : Turns R ks s t) : φ t = φ s := by
  induction ks generalizing s with
  | nil => exact congrArg φ h
  | cons k r ih =>
    obtain ⟨u, hu, hr⟩ := h
    exact (ih hr).trans (hR s k u hu)

/-- A word that the lanes of one yard do together and that gives each one value. -/
theorem State.yardWord_gives {s t : State} {i : Instr} {sc : BitVec 2} {g : BitVec 3} {codes : List (BitVec 5)} {lit : Word}
    {n : Nat} {d : BitVec 5} {ws : List Word} {y : Nat} {w : Word}
    {f : State → Nat → List (Nat × List Word) → State × List (Nat × LaneOut)} (hy : s.InYard g y)
    (hr : s.Ready g codes lit (.vec n d) fun _ => ws)
    (hf : f s y ((s.active s.here g).map fun k => (k, ws)) = (t, allDone ((s.active s.here g).map fun k => (k, ws)) [w]))
    (ht : ∀ k ∈ s.active s.here g, t.Kept s k) :
    (s.groupWord i sc g codes lit (.vec n d) false fun s ins => State.memDone (s.eachYard ins (fun ws => ws) f)) =
      t.deliver s g (.vec n d) false (one fun _ => w) noFlags := by
  refine State.groupWord_gives hr (by simp) (one fun _ => w) noFlags ?_ ht
  rw [State.eachYard_const _ _ _ hy.1 hy.2, hf, allDone_map, State.memDone_all]
  rfl

/-- A word that the lanes of one yard do together and that gives them nothing. -/
theorem State.yardWord_none {s t : State} {i : Instr} {sc : BitVec 2} {g : BitVec 3} {codes : List (BitVec 5)} {lit : Word}
    {ws : List Word} {y : Nat} {f : State → Nat → List (Nat × List Word) → State × List (Nat × LaneOut)} (hy : s.InYard g y)
    (hr : s.Reads g codes lit fun _ => ws)
    (hf : f s y ((s.active s.here g).map fun k => (k, ws)) = (t, allDone ((s.active s.here g).map fun k => (k, ws)) [])) :
    (s.groupWord i sc g codes lit .none false fun s ins => s.eachYard ins (fun ws => ws) f) = t :=
  State.yard_none (fun ws => ws) f hy hr fun k0 r hact => by rw [hact] at hf; exact hf

section
variable {s t : State} {i : Instr} {sc : BitVec 2} {g : BitVec 3} {codes more : List (BitVec 5)} {lit b : Word} {y : Nat}
  {f : State → Nat → List (Nat × List Word) → State × List (Nat × LaneOut)} {on : Word → Bool}

/-- A word of one yard whose control word leaves an operand unread. -/
theorem State.yardWord_unread (hy : s.InYard g y) (hr : s.Reads g codes lit fun _ => [b]) (hon : on b = false)
    (hf : f s y ((s.active s.here g).map fun k => (k, [b])) = (t, allDone ((s.active s.here g).map fun k => (k, [b])) [])) :
    (s.groupWord i sc g codes lit .none false fun s ins =>
      let (s1, based, stopped) := s.moreIn i more lit (ins.filter fun p => on (val p.2 0))
      let r := s1.eachYard (ins.filter (fun p => !on (val p.2 0)) ++ based) (fun ws => ws) f
      (r.1, stopped ++ r.2)) = t := by
  refine State.groupWord_none hr (outs := (s.active s.here g).map fun k => (k, doneWith [])) ?_ fun p hp => ?_
  · have hno : ((s.active s.here g).map fun k => (k, [b])).filter (fun p => on (val p.2 0)) = [] := by
      simp [val, hon]
    have hall : ((s.active s.here g).map fun k => (k, [b])).filter (fun p => !on (val p.2 0)) =
        (s.active s.here g).map fun k => (k, [b]) :=
      List.filter_eq_self.mpr fun p hp => by
        obtain ⟨k, -, rfl⟩ := List.mem_map.mp hp
        simp [val, hon]
    simp only [hno, hall, State.moreIn_nil, List.append_nil, List.nil_append, State.eachYard_const _ _ _ hy.1 hy.2, hf, allDone_map]
  · obtain ⟨k, -, rfl⟩ := List.mem_map.mp hp
    exact ⟨_, rfl⟩

/-- A word of one yard whose control word has it read an operand more. -/
theorem State.yardWord_read {ws : List Word} (hy : s.InYard g y) (hr : s.Reads g codes lit fun _ => [b]) (hon : on b = true)
    (hm : s.Reads g more lit fun _ => ws)
    (hf : f s y ((s.active s.here g).map fun k => (k, ws ++ [b])) =
      (t, allDone ((s.active s.here g).map fun k => (k, ws ++ [b])) [])) :
    (s.groupWord i sc g codes lit .none false fun s ins =>
      let (s1, based, stopped) := s.moreIn i more lit (ins.filter fun p => on (val p.2 0))
      let r := s1.eachYard (ins.filter (fun p => !on (val p.2 0)) ++ based) (fun ws => ws) f
      (r.1, stopped ++ r.2)) = t := by
  refine State.groupWord_none hr (outs := (s.active s.here g).map fun k => (k, doneWith [])) ?_ fun p hp => ?_
  · have hno : ((s.active s.here g).map fun k => (k, [b])).filter (fun p => !on (val p.2 0)) = [] := by
      simp [val, hon]
    have hall : ((s.active s.here g).map fun k => (k, [b])).filter (fun p => on (val p.2 0)) =
        (s.active s.here g).map fun k => (k, [b]) :=
      List.filter_eq_self.mpr fun p hp => by
        obtain ⟨k, -, rfl⟩ := List.mem_map.mp hp
        simp [val, hon]
    simp only [hno, hall, State.moreIn_ready hm, List.nil_append, State.eachYard_const _ _ _ hy.1 hy.2, hf, allDone_map]
  · obtain ⟨k, -, rfl⟩ := List.mem_map.mp hp
    exact ⟨_, rfl⟩

end

/-! ### NCWIN, TLBINV -/

/-- The window register that an NCWIN writes. -/
abbrev State.putWindow (s : State) (c n : Nat) (x : Win) : State :=
  s.modCtx c fun v => { v with windows := Map.set v.windows (bitsOf n 3 0) x }

theorem State.ncwin_off {s : State} {i : Instr} {y : Nat} {ks : List Nat} {b : Word} (hn : ks ≠ []) (h0 : bitsOf b.toNat 7 5 = 0)
    (hen : bitOf b.toNat 4 = false) : s.ncwin i y (ks.map fun k => (k, [b])) =
      (s.putWindow (s.yardCtx y) b.toNat { en := false, base := 0, count := bitsOf b.toNat 31 8 },
        allDone (ks.map fun k => (k, [b])) []) := by
  have hv : val [b] ([b].length - 1) = b := rfl
  simp only [State.ncwin, lead_const _ hn, hv, h0, hen, bne_self_eq_false, Bool.false_and, Bool.false_eq_true, ↓reduceIte]

theorem State.ncwin_on {s : State} {i : Instr} {y : Nat} {ks : List Nat} {b lo hi : Word} (hn : ks ≠ [])
    (h0 : bitsOf b.toNat 7 5 = 0)
    (hen : bitOf b.toNat 4 = true) (hg : isGlobal (dw lo hi) = true) (ha : (dw lo hi).toNat % 65536 = 0)
    (hc : bitsOf b.toNat 31 8 ≠ 0) : s.ncwin i y (ks.map fun k => (k, [lo, hi] ++ [b])) =
      (s.putWindow (s.yardCtx y) b.toNat { en := true, base := dw lo hi, count := bitsOf b.toNat 31 8 },
        allDone (ks.map fun k => (k, [lo, hi] ++ [b])) []) := by
  have hv : val ([lo, hi] ++ [b]) (([lo, hi] ++ [b]).length - 1) = b := rfl
  have ha2 : val2 ([lo, hi] ++ [b]) 0 = dw lo hi := rfl
  simp only [State.ncwin, lead_const _ hn, hv, ha2, h0, hen, hg, ha, beq_eq_false_iff_ne.mpr hc, bne_self_eq_false, Bool.true_and,
    Bool.not_true, Bool.false_eq_true, ↓reduceIte]

theorem State.tlbinv_all {s t : State} {i : Instr} {y : Nat} {ks : List Nat} (hn : ks ≠ []) (hd : s.drainAll ks = (t, true)) :
    s.tlbinv i y (ks.map fun k => (k, [1])) =
      (t.tlbDrop fun e => e.ctx == s.yardCtx y, allDone (ks.map fun k => (k, [1])) []) := by
  have hv : val [(1 : Word)] ([(1 : Word)].length - 1) = 1 := rfl
  have h1 : (1 : Word).toNat = 1 := rfl
  simp only [State.tlbinv, lead_const _ hn, hv, h1, List.map_map, Function.comp_def, List.map_id', hd, Bool.not_true,
    Bool.false_eq_true, Nat.lt_irrefl, beq_self_eq_true, ↓reduceIte]

theorem State.tlbinv_page {s t : State} {i : Instr} {y : Nat} {ks : List Nat} {lo hi : Word} (hn : ks ≠ [])
    (hd : s.drainAll ks = (t, true)) (hg : isGlobal (dw lo hi) = true) :
    s.tlbinv i y (ks.map fun k => (k, [lo, hi] ++ [0])) =
      (t.tlbDrop fun e => e.covers (s.yardCtx y) (vpageOf (dw lo hi)), allDone (ks.map fun k => (k, [lo, hi] ++ [0])) []) := by
  have hv : val ([lo, hi] ++ [0]) (([lo, hi] ++ [0]).length - 1) = 0 := rfl
  have ha2 : val2 ([lo, hi] ++ [0]) 0 = dw lo hi := rfl
  have h0 : (0 : Word).toNat = 0 := rfl
  simp only [State.tlbinv, lead_const _ hn, hv, ha2, h0, hg, List.map_map, Function.comp_def, List.map_id', hd, Bool.not_true,
    Bool.false_eq_true, Nat.not_lt_zero, ↓reduceIte, show (0 == 1) = false from rfl]

/-! ### TLBPROBE -/

/-- The status word of a probe whose walk met a leaf. -/
def probeLeaf (r : Nat) (e : TlbEntry) (hit : Bool) : Word :=
  BitVec.ofNat 32 (r * 2 ^ 30 + e.mode * 2 ^ 28 + e.size * 2 ^ 25 + b2n e.r * 2 ^ 24 + b2n e.w * 2 ^ 23 + b2n hit * 2 ^ 22)

/-- A probe of a global address gives its lane a word by what the translation comes to. -/
abbrev State.ProbeTurn (rd : Nat → List Word) (r : Nat → Word) (u : State) (k : Nat) (v : State) : Prop :=
  (val (rd k) 2).toNat ≤ 2 ∧ isGlobal (val2 (rd k) 0) = true ∧ ∃ p x,
    u.translate (coreOf k) (u.ctxOf k) (vpageOf (val2 (rd k) 0)) (val (rd k) 2).toNat = (p, x) ∧
    match x with
    | .ok e hit => v = p ∧ r k = probeLeaf 0 e hit
    | .refuse reason e => v = u ∧
        r k = if reason = 0 ∨ reason = 4 then 0x40000000 else e.elim 0x80000000 fun e => probeLeaf 2 e false
    | .cause _ e => v = u ∧ r k = e.elim 0xC0000000 fun e => probeLeaf 3 e false
    | .wait => False

theorem probeWord_refuse (reason : Nat) (e : Option TlbEntry) : probeWord (.refuse reason e) =
    if reason = 0 ∨ reason = 4 then 0x40000000 else e.elim 0x80000000 fun e => probeLeaf 2 e false := by
  have hb : (reason == 0 || reason == 4) = true ↔ reason = 0 ∨ reason = 4 := by simp
  by_cases h : reason = 0 ∨ reason = 4
  · rw [if_pos h]
    exact if_pos (hb.mpr h)
  · rw [if_neg h]
    refine (if_neg (mt hb.mp h)).trans ?_
    cases e <;> rfl

theorem probeWord_cause (n : Nat) (e : Option TlbEntry) :
    probeWord (.cause n e) = e.elim 0xC0000000 fun e => probeLeaf 3 e false := by
  cases e <;> rfl

theorem State.probeLane_of {u v : State} {i : Instr} {k : Nat} {rd : Nat → List Word} {r : Nat → Word}
    (h : State.ProbeTurn rd r u k v) : u.probeLane i k (rd k) = (v, doneWith [r k]) := by
  obtain ⟨h2, hg, p, x, hx, hv⟩ := h
  have h2' : ¬ 2 < (val (rd k) 2).toNat := Nat.not_lt.mpr h2
  simp only [State.probeLane, h2', hg, Bool.not_true, Bool.false_eq_true, ↓reduceIte, hx]
  cases x with
  | ok e hit =>
    obtain ⟨hv, hr⟩ := hv
    rw [hv, hr]
    rfl
  | refuse reason e =>
    obtain ⟨hv, hr⟩ := hv
    rw [hv, hr]
    exact congrArg (fun w => (u, doneWith [w])) (probeWord_refuse reason e)
  | cause n e =>
    obtain ⟨hv, hr⟩ := hv
    rw [hv, hr]
    exact congrArg (fun w => (u, doneWith [w])) (probeWord_cause n e)
  | wait => exact hv.elim

theorem State.ProbeTurn.fab {rd : Nat → List Word} {r : Nat → Word} {u v : State} {k : Nat} (h : State.ProbeTurn rd r u k v) :
    v.fab = u.fab := by
  obtain ⟨-, -, p, x, hx, hv⟩ := h
  cases x with
  | ok e hit =>
    have ht := State.translate_fab u (coreOf k) (u.ctxOf k) (vpageOf (val2 (rd k) 0)) (val (rd k) 2).toNat
    rw [hx] at ht
    rw [hv.1, ht]
  | refuse reason e => rw [hv.1]
  | cause n e => rw [hv.1]
  | wait => exact hv.elim

/-! ### POTSET -/

@[simp] theorem State.tlbDrop_fab (s : State) (f : TlbEntry → Bool) : (s.tlbDrop f).fab = s.fab := rfl
@[simp] theorem State.setPot_fab (s : State) (pp : Nat) (e : Pot) : (s.setPot pp e).fab = s.fab := rfl
@[simp] theorem State.modUsed_fab (s : State) (w kind : Nat) (f : DWord → DWord) : (s.modUsed w kind f).fab = s.fab := rfl

theorem State.writeZeros_fab (s : State) (pp : Nat) (is : List Nat) :
    (is.foldl (fun s i => s.homeWrite (pp * 4096 + 4 * i) 0) s).fab = s.fab :=
  foldl_fab _ (fun s _ => State.homeWrite_fab s _ _) _ s

@[simp] theorem State.zeroPage_fab (s : State) (pp : Nat) : (s.zeroPage pp).fab = s.fab := by
  unfold State.zeroPage
  generalize List.range 1024 = is
  exact (State.setMem_fab _ _).trans ((State.writeZeros_fab _ pp is).trans (State.setMem_fab _ _))

@[simp] theorem State.pageReady_fab (s : State) (pp : Nat) (nc : Bool) : (s.pageReady pp nc).1.fab = s.fab := by
  unfold State.pageReady
  generalize List.range 64 = is
  have go : ∀ acc : State × Bool, (is.foldl (fun acc (i : Nat) =>
      let (s1, ok) := acc.1.dirAccess (pp * 4096 + 64 * i) true nc
      (s1, acc.2 && ok)) acc).1.fab = acc.1.fab := by
    induction is with
    | nil => exact fun _ => rfl
    | cons _ r ih => exact fun acc => (ih _).trans (State.dirAccess_fab acc.1 _ true nc)
  exact go (s, true)

@[simp] theorem State.releasePage_fab (s : State) (pp : Nat) : (s.releasePage pp).fab = s.fab := by
  have h : (((s.tlbDrop fun x => decide (x.ppn ≤ pp) && decide (pp < x.ppn + sizePages x.size)).zeroPage pp).setPot pp
      { s.potAt pp with world := 0, bound := false }).fab = s.fab := by
    rw [State.setPot_fab, State.zeroPage_fab, State.tlbDrop_fab]
  cases hw : (s.potAt pp).world == 0 with
  | true =>
    have hr : s.releasePage pp = _ := if_pos hw
    rw [hr, h]
  | false =>
    have hr : s.releasePage pp = _ := if_neg (Bool.eq_false_iff.mp hw)
    rw [hr, State.modUsed_fab, h]

section
variable {s t u v : State} {i : Instr} {ks : List Nat} {ws : List Word} {pa : Nat} {nc : Bool}

/-- A POTSET whose page is translated and whose stores are registered acts on the page. -/
theorem State.potset_at (hn : ks ≠ []) (hb : (val ws 2).toNat ≤ 1) (hg : isGlobal (val2 ws 0) = true)
    (hr : s.reach (some (coreOf (ks.headD 0))) (s.ctxOf (ks.headD 0)) (val2 ws 0) 1 = (t, .at pa nc))
    (hd : t.drainAll ks = (u, true)) :
    s.potset i (ks.map fun k => (k, ws)) =
      if (t.potAt (pa / 4096)).sys || !u.isDev pa then (u, allDone (ks.map fun k => (k, ws)) [coStatus 2 1 0])
      else
        let (s3, go) := u.pageReady (pa / 4096) nc
        if !go then (s3, ks.map fun k => (k, .stall))
        else if (val ws 2).toNat == 1 then
          ((s3.releasePage (pa / 4096)).send (.report 2 [pa / 4096]), allDone (ks.map fun k => (k, ws)) [coStatus 0 0 1])
        else
          let s4 := (s3.tlbDrop fun x => decide (x.ppn ≤ pa / 4096) && decide (pa / 4096 < x.ppn + sizePages x.size)).zeroPage
            (pa / 4096)
          (s4.setPot (pa / 4096) { t.potAt (pa / 4096) with bound := false }, allDone (ks.map fun k => (k, ws))
            [coStatus 0 0 1]) := by
  have hb' : ¬ 1 < (val ws 2).toNat := Nat.not_lt.mpr hb
  cases ks with
  | nil => exact absurd rfl hn
  | cons k0 r =>
    have hr' : s.reach (some (coreOf k0)) (s.ctxOf k0) (val2 ws 0) 1 = (t, .at pa nc) := hr
    simp only [State.potset, List.map_cons, hb', hg, Bool.not_true, Bool.false_eq_true, ↓reduceIte, hr', List.map_map,
      Function.comp_def, List.map_id', hd]

/-- On a page that no other owns POTSET answers 1. -/
theorem State.potset_acts (hn : ks ≠ []) (hb : (val ws 2).toNat ≤ 1) (hg : isGlobal (val2 ws 0) = true)
    (hr : s.reach (some (coreOf (ks.headD 0))) (s.ctxOf (ks.headD 0)) (val2 ws 0) 1 = (t, .at pa nc))
    (hd : t.drainAll ks = (u, true)) (hsys : (t.potAt (pa / 4096)).sys = false) (hdev : u.isDev pa = true)
    (hv : u.pageReady (pa / 4096) nc = (v, true)) :
    s.potset i (ks.map fun k => (k, ws)) =
      (if (val ws 2).toNat == 1 then (v.releasePage (pa / 4096)).send (.report 2 [pa / 4096])
       else ((v.tlbDrop fun x => decide (x.ppn ≤ pa / 4096) && decide (pa / 4096 < x.ppn + sizePages x.size)).zeroPage
          (pa / 4096)).setPot (pa / 4096) { t.potAt (pa / 4096) with bound := false },
        allDone (ks.map fun k => (k, ws)) [1]) := by
  have hyes : ((t.potAt (pa / 4096)).sys || !u.isDev pa) = false := by rw [hsys, hdev]; rfl
  have hone : coStatus 0 0 1 = 1 := by decide
  rw [State.potset_at hn hb hg hr hd, hyes, hv, hone]
  simp only [Bool.not_true, Bool.false_eq_true, ↓reduceIte]
  split <;> rfl

end

end Sys2Proof.Machine

namespace Sys2Proof
open Sys2Proof.Machine

/-- Settles O22: each word acts once for its yard, a probe once for each lane. -/
theorem translationWords : Obligations.TranslationWords := by
  refine ⟨⟨?_, ?_⟩, ?_, ?_⟩
  · intro s o y b hy hr n put
    refine ⟨fun h0 hen => ?_, fun lo hi h0 hen hm hg ha hc => ?_, fun t hd => ⟨?_, ?_⟩⟩
    · exact congrArg _ (State.yardWord_unread (on := ncwinOn) hy hr hen (State.ncwin_off hy.1 h0 hen))
    · exact congrArg _ (State.yardWord_read (on := ncwinOn) hy hr hen hm (State.ncwin_on hy.1 h0 hen hg ha hc))
    · rintro rfl
      exact congrArg _ (State.yardWord_unread (on := tlbinvPaged) hy hr rfl (State.tlbinv_all hy.1 hd))
    · rintro lo hi rfl hm hg
      exact congrArg _ (State.yardWord_read (on := tlbinvPaged) hy hr rfl hm (State.tlbinv_page hy.1 hd hg))
  · intro s o y b hy hr
    have hl : lead ((s.active s.here o.g).map fun k => (k, [b])) = [b] := lead_const _ hy.1
    refine ⟨?_, ?_⟩
    · rintro rfl
      refine congrArg _ (State.yardWord_none hy hr ?_)
      rw [hl]
      rfl
    · rintro rfl
      refine congrArg _ (State.yardWord_none hy hr ?_)
      rw [hl]
      rfl
  · intro s t o rd r hr leaf ht
    have hfab : t.fab = s.fab := Turns.keeps State.fab (fun u k v h => State.ProbeTurn.fab (rd := rd) (r := r) h) ht
    refine congrArg _ (State.groupWord_gives hr (by simp) (one r) noFlags ?_ fun k hk => State.kept_fab hfab hk)
    exact State.eachLane_turns (fun k => doneWith [r k]) ht fun u v k _ h => State.probeLane_of h
  · intro s t u o y ws pa nc hy hr a pp hg hreach hd
    have hat (hb : (val ws 2).toNat ≤ 1) := State.potset_at (i := .potset o) hy.1 hb hg hreach hd
    have hu : u.fab = s.fab := by
      have h1 := State.reach_fab s (some (coreOf ((s.active s.here o.g).headD 0))) (s.ctxOf ((s.active s.here o.g).headD 0)) a 1
      have h2 := State.drainAll_fab t (s.active s.here o.g)
      rw [hreach] at h1
      rw [hd] at h2
      exact h2.trans h1
    refine ⟨fun hno hb => ?_, fun hsys hdev v hv => ?_⟩
    · have hno' : ((t.potAt pp).sys || !u.isDev pa) = true := by
        obtain h | h := hno <;> simp [h]
      have h := (hat hb).trans (if_pos hno')
      exact congrArg _ (State.yardWord_gives hy hr h fun k hk => State.kept_fab hu hk)
    · have hpp : pa / 4096 = pp := rfl
      have hvf : v.fab = s.fab := by
        have h := State.pageReady_fab u pp nc
        rw [hv] at h
        exact h.trans hu
      refine ⟨fun hb => ?_, fun hb => ?_⟩
      · have hb1 : (val ws 2).toNat = 1 := by rw [hb]; rfl
        have h := State.potset_acts (i := .potset o) hy.1 (Nat.le_of_eq hb1) hg hreach hd hsys hdev hv
        rw [hb1, if_pos (by decide), hpp] at h
        refine congrArg Host.Outcome.next (State.yardWord_gives hy hr h fun k hk => State.kept_fab ?_ hk)
        rw [State.send_fab, State.releasePage_fab, hvf]
      · have hb0 : (val ws 2).toNat = 0 := by rw [hb]; rfl
        have h := State.potset_acts (i := .potset o) hy.1 (hb0 ▸ Nat.zero_le 1) hg hreach hd hsys hdev hv
        rw [hb0, if_neg (by decide), hpp] at h
        refine congrArg Host.Outcome.next (State.yardWord_gives hy hr h fun k hk => State.kept_fab ?_ hk)
        rw [State.setPot_fab, State.zeroPage_fab, State.tlbDrop_fab, hvf]

end Sys2Proof
end

section
/-! Copies, segment fetches, queues and tasks (04_control 4.5, 13_async). -/

namespace Sys2Proof.Machine

/-! ### COPY, SEGFETCH -/

/-- A lane that takes a handle is all that a memory word leaves. -/
theorem State.memDone_handed (s : State) (l : List (Nat × List Word)) (vals : List Word) (kind slot : Nat) :
    State.memDone (s, handed l vals kind slot) = (s, handed l vals kind slot) :=
  State.memDone_done fun p hp => by
    obtain ⟨q, -, rfl⟩ := List.mem_map.mp hp
    exact ⟨_, rfl⟩

section
variable {s t u : State} {k slot : Nat} {p : Place} {ops ws : List Word}

/-- The copy that a COPY's packet describes, with its future's entry. -/
abbrev State.copyAt (u : State) (k slot : Nat) (ws : List Word) : Copy :=
  copyOf ws u.serialNo (clusterOf (coreOf k)) (u.ctxOf k) (coreOf k) (u.thread k).acq (some (coreOf k, slot))

/-- A COPY whose packet is read takes a future and starts, ends or waits as its checks say. -/
theorem State.copyIssue_packet (hg : isGlobal (eaOf ops 1) = true ∨ spaceOf (eaOf ops 1) = 1)
    (hl : (s.locate k (eaOf ops 1) 64 0).2 = .at p) (hd : s.drain k = (t, true)) (hp : t.packetWords k (eaOf ops 1) = (u, .inl ws))
    (hf : u.freeSlot (coreOf k) = .inl slot) :
    s.copyIssue [(k, ops)] =
      let x := u.copyAt k slot ws
      let v := u.newFuture (coreOf k) slot 2 1 none
      match v.copyRefused x ws with
      | some st => (v.copyFails x st, handed [(k, ops)] [] 2 slot)
      | none =>
        if !v.rangesFree x || 64 ≤ v.inflight (clusterOf (coreOf k)) then (u, allOut [(k, ops)] .stall)
        else (v.startCopy { x with rm := (v.thread k).rm.toNat }, handed [(k, ops)] [] 2 slot) := by
  have hspace : (!isGlobal (eaOf ops 1) && spaceOf (eaOf ops 1) != 1) = false := by
    obtain h | h := hg <;> simp [h]
  have hl' : s.locate k (eaOf ops 1) 64 0 = ((s.locate k (eaOf ops 1) 64 0).1, .at p) := Prod.ext rfl hl
  unfold State.copyIssue
  simp only [hspace, Bool.false_eq_true, ↓reduceIte]
  rw [hl']
  simp only [hd, hp, hf, Bool.not_true, Bool.false_eq_true, ↓reduceIte]
  rfl

/-- The copy starts where its checks pass and there is room for it. -/
theorem State.copyIssue_starts (hg : isGlobal (eaOf ops 1) = true ∨ spaceOf (eaOf ops 1) = 1)
    (hl : (s.locate k (eaOf ops 1) 64 0).2 = .at p) (hd : s.drain k = (t, true)) (hp : t.packetWords k (eaOf ops 1) = (u, .inl ws))
    (hf : u.freeSlot (coreOf k) = .inl slot)
    (hok : (u.newFuture (coreOf k) slot 2 1 none).copyRefused (u.copyAt k slot ws) ws = none)
    (hfree : (u.newFuture (coreOf k) slot 2 1 none).rangesFree (u.copyAt k slot ws) = true)
    (hroom : (u.newFuture (coreOf k) slot 2 1 none).inflight (clusterOf (coreOf k)) < 64) :
    s.copyIssue [(k, ops)] =
      ((u.newFuture (coreOf k) slot 2 1 none).startCopy
        { u.copyAt k slot ws with rm := ((u.newFuture (coreOf k) slot 2 1 none).thread k).rm.toNat },
       handed [(k, ops)] [] 2 slot) := by
  have hroom' : ¬ 64 ≤ (u.newFuture (coreOf k) slot 2 1 none).inflight (clusterOf (coreOf k)) := Nat.not_le.mpr hroom
  rw [State.copyIssue_packet hg hl hd hp hf]
  simp only [hok, hfree, hroom', decide_false, Bool.not_true, Bool.or_false, Bool.false_eq_true, ↓reduceIte]

/-- The copy ends at once where a check refuses it. -/
theorem State.copyIssue_fails (hg : isGlobal (eaOf ops 1) = true ∨ spaceOf (eaOf ops 1) = 1)
    (hl : (s.locate k (eaOf ops 1) 64 0).2 = .at p) (hd : s.drain k = (t, true)) (hp : t.packetWords k (eaOf ops 1) = (u, .inl ws))
    (hf : u.freeSlot (coreOf k) = .inl slot) {st : Nat}
    (hst : (u.newFuture (coreOf k) slot 2 1 none).copyRefused (u.copyAt k slot ws) ws = some st) :
    s.copyIssue [(k, ops)] =
      ((u.newFuture (coreOf k) slot 2 1 none).copyFails (u.copyAt k slot ws) st, handed [(k, ops)] [] 2 slot) := by
  rw [State.copyIssue_packet hg hl hd hp hf]
  simp only [hst]

end

/-- A new fetch of a segment whose operands pass their checks. -/
theorem State.segfetch_new {s : State} {i : Instr} {d : BitVec 5} {k : Nat} {ops : List Word}
    (hn : bitsOf (val ops 2).toNat 2 0 ≠ 0) (hc : bitsOf (val ops 2).toNat 28 16 ≠ 0) (hmax : bitsOf (val ops 2).toNat 28 16 ≤ 5461)
    (h1 : bitsOf (val ops 2).toNat 15 3 = 0) (h2 : bitsOf (val ops 2).toNat 31 29 = 0) (hg : isGlobal (val2 ops 0) = true)
    (ha : (val2 ops 0).toNat % 64 = 0) (hslot : (s.seg (coreOf k) (bitsOf (val ops 2).toNat 2 0)).slot = none)
    (hst : (s.seg (coreOf k) (bitsOf (val ops 2).toNat 2 0)).st ≠ 2) :
    s.segfetch i d [(k, ops)] =
      s.newFetch k (bitsOf (val ops 2).toNat 2 0) (bitsOf (val ops 2).toNat 28 16) (val2 ops 0) d [(k, ops)] := by
  have hmax' : ¬ 5461 < bitsOf (val ops 2).toNat 28 16 := Nat.not_lt.mpr hmax
  simp only [State.segfetch, beq_eq_false_iff_ne.mpr hn, beq_eq_false_iff_ne.mpr hc, hmax', h1, h2, hg, ha, hslot,
    beq_eq_false_iff_ne.mpr hst, decide_false, bne_self_eq_false, Bool.or_false, Bool.not_true, Bool.false_and, Bool.false_eq_true,
    ↓reduceIte]

end Sys2Proof.Machine

namespace Sys2Proof
open Sys2Proof.Machine

/-- Settles O23: the word takes a future entry first, and its handle reaches the destination with the entry's tag. -/
theorem copiesAndSegmentFetches : Obligations.CopiesAndSegmentFetches := by
  refine ⟨?_, ?_⟩
  · intro s t u o k slot rd p ws hk hr a hg hl hd hp hf x v
    have hact : s.active s.here o.g = [k] := hk
    have hgo {w : State} (h : s.copyIssue [(k, rd k)] = (w, handed [(k, rd k)] [] 2 slot)) :
        exec (.copy o) s = .next (w.deliverTags s o.g (.vec 1 o.d) false (one fun _ => handleWord 3 0 2 slot) fun _ =>
          some slot) := by
      refine congrArg Host.Outcome.next (State.groupWord_tags hr (by simp) _ _ ?_)
      rw [hact]
      show State.memDone (s.eachYard [(k, rd k)] _ _) = _
      rw [State.yard_sole, h, State.memDone_handed]
      rfl
    refine ⟨fun hok hfree hroom => hgo (State.copyIssue_starts hg hl hd hp hf hok hfree hroom), ?_⟩
    intro st hst e
    exact hgo (State.copyIssue_fails hg hl hd hp hf hst)
  · intro s t o k slot rd hk hr a b n count core hn hc hmax h1 h2 hg ha hslot hst hf hd hnone hroom u g v x w
    have hact : s.active s.here o.g = [k] := hk
    have hfetch := State.segfetch_new (i := .segfetch o) (d := o.d) hn hc hmax h1 h2 hg ha hslot hst
    have hfind : (t.eng.copies.find? fun x => x.seg == some (coreOf k, n)) = none := by
      rw [List.find?_eq_none]
      intro y hy
      simpa using hnone y hy
    have hnew := State.newFetch_ok (d := o.d) (ws := rd k) (count := count) (a := a) hf hd hfind hroom
    have hthreads : w.fab.threads = s.fab.threads := by
      have h := State.drainAll_fab s [k]
      rw [hd] at h
      have ht : t.fab.threads = s.fab.threads := congrArg (fun f : Fabric => f.threads) h
      exact ht
    have hkept : w.Kept s k := State.kept_of_threads hthreads
      (State.mem_active.mp (by rw [hact]; exact List.mem_singleton_self k)).1
    refine congrArg Host.Outcome.next (State.groupWord_tagged hr hk ?_ hkept)
    rw [uniformly_of_none rfl]
    exact hfetch.trans hnew

end Sys2Proof
end

section
/-! Queue claims and tasks (13_async 13.1, 13.5, 13.6). -/

namespace Sys2Proof.Machine

/-! ### QCLAIM -/

/-- Locating a global address leaves the registers and threads. -/
theorem State.locate_global_fab (s : State) (k : Nat) {a : DWord} (size kind : Nat) (hg : isGlobal a = true) :
    (s.locate k a size kind).1.fab = s.fab := by
  have hr := State.reach_fab s (some (coreOf k)) (s.ctxOf k) a kind
  rw [State.locate, if_pos hg]
  split
  · rfl
  · split <;> rename_i h <;> rw [h] at hr <;> exact hr

/-- An atomic event at memory leaves the registers and threads. -/
theorem State.atomPlace_mem_fab {s t : State} {k n pa : Nat} {a : DWord} {nc : Bool} {f : List Word → List Word} {old : List Word}
    (h : s.atomPlace k a n (.mem pa nc) f = (t, .inl old)) : t.fab = s.fab := by
  have hd := State.drainPend_fab s fun q => q.thread == k && ((List.range n).map fun i => pa + 4 * i).contains q.word
  simp only [State.atomPlace] at h
  revert h hd
  generalize s.drainPend _ = d
  intro hd h
  have ha := State.dirAccess_fab d.1 pa true nc
  revert h ha
  generalize d.1.dirAccess pa true nc = e
  intro h ha
  split at h
  · simp at h
  · split at h
    · simp at h
    · rw [← (Prod.mk.inj h).1]
      exact (foldl_fab _ (fun _ _ => State.homeAtomic_fab _ _ _ _) _ _).trans ((State.touchSlice_fab _ _ _ _).trans (ha.trans hd))

/-- A claim of a lane, as its queue's header stands. -/
abbrev State.ClaimTurn (rd ans : Nat → List Word) (u : State) (k : Nat) (v : State) : Prop :=
  ∃ p pa nc old, isGlobal (eaOf (rd k) 1) = true ∧ u.locate k (eaOf (rd k) 1) 8 2 = (p, .at (.mem pa nc)) ∧
    (∀ i ∈ [8, 12, 16], p.poisoned (lineAddr pa + i) = false) ∧
    let room (old : List Word) : Bool := decide ((val old 0 - val old 1).toNat < 2 ^ (p.ringOf pa).2)
    p.atomPlace k (eaOf (rd k) 1) 2 (.mem pa nc) (fun old => if room old then [val old 0 + 1, val old 1] else old) =
      (v, .inl old) ∧ ans k = [val old 0, if room old then 0 else 1]

theorem State.ClaimTurn.fab {rd ans : Nat → List Word} {u v : State} {k : Nat} (h : State.ClaimTurn rd ans u k v) :
    v.fab = u.fab := by
  obtain ⟨p, pa, nc, old, hg, hl, -, ha, -⟩ := h
  have hp := State.locate_global_fab u k 8 2 hg
  rw [hl] at hp
  exact (State.atomPlace_mem_fab ha).trans hp

theorem State.claimLane_of {rd ans : Nat → List Word} {u v : State} {k : Nat} (h : State.ClaimTurn rd ans u k v) :
    u.claimLane k (rd k) = (v, doneWith (ans k)) := by
  obtain ⟨p, pa, nc, old, hg, hl, hpois, ha, hans⟩ := h
  have hclean : ([8, 12, 16].any fun i => p.poisoned (lineAddr pa + i)) = false := by
    simpa using hpois
  have hfull (b : Bool) : BitVec.ofNat 32 (b2n (!b)) = if b then (0 : Word) else 1 := by cases b <;> rfl
  simp only [State.claimLane, State.claim, hg, hl, hclean, Bool.not_true, Bool.false_eq_true, ↓reduceIte, ha, hfull, hans]

/-! ### QPUT -/

/-- Of the sixteen quartets in turn, only that of the lanes acts. -/
theorem foldl_quartets {l : List (Nat × List Word)} {q n : Nat} {s : State}
    (f : State → Nat → List (Nat × List Word) → State × List (Nat × LaneOut)) (hf : ∀ s q, f s q [] = (s, []))
    (hl : ∀ p ∈ l, laneOf p.1 / 4 = q) (hq : q < n) :
    (List.range n).foldl (fun acc q' =>
      let r := f acc.1 q' (l.filter fun p => laneOf p.1 / 4 == q')
      (r.1, acc.2 ++ r.2)) (s, []) = f s q l := by
  have hother (q' : Nat) (h : q' ≠ q) : l.filter (fun p => laneOf p.1 / 4 == q') = [] :=
    List.filter_eq_nil_iff.mpr fun p hp => by simpa [hl p hp] using h.symm
  have hsame : l.filter (fun p => laneOf p.1 / 4 == q) = l :=
    List.filter_eq_self.mpr fun p hp => by simp [hl p hp]
  have still (qs : List Nat) (h : ∀ q' ∈ qs, q' ≠ q) (acc : State × List (Nat × LaneOut)) :
      qs.foldl (fun acc q' =>
        let r := f acc.1 q' (l.filter fun p => laneOf p.1 / 4 == q')
        (r.1, acc.2 ++ r.2)) acc = acc :=
    foldl_same _ _ _ fun q' hq' => by simp [hother q' (h q' hq'), hf]
  obtain ⟨m, rfl⟩ : ∃ m, n = q + (m + 1) := ⟨n - q - 1, by omega⟩
  rw [List.range_eq_range', ← List.range'_append_1, List.foldl_append, still (List.range' 0 q) (fun q' h => by
      have := List.mem_range'_1.mp h
      omega), List.range'_succ, List.foldl_cons, still _ (fun q' h => by
      have := List.mem_range'_1.mp h
      omega)]
  simp only [Nat.zero_add, hsame, List.nil_append]

/-- The four lanes of a quartet of a yard. -/
def quartet (y q : Nat) : List Nat := (List.range 4).map fun n => threadKey y (4 * q + n)

theorem mem_quartet {y q k : Nat} (hq : q < 16) (h : k ∈ quartet y q) : yardOf k = y ∧ laneOf k / 4 = q := by
  obtain ⟨n, hn, rfl⟩ := List.mem_map.mp h
  have hn := List.mem_range.mp hn
  simp only [yardOf, laneOf, threadKey]
  omega

/-- A quartet all of whose lanes are active has no gap. -/
theorem quartetGap_full {y q : Nat} (hq : q < 16) (rd : Nat → List Word) :
    quartetGap q ((quartet y q).map fun k => (k, rd k)) = none := by
  have hy : yardOf (threadKey y (4 * q)) = y := yardOf_threadKey y (by omega)
  show ((List.range 4).map (4 * q + ·)).find? (fun n => !((quartet y q).map fun k => (k, rd k)).any fun r =>
    r.1 == threadKey (yardOf (threadKey y (4 * q))) n) = none
  rw [List.find?_eq_none]
  intro n hn
  obtain ⟨j, hj, rfl⟩ := List.mem_map.mp hn
  rw [hy, Bool.not_eq_true, Bool.not_eq_false', List.any_eq_true]
  exact ⟨(threadKey y (4 * q + j), _), List.mem_map_of_mem (List.mem_map_of_mem hj), beq_self_eq_true _⟩

section
variable {s t u : State} {y q : Nat} {c : Claim} {rd : Nat → List Word} {a : DWord}

/-- A QPUT of a quartet whose claim finds room writes its packet. -/
theorem State.qput_claimed (hq : q < 16)
    (ha : ∀ k ∈ quartet y q, eaOf (rd k) 1 = a ∧ (s.thread k).keptIndex s.here.pc s.here.w = none)
    (hc : s.claim (threadKey y (4 * q)) a = (t, .inl c)) (hgot : c.got = true)
    (hput : t.putPacket (threadKey y (4 * q)) c
      (quartetPacket ((quartet y q).map fun k => (k, rd k)) (t.thread (threadKey y (4 * q))).rm) = (u, none)) :
    s.qput q ((quartet y q).map fun k => (k, rd k)) =
      (u.dropIndex (quartet y q), allDone ((quartet y q).map fun k => (k, rd k)) []) := by
  have hgap := quartetGap_full (y := y) hq rd
  have hsame : firstMismatch (fun ws => eaOf ws 1) ((quartet y q).map fun k => (k, rd k)) = none :=
    firstMismatch_map _ _ rd a fun k hk => (ha k hk).1
  have hkept : (quartet y q).findSome? (fun j => (s.thread j).keptIndex s.here.pc s.here.w) = none :=
    List.findSome?_eq_none_iff.mpr fun k hk => (ha k hk).2
  have hks : (((quartet y q).map fun k => (k, rd k)).map fun r => r.1) = quartet y q := by simp [Function.comp_def]
  obtain ⟨r, hr⟩ : ∃ r, quartet y q = threadKey y (4 * q) :: r := ⟨_, rfl⟩
  have ha0 : eaOf (rd (threadKey y (4 * q))) 1 = a := (ha _ (by rw [hr]; exact List.mem_cons_self)).1
  revert hgap hsame hks hput
  rw [hr] at hkept ⊢
  intro hput hgap hsame hks
  simp only [List.map_cons] at hgap hsame hks hput ⊢
  simp only [State.qput, hgap, uniformly_of_none hsame, List.map_cons, hks, hkept, ha0, hc, hgot, ↓reduceIte, hput]

end

end Sys2Proof.Machine

namespace Sys2Proof
open Sys2Proof.Machine

/-- Settles O24: each claim is one atomic event, and a quartet acts as one. -/
theorem queueWords : Obligations.QueueWords := by
  refine ⟨?_, ?_⟩
  · intro s t o rd ans hr ht
    have hfab : t.fab = s.fab := Turns.keeps State.fab (fun u k v h => State.ClaimTurn.fab (rd := rd) (ans := ans) h) ht
    refine congrArg _ (State.groupWord_gives hr (by simp) ans noFlags ?_ fun k hk => State.kept_fab hfab hk)
    rw [State.eachLane_turns (fun k => doneWith (ans k)) ht fun u v k _ h => State.claimLane_of h]
    exact State.memDone_done fun p hp => by
      obtain ⟨k, -, rfl⟩ := List.mem_map.mp hp
      exact ⟨_, rfl⟩
  · intro s t u o y q c rd a hq ks hact hr ha hc hgot hput
    refine congrArg _ (State.groupWord_none (rd := fun _ => []) (outs := ks.map fun k => (k, doneWith [])) (fun _ _ => rfl) ?_ ?_)
    · have hput' : s.qput q (ks.map fun k => (k, rd k)) = (u.dropIndex ks, allDone (ks.map fun k => (k, rd k)) []) :=
        State.qput_claimed hq ha hc hgot hput
      have hr' : ∀ k ∈ ks, s.readCodes k o.lit (addrCodes o ++ codesFrom o.d 4) = .ok (rd k) := fun k hk =>
        hr k (by rw [hact]; exact hk)
      have hlane : ∀ p ∈ (ks.map fun k => (k, rd k)), laneOf p.1 / 4 = q := fun p hp => by
        obtain ⟨k, hk, rfl⟩ := List.mem_map.mp hp
        exact (mem_quartet hq hk).2
      have hkeep (k : Nat) (hk : k ∈ ks) : s.keepClaim (k, doneWith []) = (k, doneWith []) := by
        simp only [State.keepClaim, (ha k hk).2]
      have hkeepAll : (ks.map fun k => (k, doneWith [])).map s.keepClaim = ks.map fun k => (k, doneWith []) :=
        List.map_map.trans (List.map_congr_left hkeep)
      rw [hact]
      simp only [State.moreIn_ready hr', List.append_nil, List.nil_append]
      rw [foldl_quartets State.qput (fun _ _ => rfl) hlane hq, hput', allDone_map, hkeepAll]
      exact State.memDone_all
    · intro p hp
      obtain ⟨k, -, rfl⟩ := List.mem_map.mp hp
      exact ⟨_, rfl⟩

end Sys2Proof
end

section
/-! Tasks, system calls and trap words (13_async 13.5, 18_system 18.3 to 18.6). -/

namespace Sys2Proof.Machine

/-! ### Tasks -/

/-- A TASKDEF whose packet is read takes a task entry and a future. -/
theorem State.taskdef_of {s t u : State} {i : Instr} {k n slot : Nat} {ks : List Nat} {ops ws : List Word}
    (hg : isGlobal (val2 ops 0) = true) (ha : (val2 ops 0).toNat % 64 = 0) (hb : (val ops 2).toNat ≤ 65535)
      (hf : s.freeTask = some n)
    (hd : s.drainAll (k :: ks) = (t, true)) (hp : t.packetWords k (val2 ops 0) = (u, .inl ws))
      (hs : u.freeSlot (coreOf k) = .inl slot) :
    s.taskdef i ((k :: ks).map fun k => (k, ops)) =
      (let v := u.newFuture (coreOf k) slot 3 (ks.length + 1) none
       v.defineTask n (v.ctxOf k) (val ops 2).toNat ws (some (coreOf k, slot)) Compl.none,
       let v := u.newFuture (coreOf k) slot 3 (ks.length + 1) none
       handed ((k :: ks).map fun k => (k, ops)) [taskId n { v.task n with gen := (v.task n).gen + 1 }] 3 slot) := by
  have hb' : ¬ 65535 < (val ops 2).toNat := Nat.not_lt.mpr hb
  simp only [State.taskdef, List.map_cons, hg, ha, hb', bne_self_eq_false, Bool.not_true, Bool.false_eq_true, ↓reduceIte, hf,
    List.map_map, Function.comp_def, List.map_id', hd, hp, hs, List.length_cons, List.length_map]

theorem State.taskOperand_of {s : State} {k n : Nat} {ws : List Word} (hb : (val ws 1).toNat ≤ 65535)
    (h : s.taskOf (s.ctxOf k) (val ws 0) = some n) : s.taskOperand k ws = some (n, (val ws 1).toNat) := by
  have hb' : ¬ 65535 < (val ws 1).toNat := Nat.not_lt.mpr hb
  simp only [State.taskOperand, hb', ↓reduceIte, h, Option.map_some]

/-- A decrement that leaves some of a task's count. -/
theorem State.decTask_some {s : State} {n d : Nat} (hw : (s.task n).st = some .waiting) (hd : d < (s.task n).count) :
    s.decTask n d = s.setTask n { s.task n with count := (s.task n).count - d } := by
  have hd' : ¬ (s.task n).count ≤ d := Nat.not_le.mpr hd
  simp [State.decTask, hw, hd']

/-- A decrement that leaves nothing of a task's count hands it over. -/
theorem State.decTask_last {s : State} {n d : Nat} (hw : (s.task n).st = some .waiting) (hd : (s.task n).count ≤ d) (h0 : d ≠ 0) :
    s.decTask n d = (s.setTask n { s.task n with count := 0, st := some .ready }).handOff n := by
  simp [State.decTask, hw, hd, h0]

theorem State.decTask_ended {s : State} {n d : Nat} (hw : (s.task n).st ≠ some .waiting) : s.decTask n d = s := by
  simp [State.decTask, hw]

/-! ### FENCEC -/

theorem firsts_one {f : Nat → Nat} {b : Nat} {ks : List Nat} (hn : ks ≠ []) (h : ∀ k ∈ ks, f k = b) :
    firsts f [] ks = [ks.headD 0] := by
  cases ks with
  | nil => exact absurd rfl hn
  | cons k r =>
    rw [firsts, if_neg (by simp), h k List.mem_cons_self, firsts_const r fun j hj => h j (List.mem_cons_of_mem k hj)]
    rfl

/-- The fences of a FENCEC at a scope, once for each set. -/
def State.fences (kind : SetKind) (rigOf : Nat → Nat) (s : State) (ks : List Nat) : State :=
  match kind with
  | .lane => ks.foldl (fun s k => s.fenceCalls [k]) s
  | .yard => (firsts yardOf [] ks).foldl (fun s k => s.fenceCalls (s.setMembers (yardOf k) false)) s
  | .rig => (firsts rigOf [] ks).foldl (fun s k => s.fenceRig k) s

/-- The rig of a thread's yard, as a FENCEC counts rigs. -/
def State.rigNumber (s : State) (k : Nat) : Nat := ((s.yard (yardOf k)).rig.map fun m => m.1).getD 0

/-- A FENCEC leaves the fences of its scope. -/
theorem State.exec_fencec (s : State) (o : OpA) : exec (.fencec o) s =
    .next (State.fences (setKind (s.groupVersion s.here.lanes) o.s) s.rigNumber s (s.active s.here o.g)) := by
  have hw : exec (.fencec o) s = .next (s.groupWord (.fencec o) o.s o.g [] 0 .none false fun u ins =>
      (State.fences (setKind (s.groupVersion s.here.lanes) o.s) s.rigNumber u (ins.map fun p => p.1), allDone ins [])) := rfl
  rw [hw]
  refine congrArg _ (State.groupWord_none (s.reads_nil o.g) (outs := (s.active s.here o.g).map fun k => (k, doneWith [])) ?_
    fun p hp => ?_)
  · rw [allDone_map, List.map_map, Function.comp_def, List.map_id']
  · obtain ⟨k, -, rfl⟩ := List.mem_map.mp hp
    exact ⟨_, rfl⟩

/-- Of one yard a FENCEC at YARD scope acts once. -/
theorem State.fences_yard {s : State} {ks : List Nat} {y : Nat} (rigOf : Nat → Nat) (hn : ks ≠ []) (hy : ∀ k ∈ ks, yardOf k = y) :
    State.fences .yard rigOf s ks = s.fenceCalls (s.setMembers y false) := by
  have hhead : yardOf (ks.headD 0) = y := by
    cases ks with
    | nil => exact absurd rfl hn
    | cons k r => exact hy k List.mem_cons_self
  rw [State.fences, firsts_one hn hy, List.foldl_cons, List.foldl_nil, hhead]

/-- Of one yard a FENCEC at RIG scope acts once. -/
theorem State.fences_rig {s : State} {ks : List Nat} {y : Nat} (hn : ks ≠ []) (hy : ∀ k ∈ ks, yardOf k = y) :
    State.fences .rig s.rigNumber s ks = s.fenceRig (ks.headD 0) := by
  have hrig : ∀ k ∈ ks, s.rigNumber k = ((s.yard y).rig.map fun m => m.1).getD 0 := fun k hk => by
    rw [State.rigNumber, hy k hk]
  rw [State.fences, firsts_one hn hrig, List.foldl_cons, List.foldl_nil]

end Sys2Proof.Machine

namespace Sys2Proof
open Sys2Proof.Machine

/-- Settles O25: the task words act on one entry each, lane after lane. -/
theorem taskWords : Obligations.TaskWords := by
  refine ⟨?_, ?_, ?_, ?_⟩
  · intro s t u o y k n slot ks rd ws hy hact hr a hg ha hb hf hd hp hs v tid w
    refine congrArg Host.Outcome.next (State.groupWord_tags hr (by simp) _ _ ?_)
    rw [State.eachYard_const _ _ _ hy.1 hy.2, hact, State.taskdef_of hg ha hb hf hd hp hs]
    refine (State.memDone_handed _ _ _ 3 slot).trans ?_
    simp only [handed, List.map_map, Function.comp_def]
    rfl
  · intro s t o rd r hr ht
    have hfab : t.fab = s.fab := by
      refine Turns.keeps State.fab (fun u k v h => ?_) ht
      obtain ⟨n, -, -, ⟨-, -, rfl⟩ | ⟨-, -, rfl⟩⟩ := h
      · rfl
      · rfl
    refine congrArg Host.Outcome.next (State.groupWord_gives hr (by simp) (one r) noFlags ?_ fun k hk => State.kept_fab hfab hk)
    refine State.eachLane_turns (fun k => doneWith [r k]) ht fun u v k _ h => ?_
    obtain ⟨n, hb, hn, ⟨hw, hr, hv⟩ | ⟨hw, hr, hv⟩⟩ := h
    · simp only [State.taskdepLane, State.taskOperand_of hb hn, hw, BEq.rfl, ↓reduceIte, hr, hv]
    · have hw' : ((u.task n).st == some .waiting) = false := beq_eq_false_iff_ne.mpr hw
      simp only [State.taskdepLane, State.taskOperand_of hb hn, hw', Bool.false_eq_true, ↓reduceIte, hr, hv]
  · intro s t o rd hr ht
    refine congrArg Host.Outcome.next
      (State.groupWord_none hr (outs := (s.active s.here o.g).map fun k => (k, doneWith [])) ?_ fun p hp => ?_)
    · refine State.eachLane_turns (fun _ => doneWith []) ht fun u v k _ h => ?_
      obtain ⟨n, p, hb, hn, hd, h⟩ := h
      simp only [State.tasksigLane, State.taskOperand_of hb hn, hd, Bool.not_true, Bool.false_eq_true, ↓reduceIte]
      obtain ⟨hw, hlt, hv⟩ | ⟨hw, hle, h0, hv⟩ | ⟨hw, hv⟩ := h
      · rw [State.decTask_some hw hlt, hv]
      · have h0' : (val (rd k) 1).toNat ≠ 0 := fun h => h0 (BitVec.eq_of_toNat_eq h)
        rw [State.decTask_last hw hle h0', hv]
      · rw [State.decTask_ended hw, hv]
    · obtain ⟨k, -, rfl⟩ := List.mem_map.mp hp
      exact ⟨_, rfl⟩
  · intro s o rd b hr hb hok
    refine congrArg Host.Outcome.next (State.groupWord_gives hr (by simp) _ noFlags ?_ (State.kept_all rfl))
    rw [uniformly_of_none (firstMismatch_map _ _ rd b hb), List.map_map]
    refine congrArg (s, ·) (List.map_congr_left fun k hk => ?_)
    simp only [Function.comp_def, swzLane, hb k hk, hok, ↓reduceIte]
    rfl

/-- Settles O26: a call enters the ring of its core, and a fence rises once for its set. -/
theorem systemCalls : Obligations.SystemCalls := by
  refine ⟨?_, ?_⟩
  · intro s t o k slot i rd hk hr a hg ha hgrant hd hf hring call u
    have hlane : s.syscLane k (val2 (rd k) 0) (val (rd k) 2) =
        (u, .done { vals := [handleWord 3 0 6 slot], ff := 0, sb := none, tag := some slot }) := by
      have hgrant' : s.contextGrant k = true := hgrant
      simp only [State.syscLane, show isGlobal (val2 (rd k) 0) = true from hg, show (val2 (rd k) 0).toNat % 64 = 0 from ha, hgrant',
        hd, hf, hring, bne_self_eq_false, Bool.not_true, Bool.false_eq_true, ↓reduceIte]
      rfl
    have hact : s.active s.here o.g = [k] := hk
    have hthreads : u.fab.threads = s.fab.threads := by
      have h := State.drain_fab s k
      rw [hd] at h
      have ht : t.fab.threads = s.fab.threads := congrArg (fun f : Fabric => f.threads) h
      exact ht
    have hkept : u.Kept s k := State.kept_of_threads hthreads
      (State.mem_active.mp (by rw [hact]; exact List.mem_singleton_self k)).1
    refine congrArg Host.Outcome.next (State.groupWord_tagged hr hk ?_ hkept)
    rw [State.eachLane_single, hlane]
    exact State.memDone_handed u [(k, rd k)] [] 6 slot
  · intro s o kind fence
    have hw := s.exec_fencec o
    refine ⟨fun hl => ?_, fun y hy => ⟨fun hyard => ?_, fun hrig id hid => ⟨fun hin => ?_, ?_⟩⟩⟩
    · rw [hw, show setKind (s.groupVersion s.here.lanes) o.s = .lane from hl]
      rfl
    · rw [hw, show setKind (s.groupVersion s.here.lanes) o.s = .yard from hyard, State.fences_yard _ hy.1 hy.2]
      rfl
    · rw [hw, show setKind (s.groupVersion s.here.lanes) o.s = .rig from hrig, State.fences_rig hy.1 hy.2, State.fenceRig, hid]
      exact congrArg _ (if_pos hin)
    · intro hout t
      have hhead : yardOf ((s.active s.here o.g).headD 0) = y := by
        obtain ⟨k, r, hk⟩ := List.exists_cons_of_ne_nil hy.1
        rw [hk]
        exact hy.2 k (by rw [hk]; exact List.mem_cons_self)
      rw [hw, show setKind (s.groupVersion s.here.lanes) o.s = .rig from hrig, State.fences_rig hy.1 hy.2, State.fenceRig, hid,
        hhead]
      exact congrArg _ (if_neg (Bool.eq_false_iff.mp hout))

end Sys2Proof
end

section
/-! Trap words (18_system 18.3, 18.6). -/

namespace Sys2Proof.Machine

/-- A word at which every active lane waits. -/
theorem State.groupWord_parks {s t : State} {i : Instr} {sc : BitVec 2} {g : BitVec 3} {codes : List (BitVec 5)} {lit : Word}
    {f : State → List (Nat × List Word) → State × List (Nat × LaneOut)} {rd : Nat → List Word} (st : TState)
    (h : s.Reads g codes lit rd)
    (hf : f s ((s.active s.here g).map fun k => (k, rd k)) = (t, (s.active s.here g).map fun k => (k, .park st))) :
    s.groupWord i sc g codes lit .none false f = (s.active s.here g).foldl (fun u k => u.park k s.here.w st true) t := by
  have hout (j : Nat) (x : Thread) : x.applyOut j .none false ((s.active s.here g).map fun k => (k, LaneOut.park st))
      (outOf ((s.active s.here g).map fun k => (k, LaneOut.park st)) j) = x := by
    rw [outOf_map _ fun _ => LaneOut.park st]
    by_cases hj : j ∈ s.active s.here g
    · simp [hj, Thread.applyOut]
    · simp [hj, Thread.applyOut, Thread.idle, Thread.putSb]
  have htags (u : State) : ((s.active s.here g).map fun k => (k, LaneOut.park st)).foldl (State.tagOut .none) u = u :=
    foldl_same _ _ _ fun p hp => by
      obtain ⟨k, -, rfl⟩ := List.mem_map.mp hp
      rfl
  have htraps : trapsOf ((s.active s.here g).map fun k => (k, LaneOut.park st)) = [] := by simp [trapsOf]
  rw [State.groupWord_ready h (fun _ _ => rfl)]
  simp only [hf]
  rw [if_neg (by simp)]
  simp only [State.finish, State.updLanes_same _ _ _ hout, htags, htraps, List.foldl_map, State.raise, List.map_nil,
    State.raiseAt_nil]
  rfl

/-- Lanes that stop at the word that issues. -/
theorem State.stopLanes_map (s : State) (cause : Nat) (ks : List Nat) (a : Nat → Word) :
    s.stopLanes cause (ks.map fun k => (k, [a k])) =
      ((ks.foldl (fun u k => u.stopMark k s.here.pc s.here.w (codeTrap cause (a k)) s.serialNo) s.bumpSerial).widen ks s.serialNo,
        ks.map fun k => (k, .park .stopped)) := by
  simp only [State.stopLanes, List.foldl_map, List.map_map, Function.comp_def, List.map_id', allOut]
  rfl

/-- With no debugger attached a BRK traps in every lane. -/
theorem State.brk_detached {s : State} {ks : List Nat} {a : Nat → Word} (h : ∀ k ∈ ks, s.attached k = false) :
    (ks.map fun k => (k, [a k])).filter (fun p => s.attached p.1 && !(s.thread p.1).trec.intrap) = [] :=
  List.filter_eq_nil_iff.mpr fun p hp => by
    obtain ⟨k, hk, rfl⟩ := List.mem_map.mp hp
    simp [h k hk]

/-- A TRET in a handler whose record passes its checks. -/
theorem State.retLane_of {u v : State} {i : Instr} {k : Nat} (hin : (u.thread k).trec.intrap = true)
    (hc : u.retCheck (coreOf k) (u.thread k).trec = none)
    (hv : u.here.left = 0 ∧ v = u.retNow k ∨ u.here.left ≠ 0 ∧ v = u.modThread k fun x => { x with leaving := .ret }) :
    u.retLane i u.here.left k = (v, doneWith []) := by
  simp only [State.retLane, hin, hc, Bool.not_true, Bool.false_eq_true, ↓reduceIte]
  obtain ⟨h0, hv⟩ | ⟨h0, hv⟩ := hv
  · rw [if_pos h0, hv]
  · rw [if_neg h0, hv]

end Sys2Proof.Machine

namespace Sys2Proof
open Sys2Proof.Machine

/-- Settles O27: TRAP, BRK and HALT act on all the lanes together, TRET on one after another. -/
theorem trapWords : Obligations.TrapWords := by
  refine ⟨?_, ?_⟩
  · intro s o a hr t ks kind
    refine ⟨?_, fun hd => ?_, ?_⟩
    · refine congrArg Host.Outcome.next (State.groupWord_traps (fun k => t 0x1B k) ⟨hr, fun _ _ => ⟨rfl, by simp [Thread.dstRegs]⟩⟩
        ?_ rfl rfl)
      rw [List.map_map]
      rfl
    · refine congrArg Host.Outcome.next (State.groupWord_traps (fun k => t 0x11 k) ⟨hr, fun _ _ => ⟨rfl, by simp [Thread.dstRegs]⟩⟩
        ?_ rfl rfl)
      rw [State.brk_detached hd]
      simp only [State.stopLanes, List.contains_nil, Bool.not_false, filter_always, List.map_map, List.foldl_nil, List.map_nil,
        allOut, List.nil_append]
      rfl
    · refine congrArg Host.Outcome.next (State.groupWord_parks .stopped hr ?_)
      exact s.stopLanes_map 0x1C ks a
  · intro s t o ht
    refine congrArg Host.Outcome.next
      (State.groupWord_none (s.reads_nil o.g) (outs := (s.active s.here o.g).map fun k => (k, doneWith [])) ?_ fun p hp => ?_)
    · refine State.eachLane_turns (fun _ => doneWith []) ht fun u v k _ h => ?_
      obtain ⟨hin, hc, hv⟩ := h
      exact State.retLane_of hin hc hv
    · obtain ⟨k, -, rfl⟩ := List.mem_map.mp hp
      exact ⟨_, rfl⟩

end Sys2Proof
end

section
/-! Block words on a descriptor (16_attention 16.4). -/

namespace Sys2Proof.Machine

/-- A block word that is done: pins and allocations are acquire points. -/
def State.kvEnds (s : State) (k : Nat) (op : KvOp) (w : Word) : State × LaneOut :=
  (if op.releases then s else s.acquire k, doneWith [w])

theorem State.kvEnds_acquire (s : State) (k : Nat) {op : KvOp} (w : Word) (h : op.releases = false) :
    s.kvEnds k op w = (s.acquire k, doneWith [w]) := by rw [State.kvEnds, h]; rfl
theorem State.kvEnds_release (s : State) (k : Nat) {op : KvOp} (w : Word) (h : op.releases = true) :
    s.kvEnds k op w = (s, doneWith [w]) := by rw [State.kvEnds, h]; rfl

theorem kvStatus_zero (d : DWord) : kvStatus 0 0 d = BitVec.ofNat 32 (bitsOf d.toNat 11 0) := by simp [kvStatus]

section
variable {s t r u v w x : State} {k n cls lbn pa : Nat} {nc : Bool} {op : KvOp} {d e f : List Word}

/-- The block word's descriptor stands at a word of memory, and the word's release is behind it. -/
structure State.AtDesc (s r : State) (k : Nat) (op : KvOp) (n lbn pa : Nat) (nc : Bool) : Prop where
  block : lbn < (s.pool n).nblk
  place : (s.locate k ((s.pool n).descAddr lbn) 8 2).2 = .at (.mem pa nc)
  released : if op.releases then s.drain k = (r, true) else r = s

/-- The events of a block word in one lane, past its release. -/
def State.kvEvents (s r : State) (k : Nat) (op : KvOp) (n cls lbn pa : Nat) (nc : Bool) : State × LaneOut :=
  match r.atomPlace k ((s.pool n).descAddr lbn) 2 (.mem pa nc) (fun old => old) with
  | (s2, .inr o) => (s2, o)
  | (s2, .inl old) =>
    match kvRefusal op (val2 old 0) with
    | some code => s2.kvEnds k op (kvStatus 1 code (val2 old 0))
    | none =>
      match s2.kvPlan k op (s.pool n) cls (val2 old 0) with
      | (s3, .inr o) => (s3, o)
      | (s3, .inl none) =>
        (s3.setPool n { s.pool n with allocfail := (s.pool n).allocfail + 1 }).kvEnds k op (kvStatus 2 7 (val2 old 0))
      | (s3, .inl (some (new, mark))) =>
        match (match mark with
          | none => (s3, Sum.inl [])
          | some (x, b) => s3.markPage k (s.pool n) x b) with
        | (s4, .inr o) => (s4, o)
        | (s4, .inl _) =>
          match s4.atomPlace k ((s.pool n).descAddr lbn) 2 (.mem pa nc) (fun _ => words2 new) with
          | (s5, .inr o) => (s5, o)
          | (s5, .inl _) => s5.kvEnds k op (kvStatus 0 0 new)

theorem State.kvLane_atDesc (h : s.AtDesc r k op n lbn pa nc) : s.kvLane k op n cls lbn = s.kvEvents r k op n cls lbn pa nc := by
  obtain ⟨hb, hl, hr⟩ := h
  have hb' : ¬ (s.pool n).nblk ≤ lbn := Nat.not_le.mpr hb
  have hl' : s.locate k ((s.pool n).descAddr lbn) 8 2 = ((s.locate k ((s.pool n).descAddr lbn) 8 2).1, .at (.mem pa nc)) :=
    Prod.ext rfl hl
  have hd : (if op.releases = true then s.drain k else (s, true)) = (r, true) := by
    split at hr
    · rename_i h; rw [if_pos h, hr]
    · rename_i h; rw [if_neg h, hr]
  unfold State.kvLane
  simp only [hb', ↓reduceIte]
  rw [hl']
  simp only [hd, Bool.not_true, Bool.false_eq_true, ↓reduceIte]
  rfl

/-- A descriptor that refuses the word stays. -/
theorem State.kvLane_refused {code : Nat} (h : s.AtDesc r k op n lbn pa nc)
    (ha : r.atomPlace k ((s.pool n).descAddr lbn) 2 (.mem pa nc) (fun old => old) = (u, .inl d))
    (hc : kvRefusal op (val2 d 0) = some code) : s.kvLane k op n cls lbn = u.kvEnds k op (kvStatus 1 code (val2 d 0)) := by
  rw [State.kvLane_atDesc h, State.kvEvents, ha]
  simp only [hc]

/-- With no page free an allocation fails, and is counted. -/
theorem State.kvLane_full (h : s.AtDesc r k op n lbn pa nc)
    (ha : r.atomPlace k ((s.pool n).descAddr lbn) 2 (.mem pa nc) (fun old => old) = (u, .inl d))
    (hc : kvRefusal op (val2 d 0) = none) (hp : u.kvPlan k op (s.pool n) cls (val2 d 0) = (v, .inl none)) :
    s.kvLane k op n cls lbn =
      (v.setPool n { s.pool n with allocfail := (s.pool n).allocfail + 1 }).kvEnds k op (kvStatus 2 7 (val2 d 0)) := by
  rw [State.kvLane_atDesc h, State.kvEvents, ha]
  simp only [hc, hp]

/-- A word that changes the descriptor alone. -/
theorem State.kvLane_stepped {new : DWord} (h : s.AtDesc r k op n lbn pa nc)
    (ha : r.atomPlace k ((s.pool n).descAddr lbn) 2 (.mem pa nc) (fun old => old) = (u, .inl d))
    (hc : kvRefusal op (val2 d 0) = none) (hp : u.kvPlan k op (s.pool n) cls (val2 d 0) = (v, .inl (some (new, none))))
    (hw : v.atomPlace k ((s.pool n).descAddr lbn) 2 (.mem pa nc) (fun _ => words2 new) = (w, .inl e)) :
    s.kvLane k op n cls lbn = w.kvEnds k op (kvStatus 0 0 new) := by
  rw [State.kvLane_atDesc h, State.kvEvents, ha]
  simp only [hc, hp, hw]

/-- A word that changes the descriptor and its page's bit. -/
theorem State.kvLane_marked {new : DWord} {page : PageId} {b : Bool} (h : s.AtDesc r k op n lbn pa nc)
    (ha : r.atomPlace k ((s.pool n).descAddr lbn) 2 (.mem pa nc) (fun old => old) = (u, .inl d))
    (hc : kvRefusal op (val2 d 0) = none) (hp : u.kvPlan k op (s.pool n) cls (val2 d 0) = (v, .inl (some (new, some (page, b)))))
    (hm : v.markPage k (s.pool n) page b = (w, .inl e))
    (hx : w.atomPlace k ((s.pool n).descAddr lbn) 2 (.mem pa nc) (fun _ => words2 new) = (x, .inl f)) :
    s.kvLane k op n cls lbn = x.kvEnds k op (kvStatus 0 0 new) := by
  rw [State.kvLane_atDesc h, State.kvEvents, ha]
  simp only [hc, hp, hm, hx]

theorem State.kvPlan_alloc {a : Option PageId} {d : DWord} {p : Pool}
    (h : u.findFree k p cls 0 (p.slabCount cls) = (v, .inl a)) :
    u.kvPlan k .alloc p cls d = (v, .inl (a.map fun page => (mkDesc (p.pageAddr page) cls true false 1, some (page, true)))) := by
  rw [State.kvPlan, h]
  cases a <;> rfl

theorem State.kvPlan_free {d : DWord} {p : Pool} (h : p.hasPage (p.pageAt (descClass d) (descPage d)) = true) :
    u.kvPlan k .free p cls d = (u, .inl (some (0, some (p.pageAt (descClass d) (descPage d), false)))) := by
  simp only [State.kvPlan, h, ↓reduceIte]

end

/-! ### Refusals -/

theorem kvRefusal_pin_absent {d : DWord} (h : descPresent d = false) : kvRefusal .pin d = some 1 := by simp [kvRefusal, h]
theorem kvRefusal_pin {d : DWord} (h1 : descPresent d = true) (h2 : descMoving d = false) (h3 : descPin d ≠ 255) :
    kvRefusal .pin d = none := by simp [kvRefusal, h1, h2, h3]
theorem kvRefusal_unpin {d : DWord} (h1 : descPresent d = true) (h2 : descPin d ≠ 0) : kvRefusal .unpin d = none := by
  simp [kvRefusal, h1, h2]
theorem kvRefusal_alloc {d : DWord} (h1 : descPresent d = false) (h2 : descMoving d = false) : kvRefusal .alloc d = none := by
  simp [kvRefusal, h1, h2]
theorem kvRefusal_free {d : DWord} (h1 : descPresent d = true) (h2 : descMoving d = false) (h3 : descPin d = 0) :
    kvRefusal .free d = none := by simp [kvRefusal, h1, h2, h3]

end Sys2Proof.Machine

namespace Sys2Proof
open Sys2Proof.Machine

/-- Settles O29: each word is one event on the descriptor, with at most one on its page's bit before it. -/
theorem blockPinsAndAllocation : Obligations.BlockPinsAndAllocation := by
  refine ⟨?_, ?_⟩
  · intro s t o k pa nc a b hk hr hb hatt hctx hblk addr hl
    have hn : b.toNat % 16 = b.toNat := Nat.mod_eq_of_lt hb
    have h6 : bitsOf b.toNat 31 6 = 0 := by simp only [bitsOf]; omega
    have h4 : bitsOf b.toNat 5 4 = 0 := by simp only [bitsOf]; omega
    have hplace : (s.locate k addr 8 2).2 = .at (.mem pa nc) := by rw [hl]
    have word {i : Instr} {op : KvOp} {z : State} {w : Word} (h : s.kvLane k op b.toNat 0 a.toNat = (z, doneWith [w]))
        (hz : ∀ k ∈ s.active s.here o.g, z.Kept s k) :
        s.kvWord i o op = z.deliver s o.g (.vec 1 o.d) false (one fun _ => w) noFlags :=
      State.kv_word hk hr h6 (fun _ => h4) (by rw [hn]; exact hatt) (by rw [hn]; exact hctx) (by rw [hn, h4]; exact h) hz
    have hpin : s.AtDesc s k .pin b.toNat a.toNat pa nc := ⟨hblk, hplace, rfl⟩
    refine ⟨fun u d ha h0 hu => ?_, fun u v d e ha hpres hmov hmax hv hvt => ?_, fun r u v d e hd ha hpres hmin hv hvt => ?_⟩
    · have h := State.kvLane_refused (cls := 0) hpin ha (kvRefusal_pin_absent (by rw [h0]; rfl))
      have hw : kvStatus 1 1 (val2 d 0) = 0x41000000 := by rw [h0]; rfl
      rw [hw, State.kvEnds_acquire _ _ _ rfl] at h
      exact congrArg Host.Outcome.next (word h fun j hj => State.acquireAll_kept (State.kept_all hu j hj))
    · have h := State.kvLane_stepped (cls := 0) hpin ha (kvRefusal_pin hpres hmov hmax) rfl hv
      rw [kvStatus_zero, State.kvEnds_acquire _ _ _ rfl] at h
      exact congrArg Host.Outcome.next (word h fun j hj => State.acquireAll_kept (State.kept_all hvt j hj))
    · have hunpin : s.AtDesc r k .unpin b.toNat a.toNat pa nc := ⟨hblk, hplace, hd⟩
      have h := State.kvLane_stepped (cls := 0) hunpin ha (kvRefusal_unpin hpres hmin) rfl hv
      rw [kvStatus_zero, State.kvEnds_release _ _ _ rfl] at h
      exact congrArg Host.Outcome.next (word h (State.kept_all hvt))
  · intro s t o k pa nc a b hk hr h6 n cls p hatt hctx hblk addr hl
    have hplace : (s.locate k addr 8 2).2 = .at (.mem pa nc) := by rw [hl]
    have word {i : Instr} {op : KvOp} {z : State} {w : Word} (h4 : op ≠ .alloc → cls = 0)
        (h : s.kvLane k op n cls a.toNat = (z, doneWith [w])) (hz : ∀ k ∈ s.active s.here o.g, z.Kept s k) :
        s.kvWord i o op = z.deliver s o.g (.vec 1 o.d) false (one fun _ => w) noFlags :=
      State.kv_word hk hr h6 h4 hatt hctx h hz
    have halloc : s.AtDesc s k .alloc n a.toNat pa nc := ⟨hblk, hplace, rfl⟩
    refine ⟨fun u v d ha hpres hmov hf hv => ?_, ?_, ?_⟩
    · have h := State.kvLane_full halloc ha (kvRefusal_alloc hpres hmov) (State.kvPlan_alloc hf)
      rw [State.kvEnds_acquire _ _ _ rfl] at h
      exact congrArg Host.Outcome.next (word (fun h => absurd rfl h) h fun j hj => State.acquireAll_kept (State.kept_all hv j hj))
    · intro u v w x d e f page ha hpres hmov hf new hm hx hxt
      have h := State.kvLane_marked halloc ha (kvRefusal_alloc hpres hmov) (State.kvPlan_alloc hf) hm hx
      rw [State.kvEnds_acquire _ _ _ rfl] at h
      exact congrArg Host.Outcome.next (word (fun h => absurd rfl h) h fun j hj => State.acquireAll_kept (State.kept_all hxt j hj))
    · intro r u w x d e f hcls hd ha hpres hmov hmin page hpage hm hx hxt
      have hfree : s.AtDesc r k .free n a.toNat pa nc := ⟨hblk, hplace, hd⟩
      have h := State.kvLane_marked (cls := cls) hfree ha (kvRefusal_free hpres hmov hmin) (State.kvPlan_free hpage) hm hx
      rw [State.kvEnds_release _ _ _ rfl] at h
      exact congrArg Host.Outcome.next (word (fun _ => hcls) h (State.kept_all hxt))

end Sys2Proof
end

section
/-! KVX (16_attention 16.5). -/

namespace Sys2Proof.Machine

/-- The offset and the replay bit of a KVX in its thread's slot and predicate. -/
def State.kvGiven (s : State) (k : Nat) (o : KvxOp) (off : Word) (rep : Bool) : State :=
  s.modThread k fun x =>
    { x with
      preds := setPred x.preds (o.pm.zeroExtend 5) rep,
      vs := if noWrite o.od then x.vs else writeSlot x.vs (slotOfD o.od) off }

/-- Of a thread without pending tags KVX drops none. -/
theorem State.kvPut_untagged {s : State} {k : Nat} (h : (s.thread k).tags = []) (o : KvxOp) (r : KvRes) :
    s.kvPut k o r = s.kvGiven k o r.off r.rep := by
  have htags : ((s.kvGiven k o r.off r.rep).thread k).tags = [] := by
    rw [State.kvGiven, State.thread_modThread, if_pos rfl]
    exact h
  refine foldl_same _ _ _ fun x _ => State.dropTag_none fun p hp => ?_
  have hp : p ∈ ((s.kvGiven k o r.off r.rep).thread k).tags := hp
  rw [htags] at hp
  cases hp

theorem State.kvGiven_kept {s u : State} {k : Nat} (h : u.Kept s k) (o : KvxOp) (off : Word) (rep : Bool) :
    (u.kvGiven k o off rep).Kept s k := by
  obtain ⟨-, ht, hv⟩ := h
  have hk : (u.kvGiven k o off rep).thread k = { u.thread k with
      preds := setPred (u.thread k).preds (o.pm.zeroExtend 5) rep,
      vs := if noWrite o.od then (u.thread k).vs else writeSlot (u.thread k).vs (slotOfD o.od) off } := by
    rw [State.kvGiven, State.thread_modThread, if_pos rfl]
  refine ⟨?_, ?_, ?_⟩
  · exact Option.isSome_of_mem (Map.find?_set_same _ _ _)
  · rw [hk]
    exact ht
  · rw [hk]
    refine Eq.trans ?_ hv
    dsimp only
    split
    · rfl
    · exact writeSlots_regs _ _ [off]

section
variable {s t u v : State} {o : KvxOp} {k : Nat} {q x : Word}

/-- The one lane of a KVX is served where its offset slot is staged and the pool is its context's. -/
theorem State.kvx_served (hd : (s.thread k).dstOk (.vec 1 o.od) = true) (hp : (s.pool o.pool.toNat).att = true)
    (hc : (s.pool o.pool.toNat).ctx.toNat = s.ctxOf k) :
    [(k, [q, x])].filter (fun p => !(s.thread p.1).dstOk (.vec 1 o.od) || (s.poolFor o.pool.toNat (s.ctxOf p.1)).isNone) = [] := by
  simp [hd, State.poolFor_some hp hc]

/-- A position out of range. -/
theorem State.kvx_oor (hd : (s.thread k).dstOk (.vec 1 o.od) = true) (hp : (s.pool o.pool.toNat).att = true)
    (hc : (s.pool o.pool.toNat).ctx.toNat = s.ctxOf k) (ht : (t.thread k).tags = [])
    (hs : s.kvSpot k (s.pool o.pool.toNat) q.toNat x.toNat = (t, .oor)) :
    s.kvx o [(k, [q, x])] = ((t.kvGiven k o 0xFFFFFFFF false).acquire k, [(k, doneWith (words2 0))]) := by
  have hones : BitVec.allOnes 32 = (0xFFFFFFFF : Word) := rfl
  have hs' : s.kvSpot k (s.pool o.pool.toNat) (val [q, x] 0).toNat (val [q, x] 1).toNat = (t, .oor) := hs
  simp only [State.kvx, State.kvx_served hd hp hc, List.contains_nil, Bool.not_false, filter_always, State.kvSpots,
    List.foldl_cons, List.foldl_nil, hs', List.nil_append, List.filterMap_cons, List.filterMap_nil, List.any_cons, List.any_nil,
    Bool.or_false, State.kvBlocks, List.append_nil, allTrap, List.map_cons, List.map_nil, State.kvPut_untagged ht]
  rw [hones]
  exact if_neg (Bool.false_ne_true ·)

/-- A position of a block, whose descriptor one event reads. -/
theorem State.kvx_at {lbn off pa : Nat} {nc : Bool} {old : List Word} (hd : (s.thread k).dstOk (.vec 1 o.od) = true)
    (hp : (s.pool o.pool.toNat).att = true) (hc : (s.pool o.pool.toNat).ctx.toNat = s.ctxOf k) (ht : (v.thread k).tags = [])
    (hs : s.kvSpot k (s.pool o.pool.toNat) q.toNat x.toNat = (t, .at lbn off))
    (hg : isGlobal ((s.pool o.pool.toNat).descAddr lbn) = true) (hpin : o.pin ≠ 1)
    (hl : t.locate k ((s.pool o.pool.toNat).descAddr lbn) 8 0 = (u, .at (.mem pa nc)))
    (ha : u.atomPlace k ((s.pool o.pool.toNat).descAddr lbn) 2 (.mem pa nc) (fun old => old) = (v, .inl old)) :
    s.kvx o [(k, [q, x])] =
      ((v.kvGiven k o (BitVec.ofNat 32 off) (!(descPresent (val2 old 0) && !descMoving (val2 old 0)))).acquire k,
        [(k, doneWith (words2 (val2 old 0)))]) := by
  have hs' : s.kvSpot k (s.pool o.pool.toNat) (val [q, x] 0).toNat (val [q, x] 1).toNat = (t, .at lbn off) := hs
  have hblock : t.kvBlock (s.pool o.pool.toNat) (o.pin == 1) lbn [(k, off)] =
      (v, [(k, .inl ⟨val2 old 0, BitVec.ofNat 32 off, !(descPresent (val2 old 0) && !descMoving (val2 old 0))⟩)]) := by
    simp only [State.kvBlock, beq_eq_false_iff_ne.mpr hpin, hg, Bool.not_true, Bool.false_and, Bool.false_eq_true, ↓reduceIte,
      hl, ha,
      List.map_cons, List.map_nil]
  simp only [State.kvx, State.kvx_served hd hp hc, List.contains_nil, Bool.not_false, filter_always, State.kvSpots,
    List.foldl_cons, List.foldl_nil, hs', List.nil_append, List.filterMap_cons, List.filterMap_nil, List.any_nil,
      Bool.false_eq_true,
    ↓reduceIte, State.kvBlocks, BEq.rfl, hblock, List.append_nil, allTrap, List.map_cons, List.map_nil, State.kvPut_untagged ht]
  rfl

end

end Sys2Proof.Machine

namespace Sys2Proof
open Sys2Proof.Machine

/-- Settles O30: the one lane's spot, then at most one event on its descriptor. -/
theorem blockTranslation : Obligations.BlockTranslation := by
  intro s t o k q x hk hr hd htags p hatt hctx put answer
  have hact : s.active s.here 7 = [k] := hk
  have tags {w : State} (h : w.fab = s.fab) : (w.thread k).tags = [] := by
    rw [State.thread, h]
    exact htags
  have word {w : State} {off : Word} {rep : Bool} {d : DWord}
      (h : s.kvx o [(k, [q, x])] = ((w.kvGiven k o off rep).acquire k, [(k, doneWith (words2 d))])) (hw : w.fab = s.fab) :
      exec (.kvx o) s = .next (answer (w.kvGiven k o off rep) d) := by
    refine congrArg Host.Outcome.next (State.groupWord_gives hr (by simp) (fun _ => words2 d) noFlags ?_ ?_)
    · rw [hact, List.map_cons, List.map_nil, h]
      exact State.memDone_dw
    · intro j hj
      have hj' : j = k := by
        rw [hact] at hj
        exact List.mem_singleton.mp hj
      have hkept : w.Kept s j := State.kept_fab hw hj
      rw [hj'] at hkept ⊢
      exact State.acquireAll_kept (State.kvGiven_kept hkept o off rep)
  refine ⟨fun hs hf => word (State.kvx_oor hd hatt hctx (tags hf) hs) hf, ?_⟩
  intro lbn off pa nc u v old hs hf hg hpin hl ha
  exact word (State.kvx_at hd hatt hctx (tags hf) hs hg hpin hl ha) hf

end Sys2Proof
end

section
/-! Work queues and arrival counters (16_attention 16.6). -/

namespace Sys2Proof.Machine

section
variable {s t u v w z : State} {i : Instr} {k q slot : Nat} {a : DWord} {p r : Place} {ops ws old : List Word} {d : BitVec 5}

/-- A WQPUSH whose item is read and whose queue has room appends it. -/
theorem State.wqpush_of (hc : s.wqCheck i k (val2 ops 0) (val ops 2).toNat = .inl q) (hd : s.drainAll [k] = (t, true))
    (hl : t.locate k (val2 ops 0) 32 0 = (u, .at p)) (hr : u.readPlace k 0 (val2 ops 0) 8 p = (v, .inl ws)) (h0 : val ws 0 ≠ 0)
    (hopen : (v.wq q).closed = false) (hroom : (v.wq q).count < 2 ^ (v.wq q).logd.toNat)
    (hs : v.locate k ((v.wq q).slotAddr ((v.wq q).head + (v.wq q).count)) 32 1 = (w, .at r))
    (ha : w.atomPlace k ((v.wq q).slotAddr ((v.wq q).head + (v.wq q).count)) 8 r (fun _ => ws) = (z, .inl old)) :
    s.wqpush i [(k, ops)] =
      ((z.setWq q { v.wq q with count := (v.wq q).count + 1, pushed := (v.wq q).pushed + 1 }).wqAssign q, [(k, doneWith [])]) := by
  have hroom' : ¬ 2 ^ (v.wq q).logd.toNat ≤ (v.wq q).count := Nat.not_le.mpr hroom
  have h0' : (val ws 0 == 0) = false := beq_eq_false_iff_ne.mpr h0
  simp only [State.wqpush, hc, List.map_cons, List.map_nil, hd, hl, hr, h0', hopen, hroom', hs, ha, decide_false, Bool.or_false,
    Bool.not_true, Bool.false_eq_true, ↓reduceIte, allDone]

/-- A WQPULL takes a future and asks its queue for an item. -/
theorem State.wqpull_of (hc : s.wqCheck i k (val2 ops 0) (val ops 2).toNat = .inl q) (hf : s.freeSlot (coreOf k) = .inl slot)
    (hd : s.drainAll [k] = (t, true)) (hu : u = t.newFuture (coreOf k) slot 7 (if noWrite d then 0 else 1) none) :
    s.wqpull i d [(k, ops)] =
      ((u.setWq q { u.wq q with
          pulls := (u.wq q).pulls ++ [⟨coreOf k, s.ctxOf k, val2 ops 0, some slot, none, none⟩] }).wqAssign q, handed [(k, ops)]
            [] 7 slot) := by
  have hh : holders d [(k, ops)] = if noWrite d then 0 else 1 := rfl
  simp only [State.wqpull, hc, hf, List.map_cons, List.map_nil, hd, hh, ← hu, Bool.not_true, Bool.false_eq_true, ↓reduceIte]

/-- A LASTARR counts its arrival down, and is an acquire point where it is the last. -/
theorem State.lastArr_of (hl : (s.locate k a 4 2).2 = .at p) (hd : s.drain k = (t, true))
    (ha : t.atomAt k a 1 (fun old => [if val old 0 == 0 then 0 else val old 0 - 1]) = (u, .inl old)) :
    s.lastArr k a = (if val old 0 = 1 then u.acquire k else u, doneWith [if val old 0 = 1 then 1 else 0]) := by
  have hl' : s.locate k a 4 2 = ((s.locate k a 4 2).1, .at p) := Prod.ext rfl hl
  unfold State.lastArr
  rw [hl']
  simp only [hd, ha, Bool.not_true, Bool.false_eq_true, ↓reduceIte]
  by_cases h : val old 0 = 1
  · simp [h, b2n]
  · have h' : (val old 0 == 1) = false := beq_eq_false_iff_ne.mpr h
    rw [h', if_neg h, if_neg h]
    rfl

end

end Sys2Proof.Machine

namespace Sys2Proof
open Sys2Proof.Machine

/-- Settles O31: the words of one lane, past their checks and their thread's stores. -/
theorem workQueues : Obligations.WorkQueues := by
  refine ⟨?_, ?_, ?_⟩
  · intro s t u v w o k rd p r ws old hk hr a q hc hd hl hrd h0 hopen hroom slot hs z ha
    have hact : s.active s.here o.g = [k] := hk
    have hpush := State.wqpush_of hc hd hl hrd h0 hopen hroom hs ha
    refine congrArg Host.Outcome.next (State.groupWord_none hr (outs := [(k, doneWith [])]) ?_ fun p hp => ?_)
    · rw [hact, List.map_cons, List.map_nil, State.yard_sole, hpush]
      exact State.memDone_dw
    · rw [List.mem_singleton.mp hp]
      exact ⟨_, rfl⟩
  · intro s t o k slot rd hk hr a q hc hf hd u x v hv
    have hact : s.active s.here o.g = [k] := hk
    have hpull := State.wqpull_of (d := o.d) (u := u) hc hf hd rfl
    have hkept : v.Kept s k := State.kept_all hv k (by rw [hact]; exact List.mem_singleton_self k)
    refine congrArg Host.Outcome.next (State.groupWord_tagged hr hk ?_ hkept)
    rw [State.yard_sole, hpull, State.memDone_handed]
    rfl
  · intro s t u o k rd p old hk hr a hl hd ha hu
    have hact : s.active s.here o.g = [k] := hk
    refine congrArg Host.Outcome.next (State.groupWord_gives hr (by simp) _ noFlags ?_ ?_)
    · rw [hact, List.map_cons, List.map_nil, State.eachLane_single, State.lastArr_of hl hd ha]
      exact State.memDone_dw
    · intro j hj
      split
      · exact State.acquireAll_kept (State.kept_all hu j hj)
      · exact State.kept_all hu j hj

end Sys2Proof
end

section
/-! Waits that end (03_threads 3.7 to 3.9, 05_registers 5.3). -/

namespace Sys2Proof.Machine

/-- Members whose stores are registered are let through their rendezvous. -/
theorem State.letThrough_of {s t : State} {ks : List Nat} (h : s.drainAll ks = (t, true)) :
    s.letThrough ks = ks.foldl (fun u j => (u.modThread j fun x => { x with released := some t.serialNo }).ready j)
      ((t.bumpSerial.snapshot t.serialNo ks).acquireAll ks) := by
  unfold State.letThrough
  rw [h]
  rfl

/-- A phase of cleats that is done releases its signers, where its operation is SIGN. -/
theorem State.cleatRelease_sign {s t : State} {core cleat r : Nat} (hr : (s.cleat (core, cleat)).rig = some r)
    (hd : s.phaseDone r = true) (hop : s.phaseOp r = .sign) (ht : s.drainAll ((s.rigSigners r).map fun x => x.thread) = (t, true)) :
    execCleatRelease core cleat s = .next
      (((((t.acquireAll ((s.rigSigners r).map fun x => x.thread)).rigCleats r).foldl (fun u c => u.modCleat c fun x =>
        { x with opened := false, signs := [], phase := x.phase + 1 })
          (t.acquireAll ((s.rigSigners r).map fun x => x.thread)))).signersGo
          (s.rigSigners r)) := by
  simp only [execCleatRelease, hr, hd, hop, ht, Bool.not_true, Bool.false_eq_true, ↓reduceIte, BEq.rfl]

/-- A phase of cleats that is not done in time traps its signers. -/
theorem State.cleatTimeout_of {s : State} {core cleat r : Nat} (hr : (s.cleat (core, cleat)).rig = some r)
    (ho : (s.cleat (core, cleat)).opened = true) (hin : s.coreIn core = true) (hd : s.phaseDone r = false)
    (ht : Config.timeout ≤ s.now - (s.cleat (core, cleat)).first) :
    execCleatTimeout core cleat s = .next ((((s.rigCleats r).foldl (fun u d => u.modCleat d fun x =>
      { x with fault := x.opened }) s).clearPhase r).raiseAt .rig ((s.rigSigners r).map fun x => (x.thread, x.pc, x.w,
        timeoutTrap (s.cleat (core, cleat)).addr 1))) := by
  have hlate : ¬ s.now - (s.cleat (core, cleat)).first < Config.timeout := Nat.not_lt.mpr ht
  simp only [execCleatTimeout, hr, ho, hin, hd, hlate, decide_false, Bool.not_true, Bool.or_false, Bool.false_eq_true, ↓reduceIte]

/-- The newest request of a deadlocked partition is withdrawn. -/
theorem State.poolDeadlock_of {s : State} {core part : Nat} {r : HoistReq}
    (hr : (s.part (partKey core part)).hoistq.getLast? = some r) (hd : s.deadlocked (partKey core part) = true) :
    execPoolDeadlock core part s = .next (((((s.postRecord 7 0 ((s.core core).ctx) 0 [BitVec.ofNat 32 core, BitVec.ofNat 32 part,
      BitVec.ofNat 32 (((s.part (partKey core part)).hoistq.map fun x => x.members.length).sum)]).send
        (.report 4 [core, part, ((s.part (partKey core part)).hoistq.map fun x => x.members.length).sum])).modPart
          (partKey core part)
          fun q => { q with hoistq := q.hoistq.dropLast })).raiseAt .yard
      (r.members.map fun k => (k, (s.thread k).pc, (s.thread k).wpos, trapOf 0x10 2))) := by
  simp only [execPoolDeadlock, hr, hd, Bool.not_true, Bool.false_eq_true, ↓reduceIte]

end Sys2Proof.Machine

namespace Sys2Proof
open Sys2Proof.Machine

/-- Settles O33: each event acts where its condition holds. -/
theorem waitsEnd : Obligations.WaitsEnd := by
  refine ⟨?_, ?_, ?_, ?_, ?_⟩
  · intro s t k hk hc hd
    have hgo : ((s.thread k).atRendezvous && s.complete k) = true := by rw [hk, hc]; rfl
    exact congrArg Host.Outcome.next ((if_pos hgo).trans (State.letThrough_of hd))
  · intro s k hw hres ht
    have hgo : ((s.thread k).waitSince.isSome && (s.ctx (s.ctxOf k)).resident &&
        decide (Config.timeout ≤ s.now - s.waitStart (s.waitersWith k))) = true := by rw [hw, hres, decide_eq_true ht]; rfl
    exact congrArg Host.Outcome.next (if_pos hgo)
  · intro s t core cleat r hr hd hop ks ht u
    exact State.cleatRelease_sign hr hd hop ht
  · intro s core cleat r c hr ho hin hd ht
    exact State.cleatTimeout_of hr ho hin hd ht
  · intro s core part r p hr hd n
    exact State.poolDeadlock_of hr hd

end Sys2Proof
end

section
/-! Launches, near-data packets and the consumption of queues (13_async R286 to R288, R300, R301). -/

namespace Sys2Proof.Machine

/-! ### The loader -/

theorem State.launchOn_overQuota {s : State} {l : Launch} (image : Option Image) (key : DWord) (places : List (Nat × Nat))
    (h : s.overQuota l.ctx = true) : s.launchOn l image key places = s.launchEnd l 1 14 := if_pos h

/-- A launch whose header cannot be accepted ends with status 15. -/
theorem State.launchOn_noKernel {s u : State} {l : Launch} {image : Option Image} {key : DWord} {head : List Byte}
    (places : List (Nat × Nat)) (hq : s.overQuota l.ctx = false) (hr : s.kernelRead l image 0 64 = (u, .ok head))
    (hk : kernelOf key head = none) : s.launchOn l image key places = u.launchEnd l 1 15 := by
  simp only [State.launchOn, hq, hr, hk, Bool.false_eq_true, ↓reduceIte]

/-- A launch whose binary is too short for its header ends with status 15. -/
theorem State.launchOn_tooShort {s u : State} {l : Launch} {image : Option Image} {key : DWord} {head : List Byte} {k : Kernel}
    (places : List (Nat × Nat)) (hq : s.overQuota l.ctx = false) (hr : s.kernelRead l image 0 64 = (u, .ok head))
    (hk : kernelOf key head = some k) (ht : tooShort l image k = true) :
    s.launchOn l image key places = u.launchEnd l 1 15 := by
  simp only [State.launchOn, hq, hr, hk, ht, Bool.false_eq_true, ↓reduceIte]

/-- A launch that firmware refuses to place ends with status 16. -/
theorem State.launchOn_nowhere {s u : State} {l : Launch} {image : Option Image} {key : DWord} {head : List Byte} {k : Kernel}
    (hq : s.overQuota l.ctx = false) (hr : s.kernelRead l image 0 64 = (u, .ok head))
    (hk : kernelOf key head = some k) (ht : tooShort l image k = false) :
    s.launchOn l image key [] = u.launchEnd l 1 16 := by
  simp only [State.launchOn, hq, hr, hk, ht, List.isEmpty_nil, Bool.false_eq_true, ↓reduceIte]

/-- A launch whose binary is read is placed, or nothing happens. -/
theorem State.launchOn_places {s u v : State} {l : Launch} {image : Option Image} {key : DWord} {head code : List Byte}
    {k : Kernel} {places : List (Nat × Nat)} (hq : s.overQuota l.ctx = false)
    (hr : s.kernelRead l image 0 64 = (u, .ok head)) (hk : kernelOf key head = some k) (ht : tooShort l image k = false)
    (hp : places ≠ []) (hc : u.kernelRead l image 64 (12 * k.packets) = (v, .ok code)) :
    s.launchOn l image key places = (v.place l k code places).getD s := by
  have hne : places.isEmpty = false := by rwa [List.isEmpty_eq_false_iff]
  simp only [State.launchOn, hq, hr, hk, ht, hne, hc, Bool.false_eq_true, ↓reduceIte]

theorem execLaunch_of {s : State} {n : Nat} {l : Launch} (h : s.launchOf n 2 = some l) (places : List (Nat × Nat)) :
    execLaunch n places s = .next (s.launchOn l none (val2 l.packet 4) places) := by
  simp only [execLaunch, h]

/-- A near-data packet that its checks refuse ends with their status. -/
theorem execNearDataPacket_refused {s : State} {n st : Nat} {l : Launch} (h : s.launchOf n 4 = some l)
    (hc : s.ndCheck l = .inr st) (places : List (Nat × Nat)) :
    execNearDataPacket n places s = .next (s.launchEnd l 1 st) := by
  simp only [execNearDataPacket, h, hc]

/-- A near-data packet whose launch goes on advances the counter of its session. -/
theorem execNearDataPacket_launched {s : State} {n : Nat} {l : Launch} {x : Session} {i : Image} {places : List (Nat × Nat)}
    (h : s.launchOf n 4 = some l) (hc : s.ndCheck l = .inl (x, i))
    (ht : s.launchOn l (some i) (imageKey x.world i.num) places ≠ s) :
    execNearDataPacket n places s = .next ((s.launchOn l (some i) (imageKey x.world i.num) places).setTrust
      { (s.launchOn l (some i) (imageKey x.world i.num) places).trust with
        nd := (s.launchOn l (some i) (imageKey x.world i.num) places).trust.nd.map fun y =>
          if y.num = x.num then { y with last := val2 l.packet 10 } else y }) := by
  simp only [execNearDataPacket, h, hc, beq_eq_false_iff_ne.mpr ht, Bool.false_eq_true, ↓reduceIte, beq_iff_eq]

/-! ### The header of a queue and the packet in its slot -/

theorem execQueueConsume_open {s : State} {slot : Nat} (ho : s.queueOpen slot = true) (hb : s.queueBefore slot = false) :
    execQueueConsume slot s =
      .next (s.queueNext slot fun s2 ridx ws => s2.queueStart slot (s2.queueCluster (s2.qslot slot)) ridx ws) := by
  simp only [execQueueConsume, ho, hb, Bool.not_true, Bool.or_self, Bool.false_eq_true, ↓reduceIte]

/-- An empty ring has no packet due. -/
theorem State.queueNext_empty {s t : State} {slot : Nat} {idx : List Byte} {f : State → Word → List Word → State}
    (hr : s.engineRead (s.queueCluster (s.qslot slot)) (s.qslot slot).ctx.toNat (s.qslot slot).hdr 8 = (t, .ok idx))
    (he : wordAt idx 0 = wordAt idx 4) : s.queueNext slot f = t := by
  simp only [State.queueNext, hr, State.queueAcc, he, BEq.rfl, ↓reduceIte]

/-- A ring that is not empty has the packet in the slot at RIDX due, where the slot's SEQ matches. -/
theorem State.queueNext_slot {s t u : State} {slot : Nat} {idx bs : List Byte} {f : State → Word → List Word → State}
    (hr : s.engineRead (s.queueCluster (s.qslot slot)) (s.qslot slot).ctx.toNat (s.qslot slot).hdr 8 = (t, .ok idx))
    (he : wordAt idx 0 ≠ wordAt idx 4)
    (hs : t.engineRead (s.queueCluster (s.qslot slot)) (s.qslot slot).ctx.toNat
      ((s.qslot slot).ring + BitVec.ofNat 64 (64 * ((wordAt idx 4).toNat % 2 ^ (s.qslot slot).logd))) 64 = (u, .ok bs)) :
    s.queueNext slot f = if wordAt bs 0 = wordAt idx 4 then f u (wordAt idx 4) (toWords bs) else u := by
  simp only [State.queueNext, hr, State.queueAcc, beq_eq_false_iff_ne.mpr he, hs, Bool.false_eq_true, ↓reduceIte, bne_iff_ne, ne_eq,
    ite_not]

/-! ### The packet's operation -/

/-- What a consumer leaves when it has advanced RIDX past a slot. -/
def State.consumed (v : State) (slot : Nat) (q : QSlot) : State :=
  (v.setQslot slot { v.qslot slot with failed := none }).setEng
    { (v.setQslot slot { v.qslot slot with failed := none }).eng with
      turn := Map.set (v.setQslot slot { v.qslot slot with failed := none }).eng.turn q.consumer (slot + 1) }

theorem State.queueTake_of {s v : State} {slot cl : Nat} {ridx : Word} {bs : List Byte} (f : State → State)
    (h : s.engineWrite cl (s.qslot slot).ctx.toNat s.manager ((s.qslot slot).hdr + 4) (bytesOf (ridx + 1)) = (v, .ok bs)) :
    s.queueTake slot cl ridx f = f (v.consumed slot (s.qslot slot)) := by
  simp only [State.queueTake, h]
  rfl

/-- A packet of another kind than the consumer's, or whose header is wrong, is taken and fails. -/
theorem State.queueStart_refused {s : State} {slot cl : Nat} {ridx : Word} {ws : List Word}
    (h : headerOk ws = false ∨ accepts (s.qslot slot).ckind.toNat (kindOf ws) = false) :
    s.queueStart slot cl ridx ws = s.queueTake slot cl ridx fun s => s.packetEnd slot cl ws 1 9 := by
  refine if_pos ?_
  rcases h with h | h
  · rw [h]; rfl
  · rw [h, Bool.not_false, Bool.or_true]

theorem State.queueStart_nop {s : State} {slot cl : Nat} {ridx : Word} {ws : List Word} (h : headerOk ws = true)
    (hk : kindOf ws = 0) : s.queueStart slot cl ridx ws = s.queueTake slot cl ridx fun s => s.packetEnd slot cl ws 0 0 := by
  simp only [State.queueStart, h, hk, accepts, BEq.rfl, Bool.true_or, Bool.not_true, Bool.or_self, Bool.false_eq_true, ↓reduceIte]

theorem State.queueStart_launch {s : State} {slot cl : Nat} {ridx : Word} {ws : List Word} (h : headerOk ws = true)
    (hk : kindOf ws = 2) (hq : (s.qslot slot).ckind.toNat = 2) (hl : launchOk ws = true) :
    s.queueStart slot cl ridx ws = s.queueTake slot cl ridx fun t => t.appendLaunch (s.qslot slot).ctx.toNat 2 ws := by
  simp only [State.queueStart, h, hk, hq, hl, accepts, BEq.rfl, Bool.or_true, Bool.not_true, Bool.or_self, Bool.false_eq_true,
    ↓reduceIte]

end Sys2Proof.Machine

namespace Sys2Proof
open Sys2Proof.Machine

/-- Settles O34: the loader's cases, and the packet in the slot at RIDX. -/
theorem launchAndQueueEvents : Obligations.LaunchAndQueueEvents := by
  refine ⟨⟨?_, ?_, ?_⟩, ?_⟩
  · intro s u v n places l k head code hl hq hr hk ht hp hc
    have hon := (execLaunch_of hl places).trans (congrArg Host.Outcome.next (State.launchOn_places hq hr hk ht hp hc))
    refine ⟨fun w hw => ?_, fun hw => ?_⟩
    · rw [hw] at hon; exact hon
    · rw [hw] at hon; exact hon
  · intro s u n places l head hl
    have hon := execLaunch_of hl
    refine ⟨fun hq => (hon places).trans (congrArg Host.Outcome.next (State.launchOn_overQuota _ _ _ hq)), fun hq hr =>
      ⟨fun hk => ?_, fun k hk => ⟨fun ht => ?_, fun ht => ?_⟩⟩⟩
    · exact (hon places).trans (congrArg Host.Outcome.next (State.launchOn_noKernel _ hq hr hk))
    · exact (hon places).trans (congrArg Host.Outcome.next (State.launchOn_tooShort _ hq hr hk ht))
    · exact (hon []).trans (congrArg Host.Outcome.next (State.launchOn_nowhere hq hr hk ht))
  · intro s n places l hl
    refine ⟨fun st hc => execNearDataPacket_refused hl hc places, ?_⟩
    intro x i hc t ht
    exact execNearDataPacket_launched hl hc ht
  · intro s t u slot idx bs q c cl ho hb hr
    have hcon := execQueueConsume_open ho hb
    refine ⟨fun he => hcon.trans (congrArg Host.Outcome.next (State.queueNext_empty hr he)), fun he hs => ?_⟩
    have hslot := hcon.trans (congrArg Host.Outcome.next (State.queueNext_slot hr he hs))
    refine ⟨fun hne => by rw [if_neg hne] at hslot; exact hslot, ?_⟩
    intro heq hq hcl v hw x w ws
    rw [if_pos heq, hq, hcl] at hslot
    have htake (f : State → State) : u.queueTake slot cl (wordAt idx 4) f = f w := by
      rw [State.queueTake_of (v := v) (bs := []) f (by rw [hq]; exact hw), hq]
      rfl
    refine ⟨fun h => ?_, fun h hk => ?_, fun h hk hck hl => ?_⟩
    · rw [← hq] at h
      exact hslot.trans (congrArg Host.Outcome.next ((State.queueStart_refused h).trans (htake _)))
    · exact hslot.trans (congrArg Host.Outcome.next ((State.queueStart_nop h hk).trans (htake _)))
    · rw [← hq] at hck
      have hst := State.queueStart_launch (cl := cl) (ridx := wordAt idx 4) h hk hck hl
      rw [hq] at hst
      exact hslot.trans (congrArg Host.Outcome.next (hst.trans (htake _)))

end Sys2Proof
end

section
/-! Engines and the matrix queue (13_async R289, R291; 04_control R108, R115; 14_matrix R326 to R328). -/

namespace Sys2Proof.Machine

/-- A search finds the first element that satisfies it. -/
theorem find?_first {α : Type} {p : α → Bool} {xs l r : List α} {x : α} (h : xs = l ++ x :: r) (hl : ∀ y ∈ l, p y = false)
    (hx : p x = true) : xs.find? p = some x :=
  List.find?_eq_some_iff_append.mpr ⟨hx, l, r, h, fun y hy => by rw [hl y hy]; rfl⟩

/-! ### Cancellation -/

theorem execEngineCancel_asked {s : State} {core slot : Nat} {f : Fut} (hf : Map.find? (s.core core).futs slot = some f)
    (hc : f.cancel = true) (hr : f.res = none) : execEngineCancel core slot s = .next (s.cancelFuture core slot) := by
  simp only [execEngineCancel, hf, hc, hr, Option.isNone_none, Bool.and_self, ↓reduceIte]

theorem State.cancelFuture_copy {s : State} {core slot : Nat} {x : Copy}
    (h : s.eng.copies.find? (fun x => x.fut == some (core, slot)) = some x) : s.cancelFuture core slot = s.copyEnd x 2 0 := by
  simp only [State.cancelFuture, h]

theorem State.cancelFuture_running {s : State} {core slot : Nat} {o : MatOp}
    (h : s.eng.copies.find? (fun x => x.fut == some (core, slot)) = none) (ho : (s.core core).mrun = some o)
    (hs : o.slot = some slot) : s.cancelFuture core slot = s.matEnd core o 2 0 := by
  have hf : [o].find? (fun o => o.slot == some slot) = some o := by simp [hs]
  simp only [State.cancelFuture, h, ho, Option.toList_some, hf]

theorem State.cancelFuture_queued {s : State} {core slot : Nat}
    (h : s.eng.copies.find? (fun x => x.fut == some (core, slot)) = none)
    (hr : ∀ o, (s.core core).mrun = some o → o.slot ≠ some slot) (hq : ∃ o ∈ (s.core core).mqueue, o.slot = some slot) :
    s.cancelFuture core slot = (s.modCore core fun c =>
      { c with mqueue := c.mqueue.filter fun o => o.slot != some slot }).resolve core slot 2 0 := by
  have hf : (s.core core).mrun.toList.find? (fun o => o.slot == some slot) = none := by
    simpa [List.find?_eq_none] using hr
  have hany : (s.core core).mqueue.any (fun o => o.slot == some slot) = true := by
    simpa [List.any_eq_true] using hq
  simp only [State.cancelFuture, h, hf, hany, ↓reduceIte]

/-! ### The matrix queue -/

/-- The first released operation enters the queue while it has room. -/
theorem execMatrixQueueEnter_plain {s : State} {core : Nat} {o : MatOp} {r : List MatOp}
    (hm : (s.core core).mreleased = o :: r) (hq : (s.core core).mqueue.length < 8) (hw : o.wantsFuture = false) :
    execMatrixQueueEnter core s = .next (s.enterQueue core o none) := by
  simp only [execMatrixQueueEnter, hm, Nat.not_le.mpr hq, hw, Bool.not_false, ↓reduceIte]

theorem execMatrixQueueEnter_future {s : State} {core i : Nat} {o : MatOp} {r : List MatOp}
    (hm : (s.core core).mreleased = o :: r) (hq : (s.core core).mqueue.length < 8) (hw : o.wantsFuture = true)
    (hi : s.freeSlot core = .inl i) : execMatrixQueueEnter core s = .next (s.enterQueue core o (some i)) := by
  simp only [execMatrixQueueEnter, hm, Nat.not_le.mpr hq, hw, hi, Bool.not_true, Bool.false_eq_true, ↓reduceIte]

theorem execMatrixOpStart_running {s : State} {core : Nat} {o : MatOp} (hp : (s.core core).preempt = false)
    (ho : (s.core core).mrun = some o) : execMatrixOpStart core s = .next (s.matStep core o) := by
  simp only [execMatrixOpStart, hp, ho, Bool.false_eq_true, ↓reduceIte]

theorem execMatrixOpStart_head {s : State} {core : Nat} {o : MatOp} {r : List MatOp} (hp : (s.core core).preempt = false)
    (hm : (s.core core).mrun = none) (hq : (s.core core).mqueue = o :: r) :
    execMatrixOpStart core s = .next ((s.modCore core fun c => { c with mqueue := r }).matStep core o) := by
  simp only [execMatrixOpStart, hp, hm, hq, Bool.false_eq_true, ↓reduceIte]

/-- MZERO clears its bank in one step. -/
theorem State.matStep_mzero (s : State) (core : Nat) {o : MatOp} (ho : o.op = .mzero) (hp : o.parked = none) (hb : o.block = 0) :
    s.matStep core o = (s.zeroBank core ((val o.vals 0).toNat % 2)).runOp core { o with block := 1 } := by
  have hf : (o.parked.isSome || o.finished) = false := by
    simp [hp, MatOp.finished, ho, hb]
  simp only [State.matStep, hf, ho, Bool.false_eq_true, ↓reduceIte]

theorem execMatrixOpComplete_of {s : State} {core : Nat} {o : MatOp} (ho : (s.core core).mrun = some o)
    (hf : o.finished = true) : execMatrixOpComplete core s = .next (s.matEnd core o 0 0) := by
  simp only [execMatrixOpComplete, ho, hf, ↓reduceIte]

/-! ### Copies -/

theorem execCopyComplete_of {s : State} {n rows : Nat} {x : Copy}
    (h : s.eng.copies.find? (fun x => x.num == n && x.seg.isNone && x.parked.isNone) = some x) :
    execCopyComplete n rows s = .next (s.runCopy x rows) := by
  simp only [execCopyComplete, h]

theorem execSegmentLanded_of {s : State} {core seg : Nat} {x : Copy}
    (h : s.eng.copies.find? (fun x => x.seg == some (core, seg) && x.parked.isNone) = some x) :
    execSegmentLanded core seg s = .next (s.landSegment x core seg) := by
  simp only [execSegmentLanded, h]

end Sys2Proof.Machine

namespace Sys2Proof
open Sys2Proof.Machine

/-- Settles O35: each event acts on the copy, the operation or the slot that its search finds. -/
theorem engineAndMatrixEvents : Obligations.EngineAndMatrixEvents := by
  refine ⟨⟨?_, ?_, ?_, ?_, ?_⟩, ?_, ?_, ?_⟩
  · intro s slot v hs hv
    have hgo : (decide (slot < 128) && v.getLsbD 0) = true := by rw [decide_eq_true hs, hv]; rfl
    exact congrArg Host.Outcome.next (if_pos hgo)
  · intro s slot hs ha
    have hgo : (decide (slot < 128) && (s.qslot slot).att) = true := by rw [decide_eq_true hs, ha]; rfl
    exact congrArg Host.Outcome.next (if_pos hgo)
  · intro s n rows x l r h hl hn hs hp
    refine execCopyComplete_of (find?_first h (fun y hy => ?_) (by simp [hn, hs, hp]))
    rw [beq_eq_false_iff_ne.mpr (hl y hy), Bool.false_and, Bool.false_and]
  · intro s core seg x l r h hl hs hp
    refine execSegmentLanded_of (find?_first h (fun y hy => ?_) (by simp [hs, hp]))
    rw [beq_eq_false_iff_ne.mpr (hl y hy), Bool.false_and]
  · intro s core slot f hf hc hr
    have hgo := execEngineCancel_asked hf hc hr
    refine ⟨fun x l r h hl hx => ?_, fun hno => ?_⟩
    · exact hgo.trans (congrArg Host.Outcome.next (State.cancelFuture_copy
        (find?_first h (fun y hy => beq_eq_false_iff_ne.mpr (hl y hy)) (beq_iff_eq.mpr hx))))
    · have hnone : s.eng.copies.find? (fun x => x.fut == some (core, slot)) = none := by
        simpa [List.find?_eq_none] using hno
      exact ⟨fun o ho hs => hgo.trans (congrArg Host.Outcome.next (State.cancelFuture_running hnone ho hs)),
        fun hrun hq => hgo.trans (congrArg Host.Outcome.next (State.cancelFuture_queued hnone hrun hq))⟩
  · intro s core o r hm hq
    exact ⟨execMatrixQueueEnter_plain hm hq, fun i hw hi => execMatrixQueueEnter_future hm hq hw hi⟩
  · intro s core hp
    refine ⟨fun o ho => execMatrixOpStart_running hp ho, fun o r hm hq ho hpk hb => ?_⟩
    exact (execMatrixOpStart_head hp hm hq).trans (congrArg Host.Outcome.next (State.matStep_mzero _ core ho hpk hb))
  · intro s core o ho hf
    exact execMatrixOpComplete_of ho hf

end Sys2Proof
end

section
/-! Registration, walks, replay, delivery and shootdown (09_memory 9.4, 12_translation 12.2 to 12.5). -/

namespace Sys2Proof.Machine

/-! ### Registration and walks -/

/-- The registration of a pending store takes the oldest store of its thread to its word. -/
theorem execStoreRegistrationAck_of {s t : State} {n : Nat} {p q : Pend} (late : List Nat) (drop ready : Bool)
    (hp : s.mem.pend[n]? = some p) (hq : s.mem.pend.find? (fun q => q.thread == p.thread && q.word == p.word) = some q)
    (hd : s.dirAccess q.word true q.nc = (t, ready)) :
    execStoreRegistrationAck n late drop s = .next (if ready then t.register q drop late else t) := by
  simp only [execStoreRegistrationAck, hp, Option.bind_some, hq, hd]

theorem execWalkComplete_of {s : State} {n : Nat} {w : Walk} (hw : s.mem.walks[n]? = some w) :
    execWalkComplete n s = .next (if s.slotFor w.cluster w.ctx w.vpage then
      (s.walkNow w.cluster w.cores.head? w.ctx w.vpage w.kind).1 else s) := by
  simp only [execWalkComplete, hw]

/-! ### Fault buffers -/

/-- Values collected one after another, each once, are those of the list. -/
theorem mem_foldl_unlessIn {α : Type} (f : α → Nat) (n : Nat) (xs : List α) (l : List Nat) :
    n ∈ xs.foldl (fun l i => if l.contains (f i) then l else l ++ [f i]) l ↔ n ∈ l ∨ ∃ i ∈ xs, f i = n := by
  induction xs generalizing l with
  | nil => simp
  | cons x xs ih =>
    rw [List.foldl_cons, ih]
    have hhead : n ∈ (if l.contains (f x) then l else l ++ [f x]) ↔ n ∈ l ∨ f x = n := by
      split
      · next hx => exact ⟨.inl, fun h => h.elim id fun e => e ▸ List.contains_iff_mem.mp hx⟩
      · rw [List.mem_append, List.mem_singleton, eq_comm]
    rw [hhead, or_assoc]
    simp only [List.mem_cons, or_and_right, exists_or, exists_eq_left]

/-- A context is resident in a cluster where it is resident and holds a core there. -/
theorem State.residentIn_iff {s : State} {cluster ctx : Nat} : s.residentIn cluster ctx = true ↔
    (s.ctx ctx).resident = true ∧ ∃ i ∈ (s.ctx ctx).cores, clusterOf i = cluster := by
  rw [State.residentIn, State.clustersOf, Bool.and_eq_true, List.contains_iff_mem, mem_foldl_unlessIn,
    or_iff_right List.not_mem_nil]

theorem execFbdeliver_of {s t : State} {cluster entry : Nat} {e : FbEntry} (h : Map.find? (s.fb cluster).entries entry = some e)
    (ht : (((s.deliverThreads cluster e).deliverCopies cluster e).deliverEnds cluster e).deliverCores cluster e = t) :
    execFbdeliver cluster entry s = .next (t.setFb cluster { t.fb cluster with
      entries := Map.del (t.fb cluster).entries entry,
      drops := if ((Map.del (t.fb cluster).entries entry).isEmpty && (t.fb cluster).dropctx == 0) = true then 0
        else (t.fb cluster).drops }) := by
  simp only [execFbdeliver, h, ht]

/-! ### Shootdown -/

theorem execInterruptFileWrite_starts {s : State} {v : Word} (h0 : s.status.sdid ≠ 0) (hv : v = s.status.sdid.zeroExtend 32)
    (ha : s.mem.sd.ackseq ≠ s.mem.sd.seq) :
    execInterruptFileWrite v s = .next (s.setSd { s.mem.sd with running := true }) := by
  refine congrArg Host.Outcome.next (if_pos ?_)
  rw [bne_iff_ne.mpr h0, beq_iff_eq.mpr hv, bne_iff_ne.mpr ha]
  rfl

theorem execInterruptFileWrite_still {s : State} {v : Word}
    (h : s.status.sdid = 0 ∨ v ≠ s.status.sdid.zeroExtend 32 ∨ s.mem.sd.ackseq = s.mem.sd.seq) :
    execInterruptFileWrite v s = .next s := by
  refine congrArg Host.Outcome.next (if_neg ?_)
  simp only [Bool.and_eq_true, bne_iff_ne, beq_iff_eq, Classical.not_and_iff_not_or_not, Classical.not_not, ne_eq]
  rcases h with h | h | h
  · exact .inl (.inl h)
  · exact .inl (.inr h)
  · exact .inr h

/-- A shootdown whose stores are registered acknowledges, by a message where it has an address for one. -/
theorem execShootdownComplete_of {s t : State} (hr : s.mem.sd.running = true)
    (hd : (s.tlbDrop s.mem.sd.names).drainPend (fun p => (s.tlbDrop s.mem.sd.names).worldOf
      ((s.tlbDrop s.mem.sd.names).ctxOf p.thread) == 1) = (t, true)) :
    execShootdownComplete s = .next (if s.mem.sd.ackaddr = 0 then
        t.setSd { s.mem.sd with ackseq := s.mem.sd.seq, running := false }
      else (t.setSd { s.mem.sd with ackseq := s.mem.sd.seq, running := false }).send
        (.msi s.mem.sd.ackaddr s.mem.sd.ackdata)) := by
  simp only [execShootdownComplete, hr, hd, Bool.not_true, Bool.false_eq_true, ↓reduceIte, beq_iff_eq]

end Sys2Proof.Machine

namespace Sys2Proof
open Sys2Proof.Machine

/-- Settles O36: what the home slices and the fault buffers do when an event names a store, a walk or an entry that stands. -/
theorem homeSliceEvents : Obligations.HomeSliceEvents := by
  refine ⟨?_, ?_, ?_, ?_, ?_, ?_, ?_⟩
  · intro s t n late drop p q hp hq
    exact ⟨fun hd => execStoreRegistrationAck_of late drop true hp hq hd,
      fun hd => execStoreRegistrationAck_of late drop false hp hq hd⟩
  · intro s n w hw
    exact ⟨fun h => (execWalkComplete_of hw).trans (congrArg Host.Outcome.next (if_pos h)),
      fun h => (execWalkComplete_of hw).trans (congrArg Host.Outcome.next (if_neg (by rw [h]; exact Bool.false_ne_true)))⟩
  · intro s cluster ctx there
    exact ⟨fun h => congrArg Host.Outcome.next (if_pos (State.residentIn_iff.mpr h)),
      fun h => congrArg Host.Outcome.next (if_neg (mt State.residentIn_iff.mp h))⟩
  · intro s cluster entry e he t r
    exact execFbdeliver_of he rfl
  · intro s v
    refine ⟨fun h => congrArg (fun d => Host.Outcome.next (s.setSd d)) (if_pos h),
      fun h => congrArg (fun d => Host.Outcome.next (s.setSd d)) (if_neg ?_)⟩
    rw [h]
    exact Bool.false_ne_true
  · intro s v
    exact ⟨execInterruptFileWrite_starts, execInterruptFileWrite_still⟩
  · intro s t u v hr hd
    have hend := execShootdownComplete_of hr hd
    exact ⟨fun ha => hend.trans (congrArg Host.Outcome.next (if_pos ha)),
      fun ha => hend.trans (congrArg Host.Outcome.next (if_neg ha))⟩

end Sys2Proof
end

section
/-! Agents outside the device at the home slices (11_coherence 11.1 to 11.4). -/

namespace Sys2Proof.Machine

/-! ### Requests of holders -/

theorem exec_holderRead {s : State} {h hpa pa : Nat} (e : s.holderAddr h hpa = some pa) :
    exec (.holderRead h hpa) s = .next (s.served fun s => s.holderAsk h pa false) := by
  show execHolderRead h hpa s = _
  simp only [execHolderRead, e]

theorem exec_holderOwnershipRequest {s : State} {h hpa pa : Nat} (e : s.holderAddr h hpa = some pa) :
    exec (.holderOwnershipRequest h hpa) s = .next (s.served fun s => s.holderAsk h pa true) := by
  show execHolderOwnershipRequest h hpa s = _
  simp only [execHolderOwnershipRequest, e]

/-- A request of a holder for device memory goes to the directory. -/
theorem State.holderAsk_dev {s : State} {h pa : Nat} (own : Bool) (hh : h < 16) (hd : s.isDev pa = true) :
    s.holderAsk h pa own = (s.touchDir pa).askTurn h (lineAddr pa) own := by
  refine if_neg ?_
  rw [hd, decide_eq_false (Nat.not_le.mpr hh)]
  exact Bool.false_ne_true

/-- A mapped request of a holder for device memory, outside PS3, takes its turn at the directory. -/
theorem exec_holderAsk {s : State} {h hpa pa : Nat} (own : Bool) (e : s.holderAddr h hpa = some pa)
    (hp : s.power.pstate ≠ 3) (hd : s.isDev pa = true) :
    exec (if own then .holderOwnershipRequest h hpa else .holderRead h hpa) s =
      .next ((s.noteRequest.touchDir pa).askTurn h (lineAddr pa) own) := by
  have hask := State.holderAsk_dev (s := s.noteRequest) own (State.holderAddr_lt e) hd
  cases own with
  | false => exact (exec_holderRead e).trans (congrArg Host.Outcome.next ((State.served_awake _ hp).trans hask))
  | true => exact (exec_holderOwnershipRequest e).trans (congrArg Host.Outcome.next ((State.served_awake _ hp).trans hask))

theorem State.touchDir_now (s : State) (pa : Nat) : (s.touchDir pa).now = s.now := by
  unfold State.touchDir
  split <;> rfl

theorem State.askTurn_moving {s : State} {line : Nat} {n : Nat} (h : Nat) (own : Bool) (hn : s.now = n)
    (hm : s.inMove line = true) :
    s.askTurn h line own = s.queueAsk { holder := some h, line := line, own := own, made := n } := by
  subst hn
  simp only [State.askTurn, hm, ↓reduceIte]

theorem State.askTurn_uncached {s : State} {line : Nat} {n : Nat} (h : Nat) (own : Bool) (hn : s.now = n)
    (hm : s.inMove line = false)
    (hc : s.isHc line = false) : s.askTurn h line own =
      (s.dropAsk { holder := some h, line := line, own := own, made := n }).serveHolder line own := by
  subst hn
  simp only [State.askTurn, hm, hc, Bool.not_false, Bool.false_eq_true, ↓reduceIte]

theorem State.askTurn_behind {s : State} {line h n : Nat} {own : Bool} (hn : s.now = n) (hm : s.inMove line = false)
    (hc : s.isHc line = true)
    (hb : s.behind { holder := some h, line := line, own := own, made := n } = true) :
    s.askTurn h line own = s.queueAsk { holder := some h, line := line, own := own, made := n } := by
  subst hn
  simp only [State.askTurn, hm, hc, hb, Bool.not_true, Bool.false_eq_true, ↓reduceIte]

/-- A request whose turn has come goes to the entry of its line, and waits where that cannot serve it. -/
theorem State.askTurn_entry {s v : State} {line h n : Nat} {own ok : Bool} (hn : s.now = n) (hm : s.inMove line = false)
    (hc : s.isHc line = true)
    (hb : s.behind { holder := some h, line := line, own := own, made := n } = false)
    (he : s.askEntry h line own = (v, ok)) : s.askTurn h line own =
      if ok then v.dropAsk { holder := some h, line := line, own := own, made := n }
      else v.queueAsk { holder := some h, line := line, own := own, made := n } := by
  subst hn
  simp only [State.askTurn, hm, hc, hb, he, Bool.not_true, Bool.false_eq_true, ↓reduceIte]

/-! ### The entry of a line -/

theorem State.askEntry_waits {s : State} {line : Nat} {e : DirEntry} (h : Nat) (own : Bool) (he : s.dirFind line = some e)
    (ha : e.await ≠ []) : s.askEntry h line own = (s, false) := by
  simp only [State.askEntry, he, List.isEmpty_eq_false_iff.mpr ha, Bool.not_false, ↓reduceIte]

/-- A reader joins the holders of an entry that none owns. -/
theorem State.askEntry_joins {s : State} {line : Nat} {e : DirEntry} (h : Nat) (he : s.dirFind line = some e)
    (ha : e.await = []) (hx : e.excl = false) : s.askEntry h line false =
      (s.dirReplace e [{ e with holders := e.holders ||| holderBit h, last := s.now }], true) := by
  simp only [State.askEntry, he, ha, hx, List.isEmpty_nil, Bool.not_true, Bool.not_false, Bool.and_self, Bool.false_eq_true,
    ↓reduceIte]

/-- A holder that is alone takes its entry over. -/
theorem State.askEntry_alone {s : State} {line h : Nat} {e : DirEntry} (he : s.dirFind line = some e) (ha : e.await = [])
    (ho : (holderList e.holders).filter (· != h) = []) : s.askEntry h line true =
      (((s.dirReplace e [{ e with holders := holderBit h, excl := true, last := s.now }]).recallLine line).settleWrites line,
        true) := by
  simp only [State.askEntry, he, ha, ho, List.isEmpty_nil, Bool.not_true, Bool.false_and, Bool.true_or, Bool.false_eq_true,
    ↓reduceIte, State.serveHolder, State.takeLine]

/-- An owner among other holders splits its entry. -/
theorem State.askEntry_own {s : State} {line h : Nat} {e : DirEntry} (he : s.dirFind line = some e) (ha : e.await = [])
    (ho : (holderList e.holders).filter (· != h) ≠ []) : s.askEntry h line true =
      s.splitFor e line (e.holders &&& holderBit h) ((holderList e.holders).filter (· != h)) (.own h) true := by
  simp only [State.askEntry, he, ha, List.isEmpty_eq_false_iff.mpr ho, List.isEmpty_nil, Bool.not_true, Bool.false_and,
    Bool.false_eq_true, ↓reduceIte]

/-- A reader of an entry that another owns splits it. -/
theorem State.askEntry_read {s : State} {line h : Nat} {e : DirEntry} (he : s.dirFind line = some e) (ha : e.await = [])
    (ho : (holderList e.holders).filter (· != h) ≠ []) (hx : e.excl = true) : s.askEntry h line false =
      s.splitFor e line e.holders ((holderList e.holders).filter (· != h)) (.read h) false := by
  simp only [State.askEntry, he, ha, hx, List.isEmpty_eq_false_iff.mpr ho, List.isEmpty_nil, Bool.not_true, Bool.not_false,
    Bool.and_false, Bool.false_eq_true, ↓reduceIte]

/-! ### Write-backs, responses and merging -/

theorem execHolderWriteback_of {s : State} {h hpa pa : Nat} {data : List Word} (e : s.holderAddr h hpa = some pa)
    (hp : s.power.pstate ≠ 3) (hd : s.isDev pa = true) (hl : data.length = 16) : execHolderWriteback h hpa data s =
      .next ((data.zipIdx.foldl (State.holderWord (lineAddr pa)) s.noteRequest).touchDir pa) := by
  simp only [execHolderWriteback, e, hd, hl, bne_self_eq_false, Bool.not_true, Bool.or_self, Bool.false_eq_true, ↓reduceIte,
    State.served_awake _ hp]

/-- A response to a back-invalidation writes its data and ends one wait of its entry; the last one answers the request. -/
theorem execBisnpResponse_of {s : State} {h pa : Nat} {data : List Word} {e : DirEntry} (he : s.dirFind pa = some e)
    (hw : (h, lineAddr pa) ∈ e.await) : execBisnpResponse h pa data s = .next
      (if (e.await.filter (· != (h, lineAddr pa))).isEmpty then
        (((data.take 16).zipIdx.foldl (fun s x => s.homeWrite (lineAddr pa + 4 * x.2) x.1) s).dirReplace e
          [{ e with await := e.await.filter (· != (h, lineAddr pa)) }]).answered
          { e with await := e.await.filter (· != (h, lineAddr pa)) }
      else ((data.take 16).zipIdx.foldl (fun s x => s.homeWrite (lineAddr pa + 4 * x.2) x.1) s).dirReplace e
          [{ e with await := e.await.filter (· != (h, lineAddr pa)) }]) := by
  simp only [execBisnpResponse, he, List.contains_iff_mem.mpr hw, Bool.not_true, Bool.false_eq_true, ↓reduceIte]

/-- Two quiet siblings of level 1 with the same holders merge into their region's entry. -/
theorem State.mergeAt_one {s : State} {pa n : Nat} {x y : DirEntry}
    (hx : (s.mem.dir.find? fun e => e.base == pa / 65536 * 65536 && e.level == 1) = some x)
    (hy : (s.mem.dir.find? fun e => e.base == pa / 65536 * 65536 + 32768 && e.level == 1) = some y)
    (qx : s.quiet x = true) (qy : s.quiet y = true) (hh : x.holders = y.holders) (he : x.excl = y.excl) (h0 : x.holders ≠ 0) :
    s.mergeAt pa 1 (n + 2) = s.setMem { s.mem with
      dir := { x with base := pa / 65536 * 65536, level := 0, last := max x.last y.last } ::
        s.mem.dir.filter fun e => e != x && e != y } := by
  have hsame : (x.holders == y.holders && x.excl == y.excl) = true := by
    rw [hh, he, BEq.rfl, BEq.rfl]
    rfl
  have hz : (x.holders == 0) = false := beq_eq_false_iff_ne.mpr h0
  simp only [State.mergeAt, Nat.reducePow, Nat.reduceDiv, Nat.reduceMul, Nat.reduceBEq, hx, hy, qx, qy, hsame, hz, Bool.not_true,
    Bool.or_self, Bool.or_true, Bool.false_eq_true, ↓reduceIte, Nat.sub_self, BEq.rfl]

theorem execDirectoryMerge_one {s : State} {pa : Nat} {x y : DirEntry}
    (hx : (s.mem.dir.find? fun e => e.base == pa / 65536 * 65536 && e.level == 1) = some x)
    (hy : (s.mem.dir.find? fun e => e.base == pa / 65536 * 65536 + 32768 && e.level == 1) = some y)
    (qx : s.quiet x = true) (qy : s.quiet y = true) (hh : x.holders = y.holders) (he : x.excl = y.excl) (h0 : x.holders ≠ 0) :
    execDirectoryMerge pa 1 s = .next (s.setMem { s.mem with
      dir := { x with base := pa / 65536 * 65536, level := 0, last := max x.last y.last } ::
        s.mem.dir.filter fun e => e != x && e != y }) := by
  rw [execDirectoryMerge, if_neg (by decide), State.mergeAt_one (n := 8) hx hy qx qy hh he h0]

/-- A snoop of a host-homed line outside PS3 recalls the line, or writes its dirty words back. -/
theorem execSnoop_of {s : State} {pa : Nat} (inv : Bool) (hf : s.fitX = false) (hd : s.isDev pa = false)
    (hp : s.power.pstate ≠ 3) : execSnoop pa inv s = .next (if inv then
      (((s.noteRequest.recallLine (lineAddr pa)).writeLine (lineAddr pa)).dropSlice (lineAddr pa)).settleWrites (lineAddr pa)
      else s.noteRequest.writeLine (lineAddr pa)) := by
  simp only [execSnoop, hf, hd, Bool.or_self, Bool.false_eq_true, ↓reduceIte, State.served_awake _ hp, State.evictLine]

/-! ### Handovers -/

theorem Handover.lenOk_iff {h : Handover} : h.lenOk = true ↔ 1 ≤ h.len.toNat / 64 ∧ h.len.toNat / 64 ≤ 2 ^ 18 := by
  simp only [Handover.lenOk, Bool.and_eq_true, decide_eq_true_eq]

/-- A write of GO starts a handover where none runs and LEN is in range. -/
theorem State.handoverWrite_starts {s : State} {v : Word} (hv : v.getLsbD 0 = true) (hb : s.mem.ho.busy = false)
    (hl : s.mem.ho.lenOk = true) : s.handoverWrite v = s.setMem { s.mem with ho := { s.mem.ho with
      dir := v.getLsbD 1, busy := true, progress := 0, toDev := v.getLsbD 1, by_ := none, total := s.mem.ho.len.toNat / 64,
      pages := [s.mem.ho.base.toNat / 64 * 64], off := 0 } } := by
  simp only [State.handoverWrite, hv, hb, hl, Bool.not_true, Bool.or_self, Bool.and_false, Bool.false_eq_true, ↓reduceIte]

theorem State.handoverWrite_refused {s : State} {v : Word} (hv : v.getLsbD 0 = true)
    (h : s.mem.ho.busy = true ∨ s.mem.ho.lenOk = false) :
    s.handoverWrite v = s.setMem { s.mem with ho := { s.mem.ho with err := true } } := by
  have hbad : (s.mem.ho.busy || !s.mem.ho.lenOk) = true := by
    rcases h with h | h
    · rw [h, Bool.true_or]
    · rw [h, Bool.not_false, Bool.or_true]
  simp only [State.handoverWrite, hv, hbad, Bool.and_self, ↓reduceIte]

/-- The machine with the handover's progress set. -/
def State.handoverAt (s : State) (i : Nat) : State := s.setMem { s.mem with ho := { s.mem.ho with progress := i } }

/-- A handover that stands at a line passes it over, where nothing stops it. -/
theorem State.handoverRun_line {h : Handover} {s : State} {i : Nat} (m : Nat) (hs : s.mem.ho = { h with progress := i })
    (hi : i < h.total) (hup : s.hostLinkUp = true) (hstop : s.handoverStops = false) (hmove : s.inMove (h.lineAt i) = false) :
    s.handoverRun (m + 1) = ((s.handoverLine (h.lineAt i) h.toDev).handoverAt (i + 1)).handoverRun m := by
  have hline : s.mem.ho.lineAt s.mem.ho.progress = h.lineAt i := by rw [hs]; rfl
  have hprog : s.mem.ho.progress = i := by rw [hs]
  have hmore : ¬ s.mem.ho.total ≤ s.mem.ho.progress := by rw [hs]; exact Nat.not_le.mpr hi
  have hdir : s.mem.ho.toDev = h.toDev := by rw [hs]
  rw [State.handoverRun, if_neg hmore, if_neg (by rw [hup]; decide), if_neg (by rw [hstop]; decide),
    if_neg (by rw [hline, hmove]; decide), hline, hprog, hdir]
  rfl

/-- A handover that passes its lines over in turn ends with all of them. -/
theorem State.handoverRun_turns {h : Handover} {s t : State} (n : Nat)
    (ht : Turns (fun u i v => u.hostLinkUp = true ∧ u.handoverStops = false ∧ u.inMove (h.lineAt i) = false ∧
        (u.handoverLine (h.lineAt i) h.toDev).mem.ho = u.mem.ho ∧ v = (u.handoverLine (h.lineAt i) h.toDev).handoverAt (i + 1))
      (List.range' (h.total - n) n) s t)
    (hn : n ≤ h.total) {m : Nat} (hm : n ≤ m) (hs : s.mem.ho = { h with progress := h.total - n }) :
    s.handoverRun m = t.handoverEnd h.total .all := by
  induction n generalizing s m with
  | zero =>
    obtain rfl : t = s := ht
    have hend : t.mem.ho.total ≤ t.mem.ho.progress := by rw [hs]; exact Nat.le_refl _
    have htot : t.mem.ho.total = h.total := by rw [hs]
    cases m <;> exact (if_pos hend).trans (by rw [htot])
  | succ n ih =>
    obtain ⟨m, rfl⟩ : ∃ k, m = k + 1 := ⟨m - 1, by omega⟩
    obtain ⟨v, ⟨hup, hstop, hmove, hho, hv⟩, hrest⟩ := ht
    have hstep : h.total - (n + 1) + 1 = h.total - n := by omega
    have hvho : v.mem.ho = { h with progress := h.total - n } := by
      have e : v.mem.ho = { (s.handoverLine (h.lineAt (h.total - (n + 1))) h.toDev).mem.ho with
          progress := h.total - (n + 1) + 1 } := by rw [hv]; rfl
      rw [e, hho, hs, hstep]
    rw [hstep] at hrest
    rw [State.handoverRun_line m hs (by omega) hup hstop hmove, ← hv]
    exact ih hrest (by omega) (by omega) hvho

/-- With the host link down a handover stops after the line in progress. -/
theorem State.handoverRun_down {s : State} {n : Nat} (hn : n ≠ 0) (hp : s.mem.ho.progress < s.mem.ho.total)
    (hd : s.hostLinkUp = false) : s.handoverRun n = s.handoverEnd s.mem.ho.progress .link := by
  obtain ⟨m, rfl⟩ : ∃ k, n = k + 1 := ⟨n - 1, by omega⟩
  rw [State.handoverRun, if_neg (Nat.not_le.mpr hp), if_pos (by rw [hd]; rfl)]

theorem execHandoverComplete_turns {s t : State} (hb : s.mem.ho.busy = true) (hp : s.mem.ho.progress < s.mem.ho.total)
    (ht : Turns (fun u i v => u.hostLinkUp = true ∧ u.handoverStops = false ∧ u.inMove (s.mem.ho.lineAt i) = false ∧
        (u.handoverLine (s.mem.ho.lineAt i) s.mem.ho.toDev).mem.ho = u.mem.ho ∧
        v = (u.handoverLine (s.mem.ho.lineAt i) s.mem.ho.toDev).handoverAt (i + 1))
      (List.range' s.mem.ho.progress (s.mem.ho.total - s.mem.ho.progress)) s t) :
    execHandoverComplete 0 s = .next (t.handoverEnd s.mem.ho.total .all) := by
  have e : s.mem.ho.total - (s.mem.ho.total - s.mem.ho.progress) = s.mem.ho.progress := by omega
  have hrun : s.handoverRun s.mem.ho.total = t.handoverEnd s.mem.ho.total .all :=
    State.handoverRun_turns (s.mem.ho.total - s.mem.ho.progress) (by rw [e]; exact ht) (by omega) (Nat.sub_le _ _) (by rw [e])
  rw [execHandoverComplete, if_pos hb, if_pos (by rfl), hrun]

theorem execHandoverComplete_down {s : State} (n : Nat) (hb : s.mem.ho.busy = true) (hp : s.mem.ho.progress < s.mem.ho.total)
    (hd : s.hostLinkUp = false) : execHandoverComplete n s = .next (s.handoverEnd s.mem.ho.progress .link) := by
  have hn : (if n == 0 then s.mem.ho.total else n) ≠ 0 := by
    split
    · omega
    · next h0 => simpa using h0
  rw [execHandoverComplete, if_pos hb, State.handoverRun_down hn hp hd]

end Sys2Proof.Machine

namespace Sys2Proof
open Sys2Proof.Machine

/-- Settles O37: holders' requests by the entry of their line, responses, merging, snoops, and the lines of a handover. -/
theorem directoryEvents : Obligations.DirectoryEvents := by
  refine ⟨?_, ?_, ?_, ?_, ?_, ?_, ?_, ?_⟩
  · intro s h hpa data
    refine ⟨fun e => ?_, fun pa e hp => ⟨?_, ?_⟩⟩
    · have hr : execHolderRead h hpa s = .next s := by simp only [execHolderRead, e]
      have ho : execHolderOwnershipRequest h hpa s = .next s := by simp only [execHolderOwnershipRequest, e]
      have hw : execHolderWriteback h hpa data s = .next s := by simp only [execHolderWriteback, e]
      exact ⟨hr, ho, hw⟩
    · exact (exec_holderRead e).trans (congrArg Host.Outcome.next (State.served_asleep _ hp))
    · exact (exec_holderOwnershipRequest e).trans (congrArg Host.Outcome.next (State.served_asleep _ hp))
  · intro s h hpa pa own i u line a e hp hd
    have hn : u.now = s.now := State.touchDir_now _ pa
    have hgo : exec i s = .next (u.askTurn h line own) := exec_holderAsk own e hp hd
    refine ⟨fun hm => hgo.trans (congrArg Host.Outcome.next (State.askTurn_moving h own hn hm)), fun hm hc => ?_, fun hm hc =>
      ⟨fun hb => ?_, fun e hb he => ?_⟩⟩
    · refine hgo.trans (congrArg Host.Outcome.next ((State.askTurn_uncached h own hn hm hc).trans ?_))
      cases own <;> rfl
    · exact hgo.trans (congrArg Host.Outcome.next (State.askTurn_behind hn hm hc hb))
    · have hturn {v : State} {ok : Bool} (hx : u.askEntry h line own = (v, ok)) :
          exec i s = .next (if ok then v.dropAsk a else v.queueAsk a) :=
        hgo.trans (congrArg Host.Outcome.next (State.askTurn_entry hn hm hc hb hx))
      intro others
      refine ⟨fun ha => hturn (State.askEntry_waits h own he ha), fun ha =>
        ⟨fun ho hx => ?_, fun ho hoth => ?_, fun v ok hoth => ⟨fun ho hs => ?_, fun ho hx hs => ?_⟩⟩⟩
      · exact hturn ((congrArg (u.askEntry h line) ho).trans (State.askEntry_joins h he ha hx))
      · exact hturn ((congrArg (u.askEntry h line) ho).trans (State.askEntry_alone he ha hoth))
      · exact hturn ((congrArg (u.askEntry h line) ho).trans ((State.askEntry_own he ha hoth).trans hs))
      · exact hturn ((congrArg (u.askEntry h line) ho).trans ((State.askEntry_read he ha hoth hx).trans hs))
  · intro s h hpa pa data e hp hd hl
    exact execHolderWriteback_of e hp hd hl
  · intro s h pa data e he hw e1 t
    have hgo : exec (.bisnpResponse h pa data) s = .next (if e1.await.isEmpty then t.answered e1 else t) :=
      execBisnpResponse_of he hw
    refine ⟨fun ha => hgo.trans (congrArg Host.Outcome.next (if_neg ?_)), fun ha =>
      hgo.trans (congrArg Host.Outcome.next (if_pos ?_))⟩
    · rwa [List.isEmpty_iff]
    · rwa [List.isEmpty_iff]
  · intro s pa x y lo hx hy qx qy hh he h0
    exact execDirectoryMerge_one hx hy qx qy hh he h0
  · intro s pa hf hd hp line
    exact ⟨(execSnoop_of true hf hd hp).trans (congrArg Host.Outcome.next (if_pos rfl)),
      (execSnoop_of false hf hd hp).trans (congrArg Host.Outcome.next (if_neg Bool.false_ne_true))⟩
  · intro s v h n hv
    refine ⟨fun hb h1 h2 => ?_, fun hbad => ?_⟩
    · have hl : s.mem.ho.lenOk = true := Handover.lenOk_iff.mpr ⟨h1, h2⟩
      exact congrArg Host.Outcome.next (State.handoverWrite_starts hv hb hl)
    · have hno : s.mem.ho.busy = true ∨ s.mem.ho.lenOk = false := hbad.imp_right fun hbad => by
        rw [← Bool.not_eq_true, Handover.lenOk_iff]
        exact fun hl => hbad.elim (fun h0 => Nat.ne_of_gt hl.1 h0) (fun h2 => Nat.not_lt.mpr hl.2 h2)
      exact congrArg Host.Outcome.next (State.handoverWrite_refused hv hno)
  · intro s h hb hp
    exact ⟨fun t ht => execHandoverComplete_turns hb hp ht, fun hd n => execHandoverComplete_down n hb hp hd⟩

end Sys2Proof
end

section
/-! Memory channels, links and the recovery commands (11_coherence 11.5, 18_system 18.8, 20_boundary 20.2). -/

namespace Sys2Proof.Machine

/-! ### Refresh ticks -/

/-- A channel whose tick has come: the next bank is next, and the next tick is due 244 ns after this one was. -/
def State.ticked (s : State) (r : Refresh) : Refresh :=
  { r with nextBank := (r.nextBank + 1) % 16, lastTick := some (r.lastTick.elim s.ns (· + 244)) }

/-- A tick that finds no forced refresh outstanding: nothing is done while every bank refreshes; else its bank is refreshed
when idle, and owed one when busy. -/
theorem State.tick_of {s : State} {r : Refresh} (hf : r.pendingForced = none) : s.tick r =
    if (List.range 16).all fun x => decide (s.ns < Map.getD r.busyUntil x 0) then s.ticked r
    else if r.busyAt r.nextBank s.ns = false then { s.ticked r with
      owed := Map.del r.owed r.nextBank, busyFrom := Map.set r.busyFrom r.nextBank (max s.ns (Map.getD r.busyUntil r.nextBank 0)),
      busyUntil := Map.set r.busyUntil r.nextBank
        (max s.ns (Map.getD r.busyUntil r.nextBank 0) + (1 + r.owedOf r.nextBank) * s.rfcPb) }
    else if r.owedOf r.nextBank < 8 then
      { s.ticked r with owed := Map.set r.owed r.nextBank (r.owedOf r.nextBank + 1), postp := r.postp + 1 }
    else { s.ticked r with pendingForced := some (1 + r.owedOf r.nextBank) } := by
  have hb (b : Bool) : ((!b) = true) = (b = false) := by cases b <;> simp
  cases hl : r.lastTick <;> simp only [State.tick, State.issueForced, hf, hl, State.ticked, Option.elim_none, Option.elim_some,
    hb] <;> rfl

theorem State.allRefresh_iff {s : State} {r : Refresh} :
    ((List.range 16).all fun x => decide (s.ns < Map.getD r.busyUntil x 0)) = true ↔
      ∀ x < 16, s.ns < Map.getD r.busyUntil x 0 := by
  simp only [List.all_eq_true, List.mem_range, decide_eq_true_eq]

theorem execRefreshTick_due {s : State} {pc : Nat} (hc : s.hasChannel pc = true) (hd : s.tickDue (s.channel pc) = true) :
    execRefreshTick pc s = .next (s.setChannel pc (s.tick (s.channel pc))) := by
  simp only [execRefreshTick, hc, hd, Bool.and_self, ↓reduceIte]

theorem execRefreshTick_early {s : State} {pc : Nat} (hd : ¬ s.tickDue (s.channel pc) = true) :
    execRefreshTick pc s = .next s := by
  simp only [execRefreshTick, eq_false_of_ne_true hd, Bool.and_false, Bool.false_eq_true, ↓reduceIte]

/-- A forced refresh that no column access holds back refreshes every bank from now on. -/
theorem State.issueForced_of {s : State} {r : Refresh} {n : Nat} (hp : r.pendingForced = some n) (hc : r.column ≤ s.ns) :
    s.issueForced r = { r with
      pendingForced := none, forced := r.forced + 1, abref := r.abref + BitVec.ofNat 64 n, owed := [],
      busyFrom := (List.range 16).map fun b => (b, s.ns), busyUntil := (List.range 16).map fun b => (b, s.ns + n * s.rfcAb) } := by
  simp only [State.issueForced, hp, Nat.max_eq_left hc]

/-! ### Memory reads -/

/-- A read that its bank serves counts the time that it waited for the bank. -/
theorem State.serveRead_eq (s : State) (r : Refresh) (b : Nat) : s.serveRead r b = { r with
    rstall := r.rstall + BitVec.ofNat 64 (min (max s.ns (Map.getD r.busyUntil b 0)) (Map.getD r.busyUntil b 0) -
      max (((r.queued.find? fun q => q.1 == b).map Prod.snd).getD s.ns) (Map.getD r.busyFrom b 0)),
    lastRead := Map.set r.lastRead b (max s.ns (Map.getD r.busyUntil b 0) + s.missTime),
    column := max r.column (max s.ns (Map.getD r.busyUntil b 0) + s.missTime),
    queued := r.queued.eraseP fun q => q.1 == b } := by
  unfold State.serveRead
  cases r.queued.find? (fun q => q.1 == b) <;> rfl

/-- A read of device memory, by what its check finds. -/
theorem execMemoryRead_of {s : State} {pa : Nat} (hd : s.isDev pa = true) :
    execMemoryRead pa 0 true s = .next (s.setChannel (s.cellOf pa).channel { s.channel (s.cellOf pa).channel with
      queued := (s.channel (s.cellOf pa).channel).queued ++ [((s.cellOf pa).bank, s.ns)] }) ∧
    execMemoryRead pa 0 false s = .next (s.setChannel (s.cellOf pa).channel
      (s.serveRead (s.channel (s.cellOf pa).channel) (s.cellOf pa).bank)) ∧
    execMemoryRead pa 1 false s = .next (s.setChannel (s.cellOf pa).channel
      { s.serveRead (s.channel (s.cellOf pa).channel) (s.cellOf pa).bank with
        cecc := (s.serveRead (s.channel (s.cellOf pa).channel) (s.cellOf pa).bank).cecc + 1 }) ∧
    execMemoryRead pa 2 false s = .next (((s.setChannel (s.cellOf pa).channel
      (s.serveRead (s.channel (s.cellOf pa).channel) (s.cellOf pa).bank)).poisonLine (lineAddr pa)).postRecord 2 0 none
        (BitVec.ofNat 64 pa) ([(s.cellOf pa).controller, (s.cellOf pa).pseudo, (s.cellOf pa).bank, (s.cellOf pa).row].map
          (BitVec.ofNat 32))) := by
  refine ⟨?_, ?_, ?_, ?_⟩ <;>
    simp only [execMemoryRead, hd, Bool.not_true, Nat.reduceBEq, Bool.or_self, Bool.false_and, Bool.false_eq_true, ↓reduceIte]

/-! ### Recovery commands -/

/-- A command that finds none in progress acts on every poisoned line of its port at once. -/
theorem State.recovery_all {s : State} {p code : Nat} {fails : Nat → Bool} {f : State → Nat → State}
    (hc : (s.port p).cmd = none) (hl : (code == 1 && !(s.port p).linkup) = false) (hf : ∀ l, fails l = false) :
    s.recovery p code 0 fails f = ((s.poisonedLines p).foldl f s).setPort p { ((s.poisonedLines p).foldl f s).port p with
      cmd := none, left := [], result := 0, done := BitVec.ofNat 24 (s.poisonedLines p).length } := by
  have hmine : ((s.poisonedLines p).take (s.poisonedLines p).length).filter
      (fun l => (s.poisonedLines p).contains l && !fails l) = s.poisonedLines p := by
    rw [List.take_length, List.filter_eq_self]
    intro l hm
    rw [List.contains_iff_mem.mpr hm, hf l]
    rfl
  simp only [State.recovery, Option.isNone_none, Bool.true_and, hl, BEq.rfl, hc, Option.isSome_none, Option.any_none,
    Bool.false_eq_true, ↓reduceIte, hmine,
    List.drop_length, List.isEmpty_nil, Nat.zero_add]

/-- A command that finds another in progress changes nothing. -/
theorem State.recovery_other {s : State} {p code c : Nat} (lines : Nat) (fails : Nat → Bool) (f : State → Nat → State)
    (hc : (s.port p).cmd = some c) (hn : c ≠ code) : s.recovery p code lines fails f = s := by
  simp only [State.recovery, hc, Option.any_some, bne_iff_ne.mpr hn, ↓reduceIte]

/-- SALVAGE with the link down is refused. -/
theorem State.recovery_down {s : State} {p : Nat} (lines : Nat) (fails : Nat → Bool) (f : State → Nat → State)
    (hc : (s.port p).cmd = none) (hl : (s.port p).linkup = false) : s.recovery p 1 lines fails f = s.recovered p 1 0 := by
  simp only [State.recovery, hc, hl, Option.any_none, Option.isNone_none, BEq.rfl, Bool.not_false, Bool.and_self,
    Bool.false_eq_true,
    ↓reduceIte]

/-! ### Ports -/

section
variable {s : State} {port : Nat} (hp : port < 2)
include hp

theorem execLinkDown_up (hl : (s.port port).linkup = true) : execLinkDown port s = .next
    ((((((s.setPort port { s.port port with linkup := false, downseen := true, ids := [] }).poisonDirty port).dropShared
      port).loseAll port)).postRecord 3 port none 0 [BitVec.ofNat 32 (((((s.setPort port { s.port port with
        linkup := false, downseen := true, ids := [] }).poisonDirty port).dropShared port).loseAll port).poisonedLines
          port).length]) := by
  simp only [execLinkDown, Nat.not_le.mpr hp, hl, decide_false, Bool.not_true, Bool.or_self, Bool.false_eq_true, ↓reduceIte]

theorem execPortViral_first (hv : (s.port port).viral = false) : execPortViral port s =
    .next ((s.setPort port { s.port port with viral := true }).postRecord 4 port none 0 []) := by
  simp only [execPortViral, Nat.not_le.mpr hp, hv, decide_false, Bool.or_self, Bool.false_eq_true, ↓reduceIte]

theorem execExpanderLost_of {base len : Nat} (hf : s.fitX = false) (hl : len ≠ 0) : execExpanderLost port base len s =
    .next ((s.setMem { s.mem with lost := (port, base, len) :: s.mem.lost }).postRecord 5 port none (BitVec.ofNat 64 base)
      (words2 (BitVec.ofNat 64 len))) := by
  simp only [execExpanderLost, Nat.not_le.mpr hp, hf, beq_eq_false_iff_ne.mpr hl, decide_false, Bool.or_self, Bool.false_eq_true,
    ↓reduceIte]

theorem execSalvage_of (work : Nat × List Nat) : execSalvage port work s =
    .next (s.recovery port 1 work.1 (fun l => !(s.port port).linkup || work.2.any fun w => lineAddr w == l) State.salvageLine) :=
  congrArg Host.Outcome.next (if_neg (Nat.not_le.mpr hp))

theorem execDiscard_of : execDiscard port s = .next (s.recovery port 2 0 (fun _ => false) State.discardPoisoned) :=
  congrArg Host.Outcome.next (if_neg (Nat.not_le.mpr hp))

theorem execClearviral_of : execClearviral port s = .next (s.clearViral port) :=
  congrArg Host.Outcome.next (if_neg (Nat.not_le.mpr hp))

end

theorem State.clearViral_busy {s : State} {port c : Nat} (hc : (s.port port).cmd = some c) : s.clearViral port = s := by
  simp only [State.clearViral, hc, Option.isSome_some, ↓reduceIte]

theorem State.clearViral_down {s : State} {port : Nat} (hc : (s.port port).cmd = none) (hl : (s.port port).linkup = false) :
    s.clearViral port = s.recovered port 1 0 := by
  simp only [State.clearViral, hc, hl, Option.isSome_none, Bool.not_false, Bool.false_eq_true, ↓reduceIte]

theorem State.clearViral_up {s : State} {port : Nat} (hc : (s.port port).cmd = none) (hl : (s.port port).linkup = true) :
    s.clearViral port = (s.setPort port { s.port port with viral := false }).recovered port 0 0 := by
  simp only [State.clearViral, hc, hl, Option.isSome_none, Bool.not_true, Bool.false_eq_true, ↓reduceIte]

theorem execSramSoftError_poisons {s : State} {a : Nat} (uid i : Nat) (h : a / 4 * 4 ∉ s.mem.poison) :
    execSramSoftError a true uid i s = .next ((s.setMem { s.mem with poison := a / 4 * 4 :: s.mem.poison }).postRecord 6 0 none 0
      [BitVec.ofNat 32 uid, BitVec.ofNat 32 i]) := by
  have hc : s.mem.poison.contains (a / 4 * 4) = false := by
    rw [← Bool.not_eq_true, List.contains_iff_mem]
    exact h
  simp only [execSramSoftError, hc, Bool.not_true, Bool.false_eq_true, ↓reduceIte]

end Sys2Proof.Machine

namespace Sys2Proof
open Sys2Proof.Machine

/-- Settles O38: ticks and reads of a channel, and what each event of a port does where it acts. -/
theorem linkAndChannelEvents : Obligations.LinkAndChannelEvents := by
  refine ⟨?_, ?_, ?_, ?_, ?_⟩
  · intro s pc r b r1 hc
    refine ⟨fun h3 => ?_, fun n hl hlt => ?_, fun h3 hl hf => ?_⟩
    · exact execRefreshTick_early fun h => ((State.tickDue_iff _ _).mp h).1 h3
    · exact execRefreshTick_early fun h => Nat.not_le.mpr hlt (((State.tickDue_iff _ _).mp h).2 n hl)
    · have hgo := (execRefreshTick_due hc ((State.tickDue_iff _ _).mpr ⟨h3, hl⟩)).trans
        (congrArg (fun x => Host.Outcome.next (s.setChannel pc x)) (State.tick_of (s := s) hf))
      refine ⟨fun hall => ?_, fun hsome => ?_⟩
      · rw [if_pos (State.allRefresh_iff.mpr hall)] at hgo
        exact hgo
      · have hnot : ¬ ((List.range 16).all fun x => decide (s.ns < Map.getD (s.channel pc).busyUntil x 0)) = true := by
          obtain ⟨x, hx, hle⟩ := hsome
          exact fun h => Nat.not_le.mpr (State.allRefresh_iff.mp h x hx) hle
        rw [if_neg hnot] at hgo
        intro free
        refine ⟨fun hb => ?_, fun hb hlt => ?_, fun hb hle => ?_⟩
        · rw [if_pos hb] at hgo
          exact hgo
        · rw [if_neg (by rw [hb]; decide), if_pos hlt] at hgo
          exact hgo
        · rw [if_neg (by rw [hb]; decide), if_neg (Nat.not_lt.mpr hle)] at hgo
          exact hgo
  · intro s pc n r hp hc
    have hgo : execRefreshForced pc s = .next (s.setChannel pc (s.issueForced (s.channel pc))) :=
      congrArg Host.Outcome.next (if_neg (Nat.not_lt.mpr hc))
    rw [State.issueForced_of hp hc] at hgo
    exact hgo
  · intro s pa c pc r busy start arrival r1 hd
    have hgo := execMemoryRead_of hd
    rw [State.serveRead_eq] at hgo
    exact hgo
  · intro s port hp
    refine ⟨execLinkDown_up hp, fun ids => congrArg Host.Outcome.next (if_neg (Nat.not_le.mpr hp)), execPortViral_first hp,
      fun base len hf hl => execExpanderLost_of hp hf hl, fun c hc => ⟨?_, fun hn => ?_, fun hn => ?_⟩, ?_⟩
    · exact (execClearviral_of hp).trans (congrArg Host.Outcome.next (State.clearViral_busy hc))
    · exact (execSalvage_of hp _).trans (congrArg Host.Outcome.next (State.recovery_other _ _ _ hc hn))
    · exact (execDiscard_of hp).trans (congrArg Host.Outcome.next (State.recovery_other _ _ _ hc hn))
    · intro hc n ended
      refine ⟨?_, fun hl => ⟨?_, ?_⟩, fun hl => ⟨?_, ?_⟩⟩
      · exact (execDiscard_of hp).trans (congrArg Host.Outcome.next (State.recovery_all hc rfl fun _ => rfl))
      · refine (execSalvage_of hp _).trans (congrArg Host.Outcome.next (State.recovery_all hc ?_ fun l => ?_))
        · rw [hl]; rfl
        · simp only [hl, Bool.not_true, List.any_nil, Bool.or_self]
      · exact (execClearviral_of hp).trans (congrArg Host.Outcome.next (State.clearViral_up hc hl))
      · exact (execSalvage_of hp _).trans (congrArg Host.Outcome.next (State.recovery_down _ _ _ hc hl))
      · exact (execClearviral_of hp).trans (congrArg Host.Outcome.next (State.clearViral_down hc hl))
  · intro s a uid i
    exact ⟨rfl, execSramSoftError_poisons uid i⟩

end Sys2Proof
end

section
/-! Context kicks, halts, saves, restores and folds (03_threads 3.10, 18_system 18.7, 20_boundary R422). -/

namespace Sys2Proof.Machine

/-! ### The context kick -/

theorem State.kick1_idle {s : State} (f : State → State) (h : s.kick.run = none) : s.kick1 f = f s := by
  simp only [State.kick1, h, Option.isSome_none, Bool.false_eq_true, ↓reduceIte]

theorem State.kick1_busy {s : State} (f : State → State) (h : s.kick.run.isSome = true) :
    s.kick1 f = { s with kick := { s.kick with err := true } } := if_pos h

/-- A kick names one of the 64 contexts. -/
theorem execKickPreempt_of {s : State} {c : Nat} (hc : c < 64) (h : s.kick.run = none) :
    execKickPreempt c s = .next ((s.kickSet c 1 s.kick.clusters).kickPreempt c) := by
  rw [execKickPreempt, State.kick1_idle _ h, Nat.mod_eq_of_lt hc]

theorem execKickRestore_of {s : State} {c : Nat} (hc : c < 64) (h : s.kick.run = none) :
    execKickRestore c s = .next ((s.kickSet c 2 s.kick.clusters).kickRestore c) := by
  rw [execKickRestore, State.kick1_idle _ h, Nat.mod_eq_of_lt hc]

theorem execKickReplay_of {s : State} {c : Nat} (clusters : BitVec 14) (hc : c < 64) (h : s.kick.run = none) :
    execKickReplay c clusters s = .next ((s.kickSet c 3 clusters).kickReplay c clusters) := by
  rw [execKickReplay, State.kick1_idle _ h, Nat.mod_eq_of_lt hc]

theorem State.kickPreempt_none {t : State} {c : Nat} (h : (t.ctx c).created = false) : t.kickPreempt c = t.kickEnd 1 := by
  simp only [State.kickPreempt, h, Bool.not_false, ↓reduceIte]

theorem State.kickPreempt_absent {t : State} {c : Nat} (h : (t.ctx c).created = true) (hr : (t.ctx c).resident = false) :
    t.kickPreempt c = t.kickEnd 2 := by
  simp only [State.kickPreempt, h, hr, Bool.not_true, Bool.not_false, Bool.false_eq_true, ↓reduceIte]

theorem State.kickPreempt_begins {t : State} {c : Nat} (h : (t.ctx c).created = true) (hr : (t.ctx c).resident = true)
    (hs : (t.ctx c).saving = false) :
    t.kickPreempt c = ({ t with kick := { t.kick with run := some (c, 1) } } : State).preempt c := by
  simp only [State.kickPreempt, h, hr, hs, Bool.not_true, Bool.false_eq_true, ↓reduceIte]

theorem State.kickRestore_resident {t : State} {c : Nat} (h : (t.ctx c).created = true) (hr : (t.ctx c).resident = true) :
    t.kickRestore c = t.kickEnd 2 := by
  simp only [State.kickRestore, h, hr, Bool.not_true, Bool.false_eq_true, ↓reduceIte]

/-- RESTORE of a saved context: firmware is asked, unless a quota forbids it. -/
theorem State.kickRestore_saved {t : State} {c : Nat} (h : (t.ctx c).created = true) (hr : (t.ctx c).resident = false) :
    t.kickRestore c =
      if t.overQuota c then t.kickEnd 3 else { t with kick := { t.kick with run := some (c, 2) } } := by
  simp only [State.kickRestore, h, hr, Bool.not_true, Bool.false_eq_true, ↓reduceIte]

/-- REPLAY that names no cluster replays in those where the context is resident. -/
theorem State.kickReplay_all {t : State} {c : Nat} (h : (t.ctx c).created = true) (hr : (t.ctx c).resident = true) :
    t.kickReplay c 0 = (((t.clustersOf c).filter fun k => (t.clustersOf c).contains k).foldl
      (fun u cl => u.replayIn cl c) t).kickEnd 0 := by
  simp only [State.kickReplay, h, State.residentIn, hr, Bool.not_true, Bool.true_and, BEq.rfl, Bool.false_eq_true, ↓reduceIte]

/-! ### Halts and saves -/

/-- A core asked to halt does so where it stands at a switch point with no long word in progress. -/
theorem execCoreHalt_of {s : State} {core : Nat} (hc : core < Config.cores) (hp : (s.core core).preempt = true)
    (hh : (s.core core).halted = false) : execCoreHalt core s = .next (if s.atSwitch core = true ∧ s.longRuns core = false then
      ((List.range Config.partitions).foldl (fun t q => t.endStream (partKey core q)) s).modCore core
        fun c => { c with halted := true }
      else s) := by
  simp only [execCoreHalt, hp, hh, Nat.not_le.mpr hc, decide_false, Bool.not_true, Bool.or_self, Bool.false_or]
  cases s.atSwitch core <;> cases s.longRuns core <;> simp

/-- A context whose cores have halted, and which no copy or pull holds up, is saved. -/
theorem execContextSave_saves {s : State} {c : Nat} (hr : (s.ctx c).resident = true) (hs : (s.ctx c).saving = true)
    (hh : ∀ i ∈ (s.ctx c).cores, (s.core i).halted = true) (hc : s.holdingCopies (s.ctx c).cores = [])
    (hp : s.pullsWrite c = false) : execContextSave c s = .next (s.saveContext c) := by
  have hall : ((s.ctx c).cores.all fun i => (s.core i).halted) = true := List.all_eq_true.mpr hh
  simp only [execContextSave, hr, hs, hall, hc, hp, Bool.not_true, Bool.or_self, List.foldl_nil, List.isEmpty_nil,
    Bool.false_eq_true, ↓reduceIte]

theorem execContextSave_waits {s : State} {c : Nat} (hr : (s.ctx c).resident = true) (hs : (s.ctx c).saving = true)
    (hh : ∃ i ∈ (s.ctx c).cores, (s.core i).halted = false) : execContextSave c s = .next s := by
  have hall : ((s.ctx c).cores.all fun i => (s.core i).halted) = false := by simpa [List.all_eq_false] using hh
  simp only [execContextSave, hr, hs, hall, Bool.not_true, Bool.not_false, Bool.or_true, ↓reduceIte]

/-! ### Restores -/

section
variable {s : State} {c : Nat} {onto : List Nat} (hc : (s.ctx c).created = true) (hr : (s.ctx c).resident = false)
  (hq : s.overQuota c = false) (hk : s.kick.run ≠ some (c, 2))
include hc hr hq hk

theorem execContextRestore_damaged : execContextRestore c onto false s =
    .next (({ s with fresh := s.fresh + 2 } : State).postRecord 6 0 (some c) 0
      [Config.freeWord s.fresh, Config.freeWord (s.fresh + 1)]) := by
  simp only [execContextRestore, hc, hr, hq, beq_eq_false_iff_ne.mpr hk, Bool.not_true, Bool.not_false, Bool.or_self,
    Bool.false_eq_true, ↓reduceIte]

/-- A restore onto cores that fit reads the overlays of the segments landed there. -/
theorem execContextRestore_fits {u : State} {r : Option (List Landing)}
    (hf : s.fits c (restoreOnto c (s.ctx c).cores onto) onto = true)
    (ho : (s.renumber (restoreOnto c (s.ctx c).cores onto)).overlays c
      ((s.renumber (restoreOnto c (s.ctx c).cores onto)).landed onto) = (u, r)) :
    execContextRestore c onto true s = .next (match r with
      | none => { s with mem := u.mem, out := u.out }
      | some lands => ({ s with mem := u.mem, out := u.out } : State).restoreContext c
          (restoreOnto c (s.ctx c).cores onto) onto lands) := by
  cases r <;> simp only [execContextRestore, hc, hr, hq, hf, ho, beq_eq_false_iff_ne.mpr hk, Bool.not_true, Bool.or_self,
    Bool.false_eq_true, ↓reduceIte]

end

end Sys2Proof.Machine

namespace Sys2Proof
open Sys2Proof.Machine

/-- Settles O39: each action of a kick by what forbids it, and the events of a context by its state. -/
theorem preemptionEvents : Obligations.PreemptionEvents := by
  refine ⟨?_, ?_, ?_, ?_, ?_, ?_, ?_, ?_, ?_⟩
  · intro s c clusters hc hb
    exact ⟨congrArg Host.Outcome.next (State.kick1_busy _ hb), congrArg Host.Outcome.next (State.kick1_busy _ hb),
      congrArg Host.Outcome.next (State.kick1_busy _ hb)⟩
  · intro s c t hc hi
    have hgo := execKickPreempt_of hc hi
    exact ⟨fun h => hgo.trans (congrArg Host.Outcome.next (State.kickPreempt_none h)),
      fun h hr => hgo.trans (congrArg Host.Outcome.next (State.kickPreempt_absent h hr)),
      fun h hr hs => hgo.trans (congrArg Host.Outcome.next (State.kickPreempt_begins h hr hs))⟩
  · intro s c t hc hi h
    have hgo := execKickRestore_of hc hi
    have hsaved := State.kickRestore_saved (t := t) (c := c) h
    refine ⟨fun hr => hgo.trans (congrArg Host.Outcome.next (State.kickRestore_resident h hr)), fun hr hq => ?_, fun hr hq => ?_⟩
    · exact hgo.trans (congrArg Host.Outcome.next ((hsaved hr).trans (if_pos hq)))
    · refine hgo.trans (congrArg Host.Outcome.next ((hsaved hr).trans (if_neg ?_)))
      exact fun h => Bool.false_ne_true (hq.symm.trans h)
  · intro s c t hc hi h hr
    exact (execKickReplay_of 0 hc hi).trans (congrArg Host.Outcome.next (State.kickReplay_all h hr))
  · intro s c hc hs
    have hgo : ((s.ctx c).created && !(s.ctx c).saving) = true := by rw [hc, hs]; rfl
    exact congrArg Host.Outcome.next (if_pos hgo)
  · intro s core hc hp hh
    have hgo := execCoreHalt_of hc hp hh
    refine ⟨fun ha hl => hgo.trans (congrArg Host.Outcome.next (if_pos ⟨ha, hl⟩)), fun hno =>
      hgo.trans (congrArg Host.Outcome.next (if_neg ?_))⟩
    rintro ⟨ha, hl⟩
    rcases hno with h | h
    · exact Bool.false_ne_true (h.symm.trans ha)
    · exact Bool.false_ne_true (hl.symm.trans h)
  · intro s c x hr hs
    exact ⟨execContextSave_saves hr hs, execContextSave_waits hr hs⟩
  · intro s c onto m hc hr hq hk
    refine ⟨?_, execContextRestore_damaged hc hr hq hk⟩
    intro hf t
    exact ⟨fun u lands ho => execContextRestore_fits hc hr hq hk hf ho, fun u ho => execContextRestore_fits hc hr hq hk hf ho⟩
  · intro s
    exact ⟨fun h => congrArg Host.Outcome.next (if_pos h), fun h => congrArg Host.Outcome.next (if_neg (Nat.not_lt.mpr h))⟩

end Sys2Proof
end

section
/-! The debug block and the service of calls (18_system 18.5, 18.6). -/

namespace Sys2Proof.Machine

/-! ### Debug commands -/

theorem exec_debug_none {s : State} {c : Nat} (h : s.debugTarget c = none) : execDebugStop c s = .next (s.debugErr c) ∧
    execDebugResume c s = .next (s.debugErr c) ∧ execDebugStep c s = .next (s.debugErr c) := by
  simp only [execDebugStop, execDebugResume, execDebugStep, h, and_self]

/-- A target that streams stops at its next switch point; another one at once, and its stop is widened. -/
theorem execDebugStop_of {s : State} {c k : Nat} (h : s.debugTarget c = some k) : execDebugStop c s =
    .next (if (s.thread k).st == .streaming || (s.thread k).st == .stopped then s.bumpSerial.stopSoon k s.serialNo true
      else (s.bumpSerial.stopSoon k s.serialNo true).widen [k] s.serialNo) := by
  simp only [execDebugStop, h]

theorem execDebugResume_of {s : State} {c k : Nat} (h : s.debugTarget c = some k) : execDebugResume c s =
    .next (if (s.thread k).st = .stopped then s.resumeGroup k else s.debugErr c) := by
  simp only [execDebugResume, h, beq_iff_eq]

theorem execDebugStep_of {s : State} {c k : Nat} (h : s.debugTarget c = some k) : execDebugStep c s =
    .next (if (s.thread k).st = .stopped then
      (s.modThread k fun t => { t with trec := { t.trec with sstep := true } }).resumeGroup k else s.debugErr c) := by
  simp only [execDebugStep, h, beq_iff_eq]

/-- A write of the debug block sets STOPW, where it is not 3, and ATTACH. -/
theorem execStopwWrite_eq (s : State) (c : Nat) (v : DWord) : execStopwWrite c v s = .next (s.modCtx c fun x =>
    { x with dbg := if v.extractLsb' 1 2 = 3 then { x.dbg with err := true, attach := v.getLsbD 0 }
      else { x.dbg with stopw := v.extractLsb' 1 2, attach := v.getLsbD 0 } }) := by
  have h3 : ((v.extractLsb' 1 2).toNat == 3) = true ↔ v.extractLsb' 1 2 = 3 := by
    rw [beq_iff_eq]
    exact ⟨fun h => BitVec.eq_of_toNat_eq h, fun h => congrArg BitVec.toNat h⟩
  simp only [execStopwWrite, h3]

/-! ### Calls -/

theorem State.callBlock_read {s t : State} {core : Nat} {c : Call} {bs : List Byte} (f : State → List Byte → State)
    (h : s.engineRead (clusterOf core) c.ctx c.args 64 = (t, .ok bs)) : s.callBlock core c f = f t bs := by
  simp only [State.callBlock, State.callAcc, h]

theorem State.callWrite_done {s u : State} {core : Nat} {c : Call} {bs rs : List Byte}
    (h : s.engineWrite (clusterOf core) c.ctx s.manager c.args bs = (u, .ok rs)) :
    s.callWrite core c bs = u.callEnd core c 0 0 := by
  simp only [State.callWrite, State.callAcc, h]

section
variable {s t u : State} {core n : Nat} {c : Call} {bs rs : List Byte} (hd : s.callDue core n = some c)
  (hr : s.engineRead (clusterOf core) c.ctx c.args 64 = (t, .ok bs))
include hd

theorem execSyscallUnknown_of (h : 3 ≤ c.call.toNat) : execSyscallUnknown core n s = .next (s.callEnd core c 1 9) := by
  simp only [execSyscallUnknown, hd, Nat.not_lt.mpr h, ↓reduceIte]

include hr

theorem execSyscallEcho_of (h : c.call = 0) : execSyscallEcho core n s = .next (t.callEnd core c 0 0) := by
  simp only [execSyscallEcho, hd, h, bne_self_eq_false, Bool.false_eq_true, ↓reduceIte, State.callBlock_read _ hr]

theorem execSyscallTime_of (h : c.call = 1)
    (hw : t.engineWrite (clusterOf core) c.ctx t.manager c.args ((words2 t.ticks).flatMap bytesOf) = (u, .ok rs)) :
    execSyscallTime core n s = .next (u.callEnd core c 0 0) := by
  simp only [execSyscallTime, hd, h, bne_self_eq_false, Bool.false_eq_true, ↓reduceIte, State.callBlock_read _ hr,
    State.callWrite_done hw]

theorem execSyscallHostmsg_of (h : c.call = 2)
    (hw : t.engineWrite (clusterOf core) c.ctx t.manager c.args (bytesOf (BitVec.ofNat 32 (b2n t.queueFull))) = (u, .ok rs)) :
    execSyscallHostmsg core n s = .next ((u.postRecord 11 0 (some c.ctx) 0 ((toWords bs).take 10)).callEnd core c 0 0) := by
  simp only [execSyscallHostmsg, hd, h, bne_self_eq_false, Bool.false_eq_true, ↓reduceIte, State.callBlock_read _ hr, hw]

end

end Sys2Proof.Machine

namespace Sys2Proof
open Sys2Proof.Machine

/-- Settles O40: a command by its target's state, and a call by its number. -/
theorem debugAndCallEvents : Obligations.DebugAndCallEvents := by
  refine ⟨fun s c h => exec_debug_none h, ?_, ?_, ?_, fun s core n c hd h => execSyscallUnknown_of hd h⟩
  · intro s c k h
    refine ⟨fun hs => ?_, fun hs => ?_, fun hs => ⟨?_, ?_⟩, fun hs => ⟨?_, ?_⟩⟩
    · exact (execDebugStop_of h).trans (congrArg Host.Outcome.next (if_pos (by rw [hs]; rfl)))
    · exact (execDebugStop_of h).trans (congrArg Host.Outcome.next (if_neg (by rw [hs]; decide)))
    · exact (execDebugResume_of h).trans (congrArg Host.Outcome.next (if_pos hs))
    · exact (execDebugStep_of h).trans (congrArg Host.Outcome.next (if_pos hs))
    · exact (execDebugResume_of h).trans (congrArg Host.Outcome.next (if_neg hs))
    · exact (execDebugStep_of h).trans (congrArg Host.Outcome.next (if_neg hs))
  · intro s c v
    have hgo := execStopwWrite_eq s c v
    refine ⟨fun h => ?_, fun h => ?_⟩
    · simp only [h, ↓reduceIte] at hgo
      exact hgo
    · simp only [h, ↓reduceIte] at hgo
      exact hgo
  · intro s t u core n c bs hd hr
    exact ⟨execSyscallEcho_of hd hr, execSyscallTime_of hd hr, execSyscallHostmsg_of hd hr⟩

end Sys2Proof
end

section
/-! Block pools, work queues and compaction (16_attention 16.1, 16.3, 16.6). -/

namespace Sys2Proof.Machine

/-! ### Stores to a pool slot -/

/-- A store of another context than the attached one's changes nothing. -/
theorem State.poolStore_other {s : State} {n c : Nat} (v : DWord) (ha : (s.pool n).att = true) (hc : (s.pool n).ctx.toNat ≠ c) :
    s.poolStore n c v = s := by
  simp only [State.poolStore, ha, bne_iff_ne.mpr hc, Bool.and_self, Bool.not_true, Bool.and_false, Bool.false_eq_true, ↓reduceIte]

/-- A store to a free slot attaches it once its header can be read. -/
theorem State.poolStore_attach {s t : State} {n c : Nat} {v : DWord} (hn : n < 16) (ha : (s.pool n).att = false)
    (hv : v.getLsbD 0 = true) (hr : s.managerReady c (s.pool n).hdr = (t, true)) : s.poolStore n c v = t.poolControl n c v := by
  simp only [State.poolStore, ha, State.attachReady, hv, hr, decide_eq_true hn, Bool.false_and, Bool.not_false, Bool.and_self,
    ↓reduceIte]

theorem State.poolControl_attach {t : State} {n c : Nat} {v : DWord} {ws : List Word} (ha : (t.pool n).att = false)
    (hv : v.getLsbD 0 = true) (hw : t.managerWords c (t.pool n).hdr 16 = some ws) : t.poolControl n c v =
      (t.setPool n { t.pool n with err := (t.pool n).err && !v.getLsbD 30, cmpt := v.getLsbD 2 }).setPool n
        (match poolHeader ws with
          | none => { t.pool n with err := true, cmpt := v.getLsbD 2 }
          | some h => { h with
              hdr := (t.pool n).hdr, att := true, err := (t.pool n).err && !v.getLsbD 30, ctx := BitVec.ofNat 6 c,
              cmpt := v.getLsbD 2, moves := (t.pool n).moves, allocfail := (t.pool n).allocfail }) := by
  simp only [State.poolControl, ha, hv, hw, Option.bind_some, Bool.and_false, Bool.not_false, Bool.and_self, Bool.false_eq_true,
    ↓reduceIte]
  cases poolHeader ws <;> rfl

/-- DETACH keeps CMPT, and the pool leaves. -/
theorem State.poolStore_detach {s : State} {n c : Nat} (hn : n < 16) (ha : (s.pool n).att = true)
    (hc : (s.pool n).ctx.toNat = c) :
    s.poolStore n c (if (s.pool n).cmpt then 6 else 2) = (s.setPool n (s.pool n)).poolDetach n := by
  have hv : (if (s.pool n).cmpt then (6 : DWord) else 2).getLsbD 2 = (s.pool n).cmpt ∧
      (if (s.pool n).cmpt then (6 : DWord) else 2).getLsbD 0 = false ∧
      (if (s.pool n).cmpt then (6 : DWord) else 2).getLsbD 1 = true ∧
      (if (s.pool n).cmpt then (6 : DWord) else 2).getLsbD 30 = false := by
    cases (s.pool n).cmpt <;> decide
  generalize (if (s.pool n).cmpt then (6 : DWord) else 2) = v at hv ⊢
  obtain ⟨h2, h0, h1, h30⟩ := hv
  simp only [State.poolStore, ha, hc, State.attachReady, h0, State.poolControl, h1, h2, h30, decide_eq_true hn, bne_self_eq_false,
    Bool.and_false, Bool.not_false, Bool.and_self, Bool.and_true, Bool.false_and, Bool.false_eq_true, ↓reduceIte]
  have e : { s.pool n with att := true } = s.pool n := by rw [← ha]
  exact congrArg (fun p => (s.setPool n p).poolDetach n) e

/-! ### Stores to a work queue -/

theorem State.wqStore_other {s : State} {q c : Nat} (v : DWord) (ha : (s.wq q).att = true) (hc : (s.wq q).ctx.toNat ≠ c) :
    s.wqStore q c v = s := by
  simp only [State.wqStore, ha, bne_iff_ne.mpr hc, Bool.and_self, Bool.not_true, Bool.and_false, Bool.false_eq_true, ↓reduceIte]

theorem State.wqStore_own {s : State} {q c : Nat} (v : DWord) (hq : q < 16) (hc : (s.wq q).att = true → (s.wq q).ctx.toNat = c) :
    s.wqStore q c v = s.wqControl q c v := by
  refine if_pos ?_
  cases ha : (s.wq q).att
  · rw [decide_eq_true hq]; rfl
  · rw [decide_eq_true hq, hc ha, bne_self_eq_false]; rfl

theorem State.wqControl_close {s : State} {q c : Nat} (ha : (s.wq q).att = true) :
    s.wqControl q c 4 = s.setWq q { s.wq q with closed := true } := by
  have h : (4 : DWord).getLsbD 0 = false ∧ (4 : DWord).getLsbD 1 = false ∧ (4 : DWord).getLsbD 2 = true ∧
      (4 : DWord).getLsbD 30 = false := by decide
  obtain ⟨h0, h1, h2, h30⟩ := h
  simp only [State.wqControl, ha, h0, h1, h2, h30, Bool.not_false, Bool.and_true, Bool.false_and, Bool.false_eq_true, ↓reduceIte]

theorem State.wqControl_detach {s : State} {q c : Nat} (ha : (s.wq q).att = true) :
    s.wqControl q c 2 = s.setWq q (s.wq q).detach := by
  have h : (2 : DWord).getLsbD 1 = true ∧ (2 : DWord).getLsbD 2 = false ∧ (2 : DWord).getLsbD 30 = false := by decide
  obtain ⟨h1, h2, h30⟩ := h
  simp only [State.wqControl, ha, h1, h2, h30, Bool.not_false, Bool.and_true, Bool.false_eq_true, ↓reduceIte]
  have e : { s.wq q with att := true } = s.wq q := by rw [← ha]
  exact congrArg (fun w => s.setWq q w.detach) e

theorem State.wqControl_attach {s : State} {q c : Nat} {v : DWord} (ha : (s.wq q).att = false) (hv : v.getLsbD 0 = true)
    (h30 : v.getLsbD 30 = false) (h1 : 1 ≤ (v.extractLsb' 8 5).toNat) (h16 : (v.extractLsb' 8 5).toNat ≤ 16) :
    s.wqControl q c v = s.setWq q { s.wq q with
      logd := v.extractLsb' 8 5, att := true, ctx := BitVec.ofNat 6 c, closed := false, count := 0, head := 0,
      pulls := (s.wq q).pulls.filter fun x => x.item.isSome } := by
  have hok : ((v.extractLsb' 8 5).toNat == 0 || decide (16 < (v.extractLsb' 8 5).toNat)) = false := by
    rw [beq_eq_false_iff_ne.mpr (by omega), decide_eq_false (by omega)]
    rfl
  simp only [State.wqControl, ha, hv, h30, hok, Bool.not_false, Bool.and_true, Bool.and_false, Bool.false_eq_true, ↓reduceIte]

/-! ### Compaction -/

/-- What an examined descriptor leaves: the pool's scan and the engine's turn advance. -/
def State.examined (u : State) (cls n lbn nblk : Nat) : State :=
  (u.setPool n { u.pool n with scan := (lbn + 1) % nblk }).setEng
    { (u.setPool n { u.pool n with scan := (lbn + 1) % nblk }).eng with
      robin := Map.set (u.setPool n { u.pool n with scan := (lbn + 1) % nblk }).eng.robin cls ((n + 1) % 16) }

/-- An idle engine examines the next descriptor of its next pool, and may start a move. -/
theorem execCompactionStep_of {s t : State} {cls n : Nat} (hc : cls ≤ 3) (hm : Map.find? s.eng.moves cls = none)
    (hn : s.nextPool (Map.getD s.eng.robin cls 0) = some n)
    (hr : s.managerReady (s.pool n).ctx.toNat ((s.pool n).descAddr ((s.pool n).scan % (s.pool n).nblk)) = (t, true)) :
    execCompactionStep cls s = .next (match t.moveFor n cls ((s.pool n).scan % (s.pool n).nblk) with
      | none => t.examined cls n ((s.pool n).scan % (s.pool n).nblk) (s.pool n).nblk
      | some (d, x) =>
        let (u, ok) := t.linesReady (s.pool n).ctx.toNat
          [((s.pool n).descAddr ((s.pool n).scan % (s.pool n).nblk), true), (((s.pool n).bitOf x).1, true)]
        if ok then (u.examined cls n ((s.pool n).scan % (s.pool n).nblk) (s.pool n).nblk).startMove n cls
          ((s.pool n).scan % (s.pool n).nblk) d x else u) := by
  simp only [execCompactionStep, hm, hn, hr, decide_eq_false (Nat.not_lt.mpr hc), Option.isSome_none, Bool.or_self, Bool.not_true,
    Bool.false_eq_true, ↓reduceIte]
  cases t.moveFor n cls ((s.pool n).scan % (s.pool n).nblk) <;> rfl

/-- A move starts when its descriptor and its page's bit are written. -/
theorem State.startMove_marks {v w : State} {n cls lbn : Nat} {d : DWord} {x : PageId}
    (h : ((v.managerDesc (v.pool n) lbn (d ||| 0x100)).bind fun y => y.managerMark (v.pool n) x true) = some w) :
    v.startMove n cls lbn d x = w.setEng { w.eng with
      moves := Map.set w.eng.moves cls
        { pool := n, lbn := lbn, cls := cls, old := descPage d, dst := (v.pool n).pageAddr x } } := by
  obtain ⟨y, hy, hw⟩ := Option.bind_eq_some_iff.mp h
  simp only [State.startMove, hy, hw]

theorem State.startMove_faults {v : State} {n cls lbn : Nat} {d : DWord} {x : PageId}
    (h : v.managerDesc (v.pool n) lbn (d ||| 0x100) = none) : v.startMove n cls lbn d x = v.endCompaction n := by
  simp only [State.startMove, h]

theorem execMovePublish_of {s t : State} {cls : Nat} {m : Move} (hm : Map.find? s.eng.moves cls = some m)
    (hr : s.moveReady m = (t, true)) : execMovePublish cls s = .next (t.publish m) := by
  simp only [execMovePublish, hm, hr, ↓reduceIte]

/-- A move whose page is copied settles at the new page. -/
theorem State.publish_copied {t u v : State} {m : Move}
    (hu : t.moveLines (t.pool m.pool).ctx.toNat m.old m.dst 0 (64 * (m.cls + 1)) = some u)
    (hv : u.settleDesc (t.pool m.pool) m m.dst = some v) : t.publish m =
      ((v.freePage (t.pool m.pool) m.pool ((t.pool m.pool).pageAt m.cls m.old)).setPool m.pool
        { (v.freePage (t.pool m.pool) m.pool ((t.pool m.pool).pageAt m.cls m.old)).pool m.pool with
          moves := (t.pool m.pool).moves + 1 }).moveOver m := by
  simp only [State.publish, hu, hv, Option.bind_some]

/-- A move whose page cannot be copied settles at the old one. -/
theorem State.publish_faulted {t v : State} {m : Move}
    (hu : t.moveLines (t.pool m.pool).ctx.toNat m.old m.dst 0 (64 * (m.cls + 1)) = none)
    (hv : t.settleDesc (t.pool m.pool) m m.old = some v) : t.publish m =
      ((v.freePage (t.pool m.pool) m.pool ((t.pool m.pool).pageAt m.cls m.dst)).endCompaction m.pool).moveOver m := by
  simp only [State.publish, hu, hv, Option.bind_none, State.orElse, Option.getD_some]

/-! ### Pulls -/

theorem execWqpullComplete_of {s u : State} {q : Nat} {p : Pull} {ws : List Word} {bs : List Byte}
    (hp : (((s.wqAssign q).wq q).pulls.find? fun x => x.item.isSome && x.parked.isNone) = some p) (hi : p.item = some ws)
    (hw : (s.wqAssign q).engineWrite (clusterOf p.core) p.ctx { rank := p.core + 1, since := (s.wqAssign q).mem.written } p.dst
      (ws.flatMap bytesOf) = (u, .ok bs)) : execWqpullComplete q s = .next (u.pullEnd q p 0 0) := by
  simp only [execWqpullComplete, hp, hi, Option.getD_some, State.pullWrite, hw]

end Sys2Proof.Machine

namespace Sys2Proof
open Sys2Proof.Machine

/-- Settles O41: stores to a slot by its state, one descriptor of compaction, a move's end and a pull's. -/
theorem poolAndWorkQueueEvents : Obligations.PoolAndWorkQueueEvents := by
  refine ⟨?_, ?_, ?_, ?_, ?_⟩
  · intro s n c p hn
    refine ⟨fun ha hc v => ⟨?_, ?_⟩, fun ha v t ws hv hr hp hw => ?_, fun ha hc => ?_⟩
    · show Host.Outcome.next (if v.getLsbD 0 then s.poolStore n c v else s) = _
      rw [State.poolStore_other v ha hc, ite_self]
    · exact congrArg Host.Outcome.next (State.poolStore_other _ ha hc)
    · have hgo : exec (.poolAttach n c v) s = .next (t.poolControl n c v) :=
        congrArg Host.Outcome.next ((if_pos hv).trans (State.poolStore_attach hn ha hv hr))
      have hctl := State.poolControl_attach (t := t) (n := n) (c := c) (v := v) (ws := ws)
        (by rw [hp]; exact ha) hv (by rw [hp]; exact hw)
      rw [hp] at hctl
      refine ⟨fun h => ?_, fun h hh => ?_⟩
      · rw [h] at hctl
        exact hgo.trans (congrArg Host.Outcome.next hctl)
      · rw [hh] at hctl
        exact hgo.trans (congrArg Host.Outcome.next hctl)
    · exact congrArg Host.Outcome.next (State.poolStore_detach hn ha hc)
  · intro s q c w hq
    have hdet (ha : w.att = true) (hc : w.ctx.toNat = c) : exec (.wqDetach q c) s = .next (s.setWq q w.detach) :=
      congrArg Host.Outcome.next ((State.wqStore_own 2 hq fun _ => hc).trans (State.wqControl_detach ha))
    refine ⟨fun ha hc => ⟨?_, ?_⟩, fun ha hc => ⟨?_, ?_, ?_⟩, fun ha v hv h30 h1 h16 => ?_⟩
    · exact congrArg Host.Outcome.next (State.wqStore_other 2 ha hc)
    · exact congrArg Host.Outcome.next (State.wqStore_other 4 ha hc)
    · exact congrArg Host.Outcome.next ((State.wqStore_own 4 hq fun _ => hc).trans (State.wqControl_close ha))
    · intro h0 hw
      refine (hdet ha hc).trans (congrArg (fun w => Host.Outcome.next (s.setWq q w)) (if_neg ?_))
      simp [h0, hw]
    · intro hne
      refine (hdet ha hc).trans (congrArg (fun w => Host.Outcome.next (s.setWq q w)) (if_pos ?_))
      simpa using hne
    · exact congrArg Host.Outcome.next ((if_pos hv).trans ((State.wqStore_own v hq fun h =>
        absurd (ha.symm.trans h) Bool.false_ne_true).trans
        (State.wqControl_attach ha hv h30 h1 h16)))
  · intro s t cls n p lbn c next hc hm hn hr
    have hgo := execCompactionStep_of hc hm hn hr
    refine ⟨fun h => ?_, fun d x u h hl => ?_⟩
    · rw [h] at hgo
      exact hgo
    · rw [h] at hgo
      have hstart : exec (.compactionStep cls) s = .next ((next u).startMove n cls lbn d x) := by
        refine hgo.trans (congrArg Host.Outcome.next ?_)
        dsimp only
        rw [hl]
        rfl
      intro v q m
      exact ⟨fun w hw => hstart.trans (congrArg Host.Outcome.next (State.startMove_marks hw)),
        fun hd => hstart.trans (congrArg Host.Outcome.next (State.startMove_faults hd))⟩
  · intro s t cls m p c hm hr
    have hgo := execMovePublish_of hm hr
    refine ⟨?_, fun hu v hv => hgo.trans (congrArg Host.Outcome.next (State.publish_faulted hu hv))⟩
    intro u v hu hv w
    exact hgo.trans (congrArg Host.Outcome.next (State.publish_copied hu hv))
  · intro s q p ws t hp hi u hu
    exact execWqpullComplete_of hp hi hu

end Sys2Proof
end

section
/-! Trust commands on worlds, pages, quotas and keys (19_trust 19.1, 19.5, 19.7). -/

namespace Sys2Proof.Machine

/-! ### CREATE and DESTROY -/

section
variable {t : State} {r : TrustRun}

theorem State.createWorld_noIdentity (h : t.trust.ident.present = false) : t.createWorld r = t.trustEnd 9 := by
  simp only [State.createWorld, State.noIdentity, h, Bool.not_false, ↓reduceIte]

theorem State.createWorld_reserved (h : t.trust.ident.present = true) (hw : r.world < 2) : t.createWorld r = t.trustEnd 1 := by
  simp only [State.createWorld, State.noIdentity, h, hw, Bool.not_true, Bool.false_eq_true, ↓reduceIte]

theorem State.createWorld_taken (h : t.trust.ident.present = true) (hw : 2 ≤ r.world) (hs : (t.world r.world).st ≠ .free) :
    t.createWorld r = t.trustEnd 2 := by
  simp only [State.createWorld, State.noIdentity, h, Nat.not_lt.mpr hw, bne_iff_ne.mpr hs, Bool.not_true, Bool.false_eq_true,
    ↓reduceIte]

/-- A free world is made LIVE with keys that are drawn. -/
theorem State.createWorld_free (h : t.trust.ident.present = true) (hw : 2 ≤ r.world) (hs : (t.world r.world).st = .free) :
    t.createWorld r = (t.drawKeys.1.setWorld r.world { World.init with
      st := .live, keys := some t.drawKeys.2, authority := BitVec.ofNat 768 (natOf (t.hostBytes r.arg0 96)),
      limit := List.replicate 4 (BitVec.allOnes 64) }).trustEnd 0 := by
  simp only [State.createWorld, State.noIdentity, h, Nat.not_lt.mpr hw, hs, bne_self_eq_false, Bool.not_true, Bool.false_eq_true,
    ↓reduceIte, State.hostNat]

theorem State.destroyWorld_reserved (hw : r.world < 2) : t.destroyWorld r = t.trustEnd 1 := if_pos hw

theorem State.destroyWorld_free (hw : 2 ≤ r.world) (hs : (t.world r.world).st = .free) : t.destroyWorld r = t.trustEnd 2 := by
  simp only [State.destroyWorld, Nat.not_lt.mpr hw, hs, BEq.rfl, ↓reduceIte]

theorem State.destroyWorld_used (hw : 2 ≤ r.world) (hs : (t.world r.world).st ≠ .free) (hc : t.contextsOf r.world ≠ []) :
    t.destroyWorld r = t.trustEnd 3 := by
  simp only [State.destroyWorld, Nat.not_lt.mpr hw, beq_eq_false_iff_ne.mpr hs, List.isEmpty_eq_false_iff.mpr hc, Bool.not_false,
    Bool.false_eq_true, ↓reduceIte]

/-- A world without contexts is closed, its pages are released, and it is free. -/
theorem State.destroyWorld_closes {u : State} (hw : 2 ≤ r.world) (hs : (t.world r.world).st ≠ .free)
    (hc : t.contextsOf r.world = [])
    (hu : (t.setWorld r.world { t.world r.world with st := .closing }).releasePages
      ((t.setWorld r.world { t.world r.world with st := .closing }).pagesOfWorld r.world) = (u, true)) :
    t.destroyWorld r = ((((u.modWorld r.world fun x => { x with keys := none, nextKeys := none, sp := none }).usageRecord
      r.world 0 9).modWorld r.world fun x => { x with st := .free, images := [], allowed := [] })).trustEnd 0 := by
  simp only [State.destroyWorld, Nat.not_lt.mpr hw, beq_eq_false_iff_ne.mpr hs, hc, List.isEmpty_nil, hu, Bool.not_true,
    Bool.false_eq_true, ↓reduceIte]

/-! ### ASSIGN and RECLAIM -/

/-- A plan of one page is carried out once no holder has a line of it. -/
theorem State.pageCmd_one {u : State} {pp : Nat} (f : State → Nat → State) (hu : t.pagesReady [pp] = (u, true)) :
    t.pageCmd pp (1, 0) f = ((f u pp).setOut 1).trustEnd 0 := by
  have hl : (List.range 1).map (pp + ·) = [pp] := rfl
  simp only [State.pageCmd, hl, hu, List.foldl_cons, List.foldl_nil, Bool.not_true, Bool.false_eq_true, ↓reduceIte]
  rfl

theorem State.assignPages_unaligned (h : r.arg0.toNat % 4096 ≠ 0) : t.assignPages r = t.trustEnd 1 :=
  if_pos (bne_iff_ne.mpr h)

theorem State.isLive_iff {w : Nat} : t.isLive w = true ↔ (t.world w).st = .live := beq_iff_eq

theorem State.isLive_of (h : (t.world r.world).st = .live) : t.isLive r.world = true := State.isLive_iff.mpr h

theorem State.not_isLive {w : Nat} (h : (t.world w).st ≠ .live) : t.isLive w = false := beq_eq_false_iff_ne.mpr h

theorem State.assignPages_dead (h : r.arg0.toNat % 4096 = 0) (hs : (t.world r.world).st ≠ .live) :
    t.assignPages r = t.trustEnd 2 := by
  simp only [State.assignPages, h, bne_self_eq_false, State.not_isLive hs, Bool.not_false, Bool.false_eq_true, ↓reduceIte]

/-- One page of device memory that no world has goes to a LIVE world within its quota. -/
theorem State.assignPages_one {u : State} (h : r.arg0.toNat % 4096 = 0) (hs : (t.world r.world).st = .live) (h1 : r.arg1 = 1)
    (hsys : (t.potAt (r.arg0.toNat / 4096)).sys = false) (hw : (t.potAt (r.arg0.toNat / 4096)).world = 0)
    (hd : t.isDev (r.arg0.toNat / 4096 * 4096) = true)
    (hq : ((t.world r.world).used.getD 3 0).toNat + 1 ≤ ((t.world r.world).limit.getD 3 0).toNat)
    (hu : t.pagesReady [r.arg0.toNat / 4096] = (u, true)) :
    t.assignPages r = ((u.givePage r.world (r.arg0.toNat / 4096)).setOut 1).trustEnd 0 := by
  have hone : (1 : DWord).toNat = 1 := rfl
  have hplan : t.assignPlan r.world (r.arg0.toNat / 4096) ((t.world r.world).used.getD 3 0).toNat 1 = (1, 0) := by
    simp only [State.assignPlan, hsys, hw, hd, Nat.not_lt.mpr hq, bne_self_eq_false, Bool.not_true, Bool.or_self,
      Bool.false_eq_true, ↓reduceIte, Nat.zero_add]
  simp only [State.assignPages, h, h1, hone, hplan, bne_self_eq_false, State.isLive_of hs, Bool.not_true, Bool.false_eq_true,
    ↓reduceIte]
  exact State.pageCmd_one _ hu

theorem State.reclaimPages_one {u : State} (h : r.arg0.toNat % 4096 = 0) (h1 : r.arg1 = 1)
    (hsys : (t.potAt (r.arg0.toNat / 4096)).sys = false) (hd : t.isDev (r.arg0.toNat / 4096 * 4096) = true)
    (hu : t.pagesReady [r.arg0.toNat / 4096] = (u, true)) :
    t.reclaimPages r = ((u.releasePage (r.arg0.toNat / 4096)).setOut 1).trustEnd 0 := by
  have hone : (1 : DWord).toNat = 1 := rfl
  have hplan : t.reclaimPlan (r.arg0.toNat / 4096) 1 = (1, 0) := by
    simp only [State.reclaimPlan, hsys, hd, Bool.not_true, Bool.or_self, Bool.false_eq_true, ↓reduceIte, Nat.zero_add]
  simp only [State.reclaimPages, h, h1, hone, hplan, bne_self_eq_false, Bool.false_eq_true, ↓reduceIte]
  exact State.pageCmd_one _ hu

/-! ### QUOTA and ROTATE -/

theorem State.setQuota_unknown (h : 4 ≤ r.arg0.toNat) : t.setQuota r = t.trustEnd 1 := if_pos h

theorem State.setQuota_live (h : r.arg0.toNat < 4) (hs : (t.world r.world).st = .live) : t.setQuota r =
    (((t.usageRecord r.world 0 6).metered r.world fun x => { x with limit := x.limit.set r.arg0.toNat r.arg1 }).setOut
      ((t.world r.world).used.getD r.arg0.toNat 0)).trustEnd 0 := by
  simp only [State.setQuota, Nat.not_le.mpr h, State.isLive_of hs, Bool.not_true, Bool.false_eq_true, ↓reduceIte]

theorem State.rotateWorld_busy (h0 : r.world ≠ 0) (hs : (t.world r.world).st = .live)
    (h : (t.world r.world).sp.isSome = true ∨ 4 ≤ t.sweeps) : t.rotateWorld r = t.trustEnd 6 := by
  have hb : ((t.world r.world).sp.isSome || decide (4 ≤ t.sweeps)) = true := by
    rw [Bool.or_eq_true, decide_eq_true_eq]
    exact h
  simp only [State.rotateWorld, beq_eq_false_iff_ne.mpr h0, State.isLive_of hs, hb, Bool.not_true, Bool.false_eq_true, ↓reduceIte]

theorem State.rotateWorld_starts (h0 : r.world ≠ 0) (hs : (t.world r.world).st = .live)
    (hsp : (t.world r.world).sp = none) (hn : t.sweeps < 4) : t.rotateWorld r = (t.startSweep r.world).trustEnd 0 := by
  simp only [State.rotateWorld, beq_eq_false_iff_ne.mpr h0, State.isLive_of hs, hsp, Nat.not_le.mpr hn, Option.isSome_none,
    decide_false, Bool.or_self, Bool.not_true, Bool.false_eq_true, ↓reduceIte]

end

/-! ### Sweeps -/

/-- A sweep that some lines are left to goes on from the line after those passed. -/
theorem execKeySweepComplete_on {s : State} {w lo n : Nat} (h : (s.world w).sp = some lo) (hn : 0 < n)
    (hl : lo + 64 * n < s.devBytes) : execKeySweepComplete (w, n) s =
      .next ((s.sweepLines w lo (lo + 64 * n)).setWorld w { s.world w with sp := some (lo + 64 * n) }) := by
  simp only [execKeySweepComplete, h, beq_eq_false_iff_ne.mpr (Nat.ne_of_gt hn), Nat.min_eq_right (Nat.le_of_lt hl), hl,
    Bool.false_eq_true, ↓reduceIte]

/-- A sweep that passes the last line ends with the new keys. -/
theorem execKeySweepComplete_ends {s : State} {w lo n : Nat} (h : (s.world w).sp = some lo)
    (hn : n = 0 ∨ s.devBytes ≤ lo + 64 * n) : execKeySweepComplete (w, n) s =
      .next (((s.sweepLines w lo s.devBytes).setWorld w { s.world w with
        keys := (s.world w).nextKeys, nextKeys := none, kgen := (s.world w).kgen + 1, sp := none }).usageRecord w 0 8) := by
  have hhi : (if n == 0 then s.devBytes else min s.devBytes (lo + 64 * n)) = s.devBytes := by
    split
    · rfl
    · next h0 => exact Nat.min_eq_left (hn.resolve_left (by simpa using h0))
  simp only [execKeySweepComplete, h, hhi, Nat.lt_irrefl, ↓reduceIte]

end Sys2Proof.Machine

namespace Sys2Proof
open Sys2Proof.Machine

/-- Settles O42: each command by the state of its world, with the registers of its GO. -/
theorem trustWorldCommands : Obligations.TrustWorldCommands := by
  refine ⟨?_, ?_, ?_, ?_, ?_, ?_, ?_⟩
  · intro s w t hr hw
    have hgo : exec (.create w) s = .next (t.createWorld _) := congrArg Host.Outcome.next (State.trustRun_of _ hr hw)
    refine ⟨fun h => ?_, fun h => ⟨fun h2 => ?_, fun h2 hs => ?_, fun h2 hs => ?_⟩⟩
    · exact hgo.trans (congrArg Host.Outcome.next (State.createWorld_noIdentity h))
    · exact hgo.trans (congrArg Host.Outcome.next (State.createWorld_reserved h h2))
    · exact hgo.trans (congrArg Host.Outcome.next (State.createWorld_taken h h2 hs))
    · exact hgo.trans (congrArg Host.Outcome.next (State.createWorld_free h h2 hs))
  · intro s u w t hr hw
    have hgo : exec (.destroy w) s = .next (t.destroyWorld _) := congrArg Host.Outcome.next (State.trustRun_of _ hr hw)
    refine ⟨fun h2 => ?_, fun h2 hs => ?_, fun h2 hs hc => ?_, ?_⟩
    · exact hgo.trans (congrArg Host.Outcome.next (State.destroyWorld_reserved h2))
    · exact hgo.trans (congrArg Host.Outcome.next (State.destroyWorld_free h2 hs))
    · exact hgo.trans (congrArg Host.Outcome.next (State.destroyWorld_used h2 hs hc))
    · intro v h2 hs hc hu
      exact hgo.trans (congrArg Host.Outcome.next (State.destroyWorld_closes h2 hs hc hu))
  · intro s u w t pp hr hw
    have hgo : exec (.assign w) s = .next (t.assignPages _) := congrArg Host.Outcome.next (State.trustRun_of _ hr hw)
    refine ⟨fun h => ?_, fun h hs => ?_, fun h hs h1 hsys hw0 hd hq hu => ?_⟩
    · exact hgo.trans (congrArg Host.Outcome.next (State.assignPages_unaligned h))
    · exact hgo.trans (congrArg Host.Outcome.next (State.assignPages_dead h hs))
    · exact hgo.trans (congrArg Host.Outcome.next (State.assignPages_one h hs h1 hsys hw0 hd hq hu))
  · intro s u w t pp hr hw h h1 hsys hd hu
    have hgo : exec (.reclaim w) s = .next (t.reclaimPages _) := congrArg Host.Outcome.next (State.trustRun_of _ hr hw)
    exact hgo.trans (congrArg Host.Outcome.next (State.reclaimPages_one h h1 hsys hd hu))
  · intro s w t k hr hw
    have hgo : exec (.quota w) s = .next (t.setQuota _) := congrArg Host.Outcome.next (State.trustRun_of _ hr hw)
    exact ⟨fun h => hgo.trans (congrArg Host.Outcome.next (State.setQuota_unknown h)),
      fun h hs => hgo.trans (congrArg Host.Outcome.next (State.setQuota_live h hs))⟩
  · intro s w t hr hw h0 hs
    have hgo : exec (.rotate w) s = .next (t.rotateWorld _) := congrArg Host.Outcome.next (State.trustRun_of _ hr hw)
    exact ⟨fun h => hgo.trans (congrArg Host.Outcome.next (State.rotateWorld_busy h0 hs h)),
      fun hsp hn => hgo.trans (congrArg Host.Outcome.next (State.rotateWorld_starts h0 hs hsp hn))⟩
  · intro s w lo n x h
    exact ⟨execKeySweepComplete_on h, execKeySweepComplete_ends h⟩

end Sys2Proof
end

section
/-! Trust commands on images, chains, logs and sessions, and tag blocks (19_trust 19.2, 19.3, 19.6, 19.8). -/

namespace Sys2Proof.Machine

section
variable {t : State} {r : TrustRun}

/-! ### Images and certificates -/

/-- An image that the world's authority did not sign is refused. -/
theorem State.registerImage_unknown (hi : t.trust.ident.present = true) (h1 : 1 ≤ r.arg1.toNat) (h2 : r.arg1.toNat ≤ 2 ^ 20)
    (hs : (t.world r.world).st = .live) (hk : Config.cryptoOk 1 [(t.world r.world).authority.toNat,
      (sha384Bytes (t.hostBytes r.arg0 r.arg1.toNat)).toNat, natOf (t.hostBytes r.arg2 96)] = false) :
    t.registerImage r = t.trustEnd 7 := by
  have hn : (r.arg1.toNat == 0 || decide (2 ^ 20 < r.arg1.toNat)) = false := by
    rw [beq_eq_false_iff_ne.mpr (Nat.ne_of_gt h1), decide_eq_false (Nat.not_lt.mpr h2)]
    rfl
  simp only [State.registerImage, State.noIdentity, State.hostNat, hi, hn, State.isLive_of hs, hk, Bool.not_true, Bool.not_false,
    Bool.false_eq_true, ↓reduceIte]

/-- The image that a registration adds. -/
def State.newImage (t : State) (r : TrustRun) : Image :=
  { num := (t.world r.world).freeImage, digest := sha384Bytes (t.hostBytes r.arg0 r.arg1.toNat),
    bytes := t.hostBytes r.arg0 r.arg1.toNat, order := t.trust.registered }

/-- The world with the image that a registration adds. -/
def State.withImage (t : State) (r : TrustRun) : State :=
  t.setWorld r.world { t.world r.world with images := (t.world r.world).images ++ [t.newImage r] }

theorem State.registerImage_known (hi : t.trust.ident.present = true) (h1 : 1 ≤ r.arg1.toNat) (h2 : r.arg1.toNat ≤ 2 ^ 20)
    (hs : (t.world r.world).st = .live) (hk : Config.cryptoOk 1 [(t.world r.world).authority.toNat,
      (sha384Bytes (t.hostBytes r.arg0 r.arg1.toNat)).toNat, natOf (t.hostBytes r.arg2 96)] = true) :
    t.registerImage r = (((((t.withImage r).setTrust { (t.withImage r).trust with
      registered := (t.withImage r).trust.registered + 1 }).extendMr 6
        (imageInput (sha384Bytes (t.hostBytes r.arg0 r.arg1.toNat)) r.world)).setOut
          (BitVec.ofNat 64 (t.world r.world).freeImage)).trustEnd 0) := by
  have hn : (r.arg1.toNat == 0 || decide (2 ^ 20 < r.arg1.toNat)) = false := by
    rw [beq_eq_false_iff_ne.mpr (Nat.ne_of_gt h1), decide_eq_false (Nat.not_lt.mpr h2)]
    rfl
  simp only [State.registerImage, State.noIdentity, State.hostNat, hi, hn, State.isLive_of hs, hk, Bool.not_true,
    Bool.false_eq_true, ↓reduceIte]
  rfl

/-- CERT writes a slot that no challenge has locked, and waits for a locked one. -/
theorem State.setCert_of (h1 : 1 ≤ r.arg0.toNat) (h8 : r.arg0.toNat < 8) (hn : 1 ≤ r.arg2.toNat) (hm : r.arg2.toNat ≤ 2 ^ 16) :
    t.setCert r = if t.slotLocked r.arg0.toNat then t else (t.setTrust { t.trust with ident := { t.trust.ident with
      chains := Map.set t.trust.ident.chains r.arg0.toNat
        (r.arg2.toNat, sha384Bytes (t.hostBytes r.arg1 r.arg2.toNat)) } }).trustEnd 0 := by
  have hok : (r.arg0.toNat == 0 || decide (8 ≤ r.arg0.toNat) || r.arg2.toNat == 0 || decide (2 ^ 16 < r.arg2.toNat)) = false := by
    rw [beq_eq_false_iff_ne.mpr (Nat.ne_of_gt h1), decide_eq_false (Nat.not_le.mpr h8), beq_eq_false_iff_ne.mpr (Nat.ne_of_gt hn),
      decide_eq_false (Nat.not_lt.mpr hm)]
    rfl
  simp only [State.setCert, hok, Bool.false_eq_true, ↓reduceIte]

/-! ### Records of a world -/

theorem State.checkpointCmd_live (hi : t.trust.ident.present = true) (hs : (t.world r.world).st = .live) :
    t.checkpointCmd r = (t.checkpointNow r.world).trustEnd 0 := by
  simp only [State.checkpointCmd, State.noIdentity, hi, State.isLive_of hs, Bool.not_true, Bool.false_eq_true, ↓reduceIte]

theorem State.checkpointCmd_noIdentity (hi : t.trust.ident.present = false) : t.checkpointCmd r = t.trustEnd 9 := by
  simp only [State.checkpointCmd, State.noIdentity, hi, Bool.not_false, ↓reduceIte]

theorem State.allowPeer_X (hi : t.trust.ident.present = true) (hx : t.fitX = true) (hs : (t.world r.world).st = .live) :
    t.allowPeer r = (t.modWorld r.world fun x =>
      { x with allowed := BitVec.ofNat 384 (natOf (t.hostBytes r.arg0 48)) :: x.allowed }).trustEnd 0 := by
  simp only [State.allowPeer, State.noIdentity, State.hostNat, hi, hx, State.isLive_of hs, Bool.not_true, Bool.false_eq_true,
    ↓reduceIte]

theorem State.allowPeer_H (hi : t.trust.ident.present = true) (hx : t.fitX = false) : t.allowPeer r = t.trustEnd 1 := by
  simp only [State.allowPeer, State.noIdentity, hi, hx, Bool.not_true, Bool.not_false, Bool.false_eq_true, ↓reduceIte]

theorem State.setLog_shape (h : bitsOf r.arg1.toNat 4 0 < 4 ∨ 20 < bitsOf r.arg1.toNat 4 0) : t.setLog r = t.trustEnd 1 := by
  refine if_pos ?_
  rw [Bool.or_eq_true, decide_eq_true_eq, decide_eq_true_eq]
  exact h

theorem State.setLog_live (h4 : 4 ≤ bitsOf r.arg1.toNat 4 0) (h20 : bitsOf r.arg1.toNat 4 0 ≤ 20)
    (hs : (t.world r.world).st = .live) : t.setLog r = (t.modWorld r.world fun x =>
      { x with logRing := some (r.arg0, bitsOf r.arg1.toNat 4 0, r.arg2) }).trustEnd 0 := by
  simp only [State.setLog, Nat.not_lt.mpr h4, Nat.not_lt.mpr h20, decide_false, Bool.or_self, State.isLive_of hs, Bool.not_true,
    Bool.false_eq_true, ↓reduceIte]

/-! ### Near-data sessions -/

/-- A peer that is not the one expected, or an exchange that it refuses, ends the command with code 8. -/
theorem State.openSession_refused {n : Nat} {ok : Bool} {peer : BitVec 384} (hi : t.trust.ident.present = true)
    (hx : t.fitX = false) (h0 : r.arg0.toNat < 2) (h1 : r.arg1.toNat < 64) (hs : (t.world r.world).st = .live)
    (h : peer ≠ BitVec.ofNat 384 (natOf (t.hostBytes r.arg2 48)) ∨ ok = false) : t.openSession r n ok peer = t.trustEnd 8 := by
  have hbad : (peer != BitVec.ofNat 384 (natOf (t.hostBytes r.arg2 48)) || !ok) = true := by
    rcases h with h | h
    · rw [bne_iff_ne.mpr h, Bool.true_or]
    · rw [h, Bool.not_false, Bool.or_true]
  simp only [State.openSession, State.noIdentity, State.hostNat, hi, hx, Nat.not_le.mpr h0, Nat.not_le.mpr h1,
    State.isLive_of hs, hbad,
    decide_false, Bool.or_self, Bool.not_true, Bool.false_eq_true, ↓reduceIte]

/-- The session that an accepted exchange opens. -/
def State.newSession (t : State) (r : TrustRun) (n : Nat) : Session :=
  { num := n, world := r.world, key := sessionKey (Config.freeKey t.fresh) r.arg1.toNat n, next := 1, last := 0 }

theorem State.openSession_accepted {n : Nat} (hi : t.trust.ident.present = true) (hx : t.fitX = false)
    (h0 : r.arg0.toNat < 2) (h1 : r.arg1.toNat < 64) (hs : (t.world r.world).st = .live) :
    t.openSession r n true (BitVec.ofNat 384 (natOf (t.hostBytes r.arg2 48))) =
      (((({ t with fresh := t.fresh + 1 } : State).setTrust { t.trust with
        nd := t.newSession r n :: t.trust.nd.filter fun y => y.num != n }).setOut (BitVec.ofNat 64 n)).trustEnd 0) := by
  simp only [State.openSession, State.noIdentity, State.hostNat, hi, hx, Nat.not_le.mpr h0, Nat.not_le.mpr h1, State.isLive_of hs,
    decide_false, bne_self_eq_false, Bool.or_self, Bool.not_true, Bool.false_eq_true, ↓reduceIte]
  rfl

end

/-! ### Unknown commands, usage and tag blocks -/

/-- An unknown command that is given GO ends at once with code 1. -/
theorem execTrustUnknownCommand_of {s : State} {code : Nat} (hr : s.trust.cmd.run = none)
    (hc : code = 0 ∨ 13 ≤ code ∧ code ≤ 255) :
    execTrustUnknownCommand code s = .next ((s.trustBegin s.trust.cmd.world.toNat code).trustEnd 1) := by
  have hgo : (code == 0 || (decide (13 ≤ code) && decide (code ≤ 255))) = true := by
    rw [Bool.or_eq_true, beq_iff_eq, Bool.and_eq_true, decide_eq_true_eq, decide_eq_true_eq]
    exact hc
  have hw : s.trust.cmd.world.toNat < 64 := s.trust.cmd.world.isLt
  simp only [execTrustUnknownCommand, hgo, hr, Option.map_none, Option.getD_none, ↓reduceIte, State.trustRun_of _ hr hw]

theorem execUsagePeriodic_of {s : State} {w : Nat} (h : (s.world w).lastPeriodic + 1000000 ≤ s.ticks.toNat)
    (hc : ∃ c ∈ s.contextsOf w, (s.ctx c).resident = true) : execUsagePeriodic w s =
      .next ((s.usageRecord w 0 7).modWorld w fun x => { x with lastPeriodic := s.ticks.toNat }) := by
  have hany : ((s.contextsOf w).any fun c => (s.ctx c).resident) = true := List.any_eq_true.mpr hc
  simp only [execUsagePeriodic, h, hany, decide_true, Bool.and_self, ↓reduceIte]

/-- GO of an idle tag block makes it busy under the session that SESSION names. -/
theorem TagBlock.go_idle {b : TagBlock} {v : Word} (hv : v.getLsbD 31 = true) (hb : b.busy = false) : b.go v =
    { b with session := v.extractLsb' 0 16, under := v.extractLsb' 0 16, busy := true, done := false } := by
  simp only [TagBlock.go, hv, hb, Bool.false_eq_true, ↓reduceIte]

theorem execNearDataTagDone_none {s : State} {c : Nat} (hb : (s.ctx c).tag.busy = true) (h : s.tagSession c = none) :
    execNearDataTagDone c s = .next (s.setCtx c { s.ctx c with tag := { (s.ctx c).tag with busy := false, err := 12 } }) := by
  simp only [execNearDataTagDone, hb, h, Bool.not_true, Bool.false_eq_true, ↓reduceIte]
  rfl

/-- The context with the tag that its session's key has made. -/
def State.withTag (s : State) (c : Nat) (y : Session) : State :=
  s.setCtx c { s.ctx c with tag := { (s.ctx c).tag with
    busy := false, done := true, err := 0, pctr := y.next,
    tag := ndTag y.key (((s.ctx c).tag.body.drop 1).take 9 ++ words2 y.next) } }

theorem execNearDataTagDone_of {s : State} {c : Nat} {y : Session} (hb : (s.ctx c).tag.busy = true)
    (h : s.tagSession c = some y) : execNearDataTagDone c s = .next ((s.withTag c y).setTrust { (s.withTag c y).trust with
      nd := (s.withTag c y).trust.nd.map fun z => if z.num = y.num then { z with next := z.next + 1 } else z }) := by
  simp only [execNearDataTagDone, hb, h, Bool.not_true, Bool.false_eq_true, ↓reduceIte, beq_iff_eq]
  rfl

end Sys2Proof.Machine

namespace Sys2Proof
open Sys2Proof.Machine

/-- Settles O43: each command by what it needs, and a tag block by its session. -/
theorem trustRecordCommands : Obligations.TrustRecordCommands := by
  refine ⟨?_, ?_, ?_, ?_, ?_, ?_, ?_, ?_⟩
  · intro s w t x n code digest known hr hw hi h1 h2 hs
    have hgo : exec (.register w) s = .next (t.registerImage _) := congrArg Host.Outcome.next (State.trustRun_of _ hr hw)
    refine ⟨fun hk => hgo.trans (congrArg Host.Outcome.next (State.registerImage_unknown hi h1 h2 hs hk)), ?_⟩
    intro hk image u
    exact hgo.trans (congrArg Host.Outcome.next (State.registerImage_known hi h1 h2 hs hk))
  · intro s w t slot n hr hw h1 h8 hn hm
    have hgo : exec (.cert w) s = .next (t.setCert _) := congrArg Host.Outcome.next (State.trustRun_of _ hr hw)
    have hcert := State.setCert_of (t := t) (r := TrustRun.mk 7 w s.trust.cmd.arg0 s.trust.cmd.arg1 s.trust.cmd.arg2) h1 h8 hn hm
    refine ⟨fun hl => ?_, fun hl => ?_⟩
    · exact hgo.trans (congrArg Host.Outcome.next (hcert.trans (if_pos hl)))
    · exact hgo.trans (congrArg Host.Outcome.next (hcert.trans (if_neg fun h => Bool.false_ne_true (hl.symm.trans h))))
  · intro s w hr hw hs
    have hcheck : exec (.checkpoint w) s = .next ((s.trustBegin w 8).checkpointCmd _) :=
      congrArg Host.Outcome.next (State.trustRun_of _ hr hw)
    have hallow : exec (.ndallow w) s = .next ((s.trustBegin w 10).allowPeer _) :=
      congrArg Host.Outcome.next (State.trustRun_of _ hr hw)
    have hlog : exec (.log w) s = .next ((s.trustBegin w 9).setLog _) := congrArg Host.Outcome.next (State.trustRun_of _ hr hw)
    refine ⟨fun hi => ⟨?_, fun hx => ?_, fun hx => ?_⟩, fun hi => ?_, ?_⟩
    · exact hcheck.trans (congrArg Host.Outcome.next (State.checkpointCmd_live hi hs))
    · exact hallow.trans (congrArg Host.Outcome.next (State.allowPeer_X hi hx hs))
    · exact hallow.trans (congrArg Host.Outcome.next (State.allowPeer_H hi hx))
    · exact hcheck.trans (congrArg Host.Outcome.next (State.checkpointCmd_noIdentity hi))
    · exact ⟨fun h => hlog.trans (congrArg Host.Outcome.next (State.setLog_shape h)),
        fun h4 h20 => hlog.trans (congrArg Host.Outcome.next (State.setLog_live h4 h20 hs))⟩
  · intro s w n t hr hw hn hi hx h0 h1 hs expected
    have hgo (ok : Bool) (peer : BitVec 384) : exec (.ndopen w n ok peer) s = .next (t.openSession
          (TrustRun.mk 11 w s.trust.cmd.arg0 s.trust.cmd.arg1 s.trust.cmd.arg2) n ok peer) := by
      refine congrArg Host.Outcome.next ((State.trustRun_of _ hr hw).trans ?_)
      rw [Nat.mod_eq_of_lt hn]
    refine ⟨fun peer hp => ?_, ?_, ?_⟩
    · exact (hgo true peer).trans (congrArg Host.Outcome.next (State.openSession_refused hi hx h0 h1 hs (.inl hp)))
    · exact (hgo false expected).trans (congrArg Host.Outcome.next (State.openSession_refused hi hx h0 h1 hs (.inr rfl)))
    · exact (hgo true expected).trans (congrArg Host.Outcome.next (State.openSession_accepted hi hx h0 h1 hs))
  · intro s code hr hc
    exact execTrustUnknownCommand_of hr hc
  · intro s w h hc
    exact execUsagePeriodic_of h hc
  · intro s c v hv hb
    show Host.Outcome.next (s.setCtx c { s.ctx c with tag := (s.ctx c).tag.go v }) = _
    rw [TagBlock.go_idle hv hb]
  · intro s c b hb
    refine ⟨execNearDataTagDone_none hb, ?_⟩
    intro y hy t
    exact execNearDataTagDone_of hb hy

end Sys2Proof
end

section
/-! The SPDM responder and dynamic capacity (19_trust 19.4, 20_boundary 20.3). -/

namespace Sys2Proof.Machine

/-! ### Connections -/

theorem State.challengeAuth_none {s : State} {tr : Nat} (h : (s.conn tr).chal = none) : s.challengeAuth tr = s := by
  simp only [State.challengeAuth, h]

section
variable {s : State} {tr : Nat} (ht : tr < 2) (hc : (s.conn tr).chal = none)
include ht hc

theorem execGetVersion_of : execGetVersion tr s = .next ((s.endSessions (s.conn tr).sessions).answer tr
    { Conn.init with st := .versioned, vca := absorb 0 0x84 [] 0x04 0 [0x1200] } 0x04 0 [0x1200]) := by
  simp only [execGetVersion, State.challengeAuth_none hc, Nat.not_le.mpr ht, ↓reduceIte]

/-- A negotiation request that is in order takes its connection on. -/
theorem State.negotiation_inOrder {at_ after : SpdmState} (request code : Nat) (body : List (BitVec 384))
    (hs : (s.conn tr).st = at_) : s.negotiation tr true at_ after request code body = s.answer tr { s.conn tr with
      st := after, lock := none, vca := absorb (s.conn tr).vca request [] code 0 body,
      m := absorb (s.conn tr).vca request [] code 0 body, th := absorb (s.conn tr).vca request [] code 0 body } code 0 body := by
  simp only [State.negotiation, State.challengeAuth_none hc, Nat.not_le.mpr ht, hs, bne_self_eq_false, Bool.not_true,
    Bool.false_eq_true, ↓reduceIte]

theorem State.negotiation_unexpected {at_ : SpdmState} (after : SpdmState) (ok : Bool) (request code : Nat)
    (body : List (BitVec 384)) (hs : (s.conn tr).st ≠ at_) :
    s.negotiation tr ok at_ after request code body = s.unexpected tr := by
  simp only [State.negotiation, State.challengeAuth_none hc, Nat.not_le.mpr ht, bne_iff_ne.mpr hs, ↓reduceIte]

theorem execSpdmUnexpectedRequest_of (hi : s.trust.ident.present = true) :
    execSpdmUnexpectedRequest tr s = .next (s.unexpected tr) := by
  simp only [execSpdmUnexpectedRequest, State.challengeAuth_none hc, Nat.not_le.mpr ht, State.noIdentity, hi, Bool.not_true,
    Bool.false_eq_true, ↓reduceIte]

/-! ### Requests of state READY -/

theorem State.readyRequest_noIdentity (wf : State → Bool) (f : State → Conn → State) (hi : s.trust.ident.present = false) :
    s.readyRequest tr wf none f = s.spdmError tr { s.conn tr with lock := none } 5 := by
  simp only [State.readyRequest, State.challengeAuth_none hc, Nat.not_le.mpr ht, State.noIdentity, hi, Option.isSome_none,
    Bool.false_and, Bool.not_false, Bool.false_eq_true, ↓reduceIte]

/-- A request in state READY is answered with no handshake pending and no slot locked, or refused as malformed. -/
theorem State.readyRequest_ready (wf : State → Bool) (f : State → Conn → State) (hi : s.trust.ident.present = true)
    (hs : (s.conn tr).st = .ready) : s.readyRequest tr wf none f =
      if wf s then f s { s.conn tr with pending := none, lock := none } else s.spdmError tr { s.conn tr with lock := none } 1 := by
  simp only [State.readyRequest, State.challengeAuth_none hc, Nat.not_le.mpr ht, State.noIdentity, hi, hs, Option.isSome_none,
    Bool.false_and, bne_self_eq_false, Bool.not_true, Bool.false_eq_true, ↓reduceIte]
  cases wf s <;> rfl

end

theorem execChallenge_request {s : State} {tr slot : Nat} {x : Nat × BitVec 384} (nonce : BitVec 256) (ht : tr < 2)
    (hc : (s.conn tr).chal = none) (hi : s.trust.ident.present = true) (hs : (s.conn tr).st = .ready)
    (hx : Map.find? s.trust.ident.chains slot = some x) : execChallenge tr true slot nonce s =
      .next (s.setConn tr { s.conn tr with pending := none, lock := some slot, chal := some (slot, nonce) }).certGoes := by
  have hno : ¬ (s.conn tr).chal.isSome = true := by rw [hc]; exact Bool.false_ne_true
  rw [execChallenge, if_neg hno, State.readyRequest_ready ht hc _ _ hi hs, if_pos (by rw [hx]; rfl)]

/-- The answer to a CHALLENGE is signed over its transcript, and frees the slot. -/
theorem State.challengeAuth_answer {s : State} {tr slot n : Nat} {nonce : BitVec 256} {d : BitVec 384}
    (hc : (s.conn tr).chal = some (slot, nonce)) (hx : Map.find? s.trust.ident.chains slot = some (n, d)) :
    s.challengeAuth tr = ({ s with fresh := s.fresh + 1 } : State).answer tr
      { s.conn tr with chal := none, lock := none, m := (s.conn tr).vca } 0x03 slot
      ([d, Config.freeKey s.fresh, sha384 (s.trust.ident.mr.flatMap words384)] ++
        s.spdmSign [(absorb (s.conn tr).m 0x83 [slot, nonce.toNat] 0x03 slot
          [d, Config.freeKey s.fresh, sha384 (s.trust.ident.mr.flatMap words384)]).toNat]) := by
  simp only [State.challengeAuth, hc, Map.getD, hx, Option.getD_some, State.measSummary]

theorem execChallenge_answer {s : State} {tr : Nat} {x : Nat × BitVec 256} (ok : Bool) (slot : Nat) (nonce : BitVec 256)
    (hc : (s.conn tr).chal = some x) : execChallenge tr ok slot nonce s = .next (s.challengeAuth tr) := by
  simp only [execChallenge, hc, Option.isSome_some, ↓reduceIte]

section
variable {s : State} {tr : Nat} (ht : tr < 2) (hc : (s.conn tr).chal = none) (hi : s.trust.ident.present = true)
  (hs : (s.conn tr).st = .ready)
include ht hc hi hs

theorem execGetMeasurements_of {i : Nat} (h1 : 1 ≤ i) (h8 : i ≤ 8) : execGetMeasurements tr true i s =
    .next (s.answer tr { s.conn tr with pending := none, lock := none, m := (s.conn tr).vca } 0x60 i
      ([s.trust.ident.mr.getD (i - 1) 0] ++ s.spdmSign
        [(absorb (s.conn tr).vca 0xE0 [i] 0x60 i [s.trust.ident.mr.getD (i - 1) 0]).toNat])) := by
  have h0 : (i == 0) = false := beq_eq_false_iff_ne.mpr (Nat.ne_of_gt h1)
  rw [execGetMeasurements, State.readyRequest_ready ht hc _ _ hi hs]
  simp only [h8, h0, decide_true, Bool.true_or, Bool.and_self, Bool.false_eq_true, ↓reduceIte]

/-- A portion of a chain from offset 0 that does not reach its end locks the slot. -/
theorem execGetCertificate_of {slot n len : Nat} {d : BitVec 384} (hx : Map.find? s.trust.ident.chains slot = some (n, d))
    (hl : len < n) : execGetCertificate tr true slot 0 len s = .next (s.answer tr
      { s.conn tr with
        pending := none, lock := some slot, m := absorb (s.conn tr).m 0x82 [0, len] 0x02 slot
          [Config.crypto 6 [d.toNat, 0, len], BitVec.ofNat 384 len, BitVec.ofNat 384 (n - len)] } 0x02 slot
      [Config.crypto 6 [d.toNat, 0, len], BitVec.ofNat 384 len, BitVec.ofNat 384 (n - len)]) := by
  have hne : (n == len) = false := beq_eq_false_iff_ne.mpr (Nat.ne_of_gt hl)
  simp only [execGetCertificate, State.readyRequest_ready ht hc _ _ hi hs, hx, Option.any_some, Nat.zero_le, decide_true,
    Bool.and_self, ↓reduceIte, Option.getD_some, Nat.sub_zero, Nat.min_eq_left (Nat.le_of_lt hl), hne, BEq.rfl,
    Bool.false_eq_true, State.certAnswer]

/-- A KEY_EXCHANGE towards no world starts a handshake while fewer than 16 sessions are open. -/
theorem execKeyExchange_of (session : Nat) (peer : BitVec 384) : execKeyExchange tr true session none peer s =
    .next (if 16 ≤ (s.setConn tr { s.conn tr with pending := none, lock := none }).openCount then
        (s.setConn tr { s.conn tr with pending := none, lock := none }).spdmError tr
          { s.conn tr with pending := none, lock := none } 0x0A
      else (s.setConn tr { s.conn tr with pending := none, lock := none }).answer tr
        { s.conn tr with
          lock := none, pending := some ((s.setConn tr { s.conn tr with pending := none, lock := none }).freeSession, none),
          m := (s.conn tr).vca, th := absorb (s.conn tr).vca 0xE4 [session, peer.toNat] 0x64 session
            [BitVec.ofNat 384 (s.setConn tr { s.conn tr with pending := none, lock := none }).freeSession] } 0x64 session
        (BitVec.ofNat 384 (s.setConn tr { s.conn tr with pending := none, lock := none }).freeSession ::
          (s.setConn tr { s.conn tr with pending := none, lock := none }).spdmSign
            [(absorb (s.conn tr).vca 0xE4 [session, peer.toNat] 0x64 session
              [BitVec.ofNat 384 (s.setConn tr { s.conn tr with pending := none, lock := none }).freeSession]).toNat])) := by
  rw [execKeyExchange, State.readyRequest_ready ht hc _ _ hi hs]
  simp only [↓reduceIte]

theorem execFinish_none (hp : (s.conn tr).pending = none) : execFinish tr true true s = .next (s.unexpected tr) := by
  simp only [execFinish, State.challengeAuth_none hc, Nat.not_le.mpr ht, State.noIdentity, hi, hs, hp, BEq.rfl, Bool.not_true,
    Bool.false_eq_true, ↓reduceIte]

/-- A FINISH of a pending handshake towards no world establishes the session, or ends it where it does not verify. -/
theorem execFinish_pending {n : Nat} (verified : Bool) (hp : (s.conn tr).pending = some (n, none)) :
    execFinish tr true verified s = .next (if verified then
        s.answer tr { s.conn tr with
          lock := none, pending := none, sessions := (s.conn tr).sessions ++ [n],
          th := absorb (s.conn tr).th 0xE5 [] 0x65 0 [] } 0x65 0 []
      else s.spdmError tr { s.conn tr with lock := none, pending := none } 6) := by
  cases verified <;>
    simp only [execFinish, State.challengeAuth_none hc, Nat.not_le.mpr ht, State.noIdentity, hi, hs, hp, BEq.rfl, Bool.not_true,
      Bool.not_false, Bool.false_eq_true, ↓reduceIte]

end

/-! ### Dynamic capacity -/

/-- An offered extent is taken where it may be, once no holder has a line of it. -/
theorem execDcExtentOffer_of {s : State} {base pages : Nat} {tag : BitVec 128} (ht : tag.toNat < 64) :
    execDcExtentOffer base pages tag s = .next (if s.extentOk tag.toNat base pages = false then s.send (.report 6 []) else
      if (s.pagesReady ((List.range pages).map (base / 4096 + ·))).2 = false then
        (s.pagesReady ((List.range pages).map (base / 4096 + ·))).1
      else
        let u := ((List.range pages).map (base / 4096 + ·)).foldl (fun v pp => v.givePage tag.toNat pp)
          (s.pagesReady ((List.range pages).map (base / 4096 + ·))).1
        (u.setTrust { u.trust with extents := (base, pages, tag.toNat) :: u.trust.extents }).send (.report 6 [base, pages])) := by
  have hb (b : Bool) : ((!b) = true) = (b = false) := by cases b <;> simp
  simp only [execDcExtentOffer, tagWorld, ht, ↓reduceIte, hb]

theorem execDcExtentRelease_of {s t : State} {base pages w : Nat} (hm : (base, pages, w) ∈ s.trust.extents)
    (hr : s.releasePages ((List.range pages).map (base / 4096 + ·)) = (t, true)) : execDcExtentRelease base pages s =
      .next ((t.setTrust { t.trust with extents := t.trust.extents.filter fun x => !(x.1 == base && x.2.1 == pages) }).send
        (.report 7 [base, pages])) := by
  have hany : (s.trust.extents.any fun x => x.1 == base && x.2.1 == pages) = true :=
    List.any_eq_true.mpr ⟨_, hm, by rw [BEq.rfl, BEq.rfl]; rfl⟩
  simp only [execDcExtentRelease, hany, hr, Bool.not_true, Bool.false_eq_true, ↓reduceIte]

end Sys2Proof.Machine

namespace Sys2Proof
open Sys2Proof.Machine

/-- Settles O44: each request by the state of its connection, and each extent by its tag. -/
theorem responderAndDynamicCapacity : Obligations.ResponderAndDynamicCapacity := by
  refine ⟨⟨?_, ?_, ?_, ?_⟩, ?_, ?_, ?_⟩
  · intro s tr c ht hc after
    refine ⟨execGetVersion_of ht hc, fun hs => ?_, fun hs => ?_, fun hs => ?_, fun hs => ?_, execSpdmUnexpectedRequest_of ht hc,
      fun hi => ?_⟩
    · exact congrArg Host.Outcome.next (State.negotiation_inOrder ht hc _ _ _ hs)
    · exact congrArg Host.Outcome.next (State.negotiation_inOrder ht hc _ _ _ hs)
    · exact congrArg Host.Outcome.next (State.negotiation_unexpected ht hc _ _ _ _ _ hs)
    · exact congrArg Host.Outcome.next (State.negotiation_unexpected ht hc _ _ _ _ _ hs)
    · exact congrArg Host.Outcome.next (State.readyRequest_noIdentity ht hc _ _ hi)
  · intro s tr c ht hc hi hs
    refine ⟨?_, ?_, fun slot nonce x hx => ?_, ?_, ?_, ?_⟩
    · intro body
      exact congrArg Host.Outcome.next ((State.readyRequest_ready ht hc _ _ hi hs).trans (if_pos rfl))
    · exact congrArg Host.Outcome.next ((State.readyRequest_ready ht hc _ _ hi hs).trans (if_neg Bool.false_ne_true))
    · exact execChallenge_request nonce ht hc hi hs hx
    · intro i h1 h8 l
      exact execGetMeasurements_of ht hc hi hs h1 h8
    · intro slot n d len hx hl body
      exact execGetCertificate_of ht hc hi hs hx hl
    · intro session peer t
      have hgo := execKeyExchange_of ht hc hi hs session peer
      refine ⟨fun h => hgo.trans (congrArg Host.Outcome.next (if_pos h)), ?_⟩
      intro h n th
      exact hgo.trans (congrArg Host.Outcome.next (if_neg (Nat.not_le.mpr h)))
  · intro s tr slot n nonce d ok c hc hx head slot' nonce'
    exact (execChallenge_answer ok slot' nonce' hc).trans (congrArg Host.Outcome.next (State.challengeAuth_answer hc hx))
  · intro s tr n c ht hc hi hs
    exact ⟨execFinish_none ht hc hi hs, fun hp => ⟨execFinish_pending ht hc hi hs true hp, execFinish_pending ht hc hi hs false hp⟩⟩
  · intro s t base pages tag ht
    have hgo := execDcExtentOffer_of (s := s) (base := base) (pages := pages) ht
    refine ⟨fun h => hgo.trans (congrArg Host.Outcome.next (if_pos h)), ?_⟩
    intro h hr u
    rw [hr, h] at hgo
    exact hgo
  · intro s base pages tag ht
    have hw : tagWorld tag = none := if_neg (Nat.not_lt.mpr ht)
    show execDcExtentOffer base pages tag s = _
    simp only [execDcExtentOffer, hw]
  · intro s t base pages w hm hr
    exact execDcExtentRelease_of hm hr

end Sys2Proof
end

section
/-! Operating points, capping and power states (20_boundary R427 to R429, R433, R434). -/

namespace Sys2Proof.Machine

/-! ### Operating points and capping -/

theorem execOpChangeComplete_of {s : State} {cl : Nat} (hc : cl < Config.clusters) : execOpChangeComplete cl s =
    .next (if s.pointStable cl then s
      else s.setPower { s.power with points := Map.set s.power.points cl (s.pointAsked cl) }) := by
  simp only [execOpChangeComplete, Nat.not_le.mpr hc, decide_false, Bool.false_or]

theorem execPowerCapStep_cool {s : State} (h : s.excess = false ∨ ¬ s.capDue = true) : execPowerCapStep s = .next s := by
  refine congrArg Host.Outcome.next (if_neg ?_)
  rw [Bool.and_eq_true]
  rintro ⟨he, hd⟩
  exact h.elim (fun h => Bool.false_ne_true (h.symm.trans he)) (fun h => h hd)

theorem execPowerCapStep_hot {s : State} (he : s.excess = true) (hd : s.capDue = true) : execPowerCapStep s =
    .next (s.setPower { s.power with
      cap := true, coolSince := none, lastStep := some s.ticks.toNat,
      capped := (List.range Config.clusters).map fun cl =>
        (cl, min 3 (max (s.point cl) (Map.getD s.power.capped cl 0) + 1)) }) := by
  simp only [execPowerCapStep, he, hd, Bool.and_self, ↓reduceIte]

/-- CAP clears 10 ms after its cause has gone. -/
theorem execCapClear_of {s : State} {t : Nat} (ht : s.power.coolSince = some t) (hc : s.power.cap = true)
    (he : s.excess = false) : execCapClear s = .next (if t + 1000000 ≤ s.ticks.toNat then
      s.setPower { s.power with cap := false, capped := [], coolSince := none } else s) := by
  simp only [execCapClear, ht, hc, he, Bool.not_false, Bool.and_self, Bool.true_and, decide_eq_true_eq]

/-! ### Power states -/

theorem State.writeLtol_exiting {s : State} {v : Word} (h : s.power.exiting.isSome = true) :
    s.writeLtol v = s.setPower { s.power with ltol := v } := by
  simp only [State.writeLtol, h, ↓reduceIte]

/-- A tolerance below the latency of the state starts an exit; one below that of PS1 brings the gated clusters out. -/
theorem State.writeLtol_of {s : State} {v : Word} (h : s.power.exiting = none) : s.writeLtol v = s.setPower
    (if v.toNat < exitLatency s.power.pstate.toNat then
      { s.power with ltol := v, exiting := some (allowed v.toNat s.power.pstate.toNat) }
    else if v.toNat < 2000 then { s.power with ltol := v, gated := 0 } else { s.power with ltol := v }) := by
  simp only [State.writeLtol, h, Option.isSome_none, Bool.false_eq_true, ↓reduceIte]
  rfl

theorem execClusterGate_of {s : State} {cl : Nat} (hc : cl < Config.clusters) (hg : s.power.gated.toNat.testBit cl = false)
    (hi : s.clusterIdle cl = true) (hl : 2000 ≤ s.power.ltol.toNat) (he : s.power.exiting = none) : execClusterGate cl s =
      .next (((List.range 4).foldl (fun s i => s.flushCore (4 * cl + i)) s).setPower
        { ((List.range 4).foldl (fun s i => s.flushCore (4 * cl + i)) s).power with
          gated := ((List.range 4).foldl (fun s i => s.flushCore (4 * cl + i)) s).power.gated ||| BitVec.ofNat 14 (2 ^ cl),
          gatedSince := ((List.range 4).foldl (fun s i => s.flushCore (4 * cl + i)) s).ticks.toNat }) := by
  have hlow : ¬ s.power.ltol.toNat < exitLatency 1 := Nat.not_lt.mpr hl
  simp only [execClusterGate, Nat.not_le.mpr hc, hg, hi, hlow, he, decide_false, Option.isSome_none, Bool.not_true, Bool.or_self,
    Bool.false_eq_true, ↓reduceIte]

theorem execPs2Entry_of {s : State} (he : s.power.exiting = none) (hp : s.power.pstate = 0)
    (hg : s.power.gated = BitVec.allOnes 14) (hq : s.quietDevice = true) (ht : s.power.gatedSince + 5000 ≤ s.ticks.toNat)
    (hl : 20000 ≤ s.power.ltol.toNat) : execPs2Entry s = .next (s.setPower { s.power with pstate := 2 }) := by
  have hlat : exitLatency 2 ≤ s.power.ltol.toNat := hl
  simp only [execPs2Entry, he, hp, hg, hq, ht, hlat, BEq.rfl, Option.isNone_none, decide_true, Bool.and_self, ↓reduceIte]

theorem execPs3Entry_of {s : State} (he : s.power.exiting = none) (hp : s.power.pstate = 2)
    (ht : s.power.quietSince + 10000 ≤ s.ticks.toNat) (hl : 150000 ≤ s.power.ltol.toNat) :
    execPs3Entry s = .next (s.setPower { s.power with pstate := 3 }) := by
  have hlat : exitLatency 3 ≤ s.power.ltol.toNat := hl
  simp only [execPs3Entry, he, hp, ht, hlat, BEq.rfl, Option.isNone_none, decide_true, Bool.and_self, ↓reduceIte]

theorem execPowerWake_of {s : State} (he : s.power.exiting = none) (hp : s.power.pstate ≠ 0) :
    execPowerWake s = .next (s.setPower { s.power with exiting := some 0 }) := by
  simp only [execPowerWake, he, beq_eq_false_iff_ne.mpr hp, Option.isSome_none, Bool.false_and, Bool.or_self, Bool.false_eq_true,
    ↓reduceIte]

/-- An exit into full power leaves no cluster gated. -/
theorem execPowerExitDone_full {s : State} (h : s.power.exiting = some 0) : execPowerExitDone s =
    .next (s.endSelfRefresh.setPower { s.power with exiting := none, pstate := 0, gated := 0, gatedSince := s.ticks.toNat }) := by
  simp only [execPowerExitDone, h, BEq.rfl, ↓reduceIte]
  rfl

/-! ### HDM decoders -/

theorem execHdmDecoderWrite_of {s : State} {port base size ways gran : Nat} (hp : port < 2) (hw : ways ∈ [1, 2, 4, 8])
    (hg : gran ∈ [256, 512, 1024, 2048, 4096, 8192, 16384]) : execHdmDecoderWrite port base size ways gran s =
      .next (s.setPort port { s.port port with hdm := some (base, size, ways, gran) }) := by
  simp only [execHdmDecoderWrite, Nat.not_le.mpr hp, List.contains_iff_mem.mpr hw, List.contains_iff_mem.mpr hg, decide_false,
    Bool.and_self, Bool.not_true, Bool.or_self, Bool.false_eq_true, ↓reduceIte]

theorem execHdmDecoderWrite_refused {s : State} {port base size ways gran : Nat} (hw : ways ∉ [1, 2, 4, 8]) :
    execHdmDecoderWrite port base size ways gran s = .next s := by
  have hc : [1, 2, 4, 8].contains ways = false := by
    rw [← Bool.not_eq_true, List.contains_iff_mem]
    exact hw
  simp only [execHdmDecoderWrite, hc, Bool.false_and, Bool.not_false, Bool.or_true, ↓reduceIte]

end Sys2Proof.Machine

namespace Sys2Proof
open Sys2Proof.Machine

/-- Settles O45: each event of the power unit where its condition holds, and where it does not. -/
theorem powerEvents : Obligations.PowerEvents := by
  refine ⟨?_, ?_, ?_, ?_, ?_, ?_, ?_, ?_, ?_⟩
  · intro s cl hc
    have hgo := execOpChangeComplete_of (s := s) hc
    refine ⟨fun h => hgo.trans (congrArg Host.Outcome.next (if_pos h)), fun h => hgo.trans (congrArg Host.Outcome.next (if_neg ?_))⟩
    exact fun h' => Bool.false_ne_true (h.symm.trans h')
  · intro s
    refine ⟨fun h => execPowerCapStep_cool (.inl h), fun t ht hlt => execPowerCapStep_cool (.inr fun h => ?_), fun he hd => ?_,
      fun t ht hc he => ⟨fun h => ?_, fun h => ?_⟩⟩
    · exact Nat.not_le.mpr hlt ((State.capDue_iff s).mp h t ht)
    · exact execPowerCapStep_hot he ((State.capDue_iff s).mpr hd)
    · exact (execCapClear_of ht hc he).trans (congrArg Host.Outcome.next (if_pos h))
    · exact (execCapClear_of ht hc he).trans (congrArg Host.Outcome.next (if_neg (Nat.not_le.mpr h)))
  · intro s temp power t
    rfl
  · intro s v p
    refine ⟨fun h => congrArg Host.Outcome.next (State.writeLtol_exiting h), fun h hlt => ?_, fun h hle h2 => ?_,
      fun h hle h2 => ?_⟩
    · refine congrArg Host.Outcome.next ((State.writeLtol_of h).trans (congrArg s.setPower (if_pos hlt)))
    · refine congrArg Host.Outcome.next ((State.writeLtol_of h).trans (congrArg s.setPower ?_))
      exact (if_neg (Nat.not_lt.mpr hle)).trans (if_neg (Nat.not_lt.mpr h2))
    · refine congrArg Host.Outcome.next ((State.writeLtol_of h).trans (congrArg s.setPower ?_))
      exact (if_neg (Nat.not_lt.mpr hle)).trans (if_pos h2)
  · intro s cl t hc hg hi hl he
    exact execClusterGate_of hc hg hi hl he
  · intro s p he
    exact ⟨execPs2Entry_of he, execPs3Entry_of he, execPowerWake_of he⟩
  · intro s h
    exact execPowerExitDone_full h
  · intro s a
    rfl
  · intro s port base size ways gran hp
    exact ⟨execHdmDecoderWrite_of hp, execHdmDecoderWrite_refused⟩

end Sys2Proof
end

section
/-! Starts, loss of power, the register window and contexts (20_boundary 20.2, 20.6; 12_translation 12.1). -/

namespace Sys2Proof.Machine

/-! ### The steps of a start -/

/-- A step of a start is complete. -/
def State.staged (s : State) (n : Nat) : State := s.setStatus fun t => { t with stage := BitVec.ofNat 8 n }

/-- Steps of a start one after another, the first as number `n + 1`. -/
def State.stepsFrom (s : State) (n : Nat) : List (State → State) → State
  | [] => s
  | f :: fs => ((f s).staged (n + 1)).stepsFrom (n + 1) fs

theorem State.stepsFrom_zipIdx (s : State) (steps : List (State → State)) (n : Nat) :
    (steps.zipIdx n).foldl (fun s x => (x.1 s).setStatus fun t => { t with stage := BitVec.ofNat 8 (x.2 + 1) }) s =
      s.stepsFrom n steps := by
  induction steps generalizing s n with
  | nil => rfl
  | cons f fs ih => exact ih _ _

/-- A start that nothing stops runs all its steps. -/
theorem State.runSteps_all (s : State) (steps : List (State → State)) : s.runSteps 0 steps = s.stepsFrom 0 steps := by
  rw [← State.stepsFrom_zipIdx]
  simp only [State.runSteps, BEq.rfl, Bool.true_or, ↓reduceIte]

/-- What the steps of a cold start leave as it is: blank memory, the status of a start, and the identity found. -/
structure State.Starting (s : State) (present dbgen : Bool) (d : BitVec 384) : Prop where
  hc : s.mem.hc = []
  bytes : s.mem.bytes = []
  pwrgd : s.status.pwrgd = true
  present : s.trust.ident.present = present
  dbgen : s.trust.ident.dbgen = dbgen
  key : s.trust.ident.d = d

section
variable {s : State} {p b : Bool} {d : BitVec 384} (h : s.Starting p b d)
include h

theorem State.Starting.staged (n : Nat) : (s.staged n).Starting p b d := { h with }

theorem State.Starting.extendMr (i : Nat) (x : BitVec 384) : (s.extendMr i x).Starting p b d := { h with }

/-- An identity that keeps what is observed of it. -/
theorem State.Starting.setIdent {f : Identity → Identity} {p' b' : Bool} {d' : BitVec 384}
    (hp : (f s.trust.ident).present = p') (hb : (f s.trust.ident).dbgen = b') (hd : (f s.trust.ident).d = d') :
    (s.setIdent f).Starting p' b' d' := ⟨h.hc, h.bytes, h.pwrgd, hp, hb, hd⟩

theorem State.Starting.setMem {m : Mem} (hc : m.hc = []) (hb : m.bytes = []) : (s.setMem m).Starting p b d :=
  ⟨hc, hb, h.pwrgd, h.present, h.dbgen, h.key⟩

theorem State.Starting.drawWorld1 : s.drawWorld1.Starting p b d := { h with }

theorem State.Starting.fresh (n : Nat) : ({ s with fresh := n } : State).Starting p b d := { h with }

theorem State.Starting.checkIdentity : s.checkIdentity.Starting (p && publicKey d == leafKey) b d := by
  refine h.setIdent ?_ h.dbgen h.key
  rw [h.present, h.key]

theorem State.Starting.measureFirmware : s.measureFirmware.Starting p b d :=
  ((h.extendMr _ _).extendMr _ _).extendMr _ _

theorem State.Starting.trainLinks : s.trainLinks.Starting p b d :=
  (h.setMem (m := { s.mem with ports := _ }) h.hc h.bytes).setMem (m := { s.mem with ports := _ }) h.hc h.bytes

theorem State.Starting.startReady : s.startReady.Starting p b d := { h with }

end

/-- The key that step 2 rebuilds, where one of the three responses decodes. -/
def rebuilt (puf : PufReading) : Option (List Word) :=
  (puf.responses.take 3).findSome? fun r => Config.bchDecode r puf.helper

theorem State.Starting.rebuildKey {s : State} {b : Bool} {d : BitVec 384} (puf : PufReading) (h : s.Starting false b d) :
    (s.rebuildKey puf).Starting (rebuilt puf).isSome b ((rebuilt puf).elim d identityKey) := by
  unfold State.rebuildKey
  show (match rebuilt puf with
    | none => s
    | some w => s.setIdent fun i => { i with present := true, d := identityKey w, ks := sealKey w }).Starting _ _ _
  cases rebuilt puf with
  | none => exact h
  | some w => exact h.setIdent rfl h.dbgen rfl

/-- The device without power, with PWRGD risen. -/
theorem State.powerless_starting (s : State) :
    (s.powerless.setStatus fun t => { t with pwrgd := true }).Starting false State.reset.trust.ident.dbgen
      State.reset.trust.ident.d :=
  ⟨rfl, rfl, rfl, rfl, rfl, rfl⟩

/-! ### The steps of a cold start that change more than a register -/

/-- Step 4: helper data and the slot 0 chain are measured, and the rebuilt key checked against the chain's leaf. -/
def State.coldHelper (s : State) (puf : PufReading) : State :=
  (s.setIdent fun i =>
    { i with helper := sha384 puf.helper, chains := [(0, ((Config.crypto 13 []).toNat % 65537, Config.crypto 12 []))] }
    ).measureHelper.checkIdentity

/-- Step 5: the debug state of the start is measured. -/
def State.coldDebug (s : State) (dbgen : Bool) : State :=
  (s.setIdent fun i => { i with dbgen := dbgen }).extendMr 7 (sha384Bytes [BitVec.ofNat 8 (b2n dbgen)])

/-- The identity with the part's transport key and ranges. -/
def Identity.withPart (i : Identity) (fresh : Nat) : Identity :=
  { i with kt := (Config.freeKey fresh).setWidth 256, ibase := Config.integrityRange.1, ilimit := Config.integrityRange.2,
           dcBase := Config.staticCapacity }

/-- Step 7: the keys of memory are drawn, and its counters are zero. -/
def State.coldKeys (s : State) : State :=
  let s2 := ({ s with fresh := s.fresh + 1 } : State).setIdent fun i => i.withPart s.fresh
  (s2.setMem { s2.mem with counters := [], top := List.replicate 8 0 }).drawWorld1

/-- Step 9: the page ownership table holds the pages of the platform. -/
def State.coldPages (s : State) (pages : List Nat) : State :=
  s.setMem { s.mem with pot := pages.foldl (fun (m : Map Pot) p => Map.set m p { Pot.init with sys := true }) [] }

theorem coldSteps_eq (puf : PufReading) (dbgen : Bool) (pages : List Nat) : coldSteps puf dbgen pages =
    [fun s => s.extendMr 0 (measured 0), fun s => s.rebuildKey puf, fun s => s.extendMr 4 (measured 4),
      fun s => s.coldHelper puf, fun s => s.coldDebug dbgen, fun s => s, State.coldKeys, State.measureFirmware,
      fun s => s.coldPages pages, fun s => s.setMem { s.mem with hc := [] }, fun s => s, fun s => s, State.trainLinks,
      State.startReady] := rfl

section
variable {s : State} {p b : Bool} {d : BitVec 384} (h : s.Starting p b d)
include h

theorem State.Starting.coldHelper (puf : PufReading) :
    (s.coldHelper puf).Starting (p && publicKey d == leafKey) b d :=
  (((h.setIdent h.present h.dbgen h.key).extendMr _ _).extendMr _ _).checkIdentity

theorem State.Starting.coldDebug (dbgen : Bool) : (s.coldDebug dbgen).Starting p dbgen d :=
  (h.setIdent (f := fun i => { i with dbgen := dbgen }) h.present rfl h.key).extendMr _ _

theorem State.Starting.coldKeys : s.coldKeys.Starting p b d :=
  (((h.fresh (s.fresh + 1)).setIdent (f := fun i => i.withPart s.fresh) h.present h.dbgen h.key).setMem
    (m := { s.mem with counters := [], top := List.replicate 8 0 }) h.hc h.bytes).drawWorld1

/-- Step 10: every region of device memory is in its first mode. -/
theorem State.Starting.coldModes : (s.setMem { s.mem with hc := [] }).Starting p b d :=
  h.setMem (m := { s.mem with hc := [] }) rfl h.bytes

theorem State.Starting.coldPages (pages : List Nat) : (s.coldPages pages).Starting p b d := h.setMem h.hc h.bytes

end

/-- The first thirteen steps of a cold start find an identity where the rebuilt key is that of the slot 0 leaf. -/
theorem State.coldSteps_starting {s : State} {b0 : Bool} {d0 : BitVec 384} (puf : PufReading) (dbgen : Bool) (pages : List Nat)
    (h : s.Starting false b0 d0) : ∃ t : State, s.stepsFrom 0 (coldSteps puf dbgen pages) = t.startReady.staged 14 ∧
      t.Starting ((rebuilt puf).any fun w => publicKey (identityKey w) == leafKey) dbgen ((rebuilt puf).elim d0 identityKey) := by
  rw [coldSteps_eq]
  have h3 := ((((h.extendMr 0 (measured 0)).staged 1).rebuildKey puf).staged 2).extendMr 4 (measured 4)
  have h6 := ((((h3.staged 3).coldHelper puf).staged 4).coldDebug dbgen).staged 5
  have h9 := ((((h6.staged 6).coldKeys).staged 7).measureFirmware.staged 8).coldPages pages
  have h13 := (((((h9.staged 9).coldModes).staged 10).staged 11).staged 12).trainLinks.staged 13
  have hgood : ((rebuilt puf).isSome && publicKey ((rebuilt puf).elim d0 identityKey) == leafKey) =
      (rebuilt puf).any fun w => publicKey (identityKey w) == leafKey := by
    cases rebuilt puf <;> rfl
  rw [hgood] at h13
  exact ⟨_, rfl, h13⟩

theorem execColdStart_unpowered {s : State} (failAt : Nat) (puf : PufReading) (dbgen : Bool) (pages : List Nat)
    (hp : s.status.pwrgd = false) : execColdStart failAt puf dbgen pages s =
      .next ((s.powerless.setStatus fun t => { t with pwrgd := true }).runSteps failAt (coldSteps puf dbgen pages)) := by
  simp only [execColdStart, hp, Bool.false_and, Bool.false_eq_true, ↓reduceIte]

/-- A start that step 5 stops has completed four. -/
theorem State.coldSteps_stopped (s : State) (puf : PufReading) (dbgen : Bool) (pages : List Nat) : ∃ t : State,
    s.runSteps 5 (coldSteps puf dbgen pages) = (t.staged 4).setStatus fun t => { t with state := 3 } := by
  rw [coldSteps_eq]
  exact ⟨_, rfl⟩

theorem execWarmStart_of {s : State} (failAt : Nat) (hp : s.status.pwrgd = true) (hs : s.status.state ≠ 0) :
    execWarmStart failAt s = .next (s.publishAll.writeBackAll.warmRegisters.runSteps failAt warmSteps) := by
  simp only [execWarmStart, hp, beq_eq_false_iff_ne.mpr hs, Bool.not_true, Bool.or_self, Bool.false_eq_true, ↓reduceIte]

/-! ### The register window -/

theorem lo_zeroExtend (w : Word) : DWord.lo (w.zeroExtend 64) = w := by
  refine BitVec.eq_of_toNat_eq ?_
  simp only [DWord.lo, BitVec.zeroExtend_eq_setWidth, BitVec.extractLsb'_toNat, BitVec.toNat_setWidth, Nat.shiftRight_zero]
  omega

theorem lo_dw (a b : Word) : DWord.lo (dw a b) = a := by
  rw [DWord.lo, dw, BitVec.extractLsb'_append_eq_of_add_le (by decide)]
  exact BitVec.extractLsb'_eq_self

theorem dw_lo_hi (v : DWord) : dw (DWord.lo v) (DWord.hi v) = v := by
  rw [dw, DWord.lo, DWord.hi, BitVec.extractLsb'_append_extractLsb'_eq_extractLsb' (by decide)]
  exact BitVec.extractLsb'_eq_self

/-- The two halves written one after the other make the doubleword. -/
theorem setHalf_both (d v : DWord) : setHalf (setHalf d 0x20 (DWord.lo v)) 0x24 (DWord.hi v) = v := by
  simp only [setHalf, patch, Nat.reduceBEq, Nat.reduceMod, Bool.false_eq_true, ↓reduceIte, lo_dw, lo_zeroExtend, dw_lo_hi]

section
variable {s : State} (h : s.power.pstate = 0) (v : DWord)
include h

theorem State.windowWrite_eqridx : s.windowWrite 0x18 4 v = { s with status := { s.status with eqridx := DWord.lo v } } := by
  simp [State.windowWrite, State.windowPut, State.windowGo, State.statusPut, State.setStatus, h]

theorem State.windowWrite_msiaddr : s.windowWrite 0x20 8 v = { s with status := { s.status with msiaddr := v } } := by
  simp [State.windowWrite, State.windowPut, State.windowGo, State.statusPut, State.setStatus, h, setHalf_both]

end

/-! ### Contexts -/

theorem execContextCreated_refused {s : State} {c : Nat} {r0 r1 : DWord} (cores : List Nat) (grants : BitVec 2)
    (h : rootRefused r0 r1 = true) : execContextCreated c r0 r1 cores grants s = .next s := by
  simp only [execContextCreated, h, Bool.or_true, Bool.true_or, ↓reduceIte]

/-- The context block that a root record creates. -/
def createdContext (r0 r1 : DWord) (cores : List Nat) (grants : BitVec 2) : Context :=
  { Context.init with
    created := true, resident := true, mode := r0.extractLsb' 60 4, asid := r0.extractLsb' 44 16,
    ppn := r0.extractLsb' 0 44, tmode := r1.extractLsb' 8 2, world := r1.extractLsb' 0 6, cores := cores,
    statGrant := grants.getLsbD 0, sysGrant := grants.getLsbD 1 }

theorem execContextCreated_of {s : State} {c : Nat} {r0 r1 : DWord} {cores : List Nat} (grants : BitVec 2) (hc : c < 64)
    (hn : (s.ctx c).created = false) (hr : rootRefused r0 r1 = false) (hw : (s.world (bitsOf r1.toNat 5 0)).st = .live)
    (he : cores ≠ []) (hf : s.coresFree cores = true) : execContextCreated c r0 r1 cores grants s =
      .next (((cores.foldl (fun t i => (t.clearChip i).setCore i { Core.init with ctx := some c })
        (s.setCtx c (createdContext r0 r1 cores grants))).startPeriod c).usageRecord (bitsOf r1.toNat 5 0) c 1) := by
  simp only [execContextCreated, Nat.not_le.mpr hc, hn, hr, State.isLive_iff.mpr hw, List.isEmpty_eq_false_iff.mpr he, hf,
    decide_false, Bool.not_true, Bool.or_self, Bool.false_eq_true, ↓reduceIte]
  rfl

theorem execContextEnded_of {s t : State} {c : Nat} (hc : (s.ctx c).created = true) (ht : s.finishMoves c = (t, true)) :
    execContextEnded c s = .next (t.endContext c) := by
  simp only [execContextEnded, hc, ht, ↓reduceIte]

end Sys2Proof.Machine

namespace Sys2Proof
open Sys2Proof.Machine

/-- Settles O46: the steps of a start in order, the loss of power, the window's words, and a context's beginning and end. -/
theorem startsAndContexts : Obligations.StartsAndContexts := by
  refine ⟨?_, ?_, ?_, ?_, ?_, ?_⟩
  · intro s puf dbgen pages hp good
    refine ⟨?_, ?_⟩
    · obtain ⟨t, ht, hst⟩ := State.coldSteps_starting puf dbgen pages s.powerless_starting
      refine ⟨t.startReady.staged 14, (execColdStart_unpowered 0 puf dbgen pages hp).trans (congrArg Host.Outcome.next ?_), rfl, ?_,
        hst.pwrgd, hst.present, hst.dbgen, hst.hc, hst.bytes⟩
      · exact (State.runSteps_all _ _).trans ht
      · have hpres : t.trust.ident.present = good := hst.present
        rw [← hpres]
        rfl
    · obtain ⟨t, ht⟩ := (s.powerless.setStatus fun t => { t with pwrgd := true }).coldSteps_stopped puf dbgen pages
      exact ⟨_, (execColdStart_unpowered 5 puf dbgen pages hp).trans (congrArg Host.Outcome.next ht), rfl, rfl⟩
  · intro s failAt hp hs
    exact execWarmStart_of failAt hp hs
  · intro s
    exact ⟨_, rfl, rfl, rfl, rfl, rfl⟩
  · intro s v hp
    refine ⟨congrArg Host.Outcome.next (State.windowWrite_eqridx hp v),
      congrArg Host.Outcome.next (State.windowWrite_msiaddr hp v), congrArg Host.Outcome.next ?_⟩
    simp [State.windowWrite]
  · intro s c r0 r1 cores grants w x hc hn
    exact ⟨execContextCreated_refused cores grants, execContextCreated_of grants hc hn⟩
  · intro s t c
    refine ⟨execContextEnded_of, fun h => congrArg Host.Outcome.next (if_neg ?_)⟩
    rw [h]
    exact Bool.false_ne_true

end Sys2Proof
end

section
/-! Stores and loads of a word (09_memory 9.3, 9.4): what a load reads after a store by its thread, and where an expander's
memory (21_neardata R435) lets the two differ. -/

namespace Sys2Proof.Machine

/-! ### What an access of a line keeps: the writes recorded, and memory's canonical form -/

@[simp] theorem State.channelRead_bytes (s : State) (line : Nat) : (s.channelRead line).mem.bytes = s.mem.bytes := by
  simp only [State.channelRead]; split <;> rfl
@[simp] theorem State.channelRead_writes (s : State) (line : Nat) : (s.channelRead line).mem.writes = s.mem.writes := by
  simp only [State.channelRead]; split <;> rfl
@[simp] theorem State.channelWrite_bytes (s : State) (line : Nat) : (s.channelWrite line).mem.bytes = s.mem.bytes := by
  simp only [State.channelWrite]; split <;> rfl
@[simp] theorem State.channelWrite_writes (s : State) (line : Nat) : (s.channelWrite line).mem.writes = s.mem.writes := by
  simp only [State.channelWrite]; split <;> rfl

@[simp] theorem State.recallLine_bytes (s : State) (line : Nat) : (s.recallLine line).mem.bytes = s.mem.bytes := rfl
@[simp] theorem State.recallLine_writes (s : State) (line : Nat) : (s.recallLine line).mem.writes = s.mem.writes := rfl
@[simp] theorem State.dropSlice_bytes (s : State) (line : Nat) : (s.dropSlice line).mem.bytes = s.mem.bytes := rfl
@[simp] theorem State.dropSlice_writes (s : State) (line : Nat) : (s.dropSlice line).mem.writes = s.mem.writes := rfl

theorem Mem.countUp_kept (m : Mem) (level i n : Nat) :
    (m.countUp level i n).bytes = m.bytes ∧ (m.countUp level i n).writes = m.writes := by
  induction n generalizing m level i with
  | zero => exact ⟨rfl, rfl⟩
  | succ n ih => exact ih _ _ _

theorem State.countWrite_kept (s : State) (line : Nat) :
    (s.countWrite line).mem.bytes = s.mem.bytes ∧ (s.countWrite line).mem.writes = s.mem.writes := by
  simp only [State.countWrite]
  repeat' split
  · exact ⟨rfl, rfl⟩
  · exact Mem.countUp_kept _ _ _ _
  · exact Mem.countUp_kept _ _ _ _
  · exact ⟨rfl, rfl⟩

@[simp] theorem State.writeDirty_writes (s : State) (wa : Nat) : (s.writeDirty wa).mem.writes = s.mem.writes := by
  unfold State.writeDirty; split <;> rfl

theorem State.writeDirty_wf {s : State} (wa : Nat) (h : s.mem.bytes.wf = true) : (s.writeDirty wa).mem.bytes.wf = true := by
  unfold State.writeDirty
  split
  · exact h
  · exact Memory.wf_setWord _ _ _ h

theorem State.writeDirties_wf (l : List Nat) {s : State} (line : Nat) (h : s.mem.bytes.wf = true) :
    (l.foldl (fun s i => s.writeDirty (line + 4 * i)) s).mem.bytes.wf = true := by
  induction l generalizing s with
  | nil => exact h
  | cons i l ih => exact ih (State.writeDirty_wf _ h)

/-- Whether a line of the L2 holds a dirty word. -/
def State.dirtyLine (s : State) (line : Nat) : Bool := (List.range 16).any fun i => (Map.find? s.mem.l2 (line + 4 * i)).isSome

/-- The write of a line is counted where the line is dirty, and its words then go to memory one after another. -/
theorem State.writeLine_eq (s : State) (line : Nat) : s.writeLine line = (List.range 16).foldl
    (fun s i => s.writeDirty (line + 4 * i)) (if s.dirtyLine line then (s.countWrite line).channelWrite line else s) := rfl

theorem State.writeLine_writes (s : State) (line : Nat) : (s.writeLine line).mem.writes = s.mem.writes := by
  rw [State.writeLine_eq, foldl_unchanged (fun s : State => s.mem.writes) _ fun s _ => State.writeDirty_writes s _]
  split
  · rw [State.channelWrite_writes, (State.countWrite_kept s line).2]
  · rfl

theorem State.writeLine_wf {s : State} (line : Nat) (h : s.mem.bytes.wf = true) : (s.writeLine line).mem.bytes.wf = true := by
  rw [State.writeLine_eq]
  apply State.writeDirties_wf
  split
  · rw [State.channelWrite_bytes, (State.countWrite_kept s line).1]; exact h
  · exact h

@[simp] theorem State.evictLine_writes (s : State) (line : Nat) : (s.evictLine line).mem.writes = s.mem.writes := by
  rw [State.evictLine, State.dropSlice_writes, State.writeLine_writes, State.recallLine_writes]

theorem State.evictLine_wf {s : State} (line : Nat) (h : s.mem.bytes.wf = true) : (s.evictLine line).mem.bytes.wf = true := by
  rw [State.evictLine, State.dropSlice_bytes]
  apply State.writeLine_wf
  rw [State.recallLine_bytes]
  exact h

/-- What reads of memory, evictions and the slices' lists keep, a touch of a slice keeps. -/
theorem State.touchSlice_keeps {P : State → Prop} (hread : ∀ t l, P t → P (t.channelRead l))
    (hevict : ∀ t l, P t → P (t.evictLine l)) (hset : ∀ t m, P t → P (t.setMem { t.mem with slices := m }))
    {s : State} (wa : Nat) (first alloc : Bool) (h : P s) : P (s.touchSlice wa first alloc) := by
  have hr : P (if (Map.getD s.mem.slices (sliceOf (lineAddr wa)) []).contains (lineAddr wa) = true then s
      else s.channelRead (lineAddr wa)) := by
    split
    · exact h
    · exact hread _ _ h
  simp only [State.touchSlice]
  split
  · exact h
  · split
    · exact hr
    · apply hset
      split
      · exact hr
      · split
        · exact hr
        · exact hevict _ _ hr

@[simp] theorem State.touchSlice_writes (s : State) (wa : Nat) (first alloc : Bool) :
    (s.touchSlice wa first alloc).mem.writes = s.mem.writes :=
  State.touchSlice_keeps (P := fun t => t.mem.writes = s.mem.writes) (fun t l h => (t.channelRead_writes l).trans h)
    (fun t l h => (t.evictLine_writes l).trans h) (fun _ _ h => h) wa first alloc rfl

theorem State.touchSlice_wf {s : State} (wa : Nat) (first alloc : Bool) (h : s.mem.bytes.wf = true) :
    (s.touchSlice wa first alloc).mem.bytes.wf = true :=
  State.touchSlice_keeps (P := fun t => t.mem.bytes.wf = true) (fun t l h => by rw [State.channelRead_bytes]; exact h)
    (fun _ l h => State.evictLine_wf l h) (fun _ _ h => h) wa first alloc h

theorem State.fitX_of_outside {s t : State} (h : t.outside = s.outside) : t.fitX = s.fitX := congrArg (fun u => u.fitX) h

theorem State.isDev_of_outside {s t : State} (h : t.outside = s.outside) (wa : Nat) : t.isDev wa = s.isDev wa := by
  rw [State.isDev, State.isDev, State.devBytes, State.devBytes, State.fitX_of_outside h]

theorem State.caches_of_outside {s t : State} (h : t.outside = s.outside) (wa : Nat) : t.caches wa = s.caches wa := by
  simp only [State.caches, State.isDev_of_outside h, State.fitX_of_outside h]

theorem State.keepsWrites_of_outside {s t : State} (h : t.outside = s.outside) (wa : Nat) :
    t.keepsWrites wa = s.keepsWrites wa := by
  simp only [State.keepsWrites, State.inExpander, State.caches_of_outside h, State.isDev_of_outside h,
    State.fitX_of_outside h]

/-! ### The writes of one rank -/

/-- Every write recorded of a word is of one core. -/
def State.SoleWriter (s : State) (wa rank : Nat) : Prop := ∀ x ∈ Map.getD s.mem.writes wa [], x.rank = rank

theorem State.soleWriter_of_writes {s t : State} {wa rank : Nat} (h : t.mem.writes = s.mem.writes) (hs : s.SoleWriter wa rank) :
    t.SoleWriter wa rank := by
  unfold State.SoleWriter
  rw [h]
  exact hs

theorem Write.left_rank (x : Write) (rank since : Nat) (mask : BitVec 4) : (x.left rank since mask).rank = x.rank := by
  unfold Write.left
  split <;> rfl

/-- A store of all of a word leaves nothing of a write of its own rank. -/
theorem Write.left_all {x : Write} {rank : Nat} (since : Nat) (h : x.rank = rank) : (x.left rank since 15).mask = 0 := by
  unfold Write.left
  rw [if_pos (by simp [h])]
  show x.mask &&& 0 = 0
  simp

theorem bytes_word (v : Word) :
    v.extractLsb' (8 * 3) 8 ++ v.extractLsb' (8 * 2) 8 ++ v.extractLsb' (8 * 1) 8 ++ v.extractLsb' (8 * 0) 8 = v := by
  have h1 : v.extractLsb' 24 8 ++ v.extractLsb' 16 8 = v.extractLsb' 16 16 :=
    BitVec.extractLsb'_append_extractLsb'_eq_extractLsb' (by rfl)
  have h2 : v.extractLsb' 16 16 ++ v.extractLsb' 8 8 = v.extractLsb' 8 24 :=
    BitVec.extractLsb'_append_extractLsb'_eq_extractLsb' (by rfl)
  have h3 : v.extractLsb' 8 24 ++ v.extractLsb' 0 8 = v.extractLsb' 0 32 :=
    BitVec.extractLsb'_append_extractLsb'_eq_extractLsb' (by rfl)
  show v.extractLsb' 24 8 ++ v.extractLsb' 16 8 ++ v.extractLsb' 8 8 ++ v.extractLsb' 0 8 = v
  rw [h1, h2, h3]
  exact BitVec.extractLsb'_eq_self

theorem lastWord_all (old v : Word) (rank num : Nat) :
    lastWord old [{ rank := rank, num := num, mask := 15, val := v }] = v := by
  have hbit : ∀ i < 4, (15#4).toNat.testBit i = true := by decide
  have hf (i : Nat) (hi : i < 4) : [({ rank := rank, num := num, mask := 15, val := v } : Write)].filter
      (fun x => x.mask.toNat.testBit i) = [{ rank := rank, num := num, mask := 15, val := v }] :=
    List.filter_cons_of_pos (hbit i hi)
  simp only [lastWord, hf 0 (by decide), hf 1 (by decide), hf 2 (by decide), hf 3 (by decide)]
  exact bytes_word v

theorem byMask_all (old v : Word) : byMask 15 old v = v := bytes_word v

/-- What the home slice records of a word that one core has written and writes again. -/
theorem State.recorded_all {s : State} {wa rank : Nat} (since : Nat) (h : s.SoleWriter wa rank) :
    (((Map.getD s.mem.writes wa []).map fun x => x.left rank since 15).filter fun x => x.mask != 0) = [] := by
  rw [List.filter_eq_nil_iff]
  intro y hy
  obtain ⟨x, hx, rfl⟩ := List.mem_map.mp hy
  rw [Write.left_all since (h x hx)]
  decide

/-! ### A store at the home slice, and the load that follows -/

/-- A load of a word that one core has written reads no registration first. -/
theorem State.meetPend_sole {s : State} {k wa : Nat} (h : s.SoleWriter wa (coreOf k + 1)) : s.meetPend k wa = s := by
  unfold State.meetPend
  rw [if_neg]
  simp only [List.any_eq_true, Bool.and_eq_true, bne_iff_ne, not_exists, not_and]
  exact fun x hx hne => absurd (h x hx) hne

/-- A load of a word whose core holds no copy of it gives what the home slice answers once the line is there. -/
theorem State.loadWord_home {s : State} {k hint wa : Nat} (h : s.SoleWriter wa (coreOf k + 1)) (hc : s.caches wa = true)
    (hn : s.cached (coreOf k) wa = none) :
    (s.loadWord k hint wa).2 = (s.touchSlice wa false (s.allocates hint wa)).homeWord wa := by
  simp only [State.loadWord, State.meetPend_sole h, hc, hn, Bool.not_true, Bool.false_eq_true, ↓reduceIte]
  split <;> rfl

/-- A load of a word on which its core has a store pending gives what was stored. -/
theorem State.loadWord_pending {s : State} {k wa : Nat} {v : Word} (hint : Nat) (h : s.SoleWriter wa (coreOf k + 1))
    (hc : s.caches wa = true) (hn : s.cached (coreOf k) wa = some { st := .pending, val := v }) :
    (s.loadWord k hint wa).2 = v := by
  simp only [State.loadWord, State.meetPend_sole h, hc, hn, Bool.not_true, Bool.false_eq_true, ↓reduceIte]
  rw [if_neg]
  simp

/-- A store of a whole word by the one core that has written it, where the home slice keeps what is written. -/
theorem State.homeStore_kept {s : State} {wa rank : Nat} (since : Nat) (v : Word) (hk : s.keepsWrites wa = true)
    (h : s.SoleWriter wa rank) :
    let t := s.homeStore wa rank since 15 v
    Map.find? t.mem.l2 wa = some v ∧ t.mem.bytes = s.mem.bytes ∧ t.SoleWriter wa rank := by
  have hall := State.recorded_all since h
  simp only [State.homeStore, State.record, hall, lastWord_all, State.setHome, hk, ↓reduceIte, List.foldl_nil, BEq.rfl]
  split
  all_goals
    refine ⟨Map.find?_set_same _ _ _, rfl, fun x hx => ?_⟩
    rw [show x = _ from List.mem_singleton.mp (by simpa [State.dropCopies, State.unpoison, State.setMem] using hx)]

/-- Of a word that the home slice keeps, a load after a store there reads what was stored. -/
theorem State.load_homeStore {s : State} {k h wa : Nat} {v : Word} (hwf : s.mem.bytes.wf = true)
    (hk : s.keepsWrites wa = true) (hs : s.SoleWriter wa (coreOf k + 1)) (since : Nat) (first alloc : Bool) :
    let t := (s.touchSlice wa first alloc).homeStore wa (coreOf k + 1) since 15 v
    ((t.setMem { t.mem with dcache := Map.del t.mem.dcache (dkey (coreOf k) wa) }).loadWord k h wa).2 = v := by
  intro t
  have ho : t.outside = s.outside := by
    show State.outside (State.homeStore ..) = _
    rw [State.homeStore_outside, State.touchSlice_outside]
  have hk' : (s.touchSlice wa first alloc).keepsWrites wa = true :=
    (State.keepsWrites_of_outside (State.touchSlice_outside ..) wa).trans hk
  obtain ⟨hl2, hbytes, hsole⟩ : Map.find? t.mem.l2 wa = some v ∧ t.mem.bytes = (s.touchSlice wa first alloc).mem.bytes ∧
      t.SoleWriter wa (coreOf k + 1) :=
    State.homeStore_kept since v hk' (State.soleWriter_of_writes (State.touchSlice_writes ..) hs)
  have hcaches : t.caches wa = true := (State.caches_of_outside ho wa).trans (Bool.and_eq_true_iff.mp hk).1
  have hb : t.mem.bytes.wf = true := by
    rw [hbytes]
    exact State.touchSlice_wf _ _ _ hwf
  clear_value t
  refine (State.loadWord_home (s := t.setMem { t.mem with dcache := Map.del t.mem.dcache (dkey (coreOf k) wa) }) hsole hcaches
    (Map.find?_del_same _ _)).trans ?_
  exact State.touchSlice_homeWord _ _ _ _ _ _ hb hl2

/-! ### A store that stays pending in the data cache -/

/-- A registration of one's own core leaves a word that it alone has written so. -/
theorem State.register_sole {s : State} {p : Pend} {wa : Nat} (hs : s.SoleWriter wa (p.core + 1)) (drop : Bool) (late : List Nat) :
    (s.register p drop late).SoleWriter wa (p.core + 1) := by
  have h0 : ((s.setMem { s.mem with pend := s.mem.pend.erase p }).touchSlice p.word false true).SoleWriter wa (p.core + 1) :=
    State.soleWriter_of_writes (State.touchSlice_writes ..) hs
  have h1 {u : State} (hu : u.SoleWriter wa (p.core + 1)) (since : Nat) (mask : BitVec 4) (v : Word) :
      (u.record p.word (p.core + 1) since mask v).1.SoleWriter wa (p.core + 1) := by
    intro x hx
    simp only [State.record, State.setMem, Map.getD_set] at hx
    split at hx
    · rename_i e
      rcases List.mem_cons.mp hx with rfl | hx
      · rfl
      · obtain ⟨y, hy, rfl⟩ := List.mem_map.mp (List.mem_filter.mp hx).1
        rw [Write.left_rank]
        exact hu y (e ▸ hy)
    · refine hu x ?_
      unfold State.setHome at hx
      split at hx <;> exact hx
  have h2 := h1 h0 p.since p.mask p.val
  simp only [State.register]
  generalize State.record _ _ _ _ _ _ = r at h2 ⊢
  split
  · exact h2
  · split <;> exact h2

theorem State.evictData_sole {s : State} {core wa : Nat} (line : Nat) (hs : s.SoleWriter wa (core + 1)) :
    (s.evictData core line).SoleWriter wa (core + 1) := by
  have go (l : List Pend) (hl : ∀ p ∈ l, p.core = core) (u : State) (hu : u.SoleWriter wa (core + 1)) :
      (l.foldl (fun s p => s.register p true) u).SoleWriter wa (core + 1) := by
    induction l generalizing u with
    | nil => exact hu
    | cons p r ih =>
      have hp : p.core = core := hl p (by simp)
      refine ih (fun q hq => hl q (List.mem_cons_of_mem _ hq)) _ ?_
      rw [← hp]
      exact State.register_sole (hp ▸ hu) true []
  exact go _ (fun p hp => by
    have := (List.mem_filter.mp hp).2
    exact beq_iff_eq.mp (Bool.and_eq_true_iff.mp this).1) s hs

theorem State.touchData_sole {s : State} {core wa : Nat} (x : Nat) (first : Bool) (hs : s.SoleWriter wa (core + 1)) :
    (s.touchData core x first).SoleWriter wa (core + 1) := by
  simp only [State.touchData]
  split
  · exact hs
  · split
    · exact hs
    · exact State.evictData_sole _ hs

/-- Whether a core has written a word that its data cache still holds so. -/
def State.holdsOwn (s : State) (core wa : Nat) : Bool :=
  match s.cached core wa with
  | some w => w.st != .valid
  | none => false

/-- A store that is performed at the home slice. -/
def State.storeHome (s : State) (k hint wa : Nat) (v : Word) : State :=
  let t := (s.touchSlice wa (hint == 3) (s.keepsWrites wa)).homeStore wa (coreOf k + 1) (s.thread k).acq 15 v
  t.setMem { t.mem with dcache := Map.del t.mem.dcache (dkey (coreOf k) wa) }

theorem State.storeWord_home {s : State} {k hint wa : Nat} (nc : Bool) (v : Word)
    (h : s.keepsWrites wa = false ∨ (2 ≤ hint ∧ s.holdsOwn (coreOf k) wa = false)) :
    s.storeWord k hint wa nc 15 v = s.storeHome k hint wa v := by
  refine if_pos ?_
  obtain h | ⟨h2, hn⟩ := h
  · rw [h]; rfl
  · rw [Bool.or_eq_true]
    exact .inr (Bool.and_eq_true_iff.mpr ⟨decide_eq_true h2, (congrArg not hn).trans rfl⟩)

/-- A store that waits for its registration leaves its value pending. -/
theorem State.storeWord_pending {s : State} {k hint wa : Nat} (nc : Bool) (v : Word) (hk : s.keepsWrites wa = true)
    (h : ¬ (2 ≤ hint ∧ s.holdsOwn (coreOf k) wa = false)) :
    let t := s.storeWord k hint wa nc 15 v
    let u := (s.unpoison wa).touchData (coreOf k) wa (hint == 1)
    t.outside = u.outside ∧ t.mem.writes = u.mem.writes ∧ t.cached (coreOf k) wa = some { st := .pending, val := v } := by
  have hc : ¬ (!s.keepsWrites wa || (2 ≤ hint && !s.holdsOwn (coreOf k) wa)) = true := by
    rw [hk, Bool.not_true, Bool.false_or, Bool.and_eq_true, decide_eq_true_iff, Bool.not_eq_true']
    exact h
  intro t u
  have ht : t = _ := if_neg hc
  rw [ht]
  refine ⟨rfl, rfl, ?_⟩
  show Map.find? (Map.set u.mem.dcache (dkey (coreOf k) wa) { st := .pending, val := byMask 15 _ v }) (dkey (coreOf k) wa) = _
  rw [Map.find?_set_same, byMask_all]

/-- Where the home slices keep what the device writes to a word, a load after a store by the same thread reads what was stored. -/
theorem State.load_store {s : State} {k wa : Nat} (hint h : Nat) (nc : Bool) (v : Word) (hwf : s.mem.bytes.wf = true)
    (hk : s.keepsWrites wa = true) (hs : s.SoleWriter wa (coreOf k + 1)) :
    ((s.storeWord k hint wa nc 15 v).loadWord k h wa).2 = v := by
  by_cases hc : 2 ≤ hint ∧ s.holdsOwn (coreOf k) wa = false
  · rw [State.storeWord_home nc v (.inr hc)]
    exact State.load_homeStore hwf hk hs (s.thread k).acq (hint == 3) (s.keepsWrites wa)
  · obtain ⟨ho, hw, hp⟩ := State.storeWord_pending nc v hk hc
    rw [State.touchData_outside, State.unpoison_outside] at ho
    have hsole := State.touchData_sole (s := s.unpoison wa) wa (hint == 1) hs
    refine State.loadWord_pending h (State.soleWriter_of_writes hw hsole) ?_ hp
    exact (State.caches_of_outside ho wa).trans (Bool.and_eq_true_iff.mp hk).1

/-! ### Words written outside an expander's memory -/

theorem State.setChipWord_memory {s : State} {a : Nat} (v : Word) (h : spaceOf (BitVec.ofNat 64 a) ≠ 2) :
    s.setChipWord a v = s.setMem { s.mem with
      poison := s.mem.poison.filter (· != a), bytes := s.mem.bytes.setWord a v } := by
  refine if_neg ?_
  rw [beq_iff_eq]
  exact h

theorem State.homeWrite_kept {s : State} {wa : Nat} (v : Word) (hk : s.keepsWrites wa = true) :
    (s.homeWrite wa v).mem.l2 = Map.set s.mem.l2 wa v ∧ (s.homeWrite wa v).mem.bytes = s.mem.bytes := by
  simp only [State.homeWrite, State.setHome, hk, ↓reduceIte]
  exact ⟨rfl, rfl⟩

/-- Outside the device memory of a TD9-H. -/
theorem State.isDev_high {s : State} {wa : Nat} (hf : s.fitX = false) : s.isDev wa = false ↔ 512 * 2 ^ 30 ≤ wa := by
  simp [State.isDev, State.devBytes, hf]

/-- The home slices keep a word that the device caches, unless it lies in an expander's memory. -/
theorem State.keepsWrites_of {s : State} {wa : Nat} (hc : s.caches wa = true)
    (h : 512 * 2 ^ 30 ≤ wa → Config.expander (lineAddr wa) = false) : s.keepsWrites wa = true := by
  have hx : s.inExpander wa = false := by
    unfold State.inExpander
    cases hf : s.fitX
    · cases hd : s.isDev wa
      · rw [h ((State.isDev_high hf).mp hd)]; rfl
      · rfl
    · rfl
  rw [State.keepsWrites, hc, hx]
  rfl

/-! ### A word of an expander's memory that an eviction overwrites -/

/-- A store at the home slice of a word of an expander's memory is performed there, and leaves no copy of the line. -/
theorem State.homeStore_expander {s : State} {wa rank : Nat} (since : Nat) (v : Word) (hk : s.keepsWrites wa = false)
    (h : s.SoleWriter wa rank) :
    let t := s.homeStore wa rank since 15 v
    t.mem.l2 = Map.del s.mem.l2 wa ∧ t.mem.bytes = s.mem.bytes.setWord wa v ∧ t.mem.pot = s.mem.pot ∧
      t.mem.slices = (s.dropSlice (lineAddr wa)).mem.slices ∧ t.SoleWriter wa rank := by
  have hall := State.recorded_all since h
  simp only [State.homeStore, State.record, hall, lastWord_all, State.setHome, hk, Bool.false_eq_true, ↓reduceIte,
    List.foldl_nil, BEq.rfl]
  split
  all_goals
    refine ⟨rfl, rfl, rfl, rfl, fun x hx => ?_⟩
    rw [show x = _ from List.mem_singleton.mp
      (by simpa [State.dropCopies, State.unpoison, State.setMem, State.dropSlice] using hx)]

/-- A line that is not in the L2 and is not to be allocated there is not touched. -/
theorem State.touchSlice_absent {s : State} {wa : Nat} (first : Bool) (hd : s.isDev (lineAddr wa) = false)
    (hh : (Map.getD s.mem.slices (sliceOf (lineAddr wa)) []).contains (lineAddr wa) = false) :
    s.touchSlice wa first false = s := by
  simp only [State.touchSlice, hh, State.channelRead, hd, Bool.false_eq_true, ↓reduceIte, Bool.or_self, Bool.not_false, ite_self]

theorem State.homeWord_slices (s : State) (m : Map (List Nat)) (wa : Nat) :
    (s.setMem { s.mem with slices := m }).homeWord wa = s.homeWord wa := rfl

/-- A line that is allocated in a full slice evicts the first of the slice. -/
theorem State.touchSlice_full {s : State} {wa x : Nat} {l : List Nat} (hc : s.caches wa = true)
    (hd : s.isDev (lineAddr wa) = false) (hm : Map.getD s.mem.slices (sliceOf (lineAddr wa)) [] = x :: l)
    (hh : lineAddr wa ∉ x :: l) (hl : Config.sliceLines ≤ (x :: l).length) :
    (s.touchSlice wa false true).homeWord wa = (s.evictLine x).homeWord wa := by
  have hn : (x :: l).contains (lineAddr wa) = false := by simpa using hh
  have hf : (x :: l).filter (· != lineAddr wa) = x :: l := by
    rw [List.filter_eq_self]
    exact fun y hy => bne_iff_ne.mpr fun e => hh (e ▸ hy)
  simp only [State.touchSlice, hc, hm, hn, hf, State.channelRead, hd, Bool.false_eq_true, ↓reduceIte, Bool.not_true, Bool.or_true,
    Nat.not_lt.mpr hl]
  exact State.homeWord_slices ..

theorem State.writeDirties_clean {s : State} (line : Nat) (l : List Nat) (h : s.mem.l2 = []) :
    l.foldl (fun s i => s.writeDirty (line + 4 * i)) s = s := by
  refine foldl_same _ _ _ fun i _ => ?_
  unfold State.writeDirty
  rw [h]
  rfl

/-- A line whose first word alone is dirty, outside the device, writes that word to memory when it leaves the L2. -/
theorem State.evictLine_one {s : State} {x : Nat} {w : Word} (hd : s.isDev x = false) (hp : s.mem.pot = [])
    (hl : s.mem.l2 = [(x, w)]) :
    (s.evictLine x).mem.l2 = [] ∧ (s.evictLine x).mem.bytes = s.mem.bytes.setWord x w := by
  have hcount : (s.recallLine x).countWrite x = s.recallLine x := by
    refine if_pos ?_
    show (!((Map.getD s.mem.pot (x / 4096) Pot.init).bound && _)) = true
    rw [hp]
    rfl
  have hchan : ((s.recallLine x).countWrite x).channelWrite x = s.recallLine x := by
    rw [hcount]
    refine if_neg ?_
    rw [show (s.recallLine x).isDev x = false from hd]
    exact Bool.false_ne_true
  have hfirst : (s.recallLine x).writeDirty x = (s.recallLine x).setMem { (s.recallLine x).mem with
      bytes := s.mem.bytes.setWord x w, l2 := [] } := by
    have hf : Map.find? (s.recallLine x).mem.l2 x = some w := by
      show Map.find? s.mem.l2 x = _
      rw [hl]
      exact if_pos rfl
    have hdel : Map.del (s.recallLine x).mem.l2 x = [] := by
      show Map.del s.mem.l2 x = _
      rw [hl]
      exact List.filter_cons_of_neg (by simp)
    simp only [State.writeDirty, hf, hdel]
    rfl
  have hwrite : (s.recallLine x).writeLine x = (s.recallLine x).setMem { (s.recallLine x).mem with
      bytes := s.mem.bytes.setWord x w, l2 := [] } := by
    rw [State.writeLine_eq, hchan, ite_self]
    rw [show List.range 16 = 0 :: (List.range 15).map Nat.succ from List.range_succ_eq_map, List.foldl_cons, Nat.mul_zero,
      Nat.add_zero, hfirst]
    exact State.writeDirties_clean x _ rfl
  rw [State.evictLine, hwrite]
  exact ⟨rfl, rfl⟩

/-- The slice of a line holds `n` times a line that begins two bytes after it, whose first word is dirty. -/
def State.crowded (line n : Nat) : State :=
  State.reset.setMem { State.reset.mem with
    l2 := [(line + 2, 0xFFFFFFFF)], slices := [(sliceOf line, List.replicate n (line + 2))] }

theorem State.crowded_slices (line n : Nat) :
    Map.getD (State.crowded line n).mem.slices (sliceOf line) [] = List.replicate n (line + 2) := by
  simp [State.crowded, Map.getD, Map.find?]

theorem not_mem_crowd (line n : Nat) : line ∉ List.replicate n (line + 2) := fun hm => by
  have := List.eq_of_mem_replicate hm
  omega

theorem State.crowded_keepsWrites {line n : Nat} (hl : 512 * 2 ^ 30 ≤ line) (hx : Config.expander (lineAddr line) = true) :
    (State.crowded line n).keepsWrites line = false := by
  have hdev : (State.crowded line n).isDev line = false := (State.isDev_high rfl).mpr hl
  rw [State.keepsWrites, State.inExpander, hdev, hx]
  exact Bool.and_false _

/-- What a store of 0 to a word of an expander's memory leaves of a crowded slice. -/
theorem State.crowded_store {line n : Nat} (hl : 512 * 2 ^ 30 ≤ line) (h64 : line % 64 = 0)
    (hx : Config.expander line = true) :
    let t := (State.crowded line n).storeWord 0 0 line false 15 0
    t.outside = State.reset.outside ∧ t.mem.l2 = [(line + 2, 0xFFFFFFFF)] ∧ t.mem.bytes = [] ∧ t.mem.pot = [] ∧
      Map.getD t.mem.slices (sliceOf line) [] = List.replicate n (line + 2) ∧ t.SoleWriter line 1 ∧ t.cached 0 line = none := by
  have hline : lineAddr line = line := by unfold lineAddr; omega
  have hk : (State.crowded line n).keepsWrites line = false := State.crowded_keepsWrites hl (hline.symm ▸ hx)
  have hs : (State.crowded line n).SoleWriter line 1 := fun x hm => nomatch hm
  have hdev : (State.crowded line n).isDev (lineAddr line) = false := by
    rw [hline]
    exact (State.isDev_high rfl).mpr hl
  have htouch : (State.crowded line n).touchSlice line (0 == 3) ((State.crowded line n).keepsWrites line) =
      State.crowded line n := by
    rw [hk]
    refine State.touchSlice_absent _ hdev ?_
    rw [hline, State.crowded_slices]
    simp
  rw [State.storeWord_home false 0 (.inl hk), State.storeHome, htouch]
  obtain ⟨hl2, hb, hpot, hslices, hsole⟩ := State.homeStore_expander ((State.crowded line n).thread 0).acq 0 hk hs
  refine ⟨State.homeStore_outside .., ?_, ?_, hpot, ?_, hsole, Map.find?_del_same _ _⟩
  · refine hl2.trans (List.filter_cons_of_pos ?_)
    simp
  · refine hb.trans ?_
    simp [State.crowded, State.setMem, State.reset, Mem.init, Memory.setWord, Memory.write, blankByte]
  · show Map.getD (State.homeStore ..).mem.slices _ _ = _
    refine (congrArg (fun m => Map.getD m (sliceOf line) []) hslices).trans ?_
    simp [State.crowded, State.dropSlice, Map.getD, Map.find?, hline]

theorem Memory.getLsbD_word (m : Memory) (a i : Nat) : (m.word a).getLsbD i =
    (m.read (a + 3) ++ m.read (a + 2) ++ m.read (a + 1) ++ m.read a : BitVec (8 + 8 + 8 + 8)).getLsbD i := rfl

theorem Memory.word_byte0 (m : Memory) (a : Nat) : (m.word a).extractLsb' 0 8 = m.read a := by
  ext i hi
  rw [BitVec.getElem_extractLsb', Nat.zero_add, Memory.getLsbD_word, BitVec.getLsbD_append, if_pos hi,
    BitVec.getLsbD_eq_getElem hi]

theorem Memory.word_byte2 (m : Memory) (a : Nat) : (m.word a).extractLsb' 16 8 = m.read (a + 2) := by
  ext i hi
  rw [BitVec.getElem_extractLsb', Memory.getLsbD_word, BitVec.getLsbD_append, if_neg (by omega), BitVec.getLsbD_append,
    if_neg (by omega), BitVec.getLsbD_append, if_pos (by omega), show 16 + i - 8 - 8 = i by omega,
    BitVec.getLsbD_eq_getElem hi]

/-- In a crowded slice a load of a word of an expander's memory reads what the eviction has written over the store. -/
theorem State.crowded_load {line n : Nat} (hl : 512 * 2 ^ 30 ≤ line) (h64 : line % 64 = 0)
    (hx : Config.expander line = true) (hn : Config.sliceLines ≤ n + 1) :
    (((State.crowded line (n + 1)).storeWord 0 0 line false 15 0).loadWord 0 0 line).2 ≠ 0 := by
  have hline : lineAddr line = line := by unfold lineAddr; omega
  obtain ⟨ho, hl2, hb, hpot, hslices, hsole, hcached⟩ := State.crowded_store (n := n + 1) hl h64 hx
  generalize (State.crowded line (n + 1)).storeWord 0 0 line false 15 0 = t at *
  have hdev (x : Nat) (h : line ≤ x) : t.isDev x = false :=
    (State.isDev_high (State.fitX_of_outside ho)).mpr (Nat.le_trans hl h)
  have hc : t.caches line = true := by
    rw [State.caches, State.fitX_of_outside ho]
    rfl
  rw [State.loadWord_home (k := 0) hsole hc hcached]
  have hcons : Map.getD t.mem.slices (sliceOf line) [] = (line + 2) :: List.replicate n (line + 2) := hslices
  have hlen : Config.sliceLines ≤ ((line + 2) :: List.replicate n (line + 2)).length := by
    rw [List.length_cons, List.length_replicate]
    exact hn
  have hfull := State.touchSlice_full hc (hline.symm ▸ hdev line (Nat.le_refl _)) (hline.symm ▸ hcons)
    (hline.symm ▸ not_mem_crowd line (n + 1)) hlen
  rw [show t.allocates 0 line = true from rfl, hfull]
  obtain ⟨he2, heb⟩ := State.evictLine_one (hdev (line + 2) (by omega)) hpot hl2
  rw [State.homeWord, he2, heb, hb]
  intro h0
  have hw := Memory.word_setWord [] (line + 2) 0xFFFFFFFF rfl
  have hzero := (Memory.word_byte2 _ _).symm.trans (congrArg (fun w => w.extractLsb' 16 8) h0)
  have hones := (Memory.word_byte0 _ _).symm.trans (congrArg (fun w => w.extractLsb' 0 8) hw)
  exact absurd (hzero.symm.trans hones) (by decide)

end Sys2Proof.Machine

namespace Sys2Proof
open Sys2Proof.Machine

theorem storesAndLoads_chip {s : State} {a : Nat} (v : Word) (hw : s.mem.bytes.wf = true)
    (ha : spaceOf (BitVec.ofNat 64 a) ≠ 2) :
    let t := s.setChipWord a v
    t.mem.bytes.wf = true ∧ t.mem.bytes.word a = v ∧
      (∀ x, x < a ∨ a + 4 ≤ x → t.mem.bytes.read x = s.mem.bytes.read x) ∧
      t.fab = s.fab ∧ t.mem.l2 = s.mem.l2 ∧ t.mem.dcache = s.mem.dcache := by
  intro t
  rw [show t = _ from State.setChipWord_memory v ha]
  exact ⟨Memory.wf_setWord _ _ _ hw, Memory.word_setWord _ _ _ hw, fun x hx => Memory.read_setWord_other _ _ _ _ hw hx, rfl,
    rfl, rfl⟩

theorem storesAndLoads_home {s : State} {wa : Nat} (v : Word) (hk : s.keepsWrites wa = true) :
    let t := s.homeWrite wa v
    t.homeWord wa = v ∧ t.mem.bytes = s.mem.bytes ∧ t.fab = s.fab ∧ ∀ x, x ≠ wa → t.homeWord x = s.homeWord x := by
  intro t
  obtain ⟨hl2, hb⟩ := State.homeWrite_kept v hk
  refine ⟨?_, hb, State.homeWrite_fab .., fun x hx => ?_⟩
  · rw [State.homeWord, hl2, Map.find?_set_same]
    rfl
  · rw [State.homeWord, hl2, hb, Map.find?_set_other _ _ _ _ hx]
    rfl

/-- O58 turns on an open value of the model: it holds where no line outside the device memory of a TD9-H lies in an expander's
memory, and fails where one does (a full slice then evicts a line that overlaps the word, after the store was performed in memory).
`Config.expander` is opaque, so neither it nor its negation follows. -/
theorem storesAndLoads_iff : Obligations.StoresAndLoads ↔
    ∀ line, 512 * 2 ^ 30 ≤ line → line % 64 = 0 → Config.expander line = false := by
  refine ⟨fun h line hl h64 => ?_, fun h => ⟨?_, ?_, ?_⟩⟩
  · obtain ⟨-, -, hload⟩ := h
    cases hx : Config.expander line
    · rfl
    · have h4 : line % 4 = 0 := by omega
      exact absurd (hload (State.crowded line (65535 + 1)) 0 0 line 0 false 0 h4 rfl rfl fun x hm => nomatch hm)
        (State.crowded_load hl h64 hx (Nat.le_refl _))
  · exact fun s a v hw ha => storesAndLoads_chip v hw ha
  · intro s wa v _ hk
    obtain ⟨hv, hb, hf, hother⟩ := storesAndLoads_home v hk
    exact ⟨hv, hb, hf, fun x _ hx => hother x hx⟩
  · intro s k hint wa l nc v _ hwf hc hs
    refine State.load_store hint l nc v hwf (State.keepsWrites_of hc fun hge => h _ ?_ ?_) hs
    · unfold lineAddr; omega
    · unfold lineAddr; omega

end Sys2Proof
end
